-- ==== Sys2Proof/Word.lean ====
section
/-! DEFINITION. Word types of the DLW9 and their plainest arithmetic (spec R3, R4, R311). -/

namespace Sys2Proof

/-- A 64-bit value: G registers, operand slots a and b, channel data. -/
abbrev W64 := BitVec 64

/-- One byte of storage (R4). -/
abbrev Byte := BitVec 8

/-- Number of a bit list, least significant bit first. -/
def ofBits : List Bool → Nat
  | [] => 0
  | b :: bs => b.toNat + 2 * ofBits bs

/-- Little-endian number of a byte list (R4). -/
def leNat : List Byte → Nat
  | [] => 0
  | b :: bs => b.toNat + 256 * leNat bs

/-- The `n` low bytes of `v`, least significant first (R4). -/
def leBytes : Nat → Nat → List Byte
  | 0, _ => []
  | n + 1, v => BitVec.ofNat 8 v :: leBytes n (v / 256)

/-- Bits `lo + n - 1` down to `lo` of a number. -/
def bitsOf (v lo n : Nat) : Nat := v / 2 ^ lo % 2 ^ n

/-- Bit `k` of a number. -/
def bitOf (v k : Nat) : Bool := v / 2 ^ k % 2 == 1

/-- The 64-bit word of a number. -/
def w64 (n : Nat) : W64 := BitVec.ofNat 64 n

/-- Two's-complement reading of the `n` low bits of `v`. -/
def sext (n v : Nat) : Int :=
  let x := v % 2 ^ n
  if x < 2 ^ (n - 1) then (x : Int) else (x : Int) - (2 ^ n : Nat)

/-- The residue of an integer modulo `2 ^ n`, as a number. -/
def wrapNat (n : Nat) (z : Int) : Nat := (z % ((2 ^ n : Nat) : Int)).toNat

end Sys2Proof
end

