-- ==== Sys2Proof/Config.lean ====
section
/-! DEFINITION. What an implementation fixes and what the manual leaves open. Every constant here is opaque: nothing in
Lean can evaluate it, so a statement holds for every value of it. Each is named in the assumption log. -/

namespace Sys2Proof.Config

/-- A fresh undefined 64-bit value (R7): the argument is the model's own counter `State.freeCtr`. Log 3. -/
opaque freeWord : Nat → BitVec 64

/-- A fresh undefined byte (R7), by the same counter. Log 3. -/
opaque freeByte : Nat → BitVec 8

/-- Verdict of the XMSS check of a firmware image (R281): signature scheme given by name only. Log 4. -/
opaque firmwareOk : List (BitVec 8) → Bool

/-- The XMSS signature of an attestation report under leaf `n` (R281, R282). Log 4. -/
opaque xmssSign : Nat → List (BitVec 8) → List (BitVec 8)

/-- SHAKE256 of the running firmware as the report carries it (R282): the firmware image is not part of the manual. Log 4. -/
opaque firmwareHash : Nat → List (BitVec 8)

/-- The power controller at an evaluation (R283, R284): the manual gives bounds and directions and no figures. `powerCut`: how
far PRATE falls for each 1,024 flits that a tile has injected, by cycle; `powerRate`: how far it rises; `powerDepth`: the new
PDEPTH; both by tile, cycle and present PRATE. Log 5. -/
opaque powerCut : Nat → Nat
opaque powerRate : Nat → Nat → Nat → Nat
opaque powerDepth : Nat → Nat → Nat → Nat

/-- Power measured by the controller at an evaluation, in watts, and what a sensor of the package reads, in degrees, by 48 x
die + sensor and cycle (R272, R283, R284): outside inputs; and which of its die's 48 sensors is nearest a tile. Log 5. -/
opaque measuredPower : Nat → Nat
opaque sensorTemp : Nat → Nat → Nat
opaque sensorNear : Nat → Nat

/-- Which of the two roundings a transcendental takes when the model's bounded-precision interval does not decide it
(R69): true for the larger magnitude. Log 6. -/
opaque hardCase : Nat → Bool

/-- The line a slice gives up when a fill finds it full (R134): the manual names no replacement rule. Log 8. -/
opaque tieBreak : Nat → Nat

end Sys2Proof.Config
end

