-- ==== Sys2Proof/Syntax.lean ====
section
/-! DEFINITION. The syntax of the DLW9: one inductive, one constructor for each row of the opcode table, in the table's
order within each kind. The first 182 constructors are the sequencer instructions (R289-R298), the next 53 the element
operations (R301, R302), the last 76 the machine's EVENTS (what the units and the outside do). An instruction carries its
encoding's fields and no others. An event has no encoding and carries nothing: the unit it happens at, and what the outside
sends with it, stand in the state (`State.focus`), as an instruction's tile, context and index do. -/

namespace Sys2Proof

/-- The common fields of a sequencer word (R289): address-stream marker, predication and the two targets, each target
V ++ DIST ++ SLOT (R290). -/
structure Head where
  a : Bool
  pr : BitVec 2
  t0 : BitVec 10
  t1 : BitVec 10
  deriving DecidableEq, Repr

/-- The fields of format M (R292). -/
structure MFmt where
  ts : BitVec 4
  cls : BitVec 4
  ord : BitVec 2
  scp : BitVec 3
  ow : Bool
  ofs : BitVec 17
  deriving DecidableEq, Repr

/-- The fields of XCOPY (R395). -/
structure XcopyF where
  mode : BitVec 3
  ch : BitVec 2
  mapn : BitVec 4
  bv : Bool
  bnum : BitVec 6
  wf : Bool
  sf : Bool
  lenm1 : BitVec 13
  deriving DecidableEq, Repr

/-- The fields of an element operation word below its opcode (R301). -/
structure ElemF where
  lm : BitVec 2
  dst : BitVec 4
  sa : BitVec 4
  sb : BitVec 4
  sc : BitVec 4
  pidx : BitVec 3
  pwe : Bool
  keep : Bool
  md : BitVec 2
  deriving DecidableEq, Repr

/-- Every row of the opcode table. -/
inductive Instr where
  | nop (h : Head)
  | get (h : Head) (r : BitVec 6)
  | put (h : Head) (r : BitVec 6)
  | const_ (h : Head) (imm : BitVec 41)
  | movi (h : Head) (imm : BitVec 27)
  | mov (h : Head)
  | null_ (h : Head) (r : BitVec 6)
  | csrr (h : Head) (num : BitVec 12)
  | csrw (h : Head) (num : BitVec 12)
  | csrs (h : Head) (num : BitVec 12)
  | csrc (h : Head) (num : BitVec 12)
  | add (h : Head) (w : Bool)
  | addi (h : Head) (w : Bool) (imm : BitVec 27)
  | sub (h : Head) (w : Bool)
  | mul (h : Head) (w : Bool)
  | mulh (h : Head) (w : Bool)
  | mulhu (h : Head) (w : Bool)
  | div (h : Head) (w : Bool)
  | divu (h : Head) (w : Bool)
  | rem (h : Head) (w : Bool)
  | remu (h : Head) (w : Bool)
  | neg (h : Head) (w : Bool)
  | abs_ (h : Head) (w : Bool)
  | min (h : Head) (w : Bool)
  | max (h : Head) (w : Bool)
  | minu (h : Head) (w : Bool)
  | maxu (h : Head) (w : Bool)
  | adds (h : Head) (w : Bool)
  | subs (h : Head) (w : Bool)
  | and_ (h : Head) (w : Bool)
  | andi (h : Head) (w : Bool) (imm : BitVec 27)
  | or_ (h : Head) (w : Bool)
  | ori (h : Head) (w : Bool) (imm : BitVec 27)
  | xor (h : Head) (w : Bool)
  | xori (h : Head) (w : Bool) (imm : BitVec 27)
  | not_ (h : Head) (w : Bool)
  | shl (h : Head) (w : Bool)
  | shli (h : Head) (w : Bool) (k : BitVec 6)
  | shr (h : Head) (w : Bool)
  | shri (h : Head) (w : Bool) (k : BitVec 6)
  | sar (h : Head) (w : Bool)
  | sari (h : Head) (w : Bool) (k : BitVec 6)
  | rotl (h : Head) (w : Bool)
  | clz (h : Head) (w : Bool)
  | ctz (h : Head) (w : Bool)
  | popc (h : Head) (w : Bool)
  | bext (h : Head) (w : Bool) (lo len : BitVec 6)
  | bins (h : Head) (w : Bool) (lo len : BitVec 6)
  | sext (h : Head) (w : Bool) (k : BitVec 6)
  | zext (h : Head) (w : Bool) (k : BitVec 6)
  | cmp (h : Head) (w : Bool) (cond : BitVec 3)
  | cmpi (h : Head) (w : Bool) (cond : BitVec 3) (imm : BitVec 27)
  | sel (h : Head)
  | pand (h : Head)
  | por (h : Head)
  | pnot (h : Head)
  | lea (h : Head) (w : Bool) (imm : BitVec 27)
  | tmapx (h : Head) (n : BitVec 4)
  | widf (h : Head) (fld : BitVec 3)
  | widl (h : Head)
  | alignup (h : Head) (w : Bool) (k : BitVec 6)
  | modadd (h : Head)
  | br (h : Head) (x : BitVec 3) (ofs : BitVec 28)
  | brr (h : Head) (x : BitVec 3)
  | call (h : Head) (x : BitVec 3) (ofs : BitVec 28)
  | callr (h : Head) (x : BitVec 3)
  | ret_ (h : Head) (x : BitVec 3)
  | switch (h : Head) (x : BitVec 3)
  | trap (h : Head) (imm : BitVec 27)
  | svc (h : Head) (imm : BitVec 27)
  | eret (h : Head) (x : BitVec 3)
  | halt (h : Head) (x : BitVec 3)
  | yield (h : Head)
  | waitev (h : Head)
  | cfgld (h : Head)
  | reconf (h : Head)
  | ctxsave (h : Head)
  | ctxrest (h : Head)
  | tlbinvPage (h : Head)
  | tlbinvAsn (h : Head)
  | tlbinvAll (h : Head)
  | ld (h : Head) (m : MFmt)
  | st (h : Head) (m : MFmt)
  | ldf (h : Head) (m : MFmt)
  | ldff (h : Head) (m : MFmt)
  | ste (h : Head) (m : MFmt)
  | tagset (h : Head) (m : MFmt)
  | tagclr (h : Head) (m : MFmt)
  | tagq (h : Head) (m : MFmt)
  | pref (h : Head) (m : MFmt)
  | flush (h : Head) (m : MFmt)
  | inval (h : Head) (m : MFmt)
  | amo (h : Head) (m : MFmt)
  | cas (h : Head) (m : MFmt)
  | amof (h : Head) (m : MFmt)
  | red (h : Head) (m : MFmt)
  | redf (h : Head) (m : MFmt)
  | fence (h : Head) (mask : BitVec 16) (scope : BitVec 3)
  | drain (h : Head) (path : BitVec 3)
  | xcopy (h : Head) (f : XcopyF)
  | xchain (h : Head) (ch : BitVec 2)
  | xstat (h : Head) (ch : BitVec 2)
  | tmapset (h : Head) (n : BitVec 4)
  | sbindMap (h : Head) (port : BitVec 3) (mapn : BitVec 4) (e : Bool)
  | sbindChannel (h : Head) (port : BitVec 2)
  | seos (h : Head) (ch : BitVec 2)
  | sbar (h : Head) (port : BitVec 2) (v : Bool) (bnum : BitVec 6)
  | mma (h : Head) (ch : BitVec 2) (flag : Bool)
  | mmas (h : Head) (ch : BitVec 2) (flag : Bool)
  | mqk (h : Head) (ch : BitVec 2)
  | mpv (h : Head) (ch : BitVec 2)
  | mscan (h : Head) (ch : BitVec 2) (flag : Bool)
  | mzero (h : Head) (ch : BitVec 2) (flag : Bool)
  | mldacc (h : Head) (ch : BitVec 2) (flag : Bool)
  | mstacc (h : Head) (ch : BitVec 2)
  | mresc (h : Head) (ch : BitVec 2)
  | mside (h : Head) (ch side : BitVec 2)
  | mwait (h : Head) (mask : BitVec 4)
  | chpush (h : Head) (flag : Bool)
  | chpop (h : Head)
  | chpeek (h : Head)
  | cheos (h : Head)
  | chstat (h : Head) (item : BitVec 3)
  | chgrow (h : Head)
  | enq (h : Head)
  | enqw (h : Head)
  | launch (h : Head)
  | signal (h : Head)
  | send (h : Head) (dir : BitVec 2)
  | sendQ (h : Head) (dir : BitVec 2)
  | recv (h : Head)
  | recvw (h : Head)
  | recvwT (h : Head)
  | fwdQ (h : Head)
  | fwdM (h : Head)
  | fwdEnd (h : Head)
  | tokinfo (h : Head) (item : BitVec 3)
  | binit (h : Head) (bnum : BitVec 6) (level scope : BitVec 3)
  | barr (h : Head) (bnum : BitVec 6)
  | barrR (h : Head) (bnum : BitVec 6)
  | bwait (h : Head) (bnum : BitVec 6)
  | btest (h : Head) (bnum : BitVec 6)
  | badd (h : Head) (r : Bool) (bnum : BitVec 6)
  | pacq (h : Head)
  | prel (h : Head)
  | prelG (h : Head) (port : BitVec 2)
  | pqry (h : Head)
  | pctr (h : Head) (item : BitVec 3)
  | shlookWord (h : Head) (item : BitVec 3)
  | shlookFind (h : Head)
  | shmapE (h : Head)
  | shmapP (h : Head)
  | shunmapE (h : Head)
  | shunmapP (h : Head)
  | kvappend (h : Head) (flag : Bool)
  | kvcommit (h : Head)
  | kvtent (h : Head)
  | kvroll (h : Head)
  | kvfork (h : Head)
  | kvevictHbm (h : Head)
  | kvevictCold (h : Head)
  | kvevictDrop (h : Head)
  | kvevictRel (h : Head)
  | kvpin (h : Head)
  | kvpinClr (h : Head)
  | kvrefill (h : Head)
  | phashH (h : Head)
  | phashL (h : Head)
  | sumupd (h : Head)
  | psel (h : Head)
  | gchain (h : Head)
  | tsinit (h : Head)
  | tsdesc (h : Head)
  | tsexp (h : Head) (flag : Bool)
  | tsbatch (h : Head)
  | tseval (h : Head)
  | tsback (h : Head)
  | tsvl (h : Head) (flag : Bool)
  | tsreroot (h : Head)
  | tsbestN (h : Head)
  | tsbestQ (h : Head)
  | tsstat (h : Head) (item : BitVec 3)
  | elementAdd (f : ElemF)
  | elementSub (f : ElemF)
  | elementMul (f : ElemF)
  | elementFma (f : ElemF)
  | elementFms (f : ElemF)
  | elementFnma (f : ElemF)
  | elementMin (f : ElemF)
  | elementMax (f : ElemF)
  | elementAbs (f : ElemF)
  | elementNeg (f : ElemF)
  | elementAdds (f : ElemF)
  | elementSubs (f : ElemF)
  | elementMulhi (f : ElemF)
  | elementCmp (f : ElemF)
  | elementSel (f : ElemF)
  | elementPset (f : ElemF)
  | elementPmov (f : ElemF)
  | elementAnd (f : ElemF)
  | elementOr (f : ElemF)
  | elementXor (f : ElemF)
  | elementNot (f : ElemF)
  | elementShl (f : ElemF)
  | elementShr (f : ElemF)
  | elementSar (f : ElemF)
  | elementExp2 (f : ElemF)
  | elementLog2 (f : ElemF)
  | elementRcp (f : ElemF)
  | elementRsqrt (f : ElemF)
  | elementSqrt (f : ElemF)
  | elementSin (f : ElemF)
  | elementCos (f : ElemF)
  | elementCvt (f : ElemF)
  | elementBfpk (f : ElemF)
  | elementBfunpk (f : ElemF)
  | elementRndi (f : ElemF)
  | elementMov (f : ElemF)
  | elementMovi (f : ElemF)
  | elementTake (f : ElemF)
  | elementPeek (f : ElemF)
  | elementEmit (f : ElemF)
  | elementPass (f : ElemF)
  | elementTags (f : ElemF)
  | elementRedc (f : ElemF)
  | elementShuf (f : ElemF)
  | elementBcst (f : ElemF)
  | elementScan (f : ElemF)
  | elementTkins (f : ElemF)
  | elementTkout (f : ElemF)
  | elementNop (f : ElemF)
  | elementEose (f : ElemF)
  | elementCtok (f : ElemF)
  | elementWaitp (f : ElemF)
  | elementEmitp (f : ElemF)
  | hostSubmission
  | dispatcherTake
  | taskBind
  | configFetchComplete
  | taskAging
  | quantumExpiry
  | preemptAccept
  | taskSave
  | taskRebind
  | blockMap
  | blockCommit
  | safepointOverdue
  | taskRetire
  | launchEnd
  | dependentCancel
  | faultDelivery
  | faultQueueRetry
  | ctxctlResume
  | ctxctlRedirect
  | ctxctlKill
  | ctxctlPreempt
  | bankroleWrite
  | contextWindowStore
  | elementWindowStore
  | accumulatorWindowStore
  | accumulatorWindowLoad
  | channelEntryValidate
  | channelClose
  | barrierWindowStore
  | mailboxRegisterWrite
  | mread
  | mwrite
  | twritePkgcfg
  | twritePartition
  | twriteRegclass
  | twriteWorkqueue
  | twritePoisonList
  | twriteErrorCounter
  | tread
  | level
  | attest
  | fwstage
  | coldReset
  | warmReset
  | partFailure
  | linkDown
  | powerRemoval
  | powerEvaluation
  | periodBoundary
  | requestInject
  | flitInject
  | remontoireSample
  | yieldWindowEnd
  | waitevTimeout
  | storePerform
  | pageWalkComplete
  | sliceRequest
  | missEntryFree
  | correctedError
  | uncorrectableError
  | spillFetchComplete
  | packetHop
  | qtArrival
  | tokenServiceStart
  | msgArrival
  | remoteBarrierArrival
  | routeTokenLanding
  | streamInDeliver
  | streamOutToken
  | permitTokenArrival
  | matrixAccept
  | matrixComplete
  | matrixStop
  | copyRecordComplete
  | xcopyTransferComplete
  | pageMoveComplete
  deriving DecidableEq, Repr

end Sys2Proof
end

