-- ==== Sys2Proof/Machine/State.lean ====
section
/-! DEFINITION. The state of a DLW9-P package: everything the manual gives the machine, as plain data. Tables with many
entries are lists of key and value pairs, keys rising; an entry not listed holds the reset value its reader names. Tables
whose words software reads and writes keep the manual's own words and are read through accessors (Machine/Ops.lean). -/

namespace Sys2Proof.Machine

/-- A table: key and value pairs, keys rising. -/
abbrev Map (α : Type) := List (Nat × α)

/-- Fault codes of R101, and `trap` for the record of TRAP and SVC, which names no fault (R327). -/
inductive FCode where
  | trap | illegalOpcode | reservedField | blockHeader | branchAlign | slotConflict | noExit | multiExit
  | irrevocableLimit | privilege | formatMismatch | safepointOverdue | translation | permission | misaligned
  | dataPoison | regionClass | tagSpace | bankRole | regionBusy | channelCapacity | channelOwner | deadlock | queueId
  | overflowFull | permitSelf | barrierOverrun | shardId | treePoolEmpty | configInvalid | reconfPending | linkLost
  | partFailed
  deriving DecidableEq, Repr

/-- A fault before its record is written (R99, R100): code, source unit, instruction index, region, ADDR and EXTRA. -/
structure Flt where
  code : FCode
  addr : W64 := 0
  extra : W64 := 0
  src : Nat := 0
  idx : Option Nat := none
  reg : Nat := 0
  more : Bool := false
  block : W64 := 0
  late : Bool := false      -- a commit check, which any execution fault precedes (R102)
  at_ : W64 := 0            -- of a synchronous fault: the cycle that raised it (R102)
  behind : Bool := false    -- an asynchronous fault that follows a synchronous one of its block (R103)
  deriving DecidableEq, Repr

/-- A channel token of the element grid (R86). -/
structure Tok where
  data : W64
  tag : BitVec 2
  eos : Bool
  deriving DecidableEq, Repr

/-! ## Sequencer -/

/-- What has become of an instruction of a mapped block. -/
inductive NStat where
  | idle        -- its slots have not all been delivered
  | nullified   -- its predicate failed (R78)
  | issued      -- fired, waiting or unrecorded
  | recorded    -- its result is recorded or accepted, its work is not complete (R109, R361)
  | done        -- complete
  deriving DecidableEq, Repr

/-- The operand slots of one instruction of a mapped block (R78), and its progress. -/
structure Node where
  a : Option W64 := none
  b : Option W64 := none
  p : Option Bool := none
  o : Bool := false
  st : NStat := .idle
  deriving DecidableEq, Repr

/-- What a store-buffer entry does at its home (R384). -/
inductive StKind where
  | st | tagset | tagclr | flush | inval
  deriving DecidableEq, Repr

/-- An entry of a store buffer: physical address, size, value, alias class, release scope when it is a release (R385). -/
structure StEnt where
  idx : Nat
  kind : StKind
  pa : Nat
  size : Nat
  val : W64
  cls : Nat
  rel : Option Nat
  after : Option Nat  -- the instruction of its block whose token it waited for (OW), which may be a store (R153)
  va : W64
  sliced : Bool       -- its home is a slice (R149)
  ms : Bool           -- its page is memory-side (R136)
  word : W64 := 0     -- its instruction word, which faults found at its window name (R101)
  at_ : W64 := 0      -- the cycle of its block's commit: an edge joins stores of one block (R153)
  deriving DecidableEq, Repr

/-- Kind of exit that fired (R324). -/
inductive ExitKind where
  | plain | trap | svc | eret | halt
  deriving DecidableEq, Repr

/-- A block in flight (R32, R285-R288): its address, header words, instruction words, slots, and what it will commit. -/
structure Blk where
  addr : W64
  hdr : List W64
  words : List W64
  nodes : List Node
  writes : List (Nat × Nat × Option W64)        -- instruction index, register, value (none: NULL)
  csrw : List (Nat × Nat × W64 × Nat)           -- instruction index, CSR number, operand, 0 write 1 set 2 clear
  stores : List StEnt
  exits : List (Nat × Nat × ExitKind × W64 × W64)  -- exit index, instruction index, kind, target, slot a
  yield : Bool
  tmv : Nat                                      -- TMV and PBINFO as earlier blocks left them (R80)
  pbinfo : Nat
  asked : List Nat := []                         -- table commands that their unit holds until a page settles (R225, R432)
  deriving DecidableEq, Repr

/-- Entry of the irrevocable result buffer (R84). -/
structure Irv where
  idx : Nat
  res : W64
  deriving DecidableEq, Repr

/-- STATE of a context (R94). -/
inductive CtxSt where
  | free | run | stopreq | stopped | saving | held
  deriving DecidableEq, Repr

/-- A sequencer context (R74, R79, R94). -/
structure Ctx where
  st : CtxSt := .free
  task : Option Nat := none           -- the task it runs
  g : Map W64 := []                   -- G1-G63 (R75)
  fpstat : W64 := 0
  wid : W64 := 0
  taskv : W64 := 0
  ltag : W64 := 0
  widfmt : W64 := 0
  handler : W64 := 0
  part : Nat := 0
  prio : Nat := 0
  eprio : Nat := 0
  rclass : Nat := 0
  rsafe : Bool := false
  region : Option Nat := none         -- region its task owns
  priv : Bool := false                -- true at S
  incar : Nat := 0                    -- INCAR of its strand
  starts : Nat := 0                   -- strand starts on the context, modulo 2^32: the next strand's INCAR, less 1
  ident : W64 := 0                    -- channel identity (R177)
  spdist : Nat := 0
  spAt : Option W64 := none           -- cycle of its last safe-point commit (R46)
  tms : Map (BitVec 256) := []        -- TM0-TM15, absent: V = 0
  pbpool : W64 := 0
  pblen : Nat := 0
  pbnode : Map Nat := []
  irv : List (Option Irv) := List.replicate 8 none
  inh : Bool := false
  preq : Bool := false
  next : W64 := 0                     -- next block address
  live : W64 := 0                     -- live mask of the stop point: the last safe point, or a fault (R118, log 26)
  sync : Option Flt := none           -- synchronous fault of the oldest block (R102)
  async : List Flt := []              -- pending asynchronous faults, one for a source (R103)
  sq : List StEnt := []               -- committed stores not yet performed (R152)
  yieldTill : Option W64 := none      -- last cycle of its YIELD window (R330)
  ras : List W64 := []                -- return-address stack, prediction only (R325)
  fqPend : Bool := false              -- a fault record waits for the supervisor fault queue (R200)
  kill : Bool := false                -- a KILL waits for the block boundary (R95)
  replaying : Bool := false           -- the block in flight is a resumed one (R110)
  deriving DecidableEq, Repr

/-! ## Waits -/

/-- What a waiting instruction waits for. One list holds all waits of the package in order of arrival; each queue of the
manual (a bank's wait list, a channel's pushes and pops, a queue's ENQW, a permit's waiters, posted receives) is the part
of it with that resource. -/
inductive WaitK where
  | tagged (pa : Nat) (op : Nat) (val : W64)                -- LDF 0, LDFF 1, STE 2 (R386)
  | push (ch : Nat) (kind : Nat) (data : List Byte) (va : W64) -- CHPUSH 0, CHEOS 1, TSBATCH 2 (R411)
  | pop (ch : Nat) (peek : Bool) (dst : W64) (va : W64)     -- CHPOP, CHPEEK (R412)
  | enqw (q : Nat) (rcd : List W64)                         -- ENQW (R414)
  | bwait (bar : Nat) (c : Nat)                             -- BWAIT (R424)
  | permit (num : Nat)                                      -- PACQ (R426)
  | recv (tag : Nat) (from_ : Option (Nat × Nat)) (cap : Nat) (dst : W64)  -- RECVW, posted (R416): source package and tile
  | recvPost (tag : Nat) (from_ : Option (Nat × Nat)) (cap : Nat) (dst : W64) -- RECVW waiting to post
  | recvGot (msg cap : Nat) (dst : W64)                     -- matched, its last packets still on the ring
  | recvTok (hkey : Nat)                                    -- RECVW.T (R419)
  | waitev (till : Option (W64 × W64))                      -- WAITEV (R331): its first cycle, and its timeout in cycles
  | mwait (mask : Nat) (ops : List Nat)                     -- MWAIT (R377): operations to see out
  | mside (k row side : Nat) (ops : List Nat)               -- MSIDE (R376)
  | accLoad (pa size : Nat) (sx : Bool) (ops : List Nat)    -- window load of a busy accumulator (R91)
  | drain (copies : List Nat)                               -- DRAIN (R394)
  | fence (mask : Nat) (scope : Nat)                        -- FENCE (R393)
  | reconf (img : W64)                                      -- RECONF (R333)
  | cfg (img : W64)                                         -- CFGLD waiting for a place in the cache (R332)
  deriving DecidableEq, Repr

/-- A waiting instruction: context key, instruction index, what it waits for. -/
structure Wait where
  key : Nat
  idx : Nat
  k : WaitK
  deriving DecidableEq, Repr

/-! ## Element grid -/

/-- The registers and channels of an element (R74, R85, R86), and its chain value and slot of the last advancing cycle. -/
structure Elem where
  e : Map W64 := []
  etag : Map Nat := []
  k : Map W64 := []
  ktag : Map Nat := []
  p : BitVec 8 := 0
  ins : Map (List Tok) := []
  outs : Map (List Tok) := []
  chain : W64 := 0
  slot : Option Nat := none
  deriving DecidableEq, Repr

/-- Whose work an engine does: context, identity, instruction (128 when nothing waits for its token), partition, privilege,
class. -/
structure Who where
  key : Nat
  ident : W64
  idx : Nat
  part : Nat
  sup : Bool
  cls : Nat           -- class its accesses are metered under (R239)
  deriving DecidableEq, Repr

/-- A token that SEOS (no permit) or PREL.G (its permit) appends to a stream-in port (R403, R426). -/
structure Pend where
  port : Nat
  who : Who
  num : Option Nat
  deriving DecidableEq, Repr

/-- A stream-in binding (R400, R401). -/
structure StreamIn where
  tm : BitVec 256
  chan : Option Nat               -- kind 1: channel key
  pos : Nat                       -- tokens delivered
  total : Nat
  eos : Bool
  before : Nat                    -- tokens of SEOS and PREL.G that stand before it at the port
  who : Who
  deriving DecidableEq, Repr

/-- A stream-out binding (R402). -/
structure StreamOut where
  tm : BitVec 256
  pos : Nat
  total : Nat
  who : Who
  deriving DecidableEq, Repr

/-- A token on a route (R86): destination kind, element, input, cycles left. -/
structure Flight where
  dk : Nat
  dest : Nat
  din : Nat
  left : Nat
  tok : Tok
  deriving DecidableEq, Repr

/-- The firings of a region's present cycle, gathered before they are applied together (R339). -/
structure GridCycle where
  elems : Map Elem                -- element states after the cycle
  rm : Nat                        -- FPSTAT.RM as the cycle began (R73)
  flags : Nat                     -- floating-point flags raised
  faults : List (Nat × Nat)       -- element, EXTRA
  todo : Nat                      -- firings of the cycle still to come
  deriving DecidableEq, Repr

/-- A region: its map entry (R246), REGSTAT (R93), loaded image, stream ports and routes. -/
structure Region where
  cfgid : Nat := 0
  loaded : Bool := false
  owner : Option Nat := none      -- owning task
  draining : Bool := false
  stopped : Bool := false         -- stopped by fault
  reconf : Bool := false          -- a RECONF is in progress (R333)
  age : Nat := 0
  img : List W64 := []            -- the 384 words of the loaded image
  imgva : W64 := 0                -- the address it was loaded from
  fpstat : W64 := 0               -- RFPSTAT
  sin : Map StreamIn := []
  pend : List Pend := []          -- tokens of SEOS and PREL.G that have not entered their port route
  sout : Map StreamOut := []
  sbar : Map Nat := []            -- attached barriers (R404)
  sobuf : Map (List Tok) := []    -- tokens waiting at stream-out ports
  mport : Map (List Tok) := []    -- tokens at the matrix ports A-in, B-in, control
  drainq : List Tok := []         -- matrix drain tokens (R381)
  arrive : List (Nat × Option Who) := []   -- SBAR arrivals of the following cycle: port, binding that ended (R404)
  flights : List Flight := []
  cyc : Option GridCycle := none
  deriving DecidableEq, Repr

/-! ## Matrix node -/

/-- An accumulator with its side registers (R74, R88, R90). -/
structure Acc where
  c : Map (BitVec 32) := []       -- element 64 i + c
  tag : Nat := 1
  mx : Map (BitVec 32) := []
  sm : Map (BitVec 32) := []
  al : Map (BitVec 32) := []
  rowp : Nat := 0
  keptTok : W64 := 0
  keptDesc : List W64 := []
  qslot : Option Nat := none      -- token slot named by its last MQK (R461)
  deriving DecidableEq, Repr

/-- A matrix request at the control port, or an accepted operation (R360). -/
structure MOp where
  id : Nat
  tok : W64
  who : Who                       -- issuing strand, or the one that speaks for the owning task (CTOK)
  idx : Option Nat                -- instruction, none for CTOK
  region : Option Nat             -- region of a CTOK
  desc : List W64                 -- its descriptor; until acceptance, the address it came with
  row0 : Nat
  since : W64                     -- cycle of issue
  sent : Bool := false            -- complete or stopped; its drain tokens are still leaving (R381)
  hide : List (Nat × Byte) := []  -- bytes that the strand has stored since, as the operation finds them (R360)
  deriving DecidableEq, Repr

/-! ## Copy engine -/

/-- An accepted XCOPY transfer (R396). -/
structure Xfer where
  id : Nat
  mode : Nat
  tm : BitVec 256
  a : W64
  b : W64
  len : Nat
  bar : Option Nat
  wf : Bool
  sf : Bool
  who : Who
  deriving DecidableEq, Repr

/-- A piece of a record bound for another package: where it goes, its length and offset, whether the record covers its
destination line, and its bytes unless they were poisoned (R202, R203). -/
structure FarPart where
  d : Nat
  n : Nat
  off : Nat
  whole : Bool
  data : Option (List Byte)
  deriving DecidableEq, Repr

/-- How far a copy has come: bytes done, the offset of the first poisoned one, destination lines it poisoned (R203). -/
structure CopyPos where
  pos : Nat := 0
  bad : Option Nat := none
  marks : List Nat := []
  rcd : List W64 := []            -- the record being copied, as it was read (R203)
  fresh : List Nat := []          -- table entries it began to write while they were invalid (R217)
  hold : Option Nat := none       -- the address of the word it waits for (R96, R396)
  asked : List (Bool × Nat × Nat) := []   -- requests made: destination side, 4,096 bytes of the copy, way (R255)
  buf : List FarPart := []        -- what a record bound for another package has read so far
  sent : Bool := false            -- ... has been sent
  acks : Nat := 0                 -- ... answers it waits for
  flt : Option Flt := none        -- ... the fault that an answer brought
  deriving DecidableEq, Repr

/-- A copy channel (R93, R201, R398). -/
structure CopyCh where
  head : W64 := 0
  state : Nat := 0
  psn : Bool := false
  psnoff : Nat := 0
  who : Who := ⟨0, 0, 0, 0, false, 0⟩   -- captured by XCHAIN
  maps : Map (BitVec 256) := []
  queue : List Xfer := []
  walkId : Nat := 0               -- names the record being copied; 0: no walk
  cur : Nat := 0                  -- work begun and not complete: 1 a transfer, 2 a record
  at_ : CopyPos := {}
  deriving DecidableEq, Repr

/-! ## Ring interface and token slots -/

/-- A message or query token in transit or at rest (R206, R207, R214). -/
structure Msg where
  cls : Nat                       -- 0 QT, 1 MSG, 3 CTL (signal across packages)
  dpkg : Nat
  dtile : Nat
  spkg : Nat
  stile : Nat
  who : Who                       -- the strand that sent it
  tag : Nat
  aux : Nat
  data : List Byte
  sig : Bool
  npkt : Nat
  landed : Nat := 0               -- packets landed
  way : Nat := 0                  -- direction named: 0 none, 1 clockwise, 2 counter-clockwise
  met : Bool := false             -- its first packet has been matched or queued
  slot : Option Nat := none       -- token slot that it leaves (FWD.Q)
  deriving DecidableEq, Repr

/-- Which buffer of an input port a packet holds (R208, R209). -/
inductive VC where
  | source | adaptive | escape (dl : Bool)
  deriving DecidableEq, Repr

/-- Flits of a packet that stand in a port behind its head (R208, R209): ring, number, stop, direction, channel, count. -/
structure Hold where
  ring : Nat
  ringNo : Nat
  stop : Nat
  ccw : Bool
  vc : VC
  n : Nat
  deriving DecidableEq, Repr

/-- A packet on a ring (R207): ring kind 0 row, 1 die, 2 package, 3 pod; ring number; the stop whose port holds it. -/
structure Pkt where
  msg : Nat
  pidx : Nat
  nf : Nat
  dl : Bool
  ccw : Bool
  ring : Nat
  ringNo : Nat
  stop : Nat
  vc : VC
  examined : Bool                 -- a QT packet already looked up at this stop
  wait : Nat                      -- cycle of its arrival at the port
  held : List Hold                -- of a packet in an escape channel: its flits still in the ports behind it, nearest first (R209)
  deriving DecidableEq, Repr

/-- A token slot (R211, R212). -/
structure TSlot where
  mid : Nat                       -- its message
  msg : Msg
  order : Nat
  full : Bool := false            -- its last packet has landed
  service : Option Nat := none    -- receiving context
  snap : List (BitVec 256) := []  -- shard-table snapshot (R227)
  clen : Nat := 0                 -- CLEN, TLEN and PLINK of its sequence as service began (R467)
  tlen : Nat := 0
  links : Nat := 0
  visits : List Nat := []         -- descriptors of the pages whose visit is in progress
  leaving : Bool := false         -- FWD.Q is sending it on
  deriving DecidableEq, Repr

/-- A permit-station entry (R425). -/
structure Permit where
  num : Nat
  holder : Option (W64 × Nat)     -- holder identity and context key
  deriving DecidableEq, Repr

/-- A configuration-cache entry (R245). -/
structure CfgEnt where
  v : Bool := false
  fetch : Bool := false
  asn : Nat := 0
  va : W64 := 0
  cfgid : Nat := 0
  age : Nat := 0
  part : Nat := 0
  sup : Bool := false             -- privilege of the fetch in flight
  own : Option (Nat × Nat) := none  -- context and class under which the fetch is metered (R255); none: the device's own
  img : List W64 := []
  deriving DecidableEq, Repr

/-- A configuration miss that waits for a cache entry (R97): tile, partition, image, privilege, for a parked token, and for whom its
fetch will be metered (R255). -/
structure CfgMiss where
  tile : Nat
  part : Nat
  sup : Bool
  va : W64
  own : Option (Nat × Nat)
  tok : Bool
  deriving DecidableEq, Repr

/-- A TLB or translation-cache entry (R145): address space, leaf level, virtual page, leaf entry. -/
structure TlbEnt where
  asn : Nat
  level : Nat
  vpn : Nat
  pte : W64
  deriving DecidableEq, Repr

/-- A metered request at a port (R255, R257): class, cost in units, flits still to inject, and the copy whose request it is,
which is not complete before it (R203, R396); 0: no copy's. -/
structure Req where
  cls : Nat
  units : Nat
  flits : Nat
  copy : Nat := 0
  deriving DecidableEq, Repr

/-- A tile port: class buckets, waiting requests and whether a class had a request in the period (R255, R256). -/
structure Port where
  tok : Map Int := []
  q : List Req := []
  inj : List Req := []            -- admitted, its flits going out
  busy : List Nat := []           -- classes with a request in the period
  deriving DecidableEq, Repr

/-! ## Tile -/

/-- The state of a tile outside its contexts, elements, regions and accumulators. -/
structure Tile where
  failed : Bool := false
  bankrole : W64 := 0xAA00000000005555
  fltcnt : Nat := 0
  frameva : W64 := 0
  evstat : W64 := 0
  evmask : W64 := 0
  ringctl : W64 := 0
  slots : List Nat := (List.range 64).map (· % 16)                   -- sequencer slot table (R240)
  mslots : List Nat := (List.range 16).map (fun s => 128 + 4 * (s / 4 % 2) + s % 4)   -- matrix slot table (R242)
  mq : List MOp := []             -- requests at the control port
  mrun : List MOp := []           -- accepted operations, in order
  pb : Map (BitVec 16) := []      -- P buffer
  pbusy : Bool := false
  pacc : Nat := 0
  copy : Map CopyCh := []
  permits : List Permit := []
  ovf : List Nat := []            -- tag-match overflow queue: messages, oldest first
  tslots : Map TSlot := []
  shard : Map (BitVec 256) := []  -- shard table
  slotFree : Option Nat := none   -- tile slot bitmap (R232); none: its reset value
  cfg : Map CfgEnt := []
  tlb : List TlbEnt := []
  mesh : Port := {}
  ring : Port := {}
  rgidle : Nat := 0
  pwrtok : Int := 0
  prate : Nat := 0xFFFF
  pdepth : Nat := 0xFFFF
  prateNext : Option (Nat × Nat) := none
  injected : Nat := 0             -- flits it injected since the last power evaluation (R283)
  pmc : Map W64 := []
  pmsel : Map W64 := []
  pmovf : W64 := 0
  cebank : Map Nat := []
  ceslice : Nat := 0
  deriving DecidableEq, Repr

/-- A line of a tile cache (R129): its bytes as they stood when it was filled, and whether it is a WEIGHT line. -/
structure CLine where
  tile : Nat
  line : Nat
  bytes : List Byte
  weight : Bool
  deriving DecidableEq, Repr

/-- A request at a slice (R135): line, whether it writes, whether the slice allocates the line (R134). -/
structure SReq where
  line : Nat
  wr : Bool
  alloc : Bool
  deriving DecidableEq, Repr

/-- A second-level slice (R134, R135): lines held with their dirty bits, miss entries, spill queue, requests arriving, and
the number of the next record of its spill region. -/
structure Slice where
  lines : Map Bool := []
  miss : List SReq := []
  spill : List SReq := []
  arr : List SReq := []
  spos : Nat := 0
  failed : Bool := false
  deriving DecidableEq, Repr

/-- A channel-table entry (R175): its eight words, and how many elements from POPSEQ + 1 on are on chip (R178). -/
structure Chan where
  w : List W64 := List.replicate 8 0
  onchip : Nat := 0
  lost : Bool := false            -- pops fault PART_FAILED (R279)
  lostTile : Nat := 0             -- the tile whose failure lost it
  deriving DecidableEq, Repr

/-! ## Package -/

/-- A dependence-table entry (R243): its words, the launch record it came from, and the launch's tasks not yet bound. -/
structure Dep where
  w : List W64
  rcd : List W64
  since : W64                     -- cycle at which it left the table's wait
  aged : Nat                      -- levels gained by its unbound tasks (R43)
  started : List Nat              -- task values bound at least once
  homes : List (Nat × Nat)        -- homes fixed for tasks that wait for their tile (R41): task value, tile
  cause : FCode                   -- code of the fault that ends it
  ending : Option Nat             -- completion status when it ends
  replays : Nat
  ids : List (Nat × W64)          -- WID and channel identity of its strands as last started (R177)
  rebind : List (Nat × Bool × Nat)   -- of a replay: WID, producer side, channel whose identity the strand takes (R192)
  carried : Bool := false         -- it ran before a warm reset and has not been adjusted since (R278, R280)
  deriving DecidableEq, Repr

/-- Where a task is between its first binding and its retirement. -/
inductive TaskSt where
  | bound | saving | saved
  deriving DecidableEq, Repr

/-- A task that has been bound (R23, R24, R45). -/
structure Task where
  dep : Nat
  val : Nat
  tile : Nat
  st : TaskSt
  ctxs : List (Nat × Nat)         -- WID, context number, of the strands that have not retired
  region : Option Nat
  preq : Bool
  accepted : Bool                 -- its pre-emption request has been accepted (R112)
  areas : List (Nat × Nat)        -- WID, save-area number
  bound : W64                     -- cycle of binding
  quantum : W64                   -- cycle at which the quantum began
  since : W64                     -- cycle of pre-emption
  aged : Nat
  low : Nat                       -- lowest WID of the task
  img : W64                       -- image its region holds: CFGIMG, or the last RECONF's; 0: no region
  keys : List Nat                 -- contexts its strands have run on since the binding
  idents : List W64               -- channel identities of its strands (R177): whose engine commands it waits for (R20)
  held : List Nat                 -- while it is saved: WIDs of the strands that were HELD (R113)
  flts : List (Nat × List Flt)    -- while it is saved: asynchronous faults that wait for a HELD strand, by WID (R103)
  left : Region                   -- while it is saved: the tokens that stood at its region's ports (R49, log 27)
  deriving DecidableEq, Repr

/-- The mailbox (R264). -/
structure Mailbox where
  cmd : W64 := 0
  addr : W64 := 0
  len : W64 := 0
  arg : W64 := 0
  stat : W64 := 0
  data : Map Byte := []
  queue : List (Nat × List Byte) := []   -- writes that arrived while BUSY
  msix : Nat := 0
  deriving DecidableEq, Repr

/-- A walk in flight or queued (R145): partition, address space, 64 KiB page, write, requesters. -/
structure Walk where
  part : Nat
  asn : Nat
  page : Nat
  write : Bool
  tile : Nat
  va : W64
  reqs : List (Nat × Nat × Nat × Nat)   -- context key, instruction index, access (R101), virtual address
  deriving DecidableEq, Repr

/-- A barrier event on its way to another tile (R252, R254): `who` sent it. -/
structure RemBar where
  dpkg : Nat
  tile : Nat
  bar : Nat
  bytes : Option Nat              -- none: an arrival
  key : Nat
  idx : Nat
  ltag : W64
  wid : W64
  widfmt : W64
  who : Who
  spkg : Nat                      -- package it was sent from
  deriving DecidableEq, Repr

/-- A host's write to BAR0 at the package ordering point (R170, R171, R263): host number, offset, bytes. -/
structure HostWr where
  host : Nat
  off : Nat
  data : List Byte
  deriving DecidableEq, Repr

/-- A page move in progress (R225): descriptor, the state the page goes to, the source place (none: `image`), the
destination, the slow-tier address returned when done, who waits for it. -/
structure Move where
  desc : Nat
  target : Nat
  src : Option Nat
  dst : Option Nat
  caddr : Option Nat
  who : Who
  image : List Byte := []
  deriving DecidableEq, Repr

/-- What a cycle does by itself at a place of its own among the cycle's actions (log 11). -/
inductive Tick where
  | wakes             -- waits that something has ended since the last cycle
  | count             -- the cycle counts of the observation counters (R260)
  | cancel            -- entries of the dependence table that a failed predecessor cancels (R244)
  | pod               -- what other packages and failed ports have done (R271)
  | enqwWake          -- ENQWs that wait for room in a queue (R197)
  | popWake | pushWake | eosWake      -- waiting pops, pushes and ends of a stream (R182)
  | chanEnds          -- arrivals of the streams that ended in the cycle (R185, R253)
  | sbarWake | barWake                -- SBAR arrivals, waiting BWAITs
  | rings | signals | ports           -- hops, barrier events and requests, as the lists then stand
  deriving DecidableEq, Repr

/-- What moves next. -/
inductive Act where
  | event (i : Instr) (x y z : Nat) (v : W64) (data : List Byte)
  | fire (tile ctx idx : Nat)
  | elem (tile e slot : Nat)
  | gridEnd (tile region : Nat)
  | tick (k : Tick)
  deriving DecidableEq, Repr

/-- Where the current instruction or event happens. -/
inductive Focus where
  | nowhere
  | seq (tile ctx idx : Nat)
  | elem (tile e slot : Nat)
  | ev (x y z : Nat) (v : W64) (data : List Byte)
  deriving DecidableEq, Repr

/-- The machine. -/
structure State where
  powered : Bool
  level : Nat                     -- service level (R273)
  cycle : W64                     -- CYCLE (R261)
  tilesSince : W64                -- cycle at which the tiles were last reset: their slot pointers stood at 0 (R42, R242)
  mem : List Host.Cell            -- every byte by physical address: HBM4E, slow tier, local stores, fault frames
  log : List Host.Cell            -- the bytes the present step has written, newest first; empty between steps
  agenda : List Act               -- what moves next; empty: the scheduler of R42 and the units' own readiness decide
  focus : Focus
  csrNow : Map W64                -- what the CSRRs of this cycle read, by 4,096 x context key + register (R80)
  chanEnds : List (Nat × Nat)     -- streams that ended in this cycle: channel, context to tell of an overrun (R253)
  freeCtr : Nat                   -- the model's own: how many free values have been drawn
  nextId : Nat                    -- the model's own: names for operations, copies and messages
  full : List Nat                 -- 8-byte words whose full/empty bit is full, by address / 8 (R130)
  poison : List Nat               -- poisoned lines, by address / 128 (R137)
  ueLines : List Nat              -- slow-tier lines that answer with an uncorrectable error (R140)
  poisonPages : List Nat          -- slow-tier poison list (R140)
  ctxs : Map Ctx                  -- by 16 tile + context
  blks : Map Blk                  -- block in flight of a context
  waits : List Wait
  tiles : Map Tile
  regions : Map Region            -- by 4 tile + region
  elems : Map Elem                -- by 64 tile + element
  accs : Map Acc                  -- by 4 tile + accumulator
  chans : Map Chan                -- by 64 tile + entry
  bars : Map (List W64)           -- by 48 tile + barrier: six words
  tcache : List CLine
  ways : Map Nat                  -- how each HBM4E line is accessed since its last INVAL: 1 MS = 0, 2 MS = 1, 3 both (R136)
  slices : Map Slice              -- by 160 die + slice
  dieTlb : Map (List TlbEnt)
  walks : List Walk
  wq : Map (List W64)             -- work-queue table
  deps : Map Dep
  carried : List Dep              -- entries that a warm reset cleared, until their records are taken again (R280)
  tasks : Map Task
  parts : Map (List W64)          -- partition table: sixteen words
  saveUsed : List (Nat × Nat)     -- reserved save areas: partition, area
  fqWait : List (Nat × List W64)  -- fault records of saved strands that wait for their partition's fault queue (R200)
  regclass : Map W64
  regEff : Map W64                -- the class table as the last period boundary found it (R248)
  pkgcfg : Map W64                -- package configuration words
  slowTok : Int
  slowq : List Req
  stackErr : Map Nat
  pfxcoll : W64
  mbox : Mailbox
  hostIn : List HostWr            -- host writes that reach the ordering point in the next cycle
  msgs : Map Msg
  pkts : List Pkt
  grants : Map Nat                -- class last granted by an output link (R208)
  rembars : List RemBar
  outbox : List Msg               -- messages that have left for another package
  inbox : List Msg                -- messages that have come from another package and have not entered the rings
  moves : List Move
  poolPages : List Nat            -- descriptors whose HBM place was given from a page pool (R225)
  pfxOf : Map Nat                 -- prefix hash entry that names a page: its index, by the page's descriptor (R229)
  cfgWait : List CfgMiss          -- configuration misses waiting for a cache entry (R97)
  rr : Map (Nat × Nat)            -- dispatcher's turns, by 8 x level + partition (R198): queue, records taken of its weight
  rrPart : Nat                    -- partition last served (log 62); 8: none yet
  failedPorts : List Nat
  failedLinks : List Nat
  failedStacks : List Nat         -- stack channels: 32 stack + channel
  fwStaged : Option (List Byte)
  fwRun : Option (List Byte)      -- the firmware that runs; none: the image the part came with
  leaf : Nat                      -- next XMSS leaf (R281)
  fuse : List (List Nat)          -- virtual-unit map: SKIP(r) of each die (R247)
  expCap : Map Nat                -- capacities of the expanders present (R122, R269)
  power : Nat                     -- package power at the last evaluation
  temps : Map Nat                 -- the 48 sensors of each die, in degrees, by 48 x die + sensor (R272)
  deriving DecidableEq, Repr

/-- Why the machine stops. -/
inductive Fault where
  /-- Raised by the step of a package from which power was removed (R284): it lies outside the manual's guarantee and no
  effect is given. Safe: the model stops where the hardware is off. -/
  | powerOff
  deriving DecidableEq, Repr

/-- Why an instruction has no meaning. -/
inductive Refusal where
  /-- Raised by an arm of exec whose instruction has no meaning yet. Safe. -/
  | notModelled (mnemonic : String)
  deriving DecidableEq, Repr

/-- The machine right after a cold reset: level S0, CYCLE 0, every table empty, nothing in memory (R261, R273). The
virtual-unit map is fused; its value is the one of a die without an unusable tile, SKIP 16 in every row (log 9). -/
def State.reset : State where
  powered := true
  level := 0
  cycle := 0
  tilesSince := 0
  mem := []
  log := []
  agenda := []
  focus := .nowhere
  csrNow := []
  chanEnds := []
  freeCtr := 0
  nextId := 1
  full := []
  poison := []
  ueLines := []
  poisonPages := []
  ctxs := []
  blks := []
  waits := []
  tiles := []
  regions := []
  elems := []
  accs := []
  chans := []
  bars := []
  tcache := []
  ways := []
  slices := []
  dieTlb := []
  walks := []
  wq := []
  deps := []
  carried := []
  tasks := []
  parts := []
  saveUsed := []
  regclass := []
  regEff := []
  pkgcfg := []
  slowTok := 0
  slowq := []
  stackErr := []
  pfxcoll := 0
  mbox := {}
  hostIn := []
  msgs := []
  pkts := []
  grants := []
  rembars := []
  outbox := []
  inbox := []
  moves := []
  poolPages := []
  pfxOf := []
  cfgWait := []
  rr := []
  rrPart := 8
  fqWait := []
  failedPorts := []
  failedLinks := []
  failedStacks := []
  fwStaged := none
  fwRun := none
  leaf := 0
  fuse := List.replicate 4 (List.replicate 10 16)
  expCap := []
  power := 0
  temps := []

end Sys2Proof.Machine
end

