-- ==== Sys2Proof/Machine/Ops.lean ====
section
/-! DEFINITION. The named operations over memory, tables and registers; raising a fault, taking it (R104-R107) and
returning from it (R110). Every meaning is built from these. -/

namespace Sys2Proof.Machine

/-- What a step answers. -/
abbrev Out := Host.Outcome State Fault Refusal

/-- A computation of a unit that may fault part-way; what it did before the fault stays. -/
abbrev M (α : Type) := EStateM Flt State α

/-! ## Tables -/

/-- The entry of a key, or `d`. -/
def Map.getD {α : Type} (d : α) : Map α → Nat → α
  | [], _ => d
  | (k, v) :: r, x => if k = x then v else Map.getD d r x

/-- The entry of a key. -/
def Map.get? {α : Type} : Map α → Nat → Option α
  | [], _ => none
  | (k, v) :: r, x => if k = x then some v else Map.get? r x

/-- Put an entry, keys rising. -/
def Map.put {α : Type} : Map α → Nat → α → Map α
  | [], x, v => [(x, v)]
  | (k, w) :: r, x, v =>
    if x < k then (x, v) :: (k, w) :: r else if k = x then (x, v) :: r else (k, w) :: Map.put r x v

/-- Drop an entry. -/
def Map.del {α : Type} (m : Map α) (x : Nat) : Map α := m.filter (fun p => p.1 ≠ x)

/-- Lowest number from `lo` on, within `n` numbers, that the table does not list. -/
def Map.fresh {α : Type} (m : Map α) (lo : Nat) : Nat → Option Nat
  | 0 => none
  | n + 1 => match m.get? lo with
    | none => some lo
    | some _ => Map.fresh m (lo + 1) n

/-- Put a number into a rising list without repeats. -/
def insNat : List Nat → Nat → List Nat
  | [], x => [x]
  | y :: r, x => if x < y then x :: y :: r else if x = y then y :: r else y :: insNat r x

/-! ## Memory -/

/-- What a byte that nothing has written reads as: 0. Local stores: R132. HBM4E and slow tier: DESIGN CHOICE (log 2). -/
def memDefault : Byte := 0

/-- A byte of memory. -/
def Mem.get : List Host.Cell → Nat → Byte
  | [], _ => memDefault
  | (a, b) :: r, x => if a = x then b else Mem.get r x

/-- List a byte, keeping addresses rising. -/
def Mem.ins : List Host.Cell → Nat → Byte → List Host.Cell
  | [], x, v => [(x, v)]
  | (a, b) :: r, x, v =>
    if x < a then (x, v) :: (a, b) :: r else if x = a then (x, v) :: r else (a, b) :: Mem.ins r x v

/-- Write a byte, keeping addresses rising and no default byte listed. -/
def Mem.set (m : List Host.Cell) (x : Nat) (v : Byte) : List Host.Cell :=
  if v = memDefault then m.filter (fun c => c.1 ≠ x) else Mem.ins m x v

/-- Apply a write log, oldest entry (the last of the list) first. -/
def Mem.flush (m : List Host.Cell) (log : List Host.Cell) : List Host.Cell :=
  log.foldr (fun c acc => Mem.set acc c.1 c.2) m

/-- The canonical form: addresses strictly rising from `lo`, no default byte listed. -/
def Mem.wfFrom : Nat → List Host.Cell → Bool
  | _, [] => true
  | lo, (a, b) :: r => decide (lo ≤ a) && decide (b ≠ memDefault) && Mem.wfFrom (a + 1) r

def Mem.wf (m : List Host.Cell) : Bool := Mem.wfFrom 0 m

/-- The byte a read of the present step meets: the step's own writes first, then memory. -/
def logGet : List Host.Cell → Nat → Option Byte
  | [], _ => none
  | (a, b) :: r, x => if a = x then some b else logGet r x

def State.byte (s : State) (pa : Nat) : Byte := (logGet s.log pa).getD (Mem.get s.mem pa)

/-- `n` bytes from an address, as a list. -/
def State.bytes (s : State) (pa n : Nat) : List Byte := (List.range n).map (fun i => s.byte (pa + i))

/-- A little-endian number of `n` bytes (R4). -/
def State.rd (s : State) (pa n : Nat) : Nat := leNat (s.bytes pa n)

def State.rd64 (s : State) (pa : Nat) : W64 := w64 (s.rd pa 8)

/-- Write bytes upward from an address. -/
def State.wrBytes (s : State) (pa : Nat) : List Byte → State
  | [] => s
  | b :: r => State.wrBytes { s with log := (pa, b) :: s.log } (pa + 1) r

/-- Write a little-endian number of `n` bytes (R4). -/
def State.wr (s : State) (pa n v : Nat) : State := s.wrBytes pa (leBytes n v)

/-! ## The end of a step -/

/-- End a step: the bytes it wrote go to memory, and what is fixed in the part (the fused virtual-unit map, R247: changed
by nothing) stays as it was before. -/
def endStep (s t : State) : State :=
  { t with mem := Mem.flush s.mem t.log, log := [], focus := .nowhere, fuse := s.fuse }

/-- A meaning: what it does to the state, then the end of the step. -/
def run (f : State → State) (s : State) : Out := .next (endStep s (f s))

/-! ## Free values (R7) -/

/-- Draw an undefined 64-bit value. -/
def State.drawWord (s : State) : W64 × State := (Config.freeWord s.freeCtr, { s with freeCtr := s.freeCtr + 1 })

/-- Draw `n` undefined bytes. -/
def State.drawBytes (s : State) : Nat → List Byte × State
  | 0 => ([], s)
  | n + 1 =>
    let (l, t) := State.drawBytes { s with freeCtr := s.freeCtr + 1 } n
    (Config.freeByte s.freeCtr :: l, t)

/-- Make `n` bytes from an address undefined. -/
def State.undefBytes (s : State) (pa : Nat) : Nat → State
  | 0 => s
  | n + 1 => State.undefBytes { s with log := (pa, Config.freeByte s.freeCtr) :: s.log, freeCtr := s.freeCtr + 1 } (pa + 1) n

/-! ## Accessors -/

def State.ctx (s : State) (k : Nat) : Ctx := s.ctxs.getD {} k
def State.setCtx (s : State) (k : Nat) (c : Ctx) : State := { s with ctxs := s.ctxs.put k c }
def State.updCtx (s : State) (k : Nat) (f : Ctx → Ctx) : State := s.setCtx k (f (s.ctx k))
def State.tile (s : State) (t : Nat) : Tile := s.tiles.getD {} t
def State.setTile (s : State) (t : Nat) (x : Tile) : State := { s with tiles := s.tiles.put t x }
def State.updTile (s : State) (t : Nat) (f : Tile → Tile) : State := s.setTile t (f (s.tile t))
def State.region (s : State) (k : Nat) : Region := s.regions.getD {} k
def State.setRegion (s : State) (k : Nat) (x : Region) : State := { s with regions := s.regions.put k x }
def State.updRegion (s : State) (k : Nat) (f : Region → Region) : State := s.setRegion k (f (s.region k))
def State.elem (s : State) (k : Nat) : Elem := s.elems.getD {} k
def State.setElem (s : State) (k : Nat) (x : Elem) : State := { s with elems := s.elems.put k x }
def State.acc (s : State) (k : Nat) : Acc := s.accs.getD {} k
def State.setAcc (s : State) (k : Nat) (x : Acc) : State := { s with accs := s.accs.put k x }
def State.updAcc (s : State) (k : Nat) (f : Acc → Acc) : State := s.setAcc k (f (s.acc k))
def State.chan (s : State) (k : Nat) : Chan := s.chans.getD {} k
def State.setChan (s : State) (k : Nat) (x : Chan) : State := { s with chans := s.chans.put k x }
def State.copyCh (s : State) (t n : Nat) : CopyCh := (s.tile t).copy.getD {} n
def State.setCopyCh (s : State) (t n : Nat) (x : CopyCh) : State := s.updTile t (fun y => { y with copy := y.copy.put n x })
def State.bar (s : State) (k : Nat) : List W64 := s.bars.getD (List.replicate 6 0) k
def State.setBar (s : State) (k : Nat) (x : List W64) : State := { s with bars := s.bars.put k x }
def State.slice (s : State) (k : Nat) : Slice := s.slices.getD {} k
def State.setSlice (s : State) (k : Nat) (x : Slice) : State := { s with slices := s.slices.put k x }
def State.partE (s : State) (p : Nat) : List W64 := s.parts.getD (List.replicate 16 0) p
def State.partW (s : State) (p n : Nat) : Nat := ((s.partE p).getD n 0).toNat
def State.queueE (s : State) (q : Nat) : List W64 := s.wq.getD (List.replicate 8 0) q
def State.cfgWord (s : State) (n : Nat) : Nat := (s.pkgcfg.getD 0 n).toNat

/-- A word of a list, and the list with it replaced. -/
def wAt (l : List W64) (n : Nat) : Nat := (l.getD n 0).toNat

/-- Put `v` into bits `lo + n - 1` down to `lo` of word `w`. -/
def setBits (w lo n v : Nat) : Nat := w - (bitsOf w lo n) * 2 ^ lo + (v % 2 ^ n) * 2 ^ lo

/-- Replace bits of word `i` of a list of words. -/
def setField (l : List W64) (i lo n v : Nat) : List W64 := l.set i (w64 (setBits (wAt l i) lo n v))

/-- A fresh name for an operation in flight. -/
def State.fresh (s : State) : Nat × State := (s.nextId, { s with nextId := s.nextId + 1 })

/-- CYCLE as a number. -/
def State.now (s : State) : Nat := s.cycle.toNat

/-- Cycles since CYCLE was `w`, which wraps modulo 2^64 (R261). -/
def State.age (s : State) (w : W64) : Nat := (s.cycle - w).toNat

/-! ## Physical addresses (R121, R122, R125) -/

inductive PaKind where
  | hbm
  | slow (slot : Nat)
  | window (tile off : Nat)
  | hole
  deriving DecidableEq, Repr

/-- A tile ID that names a tile (R9). -/
def tileOk (t : Nat) : Bool := t < 1024 && t / 16 % 16 < 10

/-- Control-register numbers of the control space that the manual lists (R93, R259). -/
def csrListed (n : Nat) : Bool :=
  (0x100 ≤ n && n ≤ 0x122) || n = 0x130 || (0x200 ≤ n && n ≤ 0x203) || n = 0x300 || (0x400 ≤ n && n ≤ 0x403) ||
  (0x408 ≤ n && n ≤ 0x40B) || n = 0x600 || n = 0x601 || n = 0x700 || n = 0x800 || n = 0x801 ||
  (0x900 ≤ n && n ≤ 0x910) || n = 0x920 || n = 0x921 || (0xA00 ≤ n && n ≤ 0xA20) || (0xB00 ≤ n && n ≤ 0xB21) ||
  n = 0xC00 || n = 0xC01

/-- The register number at an offset of the control pages (R92). -/
def csrOfOff (off : Nat) : Nat := ((off - 0xC00000) / 0x1000 + 1) * 256 + off % 0x1000 / 8

/-- Offsets of a tile window that exist (R125 and the chapters it names). -/
def windowOk (off : Nat) : Bool :=
  off < 0x400000 ||
  (0x800000 ≤ off && off < 0x821800) || (0x822000 ≤ off && off < 0x826010) ||
  (0xA00000 ≤ off && off < 0xA02000) || (0xB00000 ≤ off && off < 0xB02000) ||
  (0xC00000 ≤ off && off < 0xC0C000 && off % 0x1000 < 0x800 && csrListed (csrOfOff off)) ||
  (0xC0C000 ≤ off && off < 0xC0D000) || (0xE00000 ≤ off && off < 0xE02000)

/-- What stands at a physical address (R121, R122). -/
def State.paKind (s : State) (pa : Nat) : PaKind :=
  if pa < 0xC000000000 then .hbm
  else if 0x1000000000000 ≤ pa && pa < 0x2000000000000 then
    let slot := pa / 2 ^ 44 % 16
    if pa % 2 ^ 44 < s.expCap.getD 0 slot then .slow slot else .hole
  else if 0xF000000000000 ≤ pa && pa < 0xF000400000000 then
    let t := (pa - 0xF000000000000) / 2 ^ 24
    let off := pa % 2 ^ 24
    if tileOk t && windowOk off then .window t off else .hole
  else .hole

/-- Physical address of an offset of a tile's window (R9). -/
def winPa (t off : Nat) : Nat := 0xF000000000000 + t * 2 ^ 24 + off

/-- Home slice of an HBM4E line, as 160 x die + slice (R133), the die of its stack (R124). -/
def homeSlice (pa : Nat) : Nat := 160 * (bitsOf pa 36 4 / 3) + (pa / 128) % 160

/-- Stack channel of an HBM4E address, as 32 x stack + channel (R124). -/
def stackChannel (pa : Nat) : Nat := 32 * bitsOf pa 36 4 + Nat.xor (bitsOf pa 8 5) (bitsOf pa 13 5)

/-- Role of bank `b` of a tile: 0 scratch, 1 cache, 2 operand buffer (R96). -/
def State.role (s : State) (t b : Nat) : Nat := bitsOf (s.tile t).bankrole.toNat (2 * b) 2

/-- The scratch banks in ascending order, for a BANKROLE value (R128). -/
def scratchBanks (role : Nat) : List Nat := (List.range 32).filter (fun b => bitsOf role (2 * b) 2 == 0)

/-- KVSLOTS (R93): eight for each scratch bank. -/
def State.kvslots (s : State) (t : Nat) : Nat := 8 * (scratchBanks (s.tile t).bankrole.toNat).length

/-- Physical address of KV page slot `k` (R128). -/
def State.slotPa (s : State) (t k : Nat) : Nat :=
  winPa t ((scratchBanks (s.tile t).bankrole.toNat).getD (k / 8) 0 * 0x20000 + k % 8 * 0x4000)

/-- Physical address of token slot `k` (R128). -/
def tokSlotPa (t k : Nat) : Nat := winPa t ((30 + k / 4) * 0x20000 + 0x8000 * (k % 4))

/-! ## Poison and full/empty bits (R130, R137) -/

/-- A line reads as poisoned: marked, or on a failed stack channel (R275). -/
def State.poisoned (s : State) (pa : Nat) : Bool :=
  s.poison.contains (pa / 128) || (pa < 0xC000000000 && s.failedStacks.contains (stackChannel pa))

def State.setPoison (s : State) (pa : Nat) (v : Bool) : State :=
  { s with poison := if v then insNat s.poison (pa / 128) else s.poison.filter (· ≠ pa / 128) }

def State.isFull (s : State) (pa : Nat) : Bool := s.full.contains (pa / 8)

def State.setFull (s : State) (pa : Nat) (v : Bool) : State :=
  { s with full := if v then insNat s.full (pa / 8) else s.full.filter (· ≠ pa / 8) }

/-- LineFull: the AND of a line's sixteen bits (R130). -/
def State.lineFull (s : State) (pa : Nat) : Bool := (List.range 16).all (fun i => s.isFull (pa / 128 * 128 + 8 * i))

/-- The lines a range of bytes touches. -/
def linesOf (pa n : Nat) : List Nat :=
  if n = 0 then [] else (List.range ((pa + n - 1) / 128 - pa / 128 + 1)).map (fun i => (pa / 128 + i) * 128)

/-- A line that a range covers whole. -/
def coversLine (pa n line : Nat) : Bool := pa ≤ line && line + 128 ≤ pa + n

/-! ## Observation counters (R97, R260) -/

def State.setEv (s : State) (t bit : Nat) : State :=
  s.updTile t (fun x => { x with evstat := x.evstat ||| (w64 (2 ^ bit)) })

/-- Add to PMC `n` if PMSELn selects the event (R260). -/
def pmcOne (ev : Nat) (ctx cls : Option Nat) (add : Nat) (x : Tile) (n : Nat) : Tile :=
  let sel := (x.pmsel.getD 0 n).toNat
  if bitsOf sel 0 8 = ev && (!bitOf sel 8 || ctx == some (bitsOf sel 9 4)) && (cls.isNone || cls == some (bitsOf sel 13 3))
  then
    let v := (x.pmc.getD 0 n).toNat + add
    { x with pmc := x.pmc.put n (w64 v), pmovf := if v ≥ 2 ^ 64 then x.pmovf ||| (w64 (2 ^ n)) else x.pmovf }
  else x

/-- Count an event of R260 on a tile. A tile whose selectors are all 0 counts nothing. -/
def State.count (s : State) (t ev : Nat) (ctx : Option Nat := none) (cls : Option Nat := none) (add : Nat := 1) : State :=
  if (s.tile t).pmsel = [] then s
  else s.updTile t (fun x => (List.range 16).foldl (pmcOne ev ctx cls add) x)

/-! ## Raising faults (R101-R103) -/

/-- The number of a fault code (R101). -/
def FCode.num : FCode → Nat
  | .trap => 0x00 | .illegalOpcode => 0x01 | .reservedField => 0x02 | .blockHeader => 0x03 | .branchAlign => 0x04
  | .slotConflict => 0x05 | .noExit => 0x06 | .multiExit => 0x07 | .irrevocableLimit => 0x08 | .privilege => 0x09
  | .formatMismatch => 0x0A | .safepointOverdue => 0x0B | .translation => 0x10 | .permission => 0x11
  | .misaligned => 0x12 | .dataPoison => 0x13 | .regionClass => 0x14 | .tagSpace => 0x15 | .bankRole => 0x16
  | .regionBusy => 0x17 | .channelCapacity => 0x20 | .channelOwner => 0x21 | .deadlock => 0x22 | .queueId => 0x23
  | .overflowFull => 0x24 | .permitSelf => 0x25 | .barrierOverrun => 0x26 | .shardId => 0x30 | .treePoolEmpty => 0x31
  | .configInvalid => 0x40 | .reconfPending => 0x41 | .linkLost => 0x50 | .partFailed => 0x51

/-- Key of context `c` of tile `t`. -/
def ctxKey (t c : Nat) : Nat := 16 * t + c

/-- Does fault `f`, raised now, stand before fault `g` of the same block (R102)? Commit checks come last; of two raised in
one cycle the one of the lower index wins. -/
def Flt.before (f g : Flt) (now : W64) : Bool :=
  (g.late && !f.late) || (g.late == f.late && decide (g.at_ = now) && decide (f.idx.getD 0 < g.idx.getD 0))

/-- Raise a synchronous fault of a context's oldest block: the first raised in time wins, then the lowest index (R102). -/
def State.syncFault (s : State) (key : Nat) (f : Flt) : State :=
  s.updCtx key (fun c => match c.sync with
    | none => { c with sync := some { f with at_ := s.cycle } }
    | some g => if f.before g s.cycle then { c with sync := some { f with at_ := s.cycle } } else c)

/-- Raise an asynchronous fault: one pending for each source; a later one of that source sets MORE (R103). -/
def State.asyncFault (s : State) (key : Nat) (f : Flt) : State :=
  s.updCtx key (fun c =>
    if c.async.any (fun g => g.src = f.src)
    then { c with async := c.async.map (fun g => if g.src = f.src then { g with more := true } else g) }
    else { c with async := c.async ++ [f] })

/-- Is the strand that issued engine work still on its context? -/
def State.lives (s : State) (w : Who) : Bool := (s.ctx w.key).ident = w.ident && (s.ctx w.key).st ≠ .free

/-- An asynchronous fault of engine work goes to the strand that issued it, while it lives. DESIGN CHOICE (log 63): once that
strand has retired no context is left to take it, and it is dropped. -/
def State.asyncTo (s : State) (w : Who) (f : Flt) : State := if s.lives w then s.asyncFault w.key f else s

/-! ## The fault frame and the fault record (R98-R100) -/

/-- Physical address of a context's fault frame (R98). -/
def framePa (key : Nat) : Nat := winPa (key / 16) (0xC0C000 + key % 16 * 0x100)

/-- IRV_DONE: which entries of the irrevocable buffer are valid (R100). -/
def irvDone (l : List (Option Irv)) : Nat := ofBits (l.map Option.isSome)

/-- The INFO word (R100). -/
def infoWord (key : Nat) (f : Flt) (irv : Nat) (priv nest : Bool) : Nat :=
  f.code.num + (f.idx.getD 0) * 2 ^ 16 + f.idx.isSome.toNat * 2 ^ 23 + f.src * 2 ^ 24 + f.reg * 2 ^ 28 +
  f.more.toNat * 2 ^ 30 + nest.toNat * 2 ^ 31 + key / 16 * 2 ^ 32 + key % 16 * 2 ^ 42 + priv.toNat * 2 ^ 46 + irv * 2 ^ 48

/-- The eight words of a fault record (R99). PRIV is the privilege the strand runs at; while the handler of an S strand runs,
that is U (R105; DESIGN CHOICE, log 64). -/
def recordWords (s : State) (key : Nat) (f : Flt) (irv : Nat) (nest : Bool) : List W64 :=
  let c := s.ctx key
  [w64 (infoWord key f irv (c.priv && !c.inh) nest), f.block, f.addr, f.extra, c.ltag, c.wid, s.cycle,
   w64 ((s.tile (key / 16)).fltcnt)]

/-- Write words upward from an address. -/
def State.wrWords (s : State) (pa : Nat) : List W64 → State
  | [] => s
  | w :: r => State.wrWords (s.wr pa 8 w.toNat) (pa + 8) r

def State.rdWords (s : State) (pa n : Nat) : List W64 := (List.range n).map (fun i => s.rd64 (pa + 8 * i))

/-- The irrevocable image (R98): entry k is RES, then a word with IDX and V. -/
def irvWords (l : List (Option Irv)) : List W64 :=
  l.flatMap (fun e => match e with
    | none => [0, 0]
    | some x => [x.res, w64 (x.idx % 128 + 128)])

/-- The irrevocable buffer read back from an image. -/
def irvOfWords (l : List W64) : List (Option Irv) :=
  (List.range 8).map (fun k =>
    let m := wAt l (2 * k + 1)
    if bitOf m 7 then some ⟨bitsOf m 0 7, l.getD (2 * k) 0⟩ else none)

/-- Append a record to a partition's supervisor fault queue; false when it is full (R200). -/
def State.fqAppend (s : State) (part : Nat) (ws : List W64) : Bool × State :=
  let base := s.partW part 4
  if base = 0 then (true, s)
  else
    let tail := s.rd base 8
    let head := s.rd (base + 8) 8
    if (tail + 2 ^ 64 - head) % 2 ^ 64 < 1023 then
      (true, (s.wrWords (base + 0x40 + 64 * (tail % 1023)) ws).wr base 8 (tail + 1))
    else (false, s)

/-- Send a record that no frame holds to a partition's supervisor fault queue: it waits while the queue is full (R200). -/
def State.fqSend (s : State) (part : Nat) (ws : List W64) : State :=
  let (ok, u) := s.fqAppend part ws
  if ok then u else { s with fqWait := s.fqWait ++ [(part, ws)] }

/-- A RECONF of a context that is withdrawn leaves its region as it was (R109, R333). -/
def State.reconfDrop (s : State) (key : Nat) : State :=
  let mine := s.waits.any (fun w => w.key = key && (match w.k with
    | .reconf _ => true
    | _ => false))
  match (s.ctx key).region with
  | some k => if mine then s.updRegion (4 * (key / 16) + k) (fun r => { r with reconf := false, draining := false }) else s
  | none => s

/-- Withdraw a context's block in flight: its slots, buffered stores and waits, and what it had at a unit unaccepted
(R109). -/
def State.abortBlock (s : State) (key : Nat) : State :=
  let s := s.reconfDrop key
  let s := { s with
    blks := s.blks.del key
    waits := s.waits.filter (fun w => w.key ≠ key)
    walks := s.walks.map (fun (w : Walk) => { w with reqs := w.reqs.filter (fun r => r.1 ≠ key) }) }
  if (s.tile (key / 16)).mq.any (fun m => m.who.key = key && m.idx.isSome) then
    s.updTile (key / 16) (fun t => { t with mq := t.mq.filter (fun m => !(m.who.key = key && m.idx.isSome)) })
  else s

/-- A fault of a context that its delivery does not hold back (R103). -/
def Ctx.asyncDue (c : Ctx) : Bool := c.async.any (fun f => !f.behind)

/-- Has a fault of an earlier cycle stopped the block of a context (R102)? -/
def Ctx.syncStop (c : Ctx) (now : W64) : Bool := c.sync.any (fun f => f.at_ ≠ now)

/-- TAKING AN EXCEPTION (R104-R107): FLTCNT and the record, the irrevocable image, then the handler or HELD with a copy
to the supervisor fault queue. `toSup`: the record always goes to the supervisor (SVC, R327). A strand that is HELD has stopped
between safe points, where every register is live (log 26). -/
def State.takeFault (s : State) (key : Nat) (f : Flt) (toSup : Bool := false) : State :=
  let c := s.ctx key
  let nest := c.inh
  let t := key / 16
  let s := s.updTile t (fun x => { x with fltcnt := (x.fltcnt + 1) % 2 ^ 32 })
  let s := s.count t 15 (ctx := some (key % 16))
  let rec_ := recordWords s key f (if f.code = .trap then 0 else irvDone c.irv) nest
  let s := s.wrWords (framePa key + (if nest then 0xC0 else 0)) rec_
  let s := if nest then s
    else (s.wrWords (framePa key + 0x40) (irvWords c.irv)).wrWords (framePa key + 0xC0) (List.replicate 8 0)
  let s := s.abortBlock key
  let s := s.updCtx key (fun c => { c with irv := List.replicate 8 none, replaying := false })
  if !toSup && !nest && c.handler ≠ 0 && (s.tile t).frameva ≠ 0 then
    s.updCtx key (fun c => { c with inh := true, next := c.handler })
  else
    let (ok, s) := s.fqAppend c.part rec_
    s.updCtx key (fun c => { c with st := .held, fqPend := !ok, live := 0xFFFFFFFFFFFFFFFE })

/-- RETURN FROM AN EXCEPTION (R110): the irrevocable buffer from the frame's image, INH cleared, the record's block
next. -/
def State.resumeFault (s : State) (key : Nat) : State :=
  let img := s.rdWords (framePa key + 0x40) 16
  let blk := s.rd64 (framePa key + 8)
  s.updCtx key (fun c => { c with
    irv := irvOfWords img, inh := false, next := blk, replaying := true,
    async := c.async.map (fun f => { f with behind := false }) })

/-- Record an irrevocable instruction's result in the lowest invalid entry (R84). -/
def irvPut : List (Option Irv) → Irv → List (Option Irv)
  | [], _ => []
  | none :: r, x => some x :: r
  | some y :: r, x => some y :: irvPut r x

/-- The recorded result of an instruction, if any (R110). -/
def irvFind (l : List (Option Irv)) (idx : Nat) : Option W64 :=
  l.findSome? (fun e => match e with
    | some x => if x.idx = idx then some x.res else none
    | none => none)

/-- Effective privilege: a handler block runs at U (R105). -/
def Ctx.sup (c : Ctx) : Bool := c.priv && !c.inh

/-- TMV (R79): bit n is TMn.V. -/
def Ctx.tmv (c : Ctx) : Nat := ofBits ((List.range 16).map (fun k => (c.tms.getD 0 k).getLsbD 255))

end Sys2Proof.Machine
end

