-- ==== Sys2Proof/Machine/Flags.lean ====
section
/-! DEFINITION. Floating-point flags and FPSTAT (R70-R72): every flag computation adds to one set of sticky bits, in
FPSTAT's own places. -/

namespace Sys2Proof.Machine

/-- The flag bits, at their places in FPSTAT (R71). -/
def fNX : Nat := 1
def fUF : Nat := 2
def fOF : Nat := 4
def fDZ : Nat := 8
def fNV : Nat := 16

/-- Flags raised together are ORed (R72). -/
def fOr (a b : Nat) : Nat := Nat.lor a b

/-- Rounding modes (R58). -/
inductive RM where
  | rne | rtz | rup | rdn
  deriving DecidableEq, Repr

def RM.of (n : Nat) : RM := match n % 4 with
  | 0 => .rne
  | 1 => .rtz
  | 2 => .rup
  | _ => .rdn

/-- RM of an FPSTAT (R71). -/
def rmOf (fpstat : W64) : RM := RM.of (bitsOf fpstat.toNat 8 2)

/-- The bits of FPSTAT that a write reaches (R71). -/
def fpstatMask : W64 := 0x31F

/-- Sticky flags added to an FPSTAT. -/
def orFlags (fpstat : W64) (fl : Nat) : W64 := fpstat ||| w64 (fl % 32)

/-- Flags of a matrix operation or an element operation into the FPSTAT that collects them (R71, R72). -/
def State.flagCtx (s : State) (key fl : Nat) : State :=
  if fl = 0 then s else s.updCtx key (fun c => { c with fpstat := orFlags c.fpstat fl })

def State.flagRegion (s : State) (rk fl : Nat) : State :=
  if fl = 0 then s else s.updRegion rk (fun r => { r with fpstat := orFlags r.fpstat fl })

end Sys2Proof.Machine
end

