-- ==== Sys2Proof/Machine/Float.lean ====
section
/-! DEFINITION. Number formats and exact arithmetic (02_numbers): every operation forms its exact value and rounds once. -/

namespace Sys2Proof.Machine

/-- A floating-point format (R50): exponent and fraction widths, and whether it has infinities. -/
structure Fmt where
  eb : Nat
  mb : Nat
  inf : Bool
  deriving DecidableEq, Repr

def fp32 : Fmt := ⟨8, 23, true⟩
def bf16 : Fmt := ⟨8, 7, true⟩
def fp16 : Fmt := ⟨5, 10, true⟩
def e4m3 : Fmt := ⟨4, 3, false⟩
def e5m2 : Fmt := ⟨5, 2, true⟩

def Fmt.width (f : Fmt) : Nat := 1 + f.eb + f.mb
def Fmt.bias (f : Fmt) : Int := 2 ^ (f.eb - 1) - 1
/-- Bits of +infinity; in E4M3, one above the largest finite value (0x7F, the NaN). -/
def Fmt.infBits (f : Fmt) : Nat := if f.inf then (2 ^ f.eb - 1) * 2 ^ f.mb else 2 ^ (f.eb + f.mb) - 1
def Fmt.maxFin (f : Fmt) : Nat := f.infBits - 1
def Fmt.signBit (f : Fmt) (s : Bool) : Nat := if s then 2 ^ (f.eb + f.mb) else 0
/-- The default NaN (R51). -/
def Fmt.nan (f : Fmt) : Nat := if f.inf then f.infBits + 2 ^ (f.mb - 1) else f.infBits

/-- A value: a NaN with sign, signalling bit and payload left-aligned in 22 bits (R51, R64); an infinity; or
(-1)^sign x m x 2^e. -/
inductive FV where
  | nan (neg sig : Bool) (pay : Nat)
  | inf (neg : Bool)
  | fin (neg : Bool) (m : Nat) (e : Int)
  deriving DecidableEq, Repr

/-- Decode bits of a format (R50, R51). -/
def Fmt.dec (f : Fmt) (x : Nat) : FV :=
  let neg := bitOf x (f.eb + f.mb)
  let ex := bitsOf x f.mb f.eb
  let fr := bitsOf x 0 f.mb
  if f.inf && ex = 2 ^ f.eb - 1 then
    if fr = 0 then .inf neg
    else .nan neg (!bitOf fr (f.mb - 1)) (fr % 2 ^ (f.mb - 1) * 2 ^ (23 - f.mb))
  else if !f.inf && x % 2 ^ (f.eb + f.mb) = f.infBits then .nan neg false 0
  else if ex = 0 then .fin neg fr (1 - f.bias - f.mb)
  else .fin neg (2 ^ f.mb + fr) ((ex : Int) - f.bias - f.mb)

/-- A quiet NaN in a format, its payload narrowed (R51, R64). -/
def Fmt.encNan (f : Fmt) (neg : Bool) (pay : Nat) : Nat :=
  f.signBit neg + (if f.inf then f.infBits + 2 ^ (f.mb - 1) + pay / 2 ^ (23 - f.mb) else f.infBits)

/-- Round m x 2^e (plus something below it when `sticky`) to a multiple of 2^q; the multiple, and whether it is inexact. -/
def roundQ (rm : RM) (neg : Bool) (m : Nat) (e : Int) (sticky : Bool) (q : Int) : Nat × Bool :=
  let d := (q - e).toNat
  let k := if q ≤ e then m * 2 ^ (e - q).toNat else m / 2 ^ d
  let rem := if q ≤ e then 0 else m % 2 ^ d
  let two := 2 * rem
  let one := if q ≤ e then 1 else 2 ^ d
  let inexact := rem ≠ 0 || sticky
  let up := match rm with
    | .rtz => false
    | .rup => inexact && !neg
    | .rdn => inexact && neg
    | .rne => two > one || (two = one && (sticky || k % 2 = 1))
  (if up then k + 1 else k, inexact)

/-- Bits needed for a number. -/
def bitLen (m : Nat) : Nat := if m = 0 then 0 else Nat.log2 m + 1

/-- Overflow (R59). -/
def Fmt.overflow (f : Fmt) (rm : RM) (neg : Bool) : Nat :=
  f.signBit neg + (if !f.inf then f.maxFin else match rm with
    | .rne => f.infBits
    | .rtz => f.maxFin
    | .rup => if neg then f.maxFin else f.infBits
    | .rdn => if neg then f.infBits else f.maxFin)

/-- Round a nonzero magnitude into a format: bits and flags (R58-R60). -/
def Fmt.round (f : Fmt) (rm : RM) (neg : Bool) (m : Nat) (e : Int) (sticky : Bool) : Nat × Nat :=
  let emin : Int := 1 - f.bias
  let top : Int := e + (bitLen m : Int) - 1
  let q := max top emin - f.mb
  let (k, inexact) := roundQ rm neg m e sticky q
  let bits := if k < 2 ^ f.mb then k else (q + f.mb + f.bias).toNat * 2 ^ f.mb + (k - 2 ^ f.mb)
  -- tiny: the value rounded with an unbounded exponent is below the smallest normal (R60)
  let (k1, _) := roundQ rm neg m e sticky (top - f.mb)
  let tiny := top < emin && !(top = emin - 1 && k1 = 2 ^ (f.mb + 1))
  if bits > f.maxFin then (f.overflow rm neg, fOr fOF fNX)
  else (f.signBit neg + bits, fOr (if inexact then fNX else 0) (if inexact && tiny then fUF else 0))

/-- An exact result before rounding. -/
inductive Ex where
  | invalid                                    -- the default NaN with NV (R61 rule 2)
  | nan (neg : Bool) (pay : Nat)
  | inf (neg : Bool)
  | zero (neg : Bool)
  | fin (neg : Bool) (m : Nat) (e : Int) (sticky : Bool)
  deriving DecidableEq, Repr

/-- Put an exact result into a format (R59-R61). -/
def Fmt.pack (f : Fmt) (rm : RM) : Ex → Nat × Nat
  | .invalid => (f.nan, fNV)
  | .nan neg pay => (f.encNan neg pay, 0)
  | .inf neg => if f.inf then (f.signBit neg + f.infBits, 0) else (f.encNan neg 0, fNV)
  | .zero neg => (f.signBit neg, 0)
  | .fin neg m e st => if m = 0 && !st then (f.signBit neg, 0) else f.round rm neg m e st

def FV.isNan : FV → Bool
  | .nan .. => true
  | _ => false
def FV.isSig : FV → Bool
  | .nan _ s _ => s
  | _ => false
def FV.neg? : FV → Bool
  | .nan s _ _ => s
  | .inf s => s
  | .fin s _ _ => s
def FV.isZero : FV → Bool
  | .fin _ m _ => m = 0
  | _ => false
def FV.isInf : FV → Bool
  | .inf _ => true
  | _ => false
/-- Negation of a value that is no NaN (R61). -/
def FV.flip : FV → FV
  | .nan s q p => .nan s q p
  | .inf s => .inf (!s)
  | .fin s m e => .fin (!s) m e
def FV.toEx : FV → Ex
  | .nan s _ p => .nan s p
  | .inf s => .inf s
  | .fin s m e => if m = 0 then .zero s else .fin s m e false

/-- R61 rule 1: the first NaN among the operands, quieted; NV when one is signalling. -/
def nanRule (l : List FV) : Option (Ex × Nat) :=
  match l.find? FV.isNan with
  | some x => some (x.toEx, if l.any FV.isSig then fNV else 0)
  | none => none

/-- Signed integer of m x 2^e over 2^q, q at most e. -/
def scaled (neg : Bool) (m : Nat) (e q : Int) : Int :=
  let x : Int := (m * 2 ^ (e - q).toNat : Nat)
  if neg then -x else x

/-- Sign of an exact zero sum (R63). -/
def zeroSum (rm : RM) (a b : Bool) : Bool := if a = b then a else rm = .rdn

/-- Exact sum of finite terms, given the sign a zero sum takes. -/
def sumFin (zs : Bool) (l : List (Bool × Nat × Int)) : Ex :=
  let nz := l.filter (fun t => t.2.1 ≠ 0)
  match nz with
  | [] => .zero zs
  | t :: r =>
    let q := r.foldl (fun a x => min a x.2.2) t.2.2
    let sum := nz.foldl (fun a x => a + scaled x.1 x.2.1 x.2.2 q) (0 : Int)
    if sum = 0 then .zero zs else .fin (sum < 0) sum.natAbs q false

/-- Exact sum of two values that are no NaN (R61, R63). -/
def addEx (rm : RM) : FV → FV → Ex
  | .inf s, .inf t => if s = t then .inf s else .invalid
  | .inf s, _ => .inf s
  | _, .inf t => .inf t
  | .fin s m e, .fin t n g =>
    if m = 0 && n = 0 then .zero (zeroSum rm s t) else sumFin (rm = .rdn) [(s, m, e), (t, n, g)]
  | _, _ => .invalid

/-- Exact product of two values that are no NaN (R61, R63). -/
def mulEx : FV → FV → Ex
  | .fin s m e, .fin t n g => if m * n = 0 then .zero (s != t) else .fin (s != t) (m * n) (e + g) false
  | .inf s, y => if y.isZero then .invalid else .inf (s != y.neg?)
  | x, .inf t => if x.isZero then .invalid else .inf (x.neg? != t)
  | _, _ => .invalid

def Ex.toFV : Ex → FV
  | .invalid => .nan false false 0
  | .nan s p => .nan s false p
  | .inf s => .inf s
  | .zero s => .fin s 0 0
  | .fin s m e _ => .fin s m e

/-- Operands through R61 rule 1, then an exact core, then one rounding. -/
def Fmt.op (f : Fmt) (rm : RM) (l : List FV) (core : Ex) : Nat × Nat :=
  match nanRule l with
  | some (x, fl) => let r := f.pack rm x; (r.1, fOr r.2 fl)
  | none => f.pack rm core

def Fmt.add (f : Fmt) (rm : RM) (a b : Nat) : Nat × Nat := f.op rm [f.dec a, f.dec b] (addEx rm (f.dec a) (f.dec b))
/-- Subtraction negates its second operand unless it is a NaN, which passes with its own sign (R61). -/
def Fmt.sub (f : Fmt) (rm : RM) (a b : Nat) : Nat × Nat := f.op rm [f.dec a, f.dec b] (addEx rm (f.dec a) (f.dec b).flip)
def Fmt.mul (f : Fmt) (rm : RM) (a b : Nat) : Nat × Nat := f.op rm [f.dec a, f.dec b] (mulEx (f.dec a) (f.dec b))

/-- Fused multiply-add of values, the product negated when `np`, c when `nc` (R61, R62). -/
def fmaV (rm : RM) (np nc : Bool) (a b c : FV) : Ex × Nat :=
  let sig := [a, b, c].any FV.isSig
  let prod := mulEx a b
  if a.isNan || b.isNan then (match nanRule [a, b, c] with | some r => r | none => (.invalid, 0))
  else if prod = .invalid then (if c.isNan then (c.toEx, fNV) else (.invalid, 0))
  else if c.isNan then (c.toEx, if sig then fNV else 0)
  else
    let p := if np then prod.toFV.flip else prod.toFV
    (addEx rm p (if nc then c.flip else c), 0)

def Fmt.fma (f : Fmt) (rm : RM) (np nc : Bool) (a b c : Nat) : Nat × Nat :=
  let (x, fl) := fmaV rm np nc (f.dec a) (f.dec b) (f.dec c)
  let r := f.pack rm x
  (r.1, fOr r.2 fl)

/-- Order of two values that are no NaN, −0 below +0 when `zeros` (R63): -1, 0 or 1. -/
def cmpV (zeros : Bool) (a b : FV) : Int :=
  let key : FV → Int × Nat × Int := fun x => match x with
    | .nan .. => (0, 0, 0)
    | .inf s => (if s then -2 else 2, 0, 0)
    | .fin s m e => (if m = 0 then 0 else if s then -1 else 1, m, e)
  let (ca, ma, ea) := key a
  let (cb, mb, eb) := key b
  if ca < cb then -1 else if ca > cb then 1
  else if ca = 0 then
    (if zeros then (if a.neg? && !b.neg? then -1 else if !a.neg? && b.neg? then 1 else 0) else 0)
  else if ca = 2 || ca = -2 then 0
  else
    let q := min ea eb
    let d := scaled a.neg? ma ea q - scaled b.neg? mb eb q
    if d < 0 then -1 else if d > 0 then 1 else 0

def Fmt.minmax (f : Fmt) (mx : Bool) (a b : Nat) : Nat × Nat :=
  let x := f.dec a
  let y := f.dec b
  let c := cmpV true x y
  f.op .rne [x, y] (if (if mx then c ≥ 0 else c ≤ 0) then x.toEx else y.toEx)

/-- Floating-point comparison by condition number of R346 (0 EQ, 1 NE, 2 LT, 3 GE, 6 LE; R63): truth and flags. -/
def Fmt.cmp (f : Fmt) (cond a b : Nat) : Bool × Nat :=
  let x := f.dec a
  let y := f.dec b
  if x.isNan || y.isNan then
    (cond = 1, if x.isSig || y.isSig || cond = 2 || cond = 3 || cond = 6 then fNV else 0)
  else
    let c := cmpV false x y
    (match cond with
     | 0 => c = 0
     | 1 => c ≠ 0
     | 2 => c < 0
     | 3 => c ≥ 0
     | _ => c ≤ 0, 0)

/-- Quotient with enough bits to round once, and a sticky bit. -/
def divEx (a b : FV) : Ex :=
  match a, b with
  | .fin s m e, .fin t n g =>
    if n = 0 then (if m = 0 then .invalid else .inf (s != t))
    else if m = 0 then .zero (s != t)
    else
      let k := 80 + bitLen n
      .fin (s != t) (m * 2 ^ k / n) (e - g - k) (m * 2 ^ k % n ≠ 0)
  | .inf s, .fin t _ _ => .inf (s != t)
  | .fin s _ _, .inf t => .zero (s != t)
  | _, _ => .invalid

def Fmt.div (f : Fmt) (rm : RM) (a b : Nat) : Nat × Nat := f.op rm [f.dec a, f.dec b] (divEx (f.dec a) (f.dec b))

/-- Conversion between formats (R64): the first format's bits into the second. -/
def cvtFF (src dst : Fmt) (rm : RM) (x : Nat) : Nat × Nat := dst.op rm [src.dec x] (src.dec x).toEx

/-- An integer into a format (R65). -/
def Fmt.ofInt (f : Fmt) (rm : RM) (z : Int) : Nat × Nat :=
  f.pack rm (if z = 0 then .zero false else .fin (z < 0) z.natAbs 0 false)

/-- A value to a signed `n`-bit integer (R65): saturated, NaN gives 0. -/
def toIntV (rm : RM) (n : Nat) : FV → Int × Nat
  | .nan .. => (0, fNV)
  | .inf s => (if s then -(2 ^ (n - 1) : Nat) else (2 ^ (n - 1) : Nat) - 1, fNV)
  | .fin s m e =>
    let (k, inexact) := roundQ rm s m e false 0
    let z : Int := if s then -(k : Int) else k
    if z < -((2 ^ (n - 1) : Nat) : Int) then (-((2 ^ (n - 1) : Nat) : Int), fNV)
    else if z > ((2 ^ (n - 1) : Nat) : Int) - 1 then (((2 ^ (n - 1) : Nat) : Int) - 1, fNV)
    else (z, if inexact then fNX else 0)

/-! ## Special functions (R69, R348): fixed-point intervals, correctly rounded -/

/-- Fraction bits of the fixed-point work. -/
def fxP : Nat := 640

/-- ln 2 in fixed point: the sum of 1 / (k 2^k). -/
def ln2Loop : Nat → Nat → Nat → Nat
  | 0, _, acc => acc
  | n + 1, k, acc => ln2Loop n (k + 1) (acc + 2 ^ fxP / (k * 2 ^ k))
def fxLn2 : Nat := ln2Loop fxP 1 0

/-- arctan (1 / n) in fixed point. -/
def atanLoop (n2 : Nat) : Nat → Nat → Int → Int → Int
  | 0, _, _, acc => acc
  | m + 1, k, pw, acc =>
    atanLoop n2 m (k + 1) (pw / n2) (if k % 2 = 0 then acc + pw / (2 * k + 1) else acc - pw / (2 * k + 1))
def fxAtanInv (n : Nat) : Int := atanLoop (n * n) 320 0 ((2 ^ fxP / n : Nat) : Int) 0
/-- pi in fixed point (Machin). -/
def fxPi : Nat := (16 * fxAtanInv 5 - 4 * fxAtanInv 239).toNat

/-- Taylor terms t^k / k! from a term on: every term, or alternating signs by twos. -/
def expLoop (t : Nat) : Nat → Nat → Nat → Nat → Nat
  | 0, _, _, acc => acc
  | n + 1, k, term, acc => expLoop t n (k + 1) (term * t / 2 ^ fxP / (k + 1)) (acc + term)
/-- sin t (odd) or cos t (even) by Taylor series, t in fixed point below 2. -/
def sinCosLoop (t2 : Nat) (odd : Nat) : Nat → Nat → Nat → Int → Int
  | 0, _, _, acc => acc
  | n + 1, k, term, acc =>
    let acc' := if k % 2 = 0 then acc + term else acc - term
    sinCosLoop t2 odd n (k + 1) (term * t2 / 2 ^ fxP / ((2 * k + 1 + odd) * (2 * k + 2 + odd))) acc'
def fxSin (t : Nat) : Int := sinCosLoop (t * t / 2 ^ fxP) 1 120 0 t 0
def fxCos (t : Nat) : Int := sinCosLoop (t * t / 2 ^ fxP) 0 120 0 (2 ^ fxP) 0

/-- 2 artanh z = ln ((1 + z) / (1 - z)), z in fixed point at most 1/3. -/
def atanhLoop (z2 : Nat) : Nat → Nat → Nat → Nat → Nat
  | 0, _, _, acc => acc
  | n + 1, k, pw, acc => atanhLoop z2 n (k + 1) (pw * z2 / 2 ^ fxP) (acc + pw / (2 * k + 1))

/-- Round a value known to lie within 2^20 units of `v` x 2^(x - fxP). Both ends round alike unless the interval holds a
rounding boundary, which an opaque constant then decides (log 6). -/
def Fmt.roundFx (f : Fmt) (rm : RM) (neg : Bool) (v : Nat) (x : Int) : Nat × Nat :=
  let lo := f.round rm neg (v - 2 ^ 20) (x - fxP) true
  let hi := f.round rm neg (v + 2 ^ 20) (x - fxP) true
  if lo = hi then lo else if Config.hardCase v then hi else lo

/-- EXP2 (R69). -/
def Fmt.exp2 (f : Fmt) (rm : RM) (a : Nat) : Nat × Nat :=
  match f.dec a with
  | .nan s q p => f.op rm [.nan s q p] .invalid
  | .inf s => f.pack rm (if s then .zero false else .inf false)
  | .fin s m e =>
    let big := m ≠ 0 && (e + bitLen m > 16)
    if big then (if s then f.round rm false 1 (-100000) true else f.round rm false 1 100000 false)
    else if 0 ≤ e || m % 2 ^ (-e).toNat = 0 then
      let n : Int := (if 0 ≤ e then m * 2 ^ e.toNat else m / 2 ^ (-e).toNat : Nat)
      f.round rm false 1 (if s then -n else n) false
    else
      let d := (-e).toNat
      let z : Int := if s then -(m : Int) else m
      let n := z.fdiv (2 ^ d : Nat)
      let fr := (z - n * (2 ^ d : Nat)).toNat
      let t := fr * fxLn2 / 2 ^ d
      f.roundFx rm false (expLoop t 140 0 (2 ^ fxP) 0) n

/-- LOG2 (R69). LOG2(1) is an exact zero whose sign the manual does not give; it is +0 in every rounding mode (DESIGN CHOICE,
log 31). -/
def Fmt.log2 (f : Fmt) (rm : RM) (a : Nat) : Nat × Nat :=
  match f.dec a with
  | .nan s q p => f.op rm [.nan s q p] .invalid
  | .inf s => if s then f.pack rm .invalid else f.pack rm (.inf false)
  | .fin s m e =>
    if m = 0 then (let r := f.pack rm (.inf true); (r.1, fOr r.2 fDZ))
    else if s then f.pack rm .invalid
    else
      let l := bitLen m - 1
      let ex : Int := e + l
      if m = 2 ^ l then f.ofInt rm ex
      else
        -- y = m / 2^l in (1, 2); z = (y - 1) / (y + 1)
        let z := (m - 2 ^ l) * 2 ^ fxP / (m + 2 ^ l)
        let ln := 2 * atanhLoop (z * z / 2 ^ fxP) 210 0 z 0
        let v : Int := ex * (2 ^ fxP : Nat) + ((ln * 2 ^ fxP / fxLn2 : Nat) : Int)
        f.roundFx rm (v < 0) v.natAbs 0

/-- Reciprocal, square root and reciprocal square root (R69). -/
def Fmt.rcp (f : Fmt) (rm : RM) (a : Nat) : Nat × Nat :=
  let x := f.dec a
  let r := f.op rm [x] (match x with
    | .fin s 0 _ => .inf s
    | y => divEx (.fin false 1 0) y)
  if x.isZero then (r.1, fOr r.2 fDZ) else r

/-- Square root of m x 2^e with 100 extra bits and a sticky bit. -/
def sqrtEx (m : Nat) (e : Int) : Ex :=
  let (m, e) := if e % 2 = 0 then (m, e) else (2 * m, e - 1)
  let n := m * 2 ^ 200
  let r := Nat.sqrt n
  .fin false r (e / 2 - 100) (r * r ≠ n)

def Fmt.sqrt (f : Fmt) (rm : RM) (a : Nat) : Nat × Nat :=
  let x := f.dec a
  f.op rm [x] (match x with
    | .fin s m e => if m = 0 then .zero s else if s then .invalid else sqrtEx m e
    | .inf s => if s then .invalid else .inf false
    | _ => .invalid)

def Fmt.rsqrt (f : Fmt) (rm : RM) (a : Nat) : Nat × Nat :=
  let x := f.dec a
  let r := f.op rm [x] (match x with
    | .fin s m e =>
      if m = 0 then .inf s else if s then .invalid
      else
        let (m, e) := if e % 2 = 0 then (m, e) else (2 * m, e - 1)
        let n := 2 ^ 300 / m
        let q := Nat.sqrt n
        .fin false q (-(e / 2) - 150) (q * q * m ≠ 2 ^ 300)
    | .inf s => if s then .invalid else .zero false
    | _ => .invalid)
  if x.isZero then (r.1, fOr r.2 fDZ) else r

/-- SIN(pi x) and COS(pi x) (R69, R348): the argument in half-turns, reduced exactly. -/
def Fmt.sinCos (f : Fmt) (rm : RM) (cos : Bool) (a : Nat) : Nat × Nat :=
  match f.dec a with
  | .nan s q p => f.op rm [.nan s q p] .invalid
  | .inf _ => f.pack rm .invalid
  | .fin s m e =>
    -- |x| modulo 2 as u / 2^d
    let d := (if 0 ≤ e then 0 else (-e).toNat) + 1
    let u := (if 0 ≤ e then m * 2 ^ (e.toNat + 1) else 2 * m) % 2 ^ (d + 1)
    let half := 2 ^ (d - 1)
    -- quadrant of the turn: u in [0, 4 half)
    let quad := u / half
    let r := u % half
    if r = 0 then
      match cos, quad with
      | false, 0 => f.pack rm (.zero s)
      | false, 2 => f.pack rm (.zero s)
      | false, 1 => f.pack rm (.fin s 1 0 false)
      | false, _ => f.pack rm (.fin (!s) 1 0 false)
      | true, 0 => f.pack rm (.fin false 1 0 false)
      | true, 2 => f.pack rm (.fin true 1 0 false)
      | true, _ => f.pack rm (.zero false)
    else
      let odd := quad % 2 = 1
      let t := r * fxPi / 2 ^ d
      let v := if odd = cos then fxSin t else fxCos t
      let neg := if cos then (quad = 1 || quad = 2) else (quad ≥ 2) != s
      f.roundFx rm neg v.natAbs 0

/-! ## Exact sums (R66-R68) -/

/-- The products of a group present, and the operands they come from. -/
def groupSum (terms : List (FV × FV)) : Ex × Nat :=
  let sig := if terms.any (fun t => t.1.isSig || t.2.isSig) then fNV else 0
  let nanOf := terms.findSome? (fun t => if t.1.isNan then some t.1 else if t.2.isNan then some t.2 else none)
  match nanOf with
  | some x => (x.toEx, sig)
  | none =>
    let ps := terms.map (fun t => mulEx t.1 t.2)
    if ps.contains .invalid then (.nan false 0, fNV)
    else
      let pos := ps.contains (.inf false)
      let neg := ps.contains (.inf true)
      if pos && neg then (.nan false 0, fNV)
      else if pos then (.inf false, 0)
      else if neg then (.inf true, 0)
      else
        let fins := ps.filterMap (fun p => match p with
          | .fin s m e _ => some (s, m, e)
          | .zero s => some (s, 0, 0)
          | _ => none)
        (sumFin (!ps.isEmpty && fins.all (fun t => t.1 && t.2.1 = 0)) fins, 0)

/-- AddRN (R66). -/
def addRN (acc : Nat) (t : Ex) : Nat × Nat :=
  let a := fp32.dec acc
  if a.isNan then (acc, 0)
  else match t with
    | .nan s p => (fp32.encNan s p, 0)
    | t =>
      let b := t.toFV
      if a.isZero && b.isZero then (fp32.signBit (a.neg? && b.neg?), 0)
      else fp32.pack .rne (addEx .rne a b)

/-- GroupedDot over groups of terms, in order (R66). -/
def groupedDot (init : Nat) (groups : List (List (FV × FV))) : Nat × Nat :=
  groups.foldl (fun (st : Nat × Nat) g =>
    let (t, f1) := groupSum g
    let (v, f2) := addRN st.1 t
    (v, fOr st.2 (fOr f1 f2))) (init, 0)

/-! ## Block floating point (R53, R54) -/

/-- Value of mantissa `m` (two's complement, w bits) under exponent E (R53). -/
def bfpVal (w E m : Nat) : FV :=
  if E = 255 then .nan false false 0
  else
    let z := sext w m
    if z = 0 then .fin false 0 0 else .fin (z < 0) z.natAbs ((E : Int) - 127 - ((w : Int) - 2))

/-- E of the largest magnitude M of a list of finite values: max(0, floor(log2 M) + 127); 0 when M is 0 (R54). -/
def bfpExp (l : List FV) : Nat :=
  l.foldl (fun a x => match x with
    | .fin _ m e => if m = 0 then a else max a (e + bitLen m - 1 + 127).toNat
    | _ => a) 0

/-- The mantissa of a finite value under E (R54 steps 4 and 5): its w bits and flags. -/
def bfpMant (w E : Nat) (x : FV) : Nat × Nat :=
  match x with
  | .fin s m e =>
    let q : Int := (E : Int) - 127 - ((w : Int) - 2)
    let (k, inexact) := roundQ .rne s m e false q
    let z : Int := if s then -(k : Int) else k
    let hi : Int := (2 ^ (w - 1) : Nat) - 1
    let lo : Int := -((2 ^ (w - 1) : Nat) : Int)
    let zs := max lo (min hi z)
    (wrapNat w zs, fOr (if inexact || zs ≠ z then fNX else 0) (if m ≠ 0 && zs = 0 then fUF else 0))
  | _ => (0, 0)

/-! ## Format tags (R55) -/

/-- The floating-point format of a tag. -/
def tagFmt (t : Nat) : Option Fmt := match t with
  | 1 => some fp32
  | 2 => some bf16
  | 3 => some fp16
  | 4 => some e4m3
  | 5 => some e5m2
  | _ => none

/-- Lane mode of a tag: 0 L8, 1 L16, 2 L32, 3 L64; none for raw and BFP. -/
def tagLm (t : Nat) : Option Nat := match t with
  | 1 => some 2
  | 2 => some 1
  | 3 => some 1
  | 4 => some 0
  | 5 => some 0
  | 13 => some 0
  | 14 => some 2
  | 15 => some 3
  | _ => none

/-- Element size in bytes of a tag that is no BFP tag. -/
def tagBytes (t : Nat) : Nat := match tagLm t with
  | some l => 2 ^ l
  | none => 1

end Sys2Proof.Machine
end

