-- ==== Sys2Proof/WellFormed.lean ====
section
/-! DEFINITION. Well-formed instructions: the field values an encoding admits (R290-R297, R299, R383, R395, R400-R404,
R408, R430) and, for element operations, the fields R345 fixes for the operation. What depends on a block, a state or an
operand value is checked where the block is mapped or the instruction fires. -/

namespace Sys2Proof

/-- Operation width of a W bit (R311). -/
def opWidth (w : Bool) : Nat := if w then 32 else 64

/-- A target whose V is 0 has its other nine bits zero (R290). -/
abbrev tgtOk (t : BitVec 10) : Prop := t.getLsbD 9 = true ∨ t = 0

/-- Both targets admissible (R290). -/
abbrev Head.ok (h : Head) : Prop := tgtOk h.t0 ∧ tgtOk h.t1

/-- An instruction that delivers nothing has V = 0 in both targets (R290, R310). -/
abbrev Head.bare (h : Head) : Prop := h.t0 = 0 ∧ h.t1 = 0

/-- TS values of LD and ST (R293). -/
abbrev ldTs (ts : BitVec 4) : Prop := ts.toNat ≤ 6
abbrev stTs (ts : BitVec 4) : Prop := ts = 0 ∨ ts = 2 ∨ ts = 4 ∨ ts = 6

/-- TS values of AMOF and REDF: functions 000 to 010 (R293). -/
abbrev famoTs (ts : BitVec 4) : Prop := (ts.extractLsb' 0 3).toNat ≤ 2

/-- Order among those allowed; scope 0 with plain order, 0 to 5 otherwise (R154, R383). -/
abbrev ordOk (allowed : List (BitVec 2)) (m : MFmt) : Prop :=
  m.ord ∈ allowed ∧ (m.ord = 0 → m.scp = 0) ∧ m.scp.toNat ≤ 5

/-- A barrier field that is used only when its V bit is set (R395, R404). -/
abbrev bnumOk (v : Bool) (b : BitVec 6) : Prop := if v then b.toNat ≤ 47 else b = 0

/-- XCOPY's field rules (R395). -/
abbrev XcopyF.ok (f : XcopyF) : Prop :=
  f.mode.toNat ≤ 2 ∧ bnumOk f.bv f.bnum ∧ (f.mode = 0 → f.mapn = 0) ∧ (f.mode ≠ 0 → f.lenm1 = 0)

/-- Which of SA, SB, SC an element operation uses in any way, by opcode (R345). -/
def elemUses (opc : Nat) : Bool × Bool × Bool :=
  if opc ≤ 2 then (true, true, false) else if opc ≤ 7 then (true, true, true)
  else if opc ≤ 9 then (true, false, false) else if opc ≤ 14 then (true, true, true)
  else if opc = 15 then (false, false, true) else if opc = 16 then (true, true, true)
  else if opc = 20 then (true, false, false) else if opc ≤ 23 then (true, true, false)
  else if opc ≤ 30 then (true, false, false) else if opc ≤ 33 then (true, true, true)
  else if opc = 34 then (true, false, true) else if opc = 35 then (true, false, false)
  else if opc = 36 then (true, true, true) else if opc = 39 then (true, false, true)
  else if opc ≤ 41 then (true, false, false) else if opc = 43 then (true, true, true)
  else if opc ≤ 45 then (true, false, true) else if opc = 46 then (true, true, false)
  else if opc = 48 ∨ opc = 49 then (false, false, false) else (true, false, false)

/-- Operations that accept L64 only (R345; MOVI accepts every lane mode). -/
def elemL64 (opc : Nat) : Bool := opc = 15 || opc = 16 || (37 ≤ opc && opc ≤ 41) || 46 ≤ opc

/-- Operations whose MOD must be 00 (R345). -/
def elemMod0 (opc : Nat) : Bool :=
  (10 ≤ opc && opc ≤ 12) || (14 ≤ opc && opc ≤ 23) || opc = 35 || (37 ≤ opc && opc ≤ 41) || opc = 43 || opc = 44 ||
  48 ≤ opc

/-- The field values R345 fixes for an operation. -/
abbrev elemFixed (opc : Nat) (f : ElemF) : Prop :=
  let u := elemUses opc
  (u.1 = true ∨ f.sa = 0) ∧ (u.2.1 = true ∨ f.sb = 0) ∧ (u.2.2 = true ∨ f.sc = 0) ∧
  (elemL64 opc = false ∨ f.lm = 3) ∧ (elemMod0 opc = false ∨ f.md = 0) ∧
  ((opc ≠ 15 ∧ opc ≠ 16) ∨ (f.dst = 13 ∧ f.pwe = true)) ∧ ((opc ≠ 48 ∧ opc ≠ 49) ∨ f.dst = 12) ∧
  (opc ≠ 16 ∨ (f.sa.getLsbD 3 = false ∧ f.sb.getLsbD 3 = false)) ∧
  (opc ≠ 14 ∨ f.sc.getLsbD 3 = false) ∧ (opc ≠ 15 ∨ f.sc.toNat ≤ 1) ∧
  ((opc ≠ 34 ∧ opc ≠ 39) ∨ f.sc.getLsbD 3 = false) ∧ (opc ≠ 43 ∨ f.sc.toNat ≤ 3) ∧
  ((opc ≠ 32 ∧ opc ≠ 46 ∧ opc ≠ 47) ∨ f.md.toNat ≤ 1)

/-- The well-formed instructions. An event is well formed whatever it names: an event that cannot happen changes nothing. -/
def Instr.wf : Instr → Bool
  | .nop h => decide (h.ok)
  | .get h _ => decide (h.ok)
  | .put h _ => decide (h.bare)
  | .const_ h _ => decide (h.ok ∧ h.t1 = 0)
  | .movi h _ => decide (h.ok)
  | .mov h => decide (h.ok)
  | .null_ h _ => decide (h.bare)
  | .csrr h _ => decide (h.ok)
  | .csrw h _ => decide (h.bare)
  | .csrs h _ => decide (h.bare)
  | .csrc h _ => decide (h.bare)
  | .add h _ => decide (h.ok)
  | .addi h _ _ => decide (h.ok)
  | .sub h _ => decide (h.ok)
  | .mul h _ => decide (h.ok)
  | .mulh h _ => decide (h.ok)
  | .mulhu h _ => decide (h.ok)
  | .div h _ => decide (h.ok)
  | .divu h _ => decide (h.ok)
  | .rem h _ => decide (h.ok)
  | .remu h _ => decide (h.ok)
  | .neg h _ => decide (h.ok)
  | .abs_ h _ => decide (h.ok)
  | .min h _ => decide (h.ok)
  | .max h _ => decide (h.ok)
  | .minu h _ => decide (h.ok)
  | .maxu h _ => decide (h.ok)
  | .adds h _ => decide (h.ok)
  | .subs h _ => decide (h.ok)
  | .and_ h _ => decide (h.ok)
  | .andi h _ _ => decide (h.ok)
  | .or_ h _ => decide (h.ok)
  | .ori h _ _ => decide (h.ok)
  | .xor h _ => decide (h.ok)
  | .xori h _ _ => decide (h.ok)
  | .not_ h _ => decide (h.ok)
  | .shl h _ => decide (h.ok)
  | .shli h w k => decide (h.ok ∧ k.toNat < opWidth w)
  | .shr h _ => decide (h.ok)
  | .shri h w k => decide (h.ok ∧ k.toNat < opWidth w)
  | .sar h _ => decide (h.ok)
  | .sari h w k => decide (h.ok ∧ k.toNat < opWidth w)
  | .rotl h _ => decide (h.ok)
  | .clz h _ => decide (h.ok)
  | .ctz h _ => decide (h.ok)
  | .popc h _ => decide (h.ok)
  | .bext h w lo len => decide (h.ok ∧ lo.toNat + len.toNat + 1 ≤ opWidth w)
  | .bins h w lo len => decide (h.ok ∧ lo.toNat + len.toNat + 1 ≤ opWidth w)
  | .sext h w k => decide (h.ok ∧ k.toNat < opWidth w)
  | .zext h w k => decide (h.ok ∧ k.toNat < opWidth w)
  | .cmp h _ _ => decide (h.ok)
  | .cmpi h _ _ _ => decide (h.ok)
  | .sel h => decide (h.ok ∧ h.pr = 0)
  | .pand h => decide (h.ok)
  | .por h => decide (h.ok)
  | .pnot h => decide (h.ok)
  | .lea h _ _ => decide (h.ok)
  | .tmapx h _ => decide (h.ok)
  | .widf h fld => decide (h.ok ∧ fld.toNat ≤ 5)
  | .widl h => decide (h.ok)
  | .alignup h w k => decide (h.ok ∧ k.toNat < opWidth w)
  | .modadd h => decide (h.ok)
  | .br h _ _ => decide (h.bare)
  | .brr h _ => decide (h.bare)
  | .call h _ _ => decide (h.ok)
  | .callr h _ => decide (h.ok)
  | .ret_ h _ => decide (h.bare)
  | .switch h _ => decide (h.bare)
  | .trap h _ => decide (h.bare)
  | .svc h _ => decide (h.bare)
  | .eret h _ => decide (h.bare)
  | .halt h _ => decide (h.bare)
  | .yield h => decide (h.bare)
  | .waitev h => decide (h.ok)
  | .cfgld h => decide (h.ok)
  | .reconf h => decide (h.ok)
  | .ctxsave h => decide (h.ok)
  | .ctxrest h => decide (h.ok)
  | .tlbinvPage h => decide (h.ok)
  | .tlbinvAsn h => decide (h.ok)
  | .tlbinvAll h => decide (h.ok)
  | .ld h m => decide (h.ok ∧ ldTs m.ts ∧ ordOk [0, 1] m)
  | .st h m => decide (h.ok ∧ stTs m.ts ∧ ordOk [0, 2] m)
  | .ldf h m => decide (h.ok ∧ m.ts = 6 ∧ ordOk [0] m)
  | .ldff h m => decide (h.ok ∧ m.ts = 6 ∧ ordOk [0] m)
  | .ste h m => decide (h.ok ∧ m.ts = 6 ∧ ordOk [0] m)
  | .tagset h m => decide (h.ok ∧ m.ts = 6 ∧ ordOk [0] m)
  | .tagclr h m => decide (h.ok ∧ m.ts = 6 ∧ ordOk [0] m)
  | .tagq h m => decide (h.ok ∧ m.ts = 6 ∧ ordOk [0] m)
  | .pref h m => decide (h.ok ∧ m.ts = 0 ∧ ordOk [0] m)
  | .flush h m => decide (h.ok ∧ m.ts = 0 ∧ ordOk [0] m)
  | .inval h m => decide (h.ok ∧ m.ts = 0 ∧ ordOk [0] m)
  | .amo h m => decide (h.ok ∧ ordOk [0, 1, 2, 3] m)
  | .cas h m => decide (h.ok ∧ m.ts = 0 ∧ ordOk [0, 1, 2, 3] m)
  | .amof h m => decide (h.ok ∧ famoTs m.ts ∧ ordOk [0, 1, 2, 3] m)
  | .red h m => decide (h.ok ∧ m.ts.extractLsb' 0 3 ≠ 0 ∧ ordOk [0, 2] m)
  | .redf h m => decide (h.ok ∧ famoTs m.ts ∧ ordOk [0, 2] m)
  | .fence h _ scope => decide (h.ok ∧ scope.toNat ≤ 5)
  | .drain h path => decide (h.ok ∧ path.toNat ≤ 4)
  | .xcopy h f => decide (h.ok ∧ f.ok)
  | .xchain h _ => decide (h.ok)
  | .xstat h _ => decide (h.ok)
  | .tmapset h _ => decide (h.ok)
  | .sbindMap h port _ e => decide (h.ok ∧ (port.toNat < 4 ∨ e = false))
  | .sbindChannel h _ => decide (h.ok)
  | .seos h _ => decide (h.ok)
  | .sbar h _ v bnum => decide (h.ok ∧ bnumOk v bnum)
  | .mma h _ _ => decide (h.ok)
  | .mmas h _ _ => decide (h.ok)
  | .mqk h _ => decide (h.ok)
  | .mpv h _ => decide (h.ok)
  | .mscan h _ _ => decide (h.ok)
  | .mzero h _ _ => decide (h.ok)
  | .mldacc h _ _ => decide (h.ok)
  | .mstacc h _ => decide (h.ok)
  | .mresc h _ => decide (h.ok)
  | .mside h _ side => decide (h.ok ∧ side.toNat ≤ 2)
  | .mwait h mask => decide (h.ok ∧ mask ≠ 0)
  | .chpush h _ => decide (h.ok)
  | .chpop h => decide (h.ok)
  | .chpeek h => decide (h.ok)
  | .cheos h => decide (h.ok)
  | .chstat h item => decide (h.ok ∧ item.toNat < 4)
  | .chgrow h => decide (h.ok)
  | .enq h => decide (h.ok)
  | .enqw h => decide (h.ok)
  | .launch h => decide (h.ok)
  | .signal h => decide (h.ok)
  | .send h dir => decide (h.ok ∧ dir.toNat ≤ 2)
  | .sendQ h dir => decide (h.ok ∧ dir.toNat ≤ 2)
  | .recv h => decide (h.ok)
  | .recvw h => decide (h.ok)
  | .recvwT h => decide (h.ok)
  | .fwdQ h => decide (h.ok)
  | .fwdM h => decide (h.ok)
  | .fwdEnd h => decide (h.ok)
  | .tokinfo h item => decide (h.ok ∧ item.toNat < 6)
  | .binit h bnum _ scope => decide (h.ok ∧ bnum.toNat ≤ 47 ∧ 1 ≤ scope.toNat ∧ scope.toNat ≤ 4)
  | .barr h bnum => decide (h.ok ∧ bnum.toNat ≤ 47)
  | .barrR h bnum => decide (h.ok ∧ bnum.toNat ≤ 47)
  | .bwait h bnum => decide (h.ok ∧ bnum.toNat ≤ 47)
  | .btest h bnum => decide (h.ok ∧ bnum.toNat ≤ 47)
  | .badd h _ bnum => decide (h.ok ∧ bnum.toNat ≤ 47)
  | .pacq h => decide (h.ok)
  | .prel h => decide (h.ok)
  | .prelG h _ => decide (h.ok)
  | .pqry h => decide (h.ok)
  | .pctr h item => decide (h.ok ∧ item.toNat < 4)
  | .shlookWord h item => decide (h.ok ∧ item.toNat < 4)
  | .shlookFind h => decide (h.ok)
  | .shmapE h => decide (h.ok)
  | .shmapP h => decide (h.ok)
  | .shunmapE h => decide (h.ok)
  | .shunmapP h => decide (h.ok)
  | .kvappend h _ => decide (h.ok)
  | .kvcommit h => decide (h.ok)
  | .kvtent h => decide (h.ok)
  | .kvroll h => decide (h.ok)
  | .kvfork h => decide (h.ok)
  | .kvevictHbm h => decide (h.ok)
  | .kvevictCold h => decide (h.ok)
  | .kvevictDrop h => decide (h.ok)
  | .kvevictRel h => decide (h.ok)
  | .kvpin h => decide (h.ok)
  | .kvpinClr h => decide (h.ok)
  | .kvrefill h => decide (h.ok)
  | .phashH h => decide (h.ok)
  | .phashL h => decide (h.ok)
  | .sumupd h => decide (h.ok)
  | .psel h => decide (h.ok)
  | .gchain h => decide (h.ok)
  | .tsinit h => decide (h.ok)
  | .tsdesc h => decide (h.ok)
  | .tsexp h _ => decide (h.ok)
  | .tsbatch h => decide (h.ok)
  | .tseval h => decide (h.ok)
  | .tsback h => decide (h.ok)
  | .tsvl h _ => decide (h.ok)
  | .tsreroot h => decide (h.ok)
  | .tsbestN h => decide (h.ok)
  | .tsbestQ h => decide (h.ok)
  | .tsstat h item => decide (h.ok ∧ item.toNat < 4)
  | .elementAdd f => decide (elemFixed 0 f)
  | .elementSub f => decide (elemFixed 1 f)
  | .elementMul f => decide (elemFixed 2 f)
  | .elementFma f => decide (elemFixed 3 f)
  | .elementFms f => decide (elemFixed 4 f)
  | .elementFnma f => decide (elemFixed 5 f)
  | .elementMin f => decide (elemFixed 6 f)
  | .elementMax f => decide (elemFixed 7 f)
  | .elementAbs f => decide (elemFixed 8 f)
  | .elementNeg f => decide (elemFixed 9 f)
  | .elementAdds f => decide (elemFixed 10 f)
  | .elementSubs f => decide (elemFixed 11 f)
  | .elementMulhi f => decide (elemFixed 12 f)
  | .elementCmp f => decide (elemFixed 13 f)
  | .elementSel f => decide (elemFixed 14 f)
  | .elementPset f => decide (elemFixed 15 f)
  | .elementPmov f => decide (elemFixed 16 f)
  | .elementAnd f => decide (elemFixed 17 f)
  | .elementOr f => decide (elemFixed 18 f)
  | .elementXor f => decide (elemFixed 19 f)
  | .elementNot f => decide (elemFixed 20 f)
  | .elementShl f => decide (elemFixed 21 f)
  | .elementShr f => decide (elemFixed 22 f)
  | .elementSar f => decide (elemFixed 23 f)
  | .elementExp2 f => decide (elemFixed 24 f)
  | .elementLog2 f => decide (elemFixed 25 f)
  | .elementRcp f => decide (elemFixed 26 f)
  | .elementRsqrt f => decide (elemFixed 27 f)
  | .elementSqrt f => decide (elemFixed 28 f)
  | .elementSin f => decide (elemFixed 29 f)
  | .elementCos f => decide (elemFixed 30 f)
  | .elementCvt f => decide (elemFixed 31 f)
  | .elementBfpk f => decide (elemFixed 32 f)
  | .elementBfunpk f => decide (elemFixed 33 f)
  | .elementRndi f => decide (elemFixed 34 f)
  | .elementMov f => decide (elemFixed 35 f)
  | .elementMovi f => decide (elemFixed 36 f)
  | .elementTake f => decide (elemFixed 37 f)
  | .elementPeek f => decide (elemFixed 38 f)
  | .elementEmit f => decide (elemFixed 39 f)
  | .elementPass f => decide (elemFixed 40 f)
  | .elementTags f => decide (elemFixed 41 f)
  | .elementRedc f => decide (elemFixed 42 f)
  | .elementShuf f => decide (elemFixed 43 f)
  | .elementBcst f => decide (elemFixed 44 f)
  | .elementScan f => decide (elemFixed 45 f)
  | .elementTkins f => decide (elemFixed 46 f)
  | .elementTkout f => decide (elemFixed 47 f)
  | .elementNop f => decide (elemFixed 48 f)
  | .elementEose f => decide (elemFixed 49 f)
  | .elementCtok f => decide (elemFixed 50 f)
  | .elementWaitp f => decide (elemFixed 51 f)
  | .elementEmitp f => decide (elemFixed 52 f)
  | .hostSubmission => true
  | .dispatcherTake => true
  | .taskBind => true
  | .configFetchComplete => true
  | .taskAging => true
  | .quantumExpiry => true
  | .preemptAccept => true
  | .taskSave => true
  | .taskRebind => true
  | .blockMap => true
  | .blockCommit => true
  | .safepointOverdue => true
  | .taskRetire => true
  | .launchEnd => true
  | .dependentCancel => true
  | .faultDelivery => true
  | .faultQueueRetry => true
  | .ctxctlResume => true
  | .ctxctlRedirect => true
  | .ctxctlKill => true
  | .ctxctlPreempt => true
  | .bankroleWrite => true
  | .contextWindowStore => true
  | .elementWindowStore => true
  | .accumulatorWindowStore => true
  | .accumulatorWindowLoad => true
  | .channelEntryValidate => true
  | .channelClose => true
  | .barrierWindowStore => true
  | .mailboxRegisterWrite => true
  | .mread => true
  | .mwrite => true
  | .twritePkgcfg => true
  | .twritePartition => true
  | .twriteRegclass => true
  | .twriteWorkqueue => true
  | .twritePoisonList => true
  | .twriteErrorCounter => true
  | .tread => true
  | .level => true
  | .attest => true
  | .fwstage => true
  | .coldReset => true
  | .warmReset => true
  | .partFailure => true
  | .linkDown => true
  | .powerRemoval => true
  | .powerEvaluation => true
  | .periodBoundary => true
  | .requestInject => true
  | .flitInject => true
  | .remontoireSample => true
  | .yieldWindowEnd => true
  | .waitevTimeout => true
  | .storePerform => true
  | .pageWalkComplete => true
  | .sliceRequest => true
  | .missEntryFree => true
  | .correctedError => true
  | .uncorrectableError => true
  | .spillFetchComplete => true
  | .packetHop => true
  | .qtArrival => true
  | .tokenServiceStart => true
  | .msgArrival => true
  | .remoteBarrierArrival => true
  | .routeTokenLanding => true
  | .streamInDeliver => true
  | .streamOutToken => true
  | .permitTokenArrival => true
  | .matrixAccept => true
  | .matrixComplete => true
  | .matrixStop => true
  | .copyRecordComplete => true
  | .xcopyTransferComplete => true
  | .pageMoveComplete => true

end Sys2Proof
end

