-- ==== Sys2Proof/Decode.lean ====
section
/-! DEFINITION. Decoding: total on any word, refusing by name (R289-R298, R301, R302, R404, R408, R430), and after it the
encoder, written from the same tables. A sequencer word is decoded in two moves: its OPC and SEL choose the row and its
fields are cut out; then the word is accepted when those fields are well formed and put every other bit at zero. -/

namespace Sys2Proof

/-- Why a sequencer word is no instruction (R299). -/
inductive DecodeErr where
  | illegalOpcode
  | reservedField
  deriving DecidableEq, Repr

/-- One bit of a Bool. -/
def b1 (b : Bool) : BitVec 1 := BitVec.ofBool b

/-- The head of a sequencer word (R289). -/
def headOf (w : W64) : Head := ⟨w.getLsbD 53, w.extractLsb' 51 2, w.extractLsb' 41 10, w.extractLsb' 31 10⟩

/-- The head of a CONST word, which has one target (R296). -/
def headOfL (w : W64) : Head := ⟨w.getLsbD 53, w.extractLsb' 51 2, w.extractLsb' 41 10, 0⟩

/-- Format M's fields (R292). -/
def mfmtOf (w : W64) : MFmt :=
  ⟨w.extractLsb' 27 4, w.extractLsb' 23 4, w.extractLsb' 21 2, w.extractLsb' 18 3, w.getLsbD 17, w.extractLsb' 0 17⟩

/-- XCOPY's fields (R395): SEL is bits 30:26. -/
def xcopyOf (w : W64) : XcopyF :=
  ⟨w.extractLsb' 28 3, w.extractLsb' 26 2, w.extractLsb' 22 4, w.getLsbD 21, w.extractLsb' 15 6, w.getLsbD 14,
   w.getLsbD 13, w.extractLsb' 0 13⟩

/-- Group 0x0 BLOCK of R298: the row an operation and SEL choose, with its fields cut out. -/
def candBlock (op : Nat) (h : Head) (w : W64) : Except DecodeErr Instr :=
  match op with
  | 0 => .ok (.nop h)
  | 1 => .ok (.get h (w.extractLsb' 25 6))
  | 2 => .ok (.put h (w.extractLsb' 25 6))
  | 3 => .ok (.const_ (headOfL w) (w.extractLsb' 0 41))
  | 4 => .ok (.movi h (w.extractLsb' 0 27))
  | 5 => .ok (.mov h)
  | 6 => .ok (.null_ h (w.extractLsb' 25 6))
  | 7 => .ok (.csrr h (w.extractLsb' 0 12))
  | 8 => .ok (.csrw h (w.extractLsb' 0 12))
  | 9 => .ok (.csrs h (w.extractLsb' 0 12))
  | 10 => .ok (.csrc h (w.extractLsb' 0 12))
  | _ => .error .illegalOpcode

/-- Group 0x1 INTEGER of R298: the row an operation and SEL choose, with its fields cut out. -/
def candInteger (op : Nat) (h : Head) (w : W64) : Except DecodeErr Instr :=
  match op with
  | 0 => .ok (.add h (w.getLsbD 30))
  | 1 => .ok (.addi h (w.getLsbD 30) (w.extractLsb' 0 27))
  | 2 => .ok (.sub h (w.getLsbD 30))
  | 3 => .ok (.mul h (w.getLsbD 30))
  | 4 => .ok (.mulh h (w.getLsbD 30))
  | 5 => .ok (.mulhu h (w.getLsbD 30))
  | 6 => .ok (.div h (w.getLsbD 30))
  | 7 => .ok (.divu h (w.getLsbD 30))
  | 8 => .ok (.rem h (w.getLsbD 30))
  | 9 => .ok (.remu h (w.getLsbD 30))
  | 10 => .ok (.neg h (w.getLsbD 30))
  | 11 => .ok (.abs_ h (w.getLsbD 30))
  | 12 => .ok (.min h (w.getLsbD 30))
  | 13 => .ok (.max h (w.getLsbD 30))
  | 14 => .ok (.minu h (w.getLsbD 30))
  | 15 => .ok (.maxu h (w.getLsbD 30))
  | 16 => .ok (.adds h (w.getLsbD 30))
  | 17 => .ok (.subs h (w.getLsbD 30))
  | _ => .error .illegalOpcode

/-- Group 0x2 LOGIC of R298: the row an operation and SEL choose, with its fields cut out. -/
def candLogic (op : Nat) (h : Head) (w : W64) : Except DecodeErr Instr :=
  match op with
  | 0 => .ok (.and_ h (w.getLsbD 30))
  | 1 => .ok (.andi h (w.getLsbD 30) (w.extractLsb' 0 27))
  | 2 => .ok (.or_ h (w.getLsbD 30))
  | 3 => .ok (.ori h (w.getLsbD 30) (w.extractLsb' 0 27))
  | 4 => .ok (.xor h (w.getLsbD 30))
  | 5 => .ok (.xori h (w.getLsbD 30) (w.extractLsb' 0 27))
  | 6 => .ok (.not_ h (w.getLsbD 30))
  | 7 => .ok (.shl h (w.getLsbD 30))
  | 8 => .ok (.shli h (w.getLsbD 30) (w.extractLsb' 0 6))
  | 9 => .ok (.shr h (w.getLsbD 30))
  | 10 => .ok (.shri h (w.getLsbD 30) (w.extractLsb' 0 6))
  | 11 => .ok (.sar h (w.getLsbD 30))
  | 12 => .ok (.sari h (w.getLsbD 30) (w.extractLsb' 0 6))
  | 13 => .ok (.rotl h (w.getLsbD 30))
  | 14 => .ok (.clz h (w.getLsbD 30))
  | 15 => .ok (.ctz h (w.getLsbD 30))
  | 16 => .ok (.popc h (w.getLsbD 30))
  | 17 => .ok (.bext h (w.getLsbD 30) (w.extractLsb' 0 6) (w.extractLsb' 6 6))
  | 18 => .ok (.bins h (w.getLsbD 30) (w.extractLsb' 0 6) (w.extractLsb' 6 6))
  | 19 => .ok (.sext h (w.getLsbD 30) (w.extractLsb' 0 6))
  | 20 => .ok (.zext h (w.getLsbD 30) (w.extractLsb' 0 6))
  | _ => .error .illegalOpcode

/-- Group 0x3 COMPARE of R298: the row an operation and SEL choose, with its fields cut out. -/
def candCompare (op : Nat) (h : Head) (w : W64) : Except DecodeErr Instr :=
  match op with
  | 0 => .ok (.cmp h (w.getLsbD 30) (w.extractLsb' 27 3))
  | 1 => .ok (.cmpi h (w.getLsbD 30) (w.extractLsb' 27 3) (w.extractLsb' 0 27))
  | 2 => .ok (.sel h)
  | 3 => .ok (.pand h)
  | 4 => .ok (.por h)
  | 5 => .ok (.pnot h)
  | _ => .error .illegalOpcode

/-- Group 0x4 ADDRESS of R298: the row an operation and SEL choose, with its fields cut out. -/
def candAddress (op : Nat) (h : Head) (w : W64) : Except DecodeErr Instr :=
  match op with
  | 0 => .ok (.lea h (w.getLsbD 30) (w.extractLsb' 0 27))
  | 1 => .ok (.tmapx h (w.extractLsb' 26 4))
  | 2 => .ok (.widf h (w.extractLsb' 0 3))
  | 3 => .ok (.widl h)
  | 4 => .ok (.alignup h (w.getLsbD 30) (w.extractLsb' 0 6))
  | 5 => .ok (.modadd h)
  | _ => .error .illegalOpcode

/-- Group 0x5 FLOW of R298: the row an operation and SEL choose, with its fields cut out. -/
def candFlow (op : Nat) (h : Head) (w : W64) : Except DecodeErr Instr :=
  match op with
  | 0 => .ok (.br h (w.extractLsb' 28 3) (w.extractLsb' 0 28))
  | 1 => .ok (.brr h (w.extractLsb' 27 3))
  | 2 => .ok (.call h (w.extractLsb' 28 3) (w.extractLsb' 0 28))
  | 3 => .ok (.callr h (w.extractLsb' 27 3))
  | 4 => .ok (.ret_ h (w.extractLsb' 27 3))
  | 5 => .ok (.switch h (w.extractLsb' 27 3))
  | _ => .error .illegalOpcode

/-- Group 0x6 SYSTEM of R298: the row an operation and SEL choose, with its fields cut out. -/
def candSystem (op : Nat) (h : Head) (w : W64) : Except DecodeErr Instr :=
  match op with
  | 0 => .ok (.trap h (w.extractLsb' 0 27))
  | 1 => .ok (.svc h (w.extractLsb' 0 27))
  | 2 => .ok (.eret h (w.extractLsb' 27 3))
  | 3 => .ok (.halt h (w.extractLsb' 27 3))
  | 4 => .ok (.yield h)
  | 5 => .ok (.waitev h)
  | 6 => .ok (.cfgld h)
  | 7 => .ok (.reconf h)
  | 8 => .ok (.ctxsave h)
  | 9 => .ok (.ctxrest h)
  | 10 => if (w.extractLsb' 26 5) = 0 then .ok (.tlbinvPage h)
      else if (w.extractLsb' 26 5) = 1 then .ok (.tlbinvAsn h)
      else if (w.extractLsb' 26 5) = 2 then .ok (.tlbinvAll h)
      else .error .reservedField
  | _ => .error .illegalOpcode

/-- Group 0x7 MEMORY of R298: the row an operation and SEL choose, with its fields cut out. -/
def candMemory (op : Nat) (h : Head) (w : W64) : Except DecodeErr Instr :=
  match op with
  | 0 => .ok (.ld h (mfmtOf w))
  | 1 => .ok (.st h (mfmtOf w))
  | 2 => .ok (.ldf h (mfmtOf w))
  | 3 => .ok (.ldff h (mfmtOf w))
  | 4 => .ok (.ste h (mfmtOf w))
  | 5 => .ok (.tagset h (mfmtOf w))
  | 6 => .ok (.tagclr h (mfmtOf w))
  | 7 => .ok (.tagq h (mfmtOf w))
  | 8 => .ok (.pref h (mfmtOf w))
  | 9 => .ok (.flush h (mfmtOf w))
  | 10 => .ok (.inval h (mfmtOf w))
  | _ => .error .illegalOpcode

/-- Group 0x8 ATOMIC of R298: the row an operation and SEL choose, with its fields cut out. -/
def candAtomic (op : Nat) (h : Head) (w : W64) : Except DecodeErr Instr :=
  match op with
  | 0 => .ok (.amo h (mfmtOf w))
  | 1 => .ok (.cas h (mfmtOf w))
  | 2 => .ok (.amof h (mfmtOf w))
  | 3 => .ok (.red h (mfmtOf w))
  | 4 => .ok (.redf h (mfmtOf w))
  | _ => .error .illegalOpcode

/-- Group 0x9 ORDER of R298: the row an operation and SEL choose, with its fields cut out. -/
def candOrder (op : Nat) (h : Head) (w : W64) : Except DecodeErr Instr :=
  match op with
  | 0 => .ok (.fence h (w.extractLsb' 10 16) (w.extractLsb' 7 3))
  | 1 => .ok (.drain h (w.extractLsb' 0 3))
  | _ => .error .illegalOpcode

/-- Group 0xA COPY of R298: the row an operation and SEL choose, with its fields cut out. -/
def candCopy (op : Nat) (h : Head) (w : W64) : Except DecodeErr Instr :=
  match op with
  | 0 => .ok (.xcopy h (xcopyOf w))
  | 1 => .ok (.xchain h (w.extractLsb' 26 2))
  | 2 => .ok (.xstat h (w.extractLsb' 26 2))
  | 3 => .ok (.tmapset h (w.extractLsb' 26 4))
  | 4 => if (w.extractLsb' 29 2) = 0 then .ok (.sbindMap h (w.extractLsb' 26 3) (w.extractLsb' 22 4) (w.getLsbD 21))
      else if (w.extractLsb' 29 2) = 1 then .ok (.sbindChannel h (w.extractLsb' 26 2))
      else .error .reservedField
  | 5 => .ok (.seos h (w.extractLsb' 26 2))
  | 6 => .ok (.sbar h (w.extractLsb' 26 2) (w.getLsbD 25) (w.extractLsb' 19 6))
  | _ => .error .illegalOpcode

/-- Group 0xB MATRIX of R298: the row an operation and SEL choose, with its fields cut out. -/
def candMatrix (op : Nat) (h : Head) (w : W64) : Except DecodeErr Instr :=
  match op with
  | 0 => .ok (.mma h (w.extractLsb' 26 2) (w.getLsbD 28))
  | 1 => .ok (.mmas h (w.extractLsb' 26 2) (w.getLsbD 28))
  | 2 => .ok (.mqk h (w.extractLsb' 26 2))
  | 3 => .ok (.mpv h (w.extractLsb' 26 2))
  | 4 => .ok (.mscan h (w.extractLsb' 26 2) (w.getLsbD 28))
  | 5 => .ok (.mzero h (w.extractLsb' 26 2) (w.getLsbD 28))
  | 6 => .ok (.mldacc h (w.extractLsb' 26 2) (w.getLsbD 28))
  | 7 => .ok (.mstacc h (w.extractLsb' 26 2))
  | 8 => .ok (.mresc h (w.extractLsb' 26 2))
  | 9 => .ok (.mside h (w.extractLsb' 26 2) (w.extractLsb' 28 2))
  | 10 => .ok (.mwait h (w.extractLsb' 26 4))
  | _ => .error .illegalOpcode

/-- Group 0xC QUEUE of R298: the row an operation and SEL choose, with its fields cut out. -/
def candQueue (op : Nat) (h : Head) (w : W64) : Except DecodeErr Instr :=
  match op with
  | 0 => .ok (.chpush h (w.getLsbD 26))
  | 1 => .ok (.chpop h)
  | 2 => .ok (.chpeek h)
  | 3 => .ok (.cheos h)
  | 4 => .ok (.chstat h (w.extractLsb' 26 3))
  | 5 => .ok (.chgrow h)
  | 6 => .ok (.enq h)
  | 7 => .ok (.enqw h)
  | 8 => .ok (.launch h)
  | 9 => .ok (.signal h)
  | 10 => if (w.extractLsb' 28 3) = 0 then .ok (.send h (w.extractLsb' 26 2))
      else if (w.extractLsb' 28 3) = 1 then .ok (.sendQ h (w.extractLsb' 26 2))
      else .error .reservedField
  | 11 => .ok (.recv h)
  | 12 => if (w.extractLsb' 26 5) = 0 then .ok (.recvw h)
      else if (w.extractLsb' 26 5) = 1 then .ok (.recvwT h)
      else .error .reservedField
  | 13 => if (w.extractLsb' 26 5) = 0 then .ok (.fwdQ h)
      else if (w.extractLsb' 26 5) = 1 then .ok (.fwdM h)
      else if (w.extractLsb' 26 5) = 2 then .ok (.fwdEnd h)
      else .error .reservedField
  | 14 => .ok (.tokinfo h (w.extractLsb' 26 3))
  | _ => .error .illegalOpcode

/-- Group 0xD COUNTER of R298: the row an operation and SEL choose, with its fields cut out. -/
def candCounter (op : Nat) (h : Head) (w : W64) : Except DecodeErr Instr :=
  match op with
  | 0 => .ok (.binit h (w.extractLsb' 20 6) (w.extractLsb' 17 3) (w.extractLsb' 14 3))
  | 1 => if (w.extractLsb' 26 5) = 0 then .ok (.barr h (w.extractLsb' 20 6))
      else if (w.extractLsb' 26 5) = 1 then .ok (.barrR h (w.extractLsb' 20 6))
      else .error .reservedField
  | 2 => .ok (.bwait h (w.extractLsb' 20 6))
  | 3 => .ok (.btest h (w.extractLsb' 20 6))
  | 4 => .ok (.badd h (w.getLsbD 26) (w.extractLsb' 20 6))
  | 5 => .ok (.pacq h)
  | 6 => if (w.extractLsb' 26 5) = 0 then .ok (.prel h)
      else if (w.extractLsb' 26 5) = 1 then .ok (.prelG h (w.extractLsb' 24 2))
      else .error .reservedField
  | 7 => .ok (.pqry h)
  | 8 => .ok (.pctr h (w.extractLsb' 26 3))
  | _ => .error .illegalOpcode

/-- Group 0xE SHARD of R298: the row an operation and SEL choose, with its fields cut out. -/
def candShard (op : Nat) (h : Head) (w : W64) : Except DecodeErr Instr :=
  match op with
  | 0 => if (w.extractLsb' 26 5).toNat < 4 then .ok (.shlookWord h (w.extractLsb' 26 3))
      else if (w.extractLsb' 26 5) = 4 then .ok (.shlookFind h)
      else .error .reservedField
  | 1 => if (w.extractLsb' 26 5) = 0 then .ok (.shmapE h)
      else if (w.extractLsb' 26 5) = 1 then .ok (.shmapP h)
      else .error .reservedField
  | 2 => if (w.extractLsb' 26 5) = 0 then .ok (.shunmapE h)
      else if (w.extractLsb' 26 5) = 1 then .ok (.shunmapP h)
      else .error .reservedField
  | 3 => .ok (.kvappend h (w.getLsbD 26))
  | 4 => .ok (.kvcommit h)
  | 5 => .ok (.kvtent h)
  | 6 => .ok (.kvroll h)
  | 7 => .ok (.kvfork h)
  | 8 => if (w.extractLsb' 26 5) = 0 then .ok (.kvevictHbm h)
      else if (w.extractLsb' 26 5) = 1 then .ok (.kvevictCold h)
      else if (w.extractLsb' 26 5) = 2 then .ok (.kvevictDrop h)
      else if (w.extractLsb' 26 5) = 3 then .ok (.kvevictRel h)
      else .error .reservedField
  | 9 => if (w.extractLsb' 26 5) = 0 then .ok (.kvpin h)
      else if (w.extractLsb' 26 5) = 1 then .ok (.kvpinClr h)
      else .error .reservedField
  | 10 => .ok (.kvrefill h)
  | 11 => if (w.extractLsb' 26 5) = 0 then .ok (.phashH h)
      else if (w.extractLsb' 26 5) = 1 then .ok (.phashL h)
      else .error .reservedField
  | 12 => .ok (.sumupd h)
  | 13 => .ok (.psel h)
  | 14 => .ok (.gchain h)
  | _ => .error .illegalOpcode

/-- Group 0xF TREE of R298: the row an operation and SEL choose, with its fields cut out. -/
def candTree (op : Nat) (h : Head) (w : W64) : Except DecodeErr Instr :=
  match op with
  | 0 => .ok (.tsinit h)
  | 1 => .ok (.tsdesc h)
  | 2 => .ok (.tsexp h (w.getLsbD 26))
  | 3 => .ok (.tsbatch h)
  | 4 => .ok (.tseval h)
  | 5 => .ok (.tsback h)
  | 6 => .ok (.tsvl h (w.getLsbD 26))
  | 7 => .ok (.tsreroot h)
  | 8 => if (w.extractLsb' 26 5) = 0 then .ok (.tsbestN h)
      else if (w.extractLsb' 26 5) = 1 then .ok (.tsbestQ h)
      else .error .reservedField
  | 9 => .ok (.tsstat h (w.extractLsb' 26 3))
  | _ => .error .illegalOpcode

/-- The candidate instruction of a word: its row by group and operation (R298). -/
def candidate (w : W64) : Except DecodeErr Instr :=
  let h := headOf w
  let op := (w.extractLsb' 54 6).toNat
  match (w.extractLsb' 60 4).toNat with
  | 0 => candBlock op h w
  | 1 => candInteger op h w
  | 2 => candLogic op h w
  | 3 => candCompare op h w
  | 4 => candAddress op h w
  | 5 => candFlow op h w
  | 6 => candSystem op h w
  | 7 => candMemory op h w
  | 8 => candAtomic op h w
  | 9 => candOrder op h w
  | 10 => candCopy op h w
  | 11 => candMatrix op h w
  | 12 => candQueue op h w
  | 13 => candCounter op h w
  | 14 => candShard op h w
  | 15 => candTree op h w
  | _ => .error .illegalOpcode

/-- A sequencer word from its parts (R289). -/
def encWord (opc : BitVec 10) (h : Head) (payload : BitVec 31) : W64 :=
  opc ++ b1 h.a ++ h.pr ++ h.t0 ++ h.t1 ++ payload

/-- Format X (R291). -/
def pX (w : Bool) (sub : BitVec 3) (imm : BitVec 27) : BitVec 31 := b1 w ++ sub ++ imm

/-- Format M (R292). -/
def pM (m : MFmt) : BitVec 31 := m.ts ++ m.cls ++ m.ord ++ m.scp ++ b1 m.ow ++ m.ofs

/-- Format C (R297). -/
def pC (sel : BitVec 5) (rest : BitVec 26) : BitVec 31 := sel ++ rest

/-- An element operation word (R301). -/
def encElem (opc : BitVec 7) (f : ElemF) : BitVec 32 :=
  opc ++ f.lm ++ f.dst ++ f.sa ++ f.sb ++ f.sc ++ f.pidx ++ b1 f.pwe ++ b1 f.keep ++ f.md

/-- An instruction's encoding: a 64-bit sequencer word, a 32-bit element operation word, or nothing for an event. -/
inductive Enc where
  | none
  | seq (w : W64)
  | elem (w : BitVec 32)
  deriving DecidableEq, Repr

/-- The encoder (R289-R298, R301). -/
def encode : Instr → Enc
  | .nop h => .seq (encWord 0x000 h (pX false 0 0))
  | .get h r => .seq (encWord 0x001 h (r ++ (0 : BitVec 25)))
  | .put h r => .seq (encWord 0x002 h (r ++ (0 : BitVec 25)))
  | .const_ h imm => .seq ((0x003 : BitVec 10) ++ b1 h.a ++ h.pr ++ h.t0 ++ imm)
  | .movi h imm => .seq (encWord 0x004 h (pX false 0 imm))
  | .mov h => .seq (encWord 0x005 h (pX false 0 0))
  | .null_ h r => .seq (encWord 0x006 h (r ++ (0 : BitVec 25)))
  | .csrr h num => .seq (encWord 0x007 h (pC 0 (num.setWidth 26)))
  | .csrw h num => .seq (encWord 0x008 h (pC 0 (num.setWidth 26)))
  | .csrs h num => .seq (encWord 0x009 h (pC 0 (num.setWidth 26)))
  | .csrc h num => .seq (encWord 0x00A h (pC 0 (num.setWidth 26)))
  | .add h w => .seq (encWord 0x040 h (pX w 0 0))
  | .addi h w imm => .seq (encWord 0x041 h (pX w 0 imm))
  | .sub h w => .seq (encWord 0x042 h (pX w 0 0))
  | .mul h w => .seq (encWord 0x043 h (pX w 0 0))
  | .mulh h w => .seq (encWord 0x044 h (pX w 0 0))
  | .mulhu h w => .seq (encWord 0x045 h (pX w 0 0))
  | .div h w => .seq (encWord 0x046 h (pX w 0 0))
  | .divu h w => .seq (encWord 0x047 h (pX w 0 0))
  | .rem h w => .seq (encWord 0x048 h (pX w 0 0))
  | .remu h w => .seq (encWord 0x049 h (pX w 0 0))
  | .neg h w => .seq (encWord 0x04A h (pX w 0 0))
  | .abs_ h w => .seq (encWord 0x04B h (pX w 0 0))
  | .min h w => .seq (encWord 0x04C h (pX w 0 0))
  | .max h w => .seq (encWord 0x04D h (pX w 0 0))
  | .minu h w => .seq (encWord 0x04E h (pX w 0 0))
  | .maxu h w => .seq (encWord 0x04F h (pX w 0 0))
  | .adds h w => .seq (encWord 0x050 h (pX w 0 0))
  | .subs h w => .seq (encWord 0x051 h (pX w 0 0))
  | .and_ h w => .seq (encWord 0x080 h (pX w 0 0))
  | .andi h w imm => .seq (encWord 0x081 h (pX w 0 imm))
  | .or_ h w => .seq (encWord 0x082 h (pX w 0 0))
  | .ori h w imm => .seq (encWord 0x083 h (pX w 0 imm))
  | .xor h w => .seq (encWord 0x084 h (pX w 0 0))
  | .xori h w imm => .seq (encWord 0x085 h (pX w 0 imm))
  | .not_ h w => .seq (encWord 0x086 h (pX w 0 0))
  | .shl h w => .seq (encWord 0x087 h (pX w 0 0))
  | .shli h w k => .seq (encWord 0x088 h (pX w 0 (k.setWidth 27)))
  | .shr h w => .seq (encWord 0x089 h (pX w 0 0))
  | .shri h w k => .seq (encWord 0x08A h (pX w 0 (k.setWidth 27)))
  | .sar h w => .seq (encWord 0x08B h (pX w 0 0))
  | .sari h w k => .seq (encWord 0x08C h (pX w 0 (k.setWidth 27)))
  | .rotl h w => .seq (encWord 0x08D h (pX w 0 0))
  | .clz h w => .seq (encWord 0x08E h (pX w 0 0))
  | .ctz h w => .seq (encWord 0x08F h (pX w 0 0))
  | .popc h w => .seq (encWord 0x090 h (pX w 0 0))
  | .bext h w lo len => .seq (encWord 0x091 h (pX w 0 ((0 : BitVec 15) ++ len ++ lo)))
  | .bins h w lo len => .seq (encWord 0x092 h (pX w 0 ((0 : BitVec 15) ++ len ++ lo)))
  | .sext h w k => .seq (encWord 0x093 h (pX w 0 (k.setWidth 27)))
  | .zext h w k => .seq (encWord 0x094 h (pX w 0 (k.setWidth 27)))
  | .cmp h w cond => .seq (encWord 0x0C0 h (pX w cond 0))
  | .cmpi h w cond imm => .seq (encWord 0x0C1 h (pX w cond imm))
  | .sel h => .seq (encWord 0x0C2 h (pX false 0 0))
  | .pand h => .seq (encWord 0x0C3 h (pX false 0 0))
  | .por h => .seq (encWord 0x0C4 h (pX false 0 0))
  | .pnot h => .seq (encWord 0x0C5 h (pX false 0 0))
  | .lea h w imm => .seq (encWord 0x100 h (pX w 0 imm))
  | .tmapx h n => .seq (encWord 0x101 h (pC (n.setWidth 5) 0))
  | .widf h fld => .seq (encWord 0x102 h (pX false 0 (fld.setWidth 27)))
  | .widl h => .seq (encWord 0x103 h (pX false 0 0))
  | .alignup h w k => .seq (encWord 0x104 h (pX w 0 (k.setWidth 27)))
  | .modadd h => .seq (encWord 0x105 h (pX false 0 0))
  | .br h x ofs => .seq (encWord 0x140 h (x ++ ofs))
  | .brr h x => .seq (encWord 0x141 h (pX false x 0))
  | .call h x ofs => .seq (encWord 0x142 h (x ++ ofs))
  | .callr h x => .seq (encWord 0x143 h (pX false x 0))
  | .ret_ h x => .seq (encWord 0x144 h (pX false x 0))
  | .switch h x => .seq (encWord 0x145 h (pX false x 0))
  | .trap h imm => .seq (encWord 0x180 h (pX false 0 imm))
  | .svc h imm => .seq (encWord 0x181 h (pX false 0 imm))
  | .eret h x => .seq (encWord 0x182 h (pX false x 0))
  | .halt h x => .seq (encWord 0x183 h (pX false x 0))
  | .yield h => .seq (encWord 0x184 h (pX false 0 0))
  | .waitev h => .seq (encWord 0x185 h (pX false 0 0))
  | .cfgld h => .seq (encWord 0x186 h (pC 0 0))
  | .reconf h => .seq (encWord 0x187 h (pC 0 0))
  | .ctxsave h => .seq (encWord 0x188 h (pC 0 0))
  | .ctxrest h => .seq (encWord 0x189 h (pC 0 0))
  | .tlbinvPage h => .seq (encWord 0x18A h (pC 0 0))
  | .tlbinvAsn h => .seq (encWord 0x18A h (pC 1 0))
  | .tlbinvAll h => .seq (encWord 0x18A h (pC 2 0))
  | .ld h m => .seq (encWord 0x1C0 h (pM m))
  | .st h m => .seq (encWord 0x1C1 h (pM m))
  | .ldf h m => .seq (encWord 0x1C2 h (pM m))
  | .ldff h m => .seq (encWord 0x1C3 h (pM m))
  | .ste h m => .seq (encWord 0x1C4 h (pM m))
  | .tagset h m => .seq (encWord 0x1C5 h (pM m))
  | .tagclr h m => .seq (encWord 0x1C6 h (pM m))
  | .tagq h m => .seq (encWord 0x1C7 h (pM m))
  | .pref h m => .seq (encWord 0x1C8 h (pM m))
  | .flush h m => .seq (encWord 0x1C9 h (pM m))
  | .inval h m => .seq (encWord 0x1CA h (pM m))
  | .amo h m => .seq (encWord 0x200 h (pM m))
  | .cas h m => .seq (encWord 0x201 h (pM m))
  | .amof h m => .seq (encWord 0x202 h (pM m))
  | .red h m => .seq (encWord 0x203 h (pM m))
  | .redf h m => .seq (encWord 0x204 h (pM m))
  | .fence h mask scope => .seq (encWord 0x240 h (pC 0 (mask ++ scope ++ (0 : BitVec 7))))
  | .drain h path => .seq (encWord 0x241 h (pC 0 (path.setWidth 26)))
  | .xcopy h f => .seq (encWord 0x280 h (pC (f.mode ++ f.ch) (f.mapn ++ b1 f.bv ++ f.bnum ++ b1 f.wf ++ b1 f.sf ++ f.lenm1)))
  | .xchain h ch => .seq (encWord 0x281 h (pC (ch.setWidth 5) 0))
  | .xstat h ch => .seq (encWord 0x282 h (pC (ch.setWidth 5) 0))
  | .tmapset h n => .seq (encWord 0x283 h (pC (n.setWidth 5) 0))
  | .sbindMap h port mapn e => .seq (encWord 0x284 h (pC ((0 : BitVec 2) ++ port) (mapn ++ b1 e ++ (0 : BitVec 21))))
  | .sbindChannel h port => .seq (encWord 0x284 h (pC ((1 : BitVec 2) ++ (0 : BitVec 1) ++ port) 0))
  | .seos h ch => .seq (encWord 0x285 h (pC (ch.setWidth 5) 0))
  | .sbar h port v bnum => .seq (encWord 0x286 h (pC (port.setWidth 5) (b1 v ++ bnum ++ (0 : BitVec 19))))
  | .mma h ch flag => .seq (encWord 0x2C0 h (pC ((0 : BitVec 2) ++ b1 flag ++ ch) 0))
  | .mmas h ch flag => .seq (encWord 0x2C1 h (pC ((0 : BitVec 2) ++ b1 flag ++ ch) 0))
  | .mqk h ch => .seq (encWord 0x2C2 h (pC (ch.setWidth 5) 0))
  | .mpv h ch => .seq (encWord 0x2C3 h (pC (ch.setWidth 5) 0))
  | .mscan h ch flag => .seq (encWord 0x2C4 h (pC ((0 : BitVec 2) ++ b1 flag ++ ch) 0))
  | .mzero h ch flag => .seq (encWord 0x2C5 h (pC ((0 : BitVec 2) ++ b1 flag ++ ch) 0))
  | .mldacc h ch flag => .seq (encWord 0x2C6 h (pC ((0 : BitVec 2) ++ b1 flag ++ ch) 0))
  | .mstacc h ch => .seq (encWord 0x2C7 h (pC (ch.setWidth 5) 0))
  | .mresc h ch => .seq (encWord 0x2C8 h (pC (ch.setWidth 5) 0))
  | .mside h ch side => .seq (encWord 0x2C9 h (pC ((0 : BitVec 1) ++ side ++ ch) 0))
  | .mwait h mask => .seq (encWord 0x2CA h (pC (mask.setWidth 5) 0))
  | .chpush h flag => .seq (encWord 0x300 h (pC ((0 : BitVec 4) ++ b1 flag) 0))
  | .chpop h => .seq (encWord 0x301 h (pC 0 0))
  | .chpeek h => .seq (encWord 0x302 h (pC 0 0))
  | .cheos h => .seq (encWord 0x303 h (pC 0 0))
  | .chstat h item => .seq (encWord 0x304 h (pC (item.setWidth 5) 0))
  | .chgrow h => .seq (encWord 0x305 h (pC 0 0))
  | .enq h => .seq (encWord 0x306 h (pC 0 0))
  | .enqw h => .seq (encWord 0x307 h (pC 0 0))
  | .launch h => .seq (encWord 0x308 h (pC 0 0))
  | .signal h => .seq (encWord 0x309 h (pC 0 0))
  | .send h dir => .seq (encWord 0x30A h (pC ((BitVec.ofNat 3 0) ++ dir) 0))
  | .sendQ h dir => .seq (encWord 0x30A h (pC ((BitVec.ofNat 3 1) ++ dir) 0))
  | .recv h => .seq (encWord 0x30B h (pC 0 0))
  | .recvw h => .seq (encWord 0x30C h (pC 0 0))
  | .recvwT h => .seq (encWord 0x30C h (pC 1 0))
  | .fwdQ h => .seq (encWord 0x30D h (pC 0 0))
  | .fwdM h => .seq (encWord 0x30D h (pC 1 0))
  | .fwdEnd h => .seq (encWord 0x30D h (pC 2 0))
  | .tokinfo h item => .seq (encWord 0x30E h (pC (item.setWidth 5) 0))
  | .binit h bnum level scope => .seq (encWord 0x340 h (pC 0 (bnum ++ level ++ scope ++ (0 : BitVec 14))))
  | .barr h bnum => .seq (encWord 0x341 h (pC 0 (bnum ++ (0 : BitVec 20))))
  | .barrR h bnum => .seq (encWord 0x341 h (pC 1 (bnum ++ (0 : BitVec 20))))
  | .bwait h bnum => .seq (encWord 0x342 h (pC 0 (bnum ++ (0 : BitVec 20))))
  | .btest h bnum => .seq (encWord 0x343 h (pC 0 (bnum ++ (0 : BitVec 20))))
  | .badd h r bnum => .seq (encWord 0x344 h (pC ((0 : BitVec 4) ++ b1 r) (bnum ++ (0 : BitVec 20))))
  | .pacq h => .seq (encWord 0x345 h (pC 0 0))
  | .prel h => .seq (encWord 0x346 h (pC 0 0))
  | .prelG h port => .seq (encWord 0x346 h (pC 1 (port ++ (0 : BitVec 24))))
  | .pqry h => .seq (encWord 0x347 h (pC 0 0))
  | .pctr h item => .seq (encWord 0x348 h (pC (item.setWidth 5) 0))
  | .shlookWord h item => .seq (encWord 0x380 h (pC (item.setWidth 5) 0))
  | .shlookFind h => .seq (encWord 0x380 h (pC 4 0))
  | .shmapE h => .seq (encWord 0x381 h (pC 0 0))
  | .shmapP h => .seq (encWord 0x381 h (pC 1 0))
  | .shunmapE h => .seq (encWord 0x382 h (pC 0 0))
  | .shunmapP h => .seq (encWord 0x382 h (pC 1 0))
  | .kvappend h flag => .seq (encWord 0x383 h (pC ((0 : BitVec 4) ++ b1 flag) 0))
  | .kvcommit h => .seq (encWord 0x384 h (pC 0 0))
  | .kvtent h => .seq (encWord 0x385 h (pC 0 0))
  | .kvroll h => .seq (encWord 0x386 h (pC 0 0))
  | .kvfork h => .seq (encWord 0x387 h (pC 0 0))
  | .kvevictHbm h => .seq (encWord 0x388 h (pC 0 0))
  | .kvevictCold h => .seq (encWord 0x388 h (pC 1 0))
  | .kvevictDrop h => .seq (encWord 0x388 h (pC 2 0))
  | .kvevictRel h => .seq (encWord 0x388 h (pC 3 0))
  | .kvpin h => .seq (encWord 0x389 h (pC 0 0))
  | .kvpinClr h => .seq (encWord 0x389 h (pC 1 0))
  | .kvrefill h => .seq (encWord 0x38A h (pC 0 0))
  | .phashH h => .seq (encWord 0x38B h (pC 0 0))
  | .phashL h => .seq (encWord 0x38B h (pC 1 0))
  | .sumupd h => .seq (encWord 0x38C h (pC 0 0))
  | .psel h => .seq (encWord 0x38D h (pC 0 0))
  | .gchain h => .seq (encWord 0x38E h (pC 0 0))
  | .tsinit h => .seq (encWord 0x3C0 h (pC 0 0))
  | .tsdesc h => .seq (encWord 0x3C1 h (pC 0 0))
  | .tsexp h flag => .seq (encWord 0x3C2 h (pC ((0 : BitVec 4) ++ b1 flag) 0))
  | .tsbatch h => .seq (encWord 0x3C3 h (pC 0 0))
  | .tseval h => .seq (encWord 0x3C4 h (pC 0 0))
  | .tsback h => .seq (encWord 0x3C5 h (pC 0 0))
  | .tsvl h flag => .seq (encWord 0x3C6 h (pC ((0 : BitVec 4) ++ b1 flag) 0))
  | .tsreroot h => .seq (encWord 0x3C7 h (pC 0 0))
  | .tsbestN h => .seq (encWord 0x3C8 h (pC 0 0))
  | .tsbestQ h => .seq (encWord 0x3C8 h (pC 1 0))
  | .tsstat h item => .seq (encWord 0x3C9 h (pC (item.setWidth 5) 0))
  | .elementAdd f => .elem (encElem 0 f)
  | .elementSub f => .elem (encElem 1 f)
  | .elementMul f => .elem (encElem 2 f)
  | .elementFma f => .elem (encElem 3 f)
  | .elementFms f => .elem (encElem 4 f)
  | .elementFnma f => .elem (encElem 5 f)
  | .elementMin f => .elem (encElem 6 f)
  | .elementMax f => .elem (encElem 7 f)
  | .elementAbs f => .elem (encElem 8 f)
  | .elementNeg f => .elem (encElem 9 f)
  | .elementAdds f => .elem (encElem 10 f)
  | .elementSubs f => .elem (encElem 11 f)
  | .elementMulhi f => .elem (encElem 12 f)
  | .elementCmp f => .elem (encElem 13 f)
  | .elementSel f => .elem (encElem 14 f)
  | .elementPset f => .elem (encElem 15 f)
  | .elementPmov f => .elem (encElem 16 f)
  | .elementAnd f => .elem (encElem 17 f)
  | .elementOr f => .elem (encElem 18 f)
  | .elementXor f => .elem (encElem 19 f)
  | .elementNot f => .elem (encElem 20 f)
  | .elementShl f => .elem (encElem 21 f)
  | .elementShr f => .elem (encElem 22 f)
  | .elementSar f => .elem (encElem 23 f)
  | .elementExp2 f => .elem (encElem 24 f)
  | .elementLog2 f => .elem (encElem 25 f)
  | .elementRcp f => .elem (encElem 26 f)
  | .elementRsqrt f => .elem (encElem 27 f)
  | .elementSqrt f => .elem (encElem 28 f)
  | .elementSin f => .elem (encElem 29 f)
  | .elementCos f => .elem (encElem 30 f)
  | .elementCvt f => .elem (encElem 31 f)
  | .elementBfpk f => .elem (encElem 32 f)
  | .elementBfunpk f => .elem (encElem 33 f)
  | .elementRndi f => .elem (encElem 34 f)
  | .elementMov f => .elem (encElem 35 f)
  | .elementMovi f => .elem (encElem 36 f)
  | .elementTake f => .elem (encElem 37 f)
  | .elementPeek f => .elem (encElem 38 f)
  | .elementEmit f => .elem (encElem 39 f)
  | .elementPass f => .elem (encElem 40 f)
  | .elementTags f => .elem (encElem 41 f)
  | .elementRedc f => .elem (encElem 42 f)
  | .elementShuf f => .elem (encElem 43 f)
  | .elementBcst f => .elem (encElem 44 f)
  | .elementScan f => .elem (encElem 45 f)
  | .elementTkins f => .elem (encElem 46 f)
  | .elementTkout f => .elem (encElem 47 f)
  | .elementNop f => .elem (encElem 48 f)
  | .elementEose f => .elem (encElem 49 f)
  | .elementCtok f => .elem (encElem 50 f)
  | .elementWaitp f => .elem (encElem 51 f)
  | .elementEmitp f => .elem (encElem 52 f)
  | .hostSubmission => .none
  | .dispatcherTake => .none
  | .taskBind => .none
  | .configFetchComplete => .none
  | .taskAging => .none
  | .quantumExpiry => .none
  | .preemptAccept => .none
  | .taskSave => .none
  | .taskRebind => .none
  | .blockMap => .none
  | .blockCommit => .none
  | .safepointOverdue => .none
  | .taskRetire => .none
  | .launchEnd => .none
  | .dependentCancel => .none
  | .faultDelivery => .none
  | .faultQueueRetry => .none
  | .ctxctlResume => .none
  | .ctxctlRedirect => .none
  | .ctxctlKill => .none
  | .ctxctlPreempt => .none
  | .bankroleWrite => .none
  | .contextWindowStore => .none
  | .elementWindowStore => .none
  | .accumulatorWindowStore => .none
  | .accumulatorWindowLoad => .none
  | .channelEntryValidate => .none
  | .channelClose => .none
  | .barrierWindowStore => .none
  | .mailboxRegisterWrite => .none
  | .mread => .none
  | .mwrite => .none
  | .twritePkgcfg => .none
  | .twritePartition => .none
  | .twriteRegclass => .none
  | .twriteWorkqueue => .none
  | .twritePoisonList => .none
  | .twriteErrorCounter => .none
  | .tread => .none
  | .level => .none
  | .attest => .none
  | .fwstage => .none
  | .coldReset => .none
  | .warmReset => .none
  | .partFailure => .none
  | .linkDown => .none
  | .powerRemoval => .none
  | .powerEvaluation => .none
  | .periodBoundary => .none
  | .requestInject => .none
  | .flitInject => .none
  | .remontoireSample => .none
  | .yieldWindowEnd => .none
  | .waitevTimeout => .none
  | .storePerform => .none
  | .pageWalkComplete => .none
  | .sliceRequest => .none
  | .missEntryFree => .none
  | .correctedError => .none
  | .uncorrectableError => .none
  | .spillFetchComplete => .none
  | .packetHop => .none
  | .qtArrival => .none
  | .tokenServiceStart => .none
  | .msgArrival => .none
  | .remoteBarrierArrival => .none
  | .routeTokenLanding => .none
  | .streamInDeliver => .none
  | .streamOutToken => .none
  | .permitTokenArrival => .none
  | .matrixAccept => .none
  | .matrixComplete => .none
  | .matrixStop => .none
  | .copyRecordComplete => .none
  | .xcopyTransferComplete => .none
  | .pageMoveComplete => .none

/-- Decode a sequencer word: an unassigned OPC is ILLEGAL_OPCODE; a bit that must be 0 and is not, or a field value that
the row does not list, is RESERVED_FIELD (R299). -/
def decodeSeq (w : W64) : Except DecodeErr Instr :=
  match candidate w with
  | .error e => .error e
  | .ok i => if i.wf && encode i == .seq w then .ok i else .error .reservedField

/-- The fields of an element operation word (R301). -/
def elemFOf (w : BitVec 32) : ElemF :=
  ⟨w.extractLsb' 23 2, w.extractLsb' 19 4, w.extractLsb' 15 4, w.extractLsb' 11 4, w.extractLsb' 7 4,
   w.extractLsb' 4 3, w.getLsbD 3, w.getLsbD 2, w.extractLsb' 0 2⟩

/-- The row of an element opcode (R302). -/
def elemRow (opc : Nat) (f : ElemF) : Option Instr :=
  match opc with
  | 0 => some (.elementAdd f)
  | 1 => some (.elementSub f)
  | 2 => some (.elementMul f)
  | 3 => some (.elementFma f)
  | 4 => some (.elementFms f)
  | 5 => some (.elementFnma f)
  | 6 => some (.elementMin f)
  | 7 => some (.elementMax f)
  | 8 => some (.elementAbs f)
  | 9 => some (.elementNeg f)
  | 10 => some (.elementAdds f)
  | 11 => some (.elementSubs f)
  | 12 => some (.elementMulhi f)
  | 13 => some (.elementCmp f)
  | 14 => some (.elementSel f)
  | 15 => some (.elementPset f)
  | 16 => some (.elementPmov f)
  | 17 => some (.elementAnd f)
  | 18 => some (.elementOr f)
  | 19 => some (.elementXor f)
  | 20 => some (.elementNot f)
  | 21 => some (.elementShl f)
  | 22 => some (.elementShr f)
  | 23 => some (.elementSar f)
  | 24 => some (.elementExp2 f)
  | 25 => some (.elementLog2 f)
  | 26 => some (.elementRcp f)
  | 27 => some (.elementRsqrt f)
  | 28 => some (.elementSqrt f)
  | 29 => some (.elementSin f)
  | 30 => some (.elementCos f)
  | 31 => some (.elementCvt f)
  | 32 => some (.elementBfpk f)
  | 33 => some (.elementBfunpk f)
  | 34 => some (.elementRndi f)
  | 35 => some (.elementMov f)
  | 36 => some (.elementMovi f)
  | 37 => some (.elementTake f)
  | 38 => some (.elementPeek f)
  | 39 => some (.elementEmit f)
  | 40 => some (.elementPass f)
  | 41 => some (.elementTags f)
  | 42 => some (.elementRedc f)
  | 43 => some (.elementShuf f)
  | 44 => some (.elementBcst f)
  | 45 => some (.elementScan f)
  | 46 => some (.elementTkins f)
  | 47 => some (.elementTkout f)
  | 48 => some (.elementNop f)
  | 49 => some (.elementEose f)
  | 50 => some (.elementCtok f)
  | 51 => some (.elementWaitp f)
  | 52 => some (.elementEmitp f)
  | _ => none

/-- Decode an element operation word; none where R302 assigns no operation or a field that R345 fixes has another value
(both CONFIG_INVALID, R301, R332). -/
def decodeElem (w : BitVec 32) : Option Instr :=
  match elemRow (w.extractLsb' 25 7).toNat (elemFOf w) with
  | some i => if i.wf then some i else none
  | none => none

/-- The instruction the decoder reads from a word whose bits are numbered as the opcode table numbers them: element
operation words have 32 bits, sequencer words 64. -/
def decodeTableWord (nbits w : Nat) : Option Instr :=
  if nbits = 32 then decodeElem (BitVec.ofNat 32 w)
  else if nbits = 64 then (match decodeSeq (BitVec.ofNat 64 w) with | .ok i => some i | .error _ => none)
  else none

end Sys2Proof
end

