-- ==== Sys2Proof/Machine/Operands.lean ====
section
/-! DEFINITION. Operand forms: the slots of a block's instructions, firing and delivery (R78, R289, R290, R310), and the
operand codes of element operations (R301, R343). -/

namespace Sys2Proof.Machine

/-! ## Sequencer -/

/-- The slots an instruction reads (R310). -/
structure Needs where
  a : Bool := false
  b : Bool := false
  p : Bool := false
  o : Bool := false
  deriving DecidableEq, Repr

/-- What a fired instruction sees. -/
structure Env where
  key : Nat
  tile : Nat
  ctx : Nat
  idx : Nat
  a : W64
  b : W64
  p : Bool
  blk : Blk
  word : W64
  h : Head
  deriving DecidableEq, Repr

def State.updBlk (s : State) (key : Nat) (f : Blk → Blk) : State :=
  match s.blks.get? key with
  | none => s
  | some b => { s with blks := s.blks.put key (f b) }

def Blk.node (b : Blk) (i : Nat) : Node := b.nodes.getD i {}

def State.setStat (s : State) (key i : Nat) (st : NStat) : State :=
  s.updBlk key (fun b => { b with nodes := b.nodes.set i { b.node i with st := st } })

/-- The instruction word of an index of the block in flight. -/
def State.wordAt (s : State) (key i : Nat) : W64 :=
  match s.blks.get? key with
  | none => 0
  | some b => b.words.getD i 0

/-- The instruction and slot a target names (R290). -/
def targetOf (i : Nat) (t : BitVec 10) : Option (Nat × Nat) :=
  if t.getLsbD 9 then some ((i + (t.extractLsb' 2 7).toNat) % 128, (t.extractLsb' 0 2).toNat) else none

/-- A node after a delivery to a slot, or none when the slot already holds one (R78). -/
def Node.put (n : Node) (slot : Nat) (v : W64) : Option Node :=
  match slot with
  | 0 => if n.a.isSome then none else some { n with a := some v }
  | 1 => if n.b.isSome then none else some { n with b := some v }
  | 2 => if n.p.isSome then none else some { n with p := some (v.getLsbD 0) }
  | _ => if n.o then none else some { n with o := true }

/-- Deliver to one slot; a second delivery faults SLOT_CONFLICT (R78). -/
def State.putSlot (s : State) (key dst slot : Nat) (v : W64) : State :=
  match s.blks.get? key with
  | none => s
  | some b =>
    match (b.node dst).put slot v with
    | some n => { s with blks := s.blks.put key { b with nodes := b.nodes.set dst n } }
    | none => s.syncFault key { code := .slotConflict, extra := w64 slot, idx := some dst }

/-- Deliver to one target: values to slots a, b and p when there is a value, a token to slot o when `tok`. -/
def State.deliverT (s : State) (key i : Nat) (v : Option W64) (tok : Bool) (t : BitVec 10) : State :=
  match targetOf i t with
  | none => s
  | some (dst, slot) =>
    if slot = 3 then (if tok then s.putSlot key dst 3 0 else s)
    else match v with
      | some x => s.putSlot key dst slot x
      | none => s

/-- Deliver to both targets, the first first. -/
def State.deliver (s : State) (key i : Nat) (h : Head) (v : Option W64) (tok : Bool) : State :=
  (s.deliverT key i v tok h.t0).deliverT key i v tok h.t1

/-- A token delivered to a target of any slot (R290): in a, b and p it is a delivery whose value no rule gives, a free
value (log 3). -/
def State.tokenT (s : State) (key i : Nat) (t : BitVec 10) : State :=
  match targetOf i t with
  | none => s
  | some (dst, slot) =>
    if slot = 3 then s.putSlot key dst 3 0
    else let (x, s) := s.drawWord; s.putSlot key dst slot x

def State.tokens (s : State) (key i : Nat) (h : Head) : State := (s.tokenT key i h.t0).tokenT key i h.t1

/-- The irrevocable instructions (R313). -/
def irrevocable (w : W64) : Bool :=
  let opc := (w.extractLsb' 54 10).toNat
  let g := opc / 64
  g = 8 || 10 ≤ g || opc = 0x1C2 || opc = 0x1C4 || (0x186 ≤ opc && opc ≤ 0x18A)

/-- Instructions that deliver a token only (R384, R393). -/
def tokenOnly (w : W64) : Bool :=
  let opc := (w.extractLsb' 54 10).toNat
  opc = 0x1C1 || opc = 0x1C4 || opc = 0x1C5 || opc = 0x1C6 || opc = 0x1C8 || opc = 0x1C9 || opc = 0x1CA ||
  opc = 0x203 || opc = 0x204 || opc = 0x240

/-- Record an irrevocable instruction's result (R84, R109). -/
def State.record (s : State) (key i : Nat) (v : W64) : State :=
  if irrevocable (s.wordAt key i) then s.updCtx key (fun c => { c with irv := irvPut c.irv ⟨i, v⟩ }) else s

/-- Complete an instruction with a value: recorded, delivered to a, b and p, a token to o. -/
def State.finish (s : State) (key i : Nat) (v : W64) : State :=
  ((s.record key i v).deliver key i (headOf (s.wordAt key i)) (some v) true).setStat key i .done

/-- Complete an instruction that delivers a token only. -/
def State.finishTok (s : State) (key i : Nat) : State :=
  ((s.record key i 0).tokens key i (headOf (s.wordAt key i))).setStat key i .done

/-- Has a target in slot o. -/
def tokTarget (h : Head) : Bool :=
  (h.t0.getLsbD 9 && h.t0.extractLsb' 0 2 = 3) || (h.t1.getLsbD 9 && h.t1.extractLsb' 0 2 = 3)

/-- The index by which the end of an accepted instruction's work finds it: beyond every block when no target waits for it. -/
def Env.opIdx (e : Env) : Nat := if tokTarget e.h then e.idx else 128

/-- The first half of the R361 pattern: recorded, the value delivered; the work goes on. Without a target in slot o the
instruction counts as complete (R361: a block with such a target commits only after the operation completes). -/
def State.accept (s : State) (key i : Nat) (v : W64) : State :=
  let h := headOf (s.wordAt key i)
  ((s.record key i v).deliver key i h (some v) false).setStat key i (if tokTarget h then .recorded else .done)

/-- The second half: the token to the o targets. -/
def State.complete (s : State) (key i : Nat) : State :=
  match s.blks.get? key with
  | none => s
  | some b => if (b.node i).st = .recorded then
      (s.deliver key i (headOf (s.wordAt key i)) none true).setStat key i .done else s

/-- The work of an accepted instruction was abandoned by a fault: it never completes, and delivery does not wait for it
(R396, R379). -/
def State.abandon (s : State) (key i : Nat) : State :=
  match s.blks.get? key with
  | none => s
  | some b => if (b.node i).st = .recorded then s.setStat key i .issued else s

/-- The second half, for the strand that issued the work. -/
def State.completeTo (s : State) (w : Who) : State := if s.lives w then s.complete w.key w.idx else s
def State.abandonTo (s : State) (w : Who) : State := if s.lives w then s.abandon w.key w.idx else s

/-- Complete an instruction that delivers nothing. -/
def State.finishNone (s : State) (key i : Nat) : State := s.setStat key i .done

/-- The slots an instruction reads, the predicate of PR apart (R310 and the tables of each group). Element operations and
events read none. -/
def readsOf : Instr → Needs
  | .nop .. | .get .. | .const_ .. | .movi .. | .null_ .. | .csrr .. | .br .. | .call .. | .eret .. | .halt ..
  | .yield .. | .fence .. | .drain .. | .xstat .. | .seos .. | .sbindMap .. | .sbar .. | .mzero .. | .mwait ..
  | .tlbinvAll .. | .barr .. => {}
  | .put .. | .csrw .. | .csrs .. | .csrc .. | .addi .. | .neg .. | .abs_ .. | .andi .. | .ori .. | .xori ..
  | .not_ .. | .shli .. | .shri .. | .sari .. | .clz .. | .ctz .. | .popc .. | .bext .. | .sext .. | .zext ..
  | .mov .. | .cmpi .. | .pnot .. | .alignup .. | .widf .. | .brr .. | .callr .. | .ret_ .. | .trap .. | .svc ..
  | .waitev .. | .cfgld .. | .reconf .. | .xchain .. | .tmapset .. | .sbindChannel .. | .mma .. | .mmas ..
  | .mqk .. | .mpv .. | .mscan .. | .mldacc .. | .mstacc .. | .mresc .. | .mside .. | .cheos .. | .chstat ..
  | .tokinfo .. | .barrR .. | .bwait .. | .btest .. | .pacq .. | .prel .. | .prelG .. | .pqry .. | .shlookWord ..
  | .shunmapE .. | .shunmapP .. | .kvevictHbm .. | .kvevictCold .. | .kvevictDrop .. | .kvevictRel .. | .kvpin ..
  | .kvpinClr .. | .psel .. | .gchain .. | .tsdesc .. | .tsexp .. | .tseval .. | .tsback .. | .tsbestN ..
  | .tsbestQ .. | .tsstat .. => { a := true }
  | .signal .. | .tlbinvAsn .. => { b := true }
  | .add .. | .sub .. | .mul .. | .mulh .. | .mulhu .. | .div .. | .divu .. | .rem .. | .remu .. | .min ..
  | .max .. | .minu .. | .maxu .. | .adds .. | .subs .. | .and_ .. | .or_ .. | .xor .. | .shl .. | .shr ..
  | .sar .. | .rotl .. | .bins .. | .cmp .. | .pand .. | .por .. | .lea .. | .tmapx .. | .widl .. | .modadd ..
  | .switch .. | .ctxsave .. | .ctxrest .. | .tlbinvPage .. | .xcopy .. | .chpush .. | .chpop .. | .chpeek ..
  | .chgrow .. | .enq .. | .enqw .. | .launch .. | .send .. | .sendQ .. | .recv .. | .recvw .. | .recvwT ..
  | .fwdQ .. | .fwdM .. | .fwdEnd .. | .binit .. | .shlookFind .. | .shmapE .. | .shmapP .. | .kvappend ..
  | .kvcommit .. | .kvtent .. | .kvroll .. | .kvfork .. | .kvrefill .. | .phashH .. | .phashL .. | .sumupd ..
  | .tsinit .. | .tsbatch .. | .tsreroot .. => { a := true, b := true }
  | .ld _ m => { a := true, o := m.ow }
  | .ldf _ m => { a := true, o := m.ow }
  | .ldff _ m => { a := true, o := m.ow }
  | .tagset _ m => { a := true, o := m.ow }
  | .tagclr _ m => { a := true, o := m.ow }
  | .tagq _ m => { a := true, o := m.ow }
  | .pref _ m => { a := true, o := m.ow }
  | .flush _ m => { a := true, o := m.ow }
  | .inval _ m => { a := true, o := m.ow }
  | .st _ m => { a := true, b := true, o := m.ow }
  | .ste _ m => { a := true, b := true, o := m.ow }
  | .amo _ m => { a := true, b := true, o := m.ow }
  | .cas _ m => { a := true, b := true, o := m.ow }
  | .amof _ m => { a := true, b := true, o := m.ow }
  | .red _ m => { a := true, b := true, o := m.ow }
  | .redf _ m => { a := true, b := true, o := m.ow }
  | .sel .. => { a := true, b := true, p := true }
  | .pctr _ item => if item = 1 || item = 2 then { a := true } else {}
  | .tsvl _ r => if r then { a := true } else {}
  | .badd _ r _ => if r then { a := true, b := true } else { b := true }
  | _ => {}

/-- The predicate slot holds what keeps the instruction from firing (R78). -/
def Node.barred (n : Node) (h : Head) : Bool := (h.pr = 2 && n.p = some true) || (h.pr = 3 && n.p = some false)

/-- Slots that an instruction needs and that hold no delivery; none once its predicate bars it. -/
def Node.lacks (n : Node) (x : Instr) (h : Head) : List Nat :=
  let r := readsOf x
  if n.barred h then []
  else (if r.a && n.a.isNone then [0] else []) ++ (if r.b && n.b.isNone then [1] else []) ++
    (if (h.pr ≠ 0 || r.p) && n.p.isNone then [2] else []) ++ (if r.o && !n.o then [3] else [])

/-- Instructions of a block that may still deliver, one round: what has begun and not ended, and what lacks only slots that
such an instruction targets. -/
def Blk.aliveStep (b : Blk) (l : List Bool) : List Bool :=
  let sends := fun (j i k : Nat) => l.getD j false &&
    (let h := headOf (b.words.getD j 0)
     targetOf j h.t0 = some (i, k) || targetOf j h.t1 = some (i, k))
  (List.range b.words.length).map (fun i => l.getD i false && (match (b.node i).st with
    | .idle => (match decodeSeq (b.words.getD i 0) with
      | .ok x => ((b.node i).lacks x (headOf (b.words.getD i 0))).all (fun k => (List.range b.words.length).any (fun j => sends j i k))
      | .error _ => false)
    | _ => true))

def Blk.aliveLoop (b : Blk) : Nat → List Bool → List Bool
  | 0, l => l
  | n + 1, l => let l' := b.aliveStep l; if l' = l then l else Blk.aliveLoop b n l'

/-- Can an instruction of the block not fire unless instruction `i` completes first (R288)? So it is for one that can never
fire. -/
def Blk.behind (b : Blk) (i j : Nat) : Bool :=
  let l := (List.range b.words.length).map (fun k => match (b.node k).st with
    | .idle => k ≠ i && !(b.node k).barred (headOf (b.words.getD k 0))
    | .issued => k ≠ i
    | .recorded => true
    | _ => false)
  !(b.aliveLoop b.words.length l).getD j false

/-- What firing an instruction comes to (R78, R310). -/
inductive Firing where
  | notReady
  | nullify
  | fire (e : Env)
  deriving DecidableEq, Repr

/-- Does a context's instruction still issue: the context runs, and no fault of an earlier cycle has stopped its block, which a table
command that waits at its unit (`asked`) outlasts (R432)? -/
def Ctx.issues (c : Ctx) (now : W64) (asked : Bool) : Bool := (!c.syncStop now || asked) && (c.st = .run || c.st = .stopreq)

/-- Whether an instruction fires in this state: it has not fired, its context lets it issue, its predicate slot agrees (R78), every
slot it reads holds a delivery. -/
def State.firing (s : State) (t c i : Nat) (h : Head) (n : Needs) : Firing :=
  let key := ctxKey t c
  match s.blks.get? key with
  | none => .notReady
  | some b =>
    let nd := b.node i
    let cx := s.ctx key
    if nd.st ≠ .idle || b.nodes.length ≤ i || !cx.issues s.cycle (b.asked.contains i) then .notReady
    else if h.pr ≠ 0 && nd.p.isNone then .notReady
    else if (h.pr = 2 && nd.p = some true) || (h.pr = 3 && nd.p = some false) then .nullify
    else if (n.a && nd.a.isNone) || (n.b && nd.b.isNone) || (n.p && nd.p.isNone) || (n.o && !nd.o) then .notReady
    else .fire ⟨key, t, c, i, nd.a.getD 0, nd.b.getD 0, nd.p.getD false, b, b.words.getD i 0, h⟩

/-- The instruction has issued: its place in the block says so, and event 3 of R260 is counted. -/
def State.begun (s : State) (e : Env) : State := (s.setStat e.key e.idx .issued).count e.tile 3 (ctx := some e.ctx)

/-- Fire a sequencer instruction: nothing changes when it cannot fire; a failed predicate nullifies it; a recorded
irrevocable one is suppressed and its result replayed (R110); one that something holds back (`block`: an ordering of R152,
a translation miss) does not fire yet; otherwise its own effect. -/
def fireSeq (h : Head) (n : Needs) (body : Env → State → State) (s : State)
    (block : Env → State → Option State := fun _ _ => none) : State :=
  match s.focus with
  | .seq t c i =>
    match s.firing t c i h n with
    | .notReady => s
    | .nullify => s.setStat (ctxKey t c) i .nullified
    | .fire e =>
      match (if irrevocable e.word then irvFind (s.ctx e.key).irv i else none) with
      | some r =>
        let s := s.count t 3 (ctx := some c)
        (if tokenOnly e.word then s.tokens e.key i h else s.deliver e.key i h (some r) true).setStat e.key i .done
      | none => match block e s with
        | some s => s
        | none => body e (s.begun e)
  | _ => s

/-- An instruction that delivers a value computed from its slots. -/
def fireVal (h : Head) (n : Needs) (f : Env → W64) (s : State) : State :=
  fireSeq h n (fun e s => (s.deliver e.key e.idx h (some (f e)) true).setStat e.key e.idx .done) s

/-- Raise a unit's fault as an execution fault of the firing instruction. -/
def faultOf (e : Env) (f : Flt) (s : State) : State := s.syncFault e.key { f with idx := some e.idx }

/-- An instruction whose effect is a unit's computation; a fault of it is an execution fault of the instruction. -/
def fireM (h : Head) (n : Needs) (body : Env → M Unit) (s : State)
    (block : Env → State → Option State := fun _ _ => none) : State :=
  fireSeq h n (fun e s => match (body e) s with
    | .ok _ s => s
    | .error f s => faultOf e f s) s block

/-- A RESERVED_FIELD or PRIVILEGE fault of the firing instruction: EXTRA is its word (R101). -/
def fltWord (code : FCode) (e : Env) (addr : W64 := 0) : Flt := { code := code, addr := addr, extra := e.word }

/-! ## Elements -/

/-- An element operand: its value, its format tag when it is a register (R57), the input it consumes. -/
structure EOp where
  v : W64
  tag : Option Nat
  input : Option Nat
  deriving DecidableEq, Repr

/-- Read an operand code (R301): 0-7 E, 8-11 inputs, 12 K0, 13 K1, 14 LEADER, 15 zero. -/
def eOperand (el : Elem) (leader : W64) (code : Nat) : EOp :=
  if code < 8 then ⟨el.e.getD 0 code, some (el.etag.getD 0 code), none⟩
  else if code < 12 then
    ⟨((el.ins.getD [] (code - 8)).head?.map Tok.data).getD 0, none, some (code - 8)⟩
  else if code < 14 then ⟨el.k.getD 0 (code - 12), some (el.ktag.getD 0 (code - 12)), none⟩
  else if code = 14 then ⟨leader, none, none⟩
  else ⟨0, none, none⟩

/-- Lane width in bits of a lane mode (R301, R345). -/
def laneW (lm : Nat) : Nat := 8 * 2 ^ lm

/-- Lane `i` of a 64-bit value (R345). -/
def lane (w : Nat) (v : W64) (i : Nat) : Nat := bitsOf v.toNat (w * i) w

/-- A 64-bit value from its lanes, lane 0 first. -/
def ofLanes (w : Nat) : List Nat → Nat
  | [] => 0
  | x :: r => x % 2 ^ w + 2 ^ w * ofLanes w r

end Sys2Proof.Machine
end

