-- ==== Sys2Proof/Machine/Csr.lean ====
section
/-! DEFINITION. Special, control and counter registers (R79, R80, R92-R97, R259, R260, R315). -/

namespace Sys2Proof.Machine

/-- CTXSTAT's WAITK of a wait (R94). -/
def WaitK.num : WaitK → Nat
  | .tagged _ op _ => if op = 2 then 4 else 3
  | .push _ k _ _ => if k = 0 then 2 else if k = 1 then 11 else 12
  | .pop _ peek _ _ => if peek then 10 else 1
  | .enqw .. => 7
  | .bwait .. => 5
  | .permit _ => 6
  | .recv .. => 8
  | .recvPost .. => 8
  | .recvTok _ => 8
  | .recvGot .. => 8
  | .waitev _ => 9
  | _ => 0

def State.waitK (s : State) (key : Nat) : Nat :=
  ((s.waits.filter (fun w => w.key = key)).map (fun w => w.k.num)).find? (· ≠ 0) |>.getD 0

def CtxSt.num : CtxSt → Nat
  | .free => 0
  | .run => 1
  | .stopreq => 2
  | .stopped => 3
  | .saving => 4
  | .held => 5

/-- CTXSTAT of a context (R94). -/
def State.ctxstat (s : State) (key : Nat) : Nat :=
  let c := s.ctx key
  c.st.num + c.inh.toNat * 16 + s.waitK key * 256 + c.preq.toNat * 4096 + (c.region.getD 0) * 8192 +
  c.region.isSome.toNat * 32768

/-- REGSTAT of a region (R93). -/
def Region.stat (r : Region) : Nat :=
  let firing := r.loaded && r.owner.isSome && !r.draining && !r.stopped
  r.cfgid % 65536 + r.loaded.toNat * 2 ^ 16 + r.owner.isSome.toNat * 2 ^ 17 + firing.toNat * 2 ^ 18 +
  r.draining.toNat * 2 ^ 19 + r.stopped.toNat * 2 ^ 20

/-- The accumulator a control token names (R364). -/
def MOp.acc (o : MOp) : Nat := bitsOf o.tok.toNat 58 2

/-- MNSTAT (R93). -/
def State.mnstat (s : State) (t : Nat) : Nat :=
  let x := s.tile t
  ofBits ((List.range 4).map (fun k => x.mrun.any (fun o => o.acc = k))) +
  16 * ofBits ((List.range 4).map (fun k => decide ((s.acc (4 * t + k)).rowp ≠ 0))) + x.pbusy.toNat * 256 + x.pacc * 512

/-- LINFO (R79). -/
def Ctx.linfo (c : Ctx) : Nat :=
  c.part + c.prio * 16 + c.eprio * 256 + c.rclass * 4096 + c.rsafe.toNat * 2 ^ 16 + (c.region.getD 0) * 2 ^ 17 +
  c.region.isSome.toNat * 2 ^ 19

/-- Package number (R267). -/
def State.pkgno (s : State) : Nat := bitsOf (s.cfgWord 21) 0 8

/-- TBSTAT (R93): of the tree commands of a tile that have not completed, one has the Tourbillon busy and the others are
queued. Every command but a TSBATCH that waits for room in its channel completes in its own step (log 66). -/
def State.tbstat (s : State) (t : Nat) : Nat :=
  let n := (s.waits.filter (fun w => w.key / 16 = t && (match w.k with
    | .push _ kind _ _ => kind = 2
    | _ => false))).length
  (if n = 0 then 0 else 1) + min 15 (n - 1) * 256

/-- The value of a register as context `key` reads it (R79, R93, R259). WHERE has the privilege at which the strand runs: U while
the handler of an S strand runs, though R79 sets it at strand start and binding only (DESIGN CHOICE, log 64). -/
def State.csrRead (s : State) (key n : Nat) : Nat :=
  let c := s.ctx key
  let t := key / 16
  let x := s.tile t
  if n = 0x000 then c.fpstat.toNat
  else if 0x004 ≤ n && n ≤ 0x007 then (s.region (4 * t + (n - 4))).fpstat.toNat
  else if n = 0x010 then c.wid.toNat
  else if n = 0x011 then c.taskv.toNat
  else if n = 0x012 then c.ltag.toNat
  else if n = 0x013 then c.linfo
  else if n = 0x014 then t + key % 16 * 1024 + s.pkgno * 2 ^ 14 + c.sup.toNat * 2 ^ 22
  else if n = 0x015 then c.incar
  else if n = 0x020 then s.cycle.toNat
  else if n = 0x021 then c.spdist
  else if n = 0x030 then c.tmv
  else if n = 0x040 then c.pblen
  else if n = 0x041 then irvDone c.irv
  else if 0x100 ≤ n && n ≤ 0x10F then s.ctxstat (ctxKey t (n - 0x100))
  else if n = 0x120 then (if x.frameva = 0 then 0 else (x.frameva + w64 (key % 16 * 256)).toNat)
  else if n = 0x121 then x.frameva.toNat
  else if n = 0x122 then x.fltcnt
  else if n = 0x130 then (s.cycle - s.tilesSince).toNat % 64
  else if 0x200 ≤ n && n ≤ 0x203 then (s.region (4 * t + (n - 0x200))).stat
  else if n = 0x300 then s.mnstat t
  else if 0x400 ≤ n && n ≤ 0x403 then (s.copyCh t (n - 0x400)).head.toNat
  else if 0x408 ≤ n && n ≤ 0x40B then
    let k := s.copyCh t (n - 0x408)
    k.state + k.psn.toNat * 4
  else if n = 0x600 then x.ringctl.toNat
  else if n = 0x601 then x.ovf.length
  else if n = 0x700 then s.tbstat t
  else if n = 0x800 then x.bankrole.toNat
  else if n = 0x801 then s.kvslots t
  else if 0x900 ≤ n && n ≤ 0x907 then wrapNat 24 (x.mesh.tok.getD 0 (n - 0x900))
  else if 0x908 ≤ n && n ≤ 0x90F then wrapNat 24 (x.ring.tok.getD 0 (n - 0x908))
  else if n = 0x910 then x.rgidle
  else if n = 0x920 then wrapNat 24 x.pwrtok
  else if n = 0x921 then x.prate + x.pdepth * 65536
  else if 0xA00 ≤ n && n ≤ 0xA0F then (x.pmc.getD 0 (n - 0xA00)).toNat
  else if 0xA10 ≤ n && n ≤ 0xA1F then (x.pmsel.getD 0 (n - 0xA10)).toNat
  else if n = 0xA20 then x.pmovf.toNat
  else if 0xB00 ≤ n && n ≤ 0xB1F then x.cebank.getD 0 (n - 0xB00)
  else if n = 0xB20 then x.ceslice
  else if n = 0xB21 then s.pfxcoll.toNat
  else if n = 0xC00 then x.evstat.toNat
  else if n = 0xC01 then x.evmask.toNat
  else 0

/-- The numbers below 0x100 that exist (R79). -/
def csrLow (n : Nat) : Bool :=
  n = 0 || (4 ≤ n && n ≤ 7) || (0x10 ≤ n && n ≤ 0x15) || n = 0x20 || n = 0x21 || n = 0x30 || n = 0x40 || n = 0x41

/-- Registers that a CSRW may write (R79, R93, R259). -/
def csrRw (n : Nat) : Bool :=
  n = 0 || (4 ≤ n && n ≤ 7) || (0x110 ≤ n && n ≤ 0x11F) || n = 0x121 || n = 0x122 || n = 0x800 ||
  (0xA00 ≤ n && n ≤ 0xA20) || (0xB00 ≤ n && n ≤ 0xB20) || n = 0xC00 || n = 0xC01

/-- Registers that U may reach; RFPSTATk is U for the task that owns region k (R79, R93). -/
def csrUser (c : Ctx) (n : Nat) : Bool :=
  n = 0 || (4 ≤ n && n ≤ 7 && c.region = some (n - 4)) || (0x10 ≤ n && n < 0x100) || n = 0x120 || n = 0x300 || n = 0x700

/-- Number, privilege and read-only checks (R79, R92, R315). -/
def csrCheck (c : Ctx) (word : W64) (n : Nat) (write : Bool) : Option Flt :=
  if !(csrLow n || csrListed n) then some { code := .reservedField, addr := w64 n, extra := word }
  else if (write && !csrRw n) || (!c.sup && !csrUser c n) then some { code := .privilege, addr := w64 n, extra := word }
  else none

/-- The value a CSR instruction would give (R93, R315): 0 write, 1 set, 2 clear. -/
def csrNew (mode : Nat) (old v : W64) : W64 := if mode = 0 then v else if mode = 1 then old ||| v else old &&& ~~~v

/-- Checks on the value written (R93, R95). -/
def csrValueOk (n : Nat) (v : W64) : Bool :=
  if n = 0x121 then bitsOf v.toNat 0 12 = 0
  else if 0x110 ≤ n && n ≤ 0x11F then bitsOf v.toNat 3 3 = 0 && bitsOf v.toNat 0 3 ≤ 4
  else true

/-! ## BANKROLE (R96) -/

/-- The roles after a write: a field of 11 keeps its value. -/
def newRoles (old v : Nat) : Nat :=
  (List.range 32).foldl (fun acc b => if bitsOf v (2 * b) 2 = 3 then acc else setBits acc (2 * b) 2 (bitsOf v (2 * b) 2)) old

/-- Slots of KV pages that are occupied (R232): the tile's bitmap holds 1 for a free slot. -/
def State.slotFreeMap (s : State) (t : Nat) : Nat := ((s.tile t).slotFree).getD (2 ^ s.kvslots t - 1)

def State.bankHeld (s : State) (t roles b : Nat) : Bool :=
  let sb := scratchBanks (s.tile t).bankrole.toNat
  (bitsOf roles (2 * b) 2 = 0 && (List.range sb.length).any (fun r =>
    sb.getD r 32 = b && (List.range 8).any (fun k => !bitOf (s.slotFreeMap t) (8 * r + k)))) ||
  (List.range 64).any (fun i =>
    let w := wAt (s.chan (64 * t + i)).w 0
    bitOf w 63 && bitsOf w 28 5 = b)

/-- The bank whose change a BANKROLE write may not make, if any. -/
def State.roleFault (s : State) (t old v : Nat) : Option Nat :=
  let new := newRoles old v
  (List.range 32).find? (fun b => bitsOf old (2 * b) 2 ≠ bitsOf new (2 * b) 2 && (b ≥ 30 || s.bankHeld t old b))

/-- A BANKROLE write that passes its checks (R96, R129, R130). The slot bitmap follows the pages, whose bank keeps them. -/
def State.setBankrole (s : State) (t v : Nat) : State :=
  let old := (s.tile t).bankrole.toNat
  let new := newRoles old v
  let changed := (List.range 32).filter (fun b => bitsOf old (2 * b) 2 ≠ bitsOf new (2 * b) 2)
  let free := s.slotFreeMap t
  let oldBanks := scratchBanks old
  let newFree := ofBits ((scratchBanks new).flatMap (fun b =>
    (List.range 8).map (fun k => if bitsOf old (2 * b) 2 = 0 then bitOf free (8 * oldBanks.idxOf b + k) else true)))
  let s := s.updTile t (fun x => { x with bankrole := w64 new, slotFree := some newFree })
  let s := if (List.range 32).any (fun b => bitsOf v (2 * b) 2 = 3) then s.setEv t 0 else s
  let s := if changed.any (fun b => bitsOf old (2 * b) 2 = 1) then { s with tcache := s.tcache.filter (fun l => l.tile ≠ t) } else s
  changed.foldl (fun s b =>
    let base := winPa t (b * 0x20000)
    let s := s.undefBytes base 0x20000
    { s with full := s.full.filter (fun w => !(base / 8 ≤ w && w < base / 8 + 0x4000)) }) s

/-! ## Writes at commit -/

/-- A command to a context (R95): delivered as the next event of the machine. -/
def State.ctxCommand (s : State) (t c : Nat) (v : W64) : State :=
  let push := fun (i : Instr) => { s with agenda := Act.event i t c 0 (v &&& 0xFFFFFFFFFFFFFFC0) [] :: s.agenda }
  match bitsOf v.toNat 0 3 with
  | 1 => push .ctxctlResume
  | 2 => push .ctxctlRedirect
  | 3 => push .ctxctlKill
  | 4 => push .ctxctlPreempt
  | _ => s

/-- Write a register (R79, R93, R259): bits shown as ignored are ignored. -/
def State.csrWrite (s : State) (key n : Nat) (v : W64) : State :=
  let t := key / 16
  if n = 0x000 then s.updCtx key (fun c => { c with fpstat := v &&& fpstatMask })
  else if 0x004 ≤ n && n ≤ 0x007 then s.updRegion (4 * t + (n - 4)) (fun r => { r with fpstat := v &&& fpstatMask })
  else if 0x110 ≤ n && n ≤ 0x11F then s.ctxCommand t (n - 0x110) v
  else if n = 0x121 then s.updTile t (fun x => { x with frameva := v })
  else if n = 0x122 then s.updTile t (fun x => { x with fltcnt := v.toNat % 2 ^ 32 })
  else if n = 0x800 then s.setBankrole t v.toNat
  else if 0xA00 ≤ n && n ≤ 0xA0F then s.updTile t (fun x => { x with pmc := x.pmc.put (n - 0xA00) v })
  else if 0xA10 ≤ n && n ≤ 0xA1F then
    s.updTile t (fun x => { x with
      pmsel := if v &&& 0xFFFF = 0 then x.pmsel.del (n - 0xA10) else x.pmsel.put (n - 0xA10) (v &&& 0xFFFF) })
  else if n = 0xA20 then s.updTile t (fun x => { x with pmovf := v &&& 0xFFFF })
  else if 0xB00 ≤ n && n ≤ 0xB1F then s.updTile t (fun x => { x with cebank := x.cebank.put (n - 0xB00) (v.toNat % 65536) })
  else if n = 0xB20 then s.updTile t (fun x => { x with ceslice := v.toNat % 65536 })
  else if n = 0xC00 then s.updTile t (fun x => { x with evstat := v &&& 0x3F })
  else if n = 0xC01 then s.updTile t (fun x => { x with evmask := v &&& 0x3F })
  else s

/-- Put actions after the commits of the present cycle, which its counts follow; at once where no cycle is under way. -/
def afterCommits (l agenda : List Act) : List Act :=
  if agenda.contains (.tick .count) then
    agenda.takeWhile (· ≠ .tick .count) ++ l ++ agenda.dropWhile (· ≠ .tick .count)
  else l ++ agenda

/-- The CSR writes of a committing block, in ascending index (R80, R315); its commands to contexts follow the cycle's commits,
in the same order (R95). -/
def State.csrCommit (s : State) (key : Nat) (l : List (Nat × Nat × W64 × Nat)) : State :=
  let t := l.foldl (fun s w => s.csrWrite key w.2.1 (csrNew w.2.2.2 (w64 (s.csrRead key w.2.1)) w.2.2.1))
    ({ s with agenda := [] } : State)
  { t with agenda := afterCommits t.agenda.reverse s.agenda }

/-- Accesses to a bank that are in flight (R96): committed stores not yet performed, tagged accesses that wait, and copies that
wait for a full word. Every other access is one step of the model. -/
def State.bankBusy (s : State) (t b : Nat) : Bool :=
  let inBank := fun (pa : Nat) => winPa t (b * 0x20000) ≤ pa && pa < winPa t (b * 0x20000 + 0x20000)
  s.ctxs.any (fun p => p.2.sq.any (fun e => inBank e.pa)) ||
  s.waits.any (fun w => match w.k with
    | .tagged pa _ _ => inBank pa
    | _ => false) ||
  s.tiles.any (fun p => p.2.copy.any (fun c => (c.2.at_.hold.map inBank).getD false))

/-- Does a BANKROLE write wait (R96)? -/
def State.rolesBusy (s : State) (t v : Nat) : Bool :=
  let old := (s.tile t).bankrole.toNat
  let new := newRoles old v
  (List.range 32).any (fun b => bitsOf old (2 * b) 2 ≠ bitsOf new (2 * b) 2 && s.bankBusy t b)

/-- Does a block's commit wait for accesses to a bank whose role it changes (R96)? -/
def State.rolesWait (s : State) (key : Nat) (l : List (Nat × Nat × W64 × Nat)) : Bool :=
  let l := l.filter (fun w => w.2.1 = 0x800)
  !l.isEmpty && s.rolesBusy (key / 16) (l.foldl (fun old w =>
    newRoles old (csrNew w.2.2.2 (w64 old) w.2.2.1).toNat) (s.tile (key / 16)).bankrole.toNat)

/-- The occupancy check of a block's BANKROLE writes, made before any CSR write is applied (R315). -/
def State.rolesCheck (s : State) (key : Nat) (l : List (Nat × Nat × W64 × Nat)) : Option Nat :=
  (l.foldl (fun (st : Nat × Option Nat) w =>
    if w.2.1 = 0x800 && st.2.isNone then
      let v := (csrNew w.2.2.2 (w64 st.1) w.2.2.1).toNat
      match s.roleFault (key / 16) st.1 v with
      | some b => (st.1, some b)
      | none => (newRoles st.1 v, none)
    else st) ((s.tile (key / 16)).bankrole.toNat, none)).2

/-! ## The instructions -/

/-- What a CSRR that issues now reads: the value with which its cycle began, before the cycle's commits and events (R80), as the
cycle's plan set it down. -/
def State.csrValue (s : State) (key n : Nat) : W64 := (s.csrNow.get? (4096 * key + n)).getD (w64 (s.csrRead key n))

/-- CSRR (R315): the value before any write of its own block. IRVINFO counts the recordings of the block itself, which are
events and no writes of registers (DESIGN CHOICE, log 59); TMV and PBINFO read as the earlier blocks left them. -/
def execCsrr (h : Head) (num : BitVec 12) (s : State) : Out :=
  run (fireSeq h {} (fun e s =>
    match csrCheck (s.ctx e.key) e.word num.toNat false with
    | some f => faultOf e f s
    | none => s.finish e.key e.idx
        (if num = 0x030 then w64 e.blk.tmv else if num = 0x040 then w64 e.blk.pbinfo else s.csrValue e.key num.toNat))) s

/-- The shared form of CSRW, CSRS and CSRC (R315): checked when it fires, buffered for commit. -/
def csrWriteInstr (h : Head) (num : BitVec 12) (mode : Nat) (s : State) : State :=
  fireSeq h { a := true } (fun e s =>
    let n := num.toNat
    match csrCheck (s.ctx e.key) e.word n true with
    | some f => faultOf e f s
    | none =>
      if csrValueOk n (csrNew mode (w64 (s.csrRead e.key n)) e.a) then
        (s.updBlk e.key (fun b => { b with csrw := b.csrw ++ [(e.idx, n, e.a, mode)] })).finishNone e.key e.idx
      else faultOf e { code := .reservedField, addr := w64 n, extra := e.word } s) s

def execCsrw (h : Head) (num : BitVec 12) (s : State) : Out := run (csrWriteInstr h num 0) s
def execCsrs (h : Head) (num : BitVec 12) (s : State) : Out := run (csrWriteInstr h num 1) s
def execCsrc (h : Head) (num : BitVec 12) (s : State) : Out := run (csrWriteInstr h num 2) s

/-- BANKROLE_WRITE (R96): a write of BANKROLE from the control window takes effect once no access to a bank that it changes is
in flight; a forbidden one changes nothing. -/
def execBankroleWrite (s : State) : Out :=
  run (fun s => match s.focus with
    | .ev t _ _ v _ =>
      (match s.roleFault t (s.tile t).bankrole.toNat v.toNat with
       | some _ => s
       | none => if s.rolesBusy t v.toNat then s else s.setBankrole t v.toNat)
    | _ => s) s

end Sys2Proof.Machine
end

