-- ==== Sys2Proof/Machine/Translate.lean ====
section
/-! DEFINITION. Translation (R141-R148): the walk of the three levels, the TLB and the die translation cache, and the checks
that a leaf makes (R143, R144, R139, R122). -/

namespace Sys2Proof.Machine

/-- For whom an access is made (R239, R255, R260): for the context whose instruction executes, for a context and class that
an engine keeps, or for the device. -/
inductive Owner where
  | focus
  | dev
  | work (ctx cls : Nat)
  deriving DecidableEq, Repr

/-- What an access asks of a page: permissions, its kind in EXTRA (0 read, 1 write, 2 execute, 3 engine), privilege, the
classes it accepts, those it accepts at S only, and the class reported as required (R101, R144); and whose access it is. -/
structure Use where
  rd : Bool := false
  wr : Bool := false
  ex : Bool := false
  acc : Nat := 0
  sup : Bool := false
  cls : List Nat
  scls : List Nat := []
  want : Nat := 0
  own : Owner := .focus
  unit : Bool := false            -- made by the memory-side unit, whatever the page's MS (R136)
  deriving DecidableEq, Repr

/-- An access that an engine makes for the strand whose work it does. -/
def Use.by (u : Use) (w : Who) : Use := { u with own := .work (w.key % 16) w.cls }

/-- The class under which an access of a context is metered (R239, R255). -/
def State.classOf (s : State) (key : Nat) : Nat :=
  let c := s.ctx key
  let w := s.partW c.part 0
  if bitOf w (49 + c.rclass) then c.rclass else bitsOf w 57 3

/-- The context and the class of an access; none for device traffic, which no class bucket meters (R255). -/
def State.owner (s : State) (u : Use) : Option (Nat × Nat) :=
  match u.own with
  | .work c cls => some (c, cls)
  | .dev => none
  | .focus => match s.focus with
    | .seq t c _ => some (c, s.classOf (ctxKey t c))
    | _ => none

/-- A translated access. -/
structure Tr where
  pa : Nat
  cls : Nat
  ms : Bool
  pte : W64
  deriving DecidableEq, Repr

/-- Offset bits of a leaf at a level (R141). -/
def offBits : Nat → Nat
  | 0 => 42
  | 1 => 29
  | _ => 16

def trFault (va : Nat) (level acc : Nat) : Flt := { code := .translation, addr := w64 va, extra := w64 (level + 4 * acc) }
def permFault (va : Nat) (acc : Nat) : Flt := { code := .permission, addr := w64 va, extra := w64 (4 * acc) }
def classFault (va found want : Nat) : Flt := { code := .regionClass, addr := w64 va, extra := w64 (found + 16 * want) }
/-- DATA_POISON names the line by its physical address (R101, R137 say only "line address": DESIGN CHOICE, log 71). -/
def poisonFault (pa : Nat) : Flt := { code := .dataPoison, addr := w64 (pa / 128 * 128) }

/-- A canonical virtual address (R141). -/
def canonical (va : Nat) : Bool := bitsOf va 54 10 = 0 || bitsOf va 54 10 = 1023

/-- The address space of a partition while its entry is valid (R142). -/
def State.asnOf (s : State) (part : Nat) : Option Nat :=
  if bitOf (s.partW part 0) 63 then some (bitsOf (s.partW part 0) 32 16) else none

/-- What a walk ends in. -/
inductive WalkR where
  | leaf (level ptePa : Nat) (pte : W64)
  | bad (level : Nat)
  | poison (pa : Nat)
  deriving DecidableEq, Repr

/-- An address of the slow tier's range, whether or not an expander answers there (R121). -/
def slowRange (pa : Nat) : Bool := 0x1000000000000 ≤ pa && pa < 0x2000000000000

/-- The reserved-bit and class checks of a valid entry (R143). -/
def leafOk (level e : Nat) : Bool :=
  bitsOf e 8 3 ≠ 7 && !(bitsOf e 8 3 = 4 && bitOf e 2) &&
  (if bitOf e 52 then bitsOf e 8 3 = 4 && slowRange (bitsOf e 16 36 * 2 ^ 16) else bitsOf e 53 4 = 0) &&
  bitsOf e 16 (offBits level - 16) = 0

/-- The walk from a table of a level on (R141, R143). -/
def walkFrom (s : State) (va : Nat) : Nat → Nat → Nat → WalkR
  | 0, level, _ => .bad (level - 1)
  | n + 1, level, tbl =>
    let pa := tbl + 8 * bitsOf va (offBits level) 13
    if s.paKind tbl ≠ .hbm then .bad 3
    else if s.poisoned pa then .poison pa
    else
      let e := s.rd pa 8
      if !bitOf e 0 || bitsOf e 57 7 ≠ 0 || bitsOf e 12 4 ≠ 0 then .bad level
      else if bitOf e 11 then (if leafOk level e then .leaf level pa (w64 e) else .bad level)
      else if level = 2 || bitsOf e 1 10 ≠ 0 || bitsOf e 52 5 ≠ 0 then .bad level
      else walkFrom s va n (level + 1) (bitsOf e 16 36 * 2 ^ 16)

/-- The die of a tile (R9). -/
def dieOf (t : Nat) : Nat := t / 256

/-- Does an entry translate an address of an address space? -/
def TlbEnt.covers (e : TlbEnt) (asn va : Nat) : Bool := e.asn = asn && e.vpn = va % 2 ^ 55 / 2 ^ offBits e.level

/-- Do two translations take a place in the same set of a cache of `sets` sets? The set is the page number modulo their
count (DESIGN CHOICE, log 69). -/
def tlbSet (sets : Nat) (x y : TlbEnt) : Bool := x.vpn % sets = y.vpn % sets

/-- Put an entry first, the least recently used of its set out (R145). -/
def tlbPut (sets ways : Nat) (l : List TlbEnt) (e : TlbEnt) : List TlbEnt :=
  let rest := l.filter (fun x => !(x.asn = e.asn && x.level = e.level && x.vpn = e.vpn))
  e :: ((rest.filter (tlbSet sets e)).take (ways - 1) ++ rest.filter (fun x => !tlbSet sets e x))

/-- The TLB has 64 sets of 8 ways; the die's cache, whose ways the manual does not give, is one set (R145, log 69). -/
def State.tlbFill (s : State) (t : Nat) (e : TlbEnt) : State :=
  s.updTile t (fun x => { x with tlb := tlbPut 64 8 x.tlb e })
def State.dieFill (s : State) (d : Nat) (e : TlbEnt) : State :=
  { s with dieTlb := s.dieTlb.put d (tlbPut 1 16384 (s.dieTlb.getD [] d) e) }

/-- Look an address up in the tile's TLB, then in the die's cache; a write needs D = 1 (R145, R146). A TLB miss that the
die's cache answers is counted here (R260). -/
def State.tlbLook (s : State) (t asn va : Nat) (write : Bool) (cx : Option Nat) : Option TlbEnt × State :=
  let ok := fun (e : TlbEnt) => e.covers asn va && (!write || e.pte.getLsbD 6)
  match (s.tile t).tlb.find? ok with
  | some e => (some e, s.tlbFill t e)
  | none => match (s.dieTlb.getD [] (dieOf t)).find? ok with
    | some e => (some e, ((s.dieFill (dieOf t) e).tlbFill t e).count t 11 (ctx := cx))
    | none => (none, s)

/-! ## Requests to home slices (R133-R135) -/

/-- Traffic of the device, and a response, that goes out of a tile's mesh port: no class bucket meters it, its flits meet the
power bucket (R255, R257). -/
def State.device (s : State) (t flits : Nat) : State :=
  s.updTile t (fun x => { x with mesh := { x.mesh with inj := x.mesh.inj ++ [⟨9, 0, flits, 0⟩] } })

/-- The tile beside a slice (R133). -/
def sliceTile (k : Nat) : Nat := k / 160 * 256 + k % 160

/-- A request reaches a line's home slice, and its response leaves through the tile beside it (R133-R135, R257; log 45); a
miss of a tile's request is counted (R260). -/
def State.reqSlice (s : State) (t : Option Nat) (pa : Nat) (w : Bool) (alloc : Bool := true) (cx : Option Nat := none) : State :=
  let k := homeSlice pa
  let sl := s.slice k
  let s := (s.setSlice k { sl with arr := sl.arr ++ [⟨pa / 128, w, alloc⟩] }).device (sliceTile k) 1
  match t with
  | some t => if (sl.lines.get? (pa / 128)).isNone then s.count t 12 (ctx := cx) else s
  | none => s

/-- The table entries that a walk reads, in order (R145). -/
def walkReads (s : State) (va : Nat) : Nat → Nat → Nat → List Nat
  | 0, _, _ => []
  | n + 1, level, tbl =>
    let pa := tbl + 8 * bitsOf va (offBits level) 13
    if s.paKind tbl ≠ .hbm then []
    else
      let e := s.rd pa 8
      pa :: (if s.poisoned pa || !bitOf e 0 || bitOf e 11 || level = 2 then []
        else walkReads s va n (level + 1) (bitsOf e 16 36 * 2 ^ 16))

/-- A walk made whole: its table entries read through their home slices, the entry found, A and D set at its home, the TLB
and the die's cache filled (R145, R146). -/
def State.walkNow (s : State) (t part va : Nat) (write : Bool) (acc : Nat) : Except Flt TlbEnt × State :=
  match s.asnOf part with
  | none => (.error (trFault va 0 acc), s)
  | some asn =>
    let root := bitsOf (s.partW part 3) 16 36 * 2 ^ 16
    let r := walkFrom s va 3 0 root
    let s := (walkReads s va 3 0 root).foldl (fun (s : State) pa => (s.device t 1).reqSlice none pa false) s
    match r with
    | .bad level => (.error (trFault va level acc), s)
    | .poison pa => (.error (poisonFault pa), s)
    | .leaf level pa pte =>
      let pte' := pte ||| (if write then 0x60 else 0x20)
      let s := if pte' = pte then s else ((s.device t 1).reqSlice none pa true).wr pa 8 pte'.toNat
      let e : TlbEnt := ⟨asn, level, va % 2 ^ 55 / 2 ^ offBits level, pte'⟩
      (.ok e, (s.dieFill (dieOf t) e).tlbFill t e)

/-- The checks of a leaf, in the order of R382: a hole, the region class, permission (R122, R139, R144). A class that the
slow tier does not admit is reported with 3 as the class required; an access that the slow tier refuses is an access 1 or
3 (R139). -/
def State.leafCheck (s : State) (e : TlbEnt) (va : Nat) (u : Use) : Except Flt Tr :=
  let p := e.pte.toNat
  let pa := bitsOf p 16 36 * 2 ^ 16 + va % 2 ^ offBits e.level
  let cls := bitsOf p 8 3
  let kind := s.paKind pa
  let tagged := u.cls == [5]
  let slow := match kind with
    | .slow _ => true
    | _ => false
  if kind = .hole then .error (trFault va 3 u.acc)
  else if !(u.cls.contains cls || u.scls.contains cls) then
    .error (classFault va cls (if slow && cls ≠ 3 && cls ≠ 4 then 3 else u.want))
  else if slow && !u.wr && !tagged && cls ≠ 3 && cls ≠ 4 then .error (classFault va cls 3)
  else if (!u.cls.contains cls && !u.sup) || (!u.sup && !bitOf p 4) || (u.rd && !bitOf p 1) || (u.wr && !bitOf p 2) ||
      (u.ex && !bitOf p 3) || (slow && (u.wr || tagged)) then
    .error (permFault va (if slow && tagged then max 1 u.acc else u.acc))
  else .ok ⟨pa, cls, bitOf p 7 || u.unit, e.pte⟩

/-- What a translation answers: a translated access, a fault, or a miss that a walk must settle. -/
inductive TrR where
  | ok (tr : Tr)
  | fault (f : Flt)
  | miss
  deriving DecidableEq, Repr

/-- Translate an access of a strand (R141-R145): a hit answers at once; a miss waits for a walk. -/
def State.translate (s : State) (t part : Nat) (va : W64) (u : Use) : TrR × State :=
  let v := va.toNat
  match s.asnOf part with
  | none => (.fault (trFault v 0 u.acc), s)
  | some asn =>
    if !canonical v then (.fault (trFault v 0 u.acc), s)
    else match s.tlbLook t asn v u.wr ((s.owner u).map Prod.fst) with
      | (some e, s) => (match s.leafCheck e v u with
        | .ok tr => (.ok tr, s)
        | .error f => (.fault f, s))
      | (none, s) => (.miss, s)

/-- Enter a miss among the walks, `before` of its die standing before the list: misses of one page of one address space on
one die share a walk that holds one of the die's 32 walkers; the others queue behind, 256 at most, and one that finds no
place is tried again (R145). -/
def addWalk (x : Walk) (req : Nat × Nat × Nat × Nat) : Nat → List Walk → List Walk
  | before, [] => if before < 288 then [{ x with reqs := [req] }] else []
  | before, w :: r =>
    if dieOf w.tile ≠ dieOf x.tile then w :: addWalk x req before r
    else if w.reqs.contains req then w :: r
    else if before < 32 && w.asn = x.asn && w.page = x.page then { w with reqs := w.reqs ++ [req] } :: r
    else w :: addWalk x req (before + 1) r

/-- Does walk `n` hold a walker (R145)? -/
def State.walking (s : State) (n : Nat) : Bool :=
  match s.walks[n]? with
  | some w => decide (((s.walks.take n).filter (fun x => dieOf x.tile = dieOf w.tile)).length < 32)
  | none => false

def State.missWalk (s : State) (key idx part : Nat) (va : W64) (write : Bool) (acc : Nat) : State :=
  match s.asnOf part with
  | none => s
  | some asn =>
    let x : Walk := ⟨part, asn, va.toNat % 2 ^ 55 / 2 ^ 16, write, key / 16, va, []⟩
    let s := s.count (key / 16) 11 (ctx := some (key % 16))
    { s with walks := addWalk x (key, idx, acc, va.toNat) 0 s.walks }

/-- PAGE_WALK_COMPLETE (R145, R146): walk `n` ends; a fault goes to each requester, a leaf lets each go on. -/
def pageWalkComplete (n : Nat) (s : State) : State :=
  match s.walks[n]? with
  | none => s
  | some w =>
    if !s.walking n then s
    else
    let s := { s with walks := s.walks.eraseIdx n }
    match s.walkNow w.tile w.part w.va.toNat w.write 0 with
    | (.ok _, s) => s
    | (.error f, s) => w.reqs.foldl (fun s r =>
        s.syncFault r.1 { f with
          addr := if f.code = .dataPoison then f.addr else w64 r.2.2.2
          extra := if f.code = .dataPoison then f.extra else f.extra + w64 (4 * r.2.2.1)
          idx := some r.2.1 }) s

/-- End the walks of a die, oldest first, until one of its 32 walkers is free (R145). -/
def State.freeWalker (s : State) (d : Nat) : Nat → State
  | 0 => s
  | k + 1 =>
    let mine := (List.range s.walks.length).filter (fun n => (s.walks[n]?.map (fun w => decide (dieOf w.tile = d))).getD false)
    if mine.length < 32 then s
    else match mine.head? with
      | some n => (pageWalkComplete n s).freeWalker d k
      | none => s

/-- What the miss of an engine, a unit or a pipe waits for: the walk in flight of its page, whose result it takes, and a walker,
for which it queues behind the die's other misses (R145). It waits within its own step (log 87). -/
def State.awaitWalk (s : State) (t asn va : Nat) : State :=
  match (List.range s.walks.length).find? (fun n => (s.walks[n]?.map (fun w =>
      dieOf w.tile = dieOf t && w.asn = asn && w.page = va % 2 ^ 55 / 2 ^ 16)).getD false) with
  | some n => (List.range (n + 1)).foldl (fun (s : State) _ => pageWalkComplete 0 s) s
  | none => s.freeWalker (dieOf t) s.walks.length

/-- Translate for an engine, a unit or a pipe, walking at once on a miss (R142, R148). -/
def State.translateNow (s : State) (t part : Nat) (va : W64) (u : Use) : Except Flt Tr × State :=
  match s.translate t part va u with
  | (.ok tr, s) => (.ok tr, s)
  | (.fault f, s) => (.error f, s)
  | (.miss, s) =>
    let s := s.count t 11 (ctx := (s.owner u).map Prod.fst)
    let s := s.awaitWalk t ((s.asnOf part).getD 0) va.toNat
    match s.walkNow t part va.toNat u.wr u.acc with
    | (.error f, s) => (.error f, s)
    | (.ok e, s) => (s.leafCheck e va.toNat u, s)

/-- Page of one 64 KiB granule: an engine access is translated for each page it touches. -/
def mTrans (t part : Nat) (va : W64) (u : Use) : M Tr := fun s =>
  match s.translateNow t part va u with
  | (.ok tr, s) => .ok tr s
  | (.error f, s) => .error f s

def execPageWalkComplete (s : State) : Out :=
  run (fun s => match s.focus with
    | .ev x _ _ _ _ => pageWalkComplete x s
    | _ => s) s

/-- Drop the translations that `drop` names from every TLB and translation cache; the walks in flight end and their
requesters ask again (R336). -/
def State.tlbDrop (s : State) (drop : TlbEnt → Bool) : State :=
  { s with
    tiles := s.tiles.map (fun p => (p.1, { p.2 with tlb := p.2.tlb.filter (fun e => !drop e) }))
    dieTlb := s.dieTlb.map (fun p => (p.1, p.2.filter (fun e => !drop e)))
    walks := [] }

end Sys2Proof.Machine
end

