-- ==== Sys2Proof/Machine/Access.lean ====
section
/-! DEFINITION. What an access meets at a physical address: bank roles (R127), tile windows (R77, R87, R91, R92, R125), the
tile cache (R129), home slices (R133, R134), and the accounting of metered requests (R255, R257). -/

namespace Sys2Proof.Machine

/-! ## Metering -/

/-- A metered request joins its port's queue (R255): mesh or ring, its cost in units and in flits. -/
def State.meter (s : State) (t : Nat) (ring : Bool) (cls bytes flits : Nat) (copy : Nat := 0) : State :=
  let r : Req := ⟨cls, max 1 ((bytes + 63) / 64), flits, copy⟩
  s.updTile t (fun x => if ring then { x with ring := { x.ring with q := x.ring.q ++ [r] } }
    else { x with mesh := { x.mesh with q := x.mesh.q ++ [r] } })

/-- A slow-tier read joins the package's queue, in requests of at most 4,096 bytes (R255, R258). -/
def State.meterSlow (s : State) (cls bytes : Nat) (copy : Nat := 0) : State :=
  { s with slowq := s.slowq ++ (List.range (max 1 ((bytes + 4095) / 4096))).map (fun i =>
      (⟨cls, max 1 ((min 4096 (bytes - 4096 * i) + 63) / 64), 0, copy⟩ : Req)) }

/-- Flits that carry `b` bytes out of a tile (R257). -/
def flitsOf (b : Nat) : Nat := max 1 ((b + 127) / 128)

/-- A request of `n` bytes at a tile's mesh port, metered under its owner's class in parts of at most 4,096 bytes, or, of the
device, unmetered (R255, R257); `wr`: the bytes are carried out. -/
def State.meshReq (s : State) (t : Nat) (own : Option (Nat × Nat)) (n : Nat) (wr : Bool) (copy : Nat := 0) : State :=
  match own with
  | some (_, cls) =>
    (List.range (max 1 ((n + 4095) / 4096))).foldl (fun (s : State) i =>
      let m := min 4096 (n - 4096 * i)
      s.meter t false cls m (if wr then flitsOf m else 1) copy) s
  | none => s.device t (if wr then flitsOf n else 1)

/-- A local store of another tile: it is reached through that tile's mesh port (R131). -/
def State.farBank (s : State) (t pa : Nat) : Bool :=
  match s.paKind pa with
  | .window t' off => t' ≠ t && off < 0x400000
  | _ => false

/-! ## Homes (R133, R134, R136, R149) -/

/-- Is the home of an HBM4E line of a page its slice? A slice passes accesses of class KVPAGE through (R134, R149). -/
def sliceHomed (tr : Tr) : Bool := !tr.ms && tr.cls ≠ 2

/-- What an access of `n` bytes sends: its request, the requests at the home slices, the response of another tile
(R126, R134, R255, R257). -/
def State.traffic (s : State) (t : Nat) (own : Option (Nat × Nat)) (tr : Tr) (n : Nat) (wr : Bool) : State :=
  match s.paKind tr.pa with
  | .window t' _ => if t' = t then s else (s.meshReq t own n wr).device t' (if wr then 1 else flitsOf n)
  | .hbm =>
    let s := s.meshReq t own n wr
    if sliceHomed tr then
      (linesOf tr.pa n).foldl (fun (s : State) l => s.reqSlice (some t) l wr (tr.cls ≠ 3) (own.map Prod.fst)) s
    else s
  | .slow _ => s.meshReq t own n wr
  | .hole => s

/-- How a page's line is reached: 1 through its slice (MS = 0), 2 past it (MS = 1); 0 is a line not reached yet. -/
def wayOf (tr : Tr) : Nat := if bitOf tr.pte.toNat 7 then 2 else 1

/-- Note how a line is reached; one that is reached both ways (3) holds undefined values, drawn anew. -/
def State.wayLine (s : State) (way l : Nat) : State :=
  let old := s.ways.getD 0 (l / 128)
  if old = way then s
  else if old = 0 then { s with ways := s.ways.put (l / 128) way }
  else
    ({ s with
      ways := s.ways.put (l / 128) 3
      tcache := s.tcache.filter (fun c => c.line ≠ l / 128) } : State).undefBytes l 128

/-- Lines of a physical page that is reached with MS = 1 and with MS = 0 hold undefined values: each access to one meets a
value drawn anew (R136). An INVAL ends the record of a line, as a change of mapping asks (R388). -/
def State.wayTouch (s : State) (tr : Tr) (n : Nat) : State :=
  if s.paKind tr.pa = .hbm then (linesOf tr.pa n).foldl (fun (s : State) l => s.wayLine (wayOf tr) l) s else s

/-! ## Local-store banks (R127) -/

/-- Kinds of access to a bank. -/
inductive BankUse where
  | plain | tagged | engine
  deriving DecidableEq, Repr

/-- The bank role check of an access at a physical address. -/
def State.bankCheck (s : State) (va pa : Nat) (u : BankUse) : Except Flt Unit :=
  match s.paKind pa with
  | .window t off =>
    if off < 0x400000 then
      let b := off / 0x20000
      let role := s.role t b
      match u with
      | .tagged => if role = 0 then .ok () else .error { code := .tagSpace, addr := w64 va }
      | _ => if role = 1 || b ≥ 30 then .error { code := .bankRole, addr := w64 va, extra := w64 b } else .ok ()
    else if u = .tagged then .error (permFault va 1) else .ok ()
  | _ => if u = .tagged then .error { code := .tagSpace, addr := w64 va } else .ok ()

/-! ## Tile windows -/

/-- The 8-byte word at an aligned offset at or above 0x80_0000 of a tile's window (R77, R87, R91, R92, R98, R175, R250). A
register with a per-context view reads 0. Element words of a resident region, and accumulator state of a region that no
task owns, are undefined (R87, R88): a load draws those bits (`winUndef`). -/
def State.winWord (s : State) (t off : Nat) : W64 :=
  if off < 0x820000 then
    let k := (off - 0x800000) / 0x8000
    let i := off % 0x8000 / 4
    let a := (s.acc (4 * t + k)).c
    w64 ((a.getD 0 i).toNat + (a.getD 0 (i + 1)).toNat * 2 ^ 32)
  else if off < 0x821800 then
    let o := off - 0x820000
    let a := s.acc (4 * t + o / 0x600)
    let i := o % 0x200 / 4
    let m := if o % 0x600 / 0x200 = 0 then (a.mx, (0xFF800000 : BitVec 32)) else if o % 0x600 / 0x200 = 1 then (a.sm, 0)
      else (a.al, 0x3F800000)
    w64 ((m.1.getD m.2 i).toNat + (m.1.getD m.2 (i + 1)).toNat * 2 ^ 32)
  else if off < 0x826000 then
    let i := (off - 0x822000) / 2
    let p := (s.tile t).pb
    w64 ((p.getD 0 i).toNat + (p.getD 0 (i + 1)).toNat * 2 ^ 16 + (p.getD 0 (i + 2)).toNat * 2 ^ 32 +
      (p.getD 0 (i + 3)).toNat * 2 ^ 48)
  else if off < 0x826008 then
    w64 ((s.acc (4 * t)).rowp + (s.acc (4 * t + 1)).rowp * 2 ^ 8 + (s.acc (4 * t + 2)).rowp * 2 ^ 16 +
      (s.acc (4 * t + 3)).rowp * 2 ^ 24)
  else if off < 0x826010 then
    w64 ((s.acc (4 * t)).tag + (s.acc (4 * t + 1)).tag * 16 + (s.acc (4 * t + 2)).tag * 256 +
      (s.acc (4 * t + 3)).tag * 4096 + (s.tile t).pbusy.toNat * 2 ^ 16 + (s.tile t).pacc * 2 ^ 17)
  else if off < 0xB00000 then
    let el := s.elem (64 * t + (off - 0xA00000) / 128)
    let o := off % 128
    if o < 0x40 then el.e.getD 0 (o / 8)
    else if o < 0x60 then el.k.getD 0 ((o - 0x40) / 8)
    else if o = 0x60 then
      w64 (((List.range 8).map (fun n => el.etag.getD 0 n * 16 ^ n)).sum +
        ((List.range 4).map (fun n => el.ktag.getD 0 n * 16 ^ (n + 8))).sum)
    else if o = 0x68 then w64 el.p.toNat
    else 0
  else if off < 0xC00000 then
    let n := off % 512 / 8
    if n = 0 then 0 else (s.ctx (ctxKey t ((off - 0xB00000) / 512))).g.getD 0 n
  else if off < 0xC0C000 then
    let n := csrOfOff off
    if n = 0x120 || (0x110 ≤ n && n ≤ 0x11F) then 0 else w64 (s.csrRead (16 * t) n)
  else if off < 0xC0D000 then s.rd64 (winPa t off)
  else if off < 0xE01000 then
    let o := off - 0xE00000
    ((s.chan (64 * t + o / 64)).w).getD (o % 64 / 8) 0
  else if off < 0xE01C00 then
    let o := off - 0xE01000
    (s.bar (48 * t + o / 64)).getD (o % 64 / 8) 0
  else 0

/-- Offsets whose state only S reaches: control pages, and the channel and barrier window (R92, R176, R250). -/
def supWindow (off : Nat) : Bool := off ≥ 0xC00000

/-- May this context reach this window offset (R92, R98)? A U strand loads its own frame through FRAMEVA. -/
def State.winPerm (s : State) (key va pa off : Nat) (load : Bool) : Bool :=
  (s.ctx key).sup || !supWindow off ||
  (load && framePa key ≤ pa && pa < framePa key + 256 && (s.tile (key / 16)).frameva ≠ 0 &&
    va = ((s.tile (key / 16)).frameva + w64 (pa % 4096)).toNat)

/-- `n` bytes of a window from an offset, as a number. -/
def State.winRead (s : State) (t off n : Nat) : Nat := bitsOf (s.winWord t (off / 8 * 8)).toNat (8 * (off % 8)) (8 * n)

/-- Window bytes that are plain storage: the local store and the fault frames. -/
def storageOff (off : Nat) : Bool := off < 0x400000 || (0xC0C000 ≤ off && off < 0xC0D000)

/-- Accepted operations of an accumulator that have neither completed nor stopped (R91, R376, R377). -/
def State.accOps (s : State) (t k : Nat) : List Nat := ((s.tile t).mrun.filter (fun o => o.acc = k && !o.sent)).map MOp.id

/-- Is one of the operations still to complete or to stop? -/
def State.opsBusy (s : State) (t : Nat) (ops : List Nat) : Bool := (s.tile t).mrun.any (fun o => ops.contains o.id && !o.sent)

/-- The accumulators whose state `n` bytes from a window offset belong to: contents, side registers, ROWP, tags (R91). -/
def accsOfOff (off n : Nat) : List Nat :=
  if 0x800000 ≤ off && off < 0x820000 then [(off - 0x800000) / 0x8000]
  else if 0x820000 ≤ off && off < 0x821800 then [(off - 0x820000) / 0x600]
  else (List.range 4).filter (fun k =>
    (off ≤ 0x826000 + k && 0x826000 + k < off + n) || (off ≤ 0x826008 + k / 2 && 0x826008 + k / 2 < off + n))

/-- Accepted operations that name an accumulator of the bytes (R91). -/
def State.winOps (s : State) (t off n : Nat) : List Nat := (accsOfOff off n).flatMap (s.accOps t)

/-- Is an element of the window in a resident region (R87)? -/
def State.elemResident (s : State) (t off : Nat) : Bool :=
  0xA00000 ≤ off && off < 0xA02000 && (s.region (4 * t + (off - 0xA00000) / 2048)).owner.isSome

/-- The bits of the word at an aligned window offset that are undefined (R87, R88). -/
def State.winUndef (s : State) (t off : Nat) : Nat :=
  let free := fun (k : Nat) => (s.region (4 * t + k)).owner.isNone
  let mask := fun (w : Nat → Nat) (n : Nat) => (((List.range 4).filter free).map (fun k => (2 ^ n - 1) * 2 ^ w k)).sum
  if s.elemResident t off then 2 ^ 64 - 1
  else if 0x800000 ≤ off && off < 0x821800 then (if (accsOfOff off 8).any free then 2 ^ 64 - 1 else 0)
  else if off = 0x826000 then mask (8 * ·) 8
  else if off = 0x826008 then mask (4 * ·) 4
  else 0

/-- `n` bytes of a window from an offset as a load returns them, undefined bits drawn. -/
def State.winLoad (s : State) (t off n : Nat) : Nat × State :=
  let m := s.winUndef t (off / 8 * 8)
  if m = 0 then (s.winRead t off n, s)
  else
    let (x, s) := s.drawWord
    (bitsOf ((x &&& w64 m) ||| (s.winWord t (off / 8 * 8) &&& ~~~(w64 m))).toNat (8 * (off % 8)) (8 * n), s)

/-- The window bytes from an offset as a read of `n` bytes, word by word, returns them. -/
def State.winLoads (s : State) (t off : Nat) : Nat → List Byte × State
  | 0 => ([], s)
  | k + 1 =>
    let (v, s) := s.winLoad t off 8
    let (r, s) := State.winLoads s t (off + 8) k
    (leBytes 8 v ++ r, s)

/-- The bytes at a physical address as an engine or a command reads them: a register window by its words, undefined bits drawn
(R87, R88). -/
def State.peek (s : State) (pa n : Nat) : List Byte × State :=
  match s.paKind pa with
  | .window t off =>
    if storageOff off then (s.bytes pa n, s)
    else
      let (bs, s) := s.winLoads t (off / 8 * 8) ((off % 8 + n + 7) / 8)
      ((bs.drop (off % 8)).take n, s)
  | _ => (s.bytes pa n, s)

/-- The accepted operations that a read of `n` bytes at an address waits for (R91). -/
def State.accBusyAt (s : State) (pa n : Nat) : List Nat :=
  match s.paKind pa with
  | .window t off => if storageOff off then []
      else (List.range ((off % 8 + n + 7) / 8)).flatMap (fun i => s.winOps t (off / 8 * 8 + 8 * i) 8)
  | _ => []

/-- The first byte of `n` at an address where nothing is (R121, R122, R125). -/
def State.holeAt (s : State) (pa n : Nat) : Option Nat :=
  match s.paKind pa with
  | .hbm => none
  | .window _ off => if off < 0x400000 then none else (List.range n).find? (fun i => decide (s.paKind (pa + i) = .hole))
  | .slow slot => if s.paKind (pa + (n - 1)) = .hole then some (s.expCap.getD 0 slot - pa % 2 ^ 44) else none
  | .hole => some 0

/-- A window store of `n` bytes that must not be made: the target is resident or busy (R77, R87, R91). -/
def State.winBusy (s : State) (t off n : Nat) : Bool :=
  s.elemResident t off ||
  (0xB00000 ≤ off && off < 0xB02000 && decide ((s.ctx (ctxKey t ((off - 0xB00000) / 512))).st ≠ .free)) ||
  !(s.winOps t off n).isEmpty

/-! ## The tile cache (R129) -/

/-- Lines the tile cache can hold: 1,024 for each cache bank. -/
def State.cacheCap (s : State) (t : Nat) : Nat :=
  1024 * ((List.range 32).filter (fun b => s.role t b = 1)).length

def State.cacheFind (s : State) (t line : Nat) : Option CLine := s.tcache.find? (fun l => l.tile = t && l.line = line)

/-- Bring a line in, the tile's oldest line out when it is full. -/
def State.cacheFill (s : State) (t line : Nat) (weight : Bool) : State :=
  let mine := s.tcache.filter (fun l => l.tile = t)
  let rest := s.tcache.filter (fun l => l.tile ≠ t)
  { s with tcache := rest ++ (⟨t, line, s.bytes (line * 128) 128, weight⟩ :: mine).take (s.cacheCap t) }

/-- An acquire wider than TILE drops the tile's NORMAL lines (R158). -/
def State.cacheAcquire (s : State) (t scope : Nat) : State :=
  if scope ≤ 1 then s else { s with tcache := s.tcache.filter (fun l => l.tile ≠ t || l.weight) }

/-- The smallest scope that contains two tiles of the package (R8, R160). -/
def tileScope (t u : Nat) : Nat := if t = u then 1 else if dieOf t = dieOf u then 2 else 3

/-- The store of a tile updates the copy its own cache holds (R129). -/
def State.cacheStore (s : State) (t pa n : Nat) : State :=
  { s with tcache := s.tcache.map (fun (l : CLine) =>
      if l.tile = t && (linesOf pa n).contains (l.line * 128) then
        { l with bytes := (List.range 128).map (fun i =>
            if pa ≤ l.line * 128 + i && l.line * 128 + i < pa + n then s.byte (l.line * 128 + i) else l.bytes.getD i 0) }
      else l) }

/-- Drop a tile's copies of the lines of a range. -/
def State.cacheDrop (s : State) (t pa n : Nat) : State :=
  { s with tcache := s.tcache.filter (fun l => l.tile ≠ t || !(linesOf pa n).contains (l.line * 128)) }

/-- May a page's lines stand in a tile cache (R129)? -/
def cacheable (tr : Tr) : Bool := !tr.ms && (tr.cls = 0 || tr.cls = 4)

/-- The tile's copy of a line, for a page whose lines may stand there. -/
def State.cached (s : State) (t : Nat) (tr : Tr) : Option CLine :=
  if cacheable tr && s.cacheCap t > 0 then s.cacheFind t (tr.pa / 128) else none

/-- Bytes of a plain load from HBM4E: from the tile cache when it holds the line, else from the home, a whole line when it
fills the cache (R129, R151). -/
def State.loadHbm (s : State) (key : Nat) (tr : Tr) (n : Nat) : Nat × State :=
  let t := key / 16
  let s := s.wayTouch tr n
  let own := some (key % 16, s.classOf key)
  match s.cached t tr with
  | some l => (leNat ((l.bytes.drop (tr.pa % 128)).take n), s)
  | none =>
    if cacheable tr && s.cacheCap t > 0 then
      (s.rd tr.pa n, (s.traffic t own { tr with pa := tr.pa / 128 * 128 } 128 false).cacheFill t (tr.pa / 128) (tr.cls = 4))
    else (s.rd tr.pa n, s.traffic t own tr n false)

/-! ## Slow tier (R139, R140) -/

/-- Does a line of the slow tier answer with an uncorrectable error? -/
def State.slowBad (s : State) (pa : Nat) : Bool := s.ueLines.contains (pa / 128)

/-- Read the part of one slow-tier line: the mirror is tried once, as a read of its own; a read that fails enters its page in
the poison list (R140, R258). -/
def State.slowLine (s : State) (t cls : Nat) (pte : W64) (pa n : Nat) : Option (List Byte) × State :=
  if !s.slowBad pa then (some (s.bytes pa n), s)
  else
    let mpa := pa % 2 ^ 44 + bitsOf pte.toNat 53 4 * 2 ^ 44 + pa / 2 ^ 48 * 2 ^ 48
    let mir := bitOf pte.toNat 52
    let mok := mir && (match s.paKind mpa with
      | .slow _ => !s.slowBad mpa && !s.poisonPages.contains (mpa / 65536)
      | _ => false)
    let s := if mir then (s.setEv t 4).meterSlow cls n else s
    if mok then (some (s.bytes mpa n), s)
    else
      let page := pa / 65536
      (none, if s.poisonPages.length < 256 && !s.poisonPages.contains page then
        { s with poisonPages := s.poisonPages ++ [page] } else s)

/-- The lines of a slow-tier read, one after the other, up to the first that fails. -/
def State.slowLines (s : State) (t cls : Nat) (pte : W64) (pa n : Nat) : List Nat → Option (List Byte) × State
  | [] => (some [], s)
  | l :: r =>
    let lo := max pa l
    match s.slowLine t cls pte lo (min (pa + n) (l + 128) - lo) with
    | (none, s) => (none, s)
    | (some bs, s) => match s.slowLines t cls pte pa n r with
      | (some bs', s) => (some (bs ++ bs'), s)
      | (none, s) => (none, s)

/-- Read `n` bytes of one slow-tier page, metered whole; a listed page does not reach the expander (R139, R140, R258). -/
def State.slowRead (s : State) (t cls : Nat) (tr : Tr) (n : Nat) (copy : Nat := 0) : Option (List Byte) × State :=
  if s.poisonPages.contains (tr.pa / 65536) then (none, s)
  else (s.meterSlow cls n copy).slowLines t cls tr.pte tr.pa n (linesOf tr.pa n)

/-- Does a request of a copy of tile `t` still wait at a port, or for a slow-tier read? -/
def State.copyOpen (s : State) (t copy : Nat) : Bool :=
  let x := s.tile t
  (x.mesh.q ++ x.mesh.inj ++ x.ring.q ++ x.ring.inj ++ s.slowq).any (fun r => r.copy = copy)

/-! ## The work-queue table through pages of class QUEUE (R194) -/

/-- Fields of a work-queue entry: valid; segments beyond the first. -/
def qV (q : List W64) : Bool := bitOf (wAt q 0) 63
def qScap (q : List W64) : Nat := bitsOf (wAt q 0) 36 7

/-- What a load of a QUEUE page reads from the dispatcher's table: entry PA[18:6], as its words stand. A page that is part of a
valid queue's record storage reads that storage. The manual names no place of the table (DESIGN CHOICE, log 83). -/
def State.queueRead (s : State) (tr : Tr) (n : Nat) : Option Nat :=
  if tr.cls ≠ 6 || s.wq.any (fun p => qV p.2 && bitsOf (wAt p.2 1) 16 36 * 65536 ≤ tr.pa &&
      tr.pa < bitsOf (wAt p.2 1) 16 36 * 65536 + 65536 * (1 + qScap p.2)) then none
  else some (bitsOf ((s.queueE (tr.pa / 64 % 8192)).getD (tr.pa % 64 / 8) 0).toNat (8 * (tr.pa % 8)) (8 * n))

/-! ## Stores at the home -/

/-- A DATA_POISON of a strand's access at the home (R137). -/
def State.poisonAt (s : State) (pa n : Nat) : Option Flt :=
  ((linesOf pa n).find? (fun l => s.poisoned l)).map poisonFault

/-- Entries of a table of `cnt` entries of `size` bytes that a range overlaps; a base of 0 gives no table. -/
def overEntries (base size cnt pa n : Nat) : List Nat :=
  if base = 0 || n = 0 || pa + n ≤ base || base + size * cnt ≤ pa then []
  else
    let lo := (max pa base - base) / size
    let hi := (min (pa + n) (base + size * cnt) - 1 - base) / size
    (List.range (hi + 1 - lo)).map (fun i => base + size * (lo + i))

/-- The entries of the sequence table and of the prefix hash table that a range overlaps: place, size, and whether the entry is
valid (R218, R229). -/
def State.tableOver (s : State) (pa n : Nat) : List (Nat × Nat × Bool) :=
  (overEntries (s.cfgWord 0) 128 65536 pa n).map (fun a => (a, 128, bitOf (s.rd a 8) 63)) ++
  (overEntries (s.cfgWord 1) 32 1048576 pa n).map (fun a => (a, 32, bitOf (s.rd (a + 19) 1) 0))

/-- A write that software makes: a table entry that was valid before it holds undefined values from then on (R217). -/
def State.tableWrite (s : State) (pa n : Nat) (f : State → State) : State :=
  ((s.tableOver pa n).filter (fun x => x.2.2)).foldl (fun (s : State) x => s.undefBytes x.1 x.2.1) (f s)

/-- Plain bytes written at the home; the tile cache of the writer follows, the slice line turns dirty (R129, R134). A valid table
entry that they fall into is undefined from then on (R217). -/
def State.storeBytes (s : State) (t pa n v : Nat) : State := (s.tableWrite pa n (fun s => s.wr pa n v)).cacheStore t pa n

/-- Set or clear the full bit of a word (R130). -/
def State.storeFull (s : State) (pa : Nat) (v : Bool) : State := s.setFull pa v

end Sys2Proof.Machine
end

