-- ==== Sys2Proof/Machine/Route.lean ====
section
/-! DEFINITION. Ring routes: the rings and their stops, split rows, the packets of a message and their injection (R8-R10, R28,
R29, R206, R207, R239, R267, R270, R274). -/

namespace Sys2Proof.Machine

/-! ## The virtual-unit map (R247) -/

/-- SKIP of a row of a die: the physical column that is not used. -/
def State.skip (s : State) (d r : Nat) : Nat := (s.fuse.getD d []).getD r 16

/-- The physical tile that a logical tile is: die, row, physical column. Every row keeps its logical tiles in physical column
order, so a stop of the row ring is a logical column and the skipped tile has none. -/
def State.phys (s : State) (t : Nat) : Nat × Nat × Nat :=
  let d := t / 256
  let r := t / 16 % 16
  let c := t % 16
  (d, r, if c < s.skip d r then c else c + 1)

/-! ## Rings (R8-R10, R29, R274) -/

/-- Does a partition hold a half row (R239)? Half `h` of the row is bit 2 x (10 x die + row) + h of MEMB. -/
def State.halfOf (s : State) (p row h : Nat) : Bool :=
  bitOf (s.partW p 0) 63 && bitOf (s.partW p 1 + s.partW p 2 * 2 ^ 64) (2 * row + h)

/-- Does a tile's row run split: some partition claims exactly one half of it (R28, R239)? -/
def State.rowSplit (s : State) (t : Nat) : Bool :=
  let row := 10 * (t / 256) + t / 16 % 16
  (List.range 8).any (fun p => s.halfOf p row 0 != s.halfOf p row 1)

/-- May ring traffic of tile `t` for tile `u` not take the ring: `t` stands in a split half row and `u` outside it (R29)? -/
def State.offRing (s : State) (t u : Nat) : Bool :=
  (s.rowSplit t || s.rowSplit u) && !(t / 16 = u / 16 && t % 16 / 8 = u % 16 / 8)

/-- A tile's row ring and its stop on it: ring number 2 x (10 x die + row) + half. -/
def State.rowStop (s : State) (t : Nat) : Nat × Nat :=
  let r := 2 * (10 * (t / 256) + t / 16 % 16)
  if s.rowSplit t then (r + t % 16 / 8, t % 8) else (r, t % 16)

/-- The tile at a stop of a row ring; none at the gateway. -/
def State.stopTile (s : State) (no stop : Nat) : Option Nat :=
  let row := no / 2 / 10 * 256 + no / 2 % 10 * 16
  if s.rowSplit row then some (row + 8 * (no % 2) + stop) else if stop < 16 then some (row + stop) else none

/-- Stops of a ring: kind 0 row (17, or 8 in split mode), 1 die (row gateways 0-9, die gateway 10), 2 package (dies 0-3,
pod gateway 4). -/
def State.ringSize (s : State) (ring no : Nat) : Nat :=
  match ring with
  | 0 => if s.rowSplit (no / 2 / 10 * 256 + no / 2 % 10 * 16) then 8 else 17
  | 1 => 11
  | _ => 5

/-- The stop of a ring toward a destination; none where the ring does not lead to it (R29). -/
def State.ringTarget (s : State) (ring no dpkg dtile : Nat) : Option Nat :=
  let here := dpkg = s.pkgno
  let split := here && s.rowSplit dtile
  match ring with
  | 0 => if here && (s.rowStop dtile).1 = no then some (s.rowStop dtile).2
      else if s.ringSize 0 no = 17 && !split then some 16 else none
  | 1 => if here && dtile / 256 = no then (if split then none else some (dtile / 16 % 16)) else some 10
  | _ => if here then some (dtile / 256) else some 4

/-- Does the way from `a` to `b` on the package ring cross a failed link (R275)? -/
def State.wayFails (s : State) (a b : Nat) (ccw : Bool) : Bool :=
  s.failedLinks.any (fun l => if ccw then (a + 4 - l) % 5 < (a + 5 - b) % 5 else (l + 5 - a) % 5 < (b + 5 - a) % 5)

/-- The direction of a packet on a ring (R206): QT clockwise, a named direction, else fewer hops and clockwise on a tie; the
package ring turns traffic away from a failed link. True: counter-clockwise. -/
def State.ringWay (s : State) (m : Msg) (ring no a b : Nat) : Bool :=
  let n := s.ringSize ring no
  let w := if m.cls = 0 then false else if m.way = 1 then false else if m.way = 2 then true
    else decide ((a + n - b) % n < (b + n - a) % n)
  if ring = 2 && s.wayFails a b w && !s.wayFails a b (!w) then !w else w

/-- The packets of a message of `len` bytes, each as its flits less one: a packet has 16 flits of 128 bytes at most, its header
the first 16 bytes (R206, R207). -/
def packetsOf (len : Nat) : List Nat :=
  (List.range (max 1 ((len + 2031) / 2032))).map (fun i => (min 2032 (len - 2032 * i) + 16 + 127) / 128 - 1)

def State.setMsg (s : State) (id : Nat) (m : Msg) : State := { s with msgs := s.msgs.put id m }

/-- Put a message on its tile's ring: every packet at its source. -/
def State.inject (s : State) (m : Msg) : State :=
  let (id, s) := s.fresh
  let fl := packetsOf m.data.length
  let s := s.setMsg id { m with npkt := fl.length }
  let (no, stop) := s.rowStop m.stile
  let ccw := s.ringWay m 0 no stop ((s.ringTarget 0 no m.dpkg m.dtile).getD stop)
  let ps := (List.range fl.length).map (fun i =>
    (⟨id, i, fl.getD i 0, false, ccw, 0, no, stop, .source, true, s.now, []⟩ : Pkt))
  { s with pkts := s.pkts ++ ps }

/-- Put a message for another package on its way: on its tile's ring, or, from a split row, over the mesh to its die's stop of
the package ring (R29). -/
def State.injectFar (s : State) (m : Msg) : State :=
  if s.rowSplit m.stile then
    let (id, s) := s.fresh
    let fl := packetsOf m.data.length
    let s := s.setMsg id { m with npkt := fl.length }
    let stop := m.stile / 256
    let ccw := s.ringWay m 2 0 stop 4
    let ps := (List.range fl.length).map (fun i =>
      (⟨id, i, fl.getD i 0, false, ccw, 2, 0, stop, .source, true, s.now, []⟩ : Pkt))
    { s with pkts := s.pkts ++ ps }
  else s.inject m

/-! ## Traffic of channels and copies, and notices (R29, R206) -/

/-- Metered on the ring port: `n` bytes in requests of at most 4,096, each with the flits of the packets that end in it. -/
def State.meterRing (s : State) (t cls n : Nat) (copy : Nat := 0) : State :=
  let fl := (packetsOf n).zipIdx
  (List.range (max 1 ((n + 4095) / 4096))).foldl (fun (s : State) i =>
    s.meter t true cls (min 4096 (n - 4096 * i))
      ((fl.filter (fun p => (min (2032 * (p.2 + 1)) n - 1) / 4096 = i)).map (fun p => p.1 + 1)).sum copy) s

/-- A message of class CHN (2) or CTL (3) from tile `t` to tile `u`: `tag` is the channel's entry or the kind of notice
(R207). What it carries has its effect at once; its packets take the ring, and none is sent where the row is split (log 45). -/
def State.sendSeg (s : State) (who : Who) (t u cls tag n : Nat) : State :=
  if t = u || s.offRing t u then s
  else s.inject { cls := cls, dpkg := s.pkgno, dtile := u, spkg := s.pkgno, stile := t, who := who, tag := tag, aux := 0,
                  data := List.replicate n 0, sig := false, npkt := 0 }

/-! ## Notices between packages (R206, R207) -/

/-- The fault code of a number. -/
def FCode.ofNum (n : Nat) : Option FCode :=
  [FCode.illegalOpcode, .reservedField, .translation, .permission, .misaligned, .dataPoison, .regionClass, .tagSpace, .bankRole,
    .overflowFull, .barrierOverrun, .linkLost, .partFailed].find? (fun c => c.num = n)

/-- A fault as a notice carries it. The form of notices is the model's own (log 77). -/
def faultBytes (f : Flt) : List Byte := leBytes 1 f.code.num ++ leBytes 1 f.src ++ leBytes 8 f.addr.toNat ++ leBytes 8 f.extra.toNat

def faultOfBytes (l : List Byte) : Option Flt :=
  (FCode.ofNum (leNat (l.take 1))).map (fun c =>
    { code := c, src := leNat ((l.drop 1).take 1), addr := w64 (leNat ((l.drop 2).take 8)), extra := w64 (leNat ((l.drop 10).take 8)) })

/-- A notice from tile `t` to another package's tile about the work of `w`: a message of class CTL with its kind in TAG. -/
def State.notice (s : State) (t dpkg dtile : Nat) (w : Who) (kind : Nat) (d : List Byte) : State :=
  s.injectFar { cls := 3, dpkg := dpkg, dtile := dtile, spkg := s.pkgno, stile := t, who := w, tag := kind, aux := 0,
                data := d, sig := false, npkt := 0 }

/-- Kinds of notice: a fault of the work, its end, the answer to a copy's data, a signal (log 77). -/
def noticeFault : Nat := 1
def noticeDone : Nat := 2
def noticeCopy : Nat := 3
def noticeSignal : Nat := 4

end Sys2Proof.Machine
end

