-- ==== Sys2Proof/Machine/SeqAlu.lean ====
section
/-! DEFINITION. Groups BLOCK, INTEGER, LOGIC, COMPARE and ADDRESS (R311-R323). -/

namespace Sys2Proof.Machine

/-- Width of an operation (R311). -/
def opN (w : Bool) : Nat := if w then 32 else 64

/-- What a result of width n delivers: a 32-bit one sign-extended (R311). -/
def opRes (w : Bool) (r : Nat) : W64 := if w then (BitVec.ofNat 32 r).signExtend 64 else w64 r

/-- The unsigned and the signed reading of an operand (R311, R316). -/
def opU (w : Bool) (x : W64) : Nat := x.toNat % 2 ^ opN w
def opS (w : Bool) (x : W64) : Int := sext (opN w) x.toNat

/-- An integer result modulo 2^n. -/
def opZ (w : Bool) (z : Int) : W64 := opRes w (wrapNat (opN w) z)

/-- The signed 27-bit immediate (R291). -/
def immX (imm : BitVec 27) : W64 := imm.signExtend 64

def nA : Needs := { a := true }
def nAB : Needs := { a := true, b := true }

/-! ## BLOCK (R314) -/

def execNop (h : Head) (s : State) : Out := run (fireVal h {} (fun _ => 0)) s

/-- GET (R76): the committed value; G0 delivers 0. -/
def execGet (h : Head) (r : BitVec 6) (s : State) : Out :=
  run (fireSeq h {} (fun e s => s.finish e.key e.idx (if r = 0 then 0 else (s.ctx e.key).g.getD 0 r.toNat))) s

/-- PUT and NULL record the write of a register; that it is a second one is found at the commit (R102, R288). -/
def recordWrite (e : Env) (r : BitVec 6) (v : Option W64) (s : State) : State :=
  (s.updBlk e.key (fun b => { b with writes := b.writes ++ [(e.idx, r.toNat, v)] })).finishNone e.key e.idx

def execPut (h : Head) (r : BitVec 6) (s : State) : Out := run (fireSeq h nA (fun e s => recordWrite e r (some e.a) s)) s
def execNull (h : Head) (r : BitVec 6) (s : State) : Out := run (fireSeq h {} (fun e s => recordWrite e r none s)) s
def execConst (h : Head) (imm : BitVec 41) (s : State) : Out := run (fireVal h {} (fun _ => imm.signExtend 64)) s
def execMovi (h : Head) (imm : BitVec 27) (s : State) : Out := run (fireVal h {} (fun _ => immX imm)) s
def execMov (h : Head) (s : State) : Out := run (fireVal h nA Env.a) s

/-! ## INTEGER (R316, R317) -/

def intAdd (w : Bool) (a b : W64) : W64 := opRes w (opU w a + opU w b)
def intSub (w : Bool) (a b : W64) : W64 := opZ w ((opU w a : Int) - opU w b)

/-- Division (R317): quotient and remainder. -/
def intDiv (w sgn : Bool) (a b : W64) : W64 × W64 :=
  if opU w b = 0 then (opRes w (2 ^ opN w - 1), opRes w (opU w a))
  else if sgn then
    (opZ w ((opS w a).tdiv (opS w b)), opZ w ((opS w a).tmod (opS w b)))
  else (opRes w (opU w a / opU w b), opRes w (opU w a % opU w b))

/-- Saturation to n-bit two's complement (R316). -/
def satS (w : Bool) (z : Int) : W64 :=
  opZ w (max (-((2 ^ (opN w - 1) : Nat) : Int)) (min (((2 ^ (opN w - 1) : Nat) : Int) - 1) z))

def execAdd (h : Head) (w : Bool) (s : State) : Out := run (fireVal h nAB (fun e => intAdd w e.a e.b)) s
def execAddi (h : Head) (w : Bool) (imm : BitVec 27) (s : State) : Out := run (fireVal h nA (fun e => intAdd w e.a (immX imm))) s
def execSub (h : Head) (w : Bool) (s : State) : Out := run (fireVal h nAB (fun e => intSub w e.a e.b)) s
def execMul (h : Head) (w : Bool) (s : State) : Out := run (fireVal h nAB (fun e => opRes w (opU w e.a * opU w e.b))) s
def execMulh (h : Head) (w : Bool) (s : State) : Out :=
  run (fireVal h nAB (fun e => opZ w ((opS w e.a * opS w e.b) / ((2 ^ opN w : Nat) : Int)))) s
def execMulhu (h : Head) (w : Bool) (s : State) : Out :=
  run (fireVal h nAB (fun e => opRes w (opU w e.a * opU w e.b / 2 ^ opN w))) s
def execDiv (h : Head) (w : Bool) (s : State) : Out := run (fireVal h nAB (fun e => (intDiv w true e.a e.b).1)) s
def execDivu (h : Head) (w : Bool) (s : State) : Out := run (fireVal h nAB (fun e => (intDiv w false e.a e.b).1)) s
def execRem (h : Head) (w : Bool) (s : State) : Out := run (fireVal h nAB (fun e => (intDiv w true e.a e.b).2)) s
def execRemu (h : Head) (w : Bool) (s : State) : Out := run (fireVal h nAB (fun e => (intDiv w false e.a e.b).2)) s
def execNeg (h : Head) (w : Bool) (s : State) : Out := run (fireVal h nA (fun e => intSub w 0 e.a)) s
def execAbs (h : Head) (w : Bool) (s : State) : Out :=
  run (fireVal h nA (fun e => if opS w e.a ≥ 0 then opRes w (opU w e.a) else intSub w 0 e.a)) s
def execMin (h : Head) (w : Bool) (s : State) : Out := run (fireVal h nAB (fun e => opZ w (min (opS w e.a) (opS w e.b)))) s
def execMax (h : Head) (w : Bool) (s : State) : Out := run (fireVal h nAB (fun e => opZ w (max (opS w e.a) (opS w e.b)))) s
def execMinu (h : Head) (w : Bool) (s : State) : Out := run (fireVal h nAB (fun e => opRes w (min (opU w e.a) (opU w e.b)))) s
def execMaxu (h : Head) (w : Bool) (s : State) : Out := run (fireVal h nAB (fun e => opRes w (max (opU w e.a) (opU w e.b)))) s
def execAdds (h : Head) (w : Bool) (s : State) : Out := run (fireVal h nAB (fun e => satS w (opS w e.a + opS w e.b))) s
def execSubs (h : Head) (w : Bool) (s : State) : Out := run (fireVal h nAB (fun e => satS w (opS w e.a - opS w e.b))) s

/-! ## LOGIC (R318, R319) -/

/-- A bitwise result under its width. -/
def opBits (w : Bool) (x : W64) : W64 := opRes w (opU w x)

/-- Leading and trailing zeros and ones of an n-bit number (R318). -/
def clzN (n x : Nat) : Nat := if x = 0 then n else n - 1 - Nat.log2 x
def ctzLoop : Nat → Nat → Nat → Nat
  | 0, _, k => k
  | m + 1, x, k => if x % 2 = 1 then k else ctzLoop m (x / 2) (k + 1)
def popcN (n x : Nat) : Nat := ((List.range n).filter (fun i => bitOf x i)).length

def shlW (w : Bool) (a : W64) (k : Nat) : W64 := opRes w (opU w a * 2 ^ k)
def shrW (w : Bool) (a : W64) (k : Nat) : W64 := opRes w (opU w a / 2 ^ k)
def sarW (w : Bool) (a : W64) (k : Nat) : W64 := opZ w (opS w a / ((2 ^ k : Nat) : Int))
def rotlW (w : Bool) (a : W64) (k : Nat) : W64 :=
  opRes w (opU w a * 2 ^ k % 2 ^ opN w + opU w a / 2 ^ (opN w - k))
/-- The amount of a register shift (R318). -/
def shAmt (w : Bool) (b : W64) : Nat := b.toNat % opN w

def execAnd (h : Head) (w : Bool) (s : State) : Out := run (fireVal h nAB (fun e => opBits w (e.a &&& e.b))) s
def execAndi (h : Head) (w : Bool) (imm : BitVec 27) (s : State) : Out := run (fireVal h nA (fun e => opBits w (e.a &&& immX imm))) s
def execOr (h : Head) (w : Bool) (s : State) : Out := run (fireVal h nAB (fun e => opBits w (e.a ||| e.b))) s
def execOri (h : Head) (w : Bool) (imm : BitVec 27) (s : State) : Out := run (fireVal h nA (fun e => opBits w (e.a ||| immX imm))) s
def execXor (h : Head) (w : Bool) (s : State) : Out := run (fireVal h nAB (fun e => opBits w (e.a ^^^ e.b))) s
def execXori (h : Head) (w : Bool) (imm : BitVec 27) (s : State) : Out := run (fireVal h nA (fun e => opBits w (e.a ^^^ immX imm))) s
def execNot (h : Head) (w : Bool) (s : State) : Out := run (fireVal h nA (fun e => opBits w (~~~e.a))) s
def execShl (h : Head) (w : Bool) (s : State) : Out := run (fireVal h nAB (fun e => shlW w e.a (shAmt w e.b))) s
def execShli (h : Head) (w : Bool) (k : BitVec 6) (s : State) : Out := run (fireVal h nA (fun e => shlW w e.a k.toNat)) s
def execShr (h : Head) (w : Bool) (s : State) : Out := run (fireVal h nAB (fun e => shrW w e.a (shAmt w e.b))) s
def execShri (h : Head) (w : Bool) (k : BitVec 6) (s : State) : Out := run (fireVal h nA (fun e => shrW w e.a k.toNat)) s
def execSar (h : Head) (w : Bool) (s : State) : Out := run (fireVal h nAB (fun e => sarW w e.a (shAmt w e.b))) s
def execSari (h : Head) (w : Bool) (k : BitVec 6) (s : State) : Out := run (fireVal h nA (fun e => sarW w e.a k.toNat)) s
def execRotl (h : Head) (w : Bool) (s : State) : Out := run (fireVal h nAB (fun e => rotlW w e.a (shAmt w e.b))) s
def execClz (h : Head) (w : Bool) (s : State) : Out := run (fireVal h nA (fun e => w64 (clzN (opN w) (opU w e.a)))) s
def execCtz (h : Head) (w : Bool) (s : State) : Out := run (fireVal h nA (fun e => w64 (ctzLoop (opN w) (opU w e.a) 0))) s
def execPopc (h : Head) (w : Bool) (s : State) : Out := run (fireVal h nA (fun e => w64 (popcN (opN w) (opU w e.a)))) s

/-- BEXT and BINS (R318, R319); the field holds len − 1. -/
def bextW (w : Bool) (lo len : BitVec 6) (a : W64) : W64 := opRes w (bitsOf (opU w a) lo.toNat (len.toNat + 1))
def binsW (w : Bool) (lo len : BitVec 6) (a b : W64) : W64 :=
  opRes w (setBits (opU w a) lo.toNat (len.toNat + 1) (opU w b))
def execBext (h : Head) (w : Bool) (lo len : BitVec 6) (s : State) : Out := run (fireVal h nA (fun e => bextW w lo len e.a)) s
def execBins (h : Head) (w : Bool) (lo len : BitVec 6) (s : State) : Out := run (fireVal h nAB (fun e => binsW w lo len e.a e.b)) s
def execSext (h : Head) (w : Bool) (k : BitVec 6) (s : State) : Out :=
  run (fireVal h nA (fun e => opZ w (sext (k.toNat + 1) e.a.toNat))) s
def execZext (h : Head) (w : Bool) (k : BitVec 6) (s : State) : Out :=
  run (fireVal h nA (fun e => opRes w (bitsOf e.a.toNat 0 (k.toNat + 1)))) s

/-! ## COMPARE (R320) -/

/-- The conditions of R291. -/
def cmpCond (w : Bool) (cond : BitVec 3) (a b : W64) : Bool :=
  match cond.toNat with
  | 0 => opU w a = opU w b
  | 1 => opU w a ≠ opU w b
  | 2 => opS w a < opS w b
  | 3 => opS w a ≥ opS w b
  | 4 => opU w a < opU w b
  | 5 => opU w a ≥ opU w b
  | 6 => opS w a ≤ opS w b
  | _ => opU w a ≤ opU w b

def bitW (b : Bool) : W64 := if b then 1 else 0

def execCmp (h : Head) (w : Bool) (cond : BitVec 3) (s : State) : Out := run (fireVal h nAB (fun e => bitW (cmpCond w cond e.a e.b))) s
def execCmpi (h : Head) (w : Bool) (cond : BitVec 3) (imm : BitVec 27) (s : State) : Out :=
  run (fireVal h nA (fun e => bitW (cmpCond w cond e.a (immX imm)))) s
def execSel (h : Head) (s : State) : Out :=
  run (fireVal h { a := true, b := true, p := true } (fun e => if e.p then e.a else e.b)) s
def execPand (h : Head) (s : State) : Out := run (fireVal h nAB (fun e => bitW (e.a.getLsbD 0 && e.b.getLsbD 0))) s
def execPor (h : Head) (s : State) : Out := run (fireVal h nAB (fun e => bitW (e.a.getLsbD 0 || e.b.getLsbD 0))) s
def execPnot (h : Head) (s : State) : Out := run (fireVal h nA (fun e => bitW (!e.a.getLsbD 0))) s

/-! ## ADDRESS (R321-R323) -/

/-- LEA: IMM holds the displacement in bits 23:0 and the shift in 26:24. -/
def leaW (w : Bool) (imm : BitVec 27) (a b : W64) : W64 :=
  opZ w ((opU w a : Int) + opU w b * 2 ^ bitsOf imm.toNat 24 3 + sext 24 imm.toNat)
def alignW (w : Bool) (k : Nat) (a : W64) : W64 := opRes w ((opU w a + 2 ^ k - 1) % 2 ^ opN w / 2 ^ k * 2 ^ k)
def modaddW (a b : W64) : W64 :=
  let d := b.toNat % 2 ^ 32
  let m := b.toNat / 2 ^ 32
  if m = 0 then w64 (a.toNat + d) else w64 ((a.toNat + d) % m)

/-- Widths of a WIDFMT (R16) and the offset of a field (R322). -/
def widW (fmt : Nat) (i : Nat) : Nat := if i < bitsOf fmt 0 3 then bitsOf fmt (3 + 6 * i) 6 else 0
def widOff (fmt : Nat) (i : Nat) : Nat := ((List.range i).map (widW fmt)).sum
def widField (fmt : Nat) (i : Nat) (a : W64) : W64 :=
  if i ≥ bitsOf fmt 0 3 then 0 else w64 (bitsOf a.toNat (widOff fmt i) (widW fmt i))
/-- The value above a level (R22). -/
def widAbove (fmt : Nat) (k : Nat) (a : W64) : W64 :=
  if k > bitsOf fmt 0 3 then 0 else w64 (a.toNat / 2 ^ widOff fmt k)

def execLea (h : Head) (w : Bool) (imm : BitVec 27) (s : State) : Out := run (fireVal h nAB (fun e => leaW w imm e.a e.b)) s
def execAlignup (h : Head) (w : Bool) (k : BitVec 6) (s : State) : Out := run (fireVal h nA (fun e => alignW w k.toNat e.a)) s
def execModadd (h : Head) (s : State) : Out := run (fireVal h nAB (fun e => modaddW e.a e.b)) s
def execWidf (h : Head) (fld : BitVec 3) (s : State) : Out :=
  run (fireSeq h nA (fun e s => s.finish e.key e.idx (widField (s.ctx e.key).widfmt.toNat fld.toNat e.a))) s
def execWidl (h : Head) (s : State) : Out :=
  run (fireSeq h nAB (fun e s => s.finish e.key e.idx (widAbove (s.ctx e.key).widfmt.toNat e.b.toNat e.a))) s

/-- A field of a tensor map (R81). -/
def tmF (tm : BitVec 256) (lo n : Nat) : Nat := bitsOf tm.toNat lo n
def tmV (tm : BitVec 256) : Bool := tm.getLsbD 255
def tmEsz (tm : BitVec 256) : Nat := 2 ^ tmF tm 248 2

/-- TmapAddr of a valid map (R82). -/
def tmapAddr (tm : BitVec 256) (i0 i1 i2 : Nat) : W64 :=
  let off : Int := (i0 * tmEsz tm : Nat) + i1 * sext 32 (tmF tm 160 32) + i2 * sext 32 (tmF tm 192 32)
  let wrap : Int := (tmF tm 224 20 * 64 : Nat)
  let off := if wrap = 0 then off else off % wrap
  w64 (wrapNat 64 ((tmF tm 0 64 : Nat) + off))

/-- TMAPX (R323). -/
def execTmapx (h : Head) (n : BitVec 4) (s : State) : Out :=
  run (fireSeq h nAB (fun e s =>
    let tm := (s.ctx e.key).tms.getD 0 n.toNat
    if tmV tm then
      s.finish e.key e.idx (tmapAddr tm (e.a.toNat % 2 ^ 32) (e.a.toNat / 2 ^ 32) (e.b.toNat % 2 ^ 32))
    else faultOf e (fltWord .reservedField e) s)) s

end Sys2Proof.Machine
end

