-- ==== Sys2Proof/Machine/MemOps.lean ====
section
/-! DEFINITION. Program order (R152-R156), and groups MEMORY and ATOMIC and FENCE (R382-R393) up to a store's entry into the
store buffer. -/

namespace Sys2Proof.Machine

/-! ## Program order (R152, R153, R155, R156) -/

def wOpc (w : W64) : Nat := (w.extractLsb' 54 10).toNat
def wCls (w : W64) : Nat := (w.extractLsb' 23 4).toNat

/-- Alias class of an instruction that enters the store buffer (R384). -/
def storeCls (w : W64) : Option Nat :=
  let o := wOpc w
  if o = 0x1C1 || o = 0x1C5 || o = 0x1C6 || o = 0x1C9 || o = 0x1CA then some (wCls w) else none

/-- Class of an access performed before its block commits: its alias class, or 15 for an engine or table command, a queue or
counter operation and SWITCH (R152, R167, R326). -/
def accCls (w : W64) : Option Nat :=
  let o := wOpc w
  let g := o / 64
  if (storeCls w).isSome then none
  else if g = 7 || g = 8 then some (wCls w)
  else if g = 10 || g = 11 || g = 12 || g = 13 || g = 14 || g = 15 || o = 0x145 || (0x186 ≤ o && o ≤ 0x189) then some 15
  else none

/-- An access that writes, for R152's order of a read after the last write. -/
def accWrites (w : W64) : Bool := (accCls w).isSome && wOpc w ≠ 0x1C0 && wOpc w ≠ 0x1C8 && wOpc w ≠ 0x145

/-- An acquire of the M format or of a tagged load (R154, R160), and DRAIN, which acts as one (R168). -/
def isAcquire (w : W64) : Bool :=
  let o := wOpc w
  o = 0x1C2 || o = 0x1C3 || o = 0x241 || ((o = 0x1C0 || o = 0x200 || o = 0x201 || o = 0x202) && w.getLsbD 21)

/-- A FENCE that orders a class (R155). -/
def fenceOf (w : W64) (c : Nat) : Bool := wOpc w = 0x240 && bitOf (bitsOf w.toNat 10 16) c

def clash (c d : Nat) : Bool := c = d || c = 15 || d = 15

def NStat.ended : NStat → Bool
  | .nullified => true
  | .recorded => true
  | .done => true
  | _ => false

/-- May an access of class `c` of instruction `i` be performed now? `read`: it only reads; `rel`: it is a release. Reads of one
class other than 15 are unordered (R152). An earlier instruction that can never fire, or only after this one, orders nothing
(DEDUCED, log 33). -/
def State.orderReady (s : State) (key i : Nat) (b : Blk) (c : Nat) (read rel : Bool) : Bool :=
  (s.ctx key).sq.all (fun e => !(rel || clash e.cls c)) &&
  (List.range i).all (fun j =>
    let w := b.words.getD j 0
    let fin := (b.node j).st.ended
    fin || !((read && ((storeCls w).map (clash c)).getD false) ||
      ((accCls w).map (fun d => (!read || accWrites w || c = 15 || d = 15) && (rel || clash c d))).getD false ||
      isAcquire w || fenceOf w c) || b.behind i j)

/-- The tile whose window an address lies in. -/
def State.windowOf (s : State) (pa : Nat) : Option Nat :=
  match s.paKind pa with
  | .window t _ => some t
  | _ => none

/-- A committed store of the context to the same tile window that has not been performed: accesses to one window arrive there
in issue order (R126). -/
def State.windowHeld (s : State) (key pa : Nat) : Bool :=
  (s.windowOf pa).isSome && (s.ctx key).sq.any (fun e => s.windowOf e.pa == s.windowOf pa)

/-! ## Addresses -/

/-- The address of an M-format instruction (R382). -/
def mAddr (e : Env) (m : MFmt) : W64 := e.a + m.ofs.signExtend 64

def misaligned (va size : Nat) : Bool := va % size ≠ 0
def misFault (va : W64) (size : Nat) : Flt := { code := .misaligned, addr := va, extra := w64 size }

/-- What the instructions ask of a page (R144, R382). -/
def useLoad (sup : Bool) : Use := { rd := true, sup := sup, cls := [0, 2, 3, 4, 5], scls := [1, 6] }
def useStore (sup : Bool) : Use := { wr := true, acc := 1, sup := sup, cls := [0, 5] }
def useAtomic (sup : Bool) : Use := { rd := true, wr := true, acc := 1, sup := sup, cls := [0, 5] }
def useTagRead (sup : Bool) : Use := { rd := true, sup := sup, cls := [5], want := 5 }
def useTagWrite (sup : Bool) : Use := { wr := true, acc := 1, sup := sup, cls := [5], want := 5 }

/-- What holds an M-format access back: program order, a translation miss, whose walk starts, the order at a tile window, or
what `busy` says of its home (R126, R131, R145, R152). -/
def holdM (m : MFmt) (size : Nat) (use : Bool → Use) (read rel : Bool) (e : Env) (s : State)
    (busy : Tr → State → Bool := fun _ _ => false) : Option State :=
  let va := mAddr e m
  if !s.orderReady e.key e.idx e.blk m.cls.toNat read rel then some s
  else if misaligned va.toNat size then none
  else
    let c := s.ctx e.key
    let u := use c.sup
    match s.translate e.tile c.part va u with
    | (.miss, _) => some (s.missWalk e.key e.idx c.part va u.wr u.acc)
    | (.ok tr, _) => if s.windowHeld e.key tr.pa || busy tr s then some s else none
    | _ => none

/-- Checks 2 to 6 of R382, then the access. -/
def checkedM (m : MFmt) (size : Nat) (use : Bool → Use) (bank : BankUse) (e : Env) (s : State)
    (go : Tr → W64 → State → State) : State :=
  let va := mAddr e m
  let c := s.ctx e.key
  let u := use c.sup
  if misaligned va.toNat size then faultOf e (misFault va size) s
  else match s.translate e.tile c.part va u with
    | (.miss, s) => s
    | (.fault f, s) => faultOf e f s
    | (.ok tr, s) =>
      let off := match s.paKind tr.pa with
        | .window _ off => off
        | _ => 0
      if !s.winPerm e.key va.toNat tr.pa off (!u.wr) || (off ≥ 0x800000 && u.rd && u.wr) then
        faultOf e (permFault va.toNat u.acc) s
      else match s.bankCheck va.toNat tr.pa bank with
        | .error f => faultOf e f s
        | .ok _ => go tr va s

/-! ## Loads (R385) -/

/-- Does instruction `j` send its token to slot o of instruction `i` (R153)? -/
def Blk.edge (b : Blk) (j i : Nat) : Bool :=
  let h := headOf (b.words.getD j 0)
  targetOf j h.t0 = some (i, 3) || targetOf j h.t1 = some (i, 3)

/-- The bytes of a value that a store writes. -/
def StEnt.over (st : StEnt) (pa n v : Nat) : Nat :=
  (List.range n).foldl (fun v k =>
    if st.pa ≤ pa + k && pa + k < st.pa + st.size then
      setBits v (8 * k) 8 (bitsOf st.val.toNat (8 * (pa + k - st.pa)) 8) else v) v

/-- Bytes that a load of the same block takes from its stores, in index order: from the earlier ones of its class (R152), and
from any whose token it waited for, which may stand at a higher index (R153, R290; DEDUCED, log 70). -/
def forward (b : Blk) (i c pa n v : Nat) : Nat :=
  (List.range b.words.length).foldl (fun v j => match b.stores.find? (fun st => st.idx = j && st.kind = .st) with
    | some st => if (j < i && clash st.cls c) || b.edge j i then st.over pa n v else v
    | none => v) v

/-- The value of a load: its width in bytes, and sign extension (R293). -/
def tsSize (ts : Nat) : Nat := if ts = 6 then 8 else 2 ^ (ts / 2)
def extend (size : Nat) (sx : Bool) (v : Nat) : W64 := if sx then w64 (wrapNat 64 (sext (8 * size) v)) else w64 v

/-- Bind the value of `n` bytes at a physical address, the stores of the block forwarded, and go on with it (R77, R87, R129,
R137, R140, R151). -/
def loadNow (tr : Tr) (n c : Nat) (e : Env) (s : State) (k : Nat → State → State) : State :=
  let fin := fun (v : Nat) (s : State) => k (forward e.blk e.idx c tr.pa n v) s
  let own := some (e.ctx, s.classOf e.key)
  match s.queueRead tr n with
  | some v => k v (s.traffic e.tile own tr n false)
  | none =>
  match s.paKind tr.pa with
  | .window t off =>
    let s := s.traffic e.tile own tr n false
    if storageOff off then
      (match s.poisonAt tr.pa n with
       | some f => faultOf e f s
       | none => fin (s.rd tr.pa n) s)
    else
      let (v, s) := s.winLoad t off n
      fin v s
  | .slow _ =>
    (match (s.traffic e.tile own tr n false).slowRead e.tile (s.classOf e.key) tr n with
     | (some bs, s) => fin (leNat bs) s
     | (none, s) => faultOf e (poisonFault tr.pa) s)
  | _ =>
    if (s.cached e.tile tr).isNone && s.poisoned tr.pa then faultOf e (poisonFault tr.pa) s
    else
      let (v, s) := s.loadHbm e.key tr n
      fin v s

/-- A load's value: bound now, or once the accumulator's accepted operations have completed (R91, R385). -/
def loadPa (tr : Tr) (n : Nat) (sx : Bool) (c : Nat) (e : Env) (s : State) : State :=
  let ops := s.accBusyAt tr.pa n
  if ops.isEmpty then loadNow tr n c e s (fun v s => s.finish e.key e.idx (extend n sx v))
  else
    let s := s.traffic e.tile (some (e.ctx, s.classOf e.key)) tr n false
    { s with waits := s.waits ++ [⟨e.key, e.idx, .accLoad tr.pa n sx ops⟩] }

/-- LD (R385): plain or acquire. -/
def execLd (h : Head) (m : MFmt) (s : State) : Out :=
  let n := tsSize m.ts.toNat
  run (fun s => fireSeq h { a := true, o := m.ow } (fun e s =>
    checkedM m n useLoad .plain e s (fun tr _ s =>
      let s := if m.ord = 0 then s else s.cacheAcquire e.tile m.scp.toNat
      loadPa tr n (m.ts.getLsbD 0) m.cls.toNat e s)) s
    (holdM m n useLoad true false)) s

/-- ACCUMULATOR_WINDOW_LOAD (R91): a load that waited for the accumulators' accepted operations returns its value, the earlier
stores of its block seen as by any load (R152); an acquire is performed now (R156, R158). -/
def execAccumulatorWindowLoad (s : State) : Out :=
  run (fun s => match s.focus with
    | .ev t c n _ _ =>
      let key := ctxKey t c
      match s.waits.find? (fun w => w.key = key && w.idx = n) with
      | some ⟨_, _, .accLoad pa size sx ops⟩ =>
        (match s.paKind pa with
         | .window t' off =>
           if s.opsBusy t' ops then s
           else
             let s := { s with waits := s.waits.filter (fun w => !(w.key = key && w.idx = n)) }
             let m := mfmtOf (s.wordAt key n)
             let s := if m.ord = 0 then s else s.cacheAcquire t m.scp.toNat
             let (v, s) := s.winLoad t' off size
             let v := match s.blks.get? key with
               | some b => forward b n m.cls.toNat pa size v
               | none => v
             s.finish key n (extend size sx v)
         | _ => s)
      | _ => s
    | _ => s) s

/-! ## Stores: entry into the store buffer (R384, R385, R387, R388) -/

/-- An M-format store enters its block's store buffer and sends its token. -/
def enterStore (kind : StKind) (m : MFmt) (size : Nat) (tr : Tr) (va : W64) (e : Env) (s : State) : State :=
  let ent : StEnt := {
    idx := e.idx, kind := kind, pa := tr.pa, size := size, val := w64 (e.b.toNat % 2 ^ (8 * size)), cls := m.cls.toNat,
    rel := if m.ord = 2 then some m.scp.toNat else none,
    after := if m.ow then (List.range e.blk.words.length).find? (fun j => e.blk.edge j e.idx) else none,
    va := va, sliced := sliceHomed tr, ms := bitOf tr.pte.toNat 7, word := e.word }
  (s.updBlk e.key (fun b => { b with stores := b.stores ++ [ent] })).finishTok e.key e.idx

def storeInstr (h : Head) (m : MFmt) (kind : StKind) (size : Nat) (needB : Bool) (use : Bool → Use) (bank : BankUse)
    (s : State) : State :=
  fireSeq h { a := true, b := needB, o := m.ow } (fun e s =>
    checkedM m size use bank e s (fun tr va s =>
      match s.paKind tr.pa with
      | .window t off =>
        if kind = .st && s.winBusy t off size then faultOf e { code := .regionBusy, addr := va } s
        else enterStore kind m size tr va e s
      | _ => enterStore kind m size tr va e s)) s
    (fun e s =>
      let va := mAddr e m
      if misaligned va.toNat size then none
      else
        let c := s.ctx e.key
        let u := use c.sup
        match s.translate e.tile c.part va u with
        | (.miss, _) => some (s.missWalk e.key e.idx c.part va u.wr u.acc)
        | _ => none)

def execSt (h : Head) (m : MFmt) (s : State) : Out := run (storeInstr h m .st (tsSize m.ts.toNat) true useStore .plain) s
def execTagset (h : Head) (m : MFmt) (s : State) : Out := run (storeInstr h m .tagset 8 false useTagWrite .tagged) s
def execTagclr (h : Head) (m : MFmt) (s : State) : Out := run (storeInstr h m .tagclr 8 false useTagWrite .tagged) s
/-- FLUSH and INVAL: never misaligned; they write no byte, so they need of the page what a load needs (log 21). -/
def execFlush (h : Head) (m : MFmt) (s : State) : Out := run (storeInstr h m .flush 1 false useLoad .plain) s
def execInval (h : Head) (m : MFmt) (s : State) : Out := run (storeInstr h m .inval 1 false useLoad .plain) s

/-- PREF (R388): a hint; a failed check drops it. -/
def execPref (h : Head) (m : MFmt) (s : State) : Out :=
  run (fireSeq h { a := true, o := m.ow } (fun e s =>
    let va := mAddr e m
    let c := s.ctx e.key
    let s := match s.translateNow e.tile c.part va (useLoad c.sup) with
      | (.ok tr, s) =>
        if s.paKind tr.pa = PaKind.hbm && (s.bankCheck va.toNat tr.pa .plain).isOk && !s.poisoned tr.pa then
          let own := some (e.ctx, s.classOf e.key)
          let line := { tr with pa := tr.pa / 128 * 128 }
          if cacheable tr && s.cacheCap e.tile > 0 then
            (if (s.cacheFind e.tile (tr.pa / 128)).isSome then s else
              let s := s.wayTouch line 128
              (s.traffic e.tile own line 128 false).cacheFill e.tile (tr.pa / 128) (tr.cls = 4))
          else if sliceHomed tr && tr.cls ≠ 3 then (s.wayTouch line 128).traffic e.tile own line 128 false else s
        else s
      | (.error _, s) => s
    s.finishTok e.key e.idx)) s

/-! ## Tagged words (R386, R387, R131) -/

/-- Whether a tagged access can be performed: 0 LDF, 1 LDFF, 2 STE. -/
def State.tagReady (s : State) (op pa : Nat) : Bool := if op = 2 then !s.isFull pa else s.isFull pa

/-- Perform a tagged access at its bank and complete the instruction. An acquire at PKG for the loads (R160). -/
def State.tagDo (s : State) (key idx op pa : Nat) (val : W64) : State :=
  if op = 2 then ((s.wr pa 8 val.toNat).setFull pa true).finishTok key idx
  else
    let v := s.rd64 pa
    let s := s.cacheAcquire (key / 16) 3
    (if op = 0 then s.setFull pa false else s).finish key idx v

/-- The tagged waiter that a wait holds. -/
def Wait.tagOn (w : Wait) (pa : Nat) : Option (Nat × W64) :=
  match w.k with
  | .tagged p op v => if p = pa then some (op, v) else none
  | _ => none

/-- Examine a word's waiters oldest first after each change (R131). The line once poisoned holds no tagged access: each of
them faults and changes nothing (R137, R386). -/
def State.tagWake : Nat → Nat → State → State
  | 0, _, s => s
  | n + 1, pa, s =>
    match s.waits.find? (fun w => (w.tagOn pa).any (fun o => s.poisoned pa || s.tagReady o.1 pa)) with
    | none => s
    | some w =>
      match w.tagOn pa with
      | none => s
      | some (op, v) =>
        let t : State := { s with waits := s.waits.filter (fun x => !(x.key = w.key && x.idx = w.idx)) }
        State.tagWake n pa (match s.poisonAt pa 8 with
          | some f => t.syncFault w.key { f with idx := some w.idx }
          | none => t.tagDo w.key w.idx op pa v)

/-- Examine the waiters of every word of `pa … pa+n-1` (R131). -/
def State.tagWakeAll (s : State) (pa n : Nat) : State :=
  (List.range (n / 8)).foldl (fun s i => s.tagWake s.waits.length (pa + 8 * i)) s

/-- Has a bank's wait list no place for a tagged access that must wait (R131)? It is then refused, and tried again. -/
def State.tagRefused (s : State) (op : Nat) (tr : Tr) : Bool :=
  !s.tagReady op tr.pa && (s.poisonAt tr.pa 8).isNone && decide (16 ≤ (s.waits.filter (fun w => match w.k with
    | .tagged pa _ _ => pa / 0x20000 = tr.pa / 0x20000
    | _ => false)).length)

/-- A tagged access at its bank: performed, or it joins the wait list (R131). -/
def tagAccess (op : Nat) (tr : Tr) (e : Env) (s : State) : State :=
  let s := s.traffic e.tile (some (e.ctx, s.classOf e.key)) tr 8 (op = 2)
  match s.poisonAt tr.pa 8 with
  | some f => faultOf e f s
  | none =>
    if s.tagReady op tr.pa then
      let s := s.tagDo e.key e.idx op tr.pa e.b
      s.tagWake s.waits.length tr.pa
    else { s with waits := s.waits ++ [⟨e.key, e.idx, .tagged tr.pa op e.b⟩] }

def execLdf (h : Head) (m : MFmt) (s : State) : Out :=
  run (fun s => fireSeq h { a := true, o := m.ow }
    (fun e s => checkedM m 8 useTagRead .tagged e s (fun tr _ s => tagAccess 0 tr e s)) s
    (fun e s => holdM m 8 useTagRead false false e s (fun tr s => s.tagRefused 0 tr))) s
def execLdff (h : Head) (m : MFmt) (s : State) : Out :=
  run (fun s => fireSeq h { a := true, o := m.ow }
    (fun e s => checkedM m 8 useTagRead .tagged e s (fun tr _ s => tagAccess 1 tr e s)) s
    (fun e s => holdM m 8 useTagRead true false e s (fun tr s => s.tagRefused 1 tr))) s
/-- STE: a release at PKG (R160). -/
def execSte (h : Head) (m : MFmt) (s : State) : Out :=
  run (fun s => fireSeq h { a := true, b := true, o := m.ow }
    (fun e s => checkedM m 8 useTagWrite .tagged e s (fun tr _ s => tagAccess 2 tr e s)) s
    (fun e s => holdM m 8 useTagWrite false true e s (fun tr s => s.tagRefused 2 tr))) s
/-- TAGQ (R387): Full in bit 0, LineFull in bit 1. -/
def execTagq (h : Head) (m : MFmt) (s : State) : Out :=
  run (fun s => fireSeq h { a := true, o := m.ow }
    (fun e s => checkedM m 8 useTagRead .tagged e s (fun tr _ s =>
      let s := s.traffic e.tile (some (e.ctx, s.classOf e.key)) tr 8 false
      match s.poisonAt tr.pa 8 with
      | some f => faultOf e f s
      | none => s.finish e.key e.idx (w64 ((s.isFull tr.pa).toNat + 2 * (s.lineFull tr.pa).toNat)))) s
    (holdM m 8 useTagRead true false)) s

/-! ## Atomics (R389-R392) -/

/-- Integer functions of AMO and RED (R389) by number; `w`: 32 bits. -/
def intFn (fn : Nat) (w : Bool) (old x : W64) : W64 :=
  let n := opN w
  match fn with
  | 0 => x
  | 1 => w64 ((opU w old + opU w x) % 2 ^ n)
  | 2 => old &&& x
  | 3 => old ||| x
  | 4 => if opS w old ≤ opS w x then old else x
  | 5 => if opS w old ≥ opS w x then old else x
  | 6 => if opU w old ≤ opU w x then old else x
  | _ => if opU w old ≥ opU w x then old else x

/-- One FP32 lane of AMOF and REDF (R391): no flag is kept. -/
def fpLane (fop old x : Nat) : Nat :=
  match fop with
  | 0 => (fp32.add .rne old x).1
  | 1 => (fp32.minmax false old x).1
  | _ => (fp32.minmax true old x).1
def fpFn (fop : Nat) (w : Bool) (old x : W64) : W64 :=
  let lo := fpLane fop (old.toNat % 2 ^ 32) (x.toNat % 2 ^ 32)
  if w then w64 lo else w64 (lo + fpLane fop (old.toNat / 2 ^ 32) (x.toNat / 2 ^ 32) * 2 ^ 32)

/-- An atomic at the home of its location (R164, R392): what it writes, and what it answers, are functions of the old value. It is
performed before the stores of its block, as R152 has it, though a token of one of them orders it behind that store (R153; the two
cannot both hold: DEDUCED, log 70). -/
def atomicInstr (h : Head) (m : MFmt) (size : Nat) (new : W64 → W64 → Option W64) (answer : W64 → W64 → W64) (tok : Bool)
    (s : State) : State :=
  fireSeq h { a := true, b := true, o := m.ow } (fun e s =>
    checkedM m size useAtomic .plain e s (fun tr _ s =>
      match s.poisonAt tr.pa size with
      | some f => faultOf e f s
      | none =>
        let s := s.wayTouch tr size
        let old := w64 (s.rd tr.pa size)
        let s := if m.ord.getLsbD 0 then s.cacheAcquire e.tile m.scp.toNat else s
        let s := s.traffic e.tile (some (e.ctx, s.classOf e.key)) tr size (new old e.b).isSome
        let s := match new old e.b with
          | some v => s.storeBytes e.tile tr.pa size v.toNat
          | none => s
        if tok then s.finishTok e.key e.idx else s.finish e.key e.idx (answer old e.b))) s
    (holdM m size useAtomic false (m.ord.getLsbD 1))

def atW (m : MFmt) : Bool := !m.ts.getLsbD 3
def atSize (m : MFmt) : Nat := if atW m then 4 else 8
def atFn (m : MFmt) : Nat := m.ts.toNat % 8

def execAmo (h : Head) (m : MFmt) (s : State) : Out :=
  run (atomicInstr h m (atSize m) (fun o x => some (intFn (atFn m) (atW m) o x)) (fun o _ => opRes (atW m) o.toNat) false) s
/-- CAS (R390): the old word in bits 31:0, success in bit 32. -/
def execCas (h : Head) (m : MFmt) (s : State) : Out :=
  run (atomicInstr h m 4 (fun o x => if o.toNat = x.toNat / 2 ^ 32 then some (w64 (x.toNat % 2 ^ 32)) else none)
    (fun o x => w64 (o.toNat + (decide (o.toNat = x.toNat / 2 ^ 32)).toNat * 2 ^ 32)) false) s
def execAmof (h : Head) (m : MFmt) (s : State) : Out :=
  run (atomicInstr h m (atSize m) (fun o x => some (fpFn (atFn m) (atW m) o x)) (fun o _ => o) false) s
def execRed (h : Head) (m : MFmt) (s : State) : Out :=
  run (atomicInstr h m (atSize m) (fun o x => some (intFn (atFn m) (atW m) o x)) (fun o _ => o) true) s
def execRedf (h : Head) (m : MFmt) (s : State) : Out :=
  run (atomicInstr h m (atSize m) (fun o x => some (fpFn (atFn m) (atW m) o x)) (fun o _ => o) true) s

/-! ## FENCE (R155, R393) -/

/-- Whether every access of a masked class before a FENCE has been performed. A store of its own block is performed only
after the commit, so a FENCE that follows one completes with the commit. -/
def State.fenceReady (s : State) (key i : Nat) (b : Blk) (mask : Nat) : Bool :=
  (s.ctx key).sq.all (fun e => !bitOf mask e.cls) &&
  (List.range i).all (fun j =>
    let w := b.words.getD j 0
    let st := (b.node j).st
    ((((storeCls w).map (bitOf mask)).getD false → st = .nullified) &&
     (((accCls w).map (bitOf mask)).getD false → st.ended)) || b.behind i j)

def execFence (h : Head) (mask : BitVec 16) (scope : BitVec 3) (s : State) : Out :=
  run (fun s => fireSeq h {} (fun e s =>
    (s.cacheAcquire e.tile scope.toNat).finishTok e.key e.idx) s
    (fun e s => if mask = 0 || s.fenceReady e.key e.idx e.blk mask.toNat then none else some s)) s


end Sys2Proof.Machine
end

