-- ==== Sys2Proof/Machine/Flow.lean ====
section
/-! DEFINITION. Group FLOW and the exits, YIELD, WAITEV and TLBINV of group SYSTEM (R324-R331, R336). -/

namespace Sys2Proof.Machine

/-- The address just past a block (R325). -/
def Blk.retAddr (b : Blk) : W64 := b.addr + w64 (64 + 64 * ((b.words.length + 7) / 8))

/-- The exit an instruction fires; that it is a second one is found at the commit (R102, R288). Next block, kind and slot a
are kept for the commit. -/
def fireExit (e : Env) (x : Nat) (kind : ExitKind) (target : W64) (s : State) (k : State → State) : State :=
  k (s.updBlk e.key (fun b => { b with exits := b.exits ++ [(x, e.idx, kind, target, e.a)] }))

/-- An exit to a computed address: BRANCH_ALIGN when it is not 64-byte aligned (R324). -/
def fireExitAligned (e : Env) (x : Nat) (target : W64) (s : State) (k : State → State) : State :=
  if target.toNat % 64 ≠ 0 then faultOf e { code := .branchAlign, addr := target, extra := w64 x } s
  else fireExit e x .plain target s k

/-- The target of a B-format exit (R295). -/
def bTarget (b : Blk) (ofs : BitVec 28) : W64 := b.addr + ofs.signExtend 64 * 64

/-- The return-address stack: prediction only (R325). -/
def State.rasPush (s : State) (key : Nat) (a : W64) : State := s.updCtx key (fun c => { c with ras := (a :: c.ras).take 16 })
def State.rasPop (s : State) (key : Nat) : State := s.updCtx key (fun c => { c with ras := c.ras.drop 1 })

def execBr (h : Head) (x : BitVec 3) (ofs : BitVec 28) (s : State) : Out :=
  run (fireSeq h {} (fun e s => fireExit e x.toNat .plain (bTarget e.blk ofs) s (fun s => s.finishNone e.key e.idx))) s
def execBrr (h : Head) (x : BitVec 3) (s : State) : Out :=
  run (fireSeq h nA (fun e s => fireExitAligned e x.toNat e.a s (fun s => s.finishNone e.key e.idx))) s
def execCall (h : Head) (x : BitVec 3) (ofs : BitVec 28) (s : State) : Out :=
  run (fireSeq h {} (fun e s => fireExit e x.toNat .plain (bTarget e.blk ofs) s (fun s =>
    (s.rasPush e.key e.blk.retAddr).finish e.key e.idx e.blk.retAddr))) s
def execCallr (h : Head) (x : BitVec 3) (s : State) : Out :=
  run (fireSeq h nA (fun e s => fireExitAligned e x.toNat e.a s (fun s =>
    (s.rasPush e.key e.blk.retAddr).finish e.key e.idx e.blk.retAddr))) s
def execRet (h : Head) (x : BitVec 3) (s : State) : Out :=
  run (fireSeq h nA (fun e s => fireExitAligned e x.toNat e.a s (fun s => (s.rasPop e.key).finishNone e.key e.idx))) s

/-- SWITCH (R326): the plain load of alias class 15 whose value is the target. -/
def swFmt : MFmt := { ts := 6, cls := 15, ord := 0, scp := 0, ow := false, ofs := 0 }
def swEnv (e : Env) : Env := { e with a := e.a + w64 (8 * e.b.toNat) }

def execSwitch (h : Head) (x : BitVec 3) (s : State) : Out :=
  run (fun s => fireSeq h nAB (fun e s =>
    checkedM swFmt 8 useLoad .plain (swEnv e) s (fun tr _ s =>
      loadNow tr 8 15 e s (fun v s => fireExitAligned e x.toNat (w64 v) s (fun s => s.finishNone e.key e.idx)))) s
    (fun e s => holdM swFmt 8 useLoad true false (swEnv e) s (fun tr s => !(s.accBusyAt tr.pa 8).isEmpty))) s

/-- TRAP and SVC (R327): exit 0, to the return address; the record is built at the commit. -/
def execTrap (h : Head) (_imm : BitVec 27) (s : State) : Out :=
  run (fireSeq h nA (fun e s => fireExit e 0 .trap e.blk.retAddr s (fun s => s.finishNone e.key e.idx))) s
def execSvc (h : Head) (_imm : BitVec 27) (s : State) : Out :=
  run (fireSeq h nA (fun e s => fireExit e 0 .svc e.blk.retAddr s (fun s => s.finishNone e.key e.idx))) s

/-- ERET (R328): only while INH = 1. -/
def execEret (h : Head) (x : BitVec 3) (s : State) : Out :=
  run (fireSeq h {} (fun e s =>
    if (s.ctx e.key).inh then fireExit e x.toNat .eret 0 s (fun s => s.finishNone e.key e.idx)
    else faultOf e (fltWord .privilege e) s)) s

/-- HALT (R329). -/
def execHalt (h : Head) (x : BitVec 3) (s : State) : Out :=
  run (fireSeq h {} (fun e s => fireExit e x.toNat .halt 0 s (fun s => s.finishNone e.key e.idx))) s

/-- YIELD (R330): the window of 64 cycles begins at the commit. -/
def execYield (h : Head) (s : State) : Out :=
  run (fireSeq h {} (fun e s => (s.updBlk e.key (fun b => { b with yield := true })).finishNone e.key e.idx)) s

/-- EVSTAT AND EVMASK of a tile (R97). -/
def State.events (s : State) (t : Nat) : W64 := (s.tile t).evstat &&& (s.tile t).evmask

/-- WAITEV (R331): S only; it waits for a masked event or its timeout. -/
def execWaitev (h : Head) (s : State) : Out :=
  run (fireSeq h nA (fun e s =>
    if !(s.ctx e.key).sup then faultOf e (fltWord .privilege e) s
    else if s.events e.tile ≠ 0 then s.finish e.key e.idx (s.events e.tile)
    else { s with waits := s.waits ++ [⟨e.key, e.idx, .waitev (if e.a = 0 then none else some (s.cycle, e.a))⟩] })) s

/-- Has the timeout of a WAITEV elapsed? CYCLE wraps (R261). -/
def State.timedOut (s : State) (till : W64 × W64) : Bool := s.cycle - till.1 ≥ till.2

/-- A WAITEV whose tile has a masked event completes. -/
def State.evWake (s : State) : State :=
  s.waits.foldl (fun s w => match w.k with
    | .waitev _ =>
      if s.events (w.key / 16) ≠ 0 then
        ({ s with waits := s.waits.filter (fun x => !(x.key = w.key && x.idx = w.idx)) } : State).finish w.key w.idx
          (s.events (w.key / 16))
      else s
    | _ => s) s

/-- WAITEV_TIMEOUT (R331): the timeout of a waiting context has elapsed; an event of that cycle comes first. -/
def execWaitevTimeout (s : State) : Out :=
  run (fun s => match s.focus with
    | .ev t c _ _ _ =>
      let key := ctxKey t c
      match s.waits.find? (fun w => w.key = key && (match w.k with
          | .waitev (some till) => s.timedOut till
          | _ => false)) with
      | some w =>
        ({ s with waits := s.waits.filter (fun x => !(x.key = w.key && x.idx = w.idx)) } : State).finish key w.idx (s.events t)
      | none => s
    | _ => s) s

/-- TLBINV (R336): S only. -/
def tlbInv (h : Head) (n : Needs) (drop : Env → TlbEnt → Bool) (s : State) : State :=
  fireSeq h n (fun e s =>
    if !(s.ctx e.key).sup then faultOf e (fltWord .privilege e) s
    else (s.tlbDrop (drop e)).finish e.key e.idx 0) s

def execTlbinvPage (h : Head) (s : State) : Out :=
  run (tlbInv h nAB (fun e x => x.covers (bitsOf e.b.toNat 0 16) e.a.toNat)) s
def execTlbinvAsn (h : Head) (s : State) : Out :=
  run (tlbInv h { b := true } (fun e x => x.asn = bitsOf e.b.toNat 0 16)) s
def execTlbinvAll (h : Head) (s : State) : Out := run (tlbInv h {} (fun _ _ => true)) s

end Sys2Proof.Machine
end

