-- ==== Sys2Proof/Machine/Engine.lean ====
section
/-! DEFINITION. Reads and writes that an engine, a unit or a command makes in a partition's address space (R142, R144, R137),
page by page; and the ordering of a command at its issue (R167). -/

namespace Sys2Proof.Machine

def raise {α : Type} (f : Flt) : M α := fun s => .error f s
def getS : M State := fun s => .ok s s
def modS (f : State → State) : M Unit := fun s => .ok () (f s)

/-- A command is ordered as an access of class 15 at its issue (R167). A release among them is performed before the stores of its
own block, which are performed at the commit that waits for it (R156, R288; log 33). -/
def hold15 (e : Env) (s : State) : Option State :=
  if s.orderReady e.key e.idx e.blk 15 false false then none else some s

/-- Pieces of a range that lie in one 64 KiB page each, with their offset in the range. -/
def pieces : Nat → Nat → Nat → Nat → List (Nat × Nat × Nat)
  | 0, _, _, _ => []
  | k + 1, va, off, n =>
    if n = 0 then []
    else
      let m := min n (65536 - va % 65536)
      (off, va, m) :: pieces k ((va + m) % 2 ^ 64) (off + m) (n - m)

def piecesOf (va : W64) (n : Nat) : List (Nat × Nat × Nat) := pieces (n / 65536 + 2) va.toNat 0 n

/-- What an engine asks of a page: access 3 in EXTRA. -/
def useERead (sup : Bool) (cls : List Nat) (want : Nat) : Use := { rd := true, acc := 3, sup := sup, cls := cls, want := want }
def useEWrite (sup : Bool) (cls : List Nat) (want : Nat) : Use := { wr := true, acc := 3, sup := sup, cls := cls, want := want }

/-- Translate one piece of `n` bytes and check its bank; a window above the local store is no store of an engine, and a piece
that runs into a hole meets it there (R122, R125). -/
def mPiece (t part : Nat) (u : Use) (bank : BankUse) (va n : Nat) : M Tr := do
  let tr ← mTrans t part (w64 va) u
  let s ← getS
  match s.holeAt tr.pa n with
  | some i => raise (trFault (va + i) 3 u.acc)
  | none =>
    match s.bankCheck va tr.pa bank with
    | .error f => raise f
    | .ok _ =>
      match s.paKind tr.pa with
      | .window _ off => if (u.wr && off ≥ 0x400000) || (!u.sup && supWindow off) then raise (permFault va u.acc) else pure tr
      | _ => pure tr

/-- Read one piece: a poisoned line answers with its address (R137); a slow-tier page through R140. Its requests go out for
the strand whose access it is (R239, R255). -/
def mReadTr (t : Nat) (u : Use) (tr : Tr) (n : Nat) : M (List Byte) := do
  modS (fun s => (s.traffic t (s.owner u) tr n false).wayTouch tr n)
  let s ← getS
  match s.paKind tr.pa with
  | .slow _ =>
    match s.slowRead t (((s.owner u).map Prod.snd).getD 8) tr n with
    | (some bs, s') => do modS (fun _ => s'); pure bs
    | (none, s') => do modS (fun _ => s'); raise (poisonFault tr.pa)
  | _ =>
    match s.poisonAt tr.pa n with
    | some f => raise f
    | none => fun s => .ok (s.peek tr.pa n).1 (s.peek tr.pa n).2

/-- Read one piece: translated, its bank checked, read. -/
def mReadPiece (t part : Nat) (u : Use) (bank : BankUse) (va n : Nat) : M (List Byte) := do
  let tr ← mPiece t part u bank va n
  mReadTr t u tr n

/-- Read `n` bytes of a partition's address space. -/
def readU (t part : Nat) (u : Use) (bank : BankUse) (va : W64) (n : Nat) : M (List Byte) := do
  let l ← (piecesOf va n).mapM (fun p => mReadPiece t part u bank p.2.1 p.2.2)
  pure l.flatten

/-- Check a whole destination without writing. -/
def checkU (t part : Nat) (u : Use) (bank : BankUse) (va : W64) (n : Nat) : M Unit := do
  let _ ← (piecesOf va n).mapM (fun p => mPiece t part u bank p.2.1 p.2.2)
  pure ()

/-- Write bytes at physical addresses line by line: a poisoned line that is covered only in part is left as it is, one
covered whole loses its mark (R137). The answer is the offset of the first byte not written. -/
def State.writeLines (s : State) (pa : Nat) (bs : List Byte) (off : Nat) : Option Nat × State :=
  (linesOf pa bs.length).foldl (fun (st : Option Nat × State) line =>
    let lo := max pa line
    let hi := min (pa + bs.length) (line + 128)
    if st.2.poisoned line && !coversLine pa bs.length line then
      (match st.1 with
       | some o => some o
       | none => some (off + (lo - pa)), st.2)
    else (st.1, (st.2.wrBytes lo ((bs.drop (lo - pa)).take (hi - lo))).setPoison line false)) (none, s)

/-- Write one piece. The copies that the tile's cache holds of its lines are dropped: what the tile is told of as written, it
reads (R151, R157). The answer is the offset of the first byte not written, and the piece's physical address. -/
def mWritePiece (t part : Nat) (u : Use) (bank : BankUse) (va off : Nat) (bs : List Byte) : M (Option Nat × Nat) := do
  let tr ← mPiece t part u bank va bs.length
  modS (fun s => ((s.traffic t (s.owner u) tr bs.length true).wayTouch tr bs.length).cacheDrop t tr.pa bs.length)
  let s ← getS
  let bad := (s.writeLines tr.pa bs off).1
  modS (fun s => s.tableWrite tr.pa bs.length (fun s => (s.writeLines tr.pa bs off).2))
  pure (bad, tr.pa)

/-- Write bytes into a partition's address space; the answer is the first offset that poison kept from being written. -/
def writeU (t part : Nat) (u : Use) (bank : BankUse) (va : W64) (bs : List Byte) : M (Option Nat) := do
  let l ← (piecesOf va bs.length).mapM (fun p => mWritePiece t part u bank p.2.1 p.1 ((bs.drop p.1).take p.2.2))
  pure (l.findSome? Prod.fst)

/-- Write bytes; the answer is the physical address of the first that poison kept from being written. -/
def writeP (t part : Nat) (u : Use) (bank : BankUse) (va : W64) (bs : List Byte) : M (Option Nat) := do
  let l ← (piecesOf va bs.length).mapM (fun p => do
    let (bad, pa) ← mWritePiece t part u bank p.2.1 p.1 ((bs.drop p.1).take p.2.2)
    pure (bad.map (fun o => pa + (o - p.1))))
  pure (l.findSome? id)

/-- A write in which poison is a fault. -/
def writeF (t part : Nat) (u : Use) (bank : BankUse) (va : W64) (bs : List Byte) : M Unit := do
  match ← writeP t part u bank va bs with
  | none => pure ()
  | some pa => raise (poisonFault pa)

/-- An aligned address, else MISALIGNED with the access size (R101). -/
def needAlign (va : W64) (size : Nat) : M Unit := if va.toNat % size = 0 then pure () else raise (misFault va size)

/-- A RESERVED_FIELD fault found when an instruction fires (R409). -/
def needField (e : Env) (ok : Bool) : M Unit := if ok then pure () else raise (fltWord .reservedField e)

/-- Who issues: tile, partition and privilege of an instruction's context. -/
def mCtx (e : Env) : M Ctx := fun s => .ok (s.ctx e.key) s

/-- The strand that issues. An instruction without a target in slot o is complete at its acceptance (R361), so nothing of it
waits for the end of the work. -/
def State.who (s : State) (e : Env) : Who :=
  let c := s.ctx e.key
  ⟨e.key, c.ident, e.opIdx, c.part, c.sup, s.classOf e.key⟩

/-- Bytes at a physical address as an LD of class 15 sees them: the earlier stores of its block forwarded (R152). -/
def Env.sees (e : Env) (pa : Nat) (bs : List Byte) : List Byte :=
  leBytes bs.length (forward e.blk e.idx 15 pa bs.length (leNat bs))

/-- The plain loads of class 15 that TMAPSET and CHPUSH make (R399, R411): what an LD sees, the earlier stores of the block
too, though R167 keeps these from the engine reads of a command (DEDUCED, log 84). -/
def plainRead (e : Env) (u : Use) (va : W64) (n : Nat) : M (List Byte) := do
  let c ← mCtx e
  let l ← (piecesOf va n).mapM (fun p => do
    let tr ← mPiece e.tile c.part u .plain p.2.1 p.2.2
    let bs ← mReadTr e.tile u tr p.2.2
    pure (e.sees tr.pa bs))
  pure l.flatten

/-- Do these loads wait: for an earlier store of the block to enter the store buffer, as any load of class 15 (R152), or for
accepted operations on an accumulator that they read (R91)? -/
def plainHold (e : Env) (u : Use) (va : W64) (n : Nat) (s : State) : Option State :=
  let busy := (piecesOf va n).any (fun p => match (s.translateNow e.tile (s.ctx e.key).part (w64 p.2.1) u).1 with
    | .ok tr => !(s.accBusyAt tr.pa p.2.2).isEmpty
    | .error _ => false)
  if !s.orderReady e.key e.idx e.blk 15 true false || busy then some s else none

/-- The bytes that CHPUSH loads; faults as an LD's (R411). -/
def loadBytes (e : Env) (va : W64) (n : Nat) : M (List Byte) := do
  let c ← mCtx e
  plainRead e (useLoad c.sup) va n

/-- The partition whose rows hold a tile (R239). -/
def State.partOfTile (s : State) (t : Nat) : Option Nat :=
  (List.range 8).find? (fun p => s.halfOf p (10 * (t / 256) + t / 16 % 16) (t % 16 / 8))

end Sys2Proof.Machine
end

