-- ==== Sys2Proof/Machine/Counter.lean ====
section
/-! DEFINITION. Group COUNTER: named barriers (R250-R254, R422-R424), permits (R425-R427, R47, R116) and PCTR (R428). -/

namespace Sys2Proof.Machine

/-! ## Barriers -/

/-- Apply an event to a barrier's words (R252): none when it would pass an expectation. -/
def barEvent (b : List W64) (arrivals bytes : Nat) : Option (List W64) :=
  let expA := bitsOf (wAt b 0) 0 32
  let expB := wAt b 1
  let cntA := bitsOf (wAt b 2) 0 32 + arrivals
  let cntB := wAt b 3 + bytes
  if (expA = 0 && expB = 0) || cntA > expA || cntB > expB then none
  else if cntA = expA && cntB = expB then
    some ((((b.set 0 (b.getD 0 0 ^^^ w64 (2 ^ 62))).set 2 (w64 ((wAt b 2 / 2 ^ 32 + 1) % 2 ^ 32 * 2 ^ 32)))).set 3 0)
  else some ((setField b 2 0 32 cntA).set 3 (w64 cntB))

/-- PHCNT and SCOPE of a barrier (R250). -/
def barPhcnt (b : List W64) : Nat := wAt b 2 / 2 ^ 32
def barScope (b : List W64) : Nat := bitsOf (wAt b 0) 56 3

/-- BARRIER_OVERRUN, with the barrier number in EXTRA (R101). -/
def overrun (n : Nat) (src : Nat) : Flt := { code := .barrierOverrun, extra := w64 n, src := src }

/-- An event on a barrier of a tile; an overrun goes to its originator as `f` says. -/
def State.barApply (s : State) (t n arrivals bytes : Nat) (f : State → State) : State :=
  match barEvent (s.bar (48 * t + n)) arrivals bytes with
  | some b => s.setBar (48 * t + n) b
  | none => f s

/-- Write a barrier's expectations (R251): BINIT and the launch preset. -/
def barInit (b : List W64) (expA expB level scope : Nat) (key ltag : W64) : List W64 :=
  let w0 := setBits (setBits (setBits (wAt b 0) 59 3 level) 56 3 scope) 0 32 expA
  [w64 w0, w64 expB, w64 (barPhcnt b * 2 ^ 32), 0, key, ltag]

/-- A strand's value above a level by its launch's format (R22, R252). -/
def aboveLevel (fmt : W64) (level : Nat) (wid : W64) : W64 := widAbove fmt.toNat level wid

/-- BINIT (R422). -/
def execBinit (h : Head) (bnum : BitVec 6) (level scope : BitVec 3) (s : State) : Out :=
  run (fun s => fireSeq h nAB (fun e s =>
    let c := s.ctx e.key
    if e.a.toNat / 2 ^ 32 ≠ 0 || level.toNat > bitsOf c.widfmt.toNat 0 3 then faultOf e (fltWord .reservedField e) s
    else
      let k := 48 * e.tile + bnum.toNat
      (s.setBar k (barInit (s.bar k) e.a.toNat e.b.toNat level.toNat scope.toNat
        (aboveLevel c.widfmt level.toNat c.wid) c.ltag)).finish e.key e.idx 0) s hold15) s

/-- Does a strand match a barrier's KEY and LTAG (R252)? -/
def barMatch (b : List W64) (ltag wid fmt : W64) : Bool :=
  ltag.toNat = wAt b 5 && (aboveLevel fmt (bitsOf (wAt b 0) 59 3) wid).toNat = wAt b 4

/-- BARR on the issuing tile (R423). -/
def execBarr (h : Head) (bnum : BitVec 6) (s : State) : Out :=
  run (fun s => fireSeq h {} (fun e s =>
    let c := s.ctx e.key
    let b := s.bar (48 * e.tile + bnum.toNat)
    if !barMatch b c.ltag c.wid c.widfmt then s.finish e.key e.idx (w64 (1 + barPhcnt b * 2 ^ 32))
    else match barEvent b 1 0 with
      | some b' => (s.setBar (48 * e.tile + bnum.toNat) b').finish e.key e.idx (w64 (barPhcnt b * 2 ^ 32))
      | none => faultOf e (overrun bnum.toNat 0) s) s hold15) s

/-- Packages of the pod (R267). -/
def State.podSize (s : State) : Nat := (bitsOf (s.cfgWord 21) 8 8 + 1) * (bitsOf (s.cfgWord 21) 16 4 + 1)

/-- A tile spec (R409): tile ID and package. -/
def State.tileSpecOk (s : State) (a : W64) : Bool :=
  a.toNat / 2 ^ 18 = 0 && tileOk (bitsOf a.toNat 0 10) && bitsOf a.toNat 10 8 < s.podSize

/-- A remote barrier event leaves on the signal network (R254). -/
def remoteBar (bnum : Nat) (bytes : Option Nat) (e : Env) (s : State) : State :=
  let c := s.ctx e.key
  if !s.tileSpecOk e.a then faultOf e (fltWord .reservedField e) s
  else { s with rembars := s.rembars ++
    [⟨bitsOf e.a.toNat 10 8, bitsOf e.a.toNat 0 10, bnum, bytes, e.key, e.idx, c.ltag, c.wid, c.widfmt, s.who e, s.pkgno⟩] }

/-- The status of a remote event goes back to the strand that sent it, to another package as a notice; a copy's bytes ask for
none. -/
def State.barReply (s : State) (r : RemBar) (v : W64) : State :=
  if r.idx = 128 then s
  else if r.spkg ≠ s.pkgno then
    s.notice r.tile r.spkg (r.key / 16) r.who noticeDone (leBytes 1 r.idx ++ leBytes 8 v.toNat)
  else if s.lives r.who then s.finish r.key r.idx v else s

/-- An overrun at another tile goes to the strand whose event it was (R252), to another package as a notice (R206). -/
def State.barLate (s : State) (r : RemBar) : State :=
  let f := overrun r.bar (if r.idx = 128 then 3 else 6)
  if r.spkg ≠ s.pkgno then s.notice r.tile r.spkg (r.key / 16) r.who noticeFault (faultBytes f)
  else s.asyncTo r.who f

def execBarrR (h : Head) (bnum : BitVec 6) (s : State) : Out :=
  run (fun s => fireSeq h nA (remoteBar bnum.toNat none) s hold15) s

/-- BADD (R423). -/
def execBadd (h : Head) (r : Bool) (bnum : BitVec 6) (s : State) : Out :=
  run (fun s => fireSeq h (if r then nAB else { b := true }) (fun e s =>
    if e.b.toNat / 2 ^ 32 ≠ 0 then faultOf e (fltWord .reservedField e) s
    else if r then remoteBar bnum.toNat (some e.b.toNat) e s
    else if e.b = 0 then s.finish e.key e.idx 0
    else match barEvent (s.bar (48 * e.tile + bnum.toNat)) 0 e.b.toNat with
      | some b' => (s.setBar (48 * e.tile + bnum.toNat) b').finish e.key e.idx 0
      | none => faultOf e (overrun bnum.toNat 0) s) s hold15) s

/-- REMOTE_BARRIER_ARRIVAL (R252, R254): an arrival or a byte addition reaches its tile; its status goes back, an overrun
asynchronously. -/
def execRemoteBarrierArrival (s : State) : Out :=
  run (fun s => match s.focus with
    | .ev x _ _ _ _ =>
      (match s.rembars[x]? with
       | none => s
       | some r =>
         if r.dpkg ≠ s.pkgno then s
         else
           let s := { s with rembars := s.rembars.eraseIdx x }
           let k := 48 * r.tile + r.bar
           let b := s.bar k
           match r.bytes with
           | some 0 => s.barReply r 0
           | some n => (match barEvent b 0 n with
             | some b' => (s.setBar k b').barReply r 0
             | none => s.barLate r)   -- a record of another package, whose bytes are visible here (R163)
           | none =>
             if !barMatch b r.ltag r.wid r.widfmt then s.barReply r (w64 (1 + barPhcnt b * 2 ^ 32))
             else match barEvent b 1 0 with
               | some b' => (s.setBar k b').barReply r (w64 (barPhcnt b * 2 ^ 32))
               | none => s.barLate r)
    | _ => s) s

/-- A phase count is passed (R424). -/
def barPassed (b : List W64) (c : Nat) : Bool :=
  let d := (barPhcnt b + 2 ^ 32 - c % 2 ^ 32) % 2 ^ 32
  1 ≤ d && d ≤ 2 ^ 31 - 1

def barWord (b : List W64) (passed : Bool) : W64 := w64 (passed.toNat + barPhcnt b * 2 ^ 32)

/-- BTEST (R424): an acquire at the barrier's scope when the phase is passed. -/
def execBtest (h : Head) (bnum : BitVec 6) (s : State) : Out :=
  run (fun s => fireSeq h nA (fun e s =>
    let b := s.bar (48 * e.tile + bnum.toNat)
    let p := barPassed b (bitsOf e.a.toNat 0 32)
    (if p then s.cacheAcquire e.tile (barScope b) else s).finish e.key e.idx (barWord b p)) s hold15) s

/-- BWAIT (R424). -/
def execBwait (h : Head) (bnum : BitVec 6) (s : State) : Out :=
  run (fun s => fireSeq h nA (fun e s =>
    let b := s.bar (48 * e.tile + bnum.toNat)
    if barPassed b (bitsOf e.a.toNat 0 32) then (s.cacheAcquire e.tile (barScope b)).finish e.key e.idx (barWord b true)
    else { s with waits := s.waits ++ [⟨e.key, e.idx, .bwait (48 * e.tile + bnum.toNat) (bitsOf e.a.toNat 0 32)⟩] }) s hold15) s

def dropWait (s : State) (w : Wait) : State := { s with waits := s.waits.filter (fun x => !(x.key = w.key && x.idx = w.idx)) }

/-- Waiting BWAITs whose phase has passed complete; they see all of a cycle's events (R253). -/
def State.barWake (s : State) : State :=
  s.waits.foldl (fun s w => match w.k with
    | .bwait k c =>
      let b := s.bar k
      if barPassed b c then ((dropWait s w).cacheAcquire (w.key / 16) (barScope b)).finish w.key w.idx (barWord b true) else s
    | _ => s) s

/-! ## Permits -/

/-- The entry of a permit at a tile's station. -/
def State.permit (s : State) (t num : Nat) : Option Permit := (s.tile t).permits.find? (fun p => p.num = num)
def State.setPermit (s : State) (t : Nat) (p : Permit) : State :=
  s.updTile t (fun x =>
    let ps := if x.permits.any (fun q => q.num = p.num) then x.permits.map (fun q => if q.num = p.num then p else q)
      else x.permits ++ [p]
    { x with permits := ps })
def State.dropPermit (s : State) (t num : Nat) : State :=
  s.updTile t (fun x => { x with permits := x.permits.filter (fun q => q.num ≠ num) })

/-- The permits a context waits for. -/
def State.permitWaits (s : State) (key : Nat) : List Nat :=
  s.waits.filterMap (fun w => if w.key = key then (match w.k with
    | .permit n => some n
    | _ => none) else none)

/-- The context that holds an identity on a tile. -/
def State.ctxOfIdent (s : State) (t : Nat) (id : W64) : Option Nat :=
  ((List.range 16).map (ctxKey t)).find? (fun k => (s.ctx k).ident = id && decide ((s.ctx k).st ≠ .free))

/-- The contexts that stand behind a permit: its holder, the holders of what that one waits for, and so on (R116). -/
def State.permitChain (s : State) (t : Nat) : Nat → Nat → List Nat
  | 0, _ => []
  | n + 1, num =>
    match ((s.permit t num).bind Permit.holder).bind (fun h => s.ctxOfIdent t h.1) with
    | none => []
    | some k => k :: (s.permitWaits k).flatMap (fun m => State.permitChain s t n m)

/-- The final resident holders that a wait on a permit leads to (R241, R116): one that waits only on permits that nobody holds is
final itself, and a pre-empted holder ends its chain. None: nobody holds the permit. -/
def State.permitFinal (s : State) (t : Nat) : Nat → Nat → Option (List Nat)
  | 0, _ => none
  | n + 1, num =>
    ((s.permit t num).bind Permit.holder).map (fun h => match s.ctxOfIdent t h.1 with
      | none => []
      | some k =>
        let l := (s.permitWaits k).filterMap (fun m => State.permitFinal s t n m)
        if l.isEmpty then [k] else l.flatten)

/-- A permit that is free or arrives goes to the oldest waiter, else stands free (R426). -/
def State.permitFree (s : State) (t num : Nat) : State :=
  match s.waits.find? (fun w => w.key / 16 = t && (match w.k with
      | .permit n => n = num
      | _ => false)) with
  | some w => ((dropWait s w).setPermit t ⟨num, some ((s.ctx w.key).ident, w.key)⟩).finish w.key w.idx 0
  | none => s.setPermit t ⟨num, none⟩

def permitNum (a : W64) : Option Nat := if a.toNat / 2 ^ 16 = 0 then some a.toNat else none

/-- PACQ (R426, R47, R116). -/
def execPacq (h : Head) (s : State) : Out :=
  run (fun s => fireSeq h nA (fun e s =>
    let me := (s.ctx e.key).ident
    match permitNum e.a with
    | none => faultOf e (fltWord .reservedField e) s
    | some num =>
      match s.permit e.tile num with
      | some ⟨_, some hd⟩ =>
        if hd.1 = me then faultOf e { code := .permitSelf, extra := w64 num } s
        else if (s.permitChain e.tile 17 num).contains e.key then faultOf e { code := .deadlock, extra := w64 num } s
        else if ((s.tile e.tile).permits.filter (fun p => p.holder.map Prod.fst = some me)).length ≥ 8 then
          faultOf e (fltWord .reservedField e) s
        else { s with waits := s.waits ++ [⟨e.key, e.idx, .permit num⟩] }
      | p =>
        if ((s.tile e.tile).permits.filter (fun p => p.holder.map Prod.fst = some me)).length ≥ 8 then
          faultOf e (fltWord .reservedField e) s
        else if p.isSome then (s.setPermit e.tile ⟨num, some (me, e.key)⟩).finish e.key e.idx 0
        else { s with waits := s.waits ++ [⟨e.key, e.idx, .permit num⟩] }) s hold15) s

/-- PREL (R426). -/
def execPrel (h : Head) (s : State) : Out :=
  run (fun s => fireSeq h nA (fun e s =>
    match permitNum e.a with
    | none => faultOf e (fltWord .reservedField e) s
    | some num =>
      match s.permit e.tile num with
      | some ⟨_, some hd⟩ =>
        if hd.1 = (s.ctx e.key).ident then (s.permitFree e.tile num).finish e.key e.idx 0
        else s.finish e.key e.idx 1
      | some ⟨_, none⟩ => s.finish e.key e.idx 1
      | none =>
        if (s.tile e.tile).permits.length ≥ 16 then s.finish e.key e.idx 2
        else (s.permitFree e.tile num).finish e.key e.idx 0) s hold15) s

/-- The region that a command of a context's task may name: the owned one, no RECONF pending (R333, R400). -/
def ownRegion (e : Env) (s : State) : Except Flt Nat :=
  match (s.ctx e.key).region with
  | none => .error (fltWord .privilege e)
  | some k => if (s.region (4 * e.tile + k)).reconf then .error { code := .reconfPending, extra := w64 k } else .ok k

/-- PREL.G (R426): the issuer's permit becomes a token at a stream-in port. -/
def execPrelG (h : Head) (port : BitVec 2) (s : State) : Out :=
  run (fun s => fireSeq h nA (fun e s =>
    match permitNum e.a, ownRegion e s with
    | none, _ => faultOf e (fltWord .reservedField e) s
    | _, .error f => faultOf e f s
    | some num, .ok k =>
      if ((s.permit e.tile num).bind Permit.holder).map Prod.fst = some (s.ctx e.key).ident then
        ((s.dropPermit e.tile num).updRegion (4 * e.tile + k) (fun r => { r with pend := r.pend ++ [⟨port.toNat, s.who e, some num⟩] })).finish
          e.key e.idx 0
      else s.finish e.key e.idx 1) s hold15) s

/-- PQRY (R426). -/
def execPqry (h : Head) (s : State) : Out :=
  run (fun s => fireSeq h nA (fun e s =>
    match permitNum e.a with
    | none => faultOf e (fltWord .reservedField e) s
    | some num =>
      let waiters := (s.waits.filter (fun w => w.key / 16 = e.tile && (match w.k with
        | .permit n => n = num
        | _ => false))).length
      let v := match s.permit e.tile num with
        | none => 0
        | some ⟨_, none⟩ => 1
        | some ⟨_, some hd⟩ => 2 + hd.1.toNat % 2 ^ 46 * 2 ^ 18
      s.finish e.key e.idx (w64 (v + waiters % 32 * 16))) s hold15) s

/-- PCTR (R428). -/
def execPctr (h : Head) (item : BitVec 3) (s : State) : Out :=
  run (fun s => fireSeq h (if item = 1 || item = 2 then nA else {}) (fun e s =>
    match item.toNat with
    | 0 => s.finish e.key e.idx s.cycle
    | 1 =>
      if e.a.toNat < 48 then
        let b := s.bar (48 * e.tile + e.a.toNat)
        s.finish e.key e.idx (w64 (bitsOf (wAt b 2) 0 32 + (bitOf (wAt b 0) 62).toNat * 2 ^ 32))
      else faultOf e (fltWord .reservedField e) s
    | 2 =>
      if e.a.toNat < 16 then s.finish e.key e.idx ((s.tile e.tile).pmc.getD 0 e.a.toNat)
      else faultOf e (fltWord .reservedField e) s
    | _ => s.finish e.key e.idx (w64 (wrapNat 64 ((s.tile e.tile).mesh.tok.getD 0 (s.classOf e.key))))) s hold15) s

end Sys2Proof.Machine
end

