-- ==== Sys2Proof/Machine/Chan.lean ====
section
/-! DEFINITION. Channels (R173-R187, R410-R413). -/

namespace Sys2Proof.Machine

/-! ## The entry (R175) -/

def Chan.v (c : Chan) : Bool := bitOf (wAt c.w 0) 63
def Chan.est (c : Chan) : Nat := bitsOf (wAt c.w 0) 61 2
def Chan.pv (c : Chan) : Bool := bitOf (wAt c.w 0) 60
def Chan.cv (c : Chan) : Bool := bitOf (wAt c.w 0) 59
def Chan.grp (c : Chan) : Nat := bitsOf (wAt c.w 0) 50 8
def Chan.esize (c : Chan) : Nat := 8 * bitsOf (wAt c.w 0) 33 10
def Chan.bank (c : Chan) : Nat := bitsOf (wAt c.w 0) 28 5
def Chan.segbase (c : Chan) : Nat := bitsOf (wAt c.w 0) 17 11
def Chan.seglen (c : Chan) : Nat := bitsOf (wAt c.w 0) 5 12
def Chan.con (c : Chan) : Nat := c.seglen * 64 / c.esize
def Chan.eps (c : Chan) : Nat := 65536 / c.esize
def Chan.scap (c : Chan) : Nat := bitsOf (wAt c.w 1) 9 7
def Chan.slim (c : Chan) : Nat := bitsOf (wAt c.w 1) 0 7
def Chan.spva (c : Chan) : Nat := wrapNat 64 (sext 55 (bitsOf (wAt c.w 1) 25 39 * 65536))
def Chan.pushseq (c : Chan) : Nat := wAt c.w 2
def Chan.popseq (c : Chan) : Nat := wAt c.w 3
def Chan.occ (c : Chan) : Nat := (c.pushseq + 2 ^ 64 - c.popseq) % 2 ^ 64
def Chan.cap (c : Chan) : Nat := c.con + c.slim * c.eps
def Chan.setW (c : Chan) (i : Nat) (v : Nat) : Chan := { c with w := c.w.set i (w64 v) }
def Chan.fld (c : Chan) (i lo n v : Nat) : Chan := { c with w := setField c.w i lo n v }
/-- Number that the next push carries (R181). -/
def Chan.nextNum (c : Chan) : Nat := (wAt c.w 4 + wAt c.w 5 + 1) % 2 ^ 64

/-- The journal's region and its mirror offset (R266). -/
def State.jbase (s : State) : Nat := s.cfgWord 5
def State.jdelta (s : State) : Nat := s.cfgWord 6

/-- Write `n` bytes to both copies of the journal (R277). -/
def State.wrBoth (s : State) (pa n v : Nat) : State := (s.wr pa n v).wr ((pa + s.jdelta) % 2 ^ 64) n v

/-- Write words `lo` and on of channel `k`'s entry to its mirrors (R277). -/
def State.mirror (s : State) (k lo n : Nat) : State :=
  (List.range n).foldl (fun s i =>
    s.wrBoth (s.jbase + 2 ^ 26 + 64 * k + 8 * (lo + i)) 8 (wAt (s.chan k).w (lo + i))) s

/-- Physical address of the on-chip place of element `n` of channel `k` (R178). -/
def Chan.slotPa (c : Chan) (k n : Nat) : Nat :=
  winPa (k / 64) (c.bank * 0x20000 + c.segbase * 64 + n % c.con * c.esize)

/-- Virtual address of the spill place of element `n` (R178). -/
def Chan.spillVa (c : Chan) (n : Nat) : Nat :=
  let p := n % (c.scap * c.eps)
  (c.spva + 65536 * (1 + p / c.eps) + p % c.eps * c.esize) % 2 ^ 64

/-- Spill writes and fetches: the home's, in the partition space of the home tile (R174, R178). -/
def spillUse (w : Bool) : Use :=
  { rd := !w, wr := w, acc := 3, sup := true, cls := [1], want := 1, own := .dev, unit := true }

/-! ## Locating a channel (R173, R410) -/

/-- Is a physical page page `i` of the region of channel `k`, as the home's partition maps it? -/
def State.regionPage (s : State) (k i pa : Nat) : Bool :=
  match s.partOfTile (k / 64) with
  | none => false
  | some p => match (s.translateNow (k / 64) p (w64 ((s.chan k).spva + 65536 * i)) (spillUse false)).1 with
    | .ok tr => tr.pa = pa
    | .error _ => false

/-- Is a physical page of class CHANNEL, whose first bytes name entry `k`, not the base of a channel region (R173)? It is not
when the entry is valid and its SPVA is mapped elsewhere, or when it is a spill page of any valid entry (DEDUCED, log 72). -/
def State.notBase (s : State) (k pa : Nat) : Bool :=
  let mapped := match s.partOfTile (k / 64) with
    | none => false
    | some p => match (s.translateNow (k / 64) p (w64 (s.chan k).spva) (spillUse false)).1 with
      | .ok _ => true
      | .error _ => false
  ((s.chan k).v && mapped && !s.regionPage k 0 pa) ||
  s.chans.any (fun p => p.2.v && (List.range p.2.scap).any (fun i => s.regionPage p.1 (i + 1) pa))

/-- The channel a channel address names: 64 x home tile + entry. The bits of the descriptor that should be zero are not
looked at: the manual names no outcome for others (R173; DESIGN CHOICE, log 73). -/
def chanLocate (e : Env) (va : W64) : M Nat := do
  let c ← mCtx e
  needAlign va 65536
  let tr ← mTrans e.tile c.part va { rd := true, sup := c.sup, cls := [1], want := 1 }
  let s ← getS
  match s.poisonAt tr.pa 8 with
  | some f => raise f
  | none =>
    let d := s.rd tr.pa 3
    let k := 64 * bitsOf d 0 10 + bitsOf d 16 6
    if s.notBase k tr.pa then raise (classFault va.toNat 1 1)
    else do
      modS (fun s => s.traffic e.tile (s.owner {cls := []}) tr 8 false)
      pure k

/-- What the strand or binding `w` of a tile sends to a home on another tile, or asks back: `n` bytes, metered on the ring port,
or on the mesh where the row is split (R29, R175, R255); an element travels as CHN, an end-of-stream as CTL (R206). `back`: the
element comes from the home. -/
def State.chanSend (s : State) (t : Nat) (w : Who) (k n : Nat) (eos back : Bool) : State :=
  let u := k / 64
  if u = t then s
  else if s.offRing t u then (s.meshReq t (some (w.key % 16, w.cls)) n (!back)).device u (if back then flitsOf n else 1)
  else
    let s := s.meterRing t w.cls n
    if eos then s.sendSeg w t u 3 0 0
    else if back then s.sendSeg w u t 2 (k % 64) n
    else s.sendSeg w t u 2 (k % 64) n

/-- CHANNEL_OWNER (R101). -/
def ownerFault (k : Nat) (va : W64) : Flt := { code := .channelOwner, addr := va, extra := w64 (k % 64) }

def stat (code n : Nat) : W64 := w64 (code + n % 2 ^ 56 * 256)

/-! ## Pushes -/

/-- What a push attempt comes to. -/
inductive PushR where
  | done (st : W64)
  | wait
  deriving DecidableEq, Repr

/-- Once fetched, the spill bytes are undefined (R178). -/
def State.undefBytesVa (s : State) (t p va n : Nat) : State :=
  match s.translateNow t p (w64 va) (spillUse false) with
  | (.ok tr, s) => s.undefBytes tr.pa n
  | (.error _, s) => s

/-- The lowest-numbered spilled element comes into the segment, when that has a free place (R178). A fetch whose translation
fails, or that meets a poisoned spill line, does not complete: the manual gives neither an outcome (DESIGN CHOICE,
log 74). -/
def State.chanFetch (s : State) (k : Nat) : State :=
  let c := s.chan k
  if c.v && c.onchip < c.con && c.onchip < c.occ then
    let num := (c.popseq + c.onchip + 1) % 2 ^ 64
    let marker := c.est ≠ 0 && num = c.pushseq
    match s.partOfTile (k / 64) with
    | none => s
    | some p =>
      (match (if marker then pure [] else readU (k / 64) p (spillUse false) .engine (w64 (c.spillVa num)) c.esize) s with
       | .ok bs s =>
         ((s.undefBytesVa (k / 64) p (c.spillVa num) (if marker then 0 else c.esize)).wrBytes (c.slotPa k num) bs).setChan k
           { c with onchip := c.onchip + 1 }
       | .error _ s => s)
  else s

/-- Must the next element go to spill, where every place is taken? Only between a pop and the fetch that follows it, which comes
first (R178, R182). -/
def Chan.spillFull (c : Chan) : Bool := !(c.onchip = c.occ && c.onchip < c.con) && c.occ - c.onchip ≥ c.scap * c.eps

/-- Place element `n` (R178): on chip when nothing is in spill and there is room, else in spill, whose write may fault. -/
def chanPlace (k n : Nat) (data : List Byte) : M Unit := do
  let s ← getS
  let c := s.chan k
  if c.onchip = c.occ && c.onchip < c.con then
    modS (fun s => (s.wrBytes (c.slotPa k n) data).setChan k { c with onchip := c.onchip + 1 })
  else
    let va := w64 (c.spillVa n)
    match s.partOfTile (k / 64) with
    | none => raise (trFault va.toNat 0 3)
    | some p => do
      match ← writeP (k / 64) p (spillUse true) .engine va data with
      | some _ => raise { code := .dataPoison, addr := va }
      | none => modS (fun s => s.count (k / 64) 13)

/-- Undefined bytes. -/
def drawM (n : Nat) : M (List Byte) := fun s => .ok (s.drawBytes n).1 (s.drawBytes n).2

/-- The home's half of a push or end-of-stream whose producer side is bound (R179, R181, R184). The bytes of an
end-of-stream marker's place are undefined: no rule gives them. -/
def chanAccept (k kind : Nat) (data : List Byte) : M PushR := do
  let s ← getS
  let c := s.chan k
  let num := c.nextNum
  if num ≤ c.pushseq then do
    modS (fun s => s.setChan k ((s.chan k).setW 5 (wAt c.w 5 + 1)))
    pure (.done (stat 1 num))
  else if c.est ≠ 0 then pure (.done 2)
  else if c.occ ≥ c.cap then pure .wait
  else do
    if c.spillFull then modS (fun s => s.chanFetch k)
    if ((← getS).chan k).spillFull then pure .wait
    else do
      let d ← (if kind = 1 then drawM c.esize else pure data)
      chanPlace k num d
      modS (fun s =>
        let c := ((s.chan k).setW 2 num).setW 5 (wAt c.w 5 + 1)
        s.setChan k (if kind = 1 then c.fld 0 61 2 1 else c))
      pure (.done (stat 0 num))

/-- A push or end-of-stream at the home (R183): `d` is what it carries. Kinds: 0 CHPUSH, 1 CHEOS, 2 TSBATCH. -/
def chanPush (e : Env) (k kind : Nat) (va : W64) (size : Nat → Bool) (d : List Byte) : M PushR := do
  let s ← getS
  let c := s.chan k
  let me := (s.ctx e.key).ident
  if !c.v then pure (.done 2)
  else if c.pv && c.w.getD 6 0 ≠ me then raise (ownerFault k va)
  else if !size c.esize then raise (fltWord .reservedField e)
  else if !c.pv && c.est ≠ 0 then pure (.done 2)
  else do
    modS (fun s => s.chanSend e.tile (s.who e) k d.length (kind = 1) false)
    if !c.pv then modS (fun s => s.setChan k (((((s.chan k).fld 0 60 1 1).setW 4 c.pushseq).setW 5 0).setW 6 me.toNat))
    let r ← (fun s => match chanAccept k kind d s with
      | .error f u => .error f (u.setChan k { c with onchip := (u.chan k).onchip })
      | .ok r u => .ok r (if c.pv then u else u.mirror k 0 8) : M PushR)
    match r with
    | .done st => pure (.done st)
    | .wait => do
      modS (fun s => { s with waits := s.waits ++ [⟨e.key, e.idx, .push k kind d va⟩] })
      pure .wait

/-- Set SAMP on every member of a Remontoire group: its valid channels and its work queues (R188). -/
def State.setSamp (s : State) (g v : Nat) : State :=
  { s with
    chans := s.chans.map (fun (p : Nat × Chan) => if p.2.v && p.2.grp = g then (p.1, p.2.fld 1 7 2 v) else p)
    wq := s.wq.map (fun (p : Nat × List W64) => if bitsOf (wAt p.2 0) 49 8 = g then (p.1, setField p.2 0 27 2 v) else p) }

/-- A party of a group completed a wait: SAMP becomes 0 on every member (R188). -/
def State.noteGrp (s : State) (g : Nat) : State := if g = 0 then s else s.setSamp g 0

def State.noteWait (s : State) (k : Nat) : State := s.noteGrp (s.chan k).grp

/-- A push or a pop that waits on a channel. -/
def Wait.onChan (w : Wait) (k : Nat) : Bool :=
  match w.k with
  | .push c _ _ _ => c = k
  | .pop c _ _ _ => c = k
  | _ => false

/-- What a tree command asks of a page: class TREE, an engine access (R234, R444). -/
def useTree (sup wr : Bool) : Use := { rd := true, wr := wr, acc := 3, sup := sup, cls := [2], want := 2 }

/-- The end of a TSBATCH (R448): on OK the leaf's PEND, whose fault is asynchronous; on OK or DUP the path is consumed. -/
def State.batchDone (s : State) (key idx : Nat) (st : W64) : State :=
  let c := s.ctx key
  let va := c.pbpool + w64 (32 * c.pbnode.getD 0 (c.pblen - 1) + 16)
  let u := { useTree c.sup true with own := .work (key % 16) (s.classOf key) }
  let pend : M Unit := do
    let b ← readU (key / 16) c.part u .engine va 8
    writeF (key / 16) c.part u .engine va (leBytes 8 (setBits (leNat b) 18 1 1))
  let s := if bitsOf st.toNat 0 8 = 0 then (match pend s with
      | .ok _ s => s
      | .error f s => s.asyncFault key { f with src := 5 }) else s
  let s := if bitsOf st.toNat 0 8 ≤ 1 then s.updCtx key (fun c => { c with pblen := 0 }) else s
  s.finish key idx st

/-- Answer a push: TSBATCH has more to do. -/
def State.pushed (s : State) (key idx kind : Nat) (st : W64) : State :=
  if kind = 2 then s.batchDone key idx st else s.finish key idx st

/-- Waiting pushes that now have room are accepted, oldest first (R179); `eos`: ends of a stream too. -/
def chanRoom (eos : Bool) : Nat → Nat → State → State
  | 0, _, s => s
  | n + 1, k, s =>
    match s.waits.find? (fun w => match w.k with
        | .push c _ _ _ => c = k
        | _ => false) with
    | some ⟨key, idx, .push c kind d va⟩ =>
      if kind = 1 && !eos then s
      else match chanAccept k kind d s with
       | .ok (.done st) s =>
         chanRoom eos n k (((dropWait s ⟨key, idx, .push c kind d va⟩).noteWait k).pushed key idx kind st)
       | .ok .wait s => s
       | .error f s => (dropWait s ⟨key, idx, .push c kind d va⟩).syncFault key { f with idx := some idx }
    | _ => s

def State.chanRoomAll (s : State) (k : Nat) : State := chanRoom true s.waits.length k s

/-- Waiting pushes of every channel, at their place in the cycle, or the ends of a stream, at theirs (R182). -/
def State.pushWake (s : State) (eos : Bool) : State :=
  let ks := (s.waits.filterMap (fun w => match w.k with
    | .push k _ _ _ => some k
    | _ => none)).dedup
  ks.foldl (fun s k => chanRoom eos s.waits.length k s) s

/-- Complete a push. -/
def donePush (e : Env) (r : PushR) : M Unit :=
  match r with
  | .done st => modS (fun s => s.finish e.key e.idx st)
  | .wait => pure ()

/-- CHPUSH (R411): its bytes are b, or are loaded when it fires; of a closed entry the ESIZE that it last held says how many (DESIGN
CHOICE, log 86). -/
def execChpush (h : Head) (flag : Bool) (s : State) : Out :=
  run (fun s => fireM h nAB (fun e => do
    let k ← chanLocate e e.a
    let d ← (if flag then pure (leBytes 8 e.b.toNat) else do
      needAlign e.b 8
      loadBytes e e.b ((← getS).chan k).esize)
    donePush e (← chanPush e k 0 e.a (fun z => !flag || z = 8) d)) s (fun e s => if flag then hold15 e s else match chanLocate e e.a s with
    | .ok k u => (plainHold e (useLoad (s.ctx e.key).sup) e.b (u.chan k).esize s)
    | .error _ _ => plainHold e (useLoad (s.ctx e.key).sup) e.b 0 s)) s

/-- CHEOS (R184, R411). -/
def execCheos (h : Head) (s : State) : Out :=
  run (fun s => fireM h nA (fun e => do
    let k ← chanLocate e e.a
    donePush e (← chanPush e k 1 e.a (fun _ => true) [])) s hold15) s

/-! ## Pops -/

/-- Arrival of a channel's end on its barrier (R185): unchecked; an overrun goes to the consumer, asynchronously. -/
def State.chanEndArrive (s : State) (k key : Nat) : State :=
  let c := s.chan k
  let n := bitsOf (wAt c.w 0) 43 6
  if bitOf (wAt c.w 0) 49 then s.barApply (k / 64) n 1 0 (fun s => s.asyncFault key (overrun n 6)) else s

/-- The streams that ended in this cycle arrive, in ascending channel-table index (R253). -/
def State.chanEndsNow (s : State) : State :=
  (s.chanEnds.mergeSort (fun a b => decide (a.1 ≤ b.1))).foldl (fun (s : State) p => s.chanEndArrive p.1 p.2) { s with chanEnds := [] }

/-- The next number is the marker (R185). -/
def Chan.atMarker (c : Chan) : Bool := c.est ≠ 0 && (c.popseq + 1) % 2 ^ 64 = c.pushseq

def State.bindCons (s : State) (k : Nat) (me : W64) : State :=
  let c := s.chan k
  if c.cv then s else (s.setChan k ((c.fld 0 59 1 1).setW 7 me.toNat)).mirror k 0 8

/-- The tile of a channel's producer, whose writes a pop of the tile `t` acquires at the smallest scope that contains both
(R160). -/
def State.popScope (s : State) (k t : Nat) : Nat := tileScope t (bitsOf (wAt (s.chan k).w 6) 0 10)

/-- Meet the marker (R185): the first pop or peek to do so ends the phase; its arrival has its place in the cycle (R253).
Receiving the end of the stream acquires (R160). -/
def State.chanMarker (s : State) (k key : Nat) : State :=
  let s := (s.bindCons k (s.ctx key).ident).cacheAcquire (key / 16) (s.popScope k (key / 16))
  let c := s.chan k
  if c.est = 1 then { s.setChan k (c.fld 0 61 2 2) with chanEnds := s.chanEnds ++ [(k, key)] } else s

/-- Take the oldest element off the on-chip segment. -/
def State.chanTake (s : State) (k : Nat) : State :=
  let c := s.chan k
  (s.setChan k { c.setW 3 (c.popseq + 1) with onchip := c.onchip - 1 }).mirror k 3 1

/-- Destination of a pop (R412). -/
def useDest (sup : Bool) : Use := { wr := true, acc := 1, sup := sup, cls := [0, 5] }

/-- Apply a pop or peek whose element stands on chip (R180, R412); its bytes are metered under its strand's class (R239). The
pushes that it makes room for follow at their place in the cycle (R182). -/
def chanPopDo (key idx k : Nat) (peek : Bool) (dst : W64) : M Unit := do
  let s ← getS
  let c := s.chan k
  let x := s.ctx key
  let u := { useDest x.sup with own := .work (key % 16) (s.classOf key) }
  checkU (key / 16) x.part u .plain dst c.esize
  let n := (c.popseq + 1) % 2 ^ 64
  let bs := s.bytes (c.slotPa k n) c.esize
  let bad ← writeP (key / 16) x.part u .plain dst bs
  modS (fun s =>
    let s := s.bindCons k x.ident
    let s := if peek then s else s.chanTake k
    let s := match bad with
      | some pa => s.asyncFault key { poisonFault pa with src := 9 }
      | none => s
    (s.cacheAcquire (key / 16) (s.popScope k (key / 16))).finish key idx (stat 0 n))

/-- CHPOP and CHPEEK at the home (R183, R412). -/
def chanPop (peek : Bool) (e : Env) : M Unit := do
  let k ← chanLocate e e.a
  needAlign e.b 8
  let s ← getS
  let c := s.chan k
  let x := s.ctx e.key
  if c.lost then raise { code := .partFailed, extra := w64 (1 + c.lostTile * 256) }
  else if !c.v then modS (fun s => s.finish e.key e.idx 2)
  else if c.cv && c.w.getD 7 0 ≠ x.ident then raise (ownerFault k e.a)
  else if c.atMarker then modS (fun s => (s.chanMarker k e.key).finish e.key e.idx 3)
  else do
    checkU e.tile x.part (useDest x.sup) .plain e.b c.esize
    modS (fun s => s.chanSend e.tile (s.who e) k c.esize false true)
    if c.onchip > 0 then chanPopDo e.key e.idx k peek e.b
    else modS (fun s => { s with waits := s.waits ++ [⟨e.key, e.idx, .pop k peek e.b e.a⟩] })

def execChpop (h : Head) (s : State) : Out := run (fun s => fireM h nAB (chanPop false) s hold15) s
def execChpeek (h : Head) (s : State) : Out := run (fun s => fireM h nAB (chanPop true) s hold15) s

/-- Waiting pops whose element has arrived on chip, or whose next number is the marker (R180, R182): no earlier than the
cycle after the push. One whose consumer another identity has become meanwhile faults (R177). -/
def State.popWake (s : State) : State :=
  s.waits.foldl (fun s w => match w.k with
    | .pop k peek dst va =>
      let c := s.chan k
      let t := dropWait s w
      if c.cv && c.w.getD 7 0 ≠ (s.ctx w.key).ident then t.syncFault w.key { ownerFault k va with idx := some w.idx }
      else if c.atMarker then ((t.noteWait k).chanMarker k w.key).finish w.key w.idx 3
      else if c.onchip > 0 then
        (match chanPopDo w.key w.idx k peek dst (t.noteWait k) with
         | .ok _ s => s
         | .error f s => s.syncFault w.key { f with idx := some w.idx })
      else s
    | _ => s) s

/-- SPILL_FETCH_COMPLETE (R178). -/
def execSpillFetchComplete (s : State) : Out :=
  run (fun s => match s.focus with
    | .ev t n _ _ _ => s.chanFetch (64 * t + n)
    | _ => s) s

/-! ## Status and growth (R413, R187) -/

/-- A bound identity, or S. -/
def Chan.party (c : Chan) (x : Ctx) : Bool :=
  x.sup || (c.pv && c.w.getD 6 0 = x.ident) || (c.cv && c.w.getD 7 0 = x.ident)

def execChstat (h : Head) (item : BitVec 3) (s : State) : Out :=
  run (fun s => fireM h nA (fun e => do
    let k ← chanLocate e e.a
    let s ← getS
    let c := s.chan k
    modS (fun s => s.chanSend e.tile (s.who e) k 8 false true)
    if !c.v then modS (fun s => s.finish e.key e.idx 0xFFFFFFFFFFFFFFFF)
    else if !c.party (s.ctx e.key) then raise (ownerFault k e.a)
    else
      let v := match item.toNat with
        | 0 => c.occ
        | 1 => c.pushseq
        | 2 => c.popseq
        | _ => c.est + c.slim * 4 + c.scap * 512 + c.pv.toNat * 2 ^ 16 + c.cv.toNat * 2 ^ 17 + c.cap * 2 ^ 32
      modS (fun s => s.finish e.key e.idx (w64 v))) s hold15) s

def execChgrow (h : Head) (s : State) : Out :=
  run (fun s => fireM h nAB (fun e => do
    let k ← chanLocate e e.a
    needField e (1 ≤ e.b.toNat && e.b.toNat ≤ 127)
    modS (fun s => s.chanSend e.tile (s.who e) k 8 false true)
    let s ← getS
    let c := s.chan k
    if !c.v then modS (fun s => s.finish e.key e.idx 2)
    else if !c.party (s.ctx e.key) then raise (ownerFault k e.a)
    else if c.slim ≥ c.scap then modS (fun s => s.finish e.key e.idx (w64 (2 + c.slim * 256)))
    else
      let slim := min c.scap (c.slim + e.b.toNat)
      modS (fun s => ((s.setChan k (c.fld 1 0 7 slim)).chanRoomAll k).finish e.key e.idx (w64 (slim * 256)))) s hold15) s

/-! ## The window (R176) -/

/-- The check of a store of word 0 with V = 1 (R175, R176). -/
def Chan.valid (s : State) (t : Nat) (c : Chan) : Option Flt :=
  let role := s.role t c.bank
  if role = 1 || c.bank ≥ 30 then some { code := .bankRole, extra := w64 c.bank }
  else if bitOf (wAt c.w 0) 58 || bitsOf (wAt c.w 0) 0 5 ≠ 0 || (bitOf (wAt c.w 0) 49 && bitsOf (wAt c.w 0) 43 6 ≥ 48) ||
      c.esize = 0 || c.esize > 4096 || c.seglen = 0 || c.seglen > 2048 || c.segbase + c.seglen > 2048 || c.con = 0 ||
      c.slim > c.scap then some { code := .reservedField }
  else none

/-- CHANNEL_ENTRY_VALIDATE (R176, R190): word 0 with V = 1 is stored when the entry passes. Of the elements that PUSHSEQ and
POPSEQ say it holds, those that fit stand on chip, as those of a running channel may (the manual is silent: DESIGN CHOICE,
log 75). -/
def State.chanValidate (s : State) (k : Nat) (v : W64) : Except Flt State :=
  let c := { s.chan k with w := (s.chan k).w.set 0 v }
  match c.valid s (k / 64) with
  | some f => .error f
  | none => .ok ((s.setChan k { c with onchip := min c.occ c.con, lost := false }).mirror k 0 8)

/-- CHANNEL_CLOSE (R176): V := 0; every waiting push and pop returns CLOSED, a wait completed (R188). -/
def State.chanClose (s : State) (k : Nat) (v : W64) : State :=
  let s := if s.waits.any (fun w => w.onChan k) then s.noteWait k else s
  let s := s.setChan k { s.chan k with w := (s.chan k).w.set 0 v, onchip := 0 }
  s.waits.foldl (fun s w => match w.k with
    | .push c _ _ _ => if c = k then (dropWait s w).finish w.key w.idx 2 else s
    | .pop c _ _ _ => if c = k then (dropWait s w).finish w.key w.idx 2 else s
    | _ => s) s

/-- Reserved bits of word 0, and BNUM 48-63 with BV = 1 (R175). -/
def chanW0Ok (v : W64) : Bool :=
  !bitOf v.toNat 58 && bitsOf v.toNat 0 5 = 0 && !(bitOf v.toNat 49 && bitsOf v.toNat 43 6 ≥ 48)

/-- A store to the channel window (R175, R176). -/
def State.chanStore (s : State) (k i : Nat) (v : W64) : Except Flt State :=
  let c := s.chan k
  if i = 0 then
    if c.v then
      if v.getLsbD 63 then .error { code := .regionBusy }
      else if !chanW0Ok v then .error { code := .reservedField }
      else .ok (s.chanClose k v)
    else if v.getLsbD 63 then s.chanValidate k v
    else if !chanW0Ok v then .error { code := .reservedField }
    else .ok (s.setChan k { c with w := c.w.set 0 v })
  else if c.v then .error { code := .regionBusy }
  else if i = 1 && bitsOf v.toNat 16 9 ≠ 0 then .error { code := .reservedField }
  else .ok (s.setChan k { c with w := c.w.set i (if i = 1 then w64 (setBits v.toNat 7 2 (bitsOf (wAt c.w 1) 7 2)) else v) })

def execChannelEntryValidate (s : State) : Out :=
  run (fun s => match s.focus with
    | .ev t n _ v _ => if (s.chan (64 * t + n)).v then s else (match s.chanValidate (64 * t + n) v with
      | .ok s => s
      | .error _ => s)
    | _ => s) s

def execChannelClose (s : State) : Out :=
  run (fun s => match s.focus with
    | .ev t n _ _ _ =>
      let k := 64 * t + n
      if (s.chan k).v then s.chanClose k (w64 (setBits (wAt (s.chan k).w 0) 63 1 0)) else s
    | _ => s) s

end Sys2Proof.Machine
end

