-- ==== Sys2Proof/Machine/Perform.lean ====
section
/-! DEFINITION. Stores at their home after commit (R152, R382 check 7, R385, R387, R388), and stores to tile windows (R77,
R87, R91, R92, R176, R250). -/

namespace Sys2Proof.Machine

/-! ## Window stores -/

/-- A word with `n` bytes at byte `o` replaced. -/
def splice (w : W64) (o n : Nat) (v : W64) : W64 := w64 (setBits w.toNat (8 * o) (8 * n) v.toNat)

/-- Store a word of the accumulator window (R91); ROWP and P-buffer status ignore stores, and so does an unknown tag. The P
buffer's contents take a store: R91 puts them in the window and has only their status ignore it, while R74 lists no store
among what changes them (DESIGN CHOICE, log 76). -/
def State.accStore (s : State) (t off : Nat) (v : W64) : State :=
  let lo : BitVec 32 := v.extractLsb' 0 32
  let hi : BitVec 32 := v.extractLsb' 32 32
  if off < 0x820000 then
    let i := off % 0x8000 / 4
    s.updAcc (4 * t + (off - 0x800000) / 0x8000) (fun a => { a with c := (a.c.put i lo).put (i + 1) hi })
  else if off < 0x821800 then
    let o := off - 0x820000
    let i := o % 0x200 / 4
    s.updAcc (4 * t + o / 0x600) (fun a =>
      match o % 0x600 / 0x200 with
      | 0 => { a with mx := (a.mx.put i lo).put (i + 1) hi }
      | 1 => { a with sm := (a.sm.put i lo).put (i + 1) hi }
      | _ => { a with al := (a.al.put i lo).put (i + 1) hi })
  else if off < 0x826000 then
    let i := (off - 0x822000) / 2
    s.updTile t (fun x =>
      let m := (List.range 4).foldl (fun m j => m.put (i + j) (v.extractLsb' (16 * j) 16)) x.pb
      { x with pb := m })
  else if off < 0x826008 then s
  else (List.range 4).foldl (fun s k =>
    let g := bitsOf v.toNat (4 * k) 4
    if g = 1 || g = 14 then s.updAcc (4 * t + k) (fun a => { a with tag := g }) else s) s

/-- Store a word of the element window (R87). -/
def State.elemStore (s : State) (t off : Nat) (v : W64) : State :=
  let k := 64 * t + (off - 0xA00000) / 128
  let el := s.elem k
  let o := off % 128
  if o < 0x40 then s.setElem k { el with e := el.e.put (o / 8) v }
  else if o < 0x60 then s.setElem k { el with k := el.k.put ((o - 0x40) / 8) v }
  else if o = 0x60 then
    s.setElem k { el with
      etag := (List.range 8).foldl (fun m n => m.put n (bitsOf v.toNat (4 * n) 4)) el.etag
      ktag := (List.range 4).foldl (fun m n => m.put n (bitsOf v.toNat (32 + 4 * n) 4)) el.ktag }
  else if o = 0x68 then s.setElem k { el with p := v.extractLsb' 0 8 }
  else s

/-- Store a word of the context window (R77): G0's word ignores it. -/
def State.gStore (s : State) (t off : Nat) (v : W64) : State :=
  let n := off % 512 / 8
  if n = 0 then s else s.updCtx (ctxKey t ((off - 0xB00000) / 512)) (fun c => { c with g := c.g.put n v })

/-- Store a word of the barrier window (R250). -/
def State.barStore (s : State) (t off : Nat) (v : W64) : Except Flt State :=
  let k := 48 * t + (off - 0xE01000) / 64
  let i := off % 64 / 8
  if i = 0 && (bitOf v.toNat 63 || bitsOf v.toNat 32 24 ≠ 0 || bitsOf v.toNat 56 3 ≥ 5 || bitsOf v.toNat 59 3 = 7) then
    .error { code := .reservedField }
  else if i ≥ 6 then (if v = 0 then .ok s else .error { code := .reservedField })
  else .ok (s.setBar k ((s.bar k).set i v))

/-- A store to a window offset at or above 0x80_0000, as one access of `n` bytes at most 8 (R126). -/
def State.winStore (s : State) (t off n : Nat) (v : W64) : Except Flt State :=
  let o8 := off / 8 * 8
  let w := splice (s.winWord t o8) (off % 8) n v
  if s.winBusy t off n then .error { code := .regionBusy }
  else if off < 0xA00000 then .ok (s.accStore t o8 w)
  else if off < 0xB00000 then .ok (s.elemStore t o8 w)
  else if off < 0xC00000 then .ok (s.gStore t o8 w)
  else if off < 0xC0C000 then
    let c := csrOfOff off
    if !csrRw c then .error { code := .privilege, addr := w64 c }
    else if !csrValueOk c w then .error { code := .reservedField, addr := w64 c }
    else if c = 0x800 then
      (match s.roleFault t (s.tile t).bankrole.toNat w.toNat with
       | some b => .error { code := .bankRole, extra := w64 b }
       | none => .ok (s.setBankrole t w.toNat))
    else .ok (s.csrWrite (16 * t) c w)
  else if off < 0xC0D000 then .ok (s.wr (winPa t off) n v.toNat)
  else if off < 0xE01000 then s.chanStore (64 * t + (off - 0xE00000) / 64) (off % 64 / 8) w
  else if off < 0xE01C00 then s.barStore t o8 w
  else .ok s

/-- A window store as an event of its own: it takes effect when the window admits it. -/
def winEvent (lo hi : Nat) (s : State) : State :=
  match s.focus with
  | .ev t off n v _ =>
    if lo ≤ off && off < hi && 1 ≤ n && n ≤ 8 && off % 8 + n ≤ 8 && windowOk off then
      (match s.winStore t off n v with
       | .ok s => s
       | .error _ => s)
    else s
  | _ => s

def execContextWindowStore (s : State) : Out := run (winEvent 0xB00000 0xB02000) s
def execElementWindowStore (s : State) : Out := run (winEvent 0xA00000 0xA02000) s
def execAccumulatorWindowStore (s : State) : Out := run (winEvent 0x800000 0x826010) s
def execBarrierWindowStore (s : State) : Out := run (winEvent 0xE01000 0xE02000) s

/-! ## Performing a store -/

/-- Does `x` wait for the store `e` of its block, whose token it took (R153)? -/
def StEnt.waitsFor (x e : StEnt) : Bool := x.after = some e.idx && x.at_ = e.at_

/-- May entry `n` of a store queue be performed now (R152, R153, R156)? -/
def sqReady (sq : List StEnt) (n : Nat) : Bool :=
  match sq[n]? with
  | none => false
  | some x => (sq.take n).all (fun e => !(clash e.cls x.cls || x.rel.isSome)) && sq.all (fun e => !x.waitsFor e)

/-- Order of the class, and arrival at one tile window in issue order (R126). -/
def State.storeReady (s : State) (key n : Nat) : Bool :=
  let sq := (s.ctx key).sq
  sqReady sq n && (match sq[n]? with
    | none => false
    | some x => (s.windowOf x.pa).isNone || (sq.take n).all (fun e => s.windowOf e.pa != s.windowOf x.pa))

/-- Does a store change the role of a bank with an access in flight (R96)? -/
def State.roleHeld (s : State) (e : StEnt) : Bool :=
  match s.paKind e.pa with
  | .window t off => 0xC00000 ≤ off && off < 0xC0C000 && csrOfOff off = 0x800 && e.kind = .st &&
      s.rolesBusy t (splice (s.winWord t (off / 8 * 8)) (off % 8) e.size e.val).toNat
  | _ => false

/-- Earlier stores of the tile to a line that are not yet performed (R388). -/
def State.lineBusy (s : State) (key n line : Nat) : Bool :=
  let own := ((s.ctx key).sq.take n).any (fun e => e.kind = .st && e.pa / 128 = line)
  own || (List.range 16).any (fun c => let k := ctxKey (key / 16) c
    k ≠ key && (s.ctx k).sq.any (fun e => e.kind = .st && e.pa / 128 = line))

/-- A request for a line that is cleaned: what it wrote is written back, and for INVAL it allocates the line no more. -/
def SReq.clean (drop : Bool) (line : Nat) (r : SReq) : SReq :=
  if r.line = line then { r with wr := false, alloc := r.alloc && !drop } else r

/-- A slice line written back, through the tile beside the slice (R257), and, for INVAL, dropped; the requests for it that the
slice has not served yet go with it (R388). -/
def State.sliceClean (s : State) (pa : Nat) (drop : Bool) : State :=
  let k := homeSlice pa
  let sl := s.slice k
  let line := pa / 128
  let f := SReq.clean drop line
  let dirty := sl.lines.getD false line || (sl.arr ++ sl.miss ++ sl.spill).any (fun r => r.line = line && r.wr)
  let s := if dirty then s.device (sliceTile k) 1 else s
  s.setSlice k { sl with
    lines := if drop then sl.lines.del line else if (sl.lines.get? line).isSome then sl.lines.put line false else sl.lines
    arr := sl.arr.map f
    miss := sl.miss.map f
    spill := sl.spill.map f }

/-- A store of a strand changes nothing for the matrix operations that it has under way: they keep the bytes as they were
(R360). -/
def State.mxHide (s : State) (key pa n : Nat) : State :=
  if (s.tile (key / 16)).mrun.isEmpty then s
  else
    let old := (List.range n).map (fun i => (pa + i, s.byte (pa + i)))
    s.updTile (key / 16) (fun x => { x with mrun := x.mrun.map (fun (o : MOp) =>
      if o.sent || o.idx.isNone || o.who.key ≠ key then o
      else { o with hide := o.hide ++ old.filter (fun c => !o.hide.any (fun d => d.1 = c.1)) }) })

/-- What a store does at its home: the faults here are asynchronous, SRC 9 (R382). -/
def State.performEnt (s : State) (key : Nat) (e : StEnt) : State :=
  let t := key / 16
  let fault := fun (f : Flt) => s.asyncFault key { f with src := 9 }
  let own := some (key % 16, s.classOf key)
  let tr : Tr := ⟨e.pa, 0, !e.sliced, if e.ms then 0x80 else 0⟩
  match s.paKind e.pa with
  | .hole => s
  | .slow _ => (match e.kind with
    | .st => fault (permFault e.va.toNat 1)
    | _ => if s.poisonPages.contains (e.pa / 65536) then fault (poisonFault e.pa) else s)
  | .window wt off =>
    let s := s.traffic t own tr e.size true
    if storageOff off then
      (match s.poisonAt e.pa e.size with
       | some f => s.asyncFault key { f with src := 9 }
       | none =>
         match e.kind with
         | .st => (s.mxHide key e.pa e.size).wr e.pa e.size e.val.toNat
         | .tagset => (s.setFull e.pa true).tagWake (s.waits.length + 1) e.pa
         | .tagclr => (s.setFull e.pa false).tagWake (s.waits.length + 1) e.pa
         | _ => s)
    else (match e.kind with
      | .st => (match s.winStore wt off e.size e.val with
        | .ok s => s
        | .error f => s.asyncFault key { f with
            src := 9
            addr := if f.code = .regionBusy || f.code = .bankRole then e.va else f.addr
            extra := if f.code = .reservedField || f.code = .privilege then e.word else f.extra })
      | _ => s)
  | .hbm =>
    match s.poisonAt e.pa e.size with
    | some f => fault f
    | none =>
      match e.kind with
      | .st => (((s.traffic t own tr e.size true).wayTouch tr e.size).mxHide key e.pa e.size).storeBytes t e.pa e.size e.val.toNat
      | .flush => if e.sliced then (s.meshReq t own 0 false).sliceClean e.pa false else s
      | .inval =>
        let s := { s with ways := s.ways.del (e.pa / 128) }
        if e.sliced then
          { (s.meshReq t own 0 false).sliceClean e.pa true with tcache := s.tcache.filter (fun l => !(l.tile = t && l.line = e.pa / 128)) }
        else s
      | _ => s

/-- Perform entry `n` of a context's store queue. -/
def State.performAt (s : State) (key n : Nat) : State :=
  match (s.ctx key).sq[n]? with
  | none => s
  | some e => (s.updCtx key (fun c => { c with sq := c.sq.eraseIdx n })).performEnt key e

/-- Perform a context's whole store queue, in order. -/
def State.drainSq (s : State) (key : Nat) : State :=
  (s.ctx key).sq.foldl (fun s _ => s.performAt key 0) s

/-- STORE_PERFORM (R150, R152): a committed store is performed at its home. -/
def execStorePerform (s : State) : Out :=
  run (fun s => match s.focus with
    | .ev t c n _ _ =>
      let key := ctxKey t c
      match (s.ctx key).sq[n]? with
      | none => s
      | some e =>
        if s.storeReady key n && !s.roleHeld e && !((e.kind = .flush || e.kind = .inval) && s.lineBusy key n (e.pa / 128)) then
          s.performAt key n
        else s
    | _ => s) s

end Sys2Proof.Machine
end

