-- ==== Sys2Proof/Machine/Launch.lean ====
section
/-! DEFINITION. Work queues and launches (R15-R26, R31, R39-R41, R193-R199, R243, R244, R414): submission, the dispatcher's
take and its checks, placement, the completion word and the end of a launch. -/

namespace Sys2Proof.Machine

/-! ## Work queues -/

def qPart (q : List W64) : Nat := bitsOf (wAt q 0) 57 3
def qSupq (q : List W64) : Bool := bitOf (wAt q 0) 26
def qSlim (q : List W64) : Nat := bitsOf (wAt q 0) 29 7
def qOcc (q : List W64) : Nat :=
  (wAt q 2 + 2 ^ 64 - (if bitOf (wAt q 0) 62 then wAt q 4 else wAt q 3)) % 2 ^ 64
def qCap (q : List W64) : Nat := 512 * (1 + qSlim q)
/-- Has the queue room and is the submitting side enabled (R195)? -/
def qOpen (q : List W64) (host : Bool) : Bool := qV q && bitOf (wAt q 0) (if host then 61 else 60) && qOcc q < qCap q
/-- Physical address of record `n` (R195). -/
def qSlot (q : List W64) (n : Nat) : Nat := bitsOf (wAt q 1) 16 36 * 65536 + 128 * ((n + 2 ^ 64 - 1) % 2 ^ 64 % (512 * (1 + qScap q)))

def State.setQueue (s : State) (n : Nat) (q : List W64) : State := { s with wq := s.wq.put n q }

def qJrn (q : List W64) : Bool := bitOf (wAt q 0) 62

/-- Where the journal is read: the other copy when one meets an error (R277). -/
def State.jPa (s : State) (pa : Nat) : Nat := if s.poisoned pa then (pa + s.jdelta) % 2 ^ 64 else pa

/-- Has the record an end mark (R277)? -/
def State.ended (s : State) (n num : Nat) : Bool :=
  let bit := num % (512 * (1 + qScap (s.queueE n)))
  bitOf (s.rd (s.jPa (s.jbase + 8192 * n + bit / 8)) 1) (bit % 8)

/-- Set or clear the end mark of a record in both copies of the journal (R277). -/
def State.endMark (s : State) (n num : Nat) (v : Bool) : State :=
  let q := s.queueE n
  let bit := num % (512 * (1 + qScap q))
  if !qJrn q then s
  else s.wrBoth (s.jbase + 8192 * n + bit / 8) 1
    (setBits (s.rd (s.jPa (s.jbase + 8192 * n + bit / 8)) 1) (bit % 8) 1 v.toNat)

/-- Accept a record (R195, R277): its number, and the state after. -/
def State.qAccept (s : State) (n : Nat) (rcd : List W64) : Nat × State :=
  let q := s.queueE n
  let num := (wAt q 2 + 1) % 2 ^ 64
  let s := s.wrWords (qSlot q num) rcd
  let s := if qJrn q then (s.wrWords ((qSlot q num + s.jdelta) % 2 ^ 64) rcd).endMark n num false else s
  (num, s.setQueue n (q.set 2 (w64 num)))

/-- Waiting ENQWs of a queue, in order of arrival: accepted while there is room, CLOSED when the queue is invalid (R196). -/
def State.enqwWake (s : State) (n : Nat) : State :=
  s.waits.foldl (fun s w => match w.k with
    | .enqw q rcd =>
      if q ≠ n then s
      else if !qV (s.queueE n) then (dropWait s w).finish w.key w.idx 2
      else if qOpen (s.queueE n) false then
        let (num, s) := ((dropWait s w).noteGrp (bitsOf (wAt (s.queueE n) 0) 49 8)).qAccept n rcd
        s.finish w.key w.idx (stat 0 num)
      else s
    | _ => s) s

/-- The record of ENQ, ENQW and LAUNCH, and its queue (R193, R414). -/
def enqRead (e : Env) : M (List W64) := do
  let c ← mCtx e
  let s ← getS
  let q := s.queueE e.b.toNat
  if e.b.toNat ≥ 8192 || !qV q || (!c.sup && (c.part ≠ qPart q || qSupq q)) then raise { code := .queueId, extra := e.b }
  needAlign e.a 128
  let bs ← readU e.tile c.part (useERead c.sup [0] 0) .engine e.a 128
  pure ((List.range 16).map (fun i => w64 (leNat ((bs.drop (8 * i)).take 8))))

/-- Submit a record from a device strand: accepted, or answered by `full`. -/
def enqSubmit (e : Env) (rcd : List W64) (full : State → State) : M Unit :=
  modS (fun s =>
    if qOpen (s.queueE e.b.toNat) false then
      let (num, s) := s.qAccept e.b.toNat rcd
      s.finish e.key e.idx (stat 0 num)
    else full s)

def execEnq (h : Head) (s : State) : Out :=
  run (fun s => fireM h nAB (fun e => do enqSubmit e (← enqRead e) (fun s => s.finish e.key e.idx 1)) s hold15) s
def execEnqw (h : Head) (s : State) : Out :=
  run (fun s => fireM h nAB (fun e => do
    let rcd ← enqRead e
    enqSubmit e rcd (fun s => { s with waits := s.waits ++ [⟨e.key, e.idx, .enqw e.b.toNat rcd⟩] })) s hold15) s
/-- LAUNCH (R414): the issuer's tag becomes the lowest empty predecessor of the copy. -/
def execLaunch (h : Head) (s : State) : Out :=
  run (fun s => fireM h nAB (fun e => do
    let rcd ← enqRead e
    let c ← mCtx e
    match [9, 10, 11, 12].find? (fun j => rcd.getD j 0 = 0) with
    | none => modS (fun s => s.finish e.key e.idx 3)
    | some j => enqSubmit e (rcd.set j c.ltag) (fun s => s.finish e.key e.idx 1)) s hold15) s

/-- HOST_SUBMISSION (R268, R195, R196): an aligned 128-byte write at a queue's place; any other is refused and counted. -/
def execHostSubmission (s : State) : Out :=
  run (fun s => match s.focus with
    | .ev off _ _ _ data =>
      let n := off / 128 % 8192
      let q := s.queueE n
      if data.length = 128 && off % 128 = 0 && qOpen q true then
        (s.qAccept n ((List.range 16).map (fun i => w64 (leNat ((data.drop (8 * i)).take 8))))).2
      else (List.range ((off % 128 + max 1 data.length + 127) / 128)).foldl (fun (s : State) i =>
        let q := s.queueE ((n + i) % 8192)
        s.setQueue ((n + i) % 8192) (q.set 5 (w64 (wAt q 5 + 1)))) s
    | _ => s) s

/-! ## The launch record (R15-R23, R31) -/

def rcdExt (r : List W64) (i : Nat) : Nat := bitsOf (wAt r (2 + i / 2)) (32 * (i % 2)) 32
def rcdFcnt (r : List W64) : Nat := bitsOf (wAt r 1) 0 3
def rcdTbl (r : List W64) : Nat := bitsOf (wAt r 1) 39 3
def rcdPlace (r : List W64) (i : Nat) : Nat := bitsOf (wAt r 1) (42 + 3 * i) 3
def rcdPart (r : List W64) : Nat := bitsOf (wAt r 8) 0 3
def rcdSupv (r : List W64) : Bool := bitOf (wAt r 8) 11
def rcdTag (r : List W64) : W64 := r.getD 15 0
/-- Strands of a task (R23) and tasks of the launch. -/
def rcdStrands (r : List W64) : Nat := ((List.range (rcdTbl r)).map (rcdExt r)).prod
def rcdTasks (r : List W64) : Nat := (((List.range (rcdFcnt r)).filter (fun i => i ≥ rcdTbl r)).map (rcdExt r)).prod

/-- Supervisor tiles of a partition, in order of their field (R31, R238). -/
def State.supTiles (s : State) (p : Nat) : List Nat :=
  ((List.range 4).map (fun j => bitsOf (s.partW p 7) (16 * j) 16)).filterMap (fun f =>
    if bitOf f 15 && !(s.tile (f % 1024)).failed then some (f % 1024) else none)

/-- The check of a record taken from queue `q` (R15). -/
def State.rcdOk (s : State) (q : List W64) (r : List W64) : Bool :=
  let fmt := wAt r 1
  let n := rcdFcnt r
  let sch := wAt r 8
  let used := fun i => decide (i < n)
  wAt r 0 % 64 = 0 && fmt / 2 ^ 60 = 0 && 1 ≤ n && n ≤ 6 && rcdTbl r ≤ n &&
  (List.range 6).all (fun i =>
    let w := bitsOf fmt (3 + 6 * i) 6
    let p := rcdPlace r i
    let x := rcdExt r i
    if used i then 1 ≤ w && 1 ≤ x && x ≤ 2 ^ w && (if i < rcdTbl r then p = 0 else 1 ≤ p && p ≤ 5)
    else w = 0 && p = 0 && x = 0) &&
  ((List.range 6).map (fun i => bitsOf fmt (3 + 6 * i) 6)).sum ≤ 64 && rcdStrands r ≤ 16 &&
  sch / 2 ^ 13 = 0 && !bitOf sch 7 && !bitOf sch 3 && (s.asnOf (rcdPart r)).isSome && rcdPart r = qPart q &&
  rcdSupv r = qSupq q &&
  (!rcdSupv r || ((List.range n).all (fun i => rcdPlace r i ≤ 1 || rcdPlace r i = 5) && !(s.supTiles (rcdPart r)).isEmpty)) &&
  (let b := wAt r 13
   bitsOf b 8 24 = 0 && !bitOf b 6 && (!bitOf b 7 || bitsOf b 0 6 < 48)) &&
  wAt r 14 % 8 = 0 && wAt r 15 ≠ 0

/-! ## Completion words (R19) -/

/-- Tiles of a partition that have not failed, ascending (R25, R239, R275). -/
def State.partTiles (s : State) (p : Nat) : List Nat :=
  (List.range 1024).filter (fun t => tileOk t && !(s.tile t).failed &&
    bitOf (s.partW p 1 + s.partW p 2 * 2 ^ 64) (2 * (10 * (t / 256) + t / 16 % 16) + t % 16 / 8))

/-- The ports of the tiles as another state has them. -/
def State.portsOf (s u : State) : State :=
  { s with tiles := s.tiles.map (fun p => (p.1, { p.2 with mesh := (u.tile p.1).mesh, ring := (u.tile p.1).ring })) }

/-- Write a completion word through the partition's space; it crosses no port (R475). A word that is misaligned or cannot be
translated is not written (log 22). -/
def State.writeCplt (s : State) (part : Nat) (cplt : W64) (nstr fcode status : Nat) : State :=
  if cplt.toNat % 8 ≠ 0 || cplt = 0 then s
  else match (writeU (((s.partTiles part).head?).getD 0) part (useEWrite true [0, 5] 0) .engine cplt
      (leBytes 8 (nstr % 2 ^ 32 * 2 ^ 32 + fcode * 256 + status))) s with
    | .ok _ s' => s'.portsOf s
    | .error _ s' => s'.portsOf s

/-! ## The dependence table (R243, R244) -/

def Dep.st (d : Dep) : Nat := bitsOf (wAt d.w 0) 60 3
def Dep.pend (d : Dep) : Nat := bitsOf (wAt d.w 0) 57 3
def Dep.canc (d : Dep) : Bool := bitOf (wAt d.w 0) 56
def Dep.part (d : Dep) : Nat := bitsOf (wAt d.w 0) 53 3
def Dep.qnum (d : Dep) : Nat := bitsOf (wAt d.w 0) 32 13
def Dep.tag (d : Dep) : W64 := d.w.getD 1 0
def Dep.recno (d : Dep) : Nat := wAt d.w 3
def Dep.tasks (d : Dep) : Nat := bitsOf (wAt d.w 4) 0 32
def Dep.retired (d : Dep) : Nat := bitsOf (wAt d.w 4) 32 32
def Dep.nstr (d : Dep) : Nat := wAt d.w 5
def Dep.fld (d : Dep) (i lo n v : Nat) : Dep := { d with w := setField d.w i lo n v }
def State.setDep (s : State) (i : Nat) (d : Dep) : State := { s with deps := s.deps.put i d }
def State.updDep (s : State) (i : Nat) (f : Dep → Dep) : State :=
  match s.deps.get? i with
  | none => s
  | some d => s.setDep i (f d)

/-- Effective priority of a launch's unbound tasks (R43): PRIO clamped to the ceiling, raised by age. -/
def State.depPrio (s : State) (d : Dep) : Nat :=
  min (bitsOf (s.partW d.part 0) 60 3) (bitsOf (wAt d.rcd 8) 4 3 + d.aged)

/-- RETSEQ passes the records whose launches have ended, in order (R194, R199): at most the given number of them. -/
def State.retPass (s : State) (n : Nat) : Nat → State
  | 0 => s
  | k + 1 =>
    let q := s.queueE n
    let next := (wAt q 4 + 1) % 2 ^ 64
    if wAt q 4 = wAt q 3 || s.deps.any (fun p => p.2.qnum = n && p.2.recno = next) then s
    else State.retPass (s.setQueue n (q.set 4 (w64 next))) n k

/-- RETSEQ becomes the largest n such that the launches of records 1 to n have all ended. -/
def State.retAdvance (s : State) (n : Nat) : State :=
  s.retPass n ((wAt (s.queueE n) 3 + 2 ^ 64 - wAt (s.queueE n) 4) % 2 ^ 64)

/-- Tasks of the launch on this package (R26): those whose pod-level unit is this package's number. -/
def mixed (r : List W64) (fields : List Nat) (level : Nat) : Nat → Nat := fun v =>
  -- v: value above level TBL; fields at `level` joined in mixed radix, the lower-numbered less significant
  let base := widOff (wAt r 1) (rcdTbl r)
  (fields.filter (fun i => rcdPlace r i = level)).foldr (fun i acc =>
    bitsOf v (widOff (wAt r 1) i - base) (widW (wAt r 1) i) + rcdExt r i * acc) 0
def upFields (r : List W64) : List Nat := (List.range (rcdFcnt r)).filter (fun i => i ≥ rcdTbl r)
def placedAt (r : List W64) (level : Nat) : Bool := (upFields r).any (fun i => rcdPlace r i = level)
def State.taskHere (s : State) (r : List W64) (v : Nat) : Bool :=
  !placedAt r 5 || mixed r (upFields r) 5 v % s.podSize = s.pkgno

/-- The `k`-th task value in ascending order (R39 step 4). -/
def taskValue (r : List W64) (k : Nat) : Nat :=
  let base := widOff (wAt r 1) (rcdTbl r)
  ((upFields r).foldl (fun (st : Nat × Nat) i =>
    (st.1 + st.2 % rcdExt r i * 2 ^ (widOff (wAt r 1) i - base), st.2 / rcdExt r i)) (0, k)).1

def State.hereCount (s : State) (r : List W64) : Nat :=
  if placedAt r 5 then ((List.range (rcdTasks r)).filter (fun k => s.taskHere r (taskValue r k))).length else rcdTasks r

/-- What an entry that a warm reset cleared hands on to the new one of the same record, and the entries that still wait for theirs
(R280): that a predecessor ended other than DONE (R244), or the strands of its run, its replays and the last failure. -/
def carry (old : List Dep) (d : Dep) : Dep × List Dep :=
  match old.find? (fun p => p.qnum = d.qnum && p.recno = d.recno) with
  | none => (d, old)
  | some p =>
    (if p.canc then (d.fld 0 56 1 1).fld 0 60 3 0
      else if p.st = 0 then d else { d with ids := p.ids, replays := p.replays + 1, cause := p.cause, carried := true },
     old.filter (fun x => !(x.qnum = d.qnum && x.recno = d.recno)))

/-- Enter a record (R243, R244): the lowest free index, its live predecessors, what a warm reset has kept for it (R280). -/
def State.depEnter (s : State) (qn recno : Nat) (r : List W64) : State :=
  match s.deps.fresh 0 4096 with
  | none => s
  | some i =>
    let preds := [9, 10, 11, 12].map (fun j =>
      if r.getD j 0 = 0 then none else (s.deps.find? (fun p => p.2.tag = r.getD j 0)).map Prod.fst)
    let pend := (preds.filter Option.isSome).length
    let pidx := ((List.range 4).map (fun j => ((preds.getD j none).map (fun x => 32768 + x)).getD 0 * 2 ^ (16 * j))).sum
    let x := carry s.carried
      { w := [w64 (2 ^ 63 + (if pend = 0 then 1 else 0) * 2 ^ 60 + pend * 2 ^ 57 + rcdPart r * 2 ^ 53 + qn * 2 ^ 32),
          rcdTag r, w64 pidx, w64 recno, w64 (s.hereCount r), 0, r.getD 14 0, 0]
        rcd := r, since := s.cycle, aged := 0, started := [], homes := [], cause := .trap, ending := none, replays := 0,
        ids := [], rebind := [] }
    ({ s with carried := x.2 } : State).setDep i x.1

/-- A record of a queue: from the other copy of the journal when one meets an error (R277). -/
def State.qRecord (s : State) (n num : Nat) : List W64 :=
  let q := s.queueE n
  s.rdWords (if qJrn q then s.jPa (qSlot q num) else qSlot q num) 16

/-- A queue's priority in the arbitration (R39 step 2, R198): the PRIO of its next record, clamped to its partition's
ceiling. -/
def State.qPrio (s : State) (n : Nat) : Option Nat :=
  let q := s.queueE n
  if qV q && wAt q 2 ≠ wAt q 3 then
    let sch := wAt (s.qRecord n ((wAt q 3 + 1) % 2 ^ 64)) 8
    some (min (bitsOf (s.partW (qPart q) 0) 60 3) (bitsOf sch 4 3))
  else none

/-- The queue last visited at a level of a partition, and how much of its weight is used; none: 8,192. -/
def State.lastTurn (s : State) (k : Nat) : Nat × Nat := s.rr.getD (8192, 64) k

/-- The queue of a level and partition whose turn it is (R198): the one being visited until its weight is used up, then the
next in ascending number. -/
def State.turnOf (s : State) (level part : Nat) (mine : List Nat) : Option Nat :=
  let t := s.lastTurn (8 * level + part)
  if mine.contains t.1 && t.2 < bitsOf (wAt (s.queueE t.1) 0) 43 6 then some t.1
  else (mine.find? (fun n => n > t.1)).or mine.head?

/-- The dispatcher's choice, with its level: the highest; the partitions of one level take turns, a record each, the next in
ascending number after the one last served (DESIGN CHOICE, log 62: R39 orders only the queues of one level and partition). -/
def State.nextTurn (s : State) : Option (Nat × Nat) :=
  let ready := s.wq.filterMap (fun p => (s.qPrio p.1).map (fun x => (p.1, x)))
  let top := ready.foldl (fun m p => max m p.2) 0
  let best := (ready.filter (fun p => p.2 = top)).map Prod.fst
  let parts := (List.range 8).filter (fun p => best.any (fun n => qPart (s.queueE n) = p))
  ((parts.find? (fun p => p > s.rrPart)).or parts.head?).bind (fun p =>
    (s.turnOf top p (best.filter (fun n => qPart (s.queueE n) = p))).map (fun n => (top, n)))

def State.nextQueue (s : State) : Option Nat := s.nextTurn.map Prod.snd

/-- A record of queue `n` was taken at a level: its turn goes on until its weight is used up or it has no more there. -/
def State.turnTaken (s : State) (level n : Nat) : State :=
  let q := s.queueE n
  let k := 8 * level + qPart q
  let t := s.lastTurn k
  let used := if t.1 = n && t.2 < bitsOf (wAt q 0) 43 6 then t.2 + 1 else 1
  { s with rr := s.rr.put k (n, if s.qPrio n = some level then used else 64), rrPart := qPart q }

/-- A taken record is checked (R15, R40) and entered; an INVALID one gets its status and is dropped: its launch has ended. A
journaled record with an end mark, met again after a warm reset, has ended already (R280). -/
def State.takeRecord (s : State) (n num : Nat) : State :=
  let q := s.queueE n
  let r := s.qRecord n num
  if qJrn q && s.ended n num then s
  else if s.rcdOk q r && !s.deps.any (fun p => p.2.tag = rcdTag r) then s.depEnter n num r
  else (s.writeCplt (if (s.asnOf (rcdPart r)).isSome then rcdPart r else qPart q) (r.getD 14 0) 0 0 2).endMark n num true

/-- DISPATCHER_TAKE (R198): the next record leaves its queue, is checked (R15, R40) and entered; an INVALID one gets its
status and is dropped. -/
def execDispatcherTake (s : State) : Out :=
  run (fun s =>
    if s.level = 0 || (s.deps.fresh 0 4096).isNone then s
    else match s.nextTurn with
      | none => s
      | some (level, n) =>
        let q := s.queueE n
        let num := (wAt q 3 + 1) % 2 ^ 64
        let s := (s.setQueue n (q.set 3 (w64 num))).turnTaken level n
        (s.takeRecord n num).retAdvance n) s

/-- The end of a launch (R244, R19): completion word, successors, its entry, its queue's RETSEQ. -/
def State.endLaunch (s : State) (i : Nat) (d : Dep) (status : Nat) : State :=
  let s := (s.writeCplt d.part (d.w.getD 6 0) d.nstr (if status = 1 then d.cause.num else 0) status).endMark d.qnum d.recno true
  let s := { s with deps := (s.deps.del i).map (fun (p : Nat × Dep) =>
    let named := (List.range 4).filter (fun j => bitsOf (wAt p.2.w 2) (16 * j) 16 = 32768 + i)
    if named.isEmpty then p
    else
      let pend := p.2.pend - named.length
      let e := p.2.fld 0 57 3 pend
      let e := named.foldl (fun (e : Dep) j => e.fld 2 (16 * j) 16 0) e
      let e := if status = 0 then e else e.fld 0 56 1 1
      (p.1, if pend = 0 && status = 0 && !e.canc && e.st = 0 then { e.fld 0 60 3 1 with since := s.cycle } else e)) }
  s.retAdvance d.qnum

/-- LAUNCH_END (R244): all tasks retired, or the launch is ending and nothing of it is left. -/
def execLaunchEnd (s : State) : Out :=
  run (fun s => match s.focus with
    | .ev i _ _ _ _ =>
      (match s.deps.get? i with
       | none => s
       | some d =>
         let live := s.tasks.any (fun p => p.2.dep = i)
         if d.st = 1 && d.ending.isNone && d.retired = d.tasks then s.endLaunch i d 0
         else match d.ending with
           | some st => if live then s else s.endLaunch i d st
           | none => s)
    | _ => s) s

/-- DEPENDENT_CANCEL (R244, R40): an entry that waits on a launch that ended other than DONE ends CANCELLED. -/
def execDependentCancel (s : State) : Out :=
  run (fun s => match s.focus with
    | .ev i _ _ _ _ =>
      (match s.deps.get? i with
       | none => s
       | some d => if d.canc && d.st = 0 then s.endLaunch i d 3 else s)
    | _ => s) s

/-- TASK_AGING (R43): one level for each 65,536 cycles a ready task waits unbound, up to the ceiling: the launch's tasks that
have not been bound, and those that are saved. -/
def execTaskAging (s : State) : Out :=
  run (fun s => match s.focus with
    | .ev i _ _ _ _ =>
      let s := s.updDep i (fun d => if d.st = 1 && d.started.length < d.tasks then
        { d with aged := min 7 ((s.age d.since) / 65536) } else d)
      let older := fun (p : Nat × Task) => if p.2.dep = i && p.2.st = .saved then
        (p.1, { p.2 with aged := min 7 ((s.age p.2.since) / 65536) }) else p
      { s with tasks := s.tasks.map older }
    | _ => s) s

/-- Forget a task; its save areas return to the pool (R239). -/
def State.dropTask (s : State) (i : Nat) (t : Task) : State :=
  let used := s.saveUsed.filter (fun (a : Nat × Nat) =>
    !(t.areas.any (fun x => x.2 = a.2) && (s.deps.get? t.dep).map Dep.part = some a.1))
  { s with tasks := s.tasks.del i, saveUsed := used }

/-- Begin the end of a launch (R20, R95): its status and cause; its strands stop at their next block boundary, and its saved
tasks are not bound again. -/
def State.condemn (s : State) (i status : Nat) (cause : FCode) : State :=
  let s := s.updDep i (fun d => match d.ending with
    | none => { d.fld 0 60 3 2 with ending := some status, cause := cause }
    | some _ => d)
  s.tasks.foldl (fun (s : State) (p : Nat × Task) =>
    if p.2.dep ≠ i then s
    else if p.2.st = .saved then s.dropTask p.1 p.2
    else p.2.ctxs.foldl (fun s x => s.updCtx (ctxKey p.2.tile x.2) (fun c => { c with kill := true })) s) s

end Sys2Proof.Machine
end

