-- ==== Sys2Proof/Machine/Block.lean ====
section
/-! DEFINITION. Mapping, committing and faulting of blocks (R32-R38, R76, R78, R285-R290, R299, R310), delivery of faults
(R102-R107), the commands to a context (R95), and the retirement of strands and tasks (R20). -/

namespace Sys2Proof.Machine

/-! ## Mapping (R285-R287, R290, R299, R76) -/

/-- Exit index of an exit instruction (R324). -/
def exitOf : Instr → Option Nat
  | .br _ x _ => some x.toNat
  | .call _ x _ => some x.toNat
  | .brr _ x => some x.toNat
  | .callr _ x => some x.toNat
  | .ret_ _ x => some x.toNat
  | .switch _ x => some x.toNat
  | .eret _ x => some x.toNat
  | .halt _ x => some x.toNat
  | _ => none

/-- The G register an instruction reads or writes, with its mask word (R76): header word 1 or 2. -/
def gUse : Instr → Option (Nat × Nat)
  | .get _ r => if r = 0 then none else some (1, r.toNat)
  | .put _ r => some (2, r.toNat)
  | .null_ _ r => some (2, r.toNat)
  | _ => none

def isSt (w : W64) : Bool := wOpc w = 0x1C1

/-- Header fields (R285). -/
def hdrIcnt (h : List W64) : Nat := bitsOf (wAt h 0) 41 7 + 1
def hdrXcnt (h : List W64) : Nat := bitsOf (wAt h 0) 38 3 + 1
def hdrSp (h : List W64) : Bool := bitOf (wAt h 0) 37

/-- What a header breaks, R285 and R286 but for IRVCNT: the index of the offending word. -/
def hdrBad (h body : List W64) : Option Nat :=
  if bitsOf (wAt h 0) 48 16 ≠ 0xB10C || bitsOf (wAt h 0) 0 37 ≠ 0 then some 0
  else if bitOf (wAt h 1) 0 then some 1
  else if bitOf (wAt h 2) 0 then some 2
  else if !hdrSp h && wAt h 3 ≠ 0 then some 3
  else
    let sts := body.filter isSt
    let cls := ofBits ((List.range 16).map (fun c => sts.any (fun w => wCls w = c)))
    if bitsOf (wAt h 4) 28 36 ≠ 0 || bitsOf (wAt h 4) 0 16 ≠ cls || bitsOf (wAt h 4) 16 8 ≠ sts.length then some 4
    else [5, 6, 7].find? (fun i => wAt h i ≠ 0)

/-- IRVCNT above 8 (R287). -/
def hdrLimit (h : List W64) : Option Flt :=
  if bitsOf (wAt h 4) 24 4 > 8 then some { code := .irrevocableLimit, extra := w64 (bitsOf (wAt h 4) 24 4) } else none

/-- The header's fault that its own words show: it stands before any fault of the body's pages (R287). -/
def hdrEarly (h : List W64) : Option Flt :=
  match hdrBad h [] with
  | some 4 => if bitsOf (wAt h 4) 28 36 ≠ 0 then some { code := .blockHeader, extra := 4 } else
      (([5, 6, 7].find? (fun i => wAt h i ≠ 0)).map (fun i => { code := .blockHeader, extra := w64 i })).or (hdrLimit h)
  | some i => some { code := .blockHeader, extra := w64 i }
  | none => hdrLimit h

/-- The irrevocable instructions of a body (R286, R313): a word with no instruction is none. -/
def irvCount (body : List W64) : Nat :=
  (body.filter (fun w => irrevocable w && (match decodeSeq w with
    | .error .illegalOpcode => false
    | _ => true))).length

/-- The header's fault, if any (R287). -/
def hdrFault (h body : List W64) : Option Flt :=
  let n := irvCount body
  let cnt := bitsOf (wAt h 4) 24 4
  match hdrBad h body with
  | some i => some { code := .blockHeader, extra := w64 i }
  | none =>
    if n > 8 then some { code := .irrevocableLimit, extra := w64 n }
    else if cnt > 8 then some { code := .irrevocableLimit, extra := w64 cnt }
    else if cnt ≠ n then some { code := .blockHeader, extra := 4 }
    else none

/-- A target that R290 or R310 refuses: beyond the count, or a slot its destination does not read. -/
def badTarget (n i : Nat) (dec : List (Option Instr)) (body : List W64) (t : BitVec 10) : Bool :=
  match targetOf i t with
  | none => false
  | some (d, slot) =>
    d ≥ n ||
    (match dec.getD d none with
     | none => false
     | some x =>
       let r := readsOf x
       let p := r.p || (headOf (body.getD d 0)).pr ≠ 0
       !(match slot with
         | 0 => r.a
         | 1 => r.b
         | 2 => p
         | _ => r.o))

/-- The mapping fault of instruction `i`, if any (R76, R295, R299). -/
def bodyFaultAt (h body : List W64) (dec : List (Option Instr)) (i : Nat) : Option Flt :=
  let w := body.getD i 0
  let mk := fun (c : FCode) (x : W64) => some { code := c, extra := x, idx := some i : Flt }
  match decodeSeq w with
  | .error .illegalOpcode => mk .illegalOpcode w
  | .error .reservedField => mk .reservedField w
  | .ok x =>
    if badTarget body.length i dec body (headOf w).t0 ||
        (wOpc w ≠ 3 && badTarget body.length i dec body (headOf w).t1) then mk .reservedField w
    else if (match exitOf x with
      | some k => decide (k ≥ hdrXcnt h)
      | none => false) then mk .blockHeader 0
    else match gUse x with
      | some (m, r) => if r = 0 || !bitOf (wAt h m) r then mk .blockHeader 8 else none
      | none => none

def bodyFault (h body : List W64) : Option Flt :=
  let dec := body.map (fun w => (decodeSeq w).toOption)
  (List.range body.length).findSome? (bodyFaultAt h body dec)

/-- What a block fetch asks of a page (R144). -/
def useFetch (sup : Bool) : Use := { ex := true, acc := 2, sup := sup, cls := [0] }

/-- Fetch words of a block, page by page, for the context that runs it. -/
def fetchWords (key : Nat) (c : Ctx) (va : W64) (n : Nat) : M (List W64) := do
  let cls := (← getS).classOf key
  let bs ← readU (key / 16) c.part { useFetch c.sup with own := .work (key % 16) cls } .plain va (8 * n)
  pure ((List.range n).map (fun i => w64 (leNat ((bs.drop (8 * i)).take 8))))

/-- The body as its fetch finds it; a fault of its pages gives way to one that the header shows by itself (R287). -/
def bodyOf (h : List W64) (fetch : M (List W64)) : M (List W64) := fun s =>
  match fetch s with
  | .ok b s => .ok b s
  | .error f s => .error ((hdrEarly h).getD f) s

/-- Fetch and check the block a context goes to. -/
def fetchBlock (key : Nat) : M Blk := do
  let s ← getS
  let c := s.ctx key
  if c.next.toNat % 64 ≠ 0 then raise { code := .branchAlign, addr := c.next }
  let h ← fetchWords key c c.next 8
  if (hdrBad h []) = some 0 then raise { code := .blockHeader, extra := 0 }
  let body ← bodyOf h (fetchWords key c (c.next + 64) (hdrIcnt h))
  match hdrFault h body with
  | some f => raise f
  | none =>
    match bodyFault h body with
    | some f => raise f
    | none => pure ⟨c.next, h, body, List.replicate body.length {}, [], [], [], [], false, c.tmv, c.pblen, []⟩

/-- A context that may take a new block. -/
def Ctx.canMap (c : Ctx) : Bool := (c.st = .run || c.st = .stopreq) && c.sync.isNone && !c.asyncDue && !c.kill

/-- Blocks in flight on a tile (R33): 8 places. -/
def State.inFlight (s : State) (t : Nat) : Nat := (s.blks.filter (fun b => b.1 / 16 = t)).length

/-- BLOCK_MAP (R32, R287): the context's next block is fetched, checked and mapped, every slot empty. -/
def State.mapBlock (s : State) (key : Nat) : State :=
  if (s.ctx key).canMap && (s.blks.get? key).isNone && s.inFlight (key / 16) < 8 then
    match fetchBlock key s with
    | .ok b s => { s with blks := s.blks.put key b }
    | .error f s => s.syncFault key f
  else s

def execBlockMap (s : State) : Out :=
  run (fun s => match s.focus with
    | .ev t c _ _ _ => s.mapBlock (ctxKey t c)
    | _ => s) s

/-! ## Slot tables (R240) and the retirement of strands (R20) -/

/-- Context that SLOTIMG of a tile's partition names for a slot. -/
def State.slotImage (s : State) (t i : Nat) : Nat :=
  match s.partOfTile t with
  | none => i % 16
  | some p => bitsOf (s.partW p (8 + i / 16)) (4 * (i % 16)) 4

def State.slotsFree (s : State) (t c : Nat) : State :=
  s.updTile t (fun x =>
    let l := (List.range 64).map (fun i => if x.slots.getD i 0 = c then s.slotImage t i else x.slots.getD i 0)
    { x with slots := l })

/-- The context that holds the most slots, the lowest among equals. -/
def mostSlots (l : List Nat) : Nat :=
  (List.range 16).foldl (fun best c => if l.count c > l.count best then c else best) 0

/-- A context without a slot takes the lowest-numbered one of the context that holds the most. -/
def slotMove (l : List Nat) (c : Nat) : List Nat := if l.contains c then l else l.set (l.idxOf (mostSlots l)) c

/-- A grant (R42, R240). A slot that had been moved to another resident context is taken too; that context, left without
one, then gets one in the same way, so that every resident context holds a slot (R48; DEDUCED, log 65). -/
def State.slotsGrant (s : State) (t c : Nat) : State :=
  s.updTile t (fun x =>
    let l := (List.range 64).map (fun i => if s.slotImage t i = c then c else x.slots.getD i 0)
    let here := (List.range 16).filter (fun d => d ≠ c && (s.ctx (ctxKey t d)).st ≠ .free)
    { x with slots := here.foldl slotMove (slotMove l c) })

/-- Free a context: its strand is gone, its slots go back. -/
def State.freeCtx (s : State) (key : Nat) : State :=
  let s := s.abortBlock key
  (s.setCtx key { s.ctx key with
    st := .free, task := none, region := none, preq := false, sync := none, async := [], spAt := none,
    kill := false, fqPend := false, inh := false, irv := List.replicate 8 none }).slotsFree (key / 16) (key % 16)

def State.updTask (s : State) (i : Nat) (f : Task → Task) : State :=
  match s.tasks.get? i with
  | none => s
  | some t => { s with tasks := s.tasks.put i (f t) }

/-- A strand leaves its task. -/
def State.dropStrand (s : State) (key : Nat) : State :=
  match (s.ctx key).task with
  | none => s.freeCtx key
  | some i => (s.updTask i (fun t => { t with ctxs := t.ctxs.filter (fun x => ctxKey t.tile x.2 ≠ key) })).freeCtx key

/-- A strand retires (R20): it counts in its launch. Its stores are performed. -/
def State.retire (s : State) (key : Nat) : State :=
  let s := s.drainSq key
  match (s.ctx key).task with
  | none => s.freeCtx key
  | some i =>
    let s := match s.tasks.get? i with
      | some t => s.updDep t.dep (fun d => { d with w := d.w.set 5 (w64 (d.nstr + 1)) })
      | none => s
    s.dropStrand key

/-- Commands that a task's strands gave to the matrix node, the copy channels, the page movers and the ring interface and that
are not complete (R20): a message is complete once it has been matched or queued (R415), a query token's once its last flit has
been sent (R419, R420). -/
def State.cmdsBusy (s : State) (t : Task) : Bool :=
  let mine := fun (w : Who) => t.idents.contains w.ident
  (s.tile t.tile).mrun.any (fun o => mine o.who) || (s.tile t.tile).mq.any (fun o => mine o.who) ||
  (List.range 4).any (fun n =>
    let c := s.copyCh t.tile n
    (c.walkId ≠ 0 && mine c.who) || c.queue.any (fun x => mine x.who)) ||
  s.moves.any (fun m => mine m.who) ||
  s.msgs.any (fun p => !p.2.met && p.2.spkg = s.pkgno && (p.2.cls < 2 || p.2.sig) && mine p.2.who)

/-- Engine commands of a task's strands that are not complete (R20): the former, and the stream bindings and tokens of SEOS
and PREL.G at its region's ports. -/
def State.taskBusy (s : State) (t : Task) : Bool :=
  s.cmdsBusy t ||
  ((t.region.map (fun k => let r := s.region (4 * t.tile + k)
    r.sin.any (fun p => t.idents.contains p.2.who.ident) || r.sout.any (fun p => t.idents.contains p.2.who.ident) ||
    r.pend.any (fun p => t.idents.contains p.who.ident))).getD false)

/-- TASK_RETIRE (R20, R24): all strands retired, their engine commands complete. -/
def execTaskRetire (s : State) : Out :=
  run (fun s => match s.focus with
    | .ev i _ _ _ _ =>
      (match s.tasks.get? i with
       | none => s
       | some t =>
         if t.st = .bound && t.ctxs.isEmpty && !s.taskBusy t then
           let s := match t.region with
             | some k => s.updRegion (4 * t.tile + k) (fun r => { r with owner := none, draining := false, stopped := false })
             | none => s
           let s := s.updDep t.dep (fun d => d.fld 4 32 32 (d.retired + 1))
           s.dropTask i t
         else s)
    | _ => s) s

/-! ## Commit (R288) -/

/-- The first write, in time, of a register that was written before it: its instruction. -/
def secondWrite (l : List (Nat × Nat × Option W64)) : Option Nat :=
  (l.zipIdx.find? (fun p => (l.take p.2).any (fun w => w.2.1 = p.1.2.1))).map (fun p => p.1.1)

/-- What a block has fired twice (R288): the second write of a register, SLOT_CONFLICT; the second exit, MULTI_EXIT with the
exits that fired. -/
def Blk.conflicts (b : Blk) : List Flt :=
  ((secondWrite b.writes).map (fun i => ({ code := .slotConflict, idx := some i, late := true } : Flt))).toList ++
  (match b.exits with
   | x :: y :: l => [{ code := .multiExit, idx := some y.2.1, late := true,
                       extra := w64 ((y :: l).foldl (fun m z => Nat.lor m (2 ^ z.1)) (2 ^ x.1)) }]
   | _ => [])

/-- The commit check that a quiescent block fails (R102, R288). Of two, the one of the lower instruction index, as R102 has it
of faults of one cycle (DEDUCED, log 85). -/
def Blk.lateFault (b : Blk) : Flt :=
  match b.conflicts with
  | [f, g] => if g.idx.getD 0 < f.idx.getD 0 then g else f
  | [f] => f
  | _ => { code := .noExit, late := true }

/-- Conditions 1 to 4 of R288. -/
def Blk.ready (b : Blk) : Bool :=
  (List.range 64).all (fun r => !bitOf (wAt b.hdr 2) r || b.writes.any (fun w => w.2.1 = r)) && b.conflicts.isEmpty &&
  (List.range b.words.length).all (fun i =>
    let w := b.words.getD i 0
    let st := (b.node i).st
    ((storeCls w).isNone || st = .done || st = .nullified) &&
    (!irrevocable w || st = .idle || st = .done || st = .nullified)) &&
  b.exits.length = 1

/-- Insert by instruction index. -/
def insBy {α : Type} (f : α → Nat) (x : α) : List α → List α
  | [] => [x]
  | y :: r => if f x < f y then x :: y :: r else y :: insBy f x r
def sortBy {α : Type} (f : α → Nat) (l : List α) : List α := l.foldr (fun x acc => insBy f x acc) []

/-- The widest scope of the FENCEs of the block that have not completed: they complete with the commit, whose stores are then
performed (R155). -/
def Blk.fencePending (b : Blk) : Option Nat :=
  ((List.range b.words.length).filterMap (fun i =>
    let w := b.words.getD i 0
    if wOpc w = 0x240 && (b.node i).st = .idle && ((headOf w).pr = 0 || (b.node i).p.isSome) && bitsOf w.toNat 10 16 ≠ 0
    then some (bitsOf w.toNat 7 3) else none)).max?

/-- The record that TRAP and SVC build (R327). -/
def trapRecord (b : Blk) (i : Nat) (a : W64) : Flt :=
  { code := .trap, addr := a, extra := (((b.words.getD i 0).extractLsb' 0 27).signExtend 64), idx := some i, block := b.retAddr }

/-- Commit a block whose conditions hold: registers, CSRs in ascending index, stores into the queue, then the exit. A
BANK_ROLE fault found here belongs to no single instruction (IDXV 0) and ranks with the commit checks (R102; DESIGN CHOICE,
log 67). -/
def State.commitBlock (s : State) (key : Nat) (b : Blk) : State :=
  let csr := sortBy Prod.fst b.csrw
  match s.rolesCheck key csr with
  | some bank => s.syncFault key { code := .bankRole, extra := w64 bank, late := true }
  | none =>
    if s.rolesWait key csr then s else
    let t := key / 16
    let sp := hdrSp b.hdr
    let overdue := !sp && (s.ctx key).spdist = 4095
    let s := s.updCtx key (fun c =>
      let d := if sp then 0 else min 4096 (c.spdist + 1)
      let g := b.writes.foldl (fun (g : Map W64) w => match w.2.2 with
          | some v => g.put w.2.1 v
          | none => g) c.g
      { c with
        g := g
        sq := c.sq ++ (sortBy StEnt.idx b.stores).map (fun e => { e with at_ := s.cycle })
        spdist := d
        spAt := if sp then some s.cycle else c.spAt
        live := if sp then b.hdr.getD 3 0 else c.live
        irv := List.replicate 8 none
        yieldTill := if b.yield then some (s.cycle + 64) else c.yieldTill
        replaying := false })
    let s := s.csrCommit key csr
    let s := { s with blks := s.blks.del key, waits := s.waits.filter (fun w => w.key ≠ key) }
    let s := match b.fencePending with
      | some sc => (s.drainSq key).cacheAcquire t sc
      | none => s
    let s := s.count t 2 (ctx := some (key % 16))
    let s := if sp then s.updCtx key (fun c => if c.st = .stopreq then { c with st := .stopped } else c) else s
    match b.exits with
    | (_, i, kind, target, a) :: _ =>
      let s := s.updCtx key (fun c => { c with next := target })
      let s := match kind with
        | .plain => s
        | .halt => s.retire key
        | .eret => s.resumeFault key
        | .trap => s.takeFault key (trapRecord b i a)
        | .svc => s.takeFault key (trapRecord b i a) true
      if overdue && kind ≠ .halt then
        { s with agenda := Act.event .safepointOverdue t (key % 16) 0 0 [] :: s.agenda } else s
    | [] => s

/-! ## Kill (R95, R20) -/

/-- End a strand without retiring it: committed stores are performed, those of its block in flight are discarded. -/
def State.killStrand (s : State) (key : Nat) : State := (s.drainSq key).dropStrand key

/-- The block is quiescent (R288): none of its instructions can fire, now or once earlier stores of the strand are performed,
and none has work outstanding. -/
def State.quiescent (s : State) (key : Nat) (b : Blk) : Bool :=
  !s.waits.any (fun w => w.key = key) && !s.walks.any (fun w => w.reqs.any (fun r => r.1 = key)) &&
  (List.range b.words.length).all (fun i =>
    let w := b.words.getD i 0
    let nd := b.node i
    match nd.st with
    | .done => true
    | .nullified => true
    | .issued => false
    | .recorded => false
    | .idle =>
      match decodeSeq w with
      | .error _ => true
      | .ok x =>
        if !(nd.lacks x (headOf w)).isEmpty then true
        else if nd.barred (headOf w) then false
        else (s.ctx key).sq.isEmpty && (match accCls w with
          | some c => !s.orderReady key i b c (!accWrites w) false
          | none => wOpc w = 0x240 && !s.fenceReady key i b (bitsOf w.toNat 10 16)))

/-- Does a block end now: nothing of it can still fire (log 11: DEDUCED) and no fault of it is pending? -/
def State.blockEnds (s : State) (key : Nat) (b : Blk) : Bool :=
  !((s.ctx key).sync.isSome || (s.ctx key).asyncDue) && s.quiescent key b

/-- The CSR writes of a block that commits in this cycle: those of every context come before the events of its commits (R80). -/
def State.commitCsrs (s : State) (key : Nat) : State :=
  match s.blks.get? key with
  | none => s
  | some b =>
    let csr := sortBy Prod.fst b.csrw
    if s.blockEnds key b && b.ready && !(s.ctx key).kill && (s.rolesCheck key csr).isNone && !s.rolesWait key csr then
      (s.csrCommit key csr).updBlk key (fun b => { b with csrw := [] })
    else s

/-- BLOCK_COMMIT (R288, R32, R33): a block whose conditions hold commits once it ends, or, quiescent without them, faults NO_EXIT
or what it fired twice. A strand that is to be killed ends here, its buffered stores discarded. -/
def State.commitTry (s : State) (key : Nat) : State :=
  match s.blks.get? key with
  | none => if (s.ctx key).kill && (s.ctx key).st ≠ .free && (s.ctx key).st ≠ .saving then s.killStrand key else s
  | some b =>
    let c := s.ctx key
    if !s.blockEnds key b then s
    else if b.ready then
      let halting := b.exits.any (fun x => x.2.2.1 = .halt)
      if c.kill then (if halting then s.retire key else s.killStrand key) else s.commitBlock key b
    else if c.kill then s.killStrand key
    else s.syncFault key b.lateFault

/-- BLOCK_COMMIT: its CSR writes alone (1), or the commit. -/
def execBlockCommit (s : State) : Out :=
  run (fun s => match s.focus with
    | .ev t c part _ _ => if part = 1 then s.commitCsrs (ctxKey t c) else s.commitTry (ctxKey t c)
    | _ => s) s

/-- SAFEPOINT_OVERDUE (R38): after the commit that brought the distance to 4,096; the record names the next block. -/
def execSafepointOverdue (s : State) : Out :=
  run (fun s => match s.focus with
    | .ev t c _ _ _ =>
      let key := ctxKey t c
      if (s.ctx key).spdist = 4096 && (s.ctx key).st ≠ .free && (s.blks.get? key).isNone then
        s.syncFault key { code := .safepointOverdue, extra := 4096 }
      else s
    | _ => s) s

/-! ## Delivery of faults (R102-R107, R109) -/

/-- Does the delivery still wait for recorded work (R109), or for a command that a table's unit holds (R432)? -/
def State.recordedOpen (s : State) (key : Nat) : Bool :=
  match s.blks.get? key with
  | none => false
  | some b => b.nodes.any (fun n => n.st = .recorded) || s.moves.any (fun m => m.who.key = key) ||
    b.asked.any (fun i => (b.node i).st = .idle)

/-- The block a fault record names: the one in flight, else the next. -/
def State.faultBlock (s : State) (key : Nat) : W64 :=
  match s.blks.get? key with
  | some b => b.addr
  | none => (s.ctx key).next

/-- The pending asynchronous faults without the one that is delivered now. -/
def asyncRest : List Flt → List Flt
  | [] => []
  | f :: r => if f.behind then f :: asyncRest r else r

/-- FAULT_DELIVERY (R103): the synchronous fault first, and the asynchronous ones pending then wait until it is resolved; else
the oldest asynchronous one that waits for nothing, whose block does not commit. -/
def State.deliverFault (s : State) (key : Nat) : State :=
  let c := s.ctx key
  if (c.st ≠ .run && c.st ≠ .stopreq) || s.recordedOpen key then s
  else match c.sync with
    | some f => (s.updCtx key (fun c => { c with sync := none, async := c.async.map (fun g => { g with behind := true }) })).takeFault
        key { f with block := s.faultBlock key }
    | none => match c.async.find? (fun g => !g.behind) with
      | none => s
      | some f => (s.updCtx key (fun c => { c with async := asyncRest c.async })).takeFault key
          { f with block := s.faultBlock key, idx := none }

def execFaultDelivery (s : State) : Out :=
  run (fun s => match s.focus with
    | .ev t c _ _ _ => s.deliverFault (ctxKey t c)
    | _ => s) s

/-- The copies of saved strands' records, oldest first, as far as their queues have room (R200). -/
def State.fqSaved (s : State) : State :=
  s.fqWait.foldl (fun (s : State) w =>
    let (ok, u) := s.fqAppend w.1 w.2
    if ok then { u with fqWait := u.fqWait.erase w } else s) s

/-- FAULT_QUEUE_RETRY (R200): the copy that found the queue full is tried again, and so are those of strands since saved. -/
def execFaultQueueRetry (s : State) : Out :=
  run (fun s => match s.focus with
    | .ev t c _ _ _ =>
      let key := ctxKey t c
      let x := s.ctx key
      if x.st = .held && x.fqPend then
        let (ok, s) := s.fqAppend x.part (s.rdWords (framePa key + (if x.inh then 0xC0 else 0)) 8)
        (s.updCtx key (fun c => { c with fqPend := !ok })).fqSaved
      else s.fqSaved
    | _ => s) s

/-! ## Commands to a context (R95) -/

/-- The state a HELD context goes back to: stopping, when a pre-emption of its task was accepted. -/
def State.backTo (s : State) (key : Nat) : CtxSt :=
  match (s.ctx key).task.bind (fun i => s.tasks.get? i) with
  | some t => if t.accepted then .stopreq else .run
  | none => .run

/-- RESUME (R95, R107, R110). A copy of its record that still waits for the fault queue is dropped with it: R200 does not say what
becomes of it (DESIGN CHOICE, log 90). -/
def State.ctxResume (s : State) (key : Nat) : State :=
  if (s.ctx key).st = .held then (s.resumeFault key).updCtx key (fun c => { c with st := s.backTo key, fqPend := false }) else s

/-- REDIRECT (R95): the frame's irrevocable image is discarded, and a copy of its record that waits for the fault queue too
(DESIGN CHOICE, log 90). -/
def State.ctxRedirect (s : State) (key : Nat) (target : W64) : State :=
  if (s.ctx key).st = .held then
    (s.wrWords (framePa key + 0x40) (List.replicate 16 0)).updCtx key (fun c =>
      { c with
        st := s.backTo key, inh := false, next := target, irv := List.replicate 8 none, fqPend := false, replaying := false,
        async := c.async.map (fun f => { f with behind := false }) })
  else s

/-- The fault code of a number (R101). -/
def codeOf (n : Nat) : FCode :=
  ([FCode.trap, .illegalOpcode, .reservedField, .blockHeader, .branchAlign, .slotConflict, .noExit, .multiExit,
    .irrevocableLimit, .privilege, .formatMismatch, .safepointOverdue, .translation, .permission, .misaligned, .dataPoison,
    .regionClass, .tagSpace, .bankRole, .regionBusy, .channelCapacity, .channelOwner, .deadlock, .queueId, .overflowFull,
    .permitSelf, .barrierOverrun, .shardId, .treePoolEmpty, .configInvalid, .reconfPending, .linkLost, .partFailed].find?
    (fun c => c.num = n)).getD .trap

/-- KILL (R95): a HELD strand ends at once and its launch ends FAULTED with the held fault's code; any other at its next
block boundary, its launch CANCELLED. -/
def State.ctxKill (s : State) (key : Nat) : State :=
  let c := s.ctx key
  match c.task.bind (fun i => s.tasks.get? i) with
  | none => s
  | some t =>
    if c.st = .free then s
    else if c.st = .held then
      (s.killStrand key).condemn t.dep 1 (codeOf (s.rd (framePa key) 1))
    else (s.updCtx key (fun c => { c with kill := true })).condemn t.dep 3 .trap

/-- A pre-emption request to a task (R44, R112): one at a time. Whether it can be accepted is looked at in the same cycle
(R46). -/
def State.requestPreempt (s : State) (i : Nat) : State :=
  match s.tasks.get? i with
  | none => s
  | some t =>
    if t.st ≠ .bound || t.preq then s
    else
      let s := s.updTask i (fun t => { t with preq := true })
      let s := { s with agenda := Act.event .preemptAccept i 0 0 0 [] :: s.agenda }
      t.ctxs.foldl (fun s x => s.updCtx (ctxKey t.tile x.2) (fun c => { c with preq := true })) s

def evCtx (f : Nat → W64 → State → State) (s : State) : State :=
  match s.focus with
  | .ev t c _ v _ => f (ctxKey t c) v s
  | _ => s

def execCtxctlResume (s : State) : Out := run (evCtx (fun k _ s => s.ctxResume k)) s
def execCtxctlRedirect (s : State) : Out := run (evCtx (fun k v s => s.ctxRedirect k (v &&& 0xFFFFFFFFFFFFFFC0))) s
def execCtxctlKill (s : State) : Out := run (evCtx (fun k _ s => s.ctxKill k)) s
/-- PREEMPT is the supervisor's request of R44. -/
def execCtxctlPreempt (s : State) : Out :=
  run (evCtx (fun k _ s => match (s.ctx k).task with
    | some i => s.requestPreempt i
    | none => s)) s

/-- Is a context in a YIELD window, the 64 cycles after the commit (R330)? CYCLE wraps (R261). -/
def State.yielding (s : State) (key : Nat) : Bool :=
  ((s.ctx key).yieldTill.map (fun w => decide ((w - s.cycle).toNat ≤ 64))).getD false

/-- YIELD_WINDOW_END (R330): the 64 cycles after the commit of a YIELD are over. -/
def execYieldWindowEnd (s : State) : Out :=
  run (evCtx (fun k _ s => if (s.ctx k).yieldTill.isSome && !s.yielding k then
    s.updCtx k (fun c => { c with yieldTill := none }) else s)) s

/-- Physical address of a save area (R239). -/
def State.areaPa (s : State) (part a : Nat) : Nat := bitsOf (s.partW part 5) 16 36 * 65536 + 65536 * a

/-- Effective priority of a saved task (R43, R116): raised by age and by the waiters of its permits, up to the ceiling. -/
def State.savedPrio (s : State) (t : Task) (d : Dep) : Nat :=
  let ceil := bitsOf (s.partW d.part 0) 60 3
  let ids := t.areas.map (fun a => w64 (s.rd (s.areaPa d.part a.2 + 0x18) 8))
  let held := ((s.tile t.tile).permits.filter (fun p => (p.holder.map (fun h => ids.contains h.1)).getD false)).map Permit.num
  let boost := (s.waits.filterMap (fun w => match w.k with
    | .permit n => if w.key / 16 = t.tile && held.contains n then some (s.ctx w.key).eprio else none
    | _ => none)).foldl max 0
  min ceil (max (bitsOf (wAt d.rcd 8) 4 3 + t.aged) boost)

/-- QUANTUM_EXPIRY (R44, R46): a request when another ready task of the partition waits, else the quantum restarts. A task
whose strands have all retired is left to its end-of-stream. -/
def execQuantumExpiry (s : State) : Out :=
  run (fun s => match s.focus with
    | .ev i _ _ _ _ =>
      (match s.tasks.get? i with
       | none => s
       | some t =>
         match s.deps.get? t.dep with
         | none => s
         | some d =>
           if t.st = .bound && !t.ctxs.isEmpty && s.age t.quantum ≥ bitsOf (s.partW d.part 0) 0 32 then
             let mine := (s.ctx (ctxKey t.tile ((t.ctxs.map Prod.snd).headD 0))).eprio
             let ready := s.deps.any (fun p => p.2.part = d.part && p.2.st = 1 && p.2.ending.isNone &&
                 p.2.started.length < p.2.tasks && s.depPrio p.2 ≥ mine) ||
               s.tasks.any (fun p => p.2.st = .saved && ((s.deps.get? p.2.dep).map (fun e => e.part = d.part &&
                 s.savedPrio p.2 e ≥ mine)).getD false)
             if ready then s.requestPreempt i else s.updTask i (fun t => { t with quantum := s.cycle })
           else s)
    | _ => s) s

/-- Areas of a partition's pool that are free, lowest first (R239). -/
def State.freeAreas (s : State) (part n : Nat) : List Nat :=
  ((List.range (bitsOf (s.partW part 6) 0 16)).filter (fun a => !s.saveUsed.contains (part, a))).take n

/-- A running context of a task whose pre-emption is accepted stops at its next safe-point commit; one committed in this cycle
is the stop point (R46). -/
def State.stopCtx (s : State) (key : Nat) : State :=
  let here := (s.ctx key).spAt = some s.cycle && (s.blks.get? key).isNone
  s.updCtx key (fun c => if c.st = .run then { c with st := if here then .stopped else .stopreq } else c)

/-- PREEMPT_ACCEPT (R112, R113): areas are reserved, and the running contexts stop at their next safe point. -/
def execPreemptAccept (s : State) : Out :=
  run (fun s => match s.focus with
    | .ev i _ _ _ _ =>
      (match s.tasks.get? i with
       | none => s
       | some t =>
         match s.deps.get? t.dep with
         | none => s
         | some d =>
           let areas := s.freeAreas d.part t.ctxs.length
           if t.st = .bound && t.preq && !t.accepted && areas.length = t.ctxs.length then
             let s := { s with saveUsed := s.saveUsed ++ areas.map (fun a => (d.part, a)) }
             let s := s.updTask i (fun t => { t with accepted := true, areas := (t.ctxs.map Prod.fst).zip areas })
             t.ctxs.foldl (fun s x => s.stopCtx (ctxKey t.tile x.2)) s
           else s)
    | _ => s) s

end Sys2Proof.Machine
end

