-- ==== Sys2Proof/Machine/Element.lean ====
section
/-! DEFINITION. The element grid (R337-R358): triggers, implicit conditions, the number class, the 53 operations and the
end of a region's cycle. -/

namespace Sys2Proof.Machine

/-! ## A region's image (R300, R301, R303, R304) -/

def Region.elemWord (r : Region) (e : Nat) : Nat := wAt r.img (8 + e % 16)
def Region.follows (r : Region) (e : Nat) : Bool := bitOf (r.elemWord e) 63
def Region.trig (r : Region) (e slot : Nat) : Nat := bitsOf (wAt r.img (106 + 16 * (e % 16) + slot)) 0 32
def Region.opWord (r : Region) (e slot : Nat) : Nat := bitsOf (wAt r.img (106 + 16 * (e % 16) + slot)) 32 32

/-- A region fires in a cycle (R337). -/
def Region.fires (r : Region) : Bool := r.loaded && !r.draining && !r.stopped && r.owner.isSome

/-- Slot valid (R300). -/
def trigV (w : Nat) : Bool := bitOf w 0
def trigIn (w n : Nat) : Bool := bitOf w (12 + n)
def trigOut (w n : Nat) : Bool := bitOf w (8 + n)

def Elem.inHead (el : Elem) (n : Nat) : Option Tok := (el.ins.getD [] n).head?
def Elem.outSpace (el : Elem) (n : Nat) : Bool := (el.outs.getD [] n).length < 2

/-- INRDY and OUTSP, which a follower's slot is checked for too (R342). -/
def Elem.ports (el : Elem) (w : Nat) : Bool :=
  (List.range 4).all (fun n => (!trigIn w n || (el.inHead n).isSome) && (!trigOut w n || el.outSpace n))

/-- The trigger of a slot holds (R337). -/
def Elem.trigger (el : Elem) (w : Nat) : Bool :=
  let mask := bitsOf w 24 8
  let ten := bitOf w 3
  let eosm := bitOf w 2
  trigV w && Nat.land el.p.toNat mask = Nat.land (bitsOf w 16 8) mask && el.ports w &&
  (if ten then (match el.inHead (bitsOf w 6 2) with
      | some t => t.tag.toNat = bitsOf w 4 2 && t.eos = eosm
      | none => false)
   else !eosm || (match el.inHead (bitsOf w 6 2) with
      | some t => t.eos
      | none => false))

/-- Which of SA, SB and SC an operation reads as operand codes, by opcode (R345). -/
def opReads (opc : Nat) : Bool × Bool × Bool :=
  (opc ≤ 14 || (17 ≤ opc && opc ≤ 35) || (37 ≤ opc && opc ≤ 47) || (50 ≤ opc && opc ≤ 52),
   opc ≤ 7 || (10 ≤ opc && opc ≤ 14) || (17 ≤ opc && opc ≤ 19) || (21 ≤ opc && opc ≤ 23) || opc = 32 || opc = 33 ||
     opc = 43 || opc = 46,
   3 ≤ opc && opc ≤ 5)

/-- Data operations (R338). -/
def opData (opc : Nat) : Bool := !(opc = 37 || opc = 38 || opc = 40 || opc = 41 || opc = 48 || opc = 49)

/-- Operand codes an operation reads. -/
def opCodes (opc : Nat) (f : ElemF) : List Nat :=
  let r := opReads opc
  (if r.1 then [f.sa.toNat] else []) ++ (if r.2.1 then [f.sb.toNat] else []) ++ (if r.2.2 then [f.sc.toNat] else [])

/-- Inputs an operation reads. -/
def opInputs (opc : Nat) (f : ElemF) : List Nat :=
  (opCodes opc f).filterMap (fun c => if 8 ≤ c && c < 12 then some (c - 8) else none)

/-- A permit token (R358). -/
def Tok.permit (t : Tok) : Bool := t.tag = 3 && !t.eos && t.data.toNat < 2 ^ 16

/-- The implicit conditions of an operation (R338, R356, R358). -/
def Elem.implicit (el : Elem) (opc : Nat) (f : ElemF) (w : Nat) : Bool :=
  (opInputs opc f).all (fun n => match el.inHead n with
    | some t => !(opData opc && t.eos) && (opc ≠ 51 || t.permit)
    | none => false) &&
  (!(8 ≤ f.dst.toNat && f.dst.toNat < 12) || el.outSpace (f.dst.toNat - 8)) &&
  (opc ≠ 49 || (List.range 4).all (fun n => !trigIn w n || ((el.inHead n).map Tok.eos).getD false))

/-- May a slot of the image fire, an element's own test apart? -/
def Region.implicit (r : Region) (el : Elem) (e slot : Nat) : Bool :=
  el.implicit (bitsOf (r.opWord e slot) 25 7) (elemFOf (BitVec.ofNat 32 (r.opWord e slot))) (r.trig e slot)

/-- The slot an element with FOLLOW = 0 fires (R337, R338). -/
def Region.pick (r : Region) (el : Elem) (e : Nat) : Option Nat :=
  (List.range 16).find? (fun k => el.trigger (r.trig e k) && r.implicit el e k)

/-- A follower due to fire slot `k` passes its check (R342). -/
def Region.memberOk (r : Region) (el : Elem) (e : Nat) : Option Nat → Bool
  | none => true
  | some k => !trigV (r.trig e k) || (el.ports (r.trig e k) && r.implicit el e k)

/-- Length of the chain that starts at an element (1: no chain). -/
def Region.chainLen (r : Region) (e : Nat) : Nat → Nat
  | 0 => 1
  | n + 1 => if (e + 1) % 16 ≠ 0 && r.follows (e + 1) then 1 + r.chainLen (e + 1) n else 1

/-! ## The frame of an operation -/

/-- What a firing operation sees. -/
structure EEnv where
  tile : Nat
  e : Nat
  rk : Nat
  el : Elem
  f : ElemF
  leader : W64
  follow : Bool
  rm : RM
  trig : Nat
  free : W64
  deriving DecidableEq, Repr

/-- What an operation does. -/
structure EEff where
  res : W64 := 0
  tag : Nat := 0
  pred : Option Bool := none          -- predicate result; none: any bit of the result (R340)
  flags : Nat := 0
  chain : Option W64 := none          -- chain value; none: the result (R343)
  tok : BitVec 2 × Bool := (0, false) -- tag and end-of-stream of an appended token
  eat : Bool := true                  -- consumes the inputs it reads, KEEP apart
  eats : List Nat := []               -- heads consumed beside them (EOSE)
  outs : List Nat := []               -- outputs that take an end-of-stream token (EOSE)
  wipe : Option (Nat × W64) := none   -- TKOUT's register and sentinel
  drew : Bool := false                -- used the free value
  deriving DecidableEq, Repr

def EEnv.a (x : EEnv) : EOp := eOperand x.el x.leader x.f.sa.toNat
def EEnv.b (x : EEnv) : EOp := eOperand x.el x.leader x.f.sb.toNat
def EEnv.c (x : EEnv) : EOp := eOperand x.el x.leader x.f.sc.toNat
def EEnv.lm (x : EEnv) : Nat := x.f.lm.toNat
def EEnv.w (x : EEnv) : Nat := laneW x.lm
def EEnv.lanes (x : EEnv) : Nat := 64 / x.w
def EEnv.sc (x : EEnv) : Nat := x.f.sc.toNat
def EEnv.md (x : EEnv) : Nat := x.f.md.toNat

/-- Append a token to an output. -/
def Elem.push (el : Elem) (n : Nat) (t : Tok) : Elem := { el with outs := el.outs.put n (el.outs.getD [] n ++ [t]) }
/-- Consume the head of an input. -/
def Elem.pop (el : Elem) (n : Nat) : Elem := { el with ins := el.ins.put n ((el.ins.getD [] n).drop 1) }

/-- An element after a firing (R339, R340). -/
def EEff.apply (x : EEnv) (opc slot : Nat) (r : EEff) : Elem :=
  let el := x.el
  let ins := (if r.eat && !x.f.keep then (opInputs opc x.f).dedup else []) ++ r.eats
  let el := ins.foldl Elem.pop el
  let d := x.f.dst.toNat
  let el := if d < 8 then { el with e := el.e.put d r.res, etag := el.etag.put d r.tag }
    else if d < 12 then el.push (d - 8) ⟨r.res, r.tok.1, r.tok.2⟩ else el
  let el := r.outs.foldl (fun (el : Elem) n => el.push n ⟨0, 0, true⟩) el
  let el := match r.wipe with
    | some (n, v) => { el with e := el.e.put n v }
    | none => el
  let el := if x.f.pwe then
    let bit := r.pred.getD (r.res ≠ 0)
    { el with p := if bit then el.p ||| BitVec.twoPow 8 x.f.pidx.toNat else el.p &&& ~~~(BitVec.twoPow 8 x.f.pidx.toNat) }
    else el
  { el with chain := r.chain.getD r.res, slot := some slot }

/-- The context that a fault of a region goes to (R103): the lowest-numbered running one of the owning task, else the
lowest of the task. -/
def State.regionCtx (s : State) (rk : Nat) : Option Nat :=
  match (s.region rk).owner.bind (fun i => s.tasks.get? i) with
  | none => none
  | some t =>
    let ks := (List.range 16).filter (fun c => t.ctxs.any (fun x => x.2 = c))
    match ks.find? (fun c => (s.ctx (ctxKey t.tile c)).st = .run || (s.ctx (ctxKey t.tile c)).st = .stopreq) with
    | some c => some (ctxKey t.tile c)
    | none => ks.head?.map (ctxKey t.tile)

/-- The end of a region's cycle (R339, R341, R72): element states, flags, then a fault of its elements stops the region. -/
def State.gridApply (s : State) (rk : Nat) (g : GridCycle) : State :=
  let s := { s with elems := g.elems.foldl (fun (m : Map Elem) (p : Nat × Elem) => m.put p.1 p.2) s.elems }
  let s := s.flagRegion rk g.flags
  let s := if (s.region rk).cyc.isSome then s.updRegion rk (fun r => { r with cyc := none }) else s
  match g.faults with
  | [] => s
  | f :: r =>
    let low := r.foldl (fun (m : Nat × Nat) x => if x.1 < m.1 then x else m) f
    let s := s.updRegion rk (fun r => { r with stopped := true })
    match s.regionCtx rk with
    | none => s
    | some k => s.asyncFault k { code := .formatMismatch, extra := w64 low.2, src := 1, reg := rk % 4, more := !r.isEmpty }

/-- The rounding mode of a region's firings: FPSTAT.RM as the cycle began (R73). -/
def Region.rm (r : Region) : Nat :=
  match r.cyc with
  | some g => g.rm
  | none => bitsOf r.fpstat.toNat 8 2

/-- Gather a firing into the region's cycle, with the EXTRA of its fault when it faults; the last one of the cycle applies
them all. -/
def State.gather (s : State) (rk : Nat) (e : Nat) (el : Option Elem) (fl : Nat) (fault : Option Nat) : State :=
  let g := (s.region rk).cyc.getD ⟨[], (s.region rk).rm, 0, [], 1⟩
  let es := match el with
    | some x => g.elems.put e x
    | none => g.elems
  let fs := match fault with
    | some x => g.faults ++ [(e % 64, x)]
    | none => g.faults
  let g : GridCycle := ⟨es, g.rm, fOr g.flags fl, fs, g.todo - 1⟩
  if g.todo = 0 then s.gridApply rk g else s.updRegion rk (fun r => { r with cyc := some g })

/-- The tag that a failed check reports (R101): of the register operands in the order a, b, c the first whose lane mode is not
the operation's, else the first that differs from the one before, else the first (DEDUCED, log 78). -/
def EEnv.tagFound (x : EEnv) (opc : Nat) : Nat :=
  let tags := (opCodes opc x.f).filterMap (fun c => (eOperand x.el x.leader c).tag)
  match tags.find? (fun t => t ≠ 0 && tagLm t ≠ some x.lm), tags with
  | some t, _ => t
  | none, t :: r => (r.find? (· ≠ t)).getD t
  | none, [] => 0

/-- EXTRA of a FORMAT_MISMATCH: element, slot, tag found (R101). -/
def EEnv.mismatch (x : EEnv) (opc slot : Nat) : Nat := x.e + slot * 256 + x.tagFound opc * 4096

/-- Fire an element operation: the region fires, the slot's own tests hold (a follower's trigger is not resolved), and the
effects join the region's cycle. A body that answers none faults FORMAT_MISMATCH (R341). -/
def fireElem (opc : Nat) (f : ElemF) (body : EEnv → Option EEff) (s : State) : State :=
  match s.focus with
  | .elem t e slot =>
    let rk := 4 * t + e / 16
    let key := 64 * t + e
    let r := s.region rk
    let el := s.elem key
    let w := r.trig e slot
    let fol := r.follows e
    if r.fires && (if fol then trigV w && el.ports w else el.trigger w) && el.implicit opc f w then
      let x : EEnv := ⟨t, e, rk, el, f, (s.elem (key - 1)).chain, fol, RM.of r.rm, w, Config.freeWord s.freeCtr⟩
      match body x with
      | none => s.gather rk key none 0 (some (x.mismatch opc slot))
      | some y =>
        let s := if y.drew then { s with freeCtr := s.freeCtr + 1 } else s
        (s.gather rk key (some (y.apply x opc slot)) y.flags none).count t 4
    else match r.cyc with
      | none => s
      | some _ => s.gather rk key none 0 none
  | _ => s

/-! ## Number class (R344) -/

inductive NC where
  | flt (tag : Nat) (fm : Fmt)
  | int (tag : Nat)
  deriving DecidableEq, Repr

def NC.tag : NC → Nat
  | .flt t _ => t
  | .int t => t

/-- The class that MOD selects (R344 case 4). -/
def classOfMod (lm md : Nat) : Option NC :=
  match lm, md with
  | 0, 0 => some (.int 0)
  | 0, 1 => some (.flt 4 e4m3)
  | 0, 2 => some (.flt 5 e5m2)
  | 1, 0 => some (.flt 2 bf16)
  | 1, 1 => some (.int 0)
  | 1, 3 => some (.flt 3 fp16)
  | 2, 0 => some (.flt 1 fp32)
  | 2, 1 => some (.int 0)
  | 3, 0 => some (.int 0)
  | _, _ => none

/-- The class of an operation over its operands, or none: FORMAT_MISMATCH. -/
def numClass (lm md : Nat) (ops : List EOp) : Option NC :=
  let tags := ops.filterMap EOp.tag
  match tags.find? (fun t => 1 ≤ t && t ≤ 5) with
  | some t => if tags.all (· = t) && md = 0 && tagLm t = some lm then (tagFmt t).map (NC.flt t) else none
  | none =>
    match tags.find? (13 ≤ ·) with
    | some t => if tags.all (fun x => x = t || x = 0) && md = 0 && tagLm t = some lm then some (.int t) else none
    | none =>
      if tags.any (· ≠ 0) then none
      else if tags.isEmpty then classOfMod lm md
      else if md = 0 then some (.int 0) else none

/-- The 8-bit floating-point formats are accepted by CMP only (R344). -/
def wideClass (c : NC) : Option NC := match c with
  | .flt t _ => if t = 4 || t = 5 then none else some c
  | .int _ => some c

/-- The class of an integer-only operation: untagged operands are integers of the lane width (R344). -/
def intClass (lm : Nat) (ops : List EOp) : Option Nat :=
  let tags := (ops.filterMap EOp.tag).filter (· ≠ 0)
  match tags with
  | [] => some 0
  | t :: _ => if tags.all (· = t) && 13 ≤ t && tagLm t = some lm then some t else none

/-- Lane by lane: the value and the flags. -/
def laneMap (x : EEnv) (f : Nat → Nat × Nat) : W64 × Nat :=
  let l := (List.range x.lanes).map f
  (w64 (ofLanes x.w (l.map Prod.fst)), l.foldl (fun a p => fOr a p.2) 0)

/-- An operation of the class of its operands, lane by lane over a, b, c. -/
def arith (ops : List EOp) (ff : Fmt → Option (Nat → Nat × Nat)) (fi : Nat → Nat) (x : EEnv) : Option EEff :=
  match (numClass x.lm x.md ops).bind wideClass with
  | none => none
  | some (.flt t fm) => (ff fm).map (fun g => let r := laneMap x g; { res := r.1, tag := t, flags := r.2 })
  | some (.int t) => some { res := (laneMap x (fun i => (fi i, 0))).1, tag := t }

def EEnv.la (x : EEnv) (i : Nat) : Nat := lane x.w x.a.v i
def EEnv.lb (x : EEnv) (i : Nat) : Nat := lane x.w x.b.v i
def EEnv.lc (x : EEnv) (i : Nat) : Nat := lane x.w x.c.v i
def EEnv.sa (x : EEnv) (i : Nat) : Int := sext x.w (x.la i)
def EEnv.sb (x : EEnv) (i : Nat) : Int := sext x.w (x.lb i)
def EEnv.wrap (x : EEnv) (z : Int) : Nat := wrapNat x.w z

def arith2 (ff : Fmt → RM → Nat → Nat → Nat × Nat) (fi : EEnv → Nat → Int) (x : EEnv) : Option EEff :=
  arith [x.a, x.b] (fun fm => some (fun i => ff fm x.rm (x.la i) (x.lb i))) (fun i => x.wrap (fi x i)) x

def execElementAdd (f : ElemF) (s : State) : Out := run (fireElem 0 f (arith2 Fmt.add (fun x i => x.sa i + x.sb i))) s
def execElementSub (f : ElemF) (s : State) : Out := run (fireElem 1 f (arith2 Fmt.sub (fun x i => x.sa i - x.sb i))) s
def execElementMul (f : ElemF) (s : State) : Out := run (fireElem 2 f (arith2 Fmt.mul (fun x i => x.sa i * x.sb i))) s

/-- The fused forms (R346): the product negated when `np`, c when `nc`. -/
def fused (np nc : Bool) (x : EEnv) : Option EEff :=
  arith [x.a, x.b, x.c] (fun fm => some (fun i => fm.fma x.rm np nc (x.la i) (x.lb i) (x.lc i)))
    (fun i =>
      let p := x.sa i * x.sb i
      let c := sext x.w (x.lc i)
      x.wrap ((if np then -p else p) + (if nc then -c else c))) x

def execElementFma (f : ElemF) (s : State) : Out := run (fireElem 3 f (fused false false)) s
def execElementFms (f : ElemF) (s : State) : Out := run (fireElem 4 f (fused false true)) s
def execElementFnma (f : ElemF) (s : State) : Out := run (fireElem 5 f (fused true false)) s

/-- MIN and MAX (R346): SC = 1, unsigned, needs an integer class. -/
def minMax (mx : Bool) (x : EEnv) : Option EEff :=
  arith [x.a, x.b] (fun fm => if x.sc = 0 then some (fun i => fm.minmax mx (x.la i) (x.lb i)) else none)
    (fun i =>
      let le := if x.sc = 0 then decide (x.sa i ≤ x.sb i) else decide (x.la i ≤ x.lb i)
      if le = mx then x.lb i else x.la i) x

def execElementMin (f : ElemF) (s : State) : Out := run (fireElem 6 f (minMax false)) s
def execElementMax (f : ElemF) (s : State) : Out := run (fireElem 7 f (minMax true)) s

/-- The sign of a lane cleared or flipped; a NaN is quieted (R346). -/
def signOp (flip : Bool) (fm : Fmt) (v : Nat) : Nat × Nat :=
  let d := fm.dec v
  if d.isNan then fm.op .rne [d] .invalid
  else (if flip then Nat.xor v (fm.signBit true) else v % 2 ^ (fm.eb + fm.mb), 0)

def execElementAbs (f : ElemF) (s : State) : Out :=
  run (fireElem 8 f (fun x => arith [x.a] (fun fm => some (fun i => signOp false fm (x.la i))) (fun i => x.wrap (x.sa i).natAbs) x)) s
def execElementNeg (f : ElemF) (s : State) : Out :=
  run (fireElem 9 f (fun x => arith [x.a] (fun fm => some (fun i => signOp true fm (x.la i))) (fun i => x.wrap (-(x.sa i))) x)) s

/-- An integer-only operation. -/
def intOnly (ops : EEnv → List EOp) (fi : EEnv → Nat → Nat) (x : EEnv) : Option EEff :=
  (intClass x.lm (ops x)).map (fun t => { res := (laneMap x (fun i => (fi x i, 0))).1, tag := t })

/-- Saturation to the signed (SC = 0) or unsigned range of a lane. -/
def satLane (x : EEnv) (op : Int → Int → Int) (i : Nat) : Nat :=
  let u := x.sc = 1
  let z := if u then op (x.la i) (x.lb i) else op (x.sa i) (x.sb i)
  let hi : Int := if u then (2 ^ x.w : Nat) - 1 else (2 ^ (x.w - 1) : Nat) - 1
  let lo : Int := if u then 0 else -((2 ^ (x.w - 1) : Nat) : Int)
  x.wrap (max lo (min hi z))

def execElementAdds (f : ElemF) (s : State) : Out :=
  run (fireElem 10 f (intOnly (fun x => [x.a, x.b]) (fun x i => satLane x (· + ·) i))) s
def execElementSubs (f : ElemF) (s : State) : Out :=
  run (fireElem 11 f (intOnly (fun x => [x.a, x.b]) (fun x i => satLane x (· - ·) i))) s
def execElementMulhi (f : ElemF) (s : State) : Out :=
  run (fireElem 12 f (intOnly (fun x => [x.a, x.b]) (fun x i =>
    if x.sc = 1 then x.la i * x.lb i / 2 ^ x.w else wrapNat (2 * x.w) (x.sa i * x.sb i) / 2 ^ x.w))) s

/-- CMP (R346): the unsigned conditions need an integer class. -/
def cmpElem (x : EEnv) : Option EEff :=
  let fin := fun (r : W64 × Nat) => some { res := r.1, pred := some (r.1.getLsbD 0), flags := r.2 : EEff }
  let ones := 2 ^ x.w - 1
  match numClass x.lm x.md [x.a, x.b] with
  | none => none
  | some (.flt _ fm) =>
    if x.sc = 4 || x.sc = 5 || x.sc ≥ 7 then none
    else fin (laneMap x (fun i => let r := fm.cmp x.sc (x.la i) (x.lb i); (if r.1 then ones else 0, r.2)))
  | some (.int _) =>
    fin (laneMap x (fun i =>
      let t := match x.sc with
        | 0 => decide (x.la i = x.lb i)
        | 1 => decide (x.la i ≠ x.lb i)
        | 2 => decide (x.sa i < x.sb i)
        | 3 => decide (x.sa i ≥ x.sb i)
        | 4 => decide (x.la i < x.lb i)
        | 5 => decide (x.la i ≥ x.lb i)
        | 6 => decide (x.sa i ≤ x.sb i)
        | _ => decide (x.la i ≤ x.lb i)
      (if t then ones else 0, 0)))
def execElementCmp (f : ElemF) (s : State) : Out := run (fireElem 13 f cmpElem) s

/-! ## Predicates, selection and logic (R347) -/

/-- The tag movement gives (R57, R353): the operand's, raw for one that carries none. -/
def EOp.mtag (o : EOp) : Nat := o.tag.getD 0
def EOp.bfp (o : EOp) : Bool := match o.tag with
  | some t => 6 ≤ t && t ≤ 12
  | none => false

def execElementSel (f : ElemF) (s : State) : Out :=
  run (fireElem 14 f (fun x =>
    let o := if x.el.p.getLsbD (x.sc % 8) then x.a else x.b
    some { res := o.v, tag := o.mtag })) s
def execElementPset (f : ElemF) (s : State) : Out :=
  run (fireElem 15 f (fun x => some { pred := some (x.f.sc.getLsbD 0) })) s
def execElementPmov (f : ElemF) (s : State) : Out :=
  run (fireElem 16 f (fun x =>
    let p := x.el.p.getLsbD (x.f.sa.toNat % 8)
    let q := x.el.p.getLsbD (x.f.sb.toNat % 8)
    some { pred := some (match x.sc with
      | 0 => p
      | 1 => !p
      | 2 => p && q
      | 3 => p || q
      | 4 => p != q
      | _ => p && !q) })) s

/-- 64-bit logic: every tag but the BFP ones; the tag of a (R347, R55). -/
def logic (ops : EEnv → List EOp) (g : EEnv → W64) (x : EEnv) : Option EEff :=
  if (ops x).any EOp.bfp then none else some { res := g x, tag := x.a.mtag }

def execElementAnd (f : ElemF) (s : State) : Out := run (fireElem 17 f (logic (fun x => [x.a, x.b]) (fun x => x.a.v &&& x.b.v))) s
def execElementOr (f : ElemF) (s : State) : Out := run (fireElem 18 f (logic (fun x => [x.a, x.b]) (fun x => x.a.v ||| x.b.v))) s
def execElementXor (f : ElemF) (s : State) : Out := run (fireElem 19 f (logic (fun x => [x.a, x.b]) (fun x => x.a.v ^^^ x.b.v))) s
def execElementNot (f : ElemF) (s : State) : Out := run (fireElem 20 f (logic (fun x => [x.a]) (fun x => ~~~x.a.v))) s

/-- Shifts: raw and integer tags, amount Lane(b) mod w, the tag of a (R347). -/
def shiftElem (g : EEnv → Nat → Nat → Nat) (x : EEnv) : Option EEff :=
  (intOnly (fun x => [x.a, x.b]) (fun x i => g x i (x.lb i % x.w)) x).map (fun r => { r with tag := x.a.mtag })

def execElementShl (f : ElemF) (s : State) : Out := run (fireElem 21 f (shiftElem (fun x i k => x.la i * 2 ^ k))) s
def execElementShr (f : ElemF) (s : State) : Out := run (fireElem 22 f (shiftElem (fun x i k => x.la i / 2 ^ k))) s
def execElementSar (f : ElemF) (s : State) : Out :=
  run (fireElem 23 f (shiftElem (fun x i k => x.wrap ((x.sa i).fdiv (2 ^ k : Nat))))) s

/-! ## Special functions (R348) -/

def special (g : Fmt → RM → Nat → Nat × Nat) (x : EEnv) : Option EEff :=
  match numClass x.lm x.md [x.a] with
  | some (.flt t fm) => if t ≤ 3 then
      (let r := laneMap x (fun i => g fm x.rm (x.la i)); some { res := r.1, tag := t, flags := r.2 }) else none
  | _ => none

def execElementExp2 (f : ElemF) (s : State) : Out := run (fireElem 24 f (special Fmt.exp2)) s
def execElementLog2 (f : ElemF) (s : State) : Out := run (fireElem 25 f (special Fmt.log2)) s
def execElementRcp (f : ElemF) (s : State) : Out := run (fireElem 26 f (special Fmt.rcp)) s
def execElementRsqrt (f : ElemF) (s : State) : Out := run (fireElem 27 f (special Fmt.rsqrt)) s
def execElementSqrt (f : ElemF) (s : State) : Out := run (fireElem 28 f (special Fmt.sqrt)) s
def execElementSin (f : ElemF) (s : State) : Out := run (fireElem 29 f (special (fun fm rm => fm.sinCos rm false))) s
def execElementCos (f : ElemF) (s : State) : Out := run (fireElem 30 f (special (fun fm rm => fm.sinCos rm true))) s

/-! ## Conversions (R349-R352) -/

/-- Convert one lane (R64, R65, R349). Source tag 0: a signed integer of `w` bits. -/
def convert (rm : RM) (src w dst : Nat) (v : Nat) : Nat × Nat :=
  match tagFmt src, tagFmt dst with
  | some f, some g => cvtFF f g rm v
  | none, some g => g.ofInt rm (sext w v)
  | some f, none => let n := 8 * tagBytes dst; let r := toIntV rm n (f.dec v); (wrapNat n r.1, r.2)
  | none, none =>
    let n := 8 * tagBytes dst
    let z := sext w v
    let hi : Int := (2 ^ (n - 1) : Nat) - 1
    let lo : Int := -((2 ^ (n - 1) : Nat) : Int)
    (wrapNat n (max lo (min hi z)), 0)

/-- The source format of CVT (R349), or none: FORMAT_MISMATCH. -/
def cvtSource (x : EEnv) : Option Nat :=
  let sb := x.f.sb.toNat
  let t := x.a.mtag
  if sb = 0 then (if t = 0 then some 0 else if tagLm t = some x.lm then some t else none)
  else if t = 0 || t = sb then some sb else none

def cvtElem (x : EEnv) : Option EEff :=
  match cvtSource x with
  | none => none
  | some src =>
    let lt := 8 * tagBytes x.sc
    let nt := 64 / lt
    let k := min x.lanes nt
    let one := fun j => convert x.rm src x.w x.sc (lane x.w x.a.v (if x.lanes > nt then x.md * k + j else j))
    let base := if x.lanes > nt then 0 else x.md * k
    let vals := (List.range nt).map (fun d => if base ≤ d && d < base + k then one (d - base) else (0, 0))
    some { res := w64 (ofLanes lt (vals.map Prod.fst)), tag := x.sc, flags := vals.foldl (fun a p => fOr a p.2) 0 }
def execElementCvt (f : ElemF) (s : State) : Out := run (fireElem 31 f cvtElem) s

/-- The exponent or mantissa operand b of BFPK and BFUNPK: raw, untagged, or a tag that R55 lets them read (log 31). -/
def bfpOperand (o : EOp) : Bool := let t := o.mtag; t ≤ 3 || (6 ≤ t && t ≤ 12)

/-- The source format of BFPK: a's tag, or BF16 and FP32 for an operand that carries none. -/
def bfpkFmt (x : EEnv) : Option Fmt :=
  match x.a.tag with
  | none => if x.lm = 1 then some bf16 else if x.lm = 2 then some fp32 else none
  | some t => if 1 ≤ t && t ≤ 3 && tagLm t = some x.lm then tagFmt t else none

/-- BFPK (R351). The manual gives no flags where the mantissa step has nothing to round: under E = 255 every lane becomes 0 and no
flag is raised; a NaN lane under another E is a free value and raises none; an infinite one saturates and raises NX, as a finite
lane beyond the range does (DESIGN CHOICE, log 31). -/
def bfpk (x : EEnv) : Option EEff :=
  if !bfpOperand x.b then none
  else match bfpkFmt x with
  | none => none
  | some fm =>
    let vs := (List.range x.lanes).map (fun i => fm.dec (x.la i))
    let E := bitsOf x.b.v.toNat 0 8
    if x.md = 0 then
      if vs.any (fun v => v.isNan || v.isInf) then some { res := 255, flags := fNV }
      else some { res := w64 (if E = 255 then 255 else max E (bfpExp vs)) }
    else
      let w := x.sc - 4
      let one := fun (v : FV) =>
        if E = 255 then (0, 0)
        else match v with
          | .nan .. => (x.free.toNat % 2 ^ w, 0)
          | .inf n => (if n then 2 ^ (w - 1) else 2 ^ (w - 1) - 1, fNX)
          | v => bfpMant w E v
      let l := vs.map one
      some { res := w64 (ofLanes w (l.map Prod.fst)), tag := x.sc, flags := l.foldl (fun a p => fOr a p.2) 0,
             drew := E ≠ 255 && vs.any FV.isNan }
def execElementBfpk (f : ElemF) (s : State) : Out := run (fireElem 32 f bfpk) s

def bfunpk (x : EEnv) : Option EEff :=
  let ta := x.a.mtag
  let wt := if ta = 0 then bitsOf x.b.v.toNat 8 4 else ta
  if !bfpOperand x.b || wt < 6 || wt > 12 then none
  else match tagFmt x.sc with
  | none => none
  | some fm =>
    let w := wt - 4
    let E := bitsOf x.b.v.toNat 0 8
    let r := laneMap x (fun i =>
      let lo := (x.md * x.lanes + i) * w
      fm.pack x.rm (bfpVal w E (if lo + w > 64 then 0 else bitsOf x.a.v.toNat lo w)).toEx)
    some { res := r.1, tag := x.sc, flags := r.2 }
def execElementBfunpk (f : ElemF) (s : State) : Out := run (fireElem 33 f bfunpk) s

def rndi (x : EEnv) : Option EEff :=
  match numClass x.lm x.md [x.a] with
  | some (.flt t fm) =>
    if t ≤ 3 then
      let rm := if bitOf x.sc 2 then x.rm else RM.of x.sc
      let r := laneMap x (fun i => let v := toIntV rm x.w (fm.dec (x.la i)); (x.wrap v.1, v.2))
      some { res := r.1, tag := if x.lm = 2 then 14 else 0, flags := r.2 }
    else none
  | _ => none
def execElementRndi (f : ElemF) (s : State) : Out := run (fireElem 34 f rndi) s

/-! ## Movement and tokens (R353) -/

def execElementMov (f : ElemF) (s : State) : Out := run (fireElem 35 f (fun x => some { res := x.a.v, tag := x.a.mtag })) s

def movi (x : EEnv) : Option EEff :=
  if x.md = 0 then some { res := x.el.k.getD 0 (x.sc % 4), tag := x.el.ktag.getD 0 (x.sc % 4) }
  else
    let v := wrapNat x.w (sext 8 (16 * x.f.sa.toNat + x.f.sb.toNat))
    some { res := w64 (ofLanes x.w (List.replicate x.lanes v)) }
def execElementMovi (f : ElemF) (s : State) : Out := run (fireElem 36 f movi) s

/-- The head token of input SA. -/
def EEnv.head (x : EEnv) : Tok := (x.el.inHead (x.f.sa.toNat - 8)).getD ⟨0, 0, false⟩

def execElementTake (f : ElemF) (s : State) : Out :=
  run (fireElem 37 f (fun x => some { res := x.head.data, pred := some x.head.eos })) s
def execElementPeek (f : ElemF) (s : State) : Out :=
  run (fireElem 38 f (fun x => some { res := x.head.data, pred := some x.head.eos, eat := false })) s
def execElementEmit (f : ElemF) (s : State) : Out :=
  run (fireElem 39 f (fun x => some { res := x.a.v, tok := (x.f.sc.extractLsb' 0 2, x.f.sc.getLsbD 2) })) s
def execElementPass (f : ElemF) (s : State) : Out :=
  run (fireElem 40 f (fun x => some { res := x.head.data, tok := (x.head.tag, x.head.eos) })) s
def execElementTags (f : ElemF) (s : State) : Out :=
  run (fireElem 41 f (fun x => some { res := w64 (x.head.tag.toNat + 4 * x.head.eos.toNat), eat := false })) s

/-! ## Chain operations (R354) -/

/-- A sub-operation of REDC and SCAN on two lanes, or none where the class does not accept it. -/
def subOp (c : NC) (rm : RM) (w sub : Nat) : Option (Nat → Nat → Nat × Nat) :=
  match c with
  | .flt _ fm => (match sub with
    | 0 => some (fm.add rm)
    | 1 => some (fm.minmax false)
    | 2 => some (fm.minmax true)
    | _ => none)
  | .int _ => some (fun a b => (match sub with
    | 0 => (a + b) % 2 ^ w
    | 1 => if sext w a ≤ sext w b then a else b
    | 2 => if sext w a ≤ sext w b then b else a
    | 3 => Nat.land a b
    | 4 => Nat.lor a b
    | _ => Nat.xor a b, 0))

def redc (x : EEnv) : Option EEff :=
  match (numClass x.lm x.md [x.a]).bind wideClass with
  | none => none
  | some c => (subOp c x.rm x.w x.sc).map (fun op =>
    let step := fun (st : Nat × Nat) v => let r := op st.1 v; (r.1, fOr st.2 r.2)
    let r := ((List.range x.lanes).drop 1).foldl (fun st i => step st (x.la i)) (x.la 0, 0)
    let r := if x.follow then let q := op (lane x.w x.leader 0) r.1; (q.1, fOr r.2 q.2) else r
    { res := w64 (r.1 % 2 ^ x.w), tag := c.tag, flags := r.2 })
def execElementRedc (f : ElemF) (s : State) : Out := run (fireElem 42 f redc) s

def shuf (x : EEnv) : Option EEff :=
  let X := match x.sc with
    | 0 => 0
    | 1 => x.el.k.getD 0 2
    | 2 => x.el.k.getD 0 3
    | _ => x.leader
  let r := laneMap x (fun i =>
    let n := bitsOf x.b.v.toNat (8 * i) 4
    (if n < x.lanes then x.la n else if n < 2 * x.lanes then lane x.w X (n - x.lanes) else 0, 0))
  some { res := r.1, tag := x.a.mtag }
def execElementShuf (f : ElemF) (s : State) : Out := run (fireElem 43 f shuf) s
def execElementBcst (f : ElemF) (s : State) : Out :=
  run (fireElem 44 f (fun x => some { res := w64 (ofLanes x.w (List.replicate x.lanes (x.la x.sc))), tag := x.a.mtag })) s

def scan (x : EEnv) : Option EEff :=
  match (numClass x.lm x.md [x.a]).bind wideClass with
  | none => none
  | some c => (subOp c x.rm x.w x.sc).map (fun op =>
    if x.follow then
      let r := laneMap x (fun i => op (lane x.w x.leader i) (x.la i))
      { res := r.1, tag := c.tag, flags := r.2 }
    else { res := x.a.v, tag := c.tag })
def execElementScan (f : ElemF) (s : State) : Out := run (fireElem 45 f scan) s

/-! ## Top-k (R355) -/

/-- A score ranks above another: integer, or FP32 with a NaN as minus infinity. -/
def scoreCmp (fp : Bool) (a b : Nat) : Int :=
  if fp then
    let v := fun n => if (fp32.dec n).isNan then FV.inf true else fp32.dec n
    cmpV false (v a) (v b)
  else if sext 32 a < sext 32 b then -1 else if sext 32 a > sext 32 b then 1 else 0

/-- Entry x beats entry y. -/
def beats (fp : Bool) (x y : W64) : Bool :=
  let c := scoreCmp fp (bitsOf x.toNat 32 32) (bitsOf y.toNat 32 32)
  c > 0 || (c = 0 && bitsOf x.toNat 0 32 < bitsOf y.toNat 0 32)

def sentinel (fp : Bool) : W64 := if fp then 0xFF800000FFFFFFFF else 0x80000000FFFFFFFF

def execElementTkins (f : ElemF) (s : State) : Out :=
  run (fireElem 46 f (fun x =>
    if x.a.mtag ≠ 0 || x.b.mtag ≠ 0 then none
    else if beats (x.md = 1) x.a.v x.b.v then some { res := x.a.v, chain := some x.b.v }
    else some { res := x.b.v, chain := some x.a.v })) s
def execElementTkout (f : ElemF) (s : State) : Out :=
  run (fireElem 47 f (fun x =>
    if x.a.mtag ≠ 0 then none else some { res := x.a.v, wipe := some (x.f.sa.toNat % 8, sentinel (x.md = 1)) })) s

/-! ## Control, end-of-stream and permits (R356-R358) -/

def execElementNop (f : ElemF) (s : State) : Out := run (fireElem 48 f (fun _ => some {})) s
def execElementEose (f : ElemF) (s : State) : Out :=
  run (fireElem 49 f (fun x =>
    let ins := (List.range 4).filter (trigIn x.trig)
    let outs := (List.range 4).filter (trigOut x.trig)
    some { eats := ins, outs := outs })) s
def execElementCtok (f : ElemF) (s : State) : Out := run (fireElem 50 f (fun x => some { res := x.a.v })) s
def execElementWaitp (f : ElemF) (s : State) : Out :=
  run (fireElem 51 f (fun x => some { res := x.head.data, pred := some true })) s
def execElementEmitp (f : ElemF) (s : State) : Out :=
  run (fireElem 52 f (fun x => some { res := w64 (bitsOf x.a.v.toNat 0 16), tok := (3, false) })) s

/-! ## A cycle of a region -/

/-- The chain that starts at element e' of a region in this cycle: the slots its members fire, or none when it does not
advance (R342). -/
def State.chainPlan (s : State) (t : Nat) (rk : Nat) (e : Nat) : Option (List (Nat × Option Nat)) :=
  let r := s.region rk
  let n := r.chainLen e 15
  let elOf := fun k => s.elem (64 * t + e + k)
  let due := (List.range (n - 1)).map (fun k => (e + k + 1, (elOf k).slot))
  if due.all (fun p => r.memberOk (s.elem (64 * t + p.1)) p.1 p.2) then some ((e, r.pick (elOf 0) e) :: due) else none

/-- The slots that a region's elements fire in a cycle, resolved against the state at its start (R337). -/
def State.gridPlan (s : State) (rk : Nat) : List (Nat × Option Nat) :=
  let r := s.region rk
  if !r.fires then []
  else
    let heads := ((List.range 16).map (16 * (rk % 4) + ·)).filter (fun e => !r.follows e)
    (heads.filterMap (s.chainPlan (rk / 4) rk)).flatten

/-- Begin a region's cycle: the chains move as planned, members that fire nothing show a chain value of 0 where a slot is due,
and the firings follow. -/
def State.gridBegin (s : State) (rk : Nat) (plans : List (Nat × Option Nat)) : State × List Act :=
  let t := rk / 4
  let r := s.region rk
  let acts := plans.filterMap (fun p => match p.2 with
    | some k => if trigV (r.trig p.1 k) then some (Act.elem t p.1 k) else none
    | none => none)
  let idle := plans.filter (fun p => match p.2 with
    | some k => !trigV (r.trig p.1 k)
    | none => true)
  let moved := idle.filterMap (fun p =>
    let el := s.elem (64 * t + p.1)
    let el' := { el with slot := p.2, chain := if p.2.isSome then 0 else el.chain }
    if el' = el then none else some (64 * t + p.1, el'))
  if acts.isEmpty then
    ({ s with elems := moved.foldl (fun (m : Map Elem) (p : Nat × Elem) => m.put p.1 p.2) s.elems }, [])
  else
    (s.updRegion rk (fun r => { r with cyc := some ⟨moved, bitsOf r.fpstat.toNat 8 2, 0, [], acts.length⟩ }), acts)

/-- End a region's cycle by hand: what has been gathered is applied. -/
def State.gridEnd (s : State) (rk : Nat) : State :=
  match (s.region rk).cyc with
  | none => s
  | some g => s.gridApply rk g

end Sys2Proof.Machine
end

