-- ==== Sys2Proof/Machine/Copy.lean ====
section
/-! DEFINITION. Group COPY and DRAIN: transfers, record walks and stream ports (R201-R205, R394-R405). -/

namespace Sys2Proof.Machine

/-! ## Copying bytes (R137, R202, R203, R396) -/

/-- A piece of a copy inside one line on both sides: source and destination address, length, offset in the copy. -/
structure Chunk where
  s : Nat
  d : Nat
  n : Nat
  off : Nat
  deriving DecidableEq, Repr

/-- Runs of consecutive addresses of a map's row (i1, i2), from element `i` on: address and length in bytes. -/
def mapRuns (tm : BitVec 256) (i1 i2 : Nat) : Nat → Nat → List (Nat × Nat)
  | 0, _ => []
  | k + 1, i =>
    let x0 := tmF tm 64 32
    let esz := tmEsz tm
    let wrap := tmF tm 224 20 * 64
    if i ≥ x0 then []
    else
      let a := (tmapAddr tm i i1 i2).toNat
      let m := if wrap = 0 then x0 - i
        else min (x0 - i) ((wrap - (a + 2 ^ 64 - tmF tm 0 64) % 2 ^ 64 + esz - 1) / esz)
      (a, m * esz) :: mapRuns tm i1 i2 k (i + m)

/-- The pieces of a copy, from its source and destination runs: cut at lines, at each 4,096 bytes of the copy (R255), and at words
when `word`. -/
def chunks (word : Bool) : Nat → List (Nat × Nat) → List (Nat × Nat) → Nat → List Chunk
  | 0, _, _, _ => []
  | _, [], _, _ => []
  | _, _, [], _ => []
  | k + 1, (s, sn) :: sr, (d, dn) :: dr, off =>
    let m := min (min (min sn dn) (4096 - off % 4096)) (min (128 - s % 128) (128 - d % 128))
    let m := if word then min m 8 else m
    let s' := if sn ≤ m then sr else ((s + m) % 2 ^ 64, sn - m) :: sr
    let d' := if dn ≤ m then dr else ((d + m) % 2 ^ 64, dn - m) :: dr
    ⟨s, d, m, off⟩ :: chunks word k s' d' (off + m)

/-- Does a copy write every byte of a destination line? -/
def coversVa (l : List Chunk) (line : Nat) : Bool :=
  let m := l.filter (fun c => c.d < line + 128 && line < c.d + c.n)
  (List.range 128).all (fun i => m.any (fun c => c.d ≤ line + i && line + i < c.d + c.n))

/-- TAG_SPACE (R101). -/
def tagSpace (va : Nat) : Flt := { code := .tagSpace, addr := w64 va }

def copyRead (sup : Bool) : Use := useERead sup [0, 2, 3, 4, 5] 0
def copyWrite (sup : Bool) : Use := useEWrite sup [0, 3, 5] 0

/-- A side of a piece: translated, its class TAGGED when full bits are used, its bank checked; full bits belong to aligned
words. -/
def copySide (t part : Nat) (u : Use) (tagged : Bool) (va n : Nat) : M Tr := do
  if tagged then needAlign (w64 va) 8
  let tr ← mPiece t part u (if tagged then .plain else .engine) va n
  let s ← getS
  if tagged && tr.cls ≠ 5 then raise (tagSpace va)
  else match (if tagged then s.bankCheck va tr.pa .tagged else .ok ()) with
    | .error f => raise f
    | .ok _ => pure tr

/-- A scratch word or line has full bits (R130). -/
def State.scratchPa (s : State) (pa : Nat) : Bool :=
  match s.paKind pa with
  | .window t off => off < 0x400000 && s.role t (off / 0x20000) = 0
  | _ => false

/-- Set words full, waking who waits on them (R131). -/
def State.fillWords (s : State) (pa n : Nat) : State :=
  ((List.range (n / 8)).foldl (fun (s : State) i => s.setFull (pa + 8 * i) true) s).tagWakeAll pa n

/-- The way from a tile to an address: none, by no port (R475); 0 the mesh; u + 1 the local store or window of tile u. -/
def State.wayTo (s : State) (t pa : Nat) : Option Nat :=
  match s.paKind pa with
  | .window u _ => if u = t then none else some (u + 1)
  | .hole => none
  | _ => some 0

/-- Bytes of the request of at most 4,096 that a piece belongs to on one side (R255): of the same 4,096 bytes of the copy, those
that go the same way; `va` names the side. -/
def State.reqBytes (s : State) (t part : Nat) (u : Use) (va : Chunk → Nat) (all : List Chunk) (c : Chunk) (way : Nat) : Nat :=
  ((all.filter (fun d => d.off / 4096 = c.off / 4096 && (match (s.translateNow t part (w64 (va d)) u).1 with
    | .ok tr => decide (s.wayTo t tr.pa = some way)
    | .error _ => false))).map Chunk.n).sum

/-- The request that a piece makes on one side, unless one of its 4,096 bytes has made it: copy data of another tile takes the
ring, or the mesh where the row is split (R29, R206); other data the mesh. -/
def State.copyReq (s : State) (t : Nat) (w : Who) (id way n : Nat) (wr : Bool) : State :=
  let own := some (w.key % 16, w.cls)
  let u := way - 1
  if way = 0 then s.meshReq t own n wr id
  else if s.offRing t u then (s.meshReq t own n wr id).device u (if wr then 1 else flitsOf n)
  else if wr then (s.meterRing t w.cls n id).sendSeg w t u 2 0 n
  else (s.meterRing t w.cls n id).sendSeg w u t 2 0 n

/-- What one side of a piece sends for the copy `id`, and the requests that the copy has made since. -/
def State.copyTraffic (s : State) (t : Nat) (w : Who) (id : Nat) (tr : Tr) (all : List Chunk) (c : Chunk) (wr : Bool)
    (p : CopyPos) : CopyPos × State :=
  let r : CopyPos × State := match s.wayTo t tr.pa with
    | none => (p, s)
    | some way =>
      let key := (wr, c.off / 4096, way)
      if p.asked.contains key then (p, s)
      else
        let n := if wr then s.reqBytes t w.part (copyWrite w.sup) Chunk.d all c way
          else s.reqBytes t w.part (copyRead w.sup) Chunk.s all c way
        ({ p with asked := key :: p.asked.filter (fun x => x.2.1 = c.off / 4096) }, s.copyReq t w id way n wr)
  match s.paKind tr.pa with
  | .hbm =>
    let s := r.2
    let s := if sliceHomed tr then s.reqSlice (some t) tr.pa wr (tr.cls ≠ 3) (some (w.key % 16)) else s
    let s := s.wayTouch tr c.n
    (r.1, if wr then s.cacheDrop t tr.pa c.n else s)
  | _ => r

/-- The bytes of a piece's source, or none where they are poisoned (R137, R140, R203). -/
def copySource (t : Nat) (w : Who) (id : Nat) (src : Tr) (n : Nat) : M (Option (List Byte)) := fun s =>
  match s.paKind src.pa with
  | .slow _ => let (r, s) := s.slowRead t w.cls src n id; .ok r s
  | _ => if (s.poisonAt src.pa n).isSome then .ok none s else let (bs, s) := s.peek src.pa n; .ok (some bs) s

/-- Write a piece, or the poison of its source, at its destination (R137, R203); `whole`: the copy writes the whole line. -/
def copyDest (dst : Tr) (sf whole : Bool) (c : Chunk) (bs : Option (List Byte)) (p : CopyPos) (s : State) : CopyPos × State :=
  let line := dst.pa / 128 * 128
  match bs with
  | none =>
    let s := s.setPoison line true
    let s := if s.scratchPa line then s.fillWords line 128 else s
    ({ p with bad := p.bad.or (some c.off), marks := p.marks ++ [line] }, s)
  | some bs =>
    if p.marks.contains line then (p, s)
    else if s.poisoned line && !whole then ({ p with bad := p.bad.or (some c.off) }, s)
    else
      let ents := (s.tableOver dst.pa bs.length).filter (fun x => !p.fresh.contains x.1)
      let s := (s.wrBytes dst.pa bs).setPoison line false
      let s := (ents.filter (fun x => x.2.2)).foldl (fun (s : State) x => s.undefBytes x.1 x.2.1) s
      ({ p with fresh := p.fresh ++ (ents.filter (fun x => !x.2.2)).map Prod.fst }, if sf then s.fillWords dst.pa c.n else s)

/-- Does a piece's source wait: a word that is not full yet (WF), or an accumulator that accepted operations name (R91)? -/
def State.sourceWaits (s : State) (wf : Bool) (pa n : Nat) : Bool :=
  (wf && !s.isFull pa) || !(s.accBusyAt pa n).isEmpty

/-- Copy one piece of the copy `id`; false when its source is waited for. -/
def copyChunk (t : Nat) (w : Who) (id : Nat) (wf sf : Bool) (all : List Chunk) (c : Chunk) (p : CopyPos) :
    M (Bool × CopyPos) := do
  let src ← copySide t w.part ((copyRead w.sup).by w) wf c.s c.n
  let s ← getS
  if s.sourceWaits wf src.pa c.n then pure (false, { p with hold := some src.pa })
  else do
    let dst ← copySide t w.part ((copyWrite w.sup).by w) sf c.d c.n
    let (p, s) := (← getS).copyTraffic t w id src all c false p
    let (p, s) := s.copyTraffic t w id dst all c true p
    modS (fun _ => s)
    let bs ← copySource t w id src c.n
    let s ← getS
    let (p, s) := copyDest dst sf (!s.poisoned (dst.pa / 128 * 128) || coversVa all (c.d / 128 * 128)) c bs p s
    modS (fun _ => s)
    pure (true, { p with pos := c.off + c.n, hold := none })

/-- Read one piece of a record whose destination is in another package; false when its source is waited for. -/
def farChunk (t : Nat) (w : Who) (id : Nat) (wf : Bool) (all : List Chunk) (c : Chunk) (p : CopyPos) :
    M (Bool × CopyPos) := do
  let src ← copySide t w.part ((copyRead w.sup).by w) wf c.s c.n
  let s ← getS
  if s.sourceWaits wf src.pa c.n then pure (false, { p with hold := some src.pa })
  else do
    let (p, s) := s.copyTraffic t w id src all c false p
    modS (fun _ => s)
    let bs ← copySource t w id src c.n
    pure (true, { p with
      pos := c.off + c.n
      hold := none
      bad := if bs.isNone then p.bad.or (some c.off) else p.bad
      buf := p.buf ++ [⟨c.d, c.n, c.off, coversVa all (c.d / 128 * 128), bs⟩] })

/-- Treat pieces until one waits. The answer says whether all are done. -/
def eachChunk (f : Chunk → CopyPos → M (Bool × CopyPos)) : List Chunk → CopyPos → M (Bool × CopyPos)
  | [], p => pure (true, p)
  | c :: r, p => do
    if c.off < p.pos then eachChunk f r p
    else
      let x ← f c p
      if x.1 then eachChunk f r x.2 else pure x

/-- Copy pieces until one waits. -/
def copyAll (t : Nat) (w : Who) (id : Nat) (wf sf : Bool) (all l : List Chunk) (p : CopyPos) : M (Bool × CopyPos) :=
  eachChunk (copyChunk t w id wf sf all) l p

/-- Report POISON in PSN and PSNOFF, the first since they were cleared (R398). -/
def CopyCh.note (c : CopyCh) (bad : Option Nat) : CopyCh :=
  match bad with
  | some o => if c.psn then c else { c with psn := true, psnoff := o }
  | none => c

/-- Count a copy's bytes toward a barrier of this package; an overrun goes to the issuer (R252). The bytes are visible to the
barrier's parties first: its tile keeps no older copy of a line (R163). -/
def State.countBytes (s : State) (tile bnum n : Nat) (w : Who) : State :=
  (s.cacheAcquire tile 3).barApply tile bnum 0 n (fun s => s.asyncTo w (overrun bnum 3))

/-! ## Transfers (R395, R396) -/

/-- Length of a transfer (R396). -/
def xferLen (f : XcopyF) (tm : BitVec 256) : Nat := if f.mode = 0 then f.lenm1.toNat + 1 else tmF tm 64 32 * tmEsz tm

def Xfer.chunks (x : Xfer) : List Chunk :=
  let m := fun (v : W64) => mapRuns x.tm (v.toNat % 2 ^ 32) (v.toNat / 2 ^ 32) (tmF x.tm 64 32) 0
  let s := if x.mode = 1 then m x.a else [(x.a.toNat, x.len)]
  let d := if x.mode = 2 then m x.b else [(x.b.toNat, x.len)]
  Sys2Proof.Machine.chunks (x.wf || x.sf) x.len s d 0

/-- The work that a channel shows as its state once something has ended (R397, R398). -/
def CopyCh.settle (c : CopyCh) : CopyCh :=
  if c.state = 2 then c else { c with state := if c.walkId = 0 && c.queue.isEmpty then 0 else 1 }

/-- XCOPY (R396): the checks, a place in the queue, acceptance. -/
def execXcopy (h : Head) (f : XcopyF) (s : State) : Out :=
  let tmOf := fun (e : Env) (s : State) => (s.ctx e.key).tms.getD 0 f.mapn.toNat
  let bad := fun (e : Env) (s : State) =>
    let tm := tmOf e s
    if f.mode ≠ 0 && !tmV tm then some (fltWord .reservedField e)
    else if (f.wf || f.sf) && !(xferLen f tm % 8 = 0 && e.a.toNat % 8 = 0 && e.b.toNat % 8 = 0) then
      some (misFault (if e.a.toNat % 8 ≠ 0 then e.a else e.b) 8)
    else none
  run (fun s => fireSeq h nAB (fun e s =>
    match bad e s with
    | some x => faultOf e x s
    | none =>
      let tm := tmOf e s
      let (id, s) := s.fresh
      let c := s.copyCh e.tile f.ch.toNat
      let x : Xfer := ⟨id, f.mode.toNat, tm, e.a, e.b, xferLen f tm, if f.bv then some f.bnum.toNat else none, f.wf, f.sf, s.who e⟩
      let c := if c.state = 0 && c.queue.isEmpty then { c with psn := false, psnoff := 0 } else c
      let c := { c with queue := c.queue ++ [x], state := if c.state = 2 then 2 else 1 }
      (s.setCopyCh e.tile f.ch.toNat c).accept e.key e.idx 0) s
    (fun e s => match hold15 e s with
      | some s => some s
      | none => if (bad e s).isNone && (s.copyCh e.tile f.ch.toNat).queue.length ≥ 4 then some s else none)) s

/-- XCOPY_TRANSFER_COMPLETE (R396): the oldest transfer of a channel is performed. -/
def execXcopyTransferComplete (s : State) : Out :=
  run (fun s => match s.focus with
    | .ev t k _ _ _ =>
      let c := s.copyCh t k
      (match c.queue with
       | [] => s
       | x :: r =>
         if c.cur = 2 then s
         else match copyAll t x.who x.id x.wf x.sf x.chunks x.chunks c.at_ s with
           | .ok (false, p) s => s.setCopyCh t k { c with cur := 1, at_ := p }
           | .ok (true, p) s =>
             if s.copyOpen t x.id then s.setCopyCh t k { c with cur := 1, at_ := p } else
             let s := s.setCopyCh t k (({ c with queue := r, cur := 0, at_ := {} }.note p.bad).settle)
             let s := match x.bar with
               | some b => s.countBytes t b x.len x.who
               | none => s
             s.completeTo x.who
           | .error f s =>
             let s := s.setCopyCh t k ({ c with queue := r, cur := 0, at_ := {} }.settle)
             (s.asyncTo x.who { f with src := 3 }).abandonTo x.who)
    | _ => s) s

/-! ## Record walks (R202-R205, R397) -/

def recRows (r : List W64) : Nat := wAt r 3 / 2 ^ 32
def recLen (r : List W64) : Nat := wAt r 3 % 2 ^ 32
def recSmap (r : List W64) : Nat := bitsOf (wAt r 0) 58 5
def recDmap (r : List W64) : Nat := bitsOf (wAt r 0) 53 5
def recWf (r : List W64) : Bool := bitOf (wAt r 0) 52
def recSf (r : List W64) : Bool := bitOf (wAt r 0) 51
def recRmt (r : List W64) : Bool := bitOf (wAt r 0) 50
def recBar (r : List W64) : Option (Nat × Nat) :=
  if bitOf (wAt r 0) 41 then some (bitsOf (wAt r 0) 25 10, bitsOf (wAt r 0) 35 6) else none

/-- CheckRecord (R202, R203, R205): none of the captured maps it names is invalid either (R82). -/
def recOk (maps : Map (BitVec 256)) (r : List W64) : Bool :=
  let ctl := wAt r 0
  let mapOk := fun n => n = 0 || (n ≤ 16 && tmV (maps.getD 0 (n - 1)))
  bitsOf ctl 0 25 = 0 && recRows r ≠ 0 && recLen r ≠ 0 && (recRmt r || bitsOf ctl 42 8 = 0) &&
  (match recBar r with
   | some (t, b) => b < 48 && tileOk t
   | none => true) &&
  mapOk (recSmap r) && mapOk (recDmap r) &&
  (!(recWf r || recSf r) || (recLen r % 8 = 0 && wAt r 4 % 8 = 0 && wAt r 4 / 2 ^ 32 % 8 = 0))

/-- Address of a row on one side (R202). -/
def recRow (maps : Map (BitVec 256)) (map : Nat) (base : W64) (stride row : Nat) : Nat :=
  if map = 0 then wrapNat 64 ((base.toNat : Int) + row * sext 32 stride)
  else (tmapAddr (maps.getD 0 (map - 1)) 0 (base.toNat % 2 ^ 32 + row) (base.toNat / 2 ^ 32)).toNat

def recChunks (maps : Map (BitVec 256)) (r : List W64) : List Chunk :=
  let rows := List.range (recRows r)
  let s := rows.map (fun i => (recRow maps (recSmap r) (r.getD 1 0) (wAt r 4 / 2 ^ 32) i, recLen r))
  let d := rows.map (fun i => (recRow maps (recDmap r) (r.getD 2 0) (wAt r 4 % 2 ^ 32) i, recLen r))
  chunks (recWf r || recSf r) (recRows r * recLen r) s d 0

/-- Read a transfer record: each word single-copy atomic. -/
def readRec (t : Nat) (w : Who) (va : W64) : M (List W64) := do
  needAlign va 64
  let bs ← readU t w.part ((copyRead w.sup).by w) .engine va 64
  pure ((List.range 8).map (fun i => w64 (leNat ((bs.drop (8 * i)).take 8))))

def putWord (t : Nat) (w : Who) (va v : W64) : M Unit :=
  writeF t w.part ((copyWrite w.sup).by w) .engine va (leBytes 8 v.toNat)

/-- A piece in a message to another package: destination, length, offset, flags (1 poisoned, 2 its line whole), bytes. The form
is the model's own (log 77). -/
def FarPart.bytes (x : FarPart) : List Byte :=
  leBytes 8 x.d ++ leBytes 2 x.n ++ leBytes 8 x.off ++ leBytes 1 (x.data.isNone.toNat + 2 * x.whole.toNat) ++
  x.data.getD (List.replicate x.n 0)

def farParts : Nat → List Byte → List FarPart
  | 0, _ => []
  | k + 1, l =>
    if l.length < 19 then []
    else
      let n := leNat ((l.drop 8).take 2)
      let fl := leNat ((l.drop 18).take 1)
      ⟨leNat (l.take 8), n, leNat ((l.drop 10).take 8), bitOf fl 1, if bitOf fl 0 then none else some ((l.drop 19).take n)⟩ ::
        farParts k (l.drop (19 + n))

/-- The messages of a record: parts of at most 4,096 bytes, or a little more where a destination line would be cut. -/
def farCut (n : Nat) (cur : List FarPart) : List FarPart → List (List FarPart)
  | [] => if cur.isEmpty then [] else [cur]
  | x :: r =>
    if n + x.n > 4096 && (cur.getLast?.map (fun y => y.d / 128)) ≠ some (x.d / 128) then
      if cur.isEmpty then farCut x.n [x] r else cur :: farCut x.n [x] r
    else farCut (n + x.n) (cur ++ [x]) r

/-- What a record sends: nothing goes into a line that it poisons elsewhere (R137, R203). -/
def farMsgs (l : List FarPart) : List (List FarPart) :=
  farCut 0 [] (l.filter (fun x => x.data.isNone || !l.any (fun y => y.data.isNone && y.d / 128 = x.d / 128)))

/-- Send what the record of channel `k` has read to package `dpkg`: CHN messages that take the rings to the pod gateway, from
its die's stop of the package ring when its own row is split, metered there on the mesh (R29, R202, R206). -/
def State.sendFar (s : State) (t k id : Nat) (w : Who) (r : List W64) (l : List (List FarPart)) : State :=
  l.foldl (fun (s : State) x =>
    let n := (x.map FarPart.n).sum
    let s := if s.rowSplit t then s.meshReq t (some (w.key % 16, w.cls)) n true id else s.meterRing t w.cls n id
    s.injectFar {
      cls := 2, dpkg := bitsOf (wAt r 0) 42 8, dtile := (recBar r).elim 0 Prod.fst, spkg := s.pkgno, stile := t, who := w,
      tag := 0, aux := (recSf r).toNat, data := leBytes 8 id ++ leBytes 1 k ++ (x.map FarPart.bytes).flatten, sig := false,
      npkt := 0 }) s

/-- A record for another package, once read: sent, then complete when every message has been answered; a fault there is the
record's (R203, R205). STATUS and CTL must be writable before anything is sent. -/
def farDone (t k : Nat) (w : Who) (head : W64) (r : List W64) (p : CopyPos) : M (Bool × CopyPos) := do
  if !p.sent then do
    checkU t w.part (copyWrite w.sup) .engine (head + 0x30) 8
    checkU t w.part (copyWrite w.sup) .engine head 8
    let l := farMsgs p.buf
    modS (fun s => s.sendFar t k (s.copyCh t k).walkId w r l)
    pure (false, { p with sent := true, acks := l.length, buf := [] })
  else match p.flt with
    | some f => raise f
    | none => pure (p.acks = 0, p)

/-- Count a record's bytes where its barrier is: of another package, by an event on the signal network (R202, R252). -/
def State.countRec (s : State) (w : Who) (r : List W64) (far : Bool) : State :=
  match recBar r with
  | none => s
  | some (bt, b) =>
    let n := recRows r * recLen r
    if far then { s with rembars := s.rembars ++ [⟨bitsOf (wAt r 0) 42 8, bt, b, some n, w.key, 128, 0, 0, 0, w, s.pkgno⟩] }
    else s.countBytes bt b n w

/-- One record: checked, copied, counted, its STATUS and CTL written; the answer is none while something is waited for, its
requests too, else the next record's address (0: the walk ends). -/
def walkRec (t k : Nat) : M (Option (W64 × CopyPos)) := do
  let c := (← getS).copyCh t k
  let w := c.who
  let r ← if c.at_.rcd.isEmpty then readRec t w c.head else pure c.at_.rcd
  if !bitOf (wAt r 0) 63 then pure (some (0, {}))
  else if !recOk c.maps r then raise { code := .reservedField, addr := c.head, extra := r.getD 0 0 }
  else do
    let l := recChunks c.maps r
    let far := recRmt r && bitsOf (wAt r 0) 42 8 ≠ (← getS).pkgno
    let (fin, p) ← (if far then eachChunk (farChunk t w c.walkId (recWf r) l) l c.at_
      else copyAll t w c.walkId (recWf r) (recSf r) l l c.at_)
    let (fin, p) ← (if fin && far then farDone t k w c.head r p else pure (fin, p))
    if !fin || (← getS).copyOpen t c.walkId then do
      modS (fun s => s.setCopyCh t k { s.copyCh t k with cur := 2, at_ := { p with rcd := r } })
      pure none
    else do
      putWord t w (c.head + 0x30) (match p.bad with
        | some o => w64 (o * 256 + 1)
        | none => 0)
      putWord t w c.head (w64 (wAt r 0 - 2 ^ 63))
      modS (fun s => s.countRec w r far)
      let nx ← readU t w.part ((copyRead w.sup).by w) .engine (c.head + 0x28) 8
      pure (some (w64 (leNat nx), p))

/-- The first of two offsets. -/
def firstOff (a b : Option Nat) : Option Nat :=
  match a, b with
  | some x, some y => some (min x y)
  | none, y => y
  | x, none => x

/-- Write the pieces of a message where the partition of the same number translates their addresses, up to the first that
faults (R202, R205). -/
def landParts (t : Nat) (w : Who) (sf : Bool) : List FarPart → CopyPos → State → CopyPos × State
  | [], p, s => (p, s)
  | x :: r, p, s =>
    match copySide t w.part { copyWrite w.sup with own := .dev } sf x.d x.n s with
    | .ok dst s =>
      let (p, s) := copyDest dst sf x.whole ⟨0, x.d, x.n, x.off⟩ x.data p s
      landParts t w sf r p s
    | .error f s => ({ p with flt := some f }, s)

/-- Data of a record of another package has come: it is written, and answered with the first byte that poison met and with the
fault (R202, R203, R205). -/
def State.landRecord (s : State) (m : Msg) : State :=
  let (p, s) := landParts m.dtile m.who (bitOf m.aux 0) (farParts m.data.length (m.data.drop 9)) {} s
  s.notice m.dtile m.spkg m.stile m.who noticeCopy (m.data.take 9 ++ leBytes 8 ((p.bad.map (· + 1)).getD 0) ++
    (p.flt.elim [] faultBytes))

/-- An answer to a record's data comes back to its channel. -/
def State.copyAnswer (s : State) (m : Msg) : State :=
  let k := leNat ((m.data.drop 8).take 1)
  let c := s.copyCh m.dtile k
  let o := leNat ((m.data.drop 9).take 8)
  if c.cur = 2 && c.walkId = leNat (m.data.take 8) then
    s.setCopyCh m.dtile k { c with at_ := { c.at_ with
      acks := c.at_.acks - 1
      bad := firstOff c.at_.bad (if o = 0 then none else some (o - 1))
      flt := c.at_.flt.or (faultOfBytes (m.data.drop 17)) } }
  else s

/-- A record whose data a failed link has lost cannot complete: its channel stops, and LINK_LOST goes to the launch (R205, R271;
log 77). -/
def State.copyLost (s : State) (m : Msg) : State :=
  let k := leNat ((m.data.drop 8).take 1)
  let c := s.copyCh m.stile k
  if m.cls = 2 && c.cur = 2 && c.walkId = leNat (m.data.take 8) then
    (s.setCopyCh m.stile k { c with state := 2, cur := 0, at_ := {}, walkId := 0 }).completeTo c.who
  else s

/-- COPY_RECORD_COMPLETE (R203, R205): the record at CHEAD is copied, or stops the channel. -/
def execCopyRecordComplete (s : State) : Out :=
  run (fun s => match s.focus with
    | .ev t k _ _ _ =>
      let c := s.copyCh t k
      if c.walkId = 0 || c.cur = 1 || (c.cur = 0 && !c.queue.isEmpty) then s
      else match walkRec t k s with
        | .ok none s => s
        | .ok (some (nx, p)) s =>
          let (id, s) := s.fresh
          let c := (s.copyCh t k).note p.bad
          let s := s.setCopyCh t k ({ c with head := nx, cur := 0, at_ := {}, walkId := if nx = 0 then 0 else id }.settle)
          if nx = 0 then s.completeTo c.who else s
        | .error f s =>
          let s := s.setCopyCh t k { s.copyCh t k with state := 2, cur := 0, at_ := {}, walkId := 0 }
          (s.asyncTo c.who { f with src := 3 }).completeTo c.who
    | _ => s) s

/-- XCHAIN (R397). -/
def execXchain (h : Head) (ch : BitVec 2) (s : State) : Out :=
  run (fun s => fireSeq h nA (fun e s =>
    let c := s.copyCh e.tile ch.toNat
    if e.a = 0 then faultOf e (fltWord .reservedField e) s
    else if e.a.toNat % 64 ≠ 0 then faultOf e (misFault e.a 64) s
    else if c.state = 1 then s.finish e.key e.idx 1
    else
      let (id, s) := s.fresh
      let c := { c with
        head := e.a, state := 1, psn := false, psnoff := 0, who := s.who e, maps := (s.ctx e.key).tms, walkId := id }
      (s.setCopyCh e.tile ch.toNat c).accept e.key e.idx 0) s hold15) s

/-- XSTAT (R398). -/
def execXstat (h : Head) (ch : BitVec 2) (s : State) : Out :=
  run (fun s => fireSeq h {} (fun e s =>
    let c := s.copyCh e.tile ch.toNat
    s.finish e.key e.idx (w64 (c.state % 4 + c.psn.toNat * 4 + c.queue.length * 16 + c.psnoff % 2 ^ 56 * 256))) s) s

/-! ## TMAPSET (R81, R399) -/

/-- What R81 asks of a map that becomes valid. -/
def tmOk (tm : BitVec 256) : Bool := tmF tm 250 5 = 0 && tmF tm 64 32 ≠ 0 && tmF tm 96 32 ≠ 0 && tmF tm 128 32 ≠ 0

def execTmapset (h : Head) (n : BitVec 4) (s : State) : Out :=
  run (fun s => fireM h nA (fun e => do
    needAlign e.a 32
    let c ← mCtx e
    let bs ← plainRead e { rd := true, sup := c.sup, cls := [0] } e.a 32
    let tm := BitVec.ofNat 256 (leNat bs)
    needField e (!tmV tm || tmOk tm)
    modS (fun s => (s.updCtx e.key (fun c => { c with tms := c.tms.put n.toNat (if tmV tm then tm else 0) })).finish e.key e.idx 0))
    s (fun e s => plainHold e { rd := true, sup := (s.ctx e.key).sup, cls := [0] } e.a 32 s)) s

/-! ## DRAIN (R168, R394) -/

/-- The path of a destination page (R394), or none. -/
def State.pathOf (s : State) (t : Nat) (w : Who) (va : Nat) : Option Nat :=
  match s.translateNow t w.part (w64 va) ((copyWrite w.sup).by w) with
  | (.ok tr, s) => (match s.paKind tr.pa with
    | .window wt off => if off < 0x400000 then some (if s.role wt (off / 0x20000) = 2 then 1 else 0) else none
    | .hbm => some (if sliceHomed tr && tr.cls ≠ 3 then 2 else 3)
    | _ => none)
  | (.error _, _) => none

def State.hasPath (s : State) (t : Nat) (w : Who) (l : List Chunk) (path : Nat) : Bool :=
  ((l.map (fun c => c.d / 65536 * 65536)).dedup).any (fun va => s.pathOf t w va = some path)

/-- Copies of a tile's channels that are not complete and have a destination on a path. -/
def State.drainSet (s : State) (t path : Nat) : List Nat :=
  (List.range 4).flatMap (fun k =>
    let c := s.copyCh t k
    let xs := (c.queue.filter (fun x => path ≠ 4 && s.hasPath t x.who x.chunks path)).map Xfer.id
    let rs := if c.walkId = 0 then [] else
      match (if c.at_.rcd.isEmpty then readRec t c.who c.head else pure c.at_.rcd) s with
      | .ok r _ =>
        if bitOf (wAt r 0) 63 && recOk c.maps r &&
            (if path = 4 then recRmt r
             else !(recRmt r && bitsOf (wAt r 0) 42 8 ≠ s.pkgno) && s.hasPath t c.who (recChunks c.maps r) path)
        then [c.walkId] else []
      | .error _ _ => []
    xs ++ rs)

/-- Copies of a tile that are accepted and not complete. -/
def State.copyIds (s : State) (t : Nat) : List Nat :=
  (List.range 4).flatMap (fun k => let c := s.copyCh t k; c.walkId :: c.queue.map Xfer.id)

def execDrain (h : Head) (path : BitVec 3) (s : State) : Out :=
  run (fun s => fireSeq h {} (fun e s =>
    let l := s.drainSet e.tile path.toNat
    if l.isEmpty then (s.cacheAcquire e.tile (if path = 4 then 4 else 3)).finish e.key e.idx 0
    else { s with waits := s.waits ++ [⟨e.key, e.idx, .drain l⟩] }) s) s

/-- Waiting DRAINs whose copies have ended complete. -/
def State.drainWake (s : State) : State :=
  s.waits.foldl (fun s w => match w.k with
    | .drain l =>
      if l.any (fun i => (s.copyIds (w.key / 16)).contains i) then s
      else ((dropWait s w).cacheAcquire (w.key / 16) 4).finish w.key w.idx 0
    | _ => s) s

/-! ## Routes and stream ports (R86, R305, R400-R405) -/

/-- A 16-bit entry of a region's image at a byte offset. -/
def Region.half (r : Region) (off : Nat) : Nat := bitsOf (wAt r.img (off / 8)) (16 * (off % 8 / 2)) 16
def Region.outRoute (r : Region) (e n : Nat) : Nat := r.half (0xC0 + 8 * (e % 16) + 2 * n)
def Region.inRoute (r : Region) (j : Nat) : Nat := r.half (0x140 + 2 * j)
def Region.drainRoute (r : Region) : Nat := r.half 0x148

def rtV (w : Nat) : Bool := bitOf w 15
def rtKind (w : Nat) : Nat := bitsOf w 13 2
def rtDest (w : Nat) : Nat := bitsOf w 9 4
def rtDin (w : Nat) : Nat := bitsOf w 7 2
def rtDelay (w : Nat) : Nat := bitsOf w 0 4

/-- Tokens on their way to a route's destination. -/
def Region.onWay (r : Region) (w : Nat) : Nat :=
  (r.flights.filter (fun f => f.dk = rtKind w && f.dest = rtDest w && f.din = rtDin w)).length

/-- A free place at a route's destination (R86): 4 at an element input, 4 at a matrix port, 1 at a stream-out port. -/
def State.routeSpace (s : State) (rk w : Nat) : Bool :=
  let r := s.region rk
  let held := match rtKind w with
    | 0 => ((s.elem (64 * (rk / 4) + 16 * (rk % 4) + rtDest w)).ins.getD [] (rtDin w)).length
    | 1 => (r.mport.getD [] (rtDest w)).length
    | _ => (r.sobuf.getD [] (rtDest w)).length
  held + r.onWay w < (if rtKind w = 2 then 1 else 4)

/-- Send a token onto a route. -/
def State.sendRoute (s : State) (rk w : Nat) (t : Tok) : State :=
  s.updRegion rk (fun r => { r with flights := r.flights ++ [⟨rtKind w, rtDest w, rtDin w, rtDelay w, t⟩] })

/-- The next token of an element's output leaves, when its route has a place (R86). -/
def State.leaveOut (s : State) (t e n : Nat) : State :=
  let rk := 4 * t + e / 16
  let w := (s.region rk).outRoute e n
  let el := s.elem (64 * t + e)
  match el.outs.getD [] n with
  | [] => s
  | tok :: r =>
    if rtV w && s.routeSpace rk w then (s.setElem (64 * t + e) { el with outs := el.outs.put n r }).sendRoute rk w tok else s

/-- The oldest token on a route to a destination, if its delay has passed. -/
def landing : List Flight → Nat → Nat → Nat → Option (Flight × List Flight)
  | [], _, _, _ => none
  | f :: r, dk, dest, din =>
    if f.dk = dk && f.dest = dest && f.din = din then (if f.left = 0 then some (f, r) else none)
    else (landing r dk dest din).map (fun p => (p.1, f :: p.2))

/-- Land a token of a route at its destination. -/
def State.land (s : State) (rk dk dest din : Nat) : State :=
  let r := s.region rk
  match landing r.flights dk dest din with
  | none => s
  | some (f, rest) =>
    let s := s.setRegion rk { r with flights := rest }
    match dk with
    | 0 =>
      let key := 64 * (rk / 4) + 16 * (rk % 4) + dest
      let el := s.elem key
      s.setElem key { el with ins := el.ins.put din (el.ins.getD [] din ++ [f.tok]) }
    | 1 => s.updRegion rk (fun r => { r with mport := r.mport.put dest (r.mport.getD [] dest ++ [f.tok]) })
    | _ => s.updRegion rk (fun r => { r with sobuf := r.sobuf.put dest (r.sobuf.getD [] dest ++ [f.tok]) })

/-- ROUTE_TOKEN_LANDING (R86): a token lands at input `ch` of element `e`; elements 64 and up name the region's matrix
ports (64 + 4 region, `ch` the port) and stream-out ports (80 + 4 region). -/
def execRouteTokenLanding (s : State) : Out :=
  run (fun s => match s.focus with
    | .ev t e ch _ _ =>
      if e < 64 then s.land (4 * t + e / 16) 0 (e % 16) (ch % 4)
      else if e < 80 then s.land (4 * t + (e - 64) / 4) 1 (ch % 4) 0
      else s.land (4 * t + (e - 80) / 4) 2 (ch % 4) 0
    | _ => s) s

/-- Bytes 8t to 8t + 7 of a map's element sequence: the addresses of its elements (R401). -/
def tokAddrs (tm : BitVec 256) (t : Nat) : List Nat :=
  let esz := tmEsz tm
  let x0 := tmF tm 64 32
  let x1 := tmF tm 96 32
  (List.range (8 / esz)).map (fun j =>
    let n := 8 * t / esz + j
    (tmapAddr tm (n % x0) (n / x0 % x1) (n / x0 / x1)).toNat)

/-- Tokens of a map's stream. -/
def tmTokens (tm : BitVec 256) : Nat := tmF tm 64 32 * tmF tm 96 32 * tmF tm 128 32 * tmEsz tm / 8

/-- A map that SBIND accepts (R400). -/
def sbindMapOk (tm : BitVec 256) : Bool :=
  let fmt := tmF tm 244 4
  tmV tm && tmF tm 64 32 * tmEsz tm % 8 = 0 && (fmt = 0 || (!(6 ≤ fmt && fmt ≤ 12) && tagBytes fmt = tmEsz tm))

/-- Has the image a route to stream-out port j (R400)? -/
def Region.outBound (r : Region) (j : Nat) : Bool :=
  (List.range 16).any (fun e => (List.range 4).any (fun n =>
    let w := r.outRoute e n
    rtV w && rtKind w = 2 && rtDest w = j))

/-- SBIND kind 0 (R400). -/
def execSbindMap (h : Head) (port : BitVec 3) (mapn : BitVec 4) (e_ : Bool) (s : State) : Out :=
  run (fun s => fireSeq h {} (fun e s =>
    match ownRegion e s with
    | .error f => faultOf e f s
    | .ok k =>
      let rk := 4 * e.tile + k
      let r := s.region rk
      let tm := (s.ctx e.key).tms.getD 0 mapn.toNat
      let j := port.toNat % 4
      let out := port.toNat ≥ 4
      if !r.loaded || (if out then !r.outBound j else !rtV (r.inRoute j)) || !sbindMapOk tm then faultOf e (fltWord .reservedField e) s
      else if (if out then (r.sout.get? j).isSome else (r.sin.get? j).isSome) then s.finish e.key e.idx 1
      else
        let w := s.who e
        let s := if out then s.updRegion rk (fun r => { r with sout := r.sout.put j ⟨tm, 0, tmTokens tm, w⟩ })
          else s.updRegion rk (fun r => { r with
            sin := r.sin.put j ⟨tm, none, 0, tmTokens tm, e_, (r.pend.filter (fun p => p.port = j)).length, w⟩ })
        s.accept e.key e.idx 0) s hold15) s

/-- SBIND kind 1 (R400, R401). -/
def execSbindChannel (h : Head) (port : BitVec 2) (s : State) : Out :=
  run (fun s => fireM h nA (fun e => do
    let s ← getS
    match ownRegion e s with
    | .error f => raise f
    | .ok k => do
      let rk := 4 * e.tile + k
      let j := port.toNat
      needField e ((s.region rk).loaded && rtV ((s.region rk).inRoute j))
      let ck ← chanLocate e e.a
      let s ← getS
      let c := s.chan ck
      if ((s.region rk).sin.get? j).isSome then modS (fun s => s.finish e.key e.idx 1)
      else if !c.v then modS (fun s => s.finish e.key e.idx 2)
      else if c.cv && c.w.getD 7 0 ≠ (s.ctx e.key).ident then raise (ownerFault ck e.a)
      else do
        needField e (c.esize = 8)
        modS (fun s =>
          let w := s.who e
          let s := s.bindCons ck w.ident
          (s.updRegion rk (fun r => { r with
            sin := r.sin.put j ⟨0, some ck, 0, 0, false, (r.pend.filter (fun p => p.port = j)).length, w⟩ })).accept
              e.key e.idx 0)) s hold15) s

/-- The region named, and the routed port, for SEOS and SBAR. -/
def execSeos (h : Head) (ch : BitVec 2) (s : State) : Out :=
  run (fun s => fireSeq h {} (fun e s =>
    match ownRegion e s with
    | .error f => faultOf e f s
    | .ok k =>
      let w := s.who e
      (s.updRegion (4 * e.tile + k) (fun r => { r with pend := r.pend ++ [⟨ch.toNat, w, none⟩] })).accept e.key e.idx 0)
    s hold15) s

def execSbar (h : Head) (port : BitVec 2) (v : Bool) (bnum : BitVec 6) (s : State) : Out :=
  run (fun s => fireSeq h {} (fun e s =>
    match ownRegion e s with
    | .error f => faultOf e f s
    | .ok k =>
      (s.updRegion (4 * e.tile + k) (fun r => { r with
        sbar := if v then r.sbar.put port.toNat bnum.toNat else r.sbar.del port.toNat })).finish e.key e.idx 0) s hold15) s

/-- End a stream-in binding; its SBIND token goes out. -/
def State.endIn (s : State) (rk j : Nat) (b : StreamIn) : State :=
  (s.updRegion rk (fun r => { r with sin := r.sin.del j })).completeTo b.who

/-- The next token of a stream-in port (R401, R403, R426). -/
def State.streamIn (s : State) (rk j : Nat) : State :=
  let t := rk / 4
  let r := s.region rk
  let w := r.inRoute j
  if r.draining || !(rtV w && s.routeSpace rk w) then s
  else
    let b := r.sin.get? j
    match (if (b.map StreamIn.before).getD 1 > 0 then r.pend.find? (fun p => p.port = j) else none) with
    | some p =>
      let s := s.updRegion rk (fun r => { r with
        pend := r.pend.erase p
        sin := (match b with
          | some b => r.sin.put j { b with before := b.before - 1 }
          | none => r.sin) })
      (match p.num with
       | some n => s.sendRoute rk w ⟨w64 n, 3, false⟩
       | none => (s.sendRoute rk w ⟨0, 0, true⟩).completeTo p.who)
    | none =>
      match b with
      | none => s
      | some b =>
        match b.chan with
        | some ck =>
          let c := s.chan ck
          if c.lost then (s.asyncTo b.who { code := .partFailed, extra := w64 (1 + c.lostTile * 256), src := 3 }).endIn rk j b
          else if !c.v then s.endIn rk j b
          else if c.atMarker then ((s.chanMarker ck b.who.key).sendRoute rk w ⟨0, 0, true⟩).endIn rk j b
          else if c.onchip > 0 then
            let pa := c.slotPa ck ((c.popseq + 1) % 2 ^ 64)
            match s.poisonAt pa 8 with
            | some f => (s.asyncTo b.who { f with src := 3 }).endIn rk j b
            | none => ((s.chanTake ck).chanSend t b.who ck 8 false true).sendRoute rk w ⟨s.rd64 pa, 0, false⟩
          else s
        | none =>
          if b.pos ≥ b.total then
            (if b.eos then s.sendRoute rk w ⟨0, 0, true⟩ else s).endIn rk j b
          else match ((tokAddrs b.tm b.pos).mapM (fun a =>
              mReadPiece t b.who.part ((copyRead b.who.sup).by b.who) .engine a (tmEsz b.tm))) s with
            | .ok l s =>
              let s := s.sendRoute rk w ⟨w64 (leNat l.flatten), 0, false⟩
              let b := { b with pos := b.pos + 1 }
              let s := s.updRegion rk (fun r => { r with sin := r.sin.put j b })
              if b.pos = b.total && !b.eos then s.endIn rk j b else s
            | .error f s => (s.asyncTo b.who { f with src := 3 }).endIn rk j b

def execStreamInDeliver (s : State) : Out :=
  run (fun s => match s.focus with
    | .ev t k port _ _ => s.streamIn (4 * t + k) port
    | _ => s) s

/-- Write a token's eight bytes at the next place of a stream-out binding (R402). -/
def soWrite (t : Nat) (b : StreamOut) (v : W64) : M Unit := do
  let esz := tmEsz b.tm
  let l := (tokAddrs b.tm b.pos).zipIdx
  let _ ← l.mapM (fun p => writeF t b.who.part ((copyWrite b.who.sup).by b.who) .engine (w64 p.1)
    (leBytes esz (v.toNat / 2 ^ (8 * esz * p.2))))
  pure ()

/-- The arrival of SBAR (R404): unchecked; an overrun goes to the strand that speaks for the owning task. -/
def State.sbarArrive (s : State) (rk j arrivals bytes : Nat) : State :=
  match (s.region rk).sbar.get? j with
  | none => s
  | some n => s.barApply (rk / 4) n arrivals bytes (fun s => match s.regionCtx rk with
    | some k => s.asyncFault k (overrun n 3)
    | none => s)

/-- A stream-out port's arrival follows in the next cycle, and then the token of the binding that ended (R402, R404). -/
def State.sbarLater (s : State) (rk j : Nat) (w : Option Who) : State :=
  if ((s.region rk).sbar.get? j).isSome then s.updRegion rk (fun r => { r with arrive := r.arrive ++ [(j, w)] })
  else match w with
    | some w => s.completeTo w
    | none => s

/-- The arrivals that the last cycle's end-of-stream tokens left (R404). -/
def State.sbarWake (s : State) : State :=
  (s.regions.filter (fun p => !p.2.arrive.isEmpty)).foldl (fun (s : State) (p : Nat × Region) =>
    let s := s.updRegion p.1 (fun r => { r with arrive := [] })
    p.2.arrive.foldl (fun s a =>
      let s := s.sbarArrive p.1 a.1 1 0
      match a.2 with
      | some w => s.completeTo w
      | none => s) s) s

/-- A stream-out port handles the token that has reached it (R402, R404). While the region drains, an end of the stream ends its
binding without events or token (R405). -/
def State.streamOut (s : State) (rk j : Nat) : State :=
  let r := s.region rk
  match r.sobuf.getD [] j with
  | [] => s
  | tok :: rest =>
    let pop := fun (s : State) => s.updRegion rk (fun r => { r with sobuf := r.sobuf.put j rest })
    if tok.permit then s
    else match r.sout.get? j with
      | none => if tok.eos then (pop s).sbarLater rk j none else s
      | some b =>
        if tok.eos then
          let s := (pop s).updRegion rk (fun r => { r with sout := r.sout.del j })
          if r.draining then s.abandonTo b.who else (s.sbarArrive rk j 0 (8 * b.pos)).sbarLater rk j (some b.who)
        else if b.pos ≥ b.total then pop s
        else match soWrite (rk / 4) b tok.data s with
          | .ok _ s => (pop s).updRegion rk (fun r => { r with sout := r.sout.put j { b with pos := b.pos + 1 } })
          | .error f s =>
            ((pop s).updRegion rk (fun r => { r with sout := r.sout.del j })).asyncTo b.who { f with src := 3 }
              |>.completeTo b.who

def execStreamOutToken (s : State) : Out :=
  run (fun s => match s.focus with
    | .ev t k port _ _ => s.streamOut (4 * t + k) port
    | _ => s) s

/-- PERMIT_TOKEN_ARRIVAL (R426): a permit token at a stream-out port is taken by the station, or waits when it is full. -/
def execPermitTokenArrival (s : State) : Out :=
  run (fun s => match s.focus with
    | .ev t k port _ _ =>
      let rk := 4 * t + k
      (match (s.region rk).sobuf.getD [] port with
       | tok :: rest =>
         if tok.permit && ((s.permit t tok.data.toNat).isSome || (s.tile t).permits.length < 16) then
           (s.updRegion rk (fun r => { r with sobuf := r.sobuf.put port rest })).permitFree t tok.data.toNat
         else s
       | [] => s)
    | _ => s) s

/-- Cut a region's stream-in bindings (R405): they read and deliver nothing more, and their SBIND tokens never come. -/
def State.cutIn (s : State) (rk : Nat) : State :=
  let s := (s.region rk).sin.foldl (fun (s : State) (p : Nat × StreamIn) => s.abandonTo p.2.who) s
  s.updRegion rk (fun r => { r with sin := [] })

/-- Cut its stream-out bindings, once the tokens they have received are written (R405). -/
def State.cutOut (s : State) (rk : Nat) : State :=
  let s := (s.region rk).sout.foldl (fun (s : State) (p : Nat × StreamOut) => s.abandonTo p.2.who) s
  s.updRegion rk (fun r => { r with sout := [] })

/-- Every token of a region has landed, and its bound stream-out ports have written what they received (R86, R405). -/
def Region.landed (r : Region) : Bool :=
  r.flights.isEmpty && r.sobuf.all (fun p => p.2.isEmpty || (r.sout.get? p.1).isNone)

end Sys2Proof.Machine
end

