-- ==== Sys2Proof/Machine/Bind.lean ====
section
/-! DEFINITION. Configuration images, their validation and the configuration cache (R245, R300-R307, R332), region load (R85,
R333), and the placement and binding of tasks (R24-R29, R39, R41, R44). -/

namespace Sys2Proof.Machine

/-! ## Validation of an image (R303-R307, R332, R339, R344, R345) -/

/-- Header: MAGIC, CFGID, NREC, every other bit 0. -/
def imgNrec (img : List W64) : Nat := bitsOf (wAt img 0) 8 8
def imgCfgid (img : List W64) : Nat := bitsOf (wAt img 0) 32 16
def imgHdrBad (img : List W64) : Bool :=
  bitsOf (wAt img 0) 48 16 ≠ 0xCF61 || bitsOf (wAt img 0) 16 16 ≠ 0 || bitsOf (wAt img 0) 0 8 ≠ 0 || imgNrec img > 11 ||
  (List.range 7).any (fun i => wAt img (i + 1) ≠ 0)

/-- The element words: the first offending element. -/
def imgElemBad (img : List W64) : Option Nat :=
  (List.range 16).find? (fun e => bitsOf (wAt img (8 + e)) 56 7 ≠ 0 || (e = 0 && bitOf (wAt img 8) 63))

/-- The routes of an image in its own order: element named (0x3F for a port), port route, entry. -/
def imgRoutes (r : Region) : List (Nat × Bool × Nat) :=
  (List.range 16).flatMap (fun e => (List.range 4).map (fun n => (e, false, r.outRoute e n))) ++
  (List.range 4).map (fun j => (0x3F, true, r.inRoute j)) ++ [(0x3F, true, r.drainRoute)]

/-- A route entry that R305 refuses by itself. -/
def routeBad (port : Bool) (w : Nat) : Bool :=
  if rtV w then
    rtKind w = 3 || (port && rtKind w ≠ 0) || (rtKind w = 1 && rtDest w > 2) || (rtKind w = 2 && rtDest w > 3) ||
    (rtKind w ≠ 0 && rtDin w ≠ 0) || bitsOf w 4 3 ≠ 0
  else w ≠ 0

/-- The first route in fault: by itself, or a second one to a destination. -/
def routesBad : List (Nat × Bool × Nat) → List (Nat × Nat × Nat) → Option Nat
  | [], _ => none
  | (e, port, w) :: rest, seen =>
    let d := (rtKind w, rtDest w, rtDin w)
    if routeBad port w || (rtV w && seen.contains d) then some e
    else routesBad rest (if rtV w then d :: seen else seen)

/-- Is an element input fed by a route (R332)? -/
def Region.fed (r : Region) (e n : Nat) : Bool :=
  (imgRoutes r).any (fun x => rtV x.2.2 && rtKind x.2.2 = 0 && rtDest x.2.2 = e && rtDin x.2.2 = n)

/-- Lane modes an operation accepts (R345). -/
def lmOk (opc lm : Nat) (f : ElemF) : Bool :=
  if (24 ≤ opc && opc ≤ 30) || (32 ≤ opc && opc ≤ 34) then lm = 1 || lm = 2
  else if opc = 31 then f.sb = 0 || tagLm f.sb.toNat = some lm
  else if opc = 15 || opc = 16 || (37 ≤ opc && opc ≤ 41) || opc ≥ 46 then lm = 3
  else true

/-- Destinations an operation writes (R339, R345). -/
def dstOk (opc d : Nat) (f : ElemF) : Bool :=
  if opc = 15 || opc = 16 then d = 13
  else if opc = 48 || opc = 49 then d = 12
  else if opc = 39 || opc = 40 || opc = 47 || opc = 50 || opc = 52 then 8 ≤ d && d ≤ 11
  else if opc = 37 || opc = 38 || opc = 41 || opc = 51 then d < 8 || d = 12 || d = 13
  else if opc = 46 then d < 8 && d = f.sb.toNat
  else if opc = 14 || (31 ≤ opc && opc ≤ 36) || opc = 43 || opc = 44 then d ≤ 11
  else d ≤ 13

/-- Operand codes an operation refuses (R345, R353, R355). -/
def codesOk (opc : Nat) (f : ElemF) : Bool :=
  if (37 ≤ opc && opc ≤ 38) || opc = 40 || opc = 41 || opc = 51 then 8 ≤ f.sa.toNat && f.sa.toNat ≤ 11
  else if opc = 46 then f.sb.toNat < 8
  else if opc = 47 then f.sa.toNat < 8
  else if opc = 36 then f.md ≠ 0 || (f.sa = 0 && f.sb = 0)
  else true

/-- No register among the operands: MOD alone decides the class (R344 case 4). -/
def unregistered (opc : Nat) (f : ElemF) : Bool := (opCodes opc f).all (fun c => (8 ≤ c && c < 12) || c = 14 || c = 15)

/-- MOD of an operation that works in a number class (R344). -/
def classModOk (opc lm md : Nat) (f : ElemF) : Bool :=
  match classOfMod lm md with
  | none => false
  | some (.int _) => true
  | some (.flt t _) =>
    (opc = 13 || (t ≠ 4 && t ≠ 5)) &&
    (md = 0 && !unregistered opc f ||
      !((opc = 13 && (f.sc = 4 || f.sc = 5 || f.sc = 7)) || ((opc = 6 || opc = 7) && f.sc = 1) ||
        ((opc = 42 || opc = 45) && 3 ≤ f.sc.toNat)))

/-- Operand codes that never carry a tag: inputs, LEADER, zero. CVT reads them as integers of the lane width (R349). -/
def tagless (code : Nat) : Bool := (8 ≤ code && code ≤ 11) || code = 14 || code = 15

/-- Sub-operation, condition and modifier (R345 and the rules of each operation). -/
def scmOk (opc lm : Nat) (f : ElemF) : Bool :=
  let sc := f.sc.toNat
  let md := f.md.toNat
  let lanesOf := fun t => 8 / tagBytes t
  let special := md = 0 || (md = 3 && lm = 1)
  if opc ≤ 9 || opc = 13 || opc = 42 || opc = 45 then
    classModOk opc lm md f && (if opc = 6 || opc = 7 then sc ≤ 1 else if opc = 13 then sc ≤ 7
      else if opc = 42 || opc = 45 then sc ≤ 5 else true)
  else if opc ≤ 12 then sc ≤ 1 && md = 0
  else if opc = 14 then sc ≤ 7 && md = 0
  else if opc = 15 then sc ≤ 1 && md = 0
  else if opc = 16 then sc ≤ 5 && md = 0
  else if 24 ≤ opc && opc ≤ 30 then special
  else if opc = 31 then
    (tagLm sc).isSome && (f.sb = 0 || (tagLm f.sb.toNat).isSome) && f.sb.toNat ≠ sc &&
    !(f.sb = 0 && tagless f.sa.toNat && 13 ≤ sc && tagLm sc = some lm) &&
    md < min (max (8 / 2 ^ lm) (lanesOf sc) / min (8 / 2 ^ lm) (lanesOf sc)) 4
  else if opc = 32 then 6 ≤ sc && sc ≤ 12 && md ≤ 1
  else if opc = 33 then 1 ≤ sc && sc ≤ 3 && tagLm sc = some lm
  else if opc = 34 then sc < 8 && (sc < 4 || sc = 4) && special
  else if opc = 36 then (md = 0 && sc ≤ 3) || (md = 1 && sc = 0)
  else if opc = 39 then sc < 8 && md = 0
  else if opc = 43 then sc ≤ 3 && md = 0
  else if opc = 44 then sc < 8 / 2 ^ lm && md = 0
  else if opc = 46 || opc = 47 then md ≤ 1
  else md = 0

/-- A valid slot that R300 or R332 refuses. -/
def Region.slotBad (r : Region) (e slot : Nat) : Bool :=
  let w := r.trig e slot
  let ow := BitVec.ofNat 32 (r.opWord e slot)
  let opc := bitsOf (r.opWord e slot) 25 7
  let f := elemFOf ow
  let d := f.dst.toNat
  let codes := opCodes opc f
  trigV w && (bitOf w 1 || (decodeElem ow).isNone || !lmOk opc f.lm.toNat f || !dstOk opc d f || (d = 13 && !f.pwe) ||
    (8 ≤ d && d ≤ 11 && !rtV (r.outRoute e (d - 8))) ||
    (opc = 50 && !(rtKind (r.outRoute e (d - 8)) = 1 && rtDest (r.outRoute e (d - 8)) = 2)) || !codesOk opc f ||
    codes.any (fun c => 8 ≤ c && c < 12 && !r.fed e (c - 8)) || (List.range 4).any (fun n => trigIn w n && !r.fed e n) ||
    ((bitOf w 3 || bitOf w 2) && !r.fed e (bitsOf w 6 2)) ||
    (!r.follows e && (codes.contains 14 || (opc = 43 && f.sc = 3))) || !scmOk opc f.lm.toNat f ||
    (!f.pwe && f.pidx ≠ 0) || (f.keep && !codes.any (fun c => 8 ≤ c && c < 12)))

def Region.slotsBad (r : Region) : Option (Nat × Nat) :=
  ((List.range 16).flatMap (fun e => (List.range 16).map (fun k => (e, k)))).find? (fun p => r.slotBad p.1 p.2)

/-- Initial-value records (R306): the first offending place. -/
def imgRecBad (img : List W64) : Option Nat :=
  (List.range 11).find? (fun i =>
    let hi := wAt img (363 + 2 * i)
    if i < imgNrec img then bitOf hi 7 || bitsOf hi 12 52 ≠ 0 else wAt img (362 + 2 * i) ≠ 0 || hi ≠ 0)

/-- The first violation of an image, in the order of R307: element and slot as EXTRA names them. -/
def imgCheck (img : List W64) : Option (Nat × Nat) :=
  let r : Region := { img := img }
  if imgHdrBad img then some (0x3F, 0xF)
  else match imgElemBad img with
    | some e => some (e, 0xF)
    | none => match routesBad (imgRoutes r) [] with
      | some e => some (e, 0xF)
      | none =>
        if wAt img 41 / 2 ^ 16 ≠ 0 then some (0x3F, 0xF)
        else match r.slotsBad with
          | some p => some p
          | none => (imgRecBad img).map (fun i => (0x3E, i))

/-- CONFIG_INVALID (R101, R332). -/
def cfgFault (va : W64) (p : Nat × Nat) : Flt := { code := .configInvalid, addr := va, extra := w64 (p.1 + 256 * p.2) }

/-! ## The configuration cache (R245) -/

/-- Read and validate an image. -/
def readImage (t part : Nat) (sup : Bool) (va : W64) (own : Owner := .focus) : M (List W64) := do
  needAlign va 64
  let bs ← readU t part { useERead sup [0] 0 with own := own } .engine va 3072
  let img := (List.range 384).map (fun i => w64 (leNat ((bs.drop (8 * i)).take 8)))
  match imgCheck img with
  | some p => raise (cfgFault va p)
  | none => pure img

def State.cfgEnt (s : State) (t n : Nat) : CfgEnt := (s.tile t).cfg.getD {} n
def State.setCfg (s : State) (t n : Nat) (c : CfgEnt) : State := s.updTile t (fun x => { x with cfg := x.cfg.put n c })

/-- The entry that holds an image, or fetches it. -/
def State.cfgFind (s : State) (t asn : Nat) (va : W64) (fetching : Bool) : Option Nat :=
  (List.range 8).find? (fun n => let c := s.cfgEnt t n
    (if fetching then c.fetch else c.v) && c.asn = asn && c.va = va)

/-- Use an entry: it is the most recently used, and those used since its last use come after it. -/
def State.cfgTouch (s : State) (t n : Nat) : State :=
  let old := (s.cfgEnt t n).age
  (List.range 8).foldl (fun s i =>
    let c := s.cfgEnt t i
    if i = n then s.setCfg t i { c with age := 0 }
    else if c.age ≤ old then s.setCfg t i { c with age := c.age + 1 } else s) s

/-- The entry a miss takes, if any (R245). -/
def State.cfgVictim (s : State) (t : Nat) : Option Nat :=
  match (List.range 8).find? (fun n => !(s.cfgEnt t n).v && !(s.cfgEnt t n).fetch) with
  | some n => some n
  | none =>
    let l := (List.range 8).filter (fun n => !(s.cfgEnt t n).fetch)
    match l with
    | [] => none
    | n :: r => some (r.foldl (fun b m => if (s.cfgEnt t m).age > (s.cfgEnt t b).age then m else b) n)

/-- Put a validated image into an entry. -/
def State.cfgInstall (s : State) (t n asn : Nat) (va : W64) (img : List W64) : State :=
  (s.cfgTouch t n).setCfg t n
    { v := true, fetch := false, asn := asn, va := va, cfgid := imgCfgid img, age := 0, img := img }

/-- A miss: its fetch starts, is shared, or waits while all 8 entries are fetching. A fetch that starts for a parked token (`tok`)
sets EVSTAT.CFGMISS (R97, R212). `own`: for whom the image is fetched, a binding's is the device's (R255). -/
def State.cfgMiss (s : State) (t part : Nat) (sup : Bool) (va : W64) (own : Option (Nat × Nat) := none) (tok : Bool := false) :
    State :=
  match s.asnOf part with
  | none => s
  | some asn =>
    if (s.cfgFind t asn va true).isSome || s.cfgWait.any (fun w => w.tile = t && w.va = va && w.part = part) then s
    else match s.cfgVictim t with
      | some n =>
        let s := s.setCfg t n { v := false, fetch := true, asn := asn, va := va, part := part, sup := sup, own := own, age := (s.cfgEnt t n).age }
        if tok then s.setEv t 1 else s
      | none => { s with cfgWait := s.cfgWait ++ [⟨t, part, sup, va, own, tok⟩] }

/-- A miss that waited takes an entry that is free of a fetch. -/
def State.cfgWaitWake (s : State) (t : Nat) : State :=
  match s.cfgWait.find? (fun w => w.tile = t) with
  | some w => ({ s with cfgWait := s.cfgWait.erase w } : State).cfgMiss t w.part w.sup w.va w.own w.tok
  | none => s

/-- CFGLD (R332). -/
def execCfgld (h : Head) (s : State) : Out :=
  run (fun s => fireM h nA (fun e => do
    let c ← mCtx e
    let s ← getS
    let asn := (s.asnOf c.part).getD 0
    needAlign e.a 64
    let n := ((s.cfgFind e.tile asn e.a false).or (s.cfgFind e.tile asn e.a true)).or (s.cfgVictim e.tile)
    match n with
    | none => pure ()
    | some n => do
      modS (fun s => s.setCfg e.tile n { s.cfgEnt e.tile n with v := false })
      let img ← readImage e.tile c.part c.sup e.a
      modS (fun s => (s.cfgInstall e.tile n asn e.a img).finish e.key e.idx (w64 (imgCfgid img)))) s
    (fun e s =>
      if (s.cfgFind e.tile ((s.asnOf (s.ctx e.key).part).getD 0) e.a true).isNone && (s.cfgVictim e.tile).isNone then some s
      else none)) s

/-! ## Region load (R85, R303, R304, R306, R333 step 4) -/

/-- Put a word, or leave the default. -/
def putNz (m : Map W64) (n : Nat) (v : W64) : Map W64 := if v = 0 then m else m.put n v
def putTag (m : Map Nat) (n v : Nat) : Map Nat := if v = 0 then m else m.put n v

/-- An element as an image loads it. -/
def elemInit (img : List W64) (e : Nat) : Elem :=
  let w := wAt img (8 + e)
  let ns := List.range 8
  let base : Elem :=
    { k := (List.range 4).foldl (fun (m : Map W64) n => putNz m n (img.getD (42 + 4 * e + n) 0)) []
      ktag := (List.range 4).foldl (fun (m : Map Nat) n => putTag m n (bitsOf w (32 + 4 * n) 4)) []
      etag := ns.foldl (fun (m : Map Nat) n => putTag m n (bitsOf w (4 * n) 4)) []
      p := BitVec.ofNat 8 (bitsOf w 48 8) }
  (List.range (imgNrec img)).foldl (fun (el : Elem) i =>
    let hi := wAt img (363 + 2 * i)
    if bitsOf hi 0 4 = e then
      { el with e := el.e.put (bitsOf hi 4 3) (img.getD (362 + 2 * i) 0), etag := el.etag.put (bitsOf hi 4 3) (bitsOf hi 8 4) }
    else el) base

/-- Drop a region's bindings and the tokens of SEOS that wait at its ports: their tokens never come. -/
def State.dropPorts (s : State) (rk : Nat) : State :=
  let s := (s.region rk).pend.foldl (fun (s : State) (p : Pend) => if p.num.isNone then s.abandonTo p.who else s) s
  ((s.cutIn rk).cutOut rk).updRegion rk (fun r => { r with pend := [] })

/-- Use a region: it is the most recently used of its tile (R246), and those used since its last use come after it. -/
def State.regionTouch (s : State) (t k : Nat) : State :=
  let old := (s.region (4 * t + k)).age
  (List.range 4).foldl (fun s j => s.updRegion (4 * t + j) (fun r =>
    { r with age := if j = k then 0 else if r.age ≤ old then r.age + 1 else r.age })) s

/-- Region load. -/
def State.regionLoad (s : State) (t k : Nat) (img : List W64) (va : W64) : State :=
  let rk := 4 * t + k
  let s := s.dropPorts rk
  let s := (List.range 16).foldl (fun s e => s.setElem (64 * t + 16 * k + e) (elemInit img e)) s
  let s := s.setAcc rk {}
  let s := if (s.tile t).pbusy && (s.tile t).pacc = k then s.updTile t (fun x => { x with pbusy := false }) else s
  (s.updRegion rk (fun r =>
    { cfgid := imgCfgid img, loaded := true, owner := r.owner, age := r.age, img := img, imgva := va })).regionTouch t k

/-! ## RECONF (R169, R333) -/


/-- No engine operation of a region is accepted and incomplete, or waits at the control port (R113, R169). -/
def State.regionQuiet (s : State) (t k : Nat) : Bool :=
  let r := s.region (4 * t + k)
  r.landed && (r.mport.getD [] 2).isEmpty && r.drainq.isEmpty && r.arrive.isEmpty &&
  !((s.tile t).mrun ++ (s.tile t).mq).any (fun o => o.acc = k || o.region = some k)

/-- The conditions of R169: the region's engine work and tokens, and the issuing strand's earlier accesses. A store of the
RECONF's own block stays in the store buffer until the block commits (log 24). -/
def State.reconfReady (s : State) (t k key idx : Nat) : Bool :=
  s.regionQuiet t k && (s.ctx key).sq.isEmpty &&
  (match s.blks.get? key with
   | none => true
   | some b => (List.range idx).all (fun j =>
       (accCls (b.words.getD j 0)).isNone || (b.node j).st.ended || b.behind idx j))

/-- A RECONF that cannot be completed leaves its region unloaded (R333 step 3). -/
def State.reconfFail (s : State) (w : Wait) (rk : Nat) (f : Flt) : State :=
  let s := ((s.cutIn rk).cutOut rk).updRegion rk (fun r => { r with loaded := false, reconf := false, draining := false })
  (dropWait s w).syncFault w.key { f with idx := some w.idx }

/-- A RECONF whose region is quiet loads its image, from the cache or after a fetch (R333 steps 3 to 5). -/
def State.reconfGo (s : State) (w : Wait) (va : W64) : State :=
  let t := w.key / 16
  let c := s.ctx w.key
  match c.region with
  | none => s
  | some k =>
    let rk := 4 * t + k
    if !s.reconfReady t k w.key w.idx then s
    else if va.toNat % 64 ≠ 0 then s.reconfFail w rk (misFault va 64)
    else match s.cfgFind t ((s.asnOf c.part).getD 0) va false with
      | some n =>
        let img := (s.cfgEnt t n).img
        let s := ((s.cutOut rk).cfgTouch t n).regionLoad t k img va
        let s := match c.task with
          | some i => s.updTask i (fun x => { x with img := va })
          | none => s
        (dropWait s w).finish w.key w.idx (w64 (imgCfgid img))
      | none => s.cfgMiss t c.part c.sup va (some (w.key % 16, s.classOf w.key))

/-- RECONF (R333): steps 1 and 2, and the others at once when nothing holds it. -/
def execReconf (h : Head) (s : State) : Out :=
  run (fun s => fireSeq h nA (fun e s =>
    match ownRegion e s with
    | .error f => faultOf e f s
    | .ok k =>
      let s := s.updRegion (4 * e.tile + k) (fun r => { r with reconf := true, draining := true })
      let w : Wait := ⟨e.key, e.idx, .reconf e.a⟩
      ({ s with waits := s.waits ++ [w] } : State).reconfGo w e.a) s) s

/-- Waiting RECONFs, after each cycle. -/
def State.reconfWake (s : State) : State :=
  s.waits.foldl (fun s w => match w.k with
    | .reconf va => s.reconfGo w va
    | _ => s) s

/-! ## Placement (R25, R26, R31) -/

/-- The tile a level-1 number names, or the lowest that fits, or the lowest. -/
def pickTile (num : Option Nat) (fits : Nat → Bool) (tiles : List Nat) : Option Nat :=
  match num with
  | some n => tiles[n % tiles.length]?
  | none => (tiles.find? fits).or tiles.head?

/-- The unit a level's number names, or the lowest that can take the task at once, or the lowest; then the tile in it. -/
def pickUnit (num : Option Nat) (inner : List Nat → Option Nat) (fits : Nat → Bool) (units : List (List Nat)) : Option Nat :=
  match num with
  | some n => (units[n % units.length]?).bind inner
  | none => match units.find? (fun u => (inner u).any fits) with
    | some u => inner u
    | none => units.head?.bind inner

/-- Group tiles, ascending, by a key. -/
def groupBy (f : Nat → Nat) (l : List Nat) : List (List Nat) := ((l.map f).dedup).map (fun k => l.filter (fun t => f t = k))

/-- The joined number of a level, if a field is placed there. -/
def levelNum (r : List W64) (v level : Nat) : Option Nat := if placedAt r level then some (mixed r (upFields r) level v) else none

/-- The home of task `v` of a record (R25, R31); a unit at package level is this package. -/
def State.placeTask (s : State) (r : List W64) (v : Nat) (fits : Nat → Bool) : Option Nat :=
  let p := rcdPart r
  if rcdSupv r then pickTile (levelNum r v 1) fits (s.supTiles p)
  else
    let tileIn := pickTile (levelNum r v 1) fits
    let rowIn := fun d => pickUnit (levelNum r v 2) tileIn fits (groupBy (· / 16) d)
    pickUnit (levelNum r v 3) rowIn fits (groupBy (· / 256) (s.partTiles p))

/-! ## Binding (R27, R39 steps 4 and 5, R41) -/

def State.freeCtxs (s : State) (t : Nat) : List Nat := (List.range 16).filter (fun c => (s.ctx (ctxKey t c)).st = .free)

/-- Free regions of a tile (R41, R246). -/
def State.freeRegions (s : State) (t : Nat) : List Nat := (List.range 4).filter (fun k => (s.region (4 * t + k)).owner.isNone)

/-- A tile can take a task of `n` strands at once. -/
def State.canTake (s : State) (n : Nat) (useRegion : Bool) (t : Nat) : Bool :=
  n ≤ (s.freeCtxs t).length && (!useRegion || !(s.freeRegions t).isEmpty)

/-- The free region that a configuration takes (R41, R246). -/
def State.regionFor (s : State) (t cfgid : Nat) : Option Nat :=
  let l := s.freeRegions t
  match l.find? (fun k => (s.region (4 * t + k)).loaded && (s.region (4 * t + k)).cfgid = cfgid) with
  | some k => some k
  | none => match l with
    | [] => none
    | k :: r => some (r.foldl (fun b j => if (s.region (4 * t + j)).age > (s.region (4 * t + b)).age then j else b) k)

/-- WIDs of a task, ascending (R21, R23). -/
def taskWids (r : List W64) (v : Nat) : List Nat :=
  let fmt := wAt r 1
  (List.range (rcdStrands r)).map (fun k =>
    v * 2 ^ widOff fmt (rcdTbl r) +
    ((List.range (rcdTbl r)).foldl (fun (st : Nat × Nat) i =>
      (st.1 + st.2 % rcdExt r i * 2 ^ widOff fmt i, st.2 / rcdExt r i)) (0, k)).1)

/-- A strand starts on a context (R27, R79, R177), an acquire at SYS for what came before its launch (R160, R170). -/
def State.startStrand (s : State) (key task : Nat) (r : List W64) (wid v : Nat) (region : Option Nat) : State :=
  let incar := ((s.ctx key).starts + 1) % 2 ^ 32
  let prio := min (bitsOf (s.partW (rcdPart r) 0) 60 3) (bitsOf (wAt r 8) 4 3)
  let c : Ctx :=
    { st := .run, task := some task, g := putNz (putNz [] 1 (w64 wid)) 2 (r.getD 6 0), wid := w64 wid, taskv := w64 v,
      ltag := rcdTag r, widfmt := r.getD 1 0, handler := r.getD 7 0, part := rcdPart r, prio := prio, eprio := prio,
      rclass := bitsOf (wAt r 8) 8 3, rsafe := bitOf (wAt r 8) 12, region := region, priv := rcdSupv r, incar := incar, starts := incar,
      ident := w64 (key / 16 + key % 16 * 2 ^ 10 + incar * 2 ^ 14), next := r.getD 0 0 }
  ((s.setCtx key c).slotsGrant (key / 16) (key % 16)).cacheAcquire (key / 16) 5

/-- The barrier preset of a task (R18). -/
def State.preset (s : State) (t : Nat) (r : List W64) (v : Nat) : State :=
  let b := wAt r 13
  if bitOf b 7 then
    let k := 48 * t + bitsOf b 0 6
    s.setBar k (barInit (s.bar k) (if b / 2 ^ 32 = 0 then rcdStrands r else b / 2 ^ 32) 0 (rcdTbl r) 1 (w64 v) (rcdTag r))
  else s

/-- The strands of a replayed launch take over the channel identities of those they replace (R192). -/
def State.rebindChans (s : State) (l : List (Nat × Bool × Nat)) (wid : Nat) (id : W64) : State :=
  (l.filter (fun x => x.1 = wid)).foldl (fun (s : State) x =>
    (s.setChan x.2.2 ((s.chan x.2.2).setW (if x.2.1 then 6 else 7) id.toNat)).mirror x.2.2 0 8) s

/-- Bind a task to a tile that can take it (R39 steps 4 and 5). -/
def State.bindTask (s : State) (i : Nat) (d : Dep) (v t : Nat) (cfg : Option (Nat × List W64)) : State :=
  let r := d.rcd
  let (id, s) := s.fresh
  let region := cfg.bind (fun c => s.regionFor t (imgCfgid c.2))
  let s := match cfg, region with
    | some c, some k => ((s.cfgTouch t c.1).regionLoad t k c.2 (r.getD 5 0)).updRegion (4 * t + k) (fun x => { x with owner := some id })
    | _, _ => s
  let cs := (s.freeCtxs t).take (rcdStrands r)
  let wids := taskWids r v
  let s := s.preset t r v
  let s := (wids.zip cs).foldl (fun s x => s.startStrand (ctxKey t x.2) id r x.1 v region) s
  let x : Task :=
    { dep := i, val := v, tile := t, st := .bound, ctxs := wids.zip cs, region := region, preq := false, accepted := false,
      areas := [], bound := s.cycle, quantum := s.cycle, since := 0, aged := 0, low := wids.headD 0, img := r.getD 5 0,
      keys := cs.map (ctxKey t), idents := cs.map (fun c => (s.ctx (ctxKey t c)).ident), held := [], flts := [], left := {} }
  let ids := (wids.zip cs).map (fun x => (x.1, (s.ctx (ctxKey t x.2)).ident))
  let s := ids.foldl (fun s x => s.rebindChans d.rebind x.1 x.2) { s with tasks := s.tasks.put id x }
  s.updDep i (fun d => { d with
    started := d.started ++ [v]
    homes := d.homes.filter (fun h => h.1 ≠ v)
    ids := d.ids.filter (fun x => !wids.contains x.1) ++ ids
    rebind := d.rebind.filter (fun x => !wids.contains x.1) })

/-- The dispatcher's request for a pre-emption (R44): the task of the lowest effective priority on the tile, the most
recently bound among equals, when a waiting one's is higher. -/
def State.requestVictim (s : State) (t prio : Nat) : State :=
  let eff := fun (x : Task) => (s.ctx (ctxKey x.tile ((x.ctxs.map Prod.snd).headD 0))).eprio
  let l := s.tasks.filter (fun p => p.2.tile = t && p.2.st = .bound && !p.2.ctxs.isEmpty)
  match l with
  | [] => s
  | a :: r =>
    let v := r.foldl (fun (b : Nat × Task) p =>
      if eff p.2 < eff b.2 || (eff p.2 = eff b.2 && decide (s.age p.2.bound ≤ s.age b.2.bound)) then p else b) a
    if eff v.2 < prio then s.requestPreempt v.1 else s

/-- May a partition's tasks run at this service level (R273)? -/
def State.levelRuns (s : State) (p : Nat) : Bool :=
  2 ≤ s.level || (s.level = 1 && bitsOf (s.partW p 1) 20 44 = 0 && s.partW p 2 = 0)

/-- The task values of a launch on this package. -/
def State.isTask (s : State) (r : List W64) (v : Nat) : Bool :=
  (List.range (rcdTasks r)).any (fun k => taskValue r k = v) && s.taskHere r v

/-- TASK_BIND (R41): a ready task goes to its home when that can take it; else it waits there. -/
def State.taskBind (s : State) (i v : Nat) : State :=
  match s.deps.get? i with
  | none => s
  | some d =>
    let r := d.rcd
    let cfgva := r.getD 5 0
    if !(d.st = 1 && d.ending.isNone && !d.started.contains v && s.levelRuns d.part && s.isTask r v) then s
    else
      let fits := s.canTake (rcdStrands r) (cfgva ≠ 0)
      let home := match d.homes.find? (fun h => h.1 = v && !(s.tile h.2).failed) with
        | some h => some h.2
        | none => s.placeTask r v fits
      match home with
      | none => s
      | some t =>
        let s := if d.homes.contains (v, t) then s
          else s.updDep i (fun d => { d with homes := d.homes.filter (fun h => h.1 ≠ v) ++ [(v, t)] })
        if !fits t then s.requestVictim t (s.depPrio d)
        else if cfgva = 0 then s.bindTask i d v t none
        else match s.cfgFind t ((s.asnOf d.part).getD 0) cfgva false with
          | some n => s.bindTask i d v t (some (n, (s.cfgEnt t n).img))
          | none => s.cfgMiss t d.part (rcdSupv r) cfgva

def execTaskBind (s : State) : Out :=
  run (fun s => match s.focus with
    | .ev i v _ _ _ => s.taskBind i v
    | _ => s) s

/-! ## The end of a configuration fetch (R108, R245, R332) -/

/-- The record of a fault that the dispatcher's region load finds (R108): SRC 7, no instruction. -/
def loadRecord (s : State) (t : Nat) (d : Dep) (v : Nat) (f : Flt) : List W64 :=
  [w64 (f.code.num + 7 * 2 ^ 24 + t * 2 ^ 32), 0, f.addr, f.extra, d.tag, w64 (v * 2 ^ widOff (wAt d.rcd 1) (rcdTbl d.rcd)),
   s.cycle, w64 (s.tile t).fltcnt]

/-- Launches whose tasks wait at a tile for an image that cannot be loaded end FAULTED (R108). -/
def State.bindFail (s : State) (t part : Nat) (va : W64) (f : Flt) : State :=
  s.deps.foldl (fun (s : State) (p : Nat × Dep) =>
    match p.2.homes.find? (fun h => h.2 = t) with
    | some h =>
      if p.2.part = part && p.2.ending.isNone && p.2.rcd.getD 5 0 = va then
        let s := (s.updTile t (fun x => { x with fltcnt := (x.fltcnt + 1) % 2 ^ 32 })).count t 15
        (s.fqSend part (loadRecord s t p.2 h.1 f)).condemn p.1 1 f.code
      else s
    | none => s) s

/-- RECONFs that wait for an image that cannot be loaded fault. -/
def State.reconfFailAll (s : State) (t part : Nat) (va : W64) (f : Flt) : State :=
  s.waits.foldl (fun (s : State) (w : Wait) => match w.k with
    | .reconf a => if a = va && w.key / 16 = t && (s.ctx w.key).part = part then
        (match (s.ctx w.key).region with
         | some k => s.reconfFail w (4 * t + k) f
         | none => s) else s
    | _ => s) s

/-- CONFIG_FETCH_COMPLETE: an entry's fetch ends in a validated image, or leaves the entry invalid; a failure waits for room
in the supervisor fault queue (R200). -/
def State.cfgFetchDone (s : State) (t n : Nat) : State :=
  let c := s.cfgEnt t n
  if !c.fetch then s
  else match readImage t c.part c.sup c.va (match c.own with
      | some o => .work o.1 o.2
      | none => .dev) s with
    | .ok img s => (s.cfgInstall t n c.asn c.va img).cfgWaitWake t
    | .error f s' =>
      if !(s'.fqAppend c.part []).1 then s else
      (((s'.setCfg t n { age := c.age }).reconfFailAll t c.part c.va f).bindFail t c.part c.va f).cfgWaitWake t

def execConfigFetchComplete (s : State) : Out :=
  run (fun s => match s.focus with
    | .ev t n _ _ _ => s.cfgFetchDone t n
    | _ => s) s

end Sys2Proof.Machine
end

