-- ==== Sys2Proof/Machine/Keccak.lean ====
section
/-! DEFINITION. SHAKE256, the hash that R228, R281 and R282 name (FIPS 202; log 10). -/

namespace Sys2Proof.Machine

/-- Round constants of Keccak-f[1600]. -/
def keccakRc : List W64 :=
  [0x0000000000000001, 0x0000000000008082, 0x800000000000808A, 0x8000000080008000, 0x000000000000808B, 0x0000000080000001,
   0x8000000080008081, 0x8000000000008009, 0x000000000000008A, 0x0000000000000088, 0x0000000080008009, 0x000000008000000A] ++
  [0x000000008000808B, 0x800000000000008B, 0x8000000000008089, 0x8000000000008003, 0x8000000000008002, 0x8000000000000080,
   0x000000000000800A, 0x800000008000000A, 0x8000000080008081, 0x8000000000008080, 0x0000000080000001, 0x8000000080008008]

/-- Rotation of lane x + 5 y. -/
def keccakRot : List Nat := [0, 1, 62, 28, 27, 36, 44, 6, 55, 20, 3, 10, 43, 25, 39, 41, 45, 15, 21, 8, 18, 2, 61, 56, 14]

def lane64 (a : List W64) (x y : Nat) : W64 := a.getD (x % 5 + 5 * (y % 5)) 0

/-- One round: theta, rho and pi, chi, iota. Lane x + 5 y of the result of pi comes from lane (x + 3 y, x). -/
def keccakRound (a : List W64) (rc : W64) : List W64 :=
  let c := (List.range 5).map (fun x => lane64 a x 0 ^^^ lane64 a x 1 ^^^ lane64 a x 2 ^^^ lane64 a x 3 ^^^ lane64 a x 4)
  let d := (List.range 5).map (fun x => c.getD ((x + 4) % 5) 0 ^^^ (c.getD ((x + 1) % 5) 0).rotateLeft 1)
  let b := (List.range 25).map (fun i =>
    let x := (i % 5 + 3 * (i / 5)) % 5
    let y := i % 5
    (lane64 a x y ^^^ d.getD x 0).rotateLeft (keccakRot.getD (x + 5 * y) 0))
  let e := (List.range 25).map (fun i =>
    lane64 b (i % 5) (i / 5) ^^^ (~~~(lane64 b (i % 5 + 1) (i / 5)) &&& lane64 b (i % 5 + 2) (i / 5)))
  e.set 0 (e.getD 0 0 ^^^ rc)

def keccakF (a : List W64) : List W64 := keccakRc.foldl keccakRound a

/-- XOR a block of 136 bytes into the state. -/
def absorb (a : List W64) (blk : List Byte) : List W64 :=
  (List.range 25).map (fun i => a.getD i 0 ^^^ w64 (leNat ((blk.drop (8 * i)).take 8)))

/-- Absorb `n` whole blocks, then the padded rest. -/
def shakeLoop : Nat → List W64 → List Byte → List W64
  | 0, a, m =>
    let z := m ++ [0x1F] ++ List.replicate (135 - m.length) 0
    keccakF (absorb a (z.set 135 (z.getD 135 0 ||| 0x80)))
  | n + 1, a, m => shakeLoop n (keccakF (absorb a (m.take 136))) (m.drop 136)

/-- The first `n` bytes (at most 136) of SHAKE256. -/
def shake256 (m : List Byte) (n : Nat) : List Byte :=
  ((shakeLoop (m.length / 136) (List.replicate 25 0) m).flatMap (fun w => leBytes 8 w.toNat)).take n

end Sys2Proof.Machine
end

