-- ==== Sys2Proof/Machine/Pages.lean ====
section
/-! DEFINITION. The sequence, page and shard tables and their free lists (R217-R232, R434): what they hold, how a page is
taken and freed, and which token visits hold it. -/

namespace Sys2Proof.Machine

/-! ## Sequences (R218-R222) -/

/-- A sequence entry. -/
structure SeqE where
  ctl : Nat
  clen : Nat
  tlen : Nat
  pmap : Nat
  pmcap : Nat
  trbase : Nat
  chash : Nat
  links : Nat
  deriving DecidableEq, Repr

def State.seqPa (s : State) (n : Nat) : Nat := s.cfgWord 0 + 128 * n

def State.seq (s : State) (n : Nat) : SeqE :=
  let pa := s.seqPa n
  { ctl := s.rd pa 8
    clen := s.rd (pa + 8) 4
    tlen := s.rd (pa + 12) 4
    pmap := bitsOf (s.rd (pa + 0x10) 8) 6 46 * 64
    pmcap := s.rd (pa + 0x18) 4
    trbase := s.rd (pa + 0x20) 8
    chash := s.rd (pa + 0x30) 16
    links := s.rd (pa + 0x40) 48 }

def SeqE.v (q : SeqE) : Bool := bitOf q.ctl 63
def SeqE.shr (q : SeqE) : Bool := bitOf q.ctl 62
def SeqE.model (q : SeqE) : Nat := bitsOf q.ctl 48 8
def SeqE.nlay (q : SeqE) : Nat := bitsOf q.ctl 40 8
def SeqE.ngrp (q : SeqE) : Nat := bitsOf q.ctl 34 6
def SeqE.home (q : SeqE) : Nat := bitsOf q.ctl 24 10
def SeqE.dhd (q : SeqE) : Nat := bitsOf q.ctl 20 4
def SeqE.planes (q : SeqE) : Nat := (q.nlay + 1) * (q.ngrp + 1)
def SeqE.tent (q : SeqE) : Nat := q.tlen - q.clen

/-- The field checks that fault RESERVED_FIELD at the next KV instruction (R218). -/
def SeqE.fieldsOk (q : SeqE) : Bool :=
  !bitOf q.ctl 61 && bitsOf q.ctl 56 5 ≤ 16 && 1 ≤ q.dhd && q.dhd ≤ 8 && bitsOf q.ctl 0 20 = 0

/-- Link `k` (R220). -/
def SeqE.link (q : SeqE) (k : Nat) : Nat := bitsOf q.links (6 * k) 6

/-- No link below TLEN - CLEN is invalid (R220). -/
def linksOk (links tent : Nat) : Bool := (List.range tent).all (fun k => bitsOf links (6 * k) 6 ≤ k)

/-- The ancestors of slot `k`, itself first (R220): each parent is a lower slot. -/
def ancestors (links : Nat) : Nat → Nat → List Nat
  | 0, _ => []
  | n + 1, k =>
    let v := bitsOf links (6 * k) 6
    if v < k then k :: ancestors links n v else [k]

def SeqE.ancestors (q : SeqE) (k : Nat) : List Nat := Sys2Proof.Machine.ancestors q.links 64 k

/-- SHARD_ID with the sequence number (R101). -/
def shardFault (n : Nat) : Flt := { code := .shardId, extra := w64 n }

/-- The context and the class that an instruction's accesses are metered under (R255). -/
def State.ownOf (s : State) (e : Env) : Option (Nat × Nat) := some (e.ctx, s.classOf e.key)

/-- What the tables' units access at physical addresses of class KVPAGE for a strand: the tile whose walker or engine makes the
access, the address, the bytes, whether they are written (R217, R255, R257, R432). -/
def State.unitAccs (s : State) (own : Option (Nat × Nat)) (l : List (Nat × Nat × Nat × Bool)) : State :=
  l.foldl (fun (s : State) x => if tileOk x.1 then s.traffic x.1 own ⟨x.2.1, 3, false, 0⟩ x.2.2.1 x.2.2.2 else s) s

/-- The issuing tile's walker reads a sequence entry (R218). -/
def readSeq (e : Env) (n : Nat) : M SeqE := do
  modS (fun s => s.unitAccs (s.ownOf e) [(e.tile, s.seqPa n, 128, false)])
  let s ← getS
  match s.poisonAt (s.seqPa n) 128 with
  | some f => raise f
  | none => pure (s.seq n)

/-- A KV instruction's check of the sequence it names (R218). -/
def needSeq (e : Env) (n : Nat) : M SeqE := do
  let q ← readSeq e n
  if !q.v then raise (shardFault n)
  else if !q.fieldsOk then raise (fltWord .reservedField e)
  else pure q

/-- Write CLEN and TLEN. -/
def State.setLen (s : State) (n clen tlen : Nat) : State := (s.wr (s.seqPa n + 8) 4 clen).wr (s.seqPa n + 12) 4 tlen
def State.setLinks (s : State) (n links : Nat) : State := s.wr (s.seqPa n + 0x40) 48 links

/-! ## Page map and descriptors (R221, R223, R224) -/

def SeqE.mapPa (q : SeqE) (p k : Nat) : Nat := q.pmap + 8 * (p * q.pmcap + k)

/-- The descriptor that a page-map entry names, when it is valid. -/
def State.mapped (s : State) (q : SeqE) (p k : Nat) : Option Nat :=
  let w := s.rd (q.mapPa p k) 8
  if bitOf w 0 then some (bitsOf w 5 47 * 32) else none

/-- Name a descriptor in a page-map entry, or make the entry invalid (R221). -/
def State.setMap (s : State) (q : SeqE) (p k : Nat) (d : Option Nat) : State := s.wr (q.mapPa p k) 8 (match d with
  | some d => d + 1
  | none => setBits (s.rd (q.mapPa p k) 8) 0 1 0)

def State.dsc (s : State) (d lo n : Nat) : Nat := bitsOf (s.rd d 8) lo n
def State.setDsc (s : State) (d lo n v : Nat) : State := s.wr d 8 (setBits (s.rd d 8) lo n v)
def State.dState (s : State) (d : Nat) : Nat := s.dsc d 61 3
def State.dTent (s : State) (d : Nat) : Bool := s.dsc d 60 1 = 1
def State.dPin (s : State) (d : Nat) : Bool := s.dsc d 58 1 = 1
def State.dSlotv (s : State) (d : Nat) : Bool := s.dsc d 57 1 = 1
def State.dOwner (s : State) (d : Nat) : Nat := s.dsc d 47 10
def State.dFill (s : State) (d : Nat) : Nat := s.dsc d 32 7
def State.dRef (s : State) (d : Nat) : Nat := s.dsc d 16 16
def State.dHaddr (s : State) (d : Nat) : Nat := bitsOf (s.rd (d + 8) 8) 14 38 * 16384
def State.dCaddr (s : State) (d : Nat) : Nat := s.rd (d + 0x10) 8
def State.dSum (s : State) (d : Nat) : Nat := s.rd (d + 0x18) 8
def State.dSlotPa (s : State) (d : Nat) : Nat := s.slotPa (s.dOwner d) (s.dsc d 39 8)

/-- States of a page (R223). -/
def stFree : Nat := 0
def stRes : Nat := 1
def stWarm : Nat := 2
def stCold : Nat := 3
def stAbsent : Nat := 4
def stEvict : Nat := 5

/-- Where a page's data is (R224). -/
def State.pagePlace (s : State) (d : Nat) : Option Nat :=
  if s.dState d = stRes then some (s.dSlotPa d)
  else if s.dState d = stWarm then some (s.dHaddr d)
  else if s.dState d = stCold then some (s.dCaddr d)
  else none

/-- Physical address of key row `j` of a page's place, or of its value row (R434). -/
def rowPa (place j : Nat) (value : Bool) : Nat := place + (if value then 8192 else 0) + 128 * j

/-- REF and SHARED together. -/
def State.setRef (s : State) (d n : Nat) : State := (s.setDsc d 16 16 n).setDsc d 59 1 (if n > 1 then 1 else 0)

/-! ## Free lists (R232) -/

/-- Take the top of a stack list. -/
def State.stackTake (s : State) (base : Nat) : Option (Nat × State) :=
  let n := s.rd base 4
  if n = 0 then none else some (s.rd (base + 64 + 8 * (n - 1)) 8, s.wr base 4 (n - 1))

/-- Return an address to a stack list. -/
def State.stackPut (s : State) (base a : Nat) : State :=
  let n := s.rd base 4
  (s.wr (base + 64 + 8 * n) 8 a).wr base 4 (n + 1)

/-- The page pool of an owner tile: stack 3 x die + (row mod 3). -/
def State.poolBase (s : State) (owner : Nat) : Nat := s.cfgWord (8 + 3 * (owner / 256) + owner / 16 % 16 % 3)

def State.setSlotFree (s : State) (t k : Nat) (v : Bool) : State :=
  s.updTile t (fun x => { x with slotFree := some (setBits (s.slotFreeMap t) k 1 v.toNat) })

/-! ## Visits (R225, R227) -/

/-- A token's visit holds the page. -/
def State.visited (s : State) (d : Nat) : Bool := s.tiles.any (fun p => p.2.tslots.any (fun q => q.2.visits.contains d))

/-- A page becomes FREE (R225): its slot, descriptor, slow-tier address and pool place go back, its hash entry is cleared. -/
def State.freePage (s : State) (d : Nat) : State :=
  let s := if s.dSlotv d then s.setSlotFree (s.dOwner d) (s.dsc d 39 8) true else s
  let s := if s.dState d = stCold then s.stackPut (s.cfgWord 4) (s.dCaddr d) else s
  let s := if s.poolPages.contains d then s.stackPut (s.poolBase (s.dOwner d)) (s.dHaddr d) else s
  let s := match s.pfxOf.get? d with
    | some i => s.wrBytes (s.cfgWord 1 + 32 * i) (List.replicate 32 0)
    | none => s
  let s := { s with pfxOf := s.pfxOf.del d, poolPages := s.poolPages.filter (· ≠ d) }
  (s.wrBytes d (List.replicate 32 0)).stackPut (s.cfgWord 3) d

/-- Drop a map entry: REF - 1, FREE at 0. -/
def State.dropMap (s : State) (q : SeqE) (p k d : Nat) : State :=
  let s := s.setMap q p k none
  if s.dRef d ≤ 1 then s.freePage d else s.setRef d (s.dRef d - 1)

/-! ## The shard table (R226) -/

def shF (x : BitVec 256) (lo n : Nat) : Nat := bitsOf x.toNat lo n
def shV (x : BitVec 256) : Bool := x.getLsbD 255
def shSeq (x : BitVec 256) : Nat := shF x 239 16
def shLayer (x : BitVec 256) : Nat := shF x 231 8
def shGrp (x : BitVec 256) : Nat := shF x 225 6
def shFirst (x : BitVec 256) : Nat := shF x 193 32
def shCnt (x : BitVec 256) : Nat := shF x 177 16
def shSlbase (x : BitVec 256) : Nat := shF x 169 8
def shNslot (x : BitVec 256) : Nat := shF x 161 8
def shHbase (x : BitVec 256) : Nat := shF x 123 38 * 16384

/-- Does an entry cover a page of a sequence's layer and group? -/
def shCovers (x : BitVec 256) (seq layer grp page : Nat) : Bool :=
  shV x && shSeq x = seq && shLayer x = layer && shGrp x = grp && shFirst x ≤ page && page < shFirst x + shCnt x

/-- The lowest entry of a tile that covers a page. -/
def State.shardFind (s : State) (t seq layer grp page : Nat) : Option (Nat × BitVec 256) :=
  (s.tile t).shard.find? (fun p => shCovers p.2 seq layer grp page)

/-- The owner of a new page (R435): the lowest tile of the partition whose shard table covers it. -/
def State.ownerOf (s : State) (part seq layer grp page : Nat) : Option (Nat × BitVec 256) :=
  (s.partTiles part).findSome? (fun t => (s.shardFind t seq layer grp page).map (fun p => (t, p.2)))

/-- Take what a new page needs (R225, R232, R435): a descriptor, its slot when the range gives one, an HBM place from the pool
when the range has none; none when a list is short. The slot is the one that R226 and R435 name, SLBASE + i, whichever bit of
the bitmap is the lowest that is free (DEDUCED, log 39). -/
def State.takePage (s : State) (owner : Nat) (x : BitVec 256) (page : Nat) : Option (Nat × State) :=
  let i := page - shFirst x
  let slotv := decide (i < shNslot x)
  let slot := (shSlbase x + i) % 256
  if slotv && !bitOf (s.slotFreeMap owner) slot then none
  else match s.stackTake (s.cfgWord 3) with
    | none => none
    | some (d, s1) =>
      match (if shHbase x = 0 then s1.stackTake (s1.poolBase owner) else some (shHbase x + 16384 * i, s1)) with
      | none => none
      | some (place, s2) =>
        let s2 := if slotv then s2.setSlotFree owner slot false else s2
        let s2 := if shHbase x = 0 then { s2 with poolPages := insNat s2.poolPages d } else s2
        let ctl := (if slotv then stRes else stWarm) * 2 ^ 61 + slotv.toNat * 2 ^ 57 + owner * 2 ^ 47 +
          (if slotv then slot else 0) * 2 ^ 39 + 2 ^ 16
        some (d, s2.wrWords d [w64 ctl, w64 place, 0, 0])

/-! ## The prefix hash table (R228-R230) -/

/-- H(k) from H(k - 1) and the trailer of page k. -/
def chainHash (prev : List Byte) (ids : List Byte) : Nat := leNat (shake256 ([0x50] ++ prev ++ ids) 16)

/-- The probe window of a tag, in probe order. -/
def probeWindow (tag : Nat) : List Nat :=
  (List.range 8).map (fun i => 8 * bitsOf tag 3 17 + (bitsOf tag 0 3 + i) % 8)

/-- An entry of the table: tag, sequence, model, valid, page. -/
def State.phEntry (s : State) (i : Nat) : Nat × Nat × Nat × Bool × Nat :=
  let pa := s.cfgWord 1 + 32 * i
  (s.rd pa 16, s.rd (pa + 16) 2, s.rd (pa + 18) 1, s.rd (pa + 19) 1 % 2 = 1, s.rd (pa + 20) 4)

/-- The first entry of a tag's window with its tag and model. -/
def State.phFind (s : State) (tag model : Nat) : Option Nat :=
  (probeWindow tag).find? (fun i => let e := s.phEntry i
    e.2.2.2.1 && e.1 = tag && e.2.2.1 = model)

/-- Insert a full committed page. -/
def State.phInsert (s : State) (tag seq model page d : Nat) : State :=
  if (s.phFind tag model).isSome then s
  else match (probeWindow tag).find? (fun i => !(s.phEntry i).2.2.2.1) with
    | none => s
    | some i =>
      let s := s.wrBytes (s.cfgWord 1 + 32 * i)
        (leBytes 16 tag ++ leBytes 2 seq ++ leBytes 1 model ++ leBytes 1 1 ++ leBytes 4 page ++ List.replicate 8 0)
      { s with pfxOf := s.pfxOf.put d i }

/-! ## Moves (R225, R439) -/

/-- The bytes of a line of a place, none when it cannot be read: a slow-tier line that fails enters its page in the poison list
(R137, R140). -/
def State.placeLine (s : State) (a : Nat) : Option (List Byte) × State :=
  match s.paKind a with
  | .slow _ => if s.poisonPages.contains (a / 65536) then (none, s) else s.slowLine 0 8 0 a 128
  | _ => (if s.poisoned a then none else some (s.bytes a 128), s)

/-- Copy a line between places; an unreadable source line leaves the destination line poisoned. -/
def State.copyLine (s : State) (a b : Nat) : State :=
  match s.placeLine a with
  | (none, s) => s.setPoison b true
  | (some bs, s) => (s.wrBytes b bs).setPoison b false

/-- The engine of tile `t` copies `n` bytes between places for a strand, line by line; what it reads from the slow tier is
metered there too (R255, R257, R258). -/
def State.copyRange (s : State) (t : Nat) (own : Option (Nat × Nat)) (src dst n : Nat) : State :=
  let s := s.unitAccs own [(t, src, n, false), (t, dst, n, true)]
  let s := if slowRange src then s.meterSlow ((own.map Prod.snd).getD 8) n else s
  (List.range (n / 128)).foldl (fun (s : State) i => s.copyLine (src + 128 * i) (dst + 128 * i)) s

/-- What a page's move does with its data: copied or written from an image to its new place; the place it leaves holds undefined
bytes from then on (R443), and no engine writes the image past a poisoned line that it covers whole (R137). -/
def State.movePlace (s : State) (m : Move) : State :=
  let t := s.dOwner m.desc
  let own := some (m.who.key % 16, m.who.cls)
  let s := match m.dst, m.src with
    | some b, some a => s.copyRange t own a b 16384
    | some b, none =>
      (List.range 128).foldl (fun (s : State) i => s.setPoison (b + 128 * i) false)
        ((s.unitAccs own [(t, b, 16384, true)]).wrBytes b m.image)
    | none, _ => s
  match m.src with
  | some a => s.undefBytes a 16384
  | none => s

/-- PAGE_MOVE_COMPLETE: the copy waits for every visit in progress on the page; then the page leaves EVICTING. -/
def State.moveDone (s : State) (n : Nat) : State :=
  match s.moves[n]? with
  | none => s
  | some m =>
    if s.visited m.desc then s
    else
      let s := ({ s with moves := s.moves.eraseIdx n } : State).movePlace m
      let s := match m.caddr with
        | some c => (s.stackPut (s.cfgWord 4) c).wr (m.desc + 0x10) 8 0
        | none => s
      let s := if m.target = stCold then s.wr (m.desc + 0x10) 8 (m.dst.getD 0) else s
      let s := s.setDsc m.desc 61 3 m.target
      if s.lives m.who then s.finish m.who.key m.who.idx 0 else s

def execPageMoveComplete (s : State) : Out :=
  run (fun s => match s.focus with
    | .ev n _ _ _ _ => s.moveDone n
    | _ => s) s

end Sys2Proof.Machine
end

