-- ==== Sys2Proof/Machine/Token.lean ====
section
/-! DEFINITION. Query tokens at rest in a token slot (R417, R418), the places their pages have, and the pause of a visit
(R225, R227, R461). -/

namespace Sys2Proof.Machine

/-! ## Layout (R417, R418) -/

def tokOoff (rows : Nat) : Nat := 128 * ((12 * rows + 64 + 127) / 128)
def tokQoff (rows dhd : Nat) : Nat := tokOoff rows + 256 * rows * ((32 * dhd + 63) / 64)
def tokLen (rows dhd : Nat) : Nat := tokQoff rows dhd + 512 * rows

/-- ROWS and DHD as AUX carries them (R418). -/
def Msg.rows (m : Msg) : Nat := m.aux % 32 + 1
def Msg.dhd (m : Msg) : Nat := bitsOf m.aux 5 4

/-- `n` header bytes of a token image in a list. -/
def hdrOf (rows : Nat) (bs : List Byte) (off n : Nat) : Nat := leNat ((bs.drop (tokOoff rows - 64 + off)).take n)

/-- The field ranges of a header (R418, R417): the token's reserved fields are 0. -/
def hdrOk (rows : Nat) (bs : List Byte) : Bool :=
  let h := hdrOf rows bs
  let dhd := h 5 1
  h 3 1 < 64 && h 4 1 < 32 && 1 ≤ dhd && dhd ≤ 8 && h 6 1 < 128 && h 7 1 < 64 &&
  (h 0xC 4 < 64 || h 0xC 4 = 0xFFFFFFFF) && h 0x14 4 = 0 && h 0x20 32 = 0 &&
  bitsOf (h 0x18 8) 18 14 = 0 && tokLen rows dhd ≤ 32768

/-! ## Slots -/

def State.tslot (s : State) (t k : Nat) : Option TSlot := (s.tile t).tslots.get? k
def State.setTslot (s : State) (t k : Nat) (x : TSlot) : State := s.updTile t (fun y => { y with tslots := y.tslots.put k x })
def State.dropTslot (s : State) (t k : Nat) : State := s.updTile t (fun y => { y with tslots := y.tslots.del k })

/-- `n` header bytes of the token in a slot. -/
def State.slotHdr (s : State) (t k : Nat) (x : TSlot) (off n : Nat) : Nat :=
  s.rd (tokSlotPa t k + tokOoff x.msg.rows - 64 + off) n

/-- A slot whose token is in service. -/
def State.serving (s : State) (t k : Nat) : Option TSlot :=
  match s.tslot t k with
  | some x => if x.service.isSome && !x.leaving then some x else none
  | none => none

/-! ## Pages of a token in service (R227, R461) -/

/-- The descriptor of a page of the token's sequence, layer and group, when its map entry is valid. -/
def State.tokDesc (s : State) (t k : Nat) (x : TSlot) (page : Nat) : Option Nat :=
  let q := s.seq (s.slotHdr t k x 0 2)
  let p := s.slotHdr t k x 2 1 * (q.ngrp + 1) + s.slotHdr t k x 3 1 % 64
  if q.v && page < q.pmcap then s.mapped q p page else none

/-- The places of page PFIRST + i of a snapshot entry: the one the entry gives (R461), and those its descriptor gives, which a
page keeps whatever its state: its HBM place, and its slow-tier place while it has one (R223, R224). -/
def State.entryPlaces (s : State) (t k : Nat) (x : TSlot) (e : BitVec 256) (i : Nat) : List Nat :=
  (if i < shNslot e then [s.slotPa t ((shSlbase e + i) % 256)]
   else if shHbase e ≠ 0 then [shHbase e + 16384 * i] else []) ++
  (match s.tokDesc t k x (shFirst e + i) with
   | some d => s.dHaddr d :: (if s.dCaddr d ≠ 0 then [s.dCaddr d] else [])
   | none => [])

/-- The page of the token's snapshot whose place holds a physical address. -/
def State.snapPage (s : State) (t k : Nat) (x : TSlot) (pa : Nat) : Option Nat :=
  x.snap.findSome? (fun e => (List.range (shCnt e)).findSome? (fun i =>
    if (s.entryPlaces t k x e i).any (fun a => a ≤ pa && pa < a + 16384) then some (shFirst e + i) else none))

/-- Position of the token's last row. -/
def State.lastPos (s : State) (t k : Nat) (x : TSlot) : Nat :=
  s.slotHdr t k x 8 4 + s.slotHdr t k x 4 1 / (s.slotHdr t k x 6 1 + 1)

/-- Must a visit to a page wait (R461)? A visit in progress reads to its end over an eviction (R225), not past FILL. -/
def State.pageWait (s : State) (t k : Nat) (x : TSlot) (page : Nat) : Bool :=
  match s.tokDesc t k x page with
  | none => true
  | some d =>
    let last := min (64 * page + 63) (s.lastPos t k x)
    (!x.visits.contains d && (s.dState d = stAbsent || s.dState d = stEvict)) ||
    (64 * page ≤ last && decide (s.dFill d < last - 64 * page + 1))

/-- The mask word of a row standing at tentative slot `k` (R467), for keys at the given positions. -/
def treeMask (clen tlen links k : Nat) (pos : Nat → Nat) : Nat :=
  let anc := if k < tlen - clen then ancestors links 64 k else []
  ofBits ((List.range 64).map (fun j => pos j < clen || (pos j - clen < tlen - clen && anc.contains (pos j - clen))))

/-- What the mask words of a token's rows come from (R467): CLEN, TLEN and PLINK as its service began, and TLEN and PLINK of now. -/
structure TreeWords where
  clen : Nat
  tlen : Nat
  links : Nat
  tnow : Nat
  lnow : Nat
  deriving DecidableEq, Repr

/-- The entry is read once, when the service starts (R467). What an append adds since, the row at its slot sees all the same: its
visit waits for that append (R461), and its result does not depend on the moment of it (R464, R465; DEDUCED, log 88). -/
def State.treeWords (s : State) (x : TSlot) (n : Nat) : TreeWords :=
  let q := s.seq n
  if q.v && q.clen = x.clen && x.tlen < q.tlen then ⟨x.clen, x.tlen, x.links, q.tlen, q.links⟩
  else ⟨x.clen, x.tlen, x.links, x.tlen, x.links⟩

/-- The mask word of a row at tentative slot `k`. -/
def TreeWords.mask (w : TreeWords) (k : Nat) (pos : Nat → Nat) : Nat :=
  if k < w.tlen - w.clen then treeMask w.clen w.tlen w.links k pos else treeMask w.clen w.tnow w.lnow k pos

end Sys2Proof.Machine
end

