-- ==== Sys2Proof/Machine/Matrix.lean ====
section
/-! DEFINITION. The matrix node: control tokens, acceptance, the arithmetic of every operation, completion, stop and drain
(R88-R90, R242, R360-R381, R461, R462, R467). -/

namespace Sys2Proof.Machine

/-! ## The control token and the descriptor (R364-R366) -/

def MOp.op (o : MOp) : Nat := bitsOf o.tok.toNat 60 4
def MOp.flag (o : MOp) : Bool := bitOf o.tok.toNat 57
def MOp.drn (o : MOp) : Nat := bitsOf o.tok.toNat 4 2
def MOp.w (o : MOp) (i : Nat) : Nat := wAt o.desc i
def MOp.cfg (o : MOp) (lo n : Nat) : Nat := bitsOf (wAt o.desc 6) lo n
def MOp.rows (o : MOp) : Nat := o.cfg 57 7 + 1
def MOp.kg (o : MOp) : Nat := o.cfg 53 4
/-- K, or the head dimension d. -/
def MOp.depth (o : MOp) : Nat := 32 * (o.kg + 1)
def MOp.afmt (o : MOp) : Nat := o.cfg 49 4
def MOp.bfmt (o : MOp) : Nat := o.cfg 45 4
def MOp.qpg (o : MOp) : Nat := o.cfg 32 7 + 1
def MOp.bias (o : MOp) : Nat := o.cfg 27 5
def MOp.nkey (o : MOp) : Nat := o.cfg 21 6 + 1
def MOp.intm (o : MOp) : Bool := o.cfg 19 1 = 1
def MOp.tokq (o : MOp) : Bool := o.cfg 17 1 = 1
/-- Accumulator rows of one query row. -/
def MOp.span (o : MOp) : Nat := (o.depth + 63) / 64

/-- Operations by number (R364). -/
def mxMma : Nat := 0
def mxMmas : Nat := 1
def mxMqk : Nat := 2
def mxMpv : Nat := 3
def mxScan : Nat := 4
def mxZero : Nat := 5
def mxLd : Nat := 6
def mxSt : Nat := 7
def mxResc : Nat := 8

/-- The control token that a sequencer instruction builds. -/
def mxToken (op k : Nat) (flag : Bool) (a : W64) : W64 :=
  w64 (op * 2 ^ 60 + k * 2 ^ 58 + flag.toNat * 2 ^ 57 + bitsOf a.toNat 6 49 * 64)

/-- What RESERVED_FIELD and PRIVILEGE carry in EXTRA: the instruction word, or the control token of a CTOK. -/
def State.mxWord (s : State) (o : MOp) : W64 :=
  match o.idx with
  | some i => s.wordAt o.who.key i
  | none => o.tok

/-! ## Issue (R360, R363) -/

/-- A matrix instruction's checks when it fires: ownership, at either privilege (R88), a RECONF in progress (R333). -/
def mxOwn (mask : Nat) (e : Env) (s : State) : Option Flt :=
  let c := s.ctx e.key
  let ks := (List.range 4).filter (bitOf mask)
  if ks.any (fun k => c.region ≠ some k) then some (fltWord .privilege e)
  else (ks.find? (fun k => (s.region (4 * e.tile + k)).reconf)).map (fun k => { code := .reconfPending, extra := w64 k })

/-- Send a control token to the control port. -/
def mxIssue (op : Nat) (ch : BitVec 2) (flag : Bool) (e : Env) (s : State) : State :=
  match mxOwn (2 ^ ch.toNat) e s with
  | some f => faultOf e f s
  | none =>
    let (id, s) := s.fresh
    let o : MOp := ⟨id, mxToken op ch.toNat flag e.a, s.who e, some e.idx, none, [e.a], 0, s.cycle, false, []⟩
    s.updTile e.tile (fun t => { t with mq := t.mq ++ [o] })

/-- A command of group MATRIX. -/
def mxInstr (op : Nat) (h : Head) (ch : BitVec 2) (flag : Bool) (s : State) : State :=
  fireSeq h { a := op ≠ mxZero } (mxIssue op ch flag) s hold15

def execMma (h : Head) (ch : BitVec 2) (flag : Bool) (s : State) : Out := run (mxInstr mxMma h ch flag) s
def execMmas (h : Head) (ch : BitVec 2) (flag : Bool) (s : State) : Out := run (mxInstr mxMmas h ch flag) s
def execMqk (h : Head) (ch : BitVec 2) (s : State) : Out := run (mxInstr mxMqk h ch false) s
def execMpv (h : Head) (ch : BitVec 2) (s : State) : Out := run (mxInstr mxMpv h ch false) s
def execMscan (h : Head) (ch : BitVec 2) (flag : Bool) (s : State) : Out := run (mxInstr mxScan h ch flag) s
def execMzero (h : Head) (ch : BitVec 2) (flag : Bool) (s : State) : Out := run (mxInstr mxZero h ch flag) s
def execMldacc (h : Head) (ch : BitVec 2) (flag : Bool) (s : State) : Out := run (mxInstr mxLd h ch flag) s
def execMstacc (h : Head) (ch : BitVec 2) (s : State) : Out := run (mxInstr mxSt h ch false) s
def execMresc (h : Head) (ch : BitVec 2) (s : State) : Out := run (mxInstr mxResc h ch false) s

/-- A side register of a row: 0 MX, 1 SM, 2 AL (R74, R376). -/
def Acc.side (a : Acc) (side row : Nat) : Nat :=
  ((match side with
    | 0 => a.mx.getD 0xFF800000 row
    | 1 => a.sm.getD 0 row
    | _ => a.al.getD 0x3F800000 row) : BitVec 32).toNat

/-- MSIDE (R376). -/
def execMside (h : Head) (ch side : BitVec 2) (s : State) : Out :=
  run (fun s => fireSeq h { a := true } (fun e s =>
    match mxOwn (2 ^ ch.toNat) e s with
    | some f => faultOf e f s
    | none =>
      if e.a.toNat > 127 then faultOf e (fltWord .reservedField e) s
      else
        let ops := s.accOps e.tile ch.toNat
        if ops.isEmpty then s.finish e.key e.idx (w64 ((s.acc (4 * e.tile + ch.toNat)).side side.toNat e.a.toNat))
        else { s with waits := s.waits ++ [⟨e.key, e.idx, .mside ch.toNat e.a.toNat side.toNat ops⟩] }) s hold15) s

/-- What MWAIT delivers: bit k is set when ROWPk is not 0 (R377). -/
def State.rowpMask (s : State) (t : Nat) : W64 := w64 (ofBits ((List.range 4).map (fun k => decide ((s.acc (4 * t + k)).rowp ≠ 0))))

/-- MWAIT (R377). -/
def execMwait (h : Head) (mask : BitVec 4) (s : State) : Out :=
  run (fun s => fireSeq h {} (fun e s =>
    match mxOwn mask.toNat e s with
    | some f => faultOf e f s
    | none =>
      let ops := ((List.range 4).filter (bitOf mask.toNat)).flatMap (s.accOps e.tile)
      if ops.isEmpty then s.finish e.key e.idx (s.rowpMask e.tile)
      else { s with waits := s.waits ++ [⟨e.key, e.idx, .mwait mask.toNat ops⟩] }) s hold15) s

/-- Waiting MWAITs and MSIDEs whose operations have completed or stopped complete. -/
def State.matrixWake (s : State) : State :=
  s.waits.foldl (fun s w =>
    let t := w.key / 16
    match w.k with
    | .mwait _ ops => if s.opsBusy t ops then s else (dropWait s w).finish w.key w.idx (s.rowpMask t)
    | .mside k row side ops =>
      if s.opsBusy t ops then s else (dropWait s w).finish w.key w.idx (w64 ((s.acc (4 * t + k)).side side row))
    | _ => s) s

/-! ## Acceptance (R362, R364-R368, R379) -/

/-- Does an operation read ABASE, BBASE? -/
def mxReadsA (op : Nat) : Bool := op ≠ mxMpv && op ≠ mxResc
def mxReadsB (op : Nat) : Bool := op ≤ 4
def isBfp (f : Nat) : Bool := 6 ≤ f && f ≤ 12

/-- The descriptor's field checks (R365, R366, R371). -/
def MOp.fieldsOk (o : MOp) : Bool :=
  let p := o.op
  (mxReadsA p || (o.w 0 = 0 && bitsOf (o.w 4) 0 32 = 0)) &&
  (mxReadsB p || (o.w 1 = 0 && bitsOf (o.w 4) 32 32 = 0)) &&
  (p = mxMmas || p = mxMqk || p = mxLd || p = mxSt || o.w 2 = 0) && (p ≠ mxMmas || o.w 2 ≠ 0) &&
  (p = mxMqk || (o.w 3 = 0 && o.w 5 = 0 && bitsOf (o.w 7) 0 32 = 0)) && bitsOf (o.w 7) 32 32 = 0 &&
  (if p = mxScan then o.kg = 1 else if p = mxLd || p = mxSt then o.kg = 0 else true) &&
  (p = mxMma || p = mxMmas || p = mxMqk || p = mxScan || o.afmt = 0) && (mxReadsB p || o.bfmt = 0) &&
  (p = mxMqk || (o.cfg 39 6 = 0 && o.cfg 32 7 = 0 && o.bias = 0 && o.cfg 20 1 = 0)) &&
  (p = mxMqk || p = mxMpv || o.cfg 21 6 = 0) &&
  (!o.intm || ((p = mxMma || p = mxMmas) && isBfp o.afmt && isBfp o.bfmt)) &&
  (o.cfg 18 1 = 0 || p = mxMmas) && (!o.tokq || mxReadsA p) && o.cfg 0 17 = 0 &&
  ((p ≠ mxMqk && p ≠ mxMpv && p ≠ mxResc) || (o.rows * o.span ≤ 128 && o.depth ≤ 256)) &&
  o.bias ≤ 16 && (o.bias = 0 || o.cfg 39 6 + min o.qpg o.rows ≤ 64)

/-- The accumulator tag of an accepted format pair (R368). -/
def MOp.pairTag (o : MOp) : Option Nat :=
  let a := o.afmt
  let b := o.bfmt
  let f16 := fun (x : Nat) => x = 2 || x = 3
  let f8 := fun (x : Nat) => x = 4 || x = 5
  if o.op = mxMma || o.op = mxMmas then
    if (f16 a && f16 b) || (f8 a && f8 b) then some 1
    else if a = 13 && b = 13 then some 14
    else if a = 12 && isBfp b then some (if o.intm then 14 else 1)
    else none
  else if o.op = mxMqk then (if f16 a && (f16 b || f8 b) then some 1 else none)
  else if o.op = mxMpv then (if f16 b || f8 b then some 1 else none)
  else if o.op = mxScan then (if a = b && (a = 1 || a = 2) then some 1 else none)
  else some 1

/-- The operation needs the pair's tag on its accumulator (R368). -/
def MOp.needsTag (o : MOp) : Bool :=
  ((o.op = mxMma || o.op = mxMmas || o.op = mxScan) && o.flag) || o.op = mxMqk || o.op = mxMpv || o.op = mxResc

/-- Alignment of bases and strides (R367, R462). -/
def MOp.aligned (o : MOp) : Option (W64 × Nat) :=
  let ls := o.op = mxLd || o.op = mxSt
  let za := if ls then 128 else tagBytes o.afmt
  let zb := tagBytes o.bfmt
  let off := fun (v : Nat) => if o.tokq then bitsOf v 16 16 else v
  if mxReadsA o.op && (off (o.w 0) % za ≠ 0 || bitsOf (o.w 4) 0 32 % za ≠ 0) then some (o.desc.getD 0 0, za)
  else if mxReadsB o.op && (o.w 1 % zb ≠ 0 || bitsOf (o.w 4) 32 32 % zb ≠ 0) then some (o.desc.getD 1 0, zb)
  else if ls && off (o.w 2) % 128 ≠ 0 then some (o.desc.getD 2 0, 128)
  else none

/-- A base that names a token slot: its other bits are 0 and the slot holds a token in service (R367). -/
def State.slotNamed (s : State) (t v : Nat) : Bool :=
  bitsOf v 3 13 = 0 && bitsOf v 32 32 = 0 && (s.serving t (v % 8)).isSome

/-- The address of the descriptor: as issued, or bits 54:6 of a CTOK, sign-extended. -/
def MOp.descAddr (o : MOp) : W64 :=
  if o.idx.isSome then o.desc.getD 0 0 else w64 (wrapNat 64 (sext 55 (bitsOf o.tok.toNat 6 49 * 64)))

def mxNeed (ok : Bool) (f : Flt) : M Unit := if ok then pure () else raise f

/-- FORMAT_MISMATCH of a matrix operation: a descriptor names no element and no slot, so EXTRA has the tag found alone; of a
format pair that is not accepted that is AFMT (R101; DESIGN CHOICE, log 79). -/
def mxMismatch (da : W64) (tag : Nat) : Flt := { code := .formatMismatch, addr := da, extra := w64 (tag * 4096) }

/-- The checks of acceptance; the answer holds the descriptor and the row to start from. The tag found of a format pair that is not
accepted is AFMT (log 79). -/
def mxCheck (t : Nat) (o : MOp) : M MOp := do
  let s ← getS
  let k := o.acc
  let word := s.mxWord o
  let res : Flt := { code := .reservedField, extra := word }
  mxNeed (o.op ≤ 8 && bitsOf o.tok.toNat 55 2 = 0 && o.tok.toNat % 16 = 0 && o.drn ≠ 3) res
  mxNeed (!o.flag || o.op ≤ 1 || (4 ≤ o.op && o.op ≤ 6)) res
  mxNeed (match o.region with
    | some r => r = k
    | none => (s.ctx o.who.key).region = some k) { code := .privilege, extra := word }
  mxNeed (o.drn = 0 || rtV (s.region (4 * t + k)).drainRoute) res
  mxNeed (o.drn ≠ 2 || (o.op ≠ mxMqk && o.op ≠ mxZero && o.op ≠ mxSt)) res
  let a := s.acc (4 * t + k)
  mxNeed (a.rowp = 0 || (o.op ≠ mxZero && a.keptTok = o.tok)) res
  if o.op = mxZero then do
    mxNeed (bitsOf o.tok.toNat 6 49 = 0) res
    pure { o with desc := [], row0 := 0 }
  else do
    let da := o.descAddr
    needAlign da 64
    let bs ← readU t o.who.part ((useERead o.who.sup [0] 0).by o.who) .engine da 64
    let d := (List.range 8).map (fun i => w64 (leNat ((bs.drop (8 * i)).take 8)))
    let resD : Flt := { res with addr := da }
    mxNeed (a.rowp = 0 || a.keptDesc = d) resD
    let o := { o with desc := d, row0 := a.rowp }
    mxNeed o.fieldsOk resD
    match o.pairTag with
    | none => raise (mxMismatch da o.afmt)
    | some tag => do
      mxNeed ((o.op ≠ mxMma && o.op ≠ mxMmas) || !(o.afmt = 2 || o.afmt = 3) || o.depth ≤ 256) resD
      mxNeed (s.level ≠ 1 || !(isBfp o.afmt || isBfp o.bfmt)) { code := .partFailed, extra := 6 }
      mxNeed (!o.needsTag || a.tag = tag) (mxMismatch 0 a.tag)
      mxNeed (!o.tokq || (s.slotNamed t (o.w 0) && ((o.op ≠ mxLd && o.op ≠ mxSt) || s.slotNamed t (o.w 2)))) resD
      match o.aligned with
      | some (v, z) => raise { code := .misaligned, addr := v, extra := w64 z }
      | none => pure o

/-! ## The control port (R89, R242) -/

/-- An MQK waits while the P buffer is held, or reserved by an accepted MQK, for another accumulator (R89). -/
def State.mxFree (s : State) (t : Nat) (o : MOp) : Bool :=
  let x := s.tile t
  !(o.op = mxMqk && ((x.pbusy && x.pacc ≠ o.acc) || x.mrun.any (fun r => r.op = mxMqk && !r.sent && r.acc ≠ o.acc)))

/-- The CTOK token at the head of a region's control port, with the context that speaks for its task (R103). -/
def State.ctokHead (s : State) (t k : Nat) : Option MOp :=
  match (s.region (4 * t + k)).mport.getD [] 2, s.regionCtx (4 * t + k) with
  | tok :: _, some key =>
    let c := s.ctx key
    some ⟨0, tok.data, ⟨key, c.ident, 0, c.part, c.priv, s.classOf key⟩, none, some k, [], 0, 0, false, []⟩
  | _, _ => none

/-- A token that waits for acceptance when its strand has a fault pending is withdrawn: only the fault's delivery comes (R109,
R361). -/
def State.mxLive (s : State) (o : MOp) : Bool :=
  let c := s.ctx o.who.key
  o.idx.isNone || !(c.sync.isSome || c.asyncDue)

/-- The request that a slot of the table names. -/
def State.mxCand (s : State) (t e : Nat) : Option MOp :=
  if !bitOf e 7 then none
  else if bitOf e 2 then (s.ctokHead t (e % 4)).filter (s.mxFree t)
  else ((s.tile t).mq.filter (fun o => o.acc = e % 4 && s.mxFree t o && s.mxLive o)).foldl (fun (b : Option MOp) o => match b with
    | none => some o
    | some p => if o.since.toNat < p.since.toNat || (o.since = p.since && o.who.key < p.who.key) then some o else some p) none

/-- The arbiter's choice, from the current slot on. -/
def State.mxPick (s : State) (t : Nat) : Option MOp :=
  let x := s.tile t
  (List.range 16).findSome? (fun i => s.mxCand t (x.mslots.getD (((s.cycle - s.tilesSince).toNat + i) % 16) 0))

/-- A fault of an operation: REG names the region of a CTOK-started one, which stops firing (R100, R103). -/
def State.mxFault (s : State) (t : Nat) (o : MOp) (f : Flt) : State :=
  let f := { f with src := 2, reg := o.region.getD 0 }
  match o.region with
  | none => s.asyncTo o.who f
  | some r => ((s.regionCtx (4 * t + r)).elim s (s.asyncFault · f)).updRegion (4 * t + r) (fun x => { x with stopped := true })

/-- Take the arbiter's choice: accepted, or rejected with its fault (R362). -/
def State.mxAccept (s : State) (t : Nat) : State :=
  match s.mxPick t with
  | none => s
  | some o =>
    let s := match o.region with
      | some r => s.updRegion (4 * t + r) (fun x => { x with mport := x.mport.put 2 ((x.mport.getD [] 2).drop 1) })
      | none => s.updTile t (fun x => { x with mq := x.mq.filter (fun p => p.id ≠ o.id) })
    match mxCheck t o s with
    | .error f s =>
      (match o.idx with
       | some i => s.syncFault o.who.key { f with idx := some i }
       | none => s.mxFault t o f)
    | .ok p s =>
      let (id, s) := if p.idx.isSome then (p.id, s) else s.fresh
      let s := s.updTile t (fun x => { x with mrun := x.mrun ++ [{ p with id := id }] })
      match p.idx with
      | some i => s.accept p.who.key i 0
      | none => s

/-- MATRIX_ACCEPT (R242, R360). -/
def execMatrixAccept (s : State) : Out :=
  run (fun s => match s.focus with
    | .ev t _ _ _ _ => s.mxAccept t
    | _ => s) s

/-! ## Operands (R53, R55, R367) -/

/-- Address of row `i` of an operand. -/
def mxAddr (base stride i : Nat) : Nat := wrapNat 64 ((base : Int) + (i : Int) * sext 32 stride)

/-- Physical address of an offset from a base that names a token slot. -/
def slotAddr (t base stride i : Nat) : Nat :=
  ((tokSlotPa t (base % 8) + bitsOf base 16 16 : Nat) + (i : Int) * sext 32 stride).toNat

/-- Read operand bytes through the load pipes. -/
def mxRead (t : Nat) (o : MOp) (va n : Nat) : M (List Byte) :=
  readU t o.who.part ((useERead o.who.sup [0, 3, 4, 5] 0).by o.who) .engine (w64 va) n

/-- Read mask words or key positions, whose misalignment the load pipe finds (R379; DEDUCED, log 43). -/
def mxReadWord (t : Nat) (o : MOp) (va n size : Nat) : M (List Byte) := do
  needAlign (w64 va) size
  mxRead t o va n

/-- Read bytes at a physical place of the tile: a token slot, a bias table. -/
def mxReadPa (pa n : Nat) : M (List Byte) := do
  let s ← getS
  match s.poisonAt pa n with
  | some f => raise f
  | none => pure (s.bytes pa n)

/-- Row `i` of A. -/
def mxReadA (t : Nat) (o : MOp) (i n : Nat) : M (List Byte) :=
  let str := bitsOf (o.w 4) 0 32
  if o.tokq then mxReadPa (slotAddr t (o.w 0) str i) n else mxRead t o (mxAddr (o.w 0) str i) n

/-- Column, key or row `i` of B. -/
def mxReadB (t : Nat) (o : MOp) (i n : Nat) : M (List Byte) := mxRead t o (mxAddr (o.w 1) (bitsOf (o.w 4) 32 32) i) n

/-- Bytes of a group of `n` elements of a format. -/
def groupBytes (fmt n : Nat) : Nat := if isBfp fmt then 1 + n * (fmt - 4) / 8 else n * tagBytes fmt

/-- The `n` elements of a group, as values and as integers. -/
def decGroup (fmt n : Nat) (bs : List Byte) : List (FV × Int) :=
  if isBfp fmt then
    let w := fmt - 4
    let e := (bs.headD 0).toNat
    let str := leNat (bs.drop 1)
    (List.range n).map (fun i => (bfpVal w e (bitsOf str (i * w) w), sext w (bitsOf str (i * w) w)))
  else
    let z := tagBytes fmt
    (List.range n).map (fun i =>
      let x := leNat ((bs.drop (z * i)).take z)
      ((match tagFmt fmt with
        | some f => f.dec x
        | none => .fin false 0 0), sext (8 * z) x))

/-- A row of groups of 32. -/
def decRow (fmt groups : Nat) (bs : List Byte) : List (List (FV × Int)) :=
  (List.range groups).map (fun g => decGroup fmt 32 (bs.drop (g * groupBytes fmt 32)))

/-- The plain values of a row. -/
def rowVals (fmt groups : Nat) (bs : List Byte) : List FV := (decRow fmt groups bs).flatten.map Prod.fst

def Acc.at_ (a : Acc) (row col : Nat) : Nat := (a.c.getD 0 (64 * row + col)).toNat

/-- Write elements from column 0 of a row on; they run on into the following rows. -/
def Acc.setRow (a : Acc) (row : Nat) (vs : List Nat) : Acc :=
  { a with c := (List.range vs.length).foldl (fun (m : Map (BitVec 32)) c =>
      m.put (64 * row + c) (BitVec.ofNat 32 (vs.getD c 0))) a.c }

def Acc.setMx (a : Acc) (i v : Nat) : Acc := { a with mx := a.mx.put i (BitVec.ofNat 32 v) }
def Acc.setSm (a : Acc) (i v : Nat) : Acc := { a with sm := a.sm.put i (BitVec.ofNat 32 v) }
def Acc.setAl (a : Acc) (i v : Nat) : Acc := { a with al := a.al.put i (BitVec.ofNat 32 v) }

/-! ## Rows (R369-R378): each operation reads what all rows share, then answers what one row does and its flags -/

/-- A column of B: for each group, the elements present by place. -/
abbrev MCol := List (List (Nat × FV × Int))

/-- One dot product of MMA and MMAS (R66, R68). -/
def mxDot (int : Bool) (init : Nat) (a : List (List (FV × Int))) (col : MCol) : Nat × Nat :=
  let gs := a.zip col
  let z : FV × Int := (.fin false 0 0, 0)
  if int then
    (wrapNat 32 ((init : Int) + (gs.map (fun g => (g.2.map (fun x => (g.1.getD x.1 z).2 * x.2.2)).sum)).sum), 0)
  else groupedDot init (gs.map (fun g => g.2.map (fun x => ((g.1.getD x.1 z).1, x.2.1))))

/-- A row of MMA or MMAS from its columns (R369). -/
def mxMacRow (t : Nat) (o : MOp) (cols : List MCol) (i : Nat) : M Nat := do
  let bs ← mxReadA t o i ((o.kg + 1) * groupBytes o.afmt 32)
  let row := decRow o.afmt (o.kg + 1) bs
  let tag := o.pairTag.getD 1
  let s ← getS
  let a := s.acc (4 * t + o.acc)
  let rs := (List.range 64).map (fun c => mxDot (tag = 14) (if o.flag then a.at_ i c else 0) row (cols.getD c []))
  modS (fun s => s.setAcc (4 * t + o.acc) { a.setRow i (rs.map Prod.fst) with tag := tag })
  pure (rs.foldl (fun f r => fOr f r.2) 0)

/-- MMA's columns. -/
def mxDense (t : Nat) (o : MOp) : M (List MCol) :=
  (List.range 64).mapM (fun c => do
    let bs ← mxReadB t o c ((o.kg + 1) * groupBytes o.bfmt 32)
    pure ((decRow o.bfmt (o.kg + 1) bs).map (fun g => (List.range 32).zip g)))

/-- MMAS's columns (R370): N of 32 elements of each group present, as the metadata masks say. -/
def mxSparse (t : Nat) (o : MOp) : M (List MCol) := do
  let n := if o.cfg 18 1 = 1 then 8 else 16
  let z := groupBytes o.bfmt n
  (List.range 64).mapM (fun c => do
    let bs ← mxReadB t o c ((o.kg + 1) * z)
    (List.range (o.kg + 1)).mapM (fun g => do
      let ma := (o.w 2 + 4 * (c * (o.kg + 1) + g)) % 2 ^ 64
      let mb ← mxReadWord t o ma 4 4
      let s ← getS
      let bits := (List.range 32).filter (bitOf (leNat mb))
      if bits.length = n then pure (bits.zip (decGroup o.bfmt n (bs.drop (g * z))))
      else raise { code := .reservedField, addr := w64 ma, extra := s.mxWord o }))

/-- BiasBucket (R233). -/
def biasBucket (delta : Int) : Nat :=
  let a := delta.natAbs
  if a ≤ 7 then a
  else
    let e := Nat.log2 a
    min 31 (8 + 4 * (e - 3) + a / 2 ^ (e - 2) % 4)

def negInf32 : Nat := 0xFF800000
def one32 : Nat := 0x3F800000

/-- Level sums of pairs, one rounding each, up to one value (R372). -/
def pairLevel : List Nat → List Nat × Nat
  | a :: b :: r =>
    let x := fp32.add .rne a b
    let y := pairLevel r
    (x.1 :: y.1, fOr x.2 y.2)
  | l => (l, 0)

def pairTree : Nat → List Nat → Nat × Nat
  | 0, l => (l.headD 0, 0)
  | n + 1, l =>
    let x := pairLevel l
    let y := pairTree n x.1
    (y.1, fOr x.2 y.2)

/-- The softmax step of a row (R372): from MX, SM and the 64 scores to MX, SM, AL, the P row and the flags. -/
def softmaxRow (mx sm : Nat) (sc : List Nat) : Nat × Nat × Nat × List Nat × Nat :=
  if (mx :: sc).any (fun x => (fp32.dec x).isNan) then
    (fp32.nan, fp32.nan, fp32.nan, List.replicate 64 0x7FC0, fNV)
  else
    let m := sc.foldl (fun m x => (fp32.minmax true m x).1) mx
    let al := if m = mx then (one32, 0)
      else
        let d := fp32.sub .rne mx m
        let r := fp32.exp2 .rne d.1
        (r.1, fOr d.2 r.2)
    let ps := sc.map (fun x => if x = negInf32 then (0, 0) else
      let d := fp32.sub .rne x m
      let r := fp32.exp2 .rne d.1
      (r.1, fOr d.2 r.2))
    let sg := pairTree 6 (ps.map Prod.fst)
    let sm' := fp32.fma .rne false false al.1 sm sg.1
    let bs := ps.map (fun p => cvtFF fp32 bf16 .rne p.1)
    (m, sm'.1, al.1, bs.map Prod.fst,
      (ps ++ bs).foldl (fun f p => fOr f p.2) (fOr al.2 (fOr sg.2 sm'.2)))

/-- What an MQK reads before its rows (R371): keys, key positions, a bias table, and the token's tree mask (R467). -/
structure KeyPage where
  keys : List (List FV)
  pos : List Nat
  bias : List Byte
  tree : Option (TreeWords × Nat × Nat)            -- what the mask words come from, TSL, rows per position
  deriving DecidableEq, Repr

/-- A key is masked for a row (R371). -/
def MOp.masked (o : MOp) (p : KeyPage) (word : Option Nat) (i j : Nat) : Bool :=
  let q := bitsOf (o.w 5) 0 32 + i / o.qpg
  let kp := p.pos.getD j 0
  let win := bitsOf (o.w 7) 0 32
  j ≥ o.nkey || (o.cfg 20 1 = 1 && kp > q) || (win ≠ 0 && (q : Int) - (kp : Int) ≥ win) ||
  (match word with
   | some m => !bitOf m j
   | none => false)

/-- The score of a key that is not masked (R372). -/
def MOp.score (o : MOp) (p : KeyPage) (q : List FV) (i j : Nat) : Nat × Nat :=
  let ts := q.zip (p.keys.getD j [])
  let s := groupedDot 0 ((List.range (o.kg + 1)).map (fun g => (ts.drop (32 * g)).take 32))
  if o.bias = 0 then s
  else
    let b := 64 * (o.cfg 39 6 + i % o.qpg) +
      2 * biasBucket ((p.pos.getD j 0 : Int) - (bitsOf (o.w 5) 0 32 + i / o.qpg : Nat))
    let r := fp32.add .rne s.1 (leNat ((p.bias.drop b).take 2) * 2 ^ 16)
    (r.1, fOr s.2 r.2)

/-- The shared reads of an MQK. -/
def mxKeys (t : Nat) (o : MOp) : M KeyPage := do
  let keys ← (List.range o.nkey).mapM (fun j => do
    let bs ← mxReadB t o j ((o.kg + 1) * groupBytes o.bfmt 32)
    pure (rowVals o.bfmt (o.kg + 1) bs))
  let pos ← (if o.w 3 = 0 then pure ((List.range 64).map (fun j => bitsOf (o.w 5) 32 32 + j)) else do
    let bs ← mxReadWord t o (o.w 3) 256 4
    pure ((List.range 64).map (fun j => leNat ((bs.drop (4 * j)).take 4))))
  let s ← getS
  let bias ← (if o.bias = 0 then pure [] else mxReadPa (s.cfgWord 2 + 4096 * (o.bias - 1)) 4096)
  let k := o.w 0 % 8
  let tree := if o.tokq && o.w 2 = 0 then
      (match s.serving t k with
       | some x => if s.slotHdr t k x 0xC 4 = 0xFFFFFFFF then none
          else some (s.treeWords x (s.slotHdr t k x 0 2), s.slotHdr t k x 0xC 4, s.slotHdr t k x 6 1 + 1)
       | none => none)
    else none
  pure ⟨keys, pos, bias, tree⟩

/-- A row of MQK (R372). -/
def mxScoreRow (t : Nat) (o : MOp) (p : KeyPage) (i : Nat) : M Nat := do
  let bs ← mxReadA t o i (o.depth * 2)
  let q := rowVals o.afmt (o.kg + 1) bs
  let word ← (match p.tree with
    | some (w, tsl, g) => pure (some (w.mask (tsl + i / g) (fun j => p.pos.getD j 0)))
    | none => if o.w 2 = 0 then pure none else do
        let mb ← mxReadWord t o ((o.w 2 + 8 * i) % 2 ^ 64) 8 8
        pure (some (leNat mb)))
  let sc := (List.range 64).map (fun j => if o.masked p word i j then (negInf32, 0) else o.score p q i j)
  let s ← getS
  let a := s.acc (4 * t + o.acc)
  let (m, sm, al, pr, fl) := softmaxRow (a.side 0 i) (a.side 1 i) (sc.map Prod.fst)
  modS (fun s => (s.setAcc (4 * t + o.acc) (((a.setMx i m).setSm i sm).setAl i al)).updTile t (fun x =>
    { x with pb := (List.range 64).foldl (fun (b : Map (BitVec 16)) j => b.put (64 * i + j) (BitVec.ofNat 16 (pr.getD j 0))) x.pb }))
  pure (sc.foldl (fun f r => fOr f r.2) fl)

/-- RNE(AL x O + t0 + t1), the exact value rounded once (R373). -/
def mpvSum (al o : FV) (t0 t1 : Ex) : Nat × Nat :=
  let l := [al, o, t0.toFV, t1.toFV]
  match nanRule l with
  | some (x, fl) => let r := fp32.pack .rne x; (r.1, fOr r.2 fl)
  | none =>
    let prod := mulEx al o
    if prod = .invalid then (fp32.nan, fNV)
    else
      let ts := [prod.toFV, t0.toFV, t1.toFV]
      let pos := ts.contains (.inf false)
      let neg := ts.contains (.inf true)
      if pos && neg then (fp32.nan, fNV)
      else if pos then fp32.pack .rne (.inf false)
      else if neg then fp32.pack .rne (.inf true)
      else
        let fs := ts.filterMap (fun x => match x with
          | .fin s m e => some (s, m, e)
          | _ => none)
        fp32.pack .rne (sumFin (fs.all (fun x => x.1 && x.2.1 = 0)) fs)

/-- A row of MPV (R373). -/
def mxValueRow (t : Nat) (o : MOp) (vals : List (List FV)) (i : Nat) : M Nat := do
  let s ← getS
  let a := s.acc (4 * t + o.acc)
  let pb := (s.tile t).pb
  let al := fp32.dec (a.side 2 i)
  let part := fun (c lo : Nat) => groupSum ((List.range 32).filterMap (fun j =>
    let p := (pb.getD 0 (64 * i + lo + j)).toNat
    if p = 0 || lo + j ≥ o.nkey then none
    else some (bf16.dec p, (vals.getD (lo + j) []).getD c (.fin false 0 0))))
  let rs := (List.range o.depth).map (fun c =>
    let x := part c 0
    let y := part c 32
    let r := mpvSum al (fp32.dec (a.at_ (i * o.span) c)) x.1 y.1
    (r.1, fOr r.2 (fOr x.2 y.2)))
  modS (fun s => s.setAcc (4 * t + o.acc) ((a.setRow (i * o.span) (rs.map Prod.fst)).setAl i one32))
  pure (rs.foldl (fun f r => fOr f r.2) 0)

/-- A row of MRESC (R374). -/
def mxRescRow (t : Nat) (o : MOp) (i : Nat) : M Nat := do
  let s ← getS
  let a := s.acc (4 * t + o.acc)
  let rs := (List.range o.depth).map (fun c => fp32.mul .rne (a.side 2 i) (a.at_ (i * o.span) c))
  modS (fun s => s.setAcc (4 * t + o.acc) ((a.setRow (i * o.span) (rs.map Prod.fst)).setAl i one32))
  pure (rs.foldl (fun f r => fOr f r.2) 0)

/-- A row of MSCAN (R378): the row before it, or row 127 or +0 before the first. -/
def mxScanRow (t : Nat) (o : MOp) (i : Nat) : M Nat := do
  let ab ← mxReadA t o i (64 * tagBytes o.afmt)
  let xb ← mxReadB t o i (64 * tagBytes o.bfmt)
  let s ← getS
  let a := s.acc (4 * t + o.acc)
  let av := rowVals o.afmt 2 ab
  let xv := rowVals o.bfmt 2 xb
  let rs := (List.range 64).map (fun c =>
    let h := if i ≠ 0 then a.at_ (i - 1) c else if o.flag then a.at_ 127 c else 0
    let (x, fl) := fmaV .rne false false (av.getD c (.fin false 0 0)) (fp32.dec h) (xv.getD c (.fin false 0 0))
    let r := fp32.pack .rne x
    (r.1, fOr r.2 fl))
  modS (fun s => s.setAcc (4 * t + o.acc) { a.setRow i (rs.map Prod.fst) with tag := if o.flag then a.tag else 1 })
  pure (rs.foldl (fun f r => fOr f r.2) 0)

/-- Side registers move with the rows (R375, R462). -/
def MOp.sides (o : MOp) : Bool := o.tokq || o.w 2 ≠ 0

/-- A row of MLDACC (R375). -/
def mxLoadRow (t : Nat) (o : MOp) (i : Nat) : M Nat := do
  let bs ← mxReadA t o i 256
  let sb ← (if !o.sides then pure [] else if o.tokq then mxReadPa (slotAddr t (o.w 2) 12 i) 12
    else mxRead t o (mxAddr (o.w 2) 12 i) 12)
  modS (fun s => s.updAcc (4 * t + o.acc) (fun a =>
    let a := { a.setRow i ((List.range 64).map (fun c => leNat ((bs.drop (4 * c)).take 4))) with
      tag := if o.flag then 14 else 1 }
    if o.sides then ((a.setMx i (leNat (sb.take 4))).setSm i (leNat ((sb.drop 4).take 4))).setAl i (leNat (sb.drop 8))
    else a))
  pure 0

/-- Write bytes of MSTACC: poison that a write covers only in part is a fault (R137, R379). -/
def mxWrite (t : Nat) (o : MOp) (base stride i : Nat) (bs : List Byte) : M Unit :=
  if o.tokq then fun s =>
    let pa := slotAddr t base stride i
    match s.writeLines pa bs 0 with
    | (none, s') => .ok () s'
    | (some off, s') => .error (poisonFault (pa + off)) s'
  else writeF t o.who.part ((useEWrite o.who.sup [0, 3, 5] 0).by o.who) .engine (w64 (mxAddr base stride i)) bs

/-- A row of MSTACC (R375). -/
def mxStoreRow (t : Nat) (o : MOp) (i : Nat) : M Nat := do
  let s ← getS
  let a := s.acc (4 * t + o.acc)
  mxWrite t o (o.w 0) (bitsOf (o.w 4) 0 32) i ((List.range 64).flatMap (fun c => leBytes 4 (a.at_ i c)))
  if o.sides then mxWrite t o (o.w 2) 12 i ([0, 1, 2].flatMap (fun r => leBytes 4 (a.side r i))) else pure ()
  pure 0

/-- The rows of an operation, after what they share has been read. -/
def mxRow (t : Nat) (o : MOp) : M (Nat → M Nat) :=
  if o.op = mxMma then do
    let cols ← mxDense t o
    pure (mxMacRow t o cols)
  else if o.op = mxMmas then do
    let cols ← mxSparse t o
    pure (mxMacRow t o cols)
  else if o.op = mxMqk then do
    let p ← mxKeys t o
    pure (mxScoreRow t o p)
  else if o.op = mxMpv then do
    let vals ← (List.range o.nkey).mapM (fun j => do
      let bs ← mxReadB t o j ((o.kg + 1) * groupBytes o.bfmt 32)
      pure (rowVals o.bfmt (o.kg + 1) bs))
    pure (mxValueRow t o vals)
  else if o.op = mxScan then pure (mxScanRow t o)
  else if o.op = mxZero then
    pure (fun _ s => .ok 0 (s.updAcc (4 * t + o.acc) (fun a => { tag := if o.flag then 14 else 1, qslot := a.qslot })))
  else if o.op = mxLd then pure (mxLoadRow t o)
  else if o.op = mxSt then pure (mxStoreRow t o)
  else pure (mxRescRow t o)

/-- Run rows in order: rows complete, their flags, the fault that stopped them, the state; a row that faults changes
nothing (R379). -/
def mxRows (row : Nat → M Nat) : Nat → Nat → Nat → State → Nat × Nat × Option Flt × State
  | 0, i, fl, s => (i, fl, none, s)
  | n + 1, i, fl, s => match row i s with
    | .ok f s' => mxRows row n (i + 1) (fOr fl f) s'
    | .error f _ => (i, fl, some f, s)

/-! ## Execution, completion and stop (R88-R90, R379, R461) -/

/-- The page of a token's snapshot that an operation visits (R461): slot, token, page. -/
def State.mxVisit (s : State) (t : Nat) (o : MOp) : Option (Nat × TSlot × Nat) :=
  let slot := if o.op = mxMqk then (if o.tokq then some (o.w 0 % 8) else none)
    else if o.op = mxMpv then (s.acc (4 * t + o.acc)).qslot else none
  match slot with
  | none => none
  | some k => match s.serving t k with
    | none => none
    | some x => match (s.translateNow t o.who.part (w64 (o.w 1)) ((useERead o.who.sup [0, 3, 4, 5] 0).by o.who)).1 with
      | .error _ => none
      | .ok tr => (s.snapPage t k x tr.pa).map (fun p => (k, x, p))

/-- A page whose OWNER is a failed tile (R275). -/
def State.mxLost (s : State) (t : Nat) (o : MOp) : Option Flt :=
  match s.mxVisit t o with
  | some (k, x, p) => match s.tokDesc t k x p with
    | some d => if (s.tile (s.dOwner d)).failed then some { code := .partFailed, extra := w64 (1 + s.dOwner d * 256) } else none
    | none => none
  | none => none

/-- Does the operation wait before it reads a row (R461)? -/
def State.mxHeld (s : State) (t : Nat) (o : MOp) : Bool :=
  match s.mxVisit t o with
  | some (k, x, p) => (s.mxLost t o).isNone && s.pageWait t k x p
  | none => false

/-- The oldest operation of an accumulator that has been accepted. -/
def State.mxNext (s : State) (t k : Nat) : Option MOp := (s.tile t).mrun.find? (fun o => o.acc = k)

/-- A visit begins with its MQK and ends with the MPV on its page. -/
def State.setVisit (s : State) (t : Nat) (o : MOp) (on : Bool) : State :=
  match s.mxVisit t o with
  | none => s
  | some (k, x, p) => match s.tokDesc t k x p with
    | none => s
    | some d =>
      let v := x.visits.filter (· ≠ d)
      (if on then s.count t 6 else s).setTslot t k { x with visits := if on then d :: v else v }

/-- The start of an operation: an MQK reserves the P buffer and its token's page (R89, R225). -/
def State.mxStart (s : State) (t : Nat) (o : MOp) : State :=
  if o.op = mxMqk then
    ((s.setVisit t o true).updTile t (fun x => { x with pbusy := true, pacc := o.acc })).updAcc (4 * t + o.acc)
      (fun a => { a with qslot := if o.tokq then some (o.w 0 % 8) else none })
  else s

/-- An operation finds ROWP set by another that stopped before it (R90, R379). -/
def State.mxRefused (s : State) (t : Nat) (o : MOp) : Bool :=
  let a := s.acc (4 * t + o.acc)
  a.rowp ≠ 0 && !(a.keptTok = o.tok && a.keptDesc = o.desc)

/-- Bytes put in place one by one. -/
def State.putCells (s : State) (l : List (Nat × Byte)) : State := { s with log := l ++ s.log }

/-- Execute an operation as far as it goes, from row ROWP (R90). It finds the operands without what its own block, or a later one
of the strand, has stored meanwhile (R360). -/
def State.mxExec (s : State) (t : Nat) (o : MOp) : Nat × Nat × Option Flt × State :=
  let o := { o with row0 := (s.acc (4 * t + o.acc)).rowp }
  let s := s.mxStart t o
  match s.mxLost t o with
  | some f => (o.row0, 0, some f, s)
  | none =>
    let hide := if o.op = mxSt then [] else o.hide
    let now := hide.map (fun c => (c.1, s.byte c.1))
    match mxRow t o (s.putCells hide) with
    | .error f _ => (o.row0, 0, some f, s)
    | .ok row s =>
      let (n, fl, f, s) := mxRows row (o.rows - o.row0) o.row0 0 s
      (n, fl, f, s.putCells now)

/-- The drain tokens of an operation (R381). -/
def State.mxDrain (s : State) (t : Nat) (o : MOp) (ended : Bool) : List Tok :=
  let a := s.acc (4 * t + o.acc)
  let n := if o.op = mxMpv || o.op = mxResc then o.rows * o.span else o.rows
  (if o.drn = 2 && ended then (List.range n).flatMap (fun r => (List.range 32).map (fun m =>
      (⟨w64 (a.at_ r (2 * m) + a.at_ r (2 * m + 1) * 2 ^ 32), 0, false⟩ : Tok))) else []) ++
  [⟨w64 (o.tok.toNat / 16 * 16 + (!ended).toNat), 2, false⟩]

/-- An operation leaves the node: its flags are reported; a CTOK operation with DRN drains first (R72, R381). -/
def State.mxLeave (s : State) (t : Nat) (o : MOp) (fl : Nat) (ended : Bool) : State :=
  let s := match o.region with
    | some r => s.flagRegion (4 * t + r) fl
    | none => if s.lives o.who then s.flagCtx o.who.key fl else s
  if o.drn ≠ 0 then
    (s.updRegion (4 * t + o.acc) (fun r => { r with drainq := r.drainq ++ s.mxDrain t o ended })).updTile t (fun x =>
      { x with mrun := x.mrun.map (fun p => if p.id = o.id then { p with sent := true } else p) })
  else s.updTile t (fun x => { x with mrun := x.mrun.filter (fun p => p.id ≠ o.id) })

/-- The end of an operation whose rows are all complete. -/
def State.mxDone (s : State) (t : Nat) (o : MOp) (fl : Nat) : State :=
  let ak := 4 * t + o.acc
  let s := s.updAcc ak (fun a =>
    let a := { a with rowp := 0, keptTok := 0, keptDesc := [] }
    if o.op = mxScan then a.setRow 127 ((List.range 64).map (a.at_ (o.rows - 1))) else a)
  let s := if o.op = mxMqk then s.updTile t (fun x => { x with pb := x.pb.filter (fun p => p.1 < 64 * o.rows) }) else s
  let s := if (o.op = mxMpv || o.op = mxZero) && (s.tile t).pbusy && (s.tile t).pacc = o.acc then
    s.updTile t (fun x => { x with pbusy := false }) else s
  let s := if o.op = mxMpv then s.setVisit t o false else s
  let s := (s.count t 5 (ctx := some (o.who.key % 16))).mxLeave t o fl true
  match o.idx with
  | some i => s.completeTo { o.who with idx := i }
  | none => s

/-- An operation ends before all its rows are complete. -/
def State.mxEnd (s : State) (t : Nat) (o : MOp) (fl : Nat) (f : Flt) : State :=
  let s := (s.mxFault t o f).mxLeave t o fl false
  match o.idx with
  | some i => s.abandonTo { o.who with idx := i }
  | none => s

/-- The stop of an operation at a row (R379). One that finds another's ROWP has had no effect: it faults RESERVED_FIELD and
leaves what the node keeps (R90). -/
def State.mxStopAt (s : State) (t : Nat) (o : MOp) (n fl : Nat) (f : Flt) : State :=
  if s.mxRefused t o then s.mxEnd t o 0 f
  else (s.updAcc (4 * t + o.acc) (fun a => { a with rowp := n, keptTok := o.tok, keptDesc := o.desc })).mxEnd t o fl f

/-- Run the oldest operation of an accumulator, if nothing holds it. -/
def State.mxRun (s : State) (t k : Nat) : Option (MOp × Nat × Nat × Option Flt × State) :=
  match s.mxNext t k with
  | none => none
  | some o =>
    if o.sent then none
    else if s.mxRefused t o then
      some (o, o.row0, 0, some { code := .reservedField, extra := s.mxWord o }, s)
    else if s.mxHeld t o then none
    else some (o, s.mxExec t o)

/-- MATRIX_COMPLETE (R360, R379): an operation whose rows all complete. -/
def execMatrixComplete (s : State) : Out :=
  run (fun s => match s.focus with
    | .ev t k _ _ _ => (match s.mxRun t k with
      | some (o, _, fl, none, s) => s.mxDone t o fl
      | _ => s)
    | _ => s) s

/-- MATRIX_STOP (R379): an operation that a load pipe, a write or a bad mask stops. -/
def execMatrixStop (s : State) : Out :=
  run (fun s => match s.focus with
    | .ev t k _ _ _ => (match s.mxRun t k with
      | some (o, n, fl, some f, s) => s.mxStopAt t o n fl f
      | _ => s)
    | _ => s) s

/-- The next drain token of a region leaves when its route has room; with the last one the operation leaves the node
(R381). -/
def State.drainStep (s : State) (rk : Nat) : State :=
  let r := s.region rk
  match r.drainq with
  | [] => s
  | tok :: rest =>
    if !s.routeSpace rk r.drainRoute then s
    else
      let s := (s.updRegion rk (fun r => { r with drainq := rest })).sendRoute rk r.drainRoute tok
      if rest.isEmpty then s.updTile (rk / 4) (fun x => { x with mrun := x.mrun.filter (fun o => !(o.sent && o.acc = rk % 4)) })
      else s

end Sys2Proof.Machine
end

