-- ==== Sys2Proof/Machine/Save.lean ====
section
/-! DEFINITION. Context images (R117-R120), saving and rebinding of pre-empted tasks (R37, R45, R112-R116), CTXSAVE and CTXREST
(R334, R335). -/

namespace Sys2Proof.Machine

def zeros (n : Nat) : List Byte := List.replicate n 0
def wordBytes (l : List W64) : List Byte := l.flatMap (fun w => leBytes 8 w.toNat)

/-- The lowest WID among a task's strands: its area holds the region part (R117). -/
def Task.lowest (t : Task) : Nat := (t.ctxs.map Prod.fst).foldl min ((t.ctxs.map Prod.fst).headD 0)

/-- Does the image of this context hold a region part, and of which region (R117, R334)? -/
def State.imgRegion (s : State) (key : Nat) : Option Nat :=
  match (s.ctx key).task.bind (fun i => s.tasks.get? i) with
  | none => none
  | some t => if (s.ctx key).wid.toNat = t.lowest then t.region else none

/-- Is the P buffer part of a region's image (R89, R119)? -/
def State.pbSaved (s : State) (t : Nat) : Option Nat → Bool
  | none => false
  | some k => (s.tile t).pbusy && (s.tile t).pacc = k

/-- Permits that a strand holds. -/
def State.heldPermits (s : State) (t : Nat) (id : W64) : List Nat :=
  ((s.tile t).permits.filter (fun p => p.holder.map Prod.fst = some id)).map Permit.num

/-- Header word 0 without VALID (R118). -/
def State.imgWord0 (s : State) (key : Nat) (held : Bool) : Nat :=
  let r := s.imgRegion key
  0x1A6E * 2 ^ 48 + (s.pbSaved (key / 16) r).toNat * 128 + (s.ctx key).inh.toNat * 64 + held.toNat * 32 + (r.getD 0) * 8 +
  r.isSome.toNat * 4


/-- The strand part of an image, offset by offset, VALID 0 (R117, R118, R120). -/
def State.strandImg (s : State) (key : Nat) (held : Bool) : List (Nat × List Byte) :=
  let c := s.ctx key
  let t := key / 16
  let r := s.imgRegion key
  let rf := (r.map (fun k => (s.region (4 * t + k)).fpstat)).getD 0
  let cfgid := (c.region.map (fun k => (s.region (4 * t + k)).cfgid)).getD 0
  let live := c.live
  let ps := s.heldPermits t c.ident
  [(0, wordBytes [w64 (s.imgWord0 key held), c.next, live, c.ident, c.wid, c.ltag, w64 cfgid, 0, c.fpstat, rf] ++ zeros 176),
   (0x100, s.bytes (framePa key) 256)] ++
  ((List.range 63).filter (fun n => live.getLsbD (n + 1))).map (fun n => (0x208 + 8 * n, leBytes 8 (c.g.getD 0 (n + 1)).toNat)) ++
  [(0x400, (List.range 16).flatMap (fun n => leBytes 32 (c.tms.getD 0 n).toNat)),
   (0x600, wordBytes [w64 c.pblen, c.pbpool]),
   (0x610, (List.range c.pblen).flatMap (fun n => leBytes 4 (c.pbnode.getD 0 n))),
   (0x710, zeros 112 ++ wordBytes (irvWords c.irv) ++
     wordBytes ((ps.length :: (List.range 8).map (fun i => ps.getD i 0)).map w64) ++ zeros 1976)]

/-- The channels of an element (R119): the tokens that are there, their counts, tags and end-of-stream bits. -/
def chanImg (e : Nat) (el : Elem) : List (Nat × List Byte) :=
  let ins := fun j => el.ins.getD [] j
  let outs := fun j => el.outs.getD [] j
  let bits := fun (t : Tok) => t.tag.toNat + 4 * t.eos.toNat
  let tags := ((List.range 4).map (fun j => (((ins j).zipIdx).map (fun p => bits p.1 * 2 ^ (3 * (4 * j + p.2)))).sum)).sum +
    ((List.range 4).map (fun j => (((outs j).zipIdx).map (fun p => bits p.1 * 2 ^ (3 * (16 + 2 * j + p.2)))).sum)).sum
  (List.range 4).map (fun j => (0x1800 + 192 * e + 32 * j, wordBytes ((ins j).map Tok.data))) ++
  (List.range 4).map (fun j => (0x1800 + 192 * e + 128 + 16 * j, wordBytes ((outs j).map Tok.data))) ++
  [(0x2400 + 32 * e, (List.range 4).flatMap (fun j => leBytes 1 (ins j).length) ++
    (List.range 4).flatMap (fun j => leBytes 1 (outs j).length) ++ leBytes 9 tags ++ zeros 15)]

/-- Words of a tile's window. -/
def State.winWords (s : State) (t off n : Nat) : List Byte := wordBytes ((List.range n).map (fun i => s.winWord t (off + 8 * i)))

/-- The region part of an image (R119). -/
def State.regionImg (s : State) (t k : Nat) : List (Nat × List Byte) :=
  let a := s.acc (4 * t + k)
  let pb := s.pbSaved t (some k)
  [(0x1000, s.winWords t (0xA00000 + 2048 * k) 256)] ++
  (List.range 16).flatMap (fun e => chanImg e (s.elem (64 * t + 16 * k + e))) ++
  [(0x2600, wordBytes [w64 (a.tag + a.rowp * 256 + (s.tile t).pbusy.toNat * 2 ^ 16 + (s.tile t).pacc * 2 ^ 17),
      if a.rowp = 0 then 0 else a.keptTok] ++ zeros 48),
   (0x2640, (if a.rowp = 0 then zeros 64 else wordBytes ((List.range 8).map (fun i => a.keptDesc.getD i 0))) ++ zeros 384),
   (0x2800, s.winWords t (0x820000 + 0x600 * k) 192)] ++
  (if pb then [(0x3000, s.winWords t 0x822000 2048)] else []) ++
  [(0x7000, s.winWords t (0x800000 + 0x8000 * k) 4096), (0xF000, zeros 4096)]

/-- A whole image, VALID 0. -/
def State.imageOf (s : State) (key : Nat) (held : Bool) : List (Nat × List Byte) :=
  s.strandImg key held ++ (match s.imgRegion key with
    | some k => s.regionImg (key / 16) k
    | none => [])

/-! ## Reading an image -/

/-- Words and numbers of an image held as bytes. -/
def imgW (b : List Byte) (off : Nat) : W64 := w64 (leNat ((b.drop off).take 8))
def imgN (b : List Byte) (off n : Nat) : Nat := leNat ((b.drop off).take n)

/-- Image complete and of this layout (R120). -/
def imgValid (b : List Byte) : Bool := bitOf (imgN b 0 8) 0 && bitsOf (imgN b 0 8) 48 16 = 0x1A6E

/-- Strand state that rebinding and CTXREST install: FPSTAT, tensor maps, path buffer; the fault frame's bytes (R335). -/
def State.installStrand (s : State) (key : Nat) (b : List Byte) : State :=
  let n := min 64 (imgN b 0x600 1)
  let s := s.updCtx key (fun c => { c with
    fpstat := imgW b 0x40 &&& fpstatMask
    tms := (List.range 16).foldl (fun (m : Map (BitVec 256)) i =>
      let v := BitVec.ofNat 256 (imgN b (0x400 + 32 * i) 32)
      if tmV v then m.put i v else m) []
    pblen := n
    pbpool := imgW b 0x608
    pbnode := (List.range n).foldl (fun (m : Map Nat) i => m.put i (imgN b (0x610 + 4 * i) 4)) [] })
  s.wrBytes (framePa key) ((b.drop 0x100).take 256)

/-- The channels of an element from an image (R119). -/
def chanOf (b : List Byte) (e : Nat) (el : Elem) : Elem :=
  let tags := imgN b (0x2400 + 32 * e + 8) 9
  let tok := fun place off => (⟨imgW b off, BitVec.ofNat 2 (bitsOf tags (3 * place) 2), bitOf tags (3 * place + 2)⟩ : Tok)
  let ins := fun j => (List.range (min 4 (imgN b (0x2400 + 32 * e + j) 1))).map (fun i =>
    tok (4 * j + i) (0x1800 + 192 * e + 32 * j + 8 * i))
  let outs := fun j => (List.range (min 2 (imgN b (0x2404 + 32 * e + j) 1))).map (fun i =>
    tok (16 + 2 * j + i) (0x1800 + 192 * e + 128 + 16 * j + 8 * i))
  { el with
    ins := (List.range 4).filterMap (fun j => if (ins j).isEmpty then none else some (j, ins j))
    outs := (List.range 4).filterMap (fun j => if (outs j).isEmpty then none else some (j, outs j)) }

/-- Store words of a window. -/
def State.winPut (f : State → Nat → W64 → State) (s : State) (b : List Byte) (off from_ n : Nat) : State :=
  (List.range n).foldl (fun s i => f s (off + 8 * i) (imgW b (from_ + 8 * i))) s

/-- Install the region part into a region (R114, R119, R335). -/
def State.installRegion (s : State) (t k : Nat) (b : List Byte) : State :=
  let rk := 4 * t + k
  let s := s.updRegion rk (fun r => { r with fpstat := imgW b 0x48 &&& fpstatMask })
  let s := State.winPut (fun s o v => s.elemStore t o v) s b (0xA00000 + 2048 * k) 0x1000 256
  let s := (List.range 16).foldl (fun s e => s.setElem (64 * t + 16 * k + e) (chanOf b e (s.elem (64 * t + 16 * k + e)))) s
  let s := State.winPut (fun s o v => s.accStore t o v) s b (0x820000 + 0x600 * k) 0x2800 192
  let s := State.winPut (fun s o v => s.accStore t o v) s b (0x800000 + 0x8000 * k) 0x7000 4096
  let w := imgN b 0x2600 8
  let s := s.updAcc rk (fun a => { a with
    tag := bitsOf w 0 4
    rowp := bitsOf w 8 8
    keptTok := imgW b 0x2608
    keptDesc := if bitsOf w 8 8 = 0 then [] else (List.range 8).map (fun i => imgW b (0x2640 + 8 * i)) })
  if bitOf (imgN b 0 8) 7 then
    (State.winPut (fun s o v => s.accStore t o v) s b 0x822000 0x3000 2048).updTile t (fun x => { x with pbusy := true, pacc := k })
  else s.updTile t (fun x => { x with pbusy := x.pbusy && decide (x.pacc ≠ k) })

/-- The P buffer that an image carries cannot be installed yet (R114). -/
def State.pbBlocked (s : State) (t k : Nat) (b : List Byte) : Bool :=
  bitOf (imgN b 0 8) 2 && bitOf (imgN b 0 8) 7 && (s.tile t).pbusy && (s.tile t).pacc ≠ k

/-! ## TASK_SAVE (R45, R112, R113) -/


/-- The requests of a context image's save (`wr`) or restore, metered under the context's class (R255, R257). -/
def State.imgTraffic (s : State) (key pa : Nat) (region wr : Bool) : State :=
  s.traffic (key / 16) (some (key % 16, s.classOf key)) ⟨pa, 0, false, 0⟩ (if region then 65536 else 4096) wr

/-- Write a strand's image to its area, VALID last (R120). -/
def State.saveStrand (s : State) (key pa : Nat) (held : Bool) : State :=
  let w0 := s.imgWord0 key held
  let s := s.imgTraffic key pa (s.imgRegion key).isSome true
  let img := s.imageOf key held
  let s := img.foldl (fun (s : State) (p : Nat × List Byte) => s.wrBytes (pa + p.1) p.2) s
  s.wr pa 1 (w0 % 256 + 1)

/-- Every strand of a task has stopped or is held (R45, R106). -/
def State.allStopped (s : State) (t : Task) : Bool :=
  !t.ctxs.isEmpty && t.ctxs.all (fun x =>
    let c := s.ctx (ctxKey t.tile x.2)
    (c.st = .stopped || c.st = .held) && !c.kill)

/-- The first asynchronous fault that the drain raised for a stopped strand goes into its frame, and the strand is HELD (R113
step 4); its stop point stays the safe point (R118). Those that find the strand already HELD wait until its record is resolved
(R103). -/
def State.drainFault (s : State) (key : Nat) : State :=
  match (s.ctx key).st, (s.ctx key).async with
  | .stopped, f :: r => ((s.updCtx key (fun c => { c with async := r })).takeFault key
      { f with block := (s.ctx key).next, idx := none } true).updCtx key (fun c => { c with live := (s.ctx key).live })
  | _, _ => s

/-- A context turns to SAVING; a copy of its record that waits for the fault queue goes on waiting by itself (R200). -/
def State.saveCtx (s : State) (key : Nat) : State :=
  let c := s.ctx key
  let s := if c.fqPend then
      { s with fqWait := s.fqWait ++ [(c.part, s.rdWords (framePa key + (if c.inh then 0xC0 else 0)) 8)] } else s
  s.updCtx key (fun c => { c with st := .saving, fqPend := false })

/-- R113 steps 3 and 4: the region drains; once its engines are done and the strands' commands complete, committed stores are
performed, faults of the drain recorded, and the contexts turn to SAVING. -/
def State.saveBegin (s : State) (i : Nat) (t : Task) : State :=
  let s := match t.region with
    | some k => if (s.region (4 * t.tile + k)).draining then s
      else (s.cutIn (4 * t.tile + k)).updRegion (4 * t.tile + k) (fun r => { r with draining := true })
    | none => s
  if s.cmdsBusy t || !((t.region.map (s.regionQuiet t.tile)).getD true) then s
  else
    let s := t.ctxs.foldl (fun s x => s.drainSq (ctxKey t.tile x.2)) s
    let s := t.ctxs.foldl (fun s x => s.drainFault (ctxKey t.tile x.2)) s
    let held := (t.ctxs.filter (fun x => (s.ctx (ctxKey t.tile x.2)).st = .held)).map Prod.fst
    let flts := t.ctxs.map (fun x => (x.1, (s.ctx (ctxKey t.tile x.2)).async))
    (t.ctxs.foldl (fun s x => s.saveCtx (ctxKey t.tile x.2)) s).updTask i (fun t => { t with st := .saving, held := held, flts := flts })

/-- What stands at the ports of a region, which its image does not hold (log 27). -/
def Region.atPorts (r : Region) : Region := { pend := r.pend, sobuf := r.sobuf, mport := r.mport }

/-- R113 step 5: region and contexts are released. -/
def State.saveRelease (s : State) (t : Task) : State :=
  let s := t.ctxs.foldl (fun s x => s.freeCtx (ctxKey t.tile x.2)) s
  match t.region with
  | some k =>
    let s := if s.pbSaved t.tile (some k) then s.updTile t.tile (fun x => { x with pbusy := false }) else s
    (s.updRegion (4 * t.tile + k) (fun r => { r with pend := [] }) |>.dropPorts (4 * t.tile + k)).updRegion (4 * t.tile + k)
      (fun r => { r with owner := none, draining := false, stopped := false })
  | none => s

/-- R113 steps 4 and 5: the images are written, then everything is released. A task whose launch was condemned meanwhile is
released without an image (R95). -/
def State.saveEnd (s : State) (i : Nat) (t : Task) : State :=
  if ((s.deps.get? t.dep).bind Dep.ending).isSome then (s.saveRelease t).dropTask i t
  else
    let part := (s.ctx (ctxKey t.tile ((t.ctxs.map Prod.snd).headD 0))).part
    let left := (t.region.map (fun k => (s.region (4 * t.tile + k)).atPorts)).getD {}
    let s := t.ctxs.foldl (fun (s : State) (x : Nat × Nat) =>
      match t.areas.find? (fun a => a.1 = x.1) with
      | some a => s.saveStrand (ctxKey t.tile x.2) (s.areaPa part a.2) (t.held.contains x.1)
      | none => s) s
    (s.saveRelease t).updTask i (fun t => { t with
      st := .saved, preq := false, accepted := false, since := s.cycle, aged := 0, left := left })

/-- TASK_SAVE: an accepted pre-emption goes on (R113). -/
def State.taskSave (s : State) (i : Nat) : State :=
  match s.tasks.get? i with
  | none => s
  | some t => match t.st with
    | .bound => if t.accepted && s.allStopped t then s.saveBegin i t else s
    | .saving => s.saveEnd i t
    | .saved => s

def execTaskSave (s : State) : Out :=
  run (fun s => match s.focus with
    | .ev i _ _ _ _ => s.taskSave i
    | _ => s) s

/-! ## TASK_REBIND (R114) -/


/-- Install a strand's image on a free context (R114); a register outside the live mask is undefined (R36). -/
def State.restoreStrand (s : State) (key task : Nat) (r : List W64) (region : Option Nat) (flts : List Flt) (b : List Byte) :
    State :=
  let prio := min (bitsOf (s.partW (rcdPart r) 0) 60 3) (bitsOf (wAt r 8) 4 3)
  let w0 := imgN b 0 8
  let id := imgW b 0x18
  let wid := imgW b 0x20
  let live := imgW b 0x10
  let (g, s) := (List.range 63).foldl (fun (st : Map W64 × State) n =>
    if live.getLsbD (n + 1) then (putNz st.1 (n + 1) (imgW b (0x208 + 8 * n)), st.2)
    else let (x, s) := st.2.drawWord; (st.1.put (n + 1) x, s)) ([], s)
  let c : Ctx :=
    { st := if bitOf w0 5 then .held else .run, task := some task, g := g, wid := wid,
      taskv := widAbove (wAt r 1) (rcdTbl r) wid, ltag := rcdTag r, widfmt := r.getD 1 0, handler := r.getD 7 0,
      part := rcdPart r, prio := prio, eprio := prio, rclass := bitsOf (wAt r 8) 8 3, rsafe := bitOf (wAt r 8) 12,
      region := region, priv := rcdSupv r, incar := bitsOf id.toNat 14 32, starts := (s.ctx key).starts, ident := id,
      inh := bitOf w0 6, async := flts, irv := irvOfWords ((List.range 16).map (fun i => imgW b (0x780 + 8 * i))), next := imgW b 8,
      live := live }
  let s := (s.setCtx key c).installStrand key b
  let s := s.updTile (key / 16) (fun x => { x with permits := x.permits.map (fun p =>
    match p.holder with
    | some h => if h.1 = id then { p with holder := some (id, key) } else p
    | none => p) })
  s.slotsGrant (key / 16) (key % 16)

/-- Whose work waits at a region's ports, by the contexts that its strands now run on (R20, R114). -/
def State.renewPorts (s : State) : Option Nat → State
  | none => s
  | some rk => s.updRegion rk (fun r => { r with pend := r.pend.map (fun (p : Pend) =>
      match s.ctxOfIdent (rk / 4) p.who.ident with
      | some k => { p with who := { p.who with key := k } }
      | none => p) })

/-- Rebind a saved task on its home tile, its configuration loaded when it had a region. -/
def State.rebindTask (s : State) (i : Nat) (t : Task) (d : Dep) (cfg : Option (Nat × List W64)) : State :=
  let area := fun wid => (s.areaPa d.part (((t.areas.find? (fun a => a.1 = wid)).map Prod.snd).getD 0))
  let region := cfg.bind (fun c => s.regionFor t.tile (imgCfgid c.2))
  let low := s.bytes (area t.lowest) 65536
  let images := t.ctxs.map (fun x => (x.1, s.bytes (area x.1) 4096))
  if images.any (fun x => !imgValid x.2) || ((region.map (fun k => s.pbBlocked t.tile k low)).getD false) then s
  else
    let s := match cfg, region with
      | some c, some k =>
        ((((s.cfgTouch t.tile c.1).regionLoad t.tile k c.2 t.img).updRegion (4 * t.tile + k) (fun x => { x with owner := some i })).installRegion
          t.tile k low).updRegion (4 * t.tile + k) (fun x => { x with pend := t.left.pend, sobuf := t.left.sobuf, mport := t.left.mport })
      | _, _ => s
    let cs := (s.freeCtxs t.tile).take images.length
    let s := (images.zip cs).foldl (fun (s : State) (x : (Nat × List Byte) × Nat) =>
      (s.restoreStrand (ctxKey t.tile x.2) i d.rcd region (((t.flts.find? (fun f => f.1 = x.1.1)).map Prod.snd).getD [])
        x.1.2).imgTraffic (ctxKey t.tile x.2) (area x.1.1) (region.isSome && x.1.1 = t.lowest) false) s
    let used := s.saveUsed.filter (fun (a : Nat × Nat) => !(a.1 = d.part && t.areas.any (fun x => x.2 = a.2)))
    ({ s with saveUsed := used } : State).updTask i (fun t => { t with
      st := .bound
      ctxs := (t.ctxs.map Prod.fst).zip cs
      region := region
      areas := []
      bound := s.cycle
      quantum := s.cycle
      held := []
      flts := []
      left := {}
      keys := cs.map (ctxKey t.tile) }) |>.renewPorts (region.map (4 * t.tile + ·))

/-- TASK_REBIND: a saved task returns when its home can take it (R41, R45). An image that is not valid is never installed
(R120). -/
def State.taskRebind (s : State) (i : Nat) : State :=
  match s.tasks.get? i with
  | none => s
  | some t =>
    match s.deps.get? t.dep with
    | none => s
    | some d =>
      if !(t.st = .saved && d.ending.isNone && s.levelRuns d.part) then s
      else if !s.canTake t.ctxs.length t.region.isSome t.tile then s.requestVictim t.tile (s.savedPrio t d)
      else if t.region.isNone then s.rebindTask i t d none
      else match s.cfgFind t.tile ((s.asnOf d.part).getD 0) t.img false with
        | some n => s.rebindTask i t d (some (n, (s.cfgEnt t.tile n).img))
        | none => s.cfgMiss t.tile d.part (rcdSupv d.rcd) t.img

def execTaskRebind (s : State) : Out :=
  run (fun s => match s.focus with
    | .ev i _ _ _ _ => s.taskRebind i
    | _ => s) s

/-! ## CTXSAVE and CTXREST (R334, R335) -/

/-- Operand checks of both; the context named. -/
def ctxOperand (e : Env) : M Nat := do
  let c ← mCtx e
  if !c.sup then raise (fltWord .privilege e)
  needField e (e.a.toNat < 16)
  needAlign e.b 65536
  pure (ctxKey e.tile e.a.toNat)

def execCtxsave (h : Head) (s : State) : Out :=
  run (fun s => fireM h nAB (fun e => do
    let key ← ctxOperand e
    let s ← getS
    let c := s.ctx e.key
    if (s.ctx key).st ≠ .held then modS (fun s => s.finish e.key e.idx 1)
    else do
      let put := fun (off : Nat) (bs : List Byte) =>
        writeF e.tile c.part (useEWrite c.sup [0] 0) .engine (e.b + w64 off) bs
      let _ ← (s.imageOf key true).mapM (fun p => put p.1 p.2)
      put 0 (leBytes 1 (s.imgWord0 key true % 256 + 1))
      modS (fun s => s.finish e.key e.idx 0)) s hold15) s

/-- The status of a CTXREST over an image (R335). -/
def State.ctxrestStatus (s : State) (key : Nat) (b : List Byte) : Nat :=
  let c := s.ctx key
  if c.st ≠ .held then 1
  else if !imgValid b then 3
  else if imgW b 0x20 ≠ c.wid || imgW b 0x28 ≠ c.ltag || (bitOf (imgN b 0 8) 2 && c.region ≠ some (bitsOf (imgN b 0 8) 3 2))
    then 2 else 0

/-- Read an image whole when it has a region part. -/
def readCtxImage (e : Env) : M (List Byte) := do
  let c ← mCtx e
  let b ← readU e.tile c.part (useERead c.sup [0] 0) .engine e.b 4096
  if imgValid b && bitOf (imgN b 0 8) 2 then do
    let r ← readU e.tile c.part (useERead c.sup [0] 0) .engine (e.b + 4096) 61440
    pure (b ++ r)
  else pure b

/-- Install an image into a held context. -/
def State.ctxInstall (s : State) (key : Nat) (b : List Byte) : State :=
  let s := s.updCtx key (fun c => { c with
    g := (List.range 63).foldl (fun (m : Map W64) n => putNz m (n + 1) (imgW b (0x208 + 8 * n))) [] })
  let s := s.installStrand key b
  if bitOf (imgN b 0 8) 2 then s.installRegion (key / 16) (bitsOf (imgN b 0 8) 3 2) b else s

def execCtxrest (h : Head) (s : State) : Out :=
  run (fun s => fireM h nAB (fun e => do
    let key ← ctxOperand e
    let s ← getS
    if (s.ctx key).st ≠ .held then modS (fun s => s.finish e.key e.idx 1)
    else do
      let b ← readCtxImage e
      modS (fun s =>
        let st := s.ctxrestStatus key b
        (if st = 0 then s.ctxInstall key b else s).finish e.key e.idx (w64 st))) s
    (fun e s => match hold15 e s with
      | some s => some s
      | none => match (do let key ← ctxOperand e; pure (key, ← readCtxImage e) : M (Nat × List Byte)) (s.begun e) with
        | .ok (key, b) s' => if s'.ctxrestStatus key b = 0 && s'.pbBlocked e.tile (bitsOf (imgN b 0 8) 3 2) b then some s
            else none
        | .error _ _ => none)) s

end Sys2Proof.Machine
end

