-- ==== Sys2Proof/Machine/Replay.lean ====
section
/-! DEFINITION. The journal's replay of a launch (R192, R276-R278) and the rebuilding of channels (R279). -/

namespace Sys2Proof.Machine

/-! ## Replay (R192, R278) -/

/-- The dispatcher replays journaled, replay-safe launches. -/
def State.journaled (s : State) (d : Dep) : Bool := qJrn (s.queueE d.qnum) && bitOf (wAt d.rcd 8) 12

/-- Is an identity one of the launch's strands? -/
def Dep.has (d : Dep) (id : W64) : Bool := d.ids.any (fun x => x.2 = id)

/-- The launch consumes a channel that another launch produced (R192). -/
def State.foreignFed (s : State) (d : Dep) : Bool :=
  s.chans.any (fun p => p.2.v && p.2.cv && d.has (p.2.w.getD 7 0) && p.2.pv && !d.has (p.2.w.getD 6 0))

/-- May the launch be replayed once more? -/
def State.canReplay (s : State) (d : Dep) : Bool := s.journaled d && d.replays < 3 && !s.foreignFed d

/-- WIDs of an identity of the launch. -/
def Dep.widsOf (d : Dep) (id : W64) : List Nat := (d.ids.filter (fun x => x.2 = id)).map Prod.fst

/-- A channel of a replayed launch as its strands will find it, and the identities to take over (R192). -/
def adjustChan (d : Dep) (k : Nat) (c : Chan) : Chan × List (Nat × Bool × Nat) :=
  let prod := c.pv && d.has (c.w.getD 6 0)
  let cons := c.cv && d.has (c.w.getD 7 0)
  let rb := (if prod then (d.widsOf (c.w.getD 6 0)).map (fun w => (w, true, k)) else []) ++
    (if cons then (d.widsOf (c.w.getD 7 0)).map (fun w => (w, false, k)) else [])
  if !c.v then (c, [])
  else if cons then
    ({ (((c.setW 2 (wAt c.w 4)).setW 3 (wAt c.w 4)).setW 5 0).fld 0 61 2 0 with onchip := 0 }, rb)
  else if prod then (c.setW 5 0, rb)
  else (c, [])

def State.adjustChans (s : State) (i : Nat) (d : Dep) : State :=
  s.chans.foldl (fun (s : State) (p : Nat × Chan) =>
    match adjustChan d p.1 p.2 with
    | (c, []) => if c = p.2 then s else s.setChan p.1 c
    | (c, rb) => ((s.setChan p.1 c).mirror p.1 0 8).updDep i (fun d => { d with rebind := d.rebind ++ rb })) s

/-- Withdraw the engine work of a task's strands. -/
def State.dropWork (s : State) (t : Task) : State :=
  let mine := fun (w : Who) => t.idents.contains w.ident
  let s := s.updTile t.tile (fun x =>
    let cs := x.copy.map (fun (p : Nat × CopyCh) =>
      let q := p.2.queue.filter (fun f => !mine f.who)
      (p.1, if p.2.walkId ≠ 0 && mine p.2.who then { p.2 with queue := q, walkId := 0, cur := 0, state := 0, at_ := {} }
        else { p.2 with queue := q }))
    { x with mq := x.mq.filter (fun o => !mine o.who), mrun := x.mrun.filter (fun o => !mine o.who), copy := cs })
  { s with moves := s.moves.map (fun (m : Move) => if mine m.who then { m with who := ⟨0, 0, 0, 0, false, 0⟩ } else m) }

/-- A region leaves its task. -/
def State.freeRegion (s : State) (t k : Nat) : State :=
  let s := if (s.tile t).pbusy && (s.tile t).pacc = k then s.updTile t (fun x => { x with pbusy := false }) else s
  (s.dropPorts (4 * t + k)).updRegion (4 * t + k) (fun r =>
    { r with owner := none, draining := false, stopped := false, reconf := false, drainq := [], mport := [], flights := [], cyc := none })

/-- Stop a launch's strands at once, discard their buffered stores, and free what they hold (R278 step 1). -/
def State.stopLaunch (s : State) (i : Nat) : State :=
  s.tasks.foldl (fun (s : State) (p : Nat × Task) =>
    if p.2.dep ≠ i then s
    else
      let s := p.2.ctxs.foldl (fun (s : State) x =>
        if p.2.st = TaskSt.bound then 
          (s.updCtx (ctxKey p.2.tile x.2) (fun c => { c with sq := [] })).dropStrand (ctxKey p.2.tile x.2) else s) s
      let s := if p.2.st = TaskSt.bound then s.dropWork p.2 else s
      let s := match p.2.region with
        | some k => if p.2.st = TaskSt.bound then s.freeRegion p.2.tile k else s
        | none => s
      s.dropTask p.1 p.2) s

/-- The replay of a launch that a failure touched: every task is at step 4 of R39 again. -/
def State.replay (s : State) (i : Nat) (code : FCode) : State :=
  let s := s.stopLaunch i
  match s.deps.get? i with
  | none => s
  | some d =>
    (s.adjustChans i d).updDep i (fun d =>
      let d := { d with started := [], homes := [], replays := d.replays + 1, cause := code }
      { d with w := (setField d.w 4 32 32 0).set 5 0 })

/-- A launch that a failure touched: replayed, or ended FAULTED with the failure's code. -/
def State.replayOr (s : State) (i : Nat) (code : FCode) : State :=
  match s.deps.get? i with
  | none => s
  | some d => if d.ending.isSome then s else if s.canReplay d then s.replay i code else s.condemn i 1 code

/-- A fault for a launch none of whose strands that issued the work is resident (DESIGN CHOICE, log 68): it waits with the
saved strand, else goes to the launch's lowest running context, else the launch ends FAULTED. -/
def State.launchFault (s : State) (i : Nat) (id : W64) (f : Flt) : State :=
  let wid := (((s.deps.get? i).bind (fun d => d.ids.find? (fun x => x.2 = id))).map Prod.fst).getD 0
  match s.tasks.find? (fun p => p.2.dep = i && p.2.st = .saved && p.2.idents.contains id) with
  | some p => s.updTask p.1 (fun t => { t with
      flts := if t.flts.any (fun x => x.1 = wid) then t.flts.map (fun x => if x.1 = wid then (wid, x.2 ++ [f]) else x)
        else t.flts ++ [(wid, [f])] })
  | none => match (s.tasks.filter (fun p => p.2.dep = i && p.2.st = .bound)).flatMap
        (fun p => p.2.ctxs.map (fun x => ctxKey p.2.tile x.2)) with
    | k :: r => s.asyncFault (r.foldl min k) f
    | [] => s.condemn i 1 f.code

/-- LINK_LOST for the launch that sent what was lost (R213, R271): a journaled replay-safe launch is replayed (R278), any other
receives the fault, at the strand that sent it while that is resident. -/
def State.linkFault (s : State) (w : Who) (f : Flt) : State :=
  match s.deps.find? (fun p => p.2.has w.ident) with
  | none => s.asyncTo w f
  | some p =>
    if s.journaled p.2 then s.replayOr p.1 f.code
    else if s.lives w then s.asyncTo w f
    else s.launchFault p.1 w.ident f

/-! ## Rebuilding a channel (R279) -/

/-- A channel-table entry as its mirror holds it. -/
def State.mirrorWords (s : State) (k : Nat) : List W64 :=
  let pa := s.jbase + 2 ^ 26 + 64 * k
  s.rdWords (if s.poisoned pa then (pa + s.jdelta) % 2 ^ 64 else pa) 8

/-- The rebuilt entry: `kept` when its producer's launch is replayed, or nothing unpopped was lost. -/
def rebuilt (w : List W64) (kept : Bool) (tile : Nat) : Chan :=
  let c : Chan := { w := w }
  if !kept || c.popseq < wAt w 4 then { w := setField w 0 63 1 0, lost := true, lostTile := tile }
  else ((((c.setW 2 c.popseq).setW 5 (c.popseq - wAt w 4)).fld 0 61 2 0).fld 1 0 7 0)

/-- Point a channel's descriptor at its home (R173). -/
def State.writeDescriptor (s : State) (k : Nat) (c : Chan) : State :=
  match s.partOfTile (k / 64) with
  | none => s
  | some p => match (writeF (k / 64) p (spillUse true) .engine (w64 c.spva) (leBytes 2 (k / 64) ++ leBytes 1 (k % 64))) s with
    | .ok _ s => s
    | .error _ s => s

/-- Waits and stream-in bindings follow a channel to its new home; a lost one's pops fault and its pushes return CLOSED. -/
def State.moveWaits (s : State) (k k' : Nat) (lost : Bool) : State :=
  let s := { s with regions := s.regions.map (fun (p : Nat × Region) => (p.1, { p.2 with
    sin := p.2.sin.map (fun (x : Nat × StreamIn) => (x.1, if x.2.chan = some k then { x.2 with chan := some k' } else x.2)) })) }
  s.waits.foldl (fun (s : State) (w : Wait) => match w.k with
    | .push c kind d va =>
      if c ≠ k then s
      else if lost then (dropWait s w).finish w.key w.idx 2
      else { s with waits := s.waits.map (fun (x : Wait) => if x = w then { w with k := .push k' kind d va } else x) }
    | .pop c peek dst va =>
      if c ≠ k then s
      else if lost then (dropWait s w).syncFault w.key
        { code := .partFailed, extra := w64 (1 + (s.chan k').lostTile * 256), idx := some w.idx }
      else { s with waits := s.waits.map (fun (x : Wait) => if x = w then { w with k := .pop k' peek dst va } else x) }
    | _ => s) s

/-- The new home of a channel of a failed tile: the lowest tile of its row and partition that has not failed and has a free
entry. -/
def State.newHome (s : State) (t : Nat) : Option Nat :=
  ((List.range 16).map (t / 16 * 16 + ·)).findSome? (fun u =>
    if u ≠ t && !(s.tile u).failed && (s.partOfTile u).isSome && s.partOfTile u = s.partOfTile t then
      ((List.range 64).find? (fun n => !(s.chan (64 * u + n)).v && !(s.chan (64 * u + n)).lost)).map (fun n => 64 * u + n)
    else none)

/-- Rebuild channel `k` at entry `k'` from its mirror; `replayed` says that the producer's launch is replayed. -/
def State.rebuildChan (s : State) (k k' : Nat) (replayed : Bool) : State :=
  let c := rebuilt (s.mirrorWords k) (replayed || (s.chan k).occ = 0) (k / 64)
  let s := { s with chans := s.chans.del k }
  let s := (s.setChan k' c).mirror k' 0 8
  (if k = k' then s else s.writeDescriptor k' c).moveWaits k k' c.lost

/-- Does the launch of a channel's producer belong to those that are replayed? -/
def prodReplayed (replayed : List Dep) (c : Chan) : Bool := c.pv && replayed.any (fun d => d.has (c.w.getD 6 0))

/-- After a warm reset a launch that had run and may be replayed finds its channels adjusted; one that may not ends FAULTED, with
the code of its last failure, 0 when there was none (R278, R280; DESIGN CHOICE, log 41). -/
def State.resumeDep (s : State) (i : Nat) (d : Dep) : State :=
  if !s.journaled d || d.replays > 3 || s.foreignFed d then (s.updDep i (fun d => { d with carried := false })).condemn i 1 d.cause
  else (s.adjustChans i d).updDep i (fun d => { d with carried := false })

/-- The launches that had run before a warm reset and have been taken again since. -/
def State.resume (s : State) : State :=
  (s.deps.filter (fun p => p.2.carried)).foldl (fun (s : State) (p : Nat × Dep) => s.resumeDep p.1 p.2) s

end Sys2Proof.Machine
end

