-- ==== Sys2Proof/Machine/Ring.lean ====
section
/-! DEFINITION. Ring channels: packets and their routes (R10, R29, R206-R210, R267, R270), token slots and parking
(R211-R213, R419), tag matching (R214-R216), and the instructions that send, receive and forward (R415-R421). -/

namespace Sys2Proof.Machine

/-! ## Sending -/

/-- A message that needs no ring: to its own tile, or a signal within the package, which travels the signal network. -/
def State.dropIn (s : State) (m : Msg) : State :=
  let (id, s) := s.fresh
  let n := (packetsOf m.data.length).length
  s.setMsg id { m with npkt := n, landed := n }

/-- Send: accepted, metered on the ring port, on its way. -/
def State.sendMsg (s : State) (e : Env) (m : Msg) : State :=
  let s := if m.sig then s else s.meterRing e.tile (s.classOf e.key) m.data.length
  let s := s.accept e.key e.idx 0
  if m.dpkg = s.pkgno && (m.sig || (m.cls ≠ 0 && m.dtile = m.stile)) then s.dropIn m else s.inject m

/-- A message that no tag match awaits: a channel segment, copy data, or a notice, whose packets only load the rings
(log 45). -/
def Msg.plain (m : Msg) : Bool := m.cls ≥ 2 && !m.sig

/-- A message was sent by a strand of this package: only then is there one to tell of it. -/
def State.ours (s : State) (m : Msg) : Bool := m.spkg = s.pkgno
def State.toSender (s : State) (m : Msg) (f : State → State) : State := if s.ours m then f s else s

/-- The sender of a message learns that it has been matched or queued: of another package, by a notice (R206, R415). -/
def State.tellTaken (s : State) (m : Msg) : State :=
  if s.ours m then s.completeTo m.who else s.notice m.dtile m.spkg m.stile m.who noticeDone []

/-- The sender of a message learns that it was refused (R215), by a notice of class CTL (R206). -/
def State.tellRefused (s : State) (m : Msg) : State :=
  let f : Flt := { code := .overflowFull, extra := w64 m.tag, src := 6 }
  if s.ours m then ((s.sendSeg m.who m.dtile m.stile 3 noticeFault 0).asyncTo m.who f).abandonTo m.who
  else s.notice m.dtile m.spkg m.stile m.who noticeFault (faultBytes f)

/-- A notice of another package reaches the strand whose work it is about: a fault, the end of a message's sending or of a
barrier event with its status, the answer to a copy's data. -/
def State.noticed (s : State) (m : Msg) : State :=
  if m.tag = noticeFault then
    match faultOfBytes m.data with
    | some f => (if f.code = .linkLost then s.linkFault m.who f else s.asyncTo m.who f).abandonTo m.who
    | none => s
  else if m.tag = noticeCopy then s.copyAnswer m
  else if m.data.isEmpty then s.completeTo m.who
  else if s.lives m.who then s.finish m.who.key (leNat (m.data.take 1)) (w64 (leNat ((m.data.drop 1).take 8)))
  else s

/-- The smallest scope that contains a message's sender and its tile (R8, R160). -/
def State.msgScope (s : State) (m : Msg) (t : Nat) : Nat := if s.ours m then tileScope m.stile t else 4

/-! ## Hops (R208-R210) -/

/-- A packet that is about to leave its stop: at a gateway it first takes its place on the next ring, where its direction is
chosen afresh and DL is 0. None: no ring leads on. -/
def State.onward (s : State) (p : Pkt) (m : Msg) : Option Pkt :=
  match s.ringTarget p.ring p.ringNo m.dpkg m.dtile with
  | none => none
  | some b =>
    if p.vc = .source || p.stop ≠ b then some p
    else
      let next : Option (Nat × Nat × Nat) :=
        match p.ring with
        | 0 => if p.stop = 16 then some (1, p.ringNo / 2 / 10, p.ringNo / 2 % 10) else none
        | 1 => if p.stop = 10 then some (2, 0, p.ringNo) else some (0, 2 * (10 * p.ringNo + p.stop), 16)
        | _ => if p.stop = 4 then none else some (1, p.stop, 10)
      match next with
      | none => none
      | some (ring, no, stop) =>
        (s.ringTarget ring no m.dpkg m.dtile).map (fun c =>
          { p with ring := ring, ringNo := no, stop := stop, dl := false, ccw := s.ringWay m ring no stop c })

/-- A packet at the pod gateway, bound for another package. -/
def State.leaves (s : State) (p : Pkt) (m : Msg) : Bool := p.ring = 2 && p.stop = 4 && m.dpkg ≠ s.pkgno

def State.nextStop (s : State) (p : Pkt) : Nat :=
  let n := s.ringSize p.ring p.ringNo
  if p.ccw then (p.stop + n - 1) % n else (p.stop + 1) % n

/-- Is the link ahead the dateline (R210)? -/
def State.atDateline (s : State) (p : Pkt) : Bool :=
  if p.ccw then p.stop = 0 else p.stop + 1 = s.ringSize p.ring p.ringNo

/-- The class of a packet's message. -/
def State.pktCls (s : State) (p : Pkt) : Nat := ((s.msgs.get? p.msg).map Msg.cls).getD 1

/-- Flits of a packet at its stop: those not held back in the ports behind it. -/
def Pkt.here (p : Pkt) : Nat := p.nf + 1 - (p.held.map Hold.n).sum

/-- Every buffer that a packet's flits stand in. -/
def Pkt.holds (p : Pkt) : List Hold := ⟨p.ring, p.ringNo, p.stop, p.ccw, p.vc, p.here⟩ :: p.held

/-- The buffers of an input port in use: class, buffer. -/
def State.portUse (s : State) (ring no stop : Nat) (ccw : Bool) : List (Nat × Hold) :=
  s.pkts.flatMap (fun q => (q.holds.filter (fun h =>
    h.vc ≠ .source && h.ring = ring && h.ringNo = no && h.stop = stop && h.ccw = ccw)).map (fun h => (s.pktCls q, h)))

/-- ChooseVC (R209). -/
def State.chooseVC (s : State) (p : Pkt) (cls : Nat) (dl : Bool) : Option VC :=
  let port := s.portUse p.ring p.ringNo (s.nextStop p) p.ccw
  let ad := port.filter (fun q => q.2.vc = .adaptive)
  if ad.length < 8 && (ad.map (fun q => q.2.n)).sum + p.nf + 1 ≤ 32 then some .adaptive
  else if port.any (fun q => q.2.vc = .escape dl && q.1 = cls) then none
  else some (.escape dl)

/-- Flits that a buffer can hold: an escape channel has 4 (R208). -/
def VC.room (v : VC) (n : Nat) : Nat := match v with
  | .escape _ => min 4 n
  | _ => n

/-- Spread `n` flits over buffers, the nearest first. -/
def spread : Nat → List Hold → List Hold
  | 0, _ => []
  | _, [] => []
  | n + 1, h :: r => { h with n := h.vc.room (n + 1) } :: spread (n + 1 - h.vc.room (n + 1)) r

/-- What stays behind when a packet's head takes a buffer: an adaptive channel takes every flit, an escape channel four; the
others move up as far as there is room (R209). -/
def Pkt.behind (p : Pkt) (vc : VC) : List Hold := spread (p.nf + 1 - vc.room (p.nf + 1)) p.holds

/-- A query token's packet at a tile stop that its first packet has not been looked up at, or where its slot waits for it. -/
def State.qtHeld (s : State) (p : Pkt) (m : Msg) : Bool :=
  m.cls = 0 && p.ring = 0 && p.vc ≠ .source &&
  (match s.stopTile p.ringNo p.stop with
   | none => false
   | some t => (p.pidx = 0 && !p.examined) || (s.tile t).tslots.any (fun x => x.2.mid = p.msg))

/-- A packet ready to take its output link: the link, and the packet as it leaves with its virtual channel. -/
def State.pktReady (s : State) (p : Pkt) : Option (Nat × Pkt × VC × Bool) :=
  match s.msgs.get? p.msg with
  | none => none
  | some m =>
    if s.qtHeld p m || s.leaves p m ||
      s.pkts.any (fun q => q.msg = p.msg && q.pidx < p.pidx && q.ring = p.ring && q.ringNo = p.ringNo && q.stop = p.stop) then none
    else match s.onward p m with
      | none => none
      | some q =>
        let dl := q.dl || s.atDateline q
        if q.ring = 2 && s.failedLinks.contains (if q.ccw then (q.stop + 4) % 5 else q.stop) then none
        else (s.chooseVC q m.cls dl).map (fun vc => (((q.ring * 80 + q.ringNo) * 17 + q.stop) * 2 + q.ccw.toNat, q, vc, dl))

/-- Order of a class in the rotation that starts after the class last granted (R208). -/
def classTurn (last cls : Nat) : Nat :=
  let place := fun (c : Nat) => match c with
    | 3 => 0
    | 0 => 1
    | 1 => 2
    | _ => 3
  (place cls + 3 - place last) % 4

/-- Does `a` go before `b` on a link: by class in turn, then the longest waiting, through traffic before injected, then, which
the manual leaves open, the message that was made first (log 45)? -/
def State.goesFirst (s : State) (last : Nat) (a b : Pkt) : Bool :=
  let ca := classTurn last (s.pktCls a)
  let cb := classTurn last (s.pktCls b)
  ca < cb || (ca = cb && (a.wait < b.wait || (a.wait = b.wait &&
    ((a.vc ≠ .source && b.vc = .source) || (decide (a.vc = .source) == decide (b.vc = .source) &&
      (a.msg < b.msg || (a.msg = b.msg && a.pidx < b.pidx)))))))

/-- Is the packet the one its link grants? -/
def State.granted (s : State) (p : Pkt) (link : Nat) : Bool :=
  let last := s.grants.getD 2 link
  s.pkts.all (fun q => q = p || (match s.pktReady q with
    | some (l, _) => l ≠ link || !s.goesFirst last q p
    | none => true))

/-- The last flit of a query token has left its tile: its sender's command is complete, the slot it came from is free (R20, R212,
R419, R420). -/
def State.qtSent (s : State) (id : Nat) : State :=
  match s.msgs.get? id with
  | none => s
  | some m =>
    if m.cls = 0 && !m.met && !s.pkts.any (fun q => q.msg = id && q.holds.any (fun h => h.vc = .source)) then
      let s := match m.slot with
        | some k => s.dropTslot m.stile k
        | none => s
      (s.setMsg id { m with slot := none, met := true }).toSender m (·.completeTo m.who)
    else s

/-- LINK_LOST with the ring level and port (R101): level 2 the package ring, 3 the pod ring or level A, 4 level B. -/
def linkLost (level port : Nat) : Flt := { code := .linkLost, extra := w64 (level + port * 256), src := 6 }

/-- Drop a message and its packets. -/
def State.dropMsg (s : State) (id : Nat) : State :=
  { s with msgs := s.msgs.del id, pkts := s.pkts.filter (fun p => p.msg ≠ id) }

/-- The ports and level by which traffic of a class leaves for another package, in a direction that may be named (R267, R270):
clockwise or by fewer hops; level A before level B. -/
def State.podWay (s : State) (cls dpkg way : Nat) : Nat × List Nat :=
  let c := s.cfgWord 21
  let na := bitsOf c 8 8 + 1
  let nb := bitsOf c 16 4 + 1
  let dir := fun (a b n : Nat) => cls ≠ 0 && (way = 2 || (way ≠ 1 && decide ((a + n - b) % n < (b + n - a) % n)))
  if !bitOf c 20 then (3, (List.range 32).map (· + if dir s.pkgno dpkg na then 32 else 0))
  else if s.pkgno % na ≠ dpkg % na then
    (3, (List.range 16).map (· + if dir (s.pkgno % na) (dpkg % na) na then 16 else 0))
  else (4, (List.range 16).map (· + if dir (s.pkgno / na) (dpkg / na) nb then 48 else 32))

def State.podPorts (s : State) (m : Msg) : Nat × List Nat := s.podWay m.cls m.dpkg m.way

/-- Barrier events for another package whose ports have all failed fail at once (R271); the others are the pod's. -/
def State.barLeave (s : State) : State :=
  let lost := fun (s : State) (r : RemBar) => r.dpkg ≠ s.pkgno && (s.podWay 3 r.dpkg 0).2.all (s.failedPorts.contains ·)
  (s.rembars.filter (lost s)).foldl (fun (s : State) r =>
    let w := s.podWay 3 r.dpkg 0
    ({ s with rembars := s.rembars.erase r } : State).linkFault r.who (linkLost w.1 (w.2.headD 0))) s

/-- A message is lost with a link (R213, R271): no slot serves a part of it or waits for its last flit, and the launch that sent
it gets LINK_LOST, in another package by a notice from tile `t`. -/
def State.loseMsg (s : State) (id : Nat) (m : Msg) (t : Nat) (f : Flt) : State :=
  let s := s.dropMsg id
  let s := { s with tiles := s.tiles.map (fun (x : Nat × Tile) =>
      if x.2.tslots.any (fun y => y.2.mid = id && !y.2.full) then
        (x.1, { x.2 with tslots := x.2.tslots.filter (fun y => y.2.mid ≠ id || y.2.full) })
      else x) }
  let s := match m.slot with
    | some k => s.dropTslot m.stile k
    | none => s
  if !s.ours m then s.notice t m.spkg m.stile m.who noticeFault (faultBytes f)
  else if m.cls = 2 then (s.copyLost m).linkFault m.who f
  else (s.linkFault m.who f).abandonTo m.who

/-- A packet leaves the package; with the last one its message is the pod's. Traffic whose ports have all failed fails at
once (R271). -/
def State.leavePkg (s : State) (p : Pkt) (m : Msg) : State :=
  let (level, ports) := s.podPorts m
  if ports.all (s.failedPorts.contains ·) then s.loseMsg p.msg m 0 (linkLost level (ports.headD 0))
  else
    let s := { s with pkts := s.pkts.filter (fun q => !(q.msg = p.msg && q.pidx = p.pidx)) }
    if s.pkts.any (fun q => q.msg = p.msg) then s
    else { s with msgs := s.msgs.del p.msg, outbox := s.outbox ++ [m] }

/-- A packet lands at the stop where its message ends. -/
def State.landPkt (s : State) (p : Pkt) (m : Msg) : State :=
  let s := ({ s with pkts := s.pkts.filter (fun q => !(q.msg = p.msg && q.pidx = p.pidx)) }).setMsg p.msg { m with landed := m.landed + 1 }
  if m.plain && m.landed + 1 = m.npkt then s.dropMsg p.msg else s

/-- A message from another package enters at the pod gateway and takes the package ring (R10, R270); the row ring of a split
half row does not lead on (R29). A copy record's data and a notice have arrived with it (R202, R206; log 77). -/
def State.enterPkg (s : State) (m : Msg) : State :=
  if m.dpkg ≠ s.pkgno then s
  else if m.plain then (if m.cls = 3 then s.noticed m else s.landRecord m)
  else if m.sig then s.dropIn { m with tag := m.aux, aux := 0 }
  else
    let (id, s) := s.fresh
    let fl := packetsOf m.data.length
    let s := s.setMsg id { m with npkt := fl.length, slot := none }
    let ccw := s.ringWay m 2 0 4 (m.dtile / 256)
    { s with pkts := s.pkts ++ (List.range fl.length).map (fun i =>
        (⟨id, i, fl.getD i 0, false, ccw, 2, 0, 4, .source, true, s.now, []⟩ : Pkt)) }

/-- What has come from other packages since the last cycle enters. -/
def State.podTick (s : State) : State :=
  s.inbox.foldl (fun (s : State) m => s.enterPkg m) { s with inbox := [] }.barLeave

/-- One hop of a packet, if its output link grants it. -/
def State.packetHop (s : State) (n : Nat) : State :=
  match s.pkts[n]? with
  | none => s
  | some p => match s.msgs.get? p.msg with
    | none => s
    | some m =>
      if s.leaves p m then s.leavePkg p m
      else match s.pktReady p with
        | none => s
        | some (link, q, vc, dl) =>
          if !s.granted p link then s
          else
            let q' := { q with stop := s.nextStop q, vc := vc, dl := dl, examined := false, wait := s.now, held := p.behind vc }
            let s := { s with
              pkts := s.pkts.set n q'
              grants := s.grants.put link m.cls }
            let s := if p.vc = .source && m.spkg = s.pkgno then s.count m.stile 8 (add := p.nf + 1) else s
            let s := s.qtSent p.msg
            if m.cls ≠ 0 && q'.ring = 0 && m.dpkg = s.pkgno && s.stopTile q'.ringNo q'.stop = some m.dtile then s.landPkt q' m
            else s

/-- PACKET_HOP (R208-R210): packet `n` takes a virtual channel of the next stop. -/
def execPacketHop (s : State) : Out :=
  run (fun s => match s.focus with
    | .ev n _ _ _ _ => s.packetHop n
    | _ => s) s

/-! ## Token slots (R211, R212, R419) -/

/-- Does a tile's shard table name the token's sequence, layer and group (R211)? -/
def State.shardNames (s : State) (t : Nat) (m : Msg) : Bool :=
  (s.tile t).shard.any (fun x => shV x.2 && shSeq x.2 = m.tag % 2 ^ 16 && shLayer x.2 = hdrOf m.rows m.data 2 1 &&
    shGrp x.2 = hdrOf m.rows m.data 3 1 % 64)

/-- A packet of a token joins its slot; with the last one the token stands in the slot's bytes and is parked. -/
def State.qtLand (s : State) (t k : Nat) (x : TSlot) (p : Pkt) (m : Msg) : State :=
  let s := s.landPkt p m
  let m := { m with landed := m.landed + 1 }
  if m.landed = m.npkt then
    (((s.wrBytes (tokSlotPa t k) m.data).setTslot t k { x with full := true, msg := { m with data := [] } }).count t 7).dropMsg p.msg
  else s

/-- Packet `i` of message `mid` at a tile stop (R211). -/
def State.qtArrive (s : State) (mid i : Nat) : State :=
  match (s.pkts.findIdx? (fun p => p.msg = mid && p.pidx = i)).bind (fun n => s.pkts[n]?.map (n, ·)), s.msgs.get? mid with
  | some (n, p), some m =>
    if m.cls ≠ 0 || p.ring ≠ 0 || p.vc = .source then s
    else match s.stopTile p.ringNo p.stop with
      | none => s
      | some t =>
        match (s.tile t).tslots.find? (fun x => x.2.mid = mid) with
        | some (k, x) => s.qtLand t k x p m
        | none =>
          if i ≠ 0 || p.examined then s
          else if (m.dpkg = s.pkgno && m.dtile = t) || s.shardNames t m then
            match Map.fresh (s.tile t).tslots 0 8 with
            | none => s
            | some k =>
              let (o, s) := s.fresh
              let x : TSlot := { mid := mid, msg := m, order := o }
              (s.setTslot t k x).qtLand t k x p m
          else { s with pkts := s.pkts.set n { p with examined := true } }
  | _, _ => s

/-- QT_ARRIVAL (R211). -/
def execQtArrival (s : State) : Out :=
  run (fun s => match s.focus with
    | .ev m i _ _ _ => s.qtArrive m i
    | _ => s) s

/-- Is a token in service that has not paused (R212)? One pauses while an operation on its page waits (R461). -/
def State.tokRuns (s : State) (t : Nat) : Bool :=
  (s.tile t).tslots.any (fun x => x.2.service.isSome && !x.2.leaving &&
    !(s.tile t).mrun.any (fun o => s.mxHeld t o && ((s.mxVisit t o).map Prod.fst) = some x.1))

/-- The parked token whose turn it is: the oldest not yet in service (R212). -/
def State.parkHead (s : State) (t : Nat) : Option (Nat × TSlot) :=
  ((s.tile t).tslots.filter (fun x => x.2.service.isNone)).foldl (fun (b : Option (Nat × TSlot)) x => match b with
    | none => some x
    | some y => if x.2.order < y.2.order then some x else some y) none

/-- The oldest RECVW.T of a tile that names a handler key. -/
def State.tokPost (s : State) (t hkey : Nat) : Option Wait :=
  s.waits.find? (fun w => w.key / 16 = t && w.k = .recvTok hkey)

/-- The configuration that a handler's region holds is in the cache, which it then has used (R245), or a fetch starts (R212). -/
def State.tokCfg (s : State) (t key : Nat) : Bool × State :=
  let c := s.ctx key
  match c.region with
  | none => (true, s)
  | some k =>
    let r := s.region (4 * t + k)
    match s.cfgFind t ((s.asnOf c.part).getD 0) r.imgva false with
    | some n => (true, s.cfgTouch t n)
    | none => (false, s.cfgMiss t c.part c.sup r.imgva (some (key % 16, s.classOf key)) true)

/-- TOKEN_SERVICE_START (R212, R227, R467): the oldest parked token goes to the oldest RECVW.T with its key. -/
def State.tokServe (s : State) (t : Nat) : State :=
  match s.parkHead t with
  | none => s
  | some (k, x) =>
    if !x.full || s.tokRuns t then s
    else match s.tokPost t (s.slotHdr t k x 0x10 4) with
      | none => s
      | some w =>
        match s.tokCfg t w.key with
        | (false, s) => s
        | (true, s) =>
          let n := s.slotHdr t k x 0 2
          let q := s.seq n
          let bad : Option Flt := match s.poisonAt (s.seqPa n) 128 with
            | some f => some f
            | none => if !q.v || !linksOk q.links q.tent then some (shardFault n) else none
          match bad with
          | some f => ((dropWait s w).dropTslot t k).syncFault w.key { f with idx := some w.idx }
          | none =>
            let lay := s.slotHdr t k x 2 1
            let grp := s.slotHdr t k x 3 1 % 64
            let snap := ((s.tile t).shard.filter (fun y => shV y.2 && shSeq y.2 = n && shLayer y.2 = lay && shGrp y.2 = grp)).map Prod.snd
            let x := { x with service := some w.key, snap := snap, clen := q.clen, tlen := q.tlen, links := q.links }
            (((dropWait s w).setTslot t k x).cacheAcquire t (s.msgScope x.msg t)).finish w.key w.idx (w64 (4 + k * 256))

def execTokenServiceStart (s : State) : Out :=
  run (fun s => match s.focus with
    | .ev t _ _ _ _ => s.tokServe t
    | _ => s) s

/-! ## Tag matching (R214-R216, R416) -/

/-- A match spec fits a message. -/
def fitsMsg (tag : Nat) (src : Option (Nat × Nat)) (m : Msg) : Bool :=
  m.tag = tag && (match src with
    | none => true
    | some (p, t) => m.spkg = p && m.stile = t)

/-- The oldest message of the overflow queue that fits. -/
def State.ovfFind (s : State) (t tag : Nat) (src : Option (Nat × Nat)) : Option Nat :=
  (s.tile t).ovf.find? (fun id => ((s.msgs.get? id).map (fitsMsg tag src)).getD false)

def State.ovfDrop (s : State) (t id : Nat) : State := s.updTile t (fun x => { x with ovf := x.ovf.filter (· ≠ id) })

/-- Post a receive: the overflow queue first; a context has one posted at a time. -/
def State.postRecv (s : State) (key idx tag : Nat) (src : Option (Nat × Nat)) (cap : Nat) (dst : W64) : State :=
  let t := key / 16
  match s.ovfFind t tag src with
  | some id => { s.ovfDrop t id with waits := s.waits ++ [⟨key, idx, .recvGot id cap dst⟩] }
  | none =>
    let mine := s.waits.any (fun w => w.key = key && (match w.k with
      | .recv .. => true
      | _ => false))
    { s with waits := s.waits ++ [⟨key, idx, if mine then .recvPost tag src cap dst else .recv tag src cap dst⟩] }

/-- A context's next receive is posted once it has none. -/
def State.postNext (s : State) (key : Nat) : State :=
  if s.waits.any (fun w => w.key = key && (match w.k with
    | .recv .. => true
    | _ => false)) then s
  else match s.waits.find? (fun w => w.key = key && (match w.k with
    | .recvPost .. => true
    | _ => false)) with
    | some ⟨k, i, .recvPost tag src cap dst⟩ => (dropWait s ⟨k, i, .recvPost tag src cap dst⟩).postRecv k i tag src cap dst
    | _ => s

/-- Is a message matched or queued? -/
def State.msgHeld (s : State) (id : Nat) (m : Msg) : Bool :=
  (s.tile m.dtile).ovf.contains id || s.waits.any (fun w => match w.k with
    | .recvGot n _ _ => n = id
    | _ => false)

/-- The first packet of a message at its tile (R214, R215): matched, queued, or refused. A message whose receive was
withdrawn arrives again. -/
def State.msgArrive (s : State) (id : Nat) : State :=
  match s.msgs.get? id with
  | none => s
  | some m =>
    if m.cls = 0 || m.plain || m.dpkg ≠ s.pkgno || m.landed = 0 || s.msgHeld id m then s
    else
      let t := m.dtile
      let ok := fun (s : State) => (if m.met then s else s.tellTaken m).setMsg id { m with met := true }
      match s.waits.find? (fun w => w.key / 16 = t && (match w.k with
        | .recv tag src _ _ => fitsMsg tag src m
        | _ => false)) with
      | some ⟨k, i, .recv tag src cap dst⟩ =>
        let s := ok s
        ({ s with waits := s.waits.map (fun (w : Wait) => if w = (⟨k, i, .recv tag src cap dst⟩ : Wait) then (⟨k, i, .recvGot id cap dst⟩ : Wait) else w) }).postNext k
      | _ =>
        let n := (s.tile t).ovf.length
        if n < 64 then
          let s := (ok s).updTile t (fun x => { x with ovf := x.ovf ++ [id] })
          if n + 1 = 48 then s.setEv t 2 else s
        else (s.dropMsg id).tellRefused m

/-- MSG_ARRIVAL (R214, R215): message `n` has reached its tile. -/
def execMsgArrival (s : State) : Out :=
  run (fun s => match s.focus with
    | .ev n _ _ _ _ => s.msgArrive n
    | _ => s) s

/-- Receive status (R416). -/
def recvStat (m : Msg) (cap : Nat) : W64 :=
  w64 ((if m.sig then 3 else if m.data.length > cap then 1 else 0) + m.data.length * 256 + m.stile * 2 ^ 21 + m.spkg * 2 ^ 31)

/-- Deliver a matched message that has landed whole: its bytes, then the status. -/
def recvDo (key idx id cap : Nat) (dst : W64) : M Unit := do
  let s ← getS
  match s.msgs.get? id with
  | none => pure ()
  | some m => do
    let c := s.ctx key
    let bad ← writeP (key / 16) c.part ((useDest c.sup).by ⟨key, c.ident, idx, c.part, c.sup, s.classOf key⟩) .plain dst
      (m.data.take cap)
    modS (fun s =>
      let s := match bad with
        | some pa => s.asyncFault key { poisonFault pa with src := 9 }
        | none => s
      let s := { s with msgs := s.msgs.del id }
      (if m.sig then s else s.cacheAcquire (key / 16) (s.msgScope m (key / 16))).finish key idx (recvStat m cap))

/-- Matched receives whose last packets have landed complete. -/
def State.recvWake (s : State) : State :=
  s.waits.foldl (fun s w => match w.k with
    | .recvGot id cap dst =>
      (match s.msgs.get? id with
       | none => s
       | some m =>
         if m.landed < m.npkt then s
         else match recvDo w.key w.idx id cap dst (dropWait s w) with
           | .ok _ s => s.postNext w.key
           | .error f s => s.syncFault w.key { f with idx := some w.idx })
    | _ => s) s

/-! ## The instructions (R415-R421) -/

/-- A send spec's checks (R409). -/
def sendSpecOk (s : State) (b : W64) : Bool :=
  !b.getLsbD 63 && tileOk (bitsOf b.toNat 32 10) && bitsOf b.toNat 42 8 < s.podSize

def specLen (b : W64) : Nat := bitsOf b.toNat 50 13

/-- A message under a send spec. -/
def msgOf (e : Env) (s : State) (cls tag aux way : Nat) (data : List Byte) (sig : Bool) : Msg :=
  { cls := cls, dpkg := bitsOf e.b.toNat 42 8, dtile := bitsOf e.b.toNat 32 10, spkg := s.pkgno, stile := e.tile, who := s.who e,
    tag := tag, aux := aux, data := data, sig := sig, npkt := 1, way := way }

/-- SEND of class MSG (R415). -/
def execSend (h : Head) (dir : BitVec 2) (s : State) : Out :=
  run (fun s => fireM h nAB (fun e => do
    let s ← getS
    needField e (sendSpecOk s e.b && 1 ≤ specLen e.b && specLen e.b ≤ 4096)
    let c := s.ctx e.key
    let bs ← readU e.tile c.part (copyRead c.sup) .engine e.a (specLen e.b)
    modS (fun s => s.sendMsg e (msgOf e s 1 (bitsOf e.b.toNat 0 32) 0 dir.toNat bs false))) s hold15) s

/-- SIGNAL (R415): a zero-length message. Across packages it is of class CTL: its TAG is the kind of notice, and AUX carries the
message's tag (R207; log 77). -/
def execSignal (h : Head) (s : State) : Out :=
  run (fun s => fireM h { b := true } (fun e => do
    let s ← getS
    needField e (sendSpecOk s e.b && specLen e.b = 0)
    let tag := bitsOf e.b.toNat 0 32
    let far := bitsOf e.b.toNat 42 8 ≠ s.pkgno
    modS (fun s => s.sendMsg e (msgOf e s 3 (if far then noticeSignal else tag) (if far then tag else 0) 0 [] true))) s hold15) s

/-- SEND of class QT (R419): the header at HOFF for the ROWS that the tag names. -/
def execSendQ (h : Head) (dir : BitVec 2) (s : State) : Out :=
  run (fun s => fireM h nAB (fun e => do
    let s ← getS
    needField e (sendSpecOk s e.b && specLen e.b = 0 && bitsOf e.b.toNat 5 27 = 0)
    let c := s.ctx e.key
    let rows := e.b.toNat % 32 + 1
    let hb ← readU e.tile c.part (copyRead c.sup) .engine (e.a + w64 (tokOoff rows - 64)) 64
    let img := List.replicate (tokOoff rows - 64) 0 ++ hb
    needField e (hdrOk rows img && hdrOf rows img 4 1 = rows - 1)
    let dhd := hdrOf rows img 5 1
    let bs ← readU e.tile c.part (copyRead c.sup) .engine e.a (tokLen rows dhd)
    modS (fun s => s.sendMsg e (msgOf e s 0 (hdrOf rows img 0 2) (rows - 1 + dhd * 32) dir.toNat bs false))) s hold15) s

/-- A match spec (R409, R416): tag, source, capacity; none where a field is out of range. -/
def matchSpec (s : State) (b : W64) : Option (Nat × Option (Nat × Nat) × Nat) :=
  let src := (bitsOf b.toNat 43 8, bitsOf b.toNat 33 10)
  let any := b.getLsbD 32
  if b.getLsbD 63 || (any && src ≠ (0, 0)) || (!any && !(tileOk src.2 && src.1 < s.podSize)) then none
  else some (bitsOf b.toNat 0 32, if any then none else some src, bitsOf b.toNat 51 12 + 1)

/-- What RECV and RECVW check first: the spec, and the whole destination (R412). -/
def recvCheck (e : Env) : M (Nat × Option (Nat × Nat) × Nat) := do
  let s ← getS
  match matchSpec s e.b with
  | none => raise (fltWord .reservedField e)
  | some (tag, src, cap) => do
    needAlign e.a 8
    let c := s.ctx e.key
    checkU e.tile c.part (useDest c.sup) .plain e.a cap
    pure (tag, src, cap)

/-- RECV (R416): the overflow queue only. -/
def execRecv (h : Head) (s : State) : Out :=
  run (fun s => fireM h nAB (fun e => do
    let (tag, src, cap) ← recvCheck e
    let s ← getS
    match s.ovfFind e.tile tag src with
    | none => modS (fun s => s.finish e.key e.idx 2)
    | some id => do
      modS (fun s => s.ovfDrop e.tile id)
      if ((s.msgs.get? id).map (fun m => decide (m.landed = m.npkt))).getD false then recvDo e.key e.idx id cap e.a
      else modS (fun s => { s with waits := s.waits ++ [⟨e.key, e.idx, .recvGot id cap e.a⟩] })) s hold15) s

/-- RECVW (R416): the overflow queue, then the context's posted receive. -/
def execRecvw (h : Head) (s : State) : Out :=
  run (fun s => fireM h nAB (fun e => do
    let (tag, src, cap) ← recvCheck e
    let s ← getS
    match s.ovfFind e.tile tag src with
    | some id =>
      if ((s.msgs.get? id).map (fun m => decide (m.landed = m.npkt))).getD false then do
        modS (fun s => s.ovfDrop e.tile id)
        recvDo e.key e.idx id cap e.a
      else modS (fun s => s.postRecv e.key e.idx tag src cap e.a)
    | none => modS (fun s => s.postRecv e.key e.idx tag src cap e.a)) s hold15) s

/-- RECVW.T (R416, R419): posts for a query token with the handler key. -/
def execRecvwT (h : Head) (s : State) : Out :=
  run (fun s => fireM h nAB (fun e => do
    needField e (e.a = 0 && e.b.toNat / 2 ^ 32 = 0)
    modS (fun s => { s with waits := s.waits ++ [⟨e.key, e.idx, .recvTok e.b.toNat⟩] })) s hold15) s

/-- The slot that FWD and TOKINFO name: in service, else RESERVED_FIELD; received by this context, else PRIVILEGE (R420). -/
def ownSlot (e : Env) : M TSlot := do
  let s ← getS
  match s.serving e.tile (e.a.toNat % 8) with
  | none => raise (fltWord .reservedField e)
  | some x => if x.service = some e.key then pure x else raise (fltWord .privilege e)

/-- FWD.Q (R420): onward from this tile, to the token's end tile or a new one. -/
def execFwdQ (h : Head) (s : State) : Out :=
  run (fun s => fireM h nAB (fun e => do
    let x ← ownSlot e
    let s ← getS
    needField e (e.a.toNat < 8 && (if e.b = 0 then !(x.msg.dpkg = s.pkgno && x.msg.dtile = e.tile)
      else sendSpecOk s e.b && specLen e.b = 0 && bitsOf e.b.toNat 0 32 = 0))
    let k := e.a.toNat
    modS (fun s =>
      let bs := s.bytes (tokSlotPa e.tile k) (tokLen x.msg.rows x.msg.dhd)
      let m := msgOf e s 0 x.msg.tag x.msg.aux 0 bs false
      let m := if e.b = 0 then { m with dpkg := x.msg.dpkg, dtile := x.msg.dtile } else m
      (s.setTslot e.tile k { x with leaving := true }).sendMsg e { m with slot := some k })) s hold15) s

/-- FWD.M (R420): bytes of the slot as a message. -/
def execFwdM (h : Head) (s : State) : Out :=
  run (fun s => fireM h nAB (fun e => do
    let x ← ownSlot e
    let s ← getS
    let off := bitsOf e.a.toNat 16 16
    let n := specLen e.b
    needField e (bitsOf e.a.toNat 3 13 = 0 && bitsOf e.a.toNat 32 32 = 0 && sendSpecOk s e.b && 1 ≤ n && n ≤ 4096 &&
      off + n ≤ tokLen x.msg.rows x.msg.dhd)
    modS (fun s => s.sendMsg e (msgOf e s 1 (bitsOf e.b.toNat 0 32) 0 0 (s.bytes (tokSlotPa e.tile (e.a.toNat % 8) + off) n)
      false))) s hold15) s

/-- FWD.END (R420): the circulation ends. -/
def execFwdEnd (h : Head) (s : State) : Out :=
  run (fun s => fireM h nAB (fun e => do
    let _ ← ownSlot e
    needField e (e.a.toNat < 8 && e.b = 0)
    modS (fun s => (s.dropTslot e.tile e.a.toNat).finish e.key e.idx 0)) s hold15) s

/-- TOKINFO (R421). -/
def execTokinfo (h : Head) (item : BitVec 3) (s : State) : Out :=
  run (fun s => fireM h nA (fun e => do
    needField e (e.a.toNat < 8)
    let x ← ownSlot e
    modS (fun s =>
      let hd := s.slotHdr e.tile e.a.toNat x
      let v := match item.toNat with
        | 0 => hd 0 8
        | 1 => hd 8 8
        | 2 => hd 0x10 4
        | 3 => hd 0x18 8
        | 4 => tokOoff x.msg.rows + tokQoff x.msg.rows x.msg.dhd * 2 ^ 16 + tokLen x.msg.rows x.msg.dhd * 2 ^ 32
        | _ => x.msg.stile + x.msg.spkg * 2 ^ 10 + x.msg.dtile * 2 ^ 18 + x.msg.dpkg * 2 ^ 28
      s.finish e.key e.idx (w64 v))) s hold15) s

end Sys2Proof.Machine
end

