-- ==== Sys2Proof/Machine/Regulate.lean ====
section
/-! DEFINITION. The package's regular events: regulators and power (R255-R258, R283, R284), slices (R133-R135), errors
(R137, R138), the Remontoire (R188-R190). -/

namespace Sys2Proof.Machine

/-- The tile IDs of a package, ascending (R9). -/
def tileIds : List Nat := (List.range 1024).filter tileOk

/-! ## Injection (R255, R257, R258) -/

/-- Fields of a regulator class entry (R248). -/
def rcV (w : W64) : Bool := w.getLsbD 63
def rcDepth (w : W64) : Nat := bitsOf w.toNat 32 16
def rcRate (w : W64) : Nat := bitsOf w.toNat 16 16
def rcBudget (w : W64) : Nat := bitsOf w.toNat 0 16

/-- The class table that the regulators hold: as the last period boundary copied it (R248). -/
def State.regWord (s : State) (c : Nat) : W64 := s.regEff.getD 0 c

/-- Take the oldest request of a class off a queue. -/
def takeReq (cls : Nat) : List Req → Option (Req × List Req)
  | [] => none
  | r :: l => if r.cls = cls then some (r, l) else (takeReq cls l).map (fun x => (x.1, r :: x.2))

/-- May a class inject with this bucket? Device traffic (class 8 and above) meets no class bucket. -/
def State.mayInject (s : State) (p : Port) (c : Nat) : Bool := c ≥ 8 || (rcV (s.regWord c) && decide (p.tok.getD 0 c ≥ 1))

/-- The head request of a class is admitted at a port and charged (R255). -/
def Port.inject (s : State) (p : Port) (c : Nat) : Port :=
  match takeReq c p.q with
  | none => p
  | some (r, l) =>
    if s.mayInject p c then
      { p with
        q := l
        inj := p.inj ++ [r]
        busy := if c < 8 then insNat p.busy c else p.busy
        tok := if c < 8 then p.tok.put c (p.tok.getD 0 c - r.units) else p.tok }
    else p

/-- The head of the slow-tier queue goes out (R258). -/
def State.slowInject (s : State) : State :=
  match s.slowq with
  | [] => s
  | r :: l => if rcV (s.regWord 8) && s.slowTok ≥ 1 then { s with slowq := l, slowTok := s.slowTok - r.units } else s

/-- REQUEST_INJECT (R255, R258): port 0 mesh, 1 ring, 2 the package's slow-tier queue. -/
def execRequestInject (s : State) : Out :=
  run (fun s => match s.focus with
    | .ev t port cls _ _ =>
      if port = 0 then s.updTile t (fun x => { x with mesh := x.mesh.inject s cls })
      else if port = 1 then s.updTile t (fun x => { x with ring := x.ring.inject s cls })
      else s.slowInject
    | _ => s) s

/-- One flit of the request in front goes out (R257). -/
def Port.flit (p : Port) : Port :=
  match p.inj with
  | [] => p
  | r :: l => if r.flits ≤ 1 then { p with inj := l } else { p with inj := { r with flits := r.flits - 1 } :: l }

/-- FLIT_INJECT (R257): it waits until PWRTOK is at least 1, and costs 1. -/
def execFlitInject (s : State) : Out :=
  run (fun s => match s.focus with
    | .ev t port _ _ _ =>
      let x := s.tile t
      let y := { x with pwrtok := x.pwrtok - 1, injected := x.injected + 1 }
      if x.pwrtok < 1 then s
      else if port = 0 then (if x.mesh.inj.isEmpty then s else s.setTile t { y with mesh := x.mesh.flit })
      else (if x.ring.inj.isEmpty then s else s.setTile t { y with ring := x.ring.flit })
    | _ => s) s

/-! ## The period boundary (R248, R256, R257, R258) -/

/-- Classes that are metered, idle in the ended period, and the units that a busy one gets (R256). -/
def Port.idle (eff : Map W64) (p : Port) (c : Nat) : Bool :=
  !p.busy.contains c && !(p.q ++ p.inj).any (fun r => r.cls = c) && p.tok.getD 0 c = (rcDepth (eff.getD 0 c) : Int)

def Port.refill (eff : Map W64) (p : Port) : Port × Nat :=
  let live := (List.range 8).filter (fun c => rcV (eff.getD 0 c))
  let rate := fun c => rcRate (eff.getD 0 c)
  let idle := live.filter (p.idle eff)
  let spare := (idle.map rate).sum
  let busy := live.filter (fun c => !p.idle eff c)
  let w := (busy.map rate).sum
  let tok := busy.foldl (fun (m : Map Int) c =>
    let add := rate c + (if w = 0 then 0 else spare * rate c / w)
    m.put c (min (rcDepth (eff.getD 0 c) : Int) (p.tok.getD 0 c + (add : Int)))) p.tok
  ({ p with tok := tok, busy := [] }, (idle.map (fun c => 2 ^ c)).sum)

def Tile.refill (eff : Map W64) (x : Tile) : Tile :=
  let m := x.mesh.refill eff
  let r := x.ring.refill eff
  let (rate, depth) := x.prateNext.getD (x.prate, x.pdepth)
  { x with mesh := m.1, ring := r.1, rgidle := m.2 + 256 * r.2, prate := rate, pdepth := depth, prateNext := none,
           pwrtok := min (depth : Int) (x.pwrtok + rate) }

/-- PERIOD_BOUNDARY (R256): table changes take effect, every bucket is refilled. -/
def execPeriodBoundary (s : State) : Out :=
  run (fun s =>
    let eff := s.regclass
    let slow := eff.getD 0 8
    { s with
      regEff := eff
      tiles := tileIds.map (fun t => (t, (s.tile t).refill eff))
      slowTok := if rcV slow then min (rcDepth slow : Int) (s.slowTok + rcRate slow) else s.slowTok }) s

/-! ## The power controller (R283, R284) -/

/-- The package limit: the lower of 3,200 W and PLIM; a PLIM that nothing has written sets none (log 5). -/
def State.powerLimit (s : State) : Nat := if s.cfgWord 20 = 0 then 3200 else min 3200 (s.cfgWord 20)

/-- A tile's PRATE after an evaluation (R283, R284): above the limit lower in proportion to what the tile injected; below 90 %
of it higher, unless a sensor near is hot; near a hot sensor halved. By how much it moves is the controller's. -/
def nextRate (power limit temp injected cut move rate : Nat) : Nat :=
  let r := if power > limit then rate - injected * cut / 1024
    else if temp < 105 && power * 10 < limit * 9 then (if rate ≥ 0xFFFF then 0xFFFF else rate + 1 + move % (0xFFFF - rate))
    else rate
  if temp ≥ 105 then r / 2 else r

/-- The sensor nearest a tile, among the 48 of its die (R272, R284). -/
def nearSensor (t : Nat) : Nat := 48 * dieOf t + Config.sensorNear t % 48

/-- POWER_EVALUATION (R283, R284): the sensors are read; the new values take effect at the next period boundary. -/
def execPowerEvaluation (s : State) : Out :=
  run (fun s =>
    let p := Config.measuredPower s.now
    let temps : Map Nat := (List.range 192).map (fun i => (i, Config.sensorTemp i s.now))
    let set := fun (t : Nat) =>
      let x := s.tile t
      let rate := nextRate p s.powerLimit (temps.getD 0 (nearSensor t)) x.injected (Config.powerCut s.now)
        (Config.powerRate t s.now x.prate) x.prate
      (t, { x with injected := 0, prateNext := some (rate, Config.powerDepth t s.now x.prate % 65536) })
    { s with power := p, temps := temps, tiles := tileIds.map set }) s

/-- POWER_REMOVAL (R284): at 115 degrees the board management controller removes power. -/
def execPowerRemoval (s : State) : Out := run (fun s => { s with powered := false }) s

/-! ## Slices (R133-R135) -/

/-- The set of a line in its slice, of 2,048 (R134): its number among the slice's lines, modulo their count (DESIGN CHOICE,
log 8). -/
def sliceSet (line : Nat) : Nat := line / 160 % 2048

/-- Make room for a line in a full set of 16 ways: one of them goes, a dirty one written back (R134; which, log 8). -/
def State.sliceEvict (s : State) (k line : Nat) : State :=
  let sl := s.slice k
  let set := sl.lines.filter (fun p => sliceSet p.1 = sliceSet line)
  if set.length < 16 then s
  else match set[Config.tieBreak s.freeCtr % set.length]? with
    | none => s
    | some v =>
      let s := { s.setSlice k { sl with lines := sl.lines.del v.1 } with freeCtr := s.freeCtr + 1 }
      if v.2 then s.device (sliceTile k) 1 else s

/-- A request is served: its line is held from now on, dirty after a write; one that the slice does not allocate passes through
(R134, R149). -/
def State.sliceServe (s : State) (k : Nat) (r : SReq) : State :=
  match (s.slice k).lines.get? r.line with
  | some d => s.setSlice k { s.slice k with lines := (s.slice k).lines.put r.line (d || r.wr) }
  | none =>
    if !r.alloc then s
    else
      let s := s.sliceEvict k r.line
      s.setSlice k { s.slice k with lines := (s.slice k).lines.put r.line r.wr }

/-- A request joins the spill queue: a record of 256 bytes in the region that firmware has assigned to the slice (R135, R266);
what a record holds is not given, so its bytes are undefined, and a SPILLBASE of 0 assigns none (log 45). -/
def State.sliceSpill (s : State) (k : Nat) (r : SReq) : State :=
  let sl := s.slice k
  let s := s.setSlice k { sl with spill := sl.spill ++ [r], spos := sl.spos + 1 }
  if s.cfgWord 7 = 0 then s else s.undefBytes (s.cfgWord 7 + 262144 * k + 256 * (sl.spos % 1024)) 256

/-- The oldest arriving request is served, takes a miss entry, or joins the spill queue (R135). -/
def State.sliceRequest (s : State) (k : Nat) : State :=
  let sl := s.slice k
  match sl.arr with
  | [] => s
  | r :: l =>
    let s1 := s.setSlice k { sl with arr := l }
    if sl.failed then s1
    else if !sl.spill.isEmpty || sl.miss.length ≥ 64 then (if sl.spill.length < 1024 then s1.sliceSpill k r else s)
    else if (sl.lines.get? r.line).isSome && !sl.miss.any (fun m => m.line = r.line) then s1.sliceServe k r
    else s.setSlice k { sl with arr := l, miss := sl.miss ++ [r] }

def execSliceRequest (s : State) : Out :=
  run (fun s => match s.focus with
    | .ev k _ _ _ _ => s.sliceRequest k
    | _ => s) s

/-- A miss entry is served, entries of one line in the order taken; the oldest spilled request takes its place (R135). -/
def State.missFree (s : State) (k n : Nat) : State :=
  let sl := s.slice k
  match sl.miss[n]? with
  | none => s
  | some r =>
    if (sl.miss.take n).any (fun m => m.line = r.line) then s
    else
      let sl' := { sl with miss := sl.miss.eraseIdx n ++ sl.spill.take 1, spill := sl.spill.drop 1 }
      (s.setSlice k sl').sliceServe k r

def execMissEntryFree (s : State) : Out :=
  run (fun s => match s.focus with
    | .ev k n _ _ _ => s.missFree k n
    | _ => s) s

/-! ## Errors (R137, R138, R259) -/

/-- CORRECTED_ERROR (R138, R259): in a bank (kind 0: 32 x tile + bank), a slice (1: 160 x die + slice) or a stack (2). -/
def execCorrectedError (s : State) : Out :=
  run (fun s => match s.focus with
    | .ev kind n _ _ _ =>
      if kind = 0 then
        (s.updTile (n / 32) (fun x => { x with cebank := x.cebank.put (n % 32) (min 65535 (x.cebank.getD 0 (n % 32) + 1)) })).setEv (n / 32) 5
      else if kind = 1 then
        (s.updTile (sliceTile n) (fun x => { x with ceslice := min 65535 (x.ceslice + 1) })).setEv (sliceTile n) 5
      else { s with stackErr := s.stackErr.put n (min (2 ^ 32 - 1) (s.stackErr.getD 0 n + 1)) }
    | _ => s) s

/-- UNCORRECTABLE_ERROR (R137, R140): a line of the local store or of HBM4E is marked; a slow-tier line answers with the
error from now on. -/
def execUncorrectableError (s : State) : Out :=
  run (fun s => match s.focus with
    | .ev pa _ _ _ _ =>
      (match s.paKind pa with
       | .hbm => s.setPoison pa true
       | .window _ off => if off < 0x400000 then (s.setPoison pa true).tagWakeAll (pa / 128 * 128) 128 else s
       | .slow _ => { s with ueLines := insNat s.ueLines (pa / 128) }
       | .hole => s)
    | _ => s) s

/-! ## The Remontoire (R188, R189) -/

/-- A member of a group. -/
inductive Member where
  | chan (k : Nat)
  | queue (q : Nat)
  deriving DecidableEq, Repr

/-- Members of a group: channels by home tile and entry, then queues. -/
def State.members (s : State) (g : Nat) : List Member :=
  (s.chans.filter (fun p => p.2.v && p.2.grp = g)).map (fun p => Member.chan p.1) ++
  (s.wq.filter (fun p => bitsOf (wAt p.2 0) 49 8 = g)).map (fun p => Member.queue p.1)

/-- The member an instruction waits on, and whether its wait is for room: a push wait on a full channel, a pop wait on an
empty one, an ENQW on a full queue (R188). -/
def State.member (s : State) : WaitK → Option (Member × Bool)
  | .push k _ _ _ => if (s.chan k).occ ≥ (s.chan k).cap then some (.chan k, true) else none
  | .pop k _ _ _ => if (s.chan k).occ = 0 then some (.chan k, false) else none
  | .enqw q _ => if bitOf (wAt (s.queueE q) 0) 60 && qOcc (s.queueE q) ≥ qCap (s.queueE q) then some (.queue q, true) else none
  | _ => none

/-- Does a strand's identity stand in an image of a saved task? -/
def State.savedIdent (s : State) (id : W64) : Bool :=
  s.tasks.any (fun p => p.2.st = .saved && p.2.areas.any (fun a =>
    s.rd (s.areaPa (((s.deps.get? p.2.dep).map Dep.part).getD 0) a.2 + 0x18) 8 = id.toNat))

/-- The parties of a group: resident contexts, and none for one that is pre-empted; retired strands are left out. -/
def State.parties (s : State) (ms : List Member) : List (Option Nat) :=
  let ofId := fun (id : W64) => match s.ctxOfIdent (bitsOf id.toNat 0 10) id with
    | some k => [some k]
    | none => if s.savedIdent id then [none] else []
  ms.flatMap (fun m => match m with
    | .chan k => let c := s.chan k
      (if c.pv then ofId (c.w.getD 6 0) else []) ++ (if c.cv then ofId (c.w.getD 7 0) else [])
    | .queue q => (s.waits.filter (fun w => match w.k with
        | .enqw n _ => n = q
        | _ => false)).map (fun w => some w.key))

/-- Which of a cycle's three budgets an instruction uses: 0 integer, 1 memory, 2 engine or table (R42). -/
def issueKind (w : W64) : Nat :=
  let g := (wOpc w) / 64
  if g = 7 || g = 8 then 1 else if g ≥ 9 then 2 else 0

/-- Can an instruction of a block in flight still issue: its slots are full, and no access before it that is open holds it
back (R152)? -/
def State.runnable (s : State) (key i : Nat) (b : Blk) : Bool :=
  let w := b.words.getD i 0
  let nd := b.node i
  nd.st = .idle && (match decodeSeq w with
    | .error _ => false
    | .ok x => (nd.lacks x (headOf w)).isEmpty && (nd.barred (headOf w) || issueKind w = 0 ||
        s.orderReady key i b ((accCls w).getD 15) (!accWrites w) false))

/-- A party that waits on members and on nothing else: no instruction of it is runnable and no walk serves it (R188). -/
def State.partyWaits (s : State) (ms : List Member) (key : Nat) : Bool :=
  let c := s.ctx key
  let ws := s.waits.filter (fun w => w.key = key)
  (c.st = .run || c.st = .stopreq) && c.sync.isNone && !c.asyncDue && !ws.isEmpty &&
  !s.walks.any (fun w => w.reqs.any (fun r => r.1 = key)) &&
  (match s.blks.get? key with
   | some b => (List.range b.words.length).all (fun i => !s.runnable key i b)
   | none => false) &&
  ws.all (fun w => match s.member w.k with
    | some (m, _) => ms.contains m
    | none => false)

def State.stalled (s : State) (ms : List Member) : Bool :=
  let ps := s.parties ms
  !ps.isEmpty && ps.all (fun p => match p with
    | some k => s.partyWaits ms k
    | none => false)

/-- Fault every wait that `sel` names; each is withdrawn (R109, R189). -/
def State.faultWaits (s : State) (sel : Wait → Option Flt) : State :=
  s.waits.foldl (fun (s : State) (w : Wait) => match sel w with
    | some f => (dropWait s w).syncFault w.key { f with idx := some w.idx, src := 8 }
    | none => s) s

/-- A member that can grow by a segment grows (R189 case 1). -/
def State.growMember (s : State) (m : Member) : Option State :=
  match m with
  | .chan k =>
    let c := s.chan k
    if c.slim < c.scap then
      some ((((s.setChan k (c.fld 1 0 7 (c.slim + 1))).setEv (if c.cv then bitsOf (wAt c.w 7) 0 10 else k / 64) 3).count (k / 64)
        14).chanRoomAll k)
    else none
  | .queue q =>
    let e := s.queueE q
    if qSlim e < qScap e then some ((s.setQueue q (setField e 0 29 7 (qSlim e + 1))).enqwWake q) else none

/-- The action on a group whose SAMP has reached 2 (R189). -/
def State.remontoireAct (s : State) (g : Nat) (ms : List Member) : State :=
  let pushed := ms.filter (fun m => s.waits.any (fun w => s.member w.k = some (m, true)))
  match pushed.findSome? s.growMember with
  | some s => s
  | none =>
    match pushed with
    | m :: _ => s.faultWaits (fun w => if s.member w.k = some (m, true) then
        (match w.k with
         | .push k _ _ va => some { code := .channelCapacity, addr := va, extra := w64 (k % 64) }
         | .enqw q _ => some { code := .channelCapacity, extra := w64 q }
         | _ => none) else none)
    | [] => s.faultWaits (fun w => match s.member w.k with
        | some (m, _) => if ms.contains m then some { code := .deadlock, extra := w64 g } else none
        | none => none)

/-- SAMP of a member. -/
def State.samp (s : State) (m : Member) : Nat :=
  match m with
  | .chan k => bitsOf (wAt (s.chan k).w 1) 7 2
  | .queue q => bitsOf (wAt (s.queueE q) 0) 27 2

/-- The sample of one group (R188). -/
def State.sampleGroup (s : State) (g : Nat) : State :=
  let ms := s.members g
  if ms.isEmpty then s
  else if s.stalled ms then
    let v := (ms.map s.samp).foldl max 0 + 1
    if v ≥ 2 then (s.remontoireAct g ms).setSamp g 0 else s.setSamp g v
  else s.setSamp g 0

/-- REMONTOIRE_SAMPLE (R188): groups 1 to 255. -/
def execRemontoireSample (s : State) : Out :=
  run (fun s => (List.range 255).foldl (fun s i => s.sampleGroup (i + 1)) s) s

end Sys2Proof.Machine
end

