-- ==== Sys2Proof/Machine/Host.lean ====
section
/-! DEFINITION. Host attachment (R262-R268): the mailbox, its commands and tables, service levels (R273), attestation and
firmware staging (R281, R282). -/

namespace Sys2Proof.Machine

/-! ## Mailbox registers (R264) -/

def State.mb (s : State) (f : Mailbox → Mailbox) : State := { s with mbox := f s.mbox }
def State.mbBusy (s : State) : Bool := s.mbox.stat.getLsbD 63

/-- Results of a command (R264). -/
def mbOk : Nat := 0
def mbRefused : Nat := 1
def mbBadarg : Nat := 2
def mbBadcmd : Nat := 3
def mbLevel : Nat := 4
def mbExhausted : Nat := 5

/-- Put one byte of a host write into the registers or the data window; MBSTAT and every other place drop it (R263). -/
def Mailbox.putByte (m : Mailbox) (off : Nat) (b : Byte) : Mailbox :=
  let v := b.zeroExtend 64
  if off < 8 then { m with cmd := splice m.cmd off 1 v }
  else if off < 16 then { m with addr := splice m.addr (off - 8) 1 v }
  else if off < 24 then { m with len := splice m.len (off - 16) 1 v }
  else if off < 32 then { m with arg := splice m.arg (off - 24) 1 v }
  else if 0x10000 ≤ off && off < 0x20000 then { m with data := m.data.put (off - 0x10000) b }
  else m

/-- What a host reads at an offset of BAR0 (R263, R264, R268): the mailbox registers and the data window; the submission window,
and everything else, reads 0. -/
def Mailbox.getByte (m : Mailbox) (off : Nat) : Byte :=
  let word := fun (w : W64) (o : Nat) => (leBytes 8 w.toNat).getD o 0
  if off < 8 then word m.cmd off
  else if off < 16 then word m.addr (off - 8)
  else if off < 24 then word m.len (off - 16)
  else if off < 32 then word m.arg (off - 24)
  else if off < 40 then word m.stat (off - 32)
  else if 0x10000 ≤ off && off < 0x20000 then m.data.getD 0 (off - 0x10000)
  else 0

/-- A host's read of `n` bytes of BAR0: it changes nothing. -/
def State.hostRead (s : State) (off n : Nat) : List Byte := (List.range n).map (fun i => s.mbox.getByte (off + i))

/-- The command of MBCMD: OP and TBL. -/
def Mailbox.op (m : Mailbox) : Nat := bitsOf m.cmd.toNat 0 8
def Mailbox.tbl (m : Mailbox) : Nat := bitsOf m.cmd.toNat 8 8

/-- The step that runs a command; the result at once of one that no step runs (R265). -/
def mbCommand (op tbl : Nat) : Except Nat Instr :=
  match op with
  | 1 => .ok .mread
  | 2 => .ok .mwrite
  | 3 => (match tbl with
    | 0 => .ok .twritePkgcfg
    | 1 => .ok .twritePartition
    | 2 => .ok .twriteRegclass
    | 3 => .ok .twriteWorkqueue
    | 4 => .ok .twritePoisonList
    | 5 => .ok .twriteErrorCounter
    | _ => .error mbBadarg)
  | 4 => if tbl ≤ 5 then .ok .tread else .error mbBadarg
  | 5 => .ok .level
  | 6 => .ok .attest
  | 7 => .ok .fwstage
  | _ => .error mbBadcmd

/-- Host writes in order of arrival: held back while a command runs; a write of MBCMD starts the next one (R264). -/
def mbWrites : List (Nat × List Byte) → State → State
  | [], s => s
  | w :: r, s =>
    if s.mbBusy then s.mb (fun m => { m with queue := m.queue ++ w :: r })
    else
      let s := s.mb (fun m => (w.2.zipIdx).foldl (fun m p => m.putByte (w.1 + p.2) p.1) m)
      if w.1 < 8 && !w.2.isEmpty then
        match mbCommand s.mbox.op s.mbox.tbl with
        | .ok i => mbWrites r { s.mb (fun m => { m with stat := 0x8000000000000000 }) with
            agenda := Act.event i 0 0 0 0 [] :: s.agenda }
        | .error c => mbWrites r (s.mb (fun m => { m with stat := w64 c, msix := m.msix + 1 }))
      else mbWrites r s

/-- Completion of a command: BUSY clears, MSI-X is raised, the writes held back are applied. -/
def State.mbFinish (s : State) (code : Nat) : State :=
  mbWrites s.mbox.queue (s.mb (fun m => { m with stat := w64 code, msix := m.msix + 1, queue := [] }))

/-- MAILBOX_REGISTER_WRITE (R264): bytes at an offset of BAR0. -/
def execMailboxRegisterWrite (s : State) : Out :=
  run (fun s => match s.focus with
    | .ev off _ _ _ data => mbWrites [(off, data)] s
    | _ => s) s

/-- A command's step: the one that runs, or, while none does, the host's write of MBCMD that starts it. -/
def mbStep (op : Nat) (tbl : Option Nat) (body : State → Nat × State) (s : State) : State :=
  let go := fun (s : State) =>
    let (c, s) := body s
    s.mbFinish c
  let mine := s.mbox.op = op && ((tbl.map (fun t => decide (s.mbox.tbl = t))).getD true)
  let arg := match s.focus with
    | .ev x _ _ _ _ => x
    | _ => 0
  let cmd := w64 (op + 256 * tbl.getD (arg % 256))
  if s.mbBusy then (if mine then go s else mbWrites [(0, leBytes 8 cmd.toNat)] s)
  else go (s.mb (fun m => { m with cmd := cmd, stat := 0x8000000000000000 }))

/-! ## The data window -/

def State.mbBytes (s : State) (off n : Nat) : List Byte := (List.range n).map (fun i => s.mbox.data.getD 0 (off + i))
def State.mbWord (s : State) (i : Nat) : W64 := w64 (leNat (s.mbBytes (8 * i) 8))

/-- Fill the window from its start. -/
def State.mbFill (s : State) (bs : List Byte) : State :=
  s.mb (fun m => { m with data := (bs.zipIdx).map (fun p => (p.2, p.1)) ++ m.data.filter (fun p => p.1 ≥ bs.length) })

/-! ## MREAD and MWRITE (R265) -/

/-- MBADDR, MBLEN and the range they name. -/
def State.mbRange (s : State) : Bool :=
  let a := s.mbox.addr.toNat
  let n := s.mbox.len.toNat
  a % 8 = 0 && n % 8 = 0 && 8 ≤ n && n ≤ 65536 && (List.range (n / 8)).all (fun i => decide (s.paKind (a + 8 * i) ≠ .hole))

/-- Is a line unreadable: poisoned, or in error on its expander? -/
def State.lineBad (s : State) (pa : Nat) : Bool :=
  match s.paKind pa with
  | .slow _ => s.slowBad pa
  | _ => s.poisoned pa

/-- Bytes of the range; those of an unreadable line are undefined. What lies in the slow tier is metered (R258). -/
def State.mbReadBytes (s : State) : List Byte × State :=
  let a := s.mbox.addr.toNat
  let slow := (List.range (s.mbox.len.toNat / 8)).filter (fun i => slowRange (a + 8 * i))
  let s := if slow.isEmpty then s else s.meterSlow 8 (8 * slow.length)
  (List.range (s.mbox.len.toNat / 8)).foldl (fun (st : List Byte × State) i =>
    if st.2.lineBad (a + 8 * i) then
      let (x, s) := st.2.drawWord
      (st.1 ++ leBytes 8 x.toNat, s)
    else
      let (bs, s) := st.2.peek (a + 8 * i) 8
      (st.1 ++ bs, s)) ([], s)

def mreadBody (s : State) : Nat × State :=
  if !s.mbRange then (mbBadarg, s)
  else
    let (bs, s) := s.mbReadBytes
    (mbOk, s.mbFill bs)

def execMread (s : State) : Out := run (mbStep 1 none mreadBody) s

/-- Write one aligned word as an S strand's store would meet it (R127, R265); what the rules ignore is ignored. -/
def mbPutWord (pa : Nat) (v : W64) (s : State) : Except Flt State :=
  match s.paKind pa with
  | .window t off =>
    (match s.bankCheck pa pa .plain with
     | .error f => .error f
     | .ok _ => if storageOff off then .ok (s.wr pa 8 v.toNat) else s.winStore t off 8 v)
  | _ => .ok (s.wr pa 8 v.toNat)

/-- One word of MWRITE: BADARG for a poisoned line that the range covers in part, REFUSED for what a store would fault (R265). -/
def mwriteWord (a n i : Nat) (s : State) : Except Nat State :=
  let pa := a + 8 * i
  if s.lineBad pa && !coversLine a n (pa / 128 * 128) then .error mbBadarg
  else match mbPutWord pa (s.mbWord i) s with
    | .error _ => .error mbRefused
    | .ok s => .ok s

/-- A line that the range covers whole is good again (R137, R140). -/
def State.cleanLine (s : State) (line : Nat) : State :=
  match s.paKind line with
  | .slow _ => { s with ueLines := s.ueLines.filter (· ≠ line / 128) }
  | _ => s.setPoison line false

def mwriteBody (s : State) : Nat × State :=
  let a := s.mbox.addr.toNat
  let n := s.mbox.len.toNat
  if !s.mbRange then (mbBadarg, s)
  else match (List.range (n / 8)).foldlM (fun (s : State) i => mwriteWord a n i s) s with
    | .error c => (c, s)
    | .ok s' => (mbOk, ((linesOf a n).filter (coversLine a n)).foldl (fun s l => s.cleanLine l) (s.tableWrite a n (fun _ => s')))

def execMwrite (s : State) : Out := run (mbStep 2 none mwriteBody) s

/-! ## Tables (R265) -/

def State.mbEntry (s : State) : Nat := s.mbox.arg.toNat % 65536

/-- PODCFG's rules (R267). -/
def podOk (v : Nat) : Bool :=
  let na := bitsOf v 8 8 + 1
  let nb := bitsOf v 16 4 + 1
  v / 2 ^ 21 = 0 && (if bitOf v 20 then decide (na ≤ 16) else nb = 1) && bitsOf v 0 8 < na * nb

/-- TBL 0 (R266, R267): word MBARG of the configuration. -/
def twPkgcfg (s : State) : Nat × State :=
  let n := s.mbEntry
  let v := (s.mbWord 0).toNat
  if n ≥ 32 then (mbBadarg, s)
  else if s.level ≠ 0 && n ≠ 20 then (mbLevel, s)
  else if (n = 20 && (v < 400 || v > 3200)) || (n = 21 && !podOk v) || (n ≥ 22 && v ≠ 0) then (mbRefused, s)
  else (mbOk, { s with pkgcfg := s.pkgcfg.put n (w64 v) })

/-- Rows' claims of a MEMB (R239): the two bits of row `r`, counted from die 0. -/
def membRow (e : List W64) (r : Nat) : Nat := bitsOf (wAt e 1 + wAt e 2 * 2 ^ 64) (2 * r) 2
def membHas (e : List W64) (t : Nat) : Bool :=
  tileOk t && bitOf (membRow e (10 * (t / 256) + t / 16 % 16)) (t % 16 / 8)
def partV (e : List W64) : Bool := bitOf (wAt e 0) 63

/-- A partition has a bound task or a live dependence entry (R238). -/
def State.partBusy (s : State) (p : Nat) : Bool := s.deps.any (fun d => d.2.part = p)

/-- The check of a partition entry as a whole (R238, R239, R242). -/
def State.partOk (s : State) (p : Nat) (e : List W64) : Bool :=
  !bitOf (wAt e 0) 48 && wAt e 2 / 2 ^ 16 = 0 && wAt e 3 % 2 ^ 16 = 0 && wAt e 3 / 2 ^ 52 = 0 && wAt e 6 / 2 ^ 16 = 0 &&
  (List.range 4).all (fun j => bitsOf (wAt e 7) (16 * j + 10) 5 = 0) &&
  (List.range 16).all (fun i => bitsOf (wAt e (12 + i / 8)) (8 * (i % 8) + 3) 4 = 0) && wAt e 14 = 0 && wAt e 15 = 0 &&
  !(partV (s.partE p) && s.partBusy p) &&
  (List.range 4).all (fun j => let f := bitsOf (wAt e 7) (16 * j) 16
    !bitOf f 15 || membHas e (f % 1024)) &&
  (!partV e || (bitsOf (wAt e 0) 0 32 ≥ 4096 &&
    (List.range 8).all (fun q => q = p || !partV (s.partE q) ||
      (List.range 40).all (fun r => Nat.land (membRow e r) (membRow (s.partE q) r) = 0))))

/-- A row runs split when a partition claims exactly one half of it (R239). -/
def State.rowHalved (s : State) (r : Nat) : Bool :=
  (List.range 8).any (fun p => partV (s.partE p) && (membRow (s.partE p) r = 1 || membRow (s.partE p) r = 2))

/-- What a partition entry loads into its member rows: RINGCTL and the slot tables (R238, R240, R242). -/
def State.partLoad (s : State) (old e : List W64) : State :=
  let rows := (List.range 40).filter (fun r => membRow old r ≠ 0 || membRow e r ≠ 0)
  rows.foldl (fun (s : State) r => (List.range 16).foldl (fun (s : State) c =>
    let t := r / 10 * 256 + r % 10 * 16 + c
    let sp := s.rowHalved r
    let s := s.updTile t (fun x => { x with ringctl := if sp then w64 (1 + 2 * (c / 8)) else 0 })
    if partV e && membHas e t then
      s.updTile t (fun x => { x with
        slots := (List.range 64).map (fun i => bitsOf (wAt e (8 + i / 16)) (4 * (i % 16)) 4)
        mslots := (List.range 16).map (fun i => bitsOf (wAt e (12 + i / 8)) (8 * (i % 8)) 8) })
    else s) s) s

/-- TBL 1 (R238). -/
def twPartition (s : State) : Nat × State :=
  let p := s.mbEntry
  let e := (List.range 16).map s.mbWord
  if p ≥ 8 then (mbBadarg, s)
  else if !s.partOk p e then (mbRefused, s)
  else (mbOk, ({ s with parts := s.parts.put p e }).partLoad (s.partE p) e)

/-- TBL 2 (R248, R481). -/
def twRegclass (s : State) : Nat × State :=
  let n := s.mbEntry
  let v := s.mbWord 0
  if n > 8 then (mbBadarg, s)
  else if bitsOf v.toNat 48 15 ≠ 0 || rcRate v > rcDepth v then (mbRefused, s)
  else if n = 8 then (if rcBudget v ≠ 0 then (mbRefused, s) else (mbOk, { s with regclass := s.regclass.put 8 v }))
  else if n ≠ 0 && rcBudget v ≠ rcBudget (s.regclass.getD 0 0) then (mbRefused, s)
  else
    let t := s.regclass.put n v
    let t := if n = 0 then (List.range 7).foldl (fun (t : Map W64) i =>
      t.put (i + 1) (w64 (setBits (t.getD 0 (i + 1)).toNat 0 16 (rcBudget v)))) t else t
    if (((List.range 8).filter (fun c => rcV (t.getD 0 c))).map (fun c => rcRate (t.getD 0 c))).sum > rcBudget v then (mbRefused, s)
    else (mbOk, { s with regclass := t })

/-- TBL 3 (R194-R196): the counts that only submissions, takes and ends change are kept. -/
def twWorkqueue (s : State) : Nat × State :=
  let n := s.mbEntry
  let e := (List.range 8).map s.mbWord
  let old := s.queueE n
  if n ≥ 8192 then (mbBadarg, s)
  else if bitsOf (wAt e 0) 0 26 ≠ 0 || wAt e 1 % 2 ^ 16 ≠ 0 || wAt e 1 / 2 ^ 52 ≠ 0 || wAt e 6 ≠ 0 || wAt e 7 ≠ 0 ||
      (qV e && bitsOf (wAt e 0) 43 6 = 0) || qSlim e > qScap e then (mbRefused, s)
  else
    let e := setField e 0 27 2 (bitsOf (wAt old 0) 27 2)
    let e := ((e.set 2 (old.getD 2 0)).set 3 (old.getD 3 0)).set 4 (old.getD 4 0)
    (mbOk, (({ s with carried := if qV e then s.carried else s.carried.filter (fun d => d.qnum ≠ n) } : State).setQueue n e).enqwWake n)

/-- TBL 4 (R140): the entry that names a page, by page number or by address. -/
def twPoisonList (s : State) : Nat × State :=
  (mbOk, { s with poisonPages := s.poisonPages.filter (fun p => p ≠ s.mbox.arg.toNat && p * 65536 ≠ s.mbox.arg.toNat) })

/-- TBL 5. -/
def twErrorCounter (s : State) : Nat × State :=
  if s.mbEntry ≥ 12 then (mbBadarg, s) else (mbOk, { s with stackErr := s.stackErr.del s.mbEntry })

def execTwritePkgcfg (s : State) : Out := run (mbStep 3 (some 0) twPkgcfg) s
def execTwritePartition (s : State) : Out := run (mbStep 3 (some 1) twPartition) s
def execTwriteRegclass (s : State) : Out := run (mbStep 3 (some 2) twRegclass) s
def execTwriteWorkqueue (s : State) : Out := run (mbStep 3 (some 3) twWorkqueue) s
def execTwritePoisonList (s : State) : Out := run (mbStep 3 (some 4) twPoisonList) s
def execTwriteErrorCounter (s : State) : Out := run (mbStep 3 (some 5) twErrorCounter) s

/-- TREAD (R265): an entry's words. -/
def treadBody (s : State) : Nat × State :=
  let n := s.mbEntry
  let words : Option (List W64) :=
    match s.mbox.tbl with
    | 0 => if n < 32 then some [s.pkgcfg.getD 0 n] else none
    | 1 => if n < 8 then some (s.partE n) else none
    | 2 => if n ≤ 8 then some [s.regclass.getD 0 n] else none
    | 3 => if n < 8192 then some (s.queueE n) else none
    | 4 => if n < 256 then some [w64 (s.poisonPages.getD n 0 * 65536)] else none
    | 5 => if n < 12 then some [w64 (s.stackErr.getD 0 n)] else none
    | _ => none
  match words with
  | none => (mbBadarg, s)
  | some l => (mbOk, s.mbFill (wordBytes l))

def execTread (s : State) : Out := run (mbStep 4 none treadBody) s

/-! ## Levels, attestation and firmware (R273, R281, R282) -/

/-- LEVEL (R273): the next level only. -/
def levelBody (s : State) : Nat × State :=
  let n := s.mbox.arg.toNat % 4
  if n = s.level + 1 && n ≤ 2 then (mbOk, { s with level := n }) else (mbBadarg, s)

def execLevel (s : State) : Out := run (mbStep 5 none levelBody) s

/-- SHAKE256 of the running firmware (R282). -/
def State.fwHash (s : State) : List Byte :=
  match s.fwRun with
  | some b => shake256 b 32
  | none => (List.range 32).map (fun i => (Config.firmwareHash 0).getD i 0)

/-- Images of the configuration caches with V = 1, in ascending (ASN, IMGVA) order, tile by tile among equals (R282). -/
def State.cfgImages (s : State) : List Byte :=
  let l := s.tiles.flatMap (fun p => (p.2.cfg.filter (fun q => q.2.v)).map Prod.snd)
  ((sortBy (fun (c : CfgEnt) => c.asn * 2 ^ 64 + c.va.toNat) l).map (fun c => wordBytes c.img)).flatten

/-- The attestation report under leaf `n` (R282). -/
def State.report (s : State) : List Byte :=
  s.mbBytes 0 32 ++ s.fwHash ++ shake256 s.cfgImages 32 ++ leBytes 8 s.leaf ++ leBytes 1 s.level ++ List.replicate 23 0

/-- ATTEST: the leaf counter advances before the signature is released. -/
def attestBody (s : State) : Nat × State :=
  if s.leaf ≥ 2 ^ 20 then (mbExhausted, s)
  else
    let r := s.report
    (mbOk, { s with leaf := s.leaf + 1 }.mbFill (r ++ (Config.xmssSign s.leaf r).take (65536 - 128)))

def execAttest (s : State) : Out := run (mbStep 6 none attestBody) s

/-- FWSTAGE (R281): an image that fails its signature is not staged. -/
def fwstageBody (s : State) : Nat × State :=
  if s.level ≠ 0 then (mbLevel, s)
  else if !s.mbRange then (mbBadarg, s)
  else
    let (img, s) := s.mbReadBytes
    if Config.firmwareOk img then (mbOk, { s with fwStaged := some img }) else (mbBadarg, s)

def execFwstage (s : State) : Out := run (mbStep 7 none fwstageBody) s

end Sys2Proof.Machine
end

