-- ==== Sys2Proof/Machine/Reset.lean ====
section
/-! DEFINITION. Resets (R132, R261, R273, R280, R281) and failures of single parts (R271, R274, R275). -/

namespace Sys2Proof.Machine

/-! ## Cold reset (R132, R273, R281) -/

/-- Addresses of memory outside the package's tiles: HBM4E and the slow tier. -/
def offTile (a : Nat) : Bool := a < 0xF000000000000

/-- Tiles and slices that have failed stay failed. -/
def State.failedTiles (s : State) : Map Tile :=
  (s.tiles.filter (fun p => p.2.failed)).map (fun p => (p.1, { failed := true : Tile }))
def State.failedSlices (s : State) : Map Slice :=
  (s.slices.filter (fun p => p.2.failed)).map (fun p => (p.1, { failed := true : Slice }))

/-- The state after a cold reset; `caps` are the capacities that the expanders report, one for each slot (R122, R269). The
staged firmware runs when its signature holds. -/
def State.coldReset (s : State) (caps : List Nat) : State :=
  let fw := match s.fwStaged with
    | some b => if Config.firmwareOk b then some b else s.fwRun
    | none => s.fwRun
  { State.reset with
    mem := s.mem
    log := (s.mem.filter (fun c => !offTile c.1)).map (fun c => (c.1, memDefault)) ++ s.log.filter (fun c => offTile c.1)
    agenda := s.agenda
    freeCtr := s.freeCtr
    nextId := s.nextId
    ueLines := s.ueLines
    tiles := s.failedTiles
    slices := s.failedSlices
    failedPorts := s.failedPorts
    failedLinks := s.failedLinks
    failedStacks := s.failedStacks
    outbox := s.outbox
    inbox := s.inbox
    hostIn := s.hostIn
    fwRun := fw
    leaf := s.leaf
    expCap := (caps.zipIdx).foldl (fun (m : Map Nat) p => if p.1 = 0 ∨ p.2 ≥ 16 then m else m.put p.2 p.1) []
    power := s.power
    temps := s.temps
    fuse := s.fuse }

/-- COLD_RESET: the event's bytes hold the expanders' capacities, eight bytes for each slot from 0 on. -/
def execColdReset (s : State) : Out :=
  run (fun s => match s.focus with
    | .ev _ _ _ _ data => s.coldReset ((List.range (data.length / 8)).map (fun i => leNat ((data.drop (8 * i)).take 8)))
    | _ => s.coldReset []) s

/-! ## Warm reset (R280) -/

/-- Take the records of a journaled queue again, from RETSEQ on, while the dependence table has room; those with an end mark
are passed. -/
def State.retake (s : State) (n : Nat) : Nat → State
  | 0 => s
  | k + 1 =>
    let q := s.queueE n
    if wAt q 3 = wAt q 2 || (s.deps.fresh 0 4096).isNone then s
    else
      let num := (wAt q 3 + 1) % 2 ^ 64
      let s := s.setQueue n (q.set 3 (w64 num))
      State.retake (s.takeRecord n num) n k

/-- The state after the tiles, rings and engines are reset. -/
def State.warmBase (s : State) : State :=
  let tiles := (s.tiles.map (fun (p : Nat × Tile) => (p.1, { failed := p.2.failed : Tile }))).filter (fun p => p.2.failed)
  { State.reset with
    powered := s.powered
    cycle := s.cycle
    tilesSince := s.cycle
    mem := s.mem
    log := s.log
    agenda := s.agenda
    freeCtr := s.freeCtr
    nextId := s.nextId
    poison := s.poison
    ueLines := s.ueLines
    poisonPages := s.poisonPages
    ctxs := s.ctxs.map (fun (p : Nat × Ctx) => (p.1, { starts := p.2.starts : Ctx }))
    tiles := tiles
    slices := s.failedSlices
    wq := s.wq
    parts := s.parts
    regclass := s.regclass
    regEff := s.regEff
    pkgcfg := s.pkgcfg
    stackErr := s.stackErr
    pfxcoll := s.pfxcoll
    mbox := s.mbox
    outbox := s.outbox
    inbox := s.inbox
    hostIn := s.hostIn
    poolPages := s.poolPages
    pfxOf := s.pfxOf
    failedPorts := s.failedPorts
    failedLinks := s.failedLinks
    failedStacks := s.failedStacks
    fwStaged := s.fwStaged
    fwRun := s.fwRun
    leaf := s.leaf
    fuse := s.fuse
    expCap := s.expCap
    power := s.power
    temps := s.temps }

/-- Launches of queues without a journal end CANCELLED (R280). -/
def State.cancelAll (s : State) : State :=
  s.deps.foldl (fun (s : State) (p : Nat × Dep) => if qJrn (s.queueE p.2.qnum) then s else
    match s.deps.get? p.1 with
    | some d => s.endLaunch p.1 d 3
    | none => s) s

/-- Rebuild the dependence table in queue order; what does not fit is taken later, with what its old entry hands on. -/
def State.rebuildDeps (s : State) (old : Map Dep) : State :=
  s.wq.foldl (fun (s : State) (p : Nat × List W64) =>
    if qV p.2 && qJrn p.2 then ((s.setQueue p.1 (p.2.set 3 (p.2.getD 4 0))).retake p.1 65536).retAdvance p.1 else s)
    { s with carried := old.map Prod.snd }

def State.warmReset (s : State) : State :=
  let chans := s.chans
  let s := s.cancelAll
  let old := s.deps
  let b := s.warmBase
  let b := (List.range 8).foldl (fun (b : State) p => b.partLoad [] (b.partE p)) b
  let b := b.rebuildDeps old
  let b := { b with chans := chans.filter (fun p => p.2.v || p.2.lost) }
  let again := (b.deps.filter (fun p => p.2.carried)).map Prod.snd ++
    (b.carried.filter (fun d => d.st ≠ 0)).map (fun d => { d with replays := d.replays + 1 })
  let again := again.filter (fun d => b.journaled d && d.replays ≤ 3 && !b.foreignFed d)
  let b := chans.foldl (fun (b : State) p => if p.2.v then b.rebuildChan p.1 p.1 (prodReplayed again p.2) else b) b
  b.resume

/-- WARM_RESET. -/
def execWarmReset (s : State) : Out := run State.warmReset s

/-! ## Failures (R271, R274, R275) -/

/-- A CRL port fails: it leaves its group (R271). Packets that wait at the pod gateway for a link that has no port left are
lost as they leave. -/
def State.portDown (s : State) (p : Nat) : State := ({ s with failedPorts := insNat s.failedPorts p } : State).barLeave

def execLinkDown (s : State) : Out :=
  run (fun s => match s.focus with
    | .ev p _ _ _ _ =>
      let s := s.portDown p
      s.pkts.foldl (fun (s : State) q => match s.msgs.get? q.msg with
        | some m => if s.leaves q m && (s.podPorts m).2.all (s.failedPorts.contains ·) then s.leavePkg q m else s
        | none => s) s
    | _ => s) s

/-- A package-ring link fails: query tokens on the ring are lost, other packets turn round (R213, R275). -/
def State.ringLinkDown (s : State) (n : Nat) : State :=
  let s := { s with failedLinks := insNat s.failedLinks n }
  let lost := (s.msgs.filter (fun p => p.2.cls = 0 && s.pkts.any (fun q => q.msg = p.1 && q.ring = 2)))
  let s := lost.foldl (fun (s : State) p => s.loseMsg p.1 p.2 p.2.dtile (linkLost 2 n)) s
  { s with pkts := s.pkts.map (fun (q : Pkt) => if q.ring = 2 then
      (match s.msgs.get? q.msg with
       | some m => (match s.ringTarget 2 q.ringNo m.dpkg m.dtile with
         | some b => { q with ccw := s.ringWay m 2 q.ringNo q.stop b }
         | none => q)
       | none => q) else q) }

/-- Bytes of the local store of a tile are lost: undefined from now on. -/
def State.loseStore (s : State) (t : Nat) : State :=
  { s.undefBytes (winPa t 0) 0x400000 with
    full := s.full.filter (fun w => !(winPa t 0 ≤ 8 * w && 8 * w < winPa t 0 + 0x400000)) }

/-- What a failed tile held is gone. -/
def State.clearTile (s : State) (t : Nat) : State :=
  let keep := fun (n k : Nat) => decide (k / n ≠ t)
  { s with
    ctxs := s.ctxs.filter (fun p => keep 16 p.1)
    blks := s.blks.filter (fun p => keep 16 p.1)
    waits := s.waits.filter (fun w => keep 16 w.key)
    regions := s.regions.filter (fun p => keep 4 p.1)
    elems := s.elems.filter (fun p => keep 64 p.1)
    accs := s.accs.filter (fun p => keep 4 p.1)
    chans := s.chans.filter (fun p => keep 64 p.1 || p.2.lost)
    bars := s.bars.filter (fun p => keep 48 p.1)
    tcache := s.tcache.filter (fun l => l.tile ≠ t)
    walks := s.walks.filter (fun w => w.tile ≠ t)
    cfgWait := s.cfgWait.filter (fun w => w.tile ≠ t)
    tiles := s.tiles.put t { failed := true } }

/-- Launches with a task on a tile. -/
def State.touched (s : State) (t : Nat) : List Nat :=
  (s.deps.filter (fun p => s.tasks.any (fun x => x.2.dep = p.1 && x.2.tile = t))).map Prod.fst

/-- The dispatcher's record of a part failure, for a launch that it touched. -/
def State.partRecord (s : State) (i : Nat) (extra : Nat) : State :=
  match s.deps.get? i with
  | none => s
  | some d => s.fqSend d.part (loadRecord s 0 d 0 { code := .partFailed, extra := w64 extra })

/-- A part's failure reported to the partitions that `sel` chooses among the valid ones, by a record that names no strand: SRC
6 for a link or port, 9 for a slice or stack channel, 7 for a tile (R274; to whom, DESIGN CHOICE, log 80). -/
def State.partReport (s : State) (sel : Nat → Bool) (kind n : Nat) : State :=
  let src := if kind = 1 then 7 else if kind ≤ 3 then 9 else 6
  let ws : List W64 := [w64 (FCode.partFailed.num + src * 2 ^ 24), 0, 0, w64 (kind + n * 256), 0, 0, s.cycle, 0]
  ((List.range 8).filter (fun p => bitOf (s.partW p 0) 63 && sel p)).foldl (fun (s : State) p => s.fqSend p ws) s

/-- A tile fails (R275, R278, R279): its channels are rebuilt, the launches it touched replayed or ended. -/
def State.tileDown (s : State) (t : Nat) : State :=
  let hit := s.touched t
  let again := hit.filter (fun i => ((s.deps.get? i).map s.canReplay).getD false)
  let deps := again.filterMap (s.deps.get? ·)
  let told := hit.filterMap (fun i => (s.deps.get? i).map Dep.part)
  let s := (hit.foldl (fun s i => s.partRecord i (1 + t * 256)) s).partReport (fun p => !told.contains p) 1 t
  let s := s.updTile t (fun x => { x with failed := true })
  let s := s.chans.foldl (fun (s : State) (p : Nat × Chan) =>
    if p.1 / 64 = t && p.2.v then s.rebuildChan p.1 ((s.newHome t).getD p.1) (prodReplayed deps p.2) else s) s
  let s := hit.foldl (fun (s : State) i =>
    if again.contains i then s.replay i .partFailed
    else
      let s := s.condemn i 1 .partFailed
      s.tasks.foldl (fun (s : State) (p : Nat × Task) =>
        if p.2.dep = i && p.2.tile = t then (p.2.ctxs.foldl (fun s x => s.dropStrand (ctxKey t x.2)) s).dropTask p.1 p.2 else s) s) s
  (s.clearTile t).loseStore t

/-- PART_FAILURE (R274, R275): kind and number as EXTRA names them. -/
def execPartFailure (s : State) : Out :=
  run (fun s => match s.focus with
    | .ev kind n _ _ _ =>
      (match kind with
       | 1 => if tileOk n then s.tileDown n else s
       | 2 => (s.setSlice n { failed := true }).partReport (fun _ => true) 2 n
       | 3 => ({ s with failedStacks := insNat s.failedStacks n } : State).partReport (fun _ => true) 3 n
       | 4 => (s.ringLinkDown n).partReport (fun _ => true) 4 n
       | 5 => (s.portDown n).partReport (fun _ => true) 5 n
       | _ => s)
    | _ => s) s

end Sys2Proof.Machine
end

