-- ==== Sys2Proof/Machine/Shard.lean ====
section
/-! DEFINITION. Group SHARD (R430-R443): the shard table, appending and settling positions, the places of pages, prefixes,
summaries, selection and gather chains. -/

namespace Sys2Proof.Machine

/-! ## The common form (R430-R432) -/

/-- What a table command comes to: it waits on a page, answers a status, or started a move that answers later. -/
inductive KvR where
  | wait
  | stat (w : W64)
  | moving
  deriving DecidableEq, Repr

/-- The unit of a command that finds a page EVICTING, or a visit in progress, holds it (R225, R432). -/
def State.atUnit (s : State) (e : Env) : State :=
  s.updBlk e.key (fun b => if b.asked.contains e.idx then b else { b with asked := e.idx :: b.asked })

/-- A table command: ordered as class 15. One that waits at its unit for a page to settle stays there, and a fault of its
block waits for the status it returns (R432). -/
def kvInstr (h : Head) (n : Needs) (body : Env → M KvR) (s : State) : State :=
  fireSeq h n (fun e s => match body e s with
    | .ok (.stat w) t => t.finish e.key e.idx w
    | .ok .moving t => t
    | .ok .wait _ => s
    | .error f _ => faultOf e f s) s
    (fun e s => match hold15 e s with
      | some s => some s
      | none => match body e (s.begun e) with
        | .ok .wait _ => some (s.atUnit e)
        | _ => none)

/-- Status codes (R431). -/
def kOK : W64 := 0
def kSHORT : Nat := 1
def kTENT : W64 := 2
def kPINNED : W64 := 3
def kREF : W64 := 4
def kEMPTY : W64 := 5
def kSTATE : W64 := 6
def kCONFLICT : W64 := 7
def kMISS : W64 := 8
def kMISMATCH : W64 := 9
def kBUSY : W64 := 10
def kPOOL : W64 := 11
def kEXP : W64 := 12
def kLINK : W64 := 13

def answer (w : W64) : M KvR := pure (.stat w)

/-- A command's memory operands and results: pages of class NORMAL (R432). -/
def inBytes (e : Env) (va : W64) (n align : Nat) : M (List Byte) := do
  needAlign va align
  let c ← mCtx e
  readU e.tile c.part (useERead c.sup [0] 0) .engine va n
def outBytes (e : Env) (va : W64) (bs : List Byte) : M Unit := do
  let c ← mCtx e
  writeF e.tile c.part (useEWrite c.sup [0] 0) .engine va bs

/-- `n` bytes of a byte list from an offset, as a number. -/
def nAt (b : List Byte) (off n : Nat) : Nat := leNat ((b.drop off).take n)

/-- A sequence operand (R431). -/
def seqOperand (e : Env) (x : W64) : M Nat := do
  needField e (x.toNat / 2 ^ 16 = 0)
  pure x.toNat

/-- Accesses that a command's units make (R432). -/
def unitAt (e : Env) (l : List (Nat × Nat × Nat × Bool)) : M Unit := modS (fun s => s.unitAccs (s.ownOf e) l)

/-- The page that a key names (R431): sequence number, entry, plane, page. -/
structure PKey where
  n : Nat
  q : SeqE
  p : Nat
  k : Nat
  deriving DecidableEq, Repr

/-- The page of a key: the issuing tile's walker reads its map entry, and that of OWNER its descriptor. -/
def pageKey (e : Env) (x : W64) : M PKey := do
  needField e (bitsOf x.toNat 30 2 = 0)
  let n := bitsOf x.toNat 0 16
  let q ← needSeq e n
  let p := bitsOf x.toNat 16 14
  let k := x.toNat / 2 ^ 32
  if p < q.planes && k < q.pmcap then do
    unitAt e [(e.tile, q.mapPa p k, 8, false)]
    let s ← getS
    unitAt e (match s.mapped q p k with
      | some d => [(s.dOwner d, d, 32, false)]
      | none => [])
    pure ⟨n, q, p, k⟩
  else raise (shardFault n)

/-- The descriptor of a key's page, when its map entry is valid. -/
def keyDesc (x : PKey) : M (Option Nat) := do pure ((← getS).mapped x.q x.p x.k)

/-- The accesses that write a page's map entry, by the walker of HOME, and its descriptor, by that of OWNER (R432). -/
def State.linkAccs (s : State) (q : SeqE) (p k d : Nat) : List (Nat × Nat × Nat × Bool) :=
  [(q.home, q.mapPa p k, 8, true), (s.dOwner d, d, 32, true)]

/-! ## The shard table (R433) -/

def entryOperand (e : Env) (x : W64) : M Nat := do
  needField e (x.toNat < 512)
  pure x.toNat

/-- An instruction of privilege S (R430). -/
def needSup (e : Env) : M Unit := do
  let c ← mCtx e
  if c.sup then pure () else raise (fltWord .privilege e)

def execShlookWord (h : Head) (item : BitVec 3) (s : State) : Out :=
  run (kvInstr h nA (fun e => do
    let i ← entryOperand e e.a
    let s ← getS
    answer (w64 (shF ((s.tile e.tile).shard.getD 0 i) (64 * item.toNat) 64)))) s

def execShlookFind (h : Head) (s : State) : Out :=
  run (kvInstr h nAB (fun e => do
    needField e (e.a.toNat / 2 ^ 30 = 0)
    let s ← getS
    let a := e.a.toNat
    match s.shardFind e.tile (bitsOf a 0 16) (bitsOf a 16 8) (bitsOf a 24 6) e.b.toNat with
    | some p => answer (stat 0 p.1)
    | none => answer kMISS)) s

/-- The rules of R226 that a new entry must keep: its slots exist; a valid one holds pages and overlaps no valid entry. -/
def State.shardOk (s : State) (t : Nat) (x : BitVec 256) : Bool :=
  shSlbase x + shNslot x ≤ s.kvslots t &&
  (!shV x || (1 ≤ shCnt x && shNslot x ≤ shCnt x &&
    (s.tile t).shard.all (fun p => !(shV p.2 && shSeq p.2 = shSeq x && shLayer p.2 = shLayer x && shGrp p.2 = shGrp x &&
      shFirst p.2 < shFirst x + shCnt x && shFirst x < shFirst p.2 + shCnt p.2))))

def execShmapE (h : Head) (s : State) : Out :=
  run (kvInstr h nAB (fun e => do
    needSup e
    let i ← entryOperand e e.b
    let x := BitVec.ofNat 256 (leNat (← inBytes e e.a 32 8))
    needField e (shF x 0 123 = 0)
    let s ← getS
    if shV ((s.tile e.tile).shard.getD 0 i) || !s.shardOk e.tile x then answer kCONFLICT
    else do
      modS (fun s => s.updTile e.tile (fun y => { y with shard := y.shard.put i x }))
      answer kOK)) s

def execShunmapE (h : Head) (s : State) : Out :=
  run (kvInstr h nA (fun e => do
    needSup e
    let i ← entryOperand e e.a
    modS (fun s => s.updTile e.tile (fun y => { y with shard := y.shard.put i ((y.shard.getD 0 i) &&& BitVec.ofNat 256 (2 ^ 255 - 1)) }))
    answer kOK)) s

/-- A place in a physical hole (R439). -/
def holeFault (pa : Nat) : Flt := { code := .translation, addr := w64 pa, extra := 15 }

/-- SHMAP.P (R433). The manual does not say what a descriptor address outside HBM4E does: it faults TRANSLATION as a hole does
(DESIGN CHOICE, log 39). -/
def execShmapP (h : Head) (s : State) : Out :=
  run (kvInstr h nAB (fun e => do
    let x ← pageKey e e.a
    needAlign e.b 32
    let d := e.b.toNat
    let s ← getS
    if s.paKind d ≠ .hbm then raise (holeFault d)
    match ← keyDesc x with
    | some _ => answer kCONFLICT
    | none =>
      if s.dState d = stEvict then pure .wait
      else if s.dState d = stFree then answer kSTATE
      else if s.dTent d then answer kTENT
      else if s.dRef d = 65535 then answer kREF
      else do
        modS (fun s => (s.setMap x.q x.p x.k (some d)).setRef d (s.dRef d + 1))
        unitAt e (s.linkAccs x.q x.p x.k d)
        answer kOK)) s

/-- Drop a key's map entry: the shared form of SHUNMAP.P and KVEVICT.REL. A page that becomes FREE waits for the visits that
hold it (R227). -/
def unlink (e : Env) : M KvR := do
  let x ← pageKey e e.a
  let s ← getS
  match ← keyDesc x with
  | none => answer kSTATE
  | some d =>
    if s.dState d = stEvict then pure .wait
    else if s.dTent d then answer kTENT
    else if s.dRef d ≤ 1 && s.visited d then pure .wait
    else do
      modS (fun s => s.dropMap x.q x.p x.k d)
      unitAt e (s.linkAccs x.q x.p x.k d)
      answer kOK

def execShunmapP (h : Head) (s : State) : Out := run (kvInstr h nA unlink) s

/-! ## KVAPPEND (R434, R435) -/

/-- An entry of a batch list. -/
structure AppEnt where
  seq : Nat
  c : Nat
  rowb : Nat
  kv : W64
  ids : W64
  deriving DecidableEq, Repr

def appEnt (e : Env) (b : List Byte) : M AppEnt := do
  let ctl := nAt b 0 8
  needField e (bitsOf ctl 22 10 = 0 && 1 ≤ bitsOf ctl 32 8 && bitsOf ctl 32 8 ≤ 128 && bitsOf ctl 40 16 = 0 && nAt b 0x18 8 = 0)
  pure ⟨bitsOf ctl 0 16, bitsOf ctl 16 6 + 1, bitsOf ctl 32 8, w64 (nAt b 8 8), w64 (nAt b 16 8)⟩

/-- What appending one entry comes to. -/
inductive AppR where
  | done
  | state
  | short (pages : Nat)
  | wait
  deriving DecidableEq, Repr

/-- Pages of every plane that positions `lo` to `hi - 1` touch. -/
def SeqE.pages (q : SeqE) (lo hi : Nat) : List (Nat × Nat) :=
  if hi ≤ lo then [] else
  (List.range q.planes).flatMap (fun p =>
    (List.range ((hi - 1) / 64 - lo / 64 + 1)).map (fun i => (p, lo / 64 + i)))

/-- Reserve the pages of a sequence that have no map entry; the answer counts those that a list could not supply. -/
def reservePages (e : Env) (part n : Nat) (q : SeqE) (l : List (Nat × Nat)) : M Nat :=
  l.foldlM (fun (short : Nat) (pk : Nat × Nat) => do
    let s ← getS
    match s.ownerOf part n (pk.1 / (q.ngrp + 1)) (pk.1 % (q.ngrp + 1)) pk.2 with
    | none => raise (shardFault n)
    | some (owner, x) =>
      match s.takePage owner x pk.2 with
      | none => pure (short + 1)
      | some (d, s) => do
        modS (fun _ => s.setMap q pk.1 pk.2 (some d))
        unitAt e [(q.home, q.mapPa pk.1 pk.2, 8, true), (owner, d, 32, true)]
        pure short) 0

/-- Write a row, its bytes beyond ROWB zero. -/
def State.putRow (s : State) (pa : Nat) (bs : List Byte) : State :=
  (s.wrBytes pa (bs ++ List.replicate (128 - bs.length) 0)).setPoison pa false

/-- What R435 looks at for one entry before anything changes: its sequence, its new TLEN, the pages it touches that are mapped,
and those that are not. -/
def appendPages (e : Env) (x : AppEnt) : M (SeqE × Nat × List (Nat × Nat) × List Nat × List (Nat × Nat)) := do
  let q ← needSeq e x.seq
  let s ← getS
  let hi := q.tlen + x.c
  let pages := q.pages q.tlen hi
  pure (q, hi, pages, pages.filterMap (fun pk => s.mapped q pk.1 pk.2), pages.filter (fun pk => (s.mapped q pk.1 pk.2).isNone))

/-- An entry's last page lies within its sequence's page map (R218). -/
def needCap (x : AppEnt) (q : SeqE) : M Unit := do
  if (q.tlen + x.c - 1) / 64 ≥ q.pmcap then raise (shardFault x.seq)

/-- The first loop of R435 over the entries from one on, none of which is yet appended: an entry whose new pages no tile of the
partition covers faults SHARD_ID, one that meets a page in motion makes the command wait. One of too many tentative slots has
no pages to look at (DEDUCED, log 38). -/
def appendCheck (e : Env) : List AppEnt → M Bool
  | [] => pure false
  | x :: r => do
    let (q, _, _, held, fresh) ← appendPages e x
    let c ← mCtx e
    let s ← getS
    if q.tent + x.c > 64 then appendCheck e r
    else do
      needCap x q
      if held.any (fun d => s.dState d = stEvict) then pure true
      else if fresh.any (fun pk => (s.ownerOf c.part x.seq (pk.1 / (q.ngrp + 1)) (pk.1 % (q.ngrp + 1)) pk.2).isNone) then
        raise (shardFault x.seq)
      else appendCheck e r

/-- Append one entry (R435): what its pages lack stays taken, so that every page that is short counts. -/
def appendOne (e : Env) (x : AppEnt) : M AppR := do
  let (q, hi, pages, held, fresh) ← appendPages e x
  let c ← mCtx e
  let s ← getS
  if q.tent + x.c > 64 || held.any (fun d => s.dState d = stCold || s.dState d = stAbsent) then pure .state
  else if held.any (fun d => s.dState d = stEvict) then pure .wait
  else do
    needCap x q
    let short ← reservePages e c.part x.seq q fresh
    if short > 0 then pure (.short short)
    else do
      for t in List.range x.c do
        let pos := q.tlen + t
        for p in List.range q.planes do
          let src := x.kv + w64 (256 * (p * x.c + t))
          let kb ← inBytes e src x.rowb 1
          let vb ← inBytes e (src + 128) x.rowb 1
          let s ← getS
          match s.mapped q p (pos / 64) with
          | none => pure ()
          | some d => match s.pagePlace d with
            | none => pure ()
            | some place => do
              unitAt e [(s.dOwner d, rowPa place (pos % 64) false, 128, true), (s.dOwner d, rowPa place (pos % 64) true, 128, true)]
              modS (fun s => (s.putRow (rowPa place (pos % 64) false) kb).putRow (rowPa place (pos % 64) true) vb)
        let id ← inBytes e (x.ids + w64 (4 * t)) 4 1
        modS (fun s => s.wrBytes (q.trbase + 4 * pos) id)
      unitAt e [(q.home, q.trbase + 4 * q.tlen, 4 * x.c, true), (q.home, s.seqPa x.seq, 128, true)]
      unitAt e (held.map (fun d => (s.dOwner d, d, 32, true)))
      modS (fun s =>
        let s := pages.foldl (fun (s : State) (pk : Nat × Nat) => match s.mapped q pk.1 pk.2 with
          | some d => (s.setDsc d 32 7 (min 64 (hi - 64 * pk.2))).setDsc d 60 1 1
          | none => s) s
        let links := (List.range x.c).foldl (fun l t =>
          let k := q.tent + t
          setBits l (6 * k) 6 (k - 1)) q.links
        (s.setLen x.seq q.clen hi).setLinks x.seq links)
      pure .done

/-- Append one entry. One that is refused changes nothing; but without PART what a short entry took stays taken while the pages
short are counted, and the whole list is undone in the end. -/
def tryAppend (e : Env) (part : Bool) (x : AppEnt) : M AppR := fun s =>
  match appendOne e x s with
  | .ok .done t => .ok .done t
  | .ok (.short k) t => .ok (.short k) (if part then s else t)
  | .ok r _ => .ok r s
  | .error f _ => .error f s

/-- Write an entry's code. -/
def putCode (e : Env) (i code : Nat) : M Unit := outBytes e (e.a + w64 (32 * i + 7)) [BitVec.ofNat 8 code]

/-- Entries from `i` on, in list order: how many are done, the first with STATE, the pages short, whether one waits. With
`part` the first entry that is not done ends it. -/
def appendLoop (e : Env) (part : Bool) : List AppEnt → Nat → M (Nat × Option Nat × Nat × Bool)
  | [], _ => pure (0, none, 0, false)
  | x :: r, i => do
    match ← tryAppend e part x with
    | .done => do
      let (n, st, sh, w) ← appendLoop e part r (i + 1)
      pure (n + 1, st, sh, w)
    | .wait => pure (0, none, 0, true)
    | .state => if part then pure (0, some i, 0, false) else do
      let (n, _, sh, w) ← appendLoop e part r (i + 1)
      pure (n, some i, sh, w)
    | .short k => if part then pure (0, none, k, false) else do
      let (n, st, sh, w) ← appendLoop e part r (i + 1)
      pure (n, st, sh + k, w)

/-- KVAPPEND over its list (R435): every entry is looked at first. -/
def appendAll (e : Env) (part : Bool) (l : List AppEnt) : M (Nat × Option Nat × Nat × Bool) := do
  if ← appendCheck e l then pure (0, none, 0, true) else appendLoop e part l 0

/-- KVAPPEND (R435): a STATE ranks before a SHORT, and the entries done and the one that stopped a PART get their codes
(DEDUCED, log 38). -/
def execKvappend (h : Head) (flag : Bool) (s : State) : Out :=
  run (kvInstr h nAB (fun e => do
    let n := e.b.toNat
    needField e (1 ≤ n && n ≤ 64)
    let b ← inBytes e e.a (32 * n) 8
    let l ← (List.range n).mapM (fun i => appEnt e (b.drop (32 * i)))
    let s0 ← getS
    let (done, st, short, wait) ← appendAll e flag l
    if wait then pure .wait
    else if flag then do
      for i in List.range done do putCode e i 0
      if done = n then answer kOK
      else do
        putCode e done (if st.isSome then 6 else 1)
        answer (w64 (1 + done * 256 + short * 65536))
    else match st with
      | some i => do
        modS (fun _ => s0)
        answer (stat 6 i)
      | none =>
        if short > 0 then do
          modS (fun _ => s0)
          answer (stat kSHORT short)
        else do
          for i in List.range n do putCode e i 0
          answer kOK)) s

/-! ## Settling positions (R436, R437) -/

def execKvtent (h : Head) (s : State) : Out :=
  run (kvInstr h nAB (fun e => do
    let n ← seqOperand e e.a
    let q ← needSeq e n
    let links := leNat (← inBytes e e.b 48 8)
    if linksOk links q.tent then do
      modS (fun s => s.setLinks n links)
      unitAt e [(q.home, (← getS).seqPa n, 128, true)]
      answer kOK
    else answer kLINK)) s

/-- Removed positions' trailer bytes become undefined (R436). -/
def State.undefTrailer (s : State) (q : SeqE) (lo hi : Nat) : State := s.undefBytes (q.trbase + 4 * lo) (4 * (hi - lo))

/-- Pages of positions at or above `lo` that only removed positions stand in. -/
def SeqE.dropped (q : SeqE) (lo : Nat) : List (Nat × Nat) :=
  if lo % 64 = 0 then q.pages lo q.tlen else (q.pages lo q.tlen).filter (fun pk => pk.2 ≠ lo / 64)

/-- Rows `j0` to `j1 - 1` of a page, keys and values, become undefined. -/
def State.undefRows (s : State) (d j0 j1 : Nat) : State :=
  match s.pagePlace d with
  | some place => (s.undefBytes (rowPa place j0 false) (128 * (j1 - j0))).undefBytes (rowPa place j0 true) (128 * (j1 - j0))
  | none => s

/-- Remove the positions at or above `lo`: their rows become undefined, pages beyond go, the page that keeps some has its FILL
cut; `tent`: it may still hold a tentative position. -/
def State.cutSeq (s : State) (own : Option (Nat × Nat)) (q : SeqE) (lo : Nat) (tent : Bool) : State :=
  let s := (q.pages lo q.tlen).foldl (fun (s : State) (pk : Nat × Nat) => match s.mapped q pk.1 pk.2 with
    | some d => (s.undefRows d (lo - 64 * pk.2) (min 64 (q.tlen - 64 * pk.2))).unitAccs own (s.linkAccs q pk.1 pk.2 d)
    | none => s) s
  let s := (q.dropped lo).foldl (fun (s : State) (pk : Nat × Nat) => match s.mapped q pk.1 pk.2 with
    | some d => s.dropMap q pk.1 pk.2 d
    | none => s) s
  let s := if lo % 64 = 0 || q.tlen ≤ lo then s
    else (List.range q.planes).foldl (fun (s : State) p => match s.mapped q p (lo / 64) with
      | some d => (s.setDsc d 32 7 (lo % 64)).setDsc d 60 1 tent.toNat
      | none => s) s
  if q.tlen ≤ lo then s else s.undefTrailer q lo q.tlen

/-- Must a command that works on the pages from position `from_` on and removes the positions from `lo` on wait for a move or
for a visit (R225)? -/
def State.cutWaits (s : State) (q : SeqE) (from_ lo : Nat) : Bool :=
  (q.pages from_ q.tlen).any (fun pk => match s.mapped q pk.1 pk.2 with
    | some d => s.dState d = stEvict
    | none => false) ||
  (q.dropped lo).any (fun pk => match s.mapped q pk.1 pk.2 with
    | some d => s.dRef d ≤ 1 && s.visited d
    | none => false)

def execKvroll (h : Head) (s : State) : Out :=
  run (kvInstr h nAB (fun e => do
    let n ← seqOperand e e.a
    let q ← needSeq e n
    let s ← getS
    let b := e.b.toNat
    if b < q.clen || q.tlen < b then answer kSTATE
    else if s.cutWaits q b b then pure .wait
    else do
      modS (fun s => (s.cutSeq (s.ownOf e) q b (decide (b > q.clen))).setLen n q.clen b)
      unitAt e [(q.home, s.seqPa n, 128, true)]
      answer kOK)) s

/-- Copy position `src` to position `dst` in every plane, by the engine of the destination page's owner, and in the trailer
(R437). -/
def State.copyPos (s : State) (own : Option (Nat × Nat)) (q : SeqE) (src dst : Nat) : State :=
  let at_ := fun (s : State) p pos => (s.mapped q p (pos / 64)).bind (fun d => (s.pagePlace d).map (fun place => (d, place, pos % 64)))
  let s := (List.range q.planes).foldl (fun (s : State) p => match at_ s p src, at_ s p dst with
    | some (_, a, i), some (d, b, j) =>
      let t := s.dOwner d
      (s.copyRange t own (rowPa a i false) (rowPa b j false) 128).copyRange t own (rowPa a i true) (rowPa b j true) 128
    | _, _ => s) s
  (s.unitAccs own [(q.home, q.trbase + 4 * src, 4, false), (q.home, q.trbase + 4 * dst, 4, true)]).wrBytes (q.trbase + 4 * dst)
    (s.bytes (q.trbase + 4 * src) 4)

/-- The chain hash and the prefix table over the pages that became full and committed (R437 step 4). -/
def State.commitPages (s : State) (n : Nat) (q : SeqE) (old new : Nat) : State :=
  (List.range (new / 64 - old / 64)).foldl (fun (s : State) i =>
    let k := old / 64 + i
    let tag := chainHash (s.bytes (s.seqPa n + 0x30) 16) (s.bytes (q.trbase + 256 * k) 256)
    let s := s.wr (s.seqPa n + 0x30) 16 tag
    if q.shr then (match s.mapped q 0 k with
      | some d => s.phInsert tag n q.model k d
      | none => s) else s) s

/-- KVCOMMIT (R437): b = 127 commits nothing and leaves the sequence as it is (DEDUCED, log 32). -/
def execKvcommit (h : Head) (s : State) : Out :=
  run (kvInstr h nAB (fun e => do
    let n ← seqOperand e e.a
    let q ← needSeq e n
    let b := e.b.toNat
    needField e (b ≤ 63 || b = 127)
    let path := (q.ancestors b).reverse
    let s ← getS
    let new := q.clen + path.length
    if b = 127 then answer kOK
    else if b ≥ q.tent then answer kSTATE
    else if path.any (fun k => q.link k > k) then answer kLINK
    else if s.cutWaits q (q.clen / 64 * 64) new then pure .wait
    else do
      let own := s.ownOf e
      modS (fun s =>
        let s := (path.zip (List.range path.length)).foldl (fun (s : State) (x : Nat × Nat) =>
          if x.1 = x.2 then s else s.copyPos own q (q.clen + x.1) (q.clen + x.2)) s
        let s := s.cutSeq own q new false
        let s := (q.pages (q.clen / 64 * 64) new).foldl (fun (s : State) (pk : Nat × Nat) => match s.mapped q pk.1 pk.2 with
          | some d => s.setDsc d 60 1 0
          | none => s) s
        (s.setLen n new new).commitPages n q q.clen new)
      unitAt e [(q.home, s.seqPa n, 128, true)]
      answer kOK)) s

/-! ## KVFORK (R438) -/

/-- Copy the rows below `cnt` of a page to a new page of the same fill, by the engine of the new page's owner. -/
def State.copyRows (s : State) (t : Nat) (own : Option (Nat × Nat)) (a b cnt : Nat) : State :=
  (s.copyRange t own a b (128 * cnt)).copyRange t own (rowPa a 0 true) (rowPa b 0 true) (128 * cnt)

/-- KVFORK (R438). A descriptor that the source names more than once counts once for each (DEDUCED, log 38). -/
def execKvfork (h : Head) (s : State) : Out :=
  run (kvInstr h nAB (fun e => do
    let na ← seqOperand e e.a
    let nb ← seqOperand e e.b
    let qa ← needSeq e na
    let qb ← readSeq e nb
    needField e (!qb.v || qb.fieldsOk)
    let c ← mCtx e
    let s0 ← getS
    let own := s0.ownOf e
    let full := qa.clen / 64
    let cnt := qa.clen % 64
    if !qb.v || qb.clen ≠ 0 || qb.tlen ≠ 0 || qa.model ≠ qb.model || qa.nlay ≠ qb.nlay || qa.ngrp ≠ qb.ngrp ||
        qa.dhd ≠ qb.dhd || qb.pmcap < full + (if cnt = 0 then 0 else 1) then answer kMISMATCH
    else do
      let pages := qa.pages 0 qa.clen
      let ds := pages.map (fun pk => (pk, s0.mapped qa pk.1 pk.2))
      let shared := ds.filter (fun x => x.1.2 < full)
      let copied := ds.filter (fun x => x.1.2 = full)
      if ds.any (fun x => x.2.any (fun d => s0.dState d = stEvict)) then pure .wait
      else if ds.any (fun x => x.2.isNone) || copied.any (fun x => x.2.any (fun d => s0.dState d = stAbsent)) then answer kSTATE
      else if ds.any (fun x => x.2.any s0.dTent) then answer kTENT
      else if shared.any (fun x => x.2.any (fun d => 65535 < s0.dRef d + (shared.filter (fun y => y.2 = x.2)).length)) then
        answer kREF
      else do
        let short ← reservePages e c.part nb qb (copied.map Prod.fst)
        if short > 0 then do
          modS (fun _ => s0)
          answer (stat kSHORT short)
        else do
          modS (fun s =>
            let s := shared.foldl (fun (s : State) (x : (Nat × Nat) × Option Nat) => match x.2 with
              | some d => ((s.setMap qb x.1.1 x.1.2 (some d)).setRef d (s.dRef d + 1)).unitAccs own (s.linkAccs qb x.1.1 x.1.2 d)
              | none => s) s
            let s := copied.foldl (fun (s : State) (x : (Nat × Nat) × Option Nat) =>
              match x.2.bind s.pagePlace, s.mapped qb x.1.1 x.1.2 with
              | some a, some d => (match s.pagePlace d with
                | some b => (s.copyRows (s.dOwner d) own a b cnt).setDsc d 32 7 cnt
                | none => s)
              | _, _ => s) s
            let s := s.wrBytes qb.trbase (s.bytes qa.trbase (4 * qa.clen))
            (s.wr (s.seqPa nb + 0x30) 16 qa.chash).setLen nb qa.clen qa.clen)
          unitAt e [(qb.home, qa.trbase, 4 * qa.clen, false), (qb.home, qb.trbase, 4 * qa.clen, true), (qb.home, s0.seqPa nb, 128, true)]
          answer kOK)) s

/-! ## Page places (R225, R439) -/

/-- A place that a move reads or writes must exist. -/
def needPlace (pa : Nat) : M Unit := do
  let s ← getS
  if s.paKind pa = .hole then raise (holeFault pa) else pure ()

/-- Begin a move: the page is EVICTING until PAGE_MOVE_COMPLETE. `src` is the place that it leaves. -/
def startMove (e : Env) (d target : Nat) (src dst caddr : Option Nat) (image : List Byte) : M KvR := do
  modS (fun s => { s.setDsc d 61 3 stEvict with moves := s.moves ++ [⟨d, target, src, dst, caddr, { s.who e with idx := e.idx }, image⟩] })
  unitAt e [((← getS).dOwner d, d, 32, true)]
  pure .moving

/-- The descriptor of the key's page in a settled state, given to a command on places. -/
def onPage (e : Env) (f : Nat → State → M KvR) : M KvR := do
  let x ← pageKey e e.a
  let s ← getS
  match ← keyDesc x with
  | none => answer kSTATE
  | some d => if s.dState d = stEvict then pure .wait else f d s

def execKvevictHbm (h : Head) (s : State) : Out :=
  run (kvInstr h nA (fun e => onPage e (fun d s => do
    if s.dPin d then answer kPINNED
    else if s.dTent d then answer kTENT
    else if s.dState d ≠ stRes then answer kSTATE
    else do
      needPlace (s.dHaddr d)
      startMove e d stWarm (some (s.dSlotPa d)) (some (s.dHaddr d)) none []))) s

def execKvevictCold (h : Head) (s : State) : Out :=
  run (kvInstr h nA (fun e => onPage e (fun d s => do
    if s.dPin d then answer kPINNED
    else if s.dTent d then answer kTENT
    else if s.dState d ≠ stRes && s.dState d ≠ stWarm then answer kSTATE
    else match s.stackTake (s.cfgWord 4) with
      | none => answer kEMPTY
      | some (a, t) => do
        let src := if s.dState d = stRes then s.dSlotPa d else s.dHaddr d
        needPlace src
        needPlace a
        modS (fun _ => t)
        startMove e d stCold (some src) (some a) none []))) s

def execKvevictDrop (h : Head) (s : State) : Out :=
  run (kvInstr h nA (fun e => onPage e (fun d s => do
    if s.dPin d then answer kPINNED
    else if s.dTent d then answer kTENT
    else if s.dState d ≠ stRes && s.dState d ≠ stWarm && s.dState d ≠ stCold then answer kSTATE
    else startMove e d stAbsent (s.pagePlace d) none (if s.dState d = stCold then some (s.dCaddr d) else none) []))) s

def execKvevictRel (h : Head) (s : State) : Out := run (kvInstr h nA unlink) s

def pinPage (v : Nat) (e : Env) : M KvR :=
  onPage e (fun d s => do
    if s.dState d = stFree then answer kSTATE
    else do
      modS (fun s => s.setDsc d 58 1 v)
      unitAt e [(s.dOwner d, d, 32, true)]
      answer kOK)

def execKvpin (h : Head) (s : State) : Out := run (kvInstr h nA (pinPage 1)) s
def execKvpinClr (h : Head) (s : State) : Out := run (kvInstr h nA (pinPage 0)) s

/-- A fault of KVREFILL's source in a hole names the virtual address (R439); every other is an engine read's. -/
def execKvrefill (h : Head) (s : State) : Out :=
  run (kvInstr h nAB (fun e => onPage e (fun d s => do
    let dst := if s.dSlotv d then s.dSlotPa d else s.dHaddr d
    let target := if s.dSlotv d then stRes else stWarm
    if s.dState d = stAbsent && e.b ≠ 0 then do
      let img ← inBytes e e.b 16384 64
      needPlace dst
      startMove e d target none (some dst) none img
    else if s.dState d = stCold && e.b = 0 then do
      needPlace (s.dCaddr d)
      needPlace dst
      startMove e d target (some (s.dCaddr d)) (some dst) (some (s.dCaddr d)) []
    else if s.dState d = stWarm && s.dSlotv d && e.b = 0 then do
      needPlace (s.dHaddr d)
      startMove e d target (some (s.dHaddr d)) (some dst) none []
    else answer kSTATE))) s

/-! ## PHASH (R440) -/

/-- Probe for a chain hash: the sequence and page of a hit; a trailer that differs is counted. A page found FREE is a miss (R230);
so is one whose map entry is invalid, which names no descriptor to look at again (DEDUCED, log 39). -/
def State.probe (s : State) (tag model : Nat) (ids : List Byte) : Option (Nat × Nat) × State :=
  match s.phFind tag model with
  | none => (none, s)
  | some i =>
    let (_, sq, _, _, page) := s.phEntry i
    let q := s.seq sq
    if s.bytes (q.trbase + 256 * page) 256 ≠ ids then (none, { s with pfxcoll := s.pfxcoll + 1 })
    else match s.mapped q 0 page with
      | some d => if s.dState d = stFree then (none, s) else (some (sq, page), s)
      | none => (none, s)

def phash (look : Bool) (e : Env) : M KvR := do
  let b ← inBytes e e.a 288 8
  needAlign e.b 8
  needField e (nAt b 0x11 15 = 0)
  let ids := b.drop 0x20
  let tag := chainHash (b.take 16) ids
  let s ← getS
  let (hit, s) := if look then s.probe tag (nAt b 16 1) ids else (none, s)
  modS (fun _ => s)
  outBytes e e.b (leBytes 16 tag ++ (match hit with
    | some (sq, page) => leBytes 4 sq ++ leBytes 4 page
    | none => List.replicate 8 0) ++ List.replicate 8 0)
  answer (if look && hit.isNone then kMISS else kOK)

def execPhashH (h : Head) (s : State) : Out := run (kvInstr h nAB (phash false)) s
def execPhashL (h : Head) (s : State) : Out := run (kvInstr h nAB (phash true)) s

/-! ## Summaries and selection (R231, R441, R442) -/

/-- The lower or upper bound of a dimension, widened with a key element. -/
def widen (hi : Bool) (old : Nat) (x : FV) : Nat :=
  if x.isNan then (if hi then 0x7F80 else 0xFF80)
  else
    let v := (bf16.pack (if hi then .rup else .rdn) x.toEx).1
    (bf16.minmax hi old v).1

def execSumupd (h : Head) (s : State) : Out :=
  run (kvInstr h nAB (fun e => do
    let b := e.b.toNat
    let j0 := bitsOf b 0 6
    let n := bitsOf b 8 6 + 1
    let tag := bitsOf b 16 4
    let x ← pageKey e e.a
    needField e (bitsOf b 6 2 = 0 && bitsOf b 14 2 = 0 && b / 2 ^ 20 = 0 && 2 ≤ tag && tag ≤ 5)
    let s ← getS
    match ← keyDesc x with
    | none => answer kSTATE
    | some d =>
      if s.dState d = stEvict then pure .wait
      else match s.pagePlace d, tagFmt tag with
        | some place, some f =>
          if s.dState d = stCold || j0 + n > s.dFill d || s.dSum d = 0 then answer kSTATE
          else match s.poisonAt (rowPa place j0 false) (128 * n) with
            | some f => raise f
            | none => do
            let dim := 32 * x.q.dhd
            let size := tagBytes tag
            let sum := s.dSum d
            unitAt e [(e.tile, rowPa place j0 false, 128 * n, false), (e.tile, sum, 4 * dim, false), (e.tile, sum, 4 * dim, true)]
            modS (fun s => (List.range dim).foldl (fun (s : State) c =>
              let keys := (List.range n).map (fun j => f.dec (s.rd (rowPa place (j0 + j) false + size * c) size))
              let lo := keys.foldl (widen false) (s.rd (sum + 2 * c) 2)
              let hi := keys.foldl (widen true) (s.rd (sum + 2 * dim + 2 * c) 2)
              (s.wr (sum + 2 * c) 2 lo).wr (sum + 2 * dim + 2 * c) 2 hi) s)
            answer kOK
        | _, _ => answer kSTATE)) s

/-- The larger of two products with a summary's bounds (R442): zero where q is 0 or a product is 0 x infinity. -/
def psTerm (q lo hi : FV) : FV :=
  if q.isNan then q
  else
    let m := fun (x : FV) => (match mulEx q x with
      | .invalid => FV.fin false 0 0
      | y => y.toFV)
    if cmpV false (m lo) (m hi) ≥ 0 then m lo else m hi

/-- The bound of a page: +infinity beats -infinity. -/
def psBound (ts : List FV) : Nat :=
  if ts.any FV.isNan then fp32.nan
  else if ts.contains (.inf false) then fp32.infBits
  else if ts.contains (.inf true) then fp32.signBit true + fp32.infBits
  else (fp32.pack .rup (sumFin false (ts.filterMap (fun t => match t with
    | .fin s m e => some (s, m, e)
    | _ => none)))).1

/-- A ranks above B (R355). -/
def psBeats (a b : Nat × Nat) : Bool :=
  let v := fun (x : Nat) => if (fp32.dec x).isNan then FV.inf true else fp32.dec x
  let c := cmpV false (v a.1) (v b.1)
  c > 0 || (c = 0 && a.2 < b.2)

def psInsert (x : Nat × Nat) : List (Nat × Nat) → List (Nat × Nat)
  | [] => [x]
  | y :: r => if psBeats x y then x :: y :: r else y :: psInsert x r

/-- A summary entry as its reset values leave it, for `dim` dimensions: every minimum +infinity, every maximum -infinity (R231).
No unit makes an entry: the software that writes SUMADDR puts these values there (log 82). -/
def sumReset (dim : Nat) : List Byte := (List.replicate dim (leBytes 2 0x7F80) ++ List.replicate dim (leBytes 2 0xFF80)).flatten

/-- The bound of page `i` of a list, or none for a page that is no candidate. -/
def State.psPage (s : State) (q : List FV) (d : Nat) : Option Nat :=
  let dim := q.length
  if s.dSum d = 0 then some fp32.infBits
  else
    let lo := (List.range dim).map (fun c => bf16.dec (s.rd (s.dSum d + 2 * c) 2))
    let hi := (List.range dim).map (fun c => bf16.dec (s.rd (s.dSum d + 2 * dim + 2 * c) 2))
    if (lo.zip hi).all (fun x => cmpV false x.1 x.2 > 0) then none
    else some (psBound ((q.zip (lo.zip hi)).map (fun x => psTerm x.1 x.2.1 x.2.2)))

def execPsel (h : Head) (s : State) : Out :=
  run (kvInstr h nA (fun e => do
    let b ← inBytes e e.a 32 8
    let w := nAt b 0 8
    let n := bitsOf w 0 16
    let k := bitsOf w 16 8
    let dhd := bitsOf w 28 4
    needField e (1 ≤ n && n ≤ 1024 && 1 ≤ k && k ≤ 64 && 2 ≤ bitsOf w 24 4 && bitsOf w 24 4 ≤ 3 && 1 ≤ dhd && dhd ≤ 8 &&
      w / 2 ^ 32 = 0)
    let f := if bitsOf w 24 4 = 2 then bf16 else fp16
    let qb ← inBytes e (w64 (nAt b 8 8)) (64 * dhd) 2
    let lb ← inBytes e (w64 (nAt b 16 8)) (8 * n) 8
    needAlign (w64 (nAt b 24 8)) 8
    let q := (List.range (32 * dhd)).map (fun c => f.dec (nAt qb (2 * c) 2))
    let s ← getS
    unitAt e ((List.range n).flatMap (fun i =>
      let d := nAt lb (8 * i) 8
      (e.tile, d, 32, false) :: (if s.dSum d = 0 then [] else [(e.tile, s.dSum d, 128 * dhd, false)])))
    let cand := (List.range n).filterMap (fun i => (s.psPage q (nAt lb (8 * i) 8)).map (fun x => (x, i)))
    let best := (cand.foldl (fun l x => psInsert x l) []).take k
    outBytes e (w64 (nAt b 24 8)) (best.flatMap (fun x => leBytes 8 (x.1 * 2 ^ 32 + x.2)))
    answer (w64 (best.length * 256)))) s

/-! ## GCHAIN (R443) -/

/-- The words of one transfer record. -/
def gRecord (base src dst next desc : Nat) : List Byte :=
  [base, src, dst, 2 ^ 32 + 16384, 0, next, 0, desc].flatMap (leBytes 8)

def execGchain (h : Head) (s : State) : Out :=
  run (kvInstr h nA (fun e => do
    let b ← inBytes e e.a 48 8
    let w := nAt b 0 8
    let m := bitsOf w 0 16
    needField e (1 ≤ m && m ≤ 1024 && bitsOf w 23 9 = 0 && w / 2 ^ 42 = 0)
    let sel ← inBytes e (w64 (nAt b 8 8)) (8 * m) 8
    let recs := nAt b 24 8
    needAlign (w64 recs) 64
    let dst := nAt b 32 8
    let kvva := nAt b 40 8
    let ds ← (List.range m).mapM (fun i => do
      pure (nAt (← inBytes e (w64 (nAt b 16 8 + 8 * nAt sel (8 * i) 4)) 8 8) 0 8))
    let s ← getS
    unitAt e (ds.map (fun d => (e.tile, d, 32, false)))
    let l := ds.filterMap (fun d => (s.pagePlace d).map (fun pa => (d, pa)))
    let ctl := 2 ^ 63 + bitsOf w 16 1 * 2 ^ 41 + bitsOf w 17 6 * 2 ^ 35 + bitsOf w 32 10 * 2 ^ 25
    for i in List.range l.length do
      let x := l.getD i (0, 0)
      let next := if i + 1 < l.length then (recs + 64 * (i + 1)) % 2 ^ 64 else 0
      outBytes e (w64 (recs + 64 * i)) (gRecord ctl ((kvva + x.2) % 2 ^ 64) ((dst + 16384 * i) % 2 ^ 64) next x.1)
    answer (w64 (l.length * 256 + (m - l.length) * 2 ^ 24)))) s

end Sys2Proof.Machine
end

