-- ==== Sys2Proof/Machine/Tree.lean ====
section
/-! DEFINITION. Group TREE, the Tourbillon (R234-R237, R444-R449). -/

namespace Sys2Proof.Machine

/-! ## Pools and nodes (R234, R235) -/

def treeRead (e : Env) (va : W64) (n : Nat) : M (List Byte) := do
  let c ← mCtx e
  readU e.tile c.part (useTree c.sup false) .engine va n
def treeWrite (e : Env) (va : W64) (bs : List Byte) : M Unit := do
  let c ← mCtx e
  writeF e.tile c.part (useTree c.sup true) .engine va bs

/-- A pool header. -/
structure Pool where
  va : W64
  cap : Nat
  free0 : Nat
  free1 : Nat
  root : Nat
  cpuct : Nat
  vlv : Nat
  qinit : Nat
  act : Bool
  sflip : Bool
  infl : Nat
  deriving DecidableEq, Repr

/-- Read and check a header (R444). -/
def poolOf (e : Env) (va : W64) : M Pool := do
  needAlign va 64
  let b ← treeRead e va 64
  let hfl := nAt b 0x1C 4
  let cap := nAt b 0 4
  needField e (1 ≤ cap && cap ≤ 2 ^ 30 && hfl / 4 = 0 && nAt b 0x24 28 = 0)
  pure { va := va, cap := cap, free0 := nAt b 4 4, free1 := nAt b 8 4, root := nAt b 12 4, cpuct := nAt b 16 4, vlv := nAt b 20 4,
         qinit := nAt b 24 4, act := bitOf hfl 0, sflip := bitOf hfl 1, infl := nAt b 0x20 4 }

def Pool.first (p : Pool) (half : Bool) : Nat := if half then p.cap + 2 else 2
def Pool.last (p : Pool) (half : Bool) : Nat := if half then 2 * p.cap + 1 else p.cap + 1
def Pool.free (p : Pool) : Nat := if p.act then p.free1 else p.free0
def Pool.node (p : Pool) (i : Nat) : W64 := p.va + w64 (32 * i)

/-- A node. -/
structure TNode where
  n : Nat
  w : Nat
  p : Nat
  vl : Nat
  first : Nat
  nch : Nat
  flags : Nat
  parent : Nat
  act : Nat
  aux : Nat
  deriving DecidableEq, Repr

def TNode.ofBytes (b : List Byte) : TNode :=
  ⟨nAt b 0 4, nAt b 4 4, nAt b 8 2, nAt b 10 2, nAt b 12 4, nAt b 16 2, nAt b 18 2, nAt b 20 4, nAt b 24 4, nAt b 28 4⟩
def TNode.bytes (x : TNode) : List Byte :=
  leBytes 4 x.n ++ leBytes 4 x.w ++ leBytes 2 x.p ++ leBytes 2 x.vl ++ leBytes 4 x.first ++ leBytes 2 x.nch ++
  leBytes 2 x.flags ++ leBytes 4 x.parent ++ leBytes 4 x.act ++ leBytes 4 x.aux
def TNode.exp (x : TNode) : Bool := bitOf x.flags 0
def TNode.term (x : TNode) : Bool := bitOf x.flags 1

def nodeRead (e : Env) (p : Pool) (i : Nat) : M TNode := do pure (TNode.ofBytes (← treeRead e (p.node i) 32))
def nodeWrite (e : Env) (p : Pool) (i : Nat) (x : TNode) : M Unit := treeWrite e (p.node i) x.bytes
/-- A 4-byte field of the header. -/
def hdrWrite (e : Env) (p : Pool) (off v : Nat) : M Unit := treeWrite e (p.va + w64 off) (leBytes 4 v)

/-! ## Scores (R446) -/

def floatRN (n : Nat) : Nat := (fp32.ofInt .rne n).1

/-- q of a child. -/
def Pool.q (p : Pool) (x : TNode) : Nat :=
  if x.n + x.vl = 0 then p.qinit
  else (fp32.div .rne (fp32.sub .rne x.w (fp32.mul .rne (floatRN x.vl) p.vlv).1).1 (floatRN (x.n + x.vl))).1

/-- u of a child under parent counts. -/
def Pool.u (p : Pool) (parent x : TNode) : Nat :=
  (fp32.div .rne
    (fp32.mul .rne (fp32.mul .rne p.cpuct (x.p * 2 ^ 16)).1 (fp32.sqrt .rne (floatRN (parent.n + parent.vl))).1).1
    (floatRN (1 + x.n + x.vl))).1

/-- A score with NaN as minus infinity. -/
def noNan (v : Nat) : FV := if (fp32.dec v).isNan then .inf true else fp32.dec v

/-- The index of the best score, ties to the lowest. -/
def bestOf : List (Nat × FV) → Option (Nat × FV)
  | [] => none
  | x :: r => some (r.foldl (fun b y => if cmpV false y.2 b.2 > 0 then y else b) x)

/-- Children of a node with their contents. -/
def childrenOf (e : Env) (p : Pool) (x : TNode) : M (List (Nat × TNode)) :=
  (List.range x.nch).mapM (fun j => do pure (x.first + j, ← nodeRead e p (x.first + j)))

/-! ## The commands -/

/-- Where a pool's header is, by an address of a partition; the header's own unit counts the commands on the pool (R444). -/
def State.poolPa (s : State) (t part : Nat) (va : W64) : Option Nat :=
  match (s.translateNow t part va (useTree true false)).1 with
  | .ok tr => some tr.pa
  | .error _ => none

/-- Is a command on the pool in flight (R237, R444): a TSBATCH of any partition whose record, which begins with the pool's
address, waits for room in its channel? Every other command has its whole effect in one step. -/
def State.poolBusy (s : State) (t part : Nat) (p : Pool) : Bool :=
  p.infl ≠ 0 || s.waits.any (fun w => match w.k with
    | .push _ 2 data _ => (s.poolPa t part p.va).isSome &&
        s.poolPa (w.key / 16) (s.ctx w.key).part (w64 (leNat (data.take 8))) = s.poolPa t part p.va
    | _ => false)

/-- TSINIT (R445). It is no half switch for R237, also when ACT was 1: the nodes of the half it leaves keep their bytes (DEDUCED,
log 40). -/
def execTsinit (h : Head) (s : State) : Out :=
  run (kvInstr h nAB (fun e => do
    let p ← poolOf e e.a
    let s ← getS
    if s.poolBusy e.tile (s.ctx e.key).part p then answer kBUSY
    else do
      hdrWrite e p 4 3
      hdrWrite e p 8 (p.cap + 2)
      hdrWrite e p 12 2
      hdrWrite e p 0x1C (if p.sflip then 2 else 0)
      hdrWrite e p 0x20 0
      nodeWrite e p 2 ⟨0, 0, 0x3F80, 0, 0, 0, 8, 0, e.b.toNat % 2 ^ 32, 0⟩
      answer kOK)) s

/-- Enter a node: read it, raise its VL; none when VL is at its bound. -/
def enter (e : Env) (p : Pool) (i : Nat) : M (Option TNode) := do
  let x ← nodeRead e p i
  if x.vl = 65535 then pure none
  else do
    nodeWrite e p i { x with vl := x.vl + 1 }
    pure (some x)

/-- Descend from a node just entered: the path in order, with the leaf's contents; none when an Enter was refused. -/
def descend (e : Env) (p : Pool) : Nat → Nat → TNode → M (Option (List Nat × TNode))
  | 0, i, x => pure (some ([i], x))
  | k + 1, i, x => do
    if x.exp && !x.term && x.nch > 0 then do
      let cs ← childrenOf e p x
      match bestOf (cs.map (fun c => (c.1, noNan (fp32.add .rne (p.q c.2) (p.u x c.2)).1))) with
      | none => pure (some ([i], x))
      | some (j, _) => do
        match ← enter e p j with
        | none => pure none
        | some y => do
          match ← descend e p k j y with
          | none => pure none
          | some (l, leaf) => pure (some (i :: l, leaf))
    else pure (some ([i], x))

/-- TSDESC (R446). -/
def execTsdesc (h : Head) (s : State) : Out :=
  run (kvInstr h nA (fun e => do
    let s0 ← getS
    let p ← poolOf e e.a
    let r ← (do
      match ← enter e p p.root with
      | none => pure none
      | some x => descend e p 63 p.root x)
    match r with
    | none => do
      modS (fun _ => s0)
      answer kBUSY
    | some (path, leaf) => do
      hdrWrite e p 0x20 (p.infl + 1)
      modS (fun s => s.updCtx e.key (fun c => { c with
        pbpool := e.a
        pblen := path.length
        pbnode := (path.zip (List.range path.length)).foldl (fun (m : Map Nat) x => m.put x.2 x.1) c.pbnode }))
      answer (w64 (path.getLastD 0 * 2 ^ 8 + path.length * 2 ^ 40 + leaf.flags % 16 * 2 ^ 48)))) s

/-- TSEXP (R447). -/
def execTsexp (h : Head) (flag : Bool) (s : State) : Out :=
  run (kvInstr h nA (fun e => do
    let c ← mCtx e
    needField e (c.pblen ≠ 0)
    let n := nAt (← inBytes e e.a 8 8) 0 8
    needField e (n / 2 ^ 16 = 0)
    let b ← inBytes e (e.a + 8) (8 * n) 8
    needField e ((List.range n).all (fun i => nAt b (8 * i + 2) 2 = 0))
    let p ← poolOf e c.pbpool
    let li := c.pbnode.getD 0 (c.pblen - 1)
    let leaf ← nodeRead e p li
    if leaf.exp then answer kEXP
    else if n = 0 then do
      nodeWrite e p li { leaf with flags := Nat.lor leaf.flags 3 }
      answer kOK
    else if p.free + n > p.last p.act + 1 then
      (if flag then raise { code := .treePoolEmpty, addr := p.va, extra := w64 p.act.toNat } else answer kPOOL)
    else do
      hdrWrite e p (if p.act then 8 else 4) (p.free + n)
      for i in List.range n do
        nodeWrite e p (p.free + i) ⟨0, 0, nAt b (8 * i) 2, 0, 0, 0, 0, li, nAt b (8 * i + 4) 4, 0⟩
      nodeWrite e p li { leaf with first := p.free, nch := n, flags := setBits (Nat.lor leaf.flags 1) 2 1 0 }
      answer kOK)) s

/-- Back up along a path, leaf first (R448): v, or none when only the virtual loss is withdrawn. -/
def backup (e : Env) (p : Pool) (path : List Nat) (v : Option Nat) : M Unit := do
  for x in path.reverse.zip (List.range path.length) do
    let nd ← nodeRead e p x.1
    let nd := match v with
      | none => nd
      | some v =>
        let vi := if p.sflip && x.2 % 2 = 1 then Nat.xor v (2 ^ 31) else v
        { nd with n := min (nd.n + 1) (2 ^ 32 - 1), w := (fp32.add .rne nd.w vi).1 }
    nodeWrite e p x.1 { nd with vl := nd.vl - 1 }
  hdrWrite e p 0x20 (p.infl - 1)

/-- Clear the PEND of a path's leaf. -/
def clearPend (e : Env) (p : Pool) (path : List Nat) : M Unit := do
  let i := path.getLastD 0
  let x ← nodeRead e p i
  nodeWrite e p i { x with flags := setBits x.flags 2 1 0 }

/-- The path buffer as a list (R83). -/
def Ctx.path (c : Ctx) : List Nat := (List.range c.pblen).map (fun i => c.pbnode.getD 0 i)

/-- An evaluation record: pool, path, value (R448). -/
def evalRecord (e : Env) : M (W64 × List Nat × Nat) := do
  let b ← inBytes e e.a 288 8
  let n := nAt b 8 1 % 128
  needField e (n ≤ 64)
  pure (w64 (nAt b 0 8), (List.range n).map (fun i => nAt b (0x20 + 4 * i) 4), nAt b 0x10 4)

def usePath (key : Nat) : M Unit := modS (fun s => s.updCtx key (fun c => { c with pblen := 0 }))

/-- TSBATCH (R448): the path entries at and above PBLEN are undefined (R83). -/
def execTsbatch (h : Head) (s : State) : Out :=
  run (fun s => fireM h nAB (fun e => do
    let c ← mCtx e
    needField e (c.pblen ≠ 0)
    let k ← chanLocate e e.a
    let rcd := leBytes 8 c.pbpool.toNat ++ leBytes 8 c.pblen ++ leBytes 8 0 ++ leBytes 8 e.b.toNat ++
      (c.path.take 64).flatMap (leBytes 4)
    match ← chanPush e k 2 e.a (fun z => z = 288) (rcd ++ (← drawM (288 - rcd.length))) with
    | .done st => modS (fun s => s.batchDone e.key e.idx st)
    | .wait => pure ()) s hold15) s

/-- TSEVAL (R448). -/
def execTseval (h : Head) (s : State) : Out :=
  run (kvInstr h nA (fun e => do
    let (pool, path, v) ← evalRecord e
    if path = [] then answer kSTATE
    else do
      let p ← poolOf e pool
      backup e p path (some v)
      clearPend e p path
      answer kOK)) s

/-- TSBACK (R448). -/
def execTsback (h : Head) (s : State) : Out :=
  run (kvInstr h nA (fun e => do
    needField e (e.a.toNat / 2 ^ 32 = 0)
    let c ← mCtx e
    if c.pblen = 0 then answer kSTATE
    else do
      let p ← poolOf e c.pbpool
      backup e p c.path (some e.a.toNat)
      usePath e.key
      answer kOK)) s

/-- TSVL and TSVL.R (R448). -/
def execTsvl (h : Head) (flag : Bool) (s : State) : Out :=
  run (kvInstr h { a := flag } (fun e => do
    let c ← mCtx e
    let (pool, path) ← (if flag then do
        let (pool, path, _) ← evalRecord e
        pure (pool, path)
      else pure (c.pbpool, c.path))
    if path = [] then answer kSTATE
    else do
      let p ← poolOf e pool
      backup e p path none
      if flag then clearPend e p path else usePath e.key
      answer kOK)) s

/-- Copy a subtree breadth first (R445): the queue holds old index, new index and new parent; the answer is the next free
index, none when the half would not hold it. -/
def copyTree (e : Env) (p : Pool) (base : Nat) : Nat → List (Nat × Nat × Nat) → Nat → M (Option Nat)
  | 0, q, next => pure (if q.isEmpty then some next else none)
  | _, [], next => pure (some next)
  | k + 1, (o, n, par) :: q, next => do
    let x ← nodeRead e p o
    if next + x.nch > base + p.cap then pure none
    else do
      nodeWrite e p n { x with first := if x.nch = 0 then 0 else next, parent := par,
                               flags := if n = base then Nat.lor x.flags 8 else x.flags }
      copyTree e p base k (q ++ (List.range x.nch).map (fun j => (x.first + j, next + j, n))) (next + x.nch)

/-- The nodes of a half become undefined: nothing is written for it. -/
def undefHalf (e : Env) (p : Pool) (first : Nat) : M Unit := do
  let c ← mCtx e
  for i in List.range p.cap do
    modS (fun s => match s.translateNow e.tile c.part (p.node (first + i)) (useTree c.sup true) with
      | (.ok tr, s) => s.undefBytes tr.pa 32
      | (.error _, s) => s)

/-- TSREROOT (R445); once the half has switched, what the old one holds is undefined (R237). -/
def execTsreroot (h : Head) (s : State) : Out :=
  run (kvInstr h nAB (fun e => do
    let p ← poolOf e e.a
    let b := e.b.toNat
    needField e (p.first p.act ≤ b && b ≤ p.last p.act)
    let s ← getS
    if s.poolBusy e.tile (s.ctx e.key).part p then answer kBUSY
    else do
      let base := p.first (!p.act)
      match ← copyTree e p base p.cap [(b, base, 0)] (base + 1) with
      | none => do
        undefHalf e p base
        answer kPOOL
      | some next => do
        hdrWrite e p (if p.act then 4 else 8) next
        hdrWrite e p (if p.act then 8 else 4) (p.first p.act)
        hdrWrite e p 12 base
        hdrWrite e p 0x1C ((!p.act).toNat + p.sflip.toNat * 2)
        undefHalf e p (p.first p.act)
        answer (w64 ((next - base) * 256)))) s

/-- The root's child with the best score of a kind (R449). -/
def tsBest (score : Pool → TNode → FV) (e : Env) : M KvR := do
  let p ← poolOf e e.a
  let x ← nodeRead e p p.root
  if !x.exp || x.nch = 0 then answer kSTATE
  else do
    let cs ← childrenOf e p x
    match bestOf (cs.map (fun c => (c.1, score p c.2))) with
    | some (i, _) => answer (w64 (i * 256))
    | none => answer kSTATE

def execTsbestN (h : Head) (s : State) : Out := run (kvInstr h nA (tsBest (fun _ x => .fin false x.n 0))) s
def execTsbestQ (h : Head) (s : State) : Out := run (kvInstr h nA (tsBest (fun p x => noNan (p.q x)))) s

/-- TSSTAT (R449). -/
def execTsstat (h : Head) (item : BitVec 3) (s : State) : Out :=
  run (kvInstr h nA (fun e => do
    let p ← poolOf e e.a
    answer (w64 (match item.toNat with
      | 0 => p.last p.act + 1 - p.free
      | 1 => p.infl
      | 2 => p.root
      | _ => p.act.toNat)))) s

end Sys2Proof.Machine
end

