-- ==== Sys2Proof/Machine/Dispatch.lean ====
section
/-! DEFINITION. One arm for each constructor of Instr: a direct call of its meaning. -/

namespace Sys2Proof.Machine

def exec (i : Instr) (s : State) : Host.Outcome State Fault Refusal :=
  match i with
  | .nop h => Sys2Proof.Machine.execNop h s
  | .get h r => Sys2Proof.Machine.execGet h r s
  | .put h r => Sys2Proof.Machine.execPut h r s
  | .const_ h imm => Sys2Proof.Machine.execConst h imm s
  | .movi h imm => Sys2Proof.Machine.execMovi h imm s
  | .mov h => Sys2Proof.Machine.execMov h s
  | .null_ h r => Sys2Proof.Machine.execNull h r s
  | .csrr h num => Sys2Proof.Machine.execCsrr h num s
  | .csrw h num => Sys2Proof.Machine.execCsrw h num s
  | .csrs h num => Sys2Proof.Machine.execCsrs h num s
  | .csrc h num => Sys2Proof.Machine.execCsrc h num s
  | .add h w => Sys2Proof.Machine.execAdd h w s
  | .addi h w imm => Sys2Proof.Machine.execAddi h w imm s
  | .sub h w => Sys2Proof.Machine.execSub h w s
  | .mul h w => Sys2Proof.Machine.execMul h w s
  | .mulh h w => Sys2Proof.Machine.execMulh h w s
  | .mulhu h w => Sys2Proof.Machine.execMulhu h w s
  | .div h w => Sys2Proof.Machine.execDiv h w s
  | .divu h w => Sys2Proof.Machine.execDivu h w s
  | .rem h w => Sys2Proof.Machine.execRem h w s
  | .remu h w => Sys2Proof.Machine.execRemu h w s
  | .neg h w => Sys2Proof.Machine.execNeg h w s
  | .abs_ h w => Sys2Proof.Machine.execAbs h w s
  | .min h w => Sys2Proof.Machine.execMin h w s
  | .max h w => Sys2Proof.Machine.execMax h w s
  | .minu h w => Sys2Proof.Machine.execMinu h w s
  | .maxu h w => Sys2Proof.Machine.execMaxu h w s
  | .adds h w => Sys2Proof.Machine.execAdds h w s
  | .subs h w => Sys2Proof.Machine.execSubs h w s
  | .and_ h w => Sys2Proof.Machine.execAnd h w s
  | .andi h w imm => Sys2Proof.Machine.execAndi h w imm s
  | .or_ h w => Sys2Proof.Machine.execOr h w s
  | .ori h w imm => Sys2Proof.Machine.execOri h w imm s
  | .xor h w => Sys2Proof.Machine.execXor h w s
  | .xori h w imm => Sys2Proof.Machine.execXori h w imm s
  | .not_ h w => Sys2Proof.Machine.execNot h w s
  | .shl h w => Sys2Proof.Machine.execShl h w s
  | .shli h w k => Sys2Proof.Machine.execShli h w k s
  | .shr h w => Sys2Proof.Machine.execShr h w s
  | .shri h w k => Sys2Proof.Machine.execShri h w k s
  | .sar h w => Sys2Proof.Machine.execSar h w s
  | .sari h w k => Sys2Proof.Machine.execSari h w k s
  | .rotl h w => Sys2Proof.Machine.execRotl h w s
  | .clz h w => Sys2Proof.Machine.execClz h w s
  | .ctz h w => Sys2Proof.Machine.execCtz h w s
  | .popc h w => Sys2Proof.Machine.execPopc h w s
  | .bext h w lo len => Sys2Proof.Machine.execBext h w lo len s
  | .bins h w lo len => Sys2Proof.Machine.execBins h w lo len s
  | .sext h w k => Sys2Proof.Machine.execSext h w k s
  | .zext h w k => Sys2Proof.Machine.execZext h w k s
  | .cmp h w cond => Sys2Proof.Machine.execCmp h w cond s
  | .cmpi h w cond imm => Sys2Proof.Machine.execCmpi h w cond imm s
  | .sel h => Sys2Proof.Machine.execSel h s
  | .pand h => Sys2Proof.Machine.execPand h s
  | .por h => Sys2Proof.Machine.execPor h s
  | .pnot h => Sys2Proof.Machine.execPnot h s
  | .lea h w imm => Sys2Proof.Machine.execLea h w imm s
  | .tmapx h n => Sys2Proof.Machine.execTmapx h n s
  | .widf h fld => Sys2Proof.Machine.execWidf h fld s
  | .widl h => Sys2Proof.Machine.execWidl h s
  | .alignup h w k => Sys2Proof.Machine.execAlignup h w k s
  | .modadd h => Sys2Proof.Machine.execModadd h s
  | .br h x ofs => Sys2Proof.Machine.execBr h x ofs s
  | .brr h x => Sys2Proof.Machine.execBrr h x s
  | .call h x ofs => Sys2Proof.Machine.execCall h x ofs s
  | .callr h x => Sys2Proof.Machine.execCallr h x s
  | .ret_ h x => Sys2Proof.Machine.execRet h x s
  | .switch h x => Sys2Proof.Machine.execSwitch h x s
  | .trap h imm => Sys2Proof.Machine.execTrap h imm s
  | .svc h imm => Sys2Proof.Machine.execSvc h imm s
  | .eret h x => Sys2Proof.Machine.execEret h x s
  | .halt h x => Sys2Proof.Machine.execHalt h x s
  | .yield h => Sys2Proof.Machine.execYield h s
  | .waitev h => Sys2Proof.Machine.execWaitev h s
  | .cfgld h => Sys2Proof.Machine.execCfgld h s
  | .reconf h => Sys2Proof.Machine.execReconf h s
  | .ctxsave h => Sys2Proof.Machine.execCtxsave h s
  | .ctxrest h => Sys2Proof.Machine.execCtxrest h s
  | .tlbinvPage h => Sys2Proof.Machine.execTlbinvPage h s
  | .tlbinvAsn h => Sys2Proof.Machine.execTlbinvAsn h s
  | .tlbinvAll h => Sys2Proof.Machine.execTlbinvAll h s
  | .ld h m => Sys2Proof.Machine.execLd h m s
  | .st h m => Sys2Proof.Machine.execSt h m s
  | .ldf h m => Sys2Proof.Machine.execLdf h m s
  | .ldff h m => Sys2Proof.Machine.execLdff h m s
  | .ste h m => Sys2Proof.Machine.execSte h m s
  | .tagset h m => Sys2Proof.Machine.execTagset h m s
  | .tagclr h m => Sys2Proof.Machine.execTagclr h m s
  | .tagq h m => Sys2Proof.Machine.execTagq h m s
  | .pref h m => Sys2Proof.Machine.execPref h m s
  | .flush h m => Sys2Proof.Machine.execFlush h m s
  | .inval h m => Sys2Proof.Machine.execInval h m s
  | .amo h m => Sys2Proof.Machine.execAmo h m s
  | .cas h m => Sys2Proof.Machine.execCas h m s
  | .amof h m => Sys2Proof.Machine.execAmof h m s
  | .red h m => Sys2Proof.Machine.execRed h m s
  | .redf h m => Sys2Proof.Machine.execRedf h m s
  | .fence h mask scope => Sys2Proof.Machine.execFence h mask scope s
  | .drain h path => Sys2Proof.Machine.execDrain h path s
  | .xcopy h f => Sys2Proof.Machine.execXcopy h f s
  | .xchain h ch => Sys2Proof.Machine.execXchain h ch s
  | .xstat h ch => Sys2Proof.Machine.execXstat h ch s
  | .tmapset h n => Sys2Proof.Machine.execTmapset h n s
  | .sbindMap h port mapn e => Sys2Proof.Machine.execSbindMap h port mapn e s
  | .sbindChannel h port => Sys2Proof.Machine.execSbindChannel h port s
  | .seos h ch => Sys2Proof.Machine.execSeos h ch s
  | .sbar h port v bnum => Sys2Proof.Machine.execSbar h port v bnum s
  | .mma h ch flag => Sys2Proof.Machine.execMma h ch flag s
  | .mmas h ch flag => Sys2Proof.Machine.execMmas h ch flag s
  | .mqk h ch => Sys2Proof.Machine.execMqk h ch s
  | .mpv h ch => Sys2Proof.Machine.execMpv h ch s
  | .mscan h ch flag => Sys2Proof.Machine.execMscan h ch flag s
  | .mzero h ch flag => Sys2Proof.Machine.execMzero h ch flag s
  | .mldacc h ch flag => Sys2Proof.Machine.execMldacc h ch flag s
  | .mstacc h ch => Sys2Proof.Machine.execMstacc h ch s
  | .mresc h ch => Sys2Proof.Machine.execMresc h ch s
  | .mside h ch side => Sys2Proof.Machine.execMside h ch side s
  | .mwait h mask => Sys2Proof.Machine.execMwait h mask s
  | .chpush h flag => Sys2Proof.Machine.execChpush h flag s
  | .chpop h => Sys2Proof.Machine.execChpop h s
  | .chpeek h => Sys2Proof.Machine.execChpeek h s
  | .cheos h => Sys2Proof.Machine.execCheos h s
  | .chstat h item => Sys2Proof.Machine.execChstat h item s
  | .chgrow h => Sys2Proof.Machine.execChgrow h s
  | .enq h => Sys2Proof.Machine.execEnq h s
  | .enqw h => Sys2Proof.Machine.execEnqw h s
  | .launch h => Sys2Proof.Machine.execLaunch h s
  | .signal h => Sys2Proof.Machine.execSignal h s
  | .send h dir => Sys2Proof.Machine.execSend h dir s
  | .sendQ h dir => Sys2Proof.Machine.execSendQ h dir s
  | .recv h => Sys2Proof.Machine.execRecv h s
  | .recvw h => Sys2Proof.Machine.execRecvw h s
  | .recvwT h => Sys2Proof.Machine.execRecvwT h s
  | .fwdQ h => Sys2Proof.Machine.execFwdQ h s
  | .fwdM h => Sys2Proof.Machine.execFwdM h s
  | .fwdEnd h => Sys2Proof.Machine.execFwdEnd h s
  | .tokinfo h item => Sys2Proof.Machine.execTokinfo h item s
  | .binit h bnum level scope => Sys2Proof.Machine.execBinit h bnum level scope s
  | .barr h bnum => Sys2Proof.Machine.execBarr h bnum s
  | .barrR h bnum => Sys2Proof.Machine.execBarrR h bnum s
  | .bwait h bnum => Sys2Proof.Machine.execBwait h bnum s
  | .btest h bnum => Sys2Proof.Machine.execBtest h bnum s
  | .badd h r bnum => Sys2Proof.Machine.execBadd h r bnum s
  | .pacq h => Sys2Proof.Machine.execPacq h s
  | .prel h => Sys2Proof.Machine.execPrel h s
  | .prelG h port => Sys2Proof.Machine.execPrelG h port s
  | .pqry h => Sys2Proof.Machine.execPqry h s
  | .pctr h item => Sys2Proof.Machine.execPctr h item s
  | .shlookWord h item => Sys2Proof.Machine.execShlookWord h item s
  | .shlookFind h => Sys2Proof.Machine.execShlookFind h s
  | .shmapE h => Sys2Proof.Machine.execShmapE h s
  | .shmapP h => Sys2Proof.Machine.execShmapP h s
  | .shunmapE h => Sys2Proof.Machine.execShunmapE h s
  | .shunmapP h => Sys2Proof.Machine.execShunmapP h s
  | .kvappend h flag => Sys2Proof.Machine.execKvappend h flag s
  | .kvcommit h => Sys2Proof.Machine.execKvcommit h s
  | .kvtent h => Sys2Proof.Machine.execKvtent h s
  | .kvroll h => Sys2Proof.Machine.execKvroll h s
  | .kvfork h => Sys2Proof.Machine.execKvfork h s
  | .kvevictHbm h => Sys2Proof.Machine.execKvevictHbm h s
  | .kvevictCold h => Sys2Proof.Machine.execKvevictCold h s
  | .kvevictDrop h => Sys2Proof.Machine.execKvevictDrop h s
  | .kvevictRel h => Sys2Proof.Machine.execKvevictRel h s
  | .kvpin h => Sys2Proof.Machine.execKvpin h s
  | .kvpinClr h => Sys2Proof.Machine.execKvpinClr h s
  | .kvrefill h => Sys2Proof.Machine.execKvrefill h s
  | .phashH h => Sys2Proof.Machine.execPhashH h s
  | .phashL h => Sys2Proof.Machine.execPhashL h s
  | .sumupd h => Sys2Proof.Machine.execSumupd h s
  | .psel h => Sys2Proof.Machine.execPsel h s
  | .gchain h => Sys2Proof.Machine.execGchain h s
  | .tsinit h => Sys2Proof.Machine.execTsinit h s
  | .tsdesc h => Sys2Proof.Machine.execTsdesc h s
  | .tsexp h flag => Sys2Proof.Machine.execTsexp h flag s
  | .tsbatch h => Sys2Proof.Machine.execTsbatch h s
  | .tseval h => Sys2Proof.Machine.execTseval h s
  | .tsback h => Sys2Proof.Machine.execTsback h s
  | .tsvl h flag => Sys2Proof.Machine.execTsvl h flag s
  | .tsreroot h => Sys2Proof.Machine.execTsreroot h s
  | .tsbestN h => Sys2Proof.Machine.execTsbestN h s
  | .tsbestQ h => Sys2Proof.Machine.execTsbestQ h s
  | .tsstat h item => Sys2Proof.Machine.execTsstat h item s
  | .elementAdd f => Sys2Proof.Machine.execElementAdd f s
  | .elementSub f => Sys2Proof.Machine.execElementSub f s
  | .elementMul f => Sys2Proof.Machine.execElementMul f s
  | .elementFma f => Sys2Proof.Machine.execElementFma f s
  | .elementFms f => Sys2Proof.Machine.execElementFms f s
  | .elementFnma f => Sys2Proof.Machine.execElementFnma f s
  | .elementMin f => Sys2Proof.Machine.execElementMin f s
  | .elementMax f => Sys2Proof.Machine.execElementMax f s
  | .elementAbs f => Sys2Proof.Machine.execElementAbs f s
  | .elementNeg f => Sys2Proof.Machine.execElementNeg f s
  | .elementAdds f => Sys2Proof.Machine.execElementAdds f s
  | .elementSubs f => Sys2Proof.Machine.execElementSubs f s
  | .elementMulhi f => Sys2Proof.Machine.execElementMulhi f s
  | .elementCmp f => Sys2Proof.Machine.execElementCmp f s
  | .elementSel f => Sys2Proof.Machine.execElementSel f s
  | .elementPset f => Sys2Proof.Machine.execElementPset f s
  | .elementPmov f => Sys2Proof.Machine.execElementPmov f s
  | .elementAnd f => Sys2Proof.Machine.execElementAnd f s
  | .elementOr f => Sys2Proof.Machine.execElementOr f s
  | .elementXor f => Sys2Proof.Machine.execElementXor f s
  | .elementNot f => Sys2Proof.Machine.execElementNot f s
  | .elementShl f => Sys2Proof.Machine.execElementShl f s
  | .elementShr f => Sys2Proof.Machine.execElementShr f s
  | .elementSar f => Sys2Proof.Machine.execElementSar f s
  | .elementExp2 f => Sys2Proof.Machine.execElementExp2 f s
  | .elementLog2 f => Sys2Proof.Machine.execElementLog2 f s
  | .elementRcp f => Sys2Proof.Machine.execElementRcp f s
  | .elementRsqrt f => Sys2Proof.Machine.execElementRsqrt f s
  | .elementSqrt f => Sys2Proof.Machine.execElementSqrt f s
  | .elementSin f => Sys2Proof.Machine.execElementSin f s
  | .elementCos f => Sys2Proof.Machine.execElementCos f s
  | .elementCvt f => Sys2Proof.Machine.execElementCvt f s
  | .elementBfpk f => Sys2Proof.Machine.execElementBfpk f s
  | .elementBfunpk f => Sys2Proof.Machine.execElementBfunpk f s
  | .elementRndi f => Sys2Proof.Machine.execElementRndi f s
  | .elementMov f => Sys2Proof.Machine.execElementMov f s
  | .elementMovi f => Sys2Proof.Machine.execElementMovi f s
  | .elementTake f => Sys2Proof.Machine.execElementTake f s
  | .elementPeek f => Sys2Proof.Machine.execElementPeek f s
  | .elementEmit f => Sys2Proof.Machine.execElementEmit f s
  | .elementPass f => Sys2Proof.Machine.execElementPass f s
  | .elementTags f => Sys2Proof.Machine.execElementTags f s
  | .elementRedc f => Sys2Proof.Machine.execElementRedc f s
  | .elementShuf f => Sys2Proof.Machine.execElementShuf f s
  | .elementBcst f => Sys2Proof.Machine.execElementBcst f s
  | .elementScan f => Sys2Proof.Machine.execElementScan f s
  | .elementTkins f => Sys2Proof.Machine.execElementTkins f s
  | .elementTkout f => Sys2Proof.Machine.execElementTkout f s
  | .elementNop f => Sys2Proof.Machine.execElementNop f s
  | .elementEose f => Sys2Proof.Machine.execElementEose f s
  | .elementCtok f => Sys2Proof.Machine.execElementCtok f s
  | .elementWaitp f => Sys2Proof.Machine.execElementWaitp f s
  | .elementEmitp f => Sys2Proof.Machine.execElementEmitp f s
  | .hostSubmission => Sys2Proof.Machine.execHostSubmission s
  | .dispatcherTake => Sys2Proof.Machine.execDispatcherTake s
  | .taskBind => Sys2Proof.Machine.execTaskBind s
  | .configFetchComplete => Sys2Proof.Machine.execConfigFetchComplete s
  | .taskAging => Sys2Proof.Machine.execTaskAging s
  | .quantumExpiry => Sys2Proof.Machine.execQuantumExpiry s
  | .preemptAccept => Sys2Proof.Machine.execPreemptAccept s
  | .taskSave => Sys2Proof.Machine.execTaskSave s
  | .taskRebind => Sys2Proof.Machine.execTaskRebind s
  | .blockMap => Sys2Proof.Machine.execBlockMap s
  | .blockCommit => Sys2Proof.Machine.execBlockCommit s
  | .safepointOverdue => Sys2Proof.Machine.execSafepointOverdue s
  | .taskRetire => Sys2Proof.Machine.execTaskRetire s
  | .launchEnd => Sys2Proof.Machine.execLaunchEnd s
  | .dependentCancel => Sys2Proof.Machine.execDependentCancel s
  | .faultDelivery => Sys2Proof.Machine.execFaultDelivery s
  | .faultQueueRetry => Sys2Proof.Machine.execFaultQueueRetry s
  | .ctxctlResume => Sys2Proof.Machine.execCtxctlResume s
  | .ctxctlRedirect => Sys2Proof.Machine.execCtxctlRedirect s
  | .ctxctlKill => Sys2Proof.Machine.execCtxctlKill s
  | .ctxctlPreempt => Sys2Proof.Machine.execCtxctlPreempt s
  | .bankroleWrite => Sys2Proof.Machine.execBankroleWrite s
  | .contextWindowStore => Sys2Proof.Machine.execContextWindowStore s
  | .elementWindowStore => Sys2Proof.Machine.execElementWindowStore s
  | .accumulatorWindowStore => Sys2Proof.Machine.execAccumulatorWindowStore s
  | .accumulatorWindowLoad => Sys2Proof.Machine.execAccumulatorWindowLoad s
  | .channelEntryValidate => Sys2Proof.Machine.execChannelEntryValidate s
  | .channelClose => Sys2Proof.Machine.execChannelClose s
  | .barrierWindowStore => Sys2Proof.Machine.execBarrierWindowStore s
  | .mailboxRegisterWrite => Sys2Proof.Machine.execMailboxRegisterWrite s
  | .mread => Sys2Proof.Machine.execMread s
  | .mwrite => Sys2Proof.Machine.execMwrite s
  | .twritePkgcfg => Sys2Proof.Machine.execTwritePkgcfg s
  | .twritePartition => Sys2Proof.Machine.execTwritePartition s
  | .twriteRegclass => Sys2Proof.Machine.execTwriteRegclass s
  | .twriteWorkqueue => Sys2Proof.Machine.execTwriteWorkqueue s
  | .twritePoisonList => Sys2Proof.Machine.execTwritePoisonList s
  | .twriteErrorCounter => Sys2Proof.Machine.execTwriteErrorCounter s
  | .tread => Sys2Proof.Machine.execTread s
  | .level => Sys2Proof.Machine.execLevel s
  | .attest => Sys2Proof.Machine.execAttest s
  | .fwstage => Sys2Proof.Machine.execFwstage s
  | .coldReset => Sys2Proof.Machine.execColdReset s
  | .warmReset => Sys2Proof.Machine.execWarmReset s
  | .partFailure => Sys2Proof.Machine.execPartFailure s
  | .linkDown => Sys2Proof.Machine.execLinkDown s
  | .powerRemoval => Sys2Proof.Machine.execPowerRemoval s
  | .powerEvaluation => Sys2Proof.Machine.execPowerEvaluation s
  | .periodBoundary => Sys2Proof.Machine.execPeriodBoundary s
  | .requestInject => Sys2Proof.Machine.execRequestInject s
  | .flitInject => Sys2Proof.Machine.execFlitInject s
  | .remontoireSample => Sys2Proof.Machine.execRemontoireSample s
  | .yieldWindowEnd => Sys2Proof.Machine.execYieldWindowEnd s
  | .waitevTimeout => Sys2Proof.Machine.execWaitevTimeout s
  | .storePerform => Sys2Proof.Machine.execStorePerform s
  | .pageWalkComplete => Sys2Proof.Machine.execPageWalkComplete s
  | .sliceRequest => Sys2Proof.Machine.execSliceRequest s
  | .missEntryFree => Sys2Proof.Machine.execMissEntryFree s
  | .correctedError => Sys2Proof.Machine.execCorrectedError s
  | .uncorrectableError => Sys2Proof.Machine.execUncorrectableError s
  | .spillFetchComplete => Sys2Proof.Machine.execSpillFetchComplete s
  | .packetHop => Sys2Proof.Machine.execPacketHop s
  | .qtArrival => Sys2Proof.Machine.execQtArrival s
  | .tokenServiceStart => Sys2Proof.Machine.execTokenServiceStart s
  | .msgArrival => Sys2Proof.Machine.execMsgArrival s
  | .remoteBarrierArrival => Sys2Proof.Machine.execRemoteBarrierArrival s
  | .routeTokenLanding => Sys2Proof.Machine.execRouteTokenLanding s
  | .streamInDeliver => Sys2Proof.Machine.execStreamInDeliver s
  | .streamOutToken => Sys2Proof.Machine.execStreamOutToken s
  | .permitTokenArrival => Sys2Proof.Machine.execPermitTokenArrival s
  | .matrixAccept => Sys2Proof.Machine.execMatrixAccept s
  | .matrixComplete => Sys2Proof.Machine.execMatrixComplete s
  | .matrixStop => Sys2Proof.Machine.execMatrixStop s
  | .copyRecordComplete => Sys2Proof.Machine.execCopyRecordComplete s
  | .xcopyTransferComplete => Sys2Proof.Machine.execXcopyTransferComplete s
  | .pageMoveComplete => Sys2Proof.Machine.execPageMoveComplete s

end Sys2Proof.Machine
end

