-- ==== Sys2Proof/Machine/Sched.lean ====
section
/-! DEFINITION. What happens in a cycle: the actions each unit can take, in the order in which the step takes them. The
manual gives a choice of context (R42), of blocks (R33), of matrix requests (R242), of links (R208) and of regulated requests
(R476), and the order in which the events of a cycle reach one register (R80), bank (R131), channel (R182), queue (R197), barrier
(R253) and permit station (R427); where it leaves the order of independent units in a cycle open, the order here stands (log 11).
Every action checks again, when its turn comes, that it can be taken. -/

namespace Sys2Proof.Machine

/-- Where an action happens. -/
def Act.focus : Act → Focus
  | .event _ x y z v d => .ev x y z v d
  | .fire t c i => .seq t c i
  | .elem t e k => .elem t e k
  | .gridEnd _ _ => .nowhere
  | .tick _ => .nowhere

/-- The instruction an action runs: an event is one; a firing's is decoded from the word of the block in flight or of the
region's image. -/
def State.actInstr (s : State) : Act → Option Instr
  | .event i _ _ _ _ _ => some i
  | .fire t c i => (decodeSeq (s.wordAt (ctxKey t c) i)).toOption
  | .elem t e k => decodeElem (BitVec.ofNat 32 ((s.region (4 * t + e / 16)).opWord e k))
  | .gridEnd _ _ => none
  | .tick _ => none

/-! ## What every cycle does by itself -/

def ev (i : Instr) (x y z : Nat := 0) : Act := .event i x y z 0 []

/-- Waits that something has ended since the last cycle. -/
def State.wakes (s : State) : State :=
  let s := s.resume.evWake.drainWake.reconfWake.matrixWake.recvWake
  (s.cfgWait.map CfgMiss.tile).dedup.foldl (fun (s : State) t => s.cfgWaitWake t) s

/-- Classes with a request that waits on its bucket at a port (R260, event 9). -/
def State.bucketWait (s : State) (x : Tile) (c : Nat) : Bool :=
  let waits := fun (p : Port) => p.q.any (fun r => r.cls = c) && !s.mayInject p c
  waits x.mesh || waits x.ring

/-- Does a flit of a class wait on the power bucket of a tile (R257, R260)? A device flit has no class and counts for none
(DEDUCED, log 89). -/
def Tile.powerWait (x : Tile) (c : Nat) : Bool := x.pwrtok < 1 && (x.mesh.inj ++ x.ring.inj).any (fun r => r.cls = c)

/-- The cycle counts of R260: events 1, 9 and 10. -/
def State.countCycle (s : State) : State :=
  s.tiles.foldl (fun (s : State) (p : Nat × Tile) =>
    if p.2.pmsel = [] then s
    else
      let s := s.count p.1 1
      let s := ((List.range 8).filter (s.bucketWait p.2)).foldl (fun (s : State) c => s.count p.1 9 (cls := some c)) s
      ((List.range 8).filter p.2.powerWait).foldl (fun (s : State) c => s.count p.1 10 (cls := some c)) s) s

/-- Entries of the dependence table that end at once because a predecessor did not end DONE; those that their end cancels follow
in the next cycle (R244). -/
def State.cancelActs (s : State) : List Act :=
  (s.deps.filter (fun p => p.2.canc && p.2.st = 0)).map (fun p => ev .dependentCancel p.1)

/-- Packets of query tokens in the order in which they arrived where they stand: the slots of a tile go to them in that order
(R211, R212). -/
def State.qtOrder (s : State) : List Pkt :=
  (s.pkts.filter (fun p => s.pktCls p = 0)).mergeSort (fun a b => decide (a.wait < b.wait) ||
    (decide (a.wait = b.wait) && (decide (a.msg < b.msg) || (decide (a.msg = b.msg) && decide (a.pidx ≤ b.pidx)))))

/-- Rings (R206-R213): hops by higher indices first, so that what leaves a list moves no index still to come. -/
def State.ringActs (s : State) : List Act :=
  let ns := (List.range s.pkts.length).reverse
  (s.qtOrder.map (fun p => ev .qtArrival p.msg p.pidx)) ++ (ns.map (fun n => ev .packetHop n)) ++
  ((s.msgs.filter (fun p => p.2.cls ≠ 0)).map (fun p => ev .msgArrival p.1)) ++
  ((s.tiles.filter (fun p => !p.2.tslots.isEmpty)).map (fun p => ev .tokenServiceStart p.1))

/-- Barrier events from other tiles, in the order in which the signal network delivers them (R253): each leaves the list as it
arrives. -/
def State.signalActs (s : State) : List Act :=
  ((List.range s.rembars.length).filter (fun n =>
    (s.rembars[n]?.map (fun r => decide (r.dpkg = s.pkgno))).getD false)).zipIdx.map
      (fun p => ev .remoteBarrierArrival (p.1 - p.2))

/-- The lowest class whose oldest request may go out, when a port sends nothing (R476). -/
def State.injectCls (s : State) (p : Port) : Option Nat :=
  if p.inj.isEmpty then (List.range 9).find? (fun c => p.q.any (fun r => r.cls = c) && s.mayInject p c) else none

/-- A port's cycle: a request goes out when none is going, and a flit of it follows in the same cycle (R255, R257, R476). -/
def State.portCycle (s : State) (t n : Nat) (p : Port) : List Act :=
  match s.injectCls p with
  | some c => [ev .requestInject t n c, ev .flitInject t n]
  | none => if p.inj.isEmpty then [] else [ev .flitInject t n]

/-- Ports, the slow-tier queue and the slices (R133-R135, R255-R258, R476). -/
def State.portActs (s : State) : List Act :=
  (s.tiles.flatMap (fun p => s.portCycle p.1 0 p.2.mesh ++ s.portCycle p.1 1 p.2.ring)) ++
  (if s.slowq.isEmpty then [] else [ev .requestInject 0 2]) ++
  (s.slices.flatMap (fun p =>
    (if p.2.arr.isEmpty then [] else [ev .sliceRequest p.1]) ++ (if p.2.miss.isEmpty then [] else [ev .missEntryFree p.1 0])))

/-- What a place in the cycle does. -/
def State.tickRun (s : State) : Tick → State
  | .wakes => s.wakes
  | .count => s.countCycle
  | .cancel => { s with agenda := s.cancelActs ++ s.agenda }
  | .pod => s.podTick
  | .enqwWake => (s.wq.map Prod.fst).foldl (fun (s : State) q => s.enqwWake q) s
  | .popWake => s.popWake
  | .pushWake => s.pushWake false
  | .eosWake => s.pushWake true
  | .chanEnds => s.chanEndsNow
  | .sbarWake => s.sbarWake
  | .barWake => s.barWake
  | .rings => { s with agenda := s.ringActs ++ s.agenda }
  | .signals => { s with agenda := s.signalActs ++ s.agenda }
  | .ports => { s with agenda := s.portActs ++ s.agenda }

/-- An action that is no instruction. -/
def State.actPlain (s : State) : Act → State
  | .gridEnd t r => s.gridEnd (4 * t + r)
  | .tick k => s.tickRun k
  | _ => s

/-- May the contexts and engines of a tile run at this service level (R273)? -/
def State.tileRuns (s : State) (t : Nat) : Bool :=
  !(s.tile t).failed && (2 ≤ s.level || (s.level = 1 && t < 256))

/-- One cycle of a region's routes (R86): tokens come nearer, drain tokens and element outputs leave. -/
def State.routeCycle (s : State) (rk : Nat) : State :=
  let s := s.updRegion rk (fun r => { r with flights := r.flights.map (fun (f : Flight) => { f with left := f.left - 1 }) })
  let s := s.drainStep rk
  if (s.region rk).draining then s
  else (List.range 16).foldl (fun (s : State) e =>
    (List.range 4).foldl (fun (s : State) n => s.leaveOut (rk / 4) (16 * (rk % 4) + e) n) s) s

/-- One cycle of the element grid: what every region fires (R339) is resolved on the state, and with the rounding mode (R73),
with which the cycle begins; then its routes move. -/
def State.gridCycle (s : State) : State × List Act :=
  (s.regions.filter (fun p => p.2.loaded && s.tileRuns (p.1 / 4))).foldl (fun (st : State × List Act) p =>
    let x := (st.1.routeCycle p.1).gridBegin p.1 (st.1.gridPlan p.1)
    (x.1, st.2 ++ x.2)) (s, [])

/-! ## Issue (R42, R241, R330, R33) -/

/-- Would an instruction of a block in flight do something now? One that something holds back would not. -/
def State.wouldFire (s : State) (t c i : Nat) : Bool :=
  let key := ctxKey t c
  match s.actInstr (.fire t c i), s.blks.get? key with
  | some x, some b =>
    if (b.node i).st ≠ .idle then false
    else match exec x { s with focus := .seq t c i } with
      | .next s' =>
        let b' := (s'.blks.get? key).map (fun b' => (b'.node i).st)
        b' ≠ some .idle || (s'.blks.get? key).map Blk.asked ≠ some b.asked || (s'.ctx key).sync ≠ (s.ctx key).sync || s'.walks ≠ s.walks
      | _ => false
  | _, _ => false

/-- The instructions of a context that issue in a cycle, in index order: 4, 2 and 1 of the three kinds at most. -/
def State.issueList (s : State) (t c : Nat) : List Nat :=
  match s.blks.get? (ctxKey t c) with
  | none => []
  | some b =>
    ((List.range b.words.length).foldl (fun (st : List Nat × Nat × Nat × Nat) i =>
      let k := issueKind (b.words.getD i 0)
      let room := if k = 0 then decide (st.2.1 < 4) else if k = 1 then decide (st.2.2.1 < 2) else decide (st.2.2.2 < 1)
      if room && s.wouldFire t c i then
        (st.1 ++ [i], st.2.1 + (if k = 0 then 1 else 0), st.2.2.1 + (if k = 1 then 1 else 0), st.2.2.2 + (if k = 2 then 1 else 0))
      else st) ([], 0, 0, 0)).1

/-- Has a context a block that can issue? -/
def State.canIssue (s : State) (t c : Nat) : Bool :=
  match s.blks.get? (ctxKey t c) with
  | none => false
  | some b => (List.range b.words.length).any (fun i => s.wouldFire t c i)

/-- Whom a slot of a waiting context is lent to: the final holders of what it waits for that are resident (R241). -/
def State.lentTo (s : State) (t c : Nat) : List Nat :=
  ((s.permitWaits (ctxKey t c)).filterMap (s.permitFinal t 17)).flatten.map (· % 16)

/-- The context that a cycle of a tile goes to: by the slot table from the pointer on; a slot of a context that waits on a
permit is first the final holder's; contexts in a YIELD window come last. -/
def State.pickCtx (s : State) (t : Nat) : Option Nat :=
  let x := s.tile t
  let slots := (List.range 64).map (fun i => x.slots.getD (((s.cycle - s.tilesSince).toNat + i) % 64) 0)
  let offers := slots.flatMap (fun c => s.lentTo t c ++ [c])
  let able := (List.range 16).filter (s.canIssue t)
  match offers.find? (fun c => able.contains c && !s.yielding (ctxKey t c)) with
  | some c => some c
  | none => offers.find? (fun c => able.contains c)

/-- The issue of a tile's cycle. -/
def State.issue (s : State) (t : Nat) : List (Nat × Nat × Nat) :=
  if (s.blks.any (fun b => b.1 / 16 = t)) && s.tileRuns t then
    match s.pickCtx t with
    | none => []
    | some c => (s.issueList t c).map (fun i => (t, c, i))
  else []

/-- The M-format fields of an instruction that reaches its home when it issues. -/
def homeFmt : Instr → Option MFmt
  | .ld _ m | .ldf _ m | .ldff _ m | .tagq _ m | .pref _ m | .ste _ m | .amo _ m | .cas _ m | .amof _ m | .red _ m
  | .redf _ m => some m
  | _ => none

/-- Does an access go to a local store of another tile, which it reaches through the mesh port (R131)? -/
def State.farAccess (s : State) (t c i : Nat) (m : MFmt) : Bool :=
  let key := ctxKey t c
  match s.blks.get? key, s.asnOf (s.ctx key).part with
  | some b, some asn =>
    let va := ((b.node i).a.getD 0 + m.ofs.signExtend 64).toNat
    (match (s.tlbLook t asn va false none).1 with
     | some e => s.farBank t (bitsOf e.pte.toNat 16 36 * 2 ^ 16 + va % 2 ^ offBits e.level)
     | none => false)
  | _, _ => false

/-- The place of an instruction among the issues of a cycle: BINIT before other barrier events, what reads a barrier's phase
after them all (R253); RECONF after its region's firings of the cycle (R333); PACQ after what frees a permit (R427); pops,
pushes, the end of a stream and growth in that order (R182); Tourbillon and the shard walker after the copy engine, and
accesses through the mesh port last (R131). -/
def State.phaseOf (s : State) (t c i : Nat) : Nat :=
  match s.actInstr (.fire t c i) with
  | none => 1
  | some x => match x with
    | .binit .. => 0
    | .pacq .. | .reconf .. => 2
    | .chpop .. | .chpeek .. => 3
    | .chpush .. => 4
    | .tsbatch .. | .tsinit .. | .tsdesc .. | .tsexp .. | .tseval .. | .tsback .. | .tsvl .. | .tsreroot .. | .tsbestN ..
    | .tsbestQ .. | .tsstat .. | .shlookWord .. | .shlookFind .. => 5
    | .cheos .. => 6
    | .chgrow .. => 7
    | .btest .. | .bwait .. => 9
    | _ => if ((homeFmt x).map (s.farAccess t c i)).getD false then 8 else 1

/-- The issues of a cycle that have a place, with their contexts. -/
def State.firesBy (s : State) (l : List (Nat × Nat × Nat)) (n : Nat) : List (Nat × Act) :=
  (l.filter (fun f => s.phaseOf f.1 f.2.1 f.2.2 = n)).map (fun f => (f.2.1, .fire f.1 f.2.1 f.2.2))

def State.fires (s : State) (l : List (Nat × Nat × Nat)) (n : Nat) : List Act := (s.firesBy l n).map Prod.snd

/-- Actions of contexts in ascending context number (R131, R253); those of one context as they stand. -/
def byCtx (l : List (Nat × Act)) : List Act := (l.mergeSort (fun a b => decide (a.1 ≤ b.1))).map Prod.snd

/-! ## The agenda of a cycle -/

/-- Events of the package's clock (R188, R283): growth comes last in a cycle (R182, R197). -/
def State.clockActs (s : State) : List Act :=
  let n := s.now
  (if n % 65536 = 0 then [ev .powerEvaluation] else []) ++
  (if s.temps.any (fun p => p.2 ≥ 115) then [ev .powerRemoval] else []) ++
  (if n % 4096 = 0 then [ev .remontoireSample] else [])

/-- The period boundary (R248, R256): it comes before the cycle's requests, which count in the new period. -/
def State.boundaryActs (s : State) : List Act := if s.now % 1024 = 0 then [ev .periodBoundary] else []

/-- What the CSRRs of a cycle's issues read (R80). -/
def State.csrReads (s : State) (l : List (Nat × Nat × Nat)) : Map W64 :=
  l.foldl (fun (m : Map W64) f => match s.actInstr (.fire f.1 f.2.1 f.2.2) with
    | some (.csrr _ n) => let key := ctxKey f.1 f.2.1; m.put (4096 * key + n.toNat) (w64 (s.csrRead key n.toNat))
    | _ => m) []

/-- Task values of a launch that have not been bound, ascending (R39 step 4). -/
def State.unbound (s : State) (d : Dep) : List Nat :=
  ((List.range (rcdTasks d.rcd)).map (taskValue d.rcd)).filter (fun v => !d.started.contains v && s.taskHere d.rcd v)

/-- Bindings in order of effective priority, then of waiting (R39 step 4, R43, R45): launches and saved tasks. -/
def State.bindActs (s : State) : List Act :=
  let ds := (s.deps.filter (fun p => p.2.st = 1 && p.2.ending.isNone && p.2.started.length < p.2.tasks)).map (fun p =>
    (s.depPrio p.2, s.age p.2.since, (s.unbound p.2).map (fun v => ev .taskBind p.1 v)))
  let ts := (s.tasks.filter (fun p => p.2.st = .saved)).filterMap (fun p => (s.deps.get? p.2.dep).map (fun d =>
    (s.savedPrio p.2 d, s.age p.2.since, [ev .taskRebind p.1])))
  (((ds ++ ts).mergeSort (fun a b => decide (a.1 > b.1) || (decide (a.1 = b.1) && decide (a.2.1 ≥ b.2.1)))).map (fun x => x.2.2)).flatten

/-- Launches and tasks (R39-R46, R198, R243, R244). -/
def State.taskActs (s : State) : List Act :=
  let ids := s.deps.map Prod.fst
  let ts := s.tasks.filter (fun p => p.2.st = .bound)
  ((ts.filter (fun p => p.2.ctxs.isEmpty)).map (fun p => ev .taskRetire p.1)) ++
  ((s.deps.filter (fun p => p.2.ending.isSome || (p.2.st = 1 && p.2.retired = p.2.tasks))).map (fun p => ev .launchEnd p.1)) ++
  [.tick .cancel] ++
  (if 1 ≤ s.level && s.nextQueue.isSome then [ev .dispatcherTake] else []) ++
  (if s.now % 65536 = 0 || s.deps.any (fun p => (s.age p.2.since) % 65536 = 0) ||
      s.tasks.any (fun p => p.2.st = .saved && (s.age p.2.since) % 65536 = 0) then ids.map (fun i => ev .taskAging i) else []) ++
  ((ts.filter (fun p => !p.2.ctxs.isEmpty && s.age p.2.quantum ≥
      bitsOf (s.partW (((s.deps.get? p.2.dep).map Dep.part).getD 0) 0) 0 32)).map (fun p => ev .quantumExpiry p.1)) ++
  ((ts.filter (fun p => p.2.preq && !p.2.accepted)).map (fun p => ev .preemptAccept p.1)) ++
  ((s.tasks.filter (fun p => p.2.accepted)).map (fun p => ev .taskSave p.1)) ++
  s.bindActs ++
  s.tiles.flatMap (fun p => (p.2.cfg.filter (fun c => c.2.fetch)).map (fun c => ev .configFetchComplete p.1 c.1))

/-- Host writes that have reached the ordering point, in ascending host number (R171, R197): submissions, and writes to the
mailbox. -/
def State.hostActs (s : State) : List Act :=
  (s.hostIn.mergeSort (fun a b => decide (a.host ≤ b.host))).map (fun w =>
    if w.off ≥ 0x100000 then .event .hostSubmission (w.off - 0x100000) 0 0 0 w.data
    else .event .mailboxRegisterWrite w.off 0 0 0 w.data)

/-- Events of the contexts that `l` lists. -/
def ofCtxs (i : Instr) (l : List (Nat × Ctx)) : List Act := l.map (fun p => ev i (p.1 / 16) (p.1 % 16))

/-- Contexts that can do something. -/
def State.live (s : State) : List (Nat × Ctx) := s.ctxs.filter (fun p => p.2.st ≠ .free && s.tileRuns (p.1 / 16))

/-- Commits: the control registers that they write first, since a cycle's events come after them (R32-R37, R80). -/
def State.commitActs (s : State) : List Act :=
  let l := s.live.filter (fun p => (s.blks.get? p.1).isSome || p.2.kill)
  let w := fun (p : Nat × Ctx) => ((s.blks.get? p.1).map (fun b => !b.csrw.isEmpty)).getD false
  (l.filter w).map (fun p => ev .blockCommit (p.1 / 16) (p.1 % 16) 1) ++ ofCtxs .blockCommit l

/-- The place of a store in its cycle: 0 a control register, which events follow (R80, R92); 1 a barrier, in the group of BINIT
(R253); 3 a local store that it reaches through the mesh port (R131); 2 any other. -/
def State.storePlace (s : State) (t : Nat) (e : StEnt) : Nat :=
  if s.farBank t e.pa then 3
  else match s.paKind e.pa with
    | .window _ off => if 0xC00000 ≤ off && off < 0xC0C000 then 0 else if 0xE01000 ≤ off && off < 0xE01C00 then 1 else 2
    | _ => 2

/-- The stores of a place that the contexts perform next (R152). -/
def State.storesBy (s : State) (place : Nat) : List (Nat × Act) :=
  (s.ctxs.filter (fun p => !p.2.sq.isEmpty)).filterMap (fun p =>
    let n := ((List.range p.2.sq.length).find? (s.storeReady p.1)).getD 0
    match p.2.sq[n]? with
    | some e => if s.storePlace (p.1 / 16) e = place then some (p.1 % 16, ev .storePerform (p.1 / 16) (p.1 % 16) n) else none
    | none => none)

def State.storeActs (s : State) (place : Nat) : List Act := byCtx (s.storesBy place)

/-- Walks, faults and mapping: contexts without a block, lower numbers first (R33, R102, R145, R200). -/
def State.ctxActs (s : State) : List Act :=
  (s.walks.map (fun _ => ev .pageWalkComplete 0)) ++
  (if s.now % 4096 = 0 then
    ofCtxs .faultQueueRetry (s.live.filter (fun p => p.2.fqPend)) ++ (if s.fqWait.isEmpty then [] else [ev .faultQueueRetry])
   else []) ++
  ofCtxs .faultDelivery (s.live.filter (fun p => (p.2.st = .run || p.2.st = .stopreq) && (p.2.sync.isSome || p.2.asyncDue))) ++
  ofCtxs .blockMap (s.live.filter (fun p => p.2.canMap && (s.blks.get? p.1).isNone))

/-- What ends by the clock of a context: YIELD windows, WAITEV; and window loads whose accumulator is done (R91, R330, R331). -/
def State.timeActs (s : State) : List Act :=
  ofCtxs .yieldWindowEnd (s.live.filter (fun p => p.2.yieldTill.isSome && !s.yielding p.1)) ++
  (s.waits.filterMap (fun w => match w.k with
    | .waitev (some till) => if s.timedOut till then some (ev .waitevTimeout (w.key / 16) (w.key % 16)) else none
    | .accLoad .. => some (ev .accumulatorWindowLoad (w.key / 16) (w.key % 16) w.idx)
    | _ => none))

/-- Tiles whose engines run. -/
def State.onTiles (s : State) : List (Nat × Tile) := s.tiles.filter (fun p => s.tileRuns p.1)

/-- Matrix nodes (R360-R381). -/
def State.matrixActs (s : State) : List Act :=
  (s.onTiles.flatMap (fun p => ((List.range 4).filter (fun k => p.2.mrun.any (fun o => o.acc = k && !o.sent))).flatMap (fun k =>
    [ev .matrixStop p.1 k, ev .matrixComplete p.1 k]))) ++
  ((s.onTiles.filter (fun p => !p.2.mq.isEmpty || (List.range 4).any (fun k => (s.ctokHead p.1 k).isSome))).map (fun p =>
    ev .matrixAccept p.1))

/-- Does the next piece of a copy go to a bank of another tile, which it reaches through the mesh port (R131)? -/
def State.chunkFar (s : State) (t : Nat) (w : Who) (l : List Chunk) (pos : Nat) : Bool :=
  match l.find? (fun c => decide (pos ≤ c.off)) with
  | none => false
  | some c => match (s.translateNow t w.part (w64 c.d) (copyWrite w.sup)).1 with
    | .ok tr => s.farBank t tr.pa
    | .error _ => false

/-- Does a copy channel's record count its bytes at a barrier of another tile (R202, R253), or write another tile's bank? -/
def State.copyFar (s : State) (t : Nat) (c : CopyCh) : Bool :=
  match readRec t c.who c.head s with
  | .ok r _ => recRmt r || ((recBar r).map (fun b => decide (b.1 ≠ t))).getD false ||
      s.chunkFar t c.who (recChunks c.maps r) c.at_.pos
  | .error _ _ => false

/-- Does a channel's transfer write another tile's bank? -/
def State.xferFar (s : State) (t : Nat) (c : CopyCh) : Bool :=
  match c.queue with
  | [] => false
  | x :: _ => s.chunkFar t x.who x.chunks c.at_.pos

/-- Copy engines, by ascending channel: the local ones, or those with remote records or that write another tile's bank
(R131, R201-R203, R253, R396). -/
def State.copyActs (s : State) (far : Bool) : List Act :=
  s.onTiles.flatMap (fun p => p.2.copy.flatMap (fun c =>
    (if c.2.queue.isEmpty || s.xferFar p.1 c.2 ≠ far then [] else [ev .xcopyTransferComplete p.1 c.1]) ++
    (if c.2.walkId = 0 || s.copyFar p.1 c.2 ≠ far then [] else [ev .copyRecordComplete p.1 c.1])))

/-- Events of each stream port of the regions that run. -/
def State.portEvents (s : State) (f : Nat → Nat → Region → Nat → List Act) : List Act :=
  (s.regions.filter (fun p => p.2.loaded && s.tileRuns (p.1 / 4))).flatMap (fun p =>
    (List.range 4).flatMap (f (p.1 / 4) (p.1 % 4) p.2))

/-- Route tokens that land (R86). -/
def State.landActs (s : State) : List Act :=
  (s.regions.filter (fun p => p.2.loaded && s.tileRuns (p.1 / 4))).flatMap (fun p =>
    let t := p.1 / 4
    let k := p.1 % 4
    (p.2.flights.filter (fun f => f.left = 0)).map (fun f => match f.dk with
      | 0 => ev .routeTokenLanding t (16 * k + f.dest) f.din
      | 1 => ev .routeTokenLanding t (64 + 4 * k) f.dest
      | _ => ev .routeTokenLanding t (80 + 4 * k) f.dest))

/-- Tokens that enter a region (R401), permits that leave one (R426), tokens that leave one (R402). -/
def State.inActs (s : State) : List Act :=
  s.portEvents (fun t k r j => if (r.sin.get? j).isSome || r.pend.any (fun q => q.port = j) then [ev .streamInDeliver t k j] else [])
def State.permitActs (s : State) : List Act :=
  s.portEvents (fun t k r j => if (r.sobuf.getD [] j).isEmpty then [] else [ev .permitTokenArrival t k j])
def State.outActs (s : State) : List Act :=
  s.portEvents (fun t k r j => if (r.sobuf.getD [] j).isEmpty then [] else [ev .streamOutToken t k j])

/-- Elements of spilled channels that come back (R178). -/
def State.spillActs (s : State) : List Act :=
  (s.chans.filter (fun p => p.2.v && p.2.onchip < p.2.con && p.2.onchip < p.2.occ)).map (fun p =>
    ev .spillFetchComplete (p.1 / 64) (p.1 % 64))

/-- Page moves in progress; higher indices first. -/
def State.moveActs (s : State) : List Act := (List.range s.moves.length).reverse.map (fun n => ev .pageMoveComplete n)

/-- The next cycle begins: CYCLE advances (R261), what moves by itself moves, and the cycle's actions are set down. -/
def State.plan (s : State) : State :=
  let s : State := { s with cycle := s.cycle + 1 }
  let l := (s.tiles.map Prod.fst).flatMap s.issue
  let s := { s with csrNow := s.csrReads l }
  let g := s.gridCycle
  let s := g.1
  { s with
    hostIn := []
    agenda :=
      s.storeActs 0 ++ s.commitActs ++ s.boundaryActs ++ [.tick .count, .tick .wakes] ++
      s.taskActs ++ s.hostActs ++ [.tick .enqwWake] ++ s.ctxActs ++
      byCtx (s.storesBy 1 ++ s.firesBy l 0) ++ byCtx (s.storesBy 2 ++ s.firesBy l 1) ++ g.2 ++
      s.permitActs ++ s.fires l 2 ++
      [.tick .popWake] ++ s.fires l 3 ++ s.inActs ++ [.tick .chanEnds, .tick .sbarWake] ++
      s.spillActs ++ [.tick .pushWake] ++ s.fires l 4 ++
      s.matrixActs ++ s.copyActs false ++ s.landActs ++ s.outActs ++ s.moveActs ++
      s.fires l 5 ++ [.tick .eosWake] ++ s.fires l 6 ++ s.fires l 7 ++
      s.copyActs true ++ [.tick .pod] ++ s.fires l 8 ++ s.storeActs 3 ++
      [.tick .rings, .tick .signals] ++ s.fires l 9 ++ [.tick .barWake] ++
      s.timeActs ++ [.tick .ports] ++ s.clockActs }

/-! ## Placing one instruction to be fetched next (the host's check) -/

/-- A one-instruction block for context 0 of tile 0, its slots delivered, its context running. -/
def State.placeSeq (s : State) (w : W64) : State :=
  let s := s.updCtx 0 (fun c => { c with st := .run, priv := true })
  let nd : Node := { a := some 0, b := some 0, p := some true, o := true }
  let b : Blk := ⟨0, List.replicate 8 0, [w], [nd], [], [], [], [], false, 0, 0, []⟩
  { s with blks := s.blks.put 0 b, agenda := .fire 0 0 0 :: s.agenda }

/-- An element operation in slot 0 of element 0 of tile 0: its region loaded and owned, a token at each input. -/
def State.placeElem (s : State) (w : Nat) : State :=
  let t : Tok := ⟨0, 0, false⟩
  let s := s.updRegion 0 (fun r => { r with
    loaded := true, owner := some 0, draining := false, stopped := false, cyc := none,
    img := (List.replicate 384 0).set 106 (w64 (w * 2 ^ 32 + 1)) })
  let s := s.setElem 0 { s.elem 0 with ins := [(0, [t]), (1, [t]), (2, [t]), (3, [t])], outs := [] }
  { s with agenda := .elem 0 0 0 :: s.agenda }

end Sys2Proof.Machine
end

