-- ==== Sys2Proof/Machine/Step.lean ====
section
/-! DEFINITION. One step: the next action of the agenda, or, when it is empty, the next cycle's plan (R42). -/

namespace Sys2Proof.Machine

/-- One step of the machine. -/
def step (s : State) : Host.Outcome State Fault Refusal :=
  if s.powered then
    match s.agenda with
    | [] => run State.plan s
    | a :: r =>
      match s.actInstr a with
      | some i => exec i { s with agenda := r, focus := a.focus }
      | none => run (fun t => t.actPlain a) { s with agenda := r }
  else .fault .powerOff

/-- The state in which the next step fetches and runs an instruction word: a sequencer word in a block of tile 0's context
0, an element operation word in a slot of element 0. -/
def State.withFetchWord (s : State) (nbits w : Nat) : State :=
  if nbits = 32 then s.placeElem w else s.placeSeq (w64 w)

end Sys2Proof.Machine
end

