-- ==== Sys2Proof/Safety.lean ====
section
/-! DEFINITION. The terms claims are stated in: an instruction that fires now, what delivering its result does, what a step
leaves alone, and the invariant of the machine. -/

namespace Sys2Proof.Machine

/-! ## A sequencer instruction that fires -/

/-- The instruction at index `e.idx` of the block in flight of context `e.ctx` of tile `e.tile` fires in this step (R78,
R310): `n` are the slots it reads, `e` what it finds in them; no recorded result of an earlier run stands for it (R110). A
tile has 16 contexts. -/
structure Fires (s : State) (n : Needs) (e : Env) : Prop where
  focus : s.focus = .seq e.tile e.ctx e.idx
  fires : s.firing e.tile e.ctx e.idx e.h n = .fire e
  fresh : irvFind (s.ctx e.key).irv e.idx = none
  fits : e.ctx < 16

/-- The slots that the tables of the manual give an instruction. -/
def Fires.of (s : State) (i : Instr) (e : Env) : Prop := Fires s (readsOf i) e

/-- The instruction delivers `v` to its targets and is complete (R290). -/
def State.give (s : State) (e : Env) (v : W64) : State :=
  ((s.begun e).deliver e.key e.idx e.h (some v) true).setStat e.key e.idx .done

/-- The answer of an instruction whose whole effect is to deliver `v`. -/
def State.answers (s : State) (e : Env) (v : W64) : Out := .next (endStep s (s.give e v))

/-- The answer of an instruction that changes the machine by `f` and then completes with `v`, recorded where it is
irrevocable (R84, R290). -/
def State.ends (s : State) (e : Env) (f : State → State) (v : W64) : Out :=
  .next (endStep s ((f (s.begun e)).finish e.key e.idx v))

/-- The answer of an instruction that changes the machine by `f` and then delivers its token only. -/
def State.endsTok (s : State) (e : Env) (f : State → State) : Out :=
  .next (endStep s ((f (s.begun e)).finishTok e.key e.idx))

/-- The answer of an instruction that changes the machine by `f` and delivers nothing. -/
def State.endsNone (s : State) (e : Env) (f : State → State) : Out :=
  .next (endStep s ((f (s.begun e)).finishNone e.key e.idx))

/-- The answer of an instruction that raises a fault of its own (R102). -/
def State.traps (s : State) (e : Env) (f : Flt) : Out :=
  .next (endStep s ((s.begun e).syncFault e.key { f with idx := some e.idx }))

/-- The answer of an instruction that issues and waits for `k`. -/
def State.awaits (s : State) (e : Env) (k : WaitK) : Out :=
  .next (endStep s { s.begun e with waits := (s.begun e).waits ++ [⟨e.key, e.idx, k⟩] })

/-- The same answers, for an instruction that leaves the machine as `t` before it completes, faults or waits. -/
def State.closes (s : State) (e : Env) (t : State) (v : W64) : Out := .next (endStep s (t.finish e.key e.idx v))
def State.closesTok (s : State) (e : Env) (t : State) : Out := .next (endStep s (t.finishTok e.key e.idx))
def State.accepts (s : State) (e : Env) (t : State) (v : W64) : Out := .next (endStep s (t.accept e.key e.idx v))
def State.faults (s : State) (e : Env) (t : State) (f : Flt) : Out :=
  .next (endStep s (t.syncFault e.key { f with idx := some e.idx }))
def State.waitsFor (s : State) (e : Env) (t : State) (k : WaitK) : Out :=
  .next (endStep s { t with waits := t.waits ++ [⟨e.key, e.idx, k⟩] })

/-! ## An access that meets its page -/

/-- Program order lets an M-format access through (R152). -/
def Ordered (s : State) (e : Env) (m : MFmt) (read rel : Bool) : Prop :=
  s.orderReady e.key e.idx e.blk m.cls.toNat read rel = true

/-- The page of an M-format access is found and grants it (`tr`). -/
def Finds (s : State) (e : Env) (m : MFmt) (use : Bool → Use) (tr : Tr) : Prop :=
  (s.translate e.tile (s.ctx e.key).part (mAddr e m) (use (s.ctx e.key).sup)).1 = .ok tr

/-- The checks of R382 pass: the address is aligned, its page is found and grants the access (`tr`), a tile window admits it,
and so does the bank's role. -/
structure Reaches (s : State) (e : Env) (m : MFmt) (size : Nat) (use : Bool → Use) (bank : BankUse) (tr : Tr) : Prop where
  aligned : (mAddr e m).toNat % size = 0
  found : Finds s e m use tr
  window : ∀ wt off, s.paKind tr.pa = .window wt off →
    s.winPerm e.key (mAddr e m).toNat tr.pa off (!(use (s.ctx e.key).sup).wr) = true ∧
    (0x800000 ≤ off → (use (s.ctx e.key).sup).rd = false ∨ (use (s.ctx e.key).sup).wr = false)
  bank : s.bankCheck (mAddr e m).toNat tr.pa bank = .ok ()

/-- Program order lets an access through at the address it reached: among the block's instructions (R152), and behind no
committed store to the same tile window (R126). -/
structure Free (s : State) (e : Env) (m : MFmt) (read rel : Bool) (tr : Tr) : Prop where
  order : Ordered s e m read rel
  window : s.windowHeld e.key tr.pa = false

/-- No line of the `n` bytes was reached with the other value of MS (R136). -/
def OneWay (s : State) (tr : Tr) (n : Nat) : Prop :=
  s.paKind tr.pa = .hbm → ∀ l ∈ linesOf tr.pa n,
    s.ways.getD 0 (l / 128) = 0 ∨ s.ways.getD 0 (l / 128) = wayOf tr

/-- Within one page, the `n` bytes at an address of a partition are plain bytes of HBM4E that the access `u` of a tile may
read (`tr`). -/
structure ReadsAt (s : State) (t part : Nat) (u : Use) (va : W64) (n : Nat) (tr : Tr) : Prop where
  some : 0 < n
  page : va.toNat % 65536 + n ≤ 65536
  found : (s.translate t part va u).1 = .ok tr
  home : s.paKind tr.pa = .hbm
  way : OneWay s tr n
  clean : s.poisonAt tr.pa n = none

/-- Program order lets a command through, which counts as an access of class 15 (R152, R167). -/
def Goes (s : State) (e : Env) : Prop := s.orderReady e.key e.idx e.blk 15 false false = true

/-- What an operand slot holds: 0 a, 1 b, 2 p, 3 o. -/
def Node.slot (n : Node) : Nat → Option W64
  | 0 => n.a
  | 1 => n.b
  | 2 => n.p.map bitW
  | _ => if n.o then some 0 else none

/-- What a delivery of `v` leaves in a slot (R290): slot p takes bit 0, slot o a token. -/
def slotValue (slot : Nat) (v : W64) : W64 := match slot with
  | 0 => v
  | 1 => v
  | 2 => bitW (v.getLsbD 0)
  | _ => 0

/-! ## An element operation that fires -/

/-- Opcode `opc` in slot `slot` of the element at the focus fires in its region's cycle (R337, R338; a follower's slot is
given and only its ports are checked, R342); `x` is what it sees. -/
structure ElemFires (s : State) (opc slot : Nat) (x : EEnv) : Prop where
  focus : s.focus = .elem x.tile x.e slot
  place : x.rk = 4 * x.tile + x.e / 16
  runs : (s.region x.rk).fires = true
  el : x.el = s.elem (64 * x.tile + x.e)
  trig : x.trig = (s.region x.rk).trig x.e slot
  follow : x.follow = (s.region x.rk).follows x.e
  ready : (if x.follow then trigV x.trig && x.el.ports x.trig else x.el.trigger x.trig) = true
  implicit : x.el.implicit opc x.f x.trig = true
  leader : x.leader = (s.elem (64 * x.tile + x.e - 1)).chain
  rm : x.rm = RM.of (s.region x.rk).rm
  free : x.free = Config.freeWord s.freeCtr

/-- The answer of a firing with the effect `y`: it joins its region's cycle (R339). -/
def State.elemDone (s : State) (opc slot : Nat) (x : EEnv) (y : EEff) : Out :=
  .next (endStep s (((if y.drew then { s with freeCtr := s.freeCtr + 1 } else s).gather x.rk (64 * x.tile + x.e)
    (some (y.apply x opc slot)) y.flags none).count x.tile 4))

/-- The answer of a firing that faults: nothing of it is performed (R341). -/
def State.elemFaults (s : State) (opc slot : Nat) (x : EEnv) : Out :=
  .next (endStep s (s.gather x.rk (64 * x.tile + x.e) none 0 (some (x.mismatch opc slot))))

/-- `r` holds, lane by lane, the values that `g` gives, and `fl` the flags of all of them (R345, R72). -/
def Lanes (x : EEnv) (g : Nat → Nat × Nat) (r : W64) (fl : Nat) : Prop :=
  (∀ i < x.lanes, lane x.w r i = (g i).1 % 2 ^ x.w) ∧
  ∀ j, fl.testBit j = true ↔ ∃ i < x.lanes, (g i).2.testBit j = true

/-- The firing of `i` leaves the lanes and flags that `g` gives, with tag `t`. -/
def GivesLanes (s : State) (i : Instr) (opc slot : Nat) (x : EEnv) (t : Nat) (g : Nat → Nat × Nat) : Prop :=
  ∃ r fl, Lanes x g r fl ∧ exec i s = s.elemDone opc slot x { res := r, tag := t, flags := fl }

/-- An operand of integers for the integer-only operations: untagged, raw, or the integer tag of the lane mode (R344). -/
def IntOperands (x : EEnv) (ops : List EOp) (t : Nat) : Prop :=
  (t = 0 ∨ (13 ≤ t ∧ tagLm t = some x.lm ∧ ∃ o ∈ ops, o.tag = some t)) ∧
  ∀ o ∈ ops, o.tag = none ∨ o.tag = some 0 ∨ o.tag = some t

/-! ## Plain readings of the spec's operators -/

/-- Bits 31:0 of an operand, and a 32-bit result as a .W instruction delivers it (R311). -/
def lo32 (x : W64) : BitVec 32 := x.extractLsb' 0 32
def sx32 (r : BitVec 32) : W64 := r.signExtend 64

/-- The conditions of R291 on two n-bit operands. -/
def condHolds {n : Nat} (c : Nat) (a b : BitVec n) : Bool := match c with
  | 0 => a == b
  | 1 => a != b
  | 2 => a.slt b
  | 3 => !(a.slt b)
  | 4 => a.ult b
  | 5 => !(a.ult b)
  | 6 => a.sle b
  | _ => a.ule b

/-- An exact integer clamped to n-bit two's complement (R316). -/
def clampS (n : Nat) (z : Int) : BitVec n :=
  BitVec.ofInt n (max (-(2 ^ (n - 1) : Nat) : Int) (min ((2 ^ (n - 1) : Nat) - 1 : Int) z))

/-! ## Frames -/

/-- Every byte of memory reads as before. -/
def SameMem (s t : State) : Prop := ∀ a, Mem.get t.mem a = Mem.get s.mem a

/-- Every context is as before but for a fault that the step may have raised, and every tile but for its performance
counters (R260). -/
structure SameRegs (s t : State) : Prop where
  ctxs : ∀ k, ({ t.ctx k with sync := none } : Ctx) = { s.ctx k with sync := none }
  tiles : ∀ k, ({ t.tile k with pmc := [], pmovf := 0 } : Tile) = { s.tile k with pmc := [], pmovf := 0 }

/-- Nothing but the block in flight, a raised fault and the performance counters has changed: memory, registers, special
registers, units, tables and queues are as before. -/
structure OnlyBlock (s t : State) : Prop where
  mem : SameMem s t
  regs : SameRegs s t
  rest : ({ t with mem := [], log := [], focus := .nowhere, blks := [], ctxs := [], tiles := [] } : State) =
    { s with mem := [], log := [], focus := .nowhere, blks := [], ctxs := [], tiles := [] }

/-- `u` is `t` but for what accounts for traffic and what only moves copies: port queues, slices, translations held, the
copies that tile caches hold, the record of how lines were reached, and performance counters. -/
structure OnlyTraffic (t u : State) : Prop where
  tiles : ∀ k, ({ u.tile k with mesh := {}, ring := {}, tlb := [], pmc := [], pmovf := 0 } : Tile) =
    { t.tile k with mesh := {}, ring := {}, tlb := [], pmc := [], pmovf := 0 }
  rest : ({ u with tiles := [], slices := [], tcache := [], slowq := [], dieTlb := [], ways := [] } : State) =
    { t with tiles := [], slices := [], tcache := [], slowq := [], dieTlb := [], ways := [] }

/-- Every context is as before but for a raised fault and its irrevocable buffer. -/
def SameFile (s t : State) : Prop :=
  ∀ k, ({ t.ctx k with sync := none, irv := [] } : Ctx) = { s.ctx k with sync := none, irv := [] }

/-- Memory reads as before outside `n` bytes from `pa`. -/
def MemOutside (s t : State) (pa n : Nat) : Prop := ∀ a, a < pa ∨ pa + n ≤ a → Mem.get t.mem a = Mem.get s.mem a

/-- Memory reads as before outside `n` bytes from `pa`, a store's, and the valid table entries that they fall into (R217). -/
def StoreOutside (s t : State) (pa n : Nat) : Prop :=
  ∀ a, (a < pa ∨ pa + n ≤ a) → (∀ o ∈ s.tableOver pa n, o.2.2 = true → a < o.1 ∨ o.1 + o.2.1 ≤ a) →
    Mem.get t.mem a = Mem.get s.mem a

/-- The functions of R389 on two n-bit words. -/
def amoVal {n : Nat} (fn : Nat) (old x : BitVec n) : BitVec n := match fn with
  | 0 => x
  | 1 => old + x
  | 2 => old &&& x
  | 3 => old ||| x
  | 4 => if x.slt old then x else old
  | 5 => if old.slt x then x else old
  | 6 => if x.ult old then x else old
  | _ => if old.ult x then x else old

/-! ## The invariant -/

/-- Between steps: memory is in its canonical form and no write of a finished step is outstanding. -/
structure Inv (s : State) : Prop where
  mem : Mem.wf s.mem = true
  log : s.log = []
  focus : s.focus = .nowhere

end Sys2Proof.Machine
end

