-- ==== Sys2Proof/Certificates/Slice0/Obligations.lean ====
section
/-! DEFINITION. What is claimed of the machine: statements for the provers. -/

section

open Sys2Proof Sys2Proof.Machine

/-- R316, R317: The sums, products, negation and absolute value of group INTEGER, in both widths. Division truncates
toward zero and never faults. Minima, maxima and saturating sums. -/
def Obligations.IntegerResults : Prop :=
  (∀ (s : State) (e : Env) (imm : BitVec 27),
    (Fires.of s (.add e.h false) e → exec (.add e.h false) s = s.answers e (e.a + e.b)) ∧
    (Fires.of s (.add e.h true) e → exec (.add e.h true) s = s.answers e (sx32 (lo32 e.a + lo32 e.b))) ∧
    (Fires.of s (.addi e.h false imm) e → exec (.addi e.h false imm) s = s.answers e (e.a + imm.signExtend 64)) ∧
    (Fires.of s (.addi e.h true imm) e → exec (.addi e.h true imm) s = s.answers e (sx32 (lo32 e.a + imm.signExtend 32))) ∧
    (Fires.of s (.sub e.h false) e → exec (.sub e.h false) s = s.answers e (e.a - e.b)) ∧
    (Fires.of s (.sub e.h true) e → exec (.sub e.h true) s = s.answers e (sx32 (lo32 e.a - lo32 e.b))) ∧
    (Fires.of s (.mul e.h false) e → exec (.mul e.h false) s = s.answers e (e.a * e.b)) ∧
    (Fires.of s (.mul e.h true) e → exec (.mul e.h true) s = s.answers e (sx32 (lo32 e.a * lo32 e.b))) ∧
    (Fires.of s (.mulh e.h false) e → exec (.mulh e.h false) s =
      s.answers e ((e.a.signExtend 128 * e.b.signExtend 128).extractLsb' 64 64)) ∧
    (Fires.of s (.mulh e.h true) e → exec (.mulh e.h true) s =
      s.answers e (sx32 (((lo32 e.a).signExtend 64 * (lo32 e.b).signExtend 64).extractLsb' 32 32))) ∧
    (Fires.of s (.mulhu e.h false) e → exec (.mulhu e.h false) s =
      s.answers e ((e.a.setWidth 128 * e.b.setWidth 128).extractLsb' 64 64)) ∧
    (Fires.of s (.mulhu e.h true) e → exec (.mulhu e.h true) s =
      s.answers e (sx32 (((lo32 e.a).setWidth 64 * (lo32 e.b).setWidth 64).extractLsb' 32 32))) ∧
    (Fires.of s (.neg e.h false) e → exec (.neg e.h false) s = s.answers e (-e.a)) ∧
    (Fires.of s (.neg e.h true) e → exec (.neg e.h true) s = s.answers e (sx32 (-(lo32 e.a)))) ∧
    (Fires.of s (.abs_ e.h false) e → exec (.abs_ e.h false) s = s.answers e (if e.a.slt 0 then -e.a else e.a)) ∧
    (Fires.of s (.abs_ e.h true) e → exec (.abs_ e.h true) s =
      s.answers e (sx32 (if (lo32 e.a).slt 0 then -(lo32 e.a) else lo32 e.a)))) ∧
  (∀ (s : State) (e : Env),
    (Fires.of s (.div e.h false) e → exec (.div e.h false) s =
      s.answers e (if e.b = 0 then BitVec.allOnes 64 else e.a.sdiv e.b)) ∧
    (Fires.of s (.div e.h true) e → exec (.div e.h true) s =
      s.answers e (sx32 (if lo32 e.b = 0 then BitVec.allOnes 32 else (lo32 e.a).sdiv (lo32 e.b)))) ∧
    (Fires.of s (.rem e.h false) e → exec (.rem e.h false) s = s.answers e (if e.b = 0 then e.a else e.a.srem e.b)) ∧
    (Fires.of s (.rem e.h true) e → exec (.rem e.h true) s =
      s.answers e (sx32 (if lo32 e.b = 0 then lo32 e.a else (lo32 e.a).srem (lo32 e.b)))) ∧
    (Fires.of s (.divu e.h false) e → exec (.divu e.h false) s =
      s.answers e (if e.b = 0 then BitVec.allOnes 64 else e.a / e.b)) ∧
    (Fires.of s (.divu e.h true) e → exec (.divu e.h true) s =
      s.answers e (sx32 (if lo32 e.b = 0 then BitVec.allOnes 32 else lo32 e.a / lo32 e.b))) ∧
    (Fires.of s (.remu e.h false) e → exec (.remu e.h false) s = s.answers e (if e.b = 0 then e.a else e.a % e.b)) ∧
    (Fires.of s (.remu e.h true) e → exec (.remu e.h true) s =
      s.answers e (sx32 (if lo32 e.b = 0 then lo32 e.a else lo32 e.a % lo32 e.b)))) ∧
  (∀ (s : State) (e : Env),
    (Fires.of s (.min e.h false) e → exec (.min e.h false) s = s.answers e (if e.a.slt e.b then e.a else e.b)) ∧
    (Fires.of s (.min e.h true) e → exec (.min e.h true) s =
      s.answers e (sx32 (if (lo32 e.a).slt (lo32 e.b) then lo32 e.a else lo32 e.b))) ∧
    (Fires.of s (.max e.h false) e → exec (.max e.h false) s = s.answers e (if e.a.slt e.b then e.b else e.a)) ∧
    (Fires.of s (.max e.h true) e → exec (.max e.h true) s =
      s.answers e (sx32 (if (lo32 e.a).slt (lo32 e.b) then lo32 e.b else lo32 e.a))) ∧
    (Fires.of s (.minu e.h false) e → exec (.minu e.h false) s = s.answers e (if e.a.ult e.b then e.a else e.b)) ∧
    (Fires.of s (.minu e.h true) e → exec (.minu e.h true) s =
      s.answers e (sx32 (if (lo32 e.a).ult (lo32 e.b) then lo32 e.a else lo32 e.b))) ∧
    (Fires.of s (.maxu e.h false) e → exec (.maxu e.h false) s = s.answers e (if e.a.ult e.b then e.b else e.a)) ∧
    (Fires.of s (.maxu e.h true) e → exec (.maxu e.h true) s =
      s.answers e (sx32 (if (lo32 e.a).ult (lo32 e.b) then lo32 e.b else lo32 e.a))) ∧
    (Fires.of s (.adds e.h false) e → exec (.adds e.h false) s = s.answers e (clampS 64 (e.a.toInt + e.b.toInt))) ∧
    (Fires.of s (.adds e.h true) e → exec (.adds e.h true) s =
      s.answers e (sx32 (clampS 32 ((lo32 e.a).toInt + (lo32 e.b).toInt)))) ∧
    (Fires.of s (.subs e.h false) e → exec (.subs e.h false) s = s.answers e (clampS 64 (e.a.toInt - e.b.toInt))) ∧
    (Fires.of s (.subs e.h true) e → exec (.subs e.h true) s =
      s.answers e (sx32 (clampS 32 ((lo32 e.a).toInt - (lo32 e.b).toInt)))))

/-- R318: Bitwise operations, shifts and the rotation, in both widths. Counts, bit fields and extensions, of a field
that stays within the width. -/
def Obligations.LogicResults : Prop :=
  (∀ (s : State) (e : Env) (imm : BitVec 27) (k : BitVec 6),
    (Fires.of s (.and_ e.h false) e → exec (.and_ e.h false) s = s.answers e (e.a &&& e.b)) ∧
    (Fires.of s (.and_ e.h true) e → exec (.and_ e.h true) s = s.answers e (sx32 (lo32 e.a &&& lo32 e.b))) ∧
    (Fires.of s (.andi e.h false imm) e → exec (.andi e.h false imm) s = s.answers e (e.a &&& imm.signExtend 64)) ∧
    (Fires.of s (.andi e.h true imm) e → exec (.andi e.h true imm) s = s.answers e (sx32 (lo32 e.a &&& imm.signExtend 32))) ∧
    (Fires.of s (.or_ e.h false) e → exec (.or_ e.h false) s = s.answers e (e.a ||| e.b)) ∧
    (Fires.of s (.or_ e.h true) e → exec (.or_ e.h true) s = s.answers e (sx32 (lo32 e.a ||| lo32 e.b))) ∧
    (Fires.of s (.ori e.h false imm) e → exec (.ori e.h false imm) s = s.answers e (e.a ||| imm.signExtend 64)) ∧
    (Fires.of s (.ori e.h true imm) e → exec (.ori e.h true imm) s = s.answers e (sx32 (lo32 e.a ||| imm.signExtend 32))) ∧
    (Fires.of s (.xor e.h false) e → exec (.xor e.h false) s = s.answers e (e.a ^^^ e.b)) ∧
    (Fires.of s (.xor e.h true) e → exec (.xor e.h true) s = s.answers e (sx32 (lo32 e.a ^^^ lo32 e.b))) ∧
    (Fires.of s (.xori e.h false imm) e → exec (.xori e.h false imm) s = s.answers e (e.a ^^^ imm.signExtend 64)) ∧
    (Fires.of s (.xori e.h true imm) e → exec (.xori e.h true imm) s = s.answers e (sx32 (lo32 e.a ^^^ imm.signExtend 32))) ∧
    (Fires.of s (.not_ e.h false) e → exec (.not_ e.h false) s = s.answers e (~~~e.a)) ∧
    (Fires.of s (.not_ e.h true) e → exec (.not_ e.h true) s = s.answers e (sx32 (~~~(lo32 e.a)))) ∧
    (Fires.of s (.shl e.h false) e → exec (.shl e.h false) s = s.answers e (e.a <<< (e.b.toNat % 64))) ∧
    (Fires.of s (.shl e.h true) e → exec (.shl e.h true) s = s.answers e (sx32 (lo32 e.a <<< (e.b.toNat % 32)))) ∧
    (Fires.of s (.shli e.h false k) e → exec (.shli e.h false k) s = s.answers e (e.a <<< k.toNat)) ∧
    (k.toNat < 32 → Fires.of s (.shli e.h true k) e →
      exec (.shli e.h true k) s = s.answers e (sx32 (lo32 e.a <<< k.toNat))) ∧
    (Fires.of s (.shr e.h false) e → exec (.shr e.h false) s = s.answers e (e.a >>> (e.b.toNat % 64))) ∧
    (Fires.of s (.shr e.h true) e → exec (.shr e.h true) s = s.answers e (sx32 (lo32 e.a >>> (e.b.toNat % 32)))) ∧
    (Fires.of s (.shri e.h false k) e → exec (.shri e.h false k) s = s.answers e (e.a >>> k.toNat)) ∧
    (k.toNat < 32 → Fires.of s (.shri e.h true k) e →
      exec (.shri e.h true k) s = s.answers e (sx32 (lo32 e.a >>> k.toNat))) ∧
    (Fires.of s (.sar e.h false) e → exec (.sar e.h false) s = s.answers e (e.a.sshiftRight (e.b.toNat % 64))) ∧
    (Fires.of s (.sar e.h true) e → exec (.sar e.h true) s = s.answers e (sx32 ((lo32 e.a).sshiftRight (e.b.toNat % 32)))) ∧
    (Fires.of s (.sari e.h false k) e → exec (.sari e.h false k) s = s.answers e (e.a.sshiftRight k.toNat)) ∧
    (k.toNat < 32 → Fires.of s (.sari e.h true k) e →
      exec (.sari e.h true k) s = s.answers e (sx32 ((lo32 e.a).sshiftRight k.toNat))) ∧
    (Fires.of s (.rotl e.h false) e → exec (.rotl e.h false) s = s.answers e (e.a.rotateLeft (e.b.toNat % 64))) ∧
    (Fires.of s (.rotl e.h true) e → exec (.rotl e.h true) s = s.answers e (sx32 ((lo32 e.a).rotateLeft (e.b.toNat % 32))))) ∧
  (∀ (s : State) (e : Env) (lo len k : BitVec 6),
    (Fires.of s (.clz e.h false) e → ∃ n : Nat, n ≤ 64 ∧ e.a.toNat < 2 ^ (64 - n) ∧ (n < 64 → 2 ^ (63 - n) ≤ e.a.toNat) ∧
      exec (.clz e.h false) s = s.answers e (w64 n)) ∧
    (Fires.of s (.clz e.h true) e → ∃ n : Nat, n ≤ 32 ∧ (lo32 e.a).toNat < 2 ^ (32 - n) ∧
      (n < 32 → 2 ^ (31 - n) ≤ (lo32 e.a).toNat) ∧ exec (.clz e.h true) s = s.answers e (w64 n)) ∧
    (Fires.of s (.ctz e.h false) e → ∃ n : Nat, n ≤ 64 ∧ (∀ j < n, e.a.getLsbD j = false) ∧
      (n < 64 → e.a.getLsbD n = true) ∧ exec (.ctz e.h false) s = s.answers e (w64 n)) ∧
    (Fires.of s (.ctz e.h true) e → ∃ n : Nat, n ≤ 32 ∧ (∀ j < n, e.a.getLsbD j = false) ∧
      (n < 32 → e.a.getLsbD n = true) ∧ exec (.ctz e.h true) s = s.answers e (w64 n)) ∧
    (Fires.of s (.popc e.h false) e → exec (.popc e.h false) s = s.answers e (w64 ((List.range 64).countP e.a.getLsbD))) ∧
    (Fires.of s (.popc e.h true) e → exec (.popc e.h true) s = s.answers e (w64 ((List.range 32).countP e.a.getLsbD))) ∧
    (lo.toNat + len.toNat < 64 → Fires.of s (.bext e.h false lo len) e → exec (.bext e.h false lo len) s =
      s.answers e ((e.a.extractLsb' lo.toNat (len.toNat + 1)).setWidth 64)) ∧
    (lo.toNat + len.toNat < 32 → Fires.of s (.bext e.h true lo len) e → exec (.bext e.h true lo len) s =
      s.answers e (sx32 (((lo32 e.a).extractLsb' lo.toNat (len.toNat + 1)).setWidth 32))) ∧
    (lo.toNat + len.toNat < 64 → Fires.of s (.bins e.h false lo len) e → ∃ v : W64,
      (∀ j < 64, v.getLsbD j = if lo.toNat ≤ j ∧ j ≤ lo.toNat + len.toNat then e.b.getLsbD (j - lo.toNat) else e.a.getLsbD j) ∧
      exec (.bins e.h false lo len) s = s.answers e v) ∧
    (lo.toNat + len.toNat < 32 → Fires.of s (.bins e.h true lo len) e → ∃ v : BitVec 32,
      (∀ j < 32, v.getLsbD j = if lo.toNat ≤ j ∧ j ≤ lo.toNat + len.toNat then e.b.getLsbD (j - lo.toNat) else e.a.getLsbD j) ∧
      exec (.bins e.h true lo len) s = s.answers e (sx32 v)) ∧
    (Fires.of s (.sext e.h false k) e → exec (.sext e.h false k) s =
      s.answers e ((e.a.extractLsb' 0 (k.toNat + 1)).signExtend 64)) ∧
    (k.toNat < 32 → Fires.of s (.sext e.h true k) e → exec (.sext e.h true k) s =
      s.answers e (sx32 ((e.a.extractLsb' 0 (k.toNat + 1)).signExtend 32))) ∧
    (Fires.of s (.zext e.h false k) e → exec (.zext e.h false k) s =
      s.answers e ((e.a.extractLsb' 0 (k.toNat + 1)).setWidth 64)) ∧
    (k.toNat < 32 → Fires.of s (.zext e.h true k) e → exec (.zext e.h true k) s =
      s.answers e (sx32 ((e.a.extractLsb' 0 (k.toNat + 1)).setWidth 32))))

/-- R320, R314, R291: Comparisons, predicate logic, moves and constants. -/
def Obligations.CompareAndMoveResults : Prop := ∀ (s : State) (e : Env) (c : BitVec 3) (imm : BitVec 27) (k : BitVec 41),
  (Fires.of s (.cmp e.h false c) e → exec (.cmp e.h false c) s = s.answers e (bitW (condHolds c.toNat e.a e.b))) ∧
  (Fires.of s (.cmp e.h true c) e → exec (.cmp e.h true c) s = s.answers e (bitW (condHolds c.toNat (lo32 e.a) (lo32 e.b)))) ∧
  (Fires.of s (.cmpi e.h false c imm) e → exec (.cmpi e.h false c imm) s =
    s.answers e (bitW (condHolds c.toNat e.a (imm.signExtend 64)))) ∧
  (Fires.of s (.cmpi e.h true c imm) e → exec (.cmpi e.h true c imm) s =
    s.answers e (bitW (condHolds c.toNat (lo32 e.a) (imm.signExtend 32)))) ∧
  (Fires.of s (.sel e.h) e → exec (.sel e.h) s = s.answers e (if e.p then e.a else e.b)) ∧
  (Fires.of s (.pand e.h) e → exec (.pand e.h) s = s.answers e (bitW (e.a.getLsbD 0 && e.b.getLsbD 0))) ∧
  (Fires.of s (.por e.h) e → exec (.por e.h) s = s.answers e (bitW (e.a.getLsbD 0 || e.b.getLsbD 0))) ∧
  (Fires.of s (.pnot e.h) e → exec (.pnot e.h) s = s.answers e (bitW (!e.a.getLsbD 0))) ∧
  (Fires.of s (.nop e.h) e → exec (.nop e.h) s = s.answers e 0) ∧
  (Fires.of s (.const_ e.h k) e → exec (.const_ e.h k) s = s.answers e (k.signExtend 64)) ∧
  (Fires.of s (.movi e.h imm) e → exec (.movi e.h imm) s = s.answers e (imm.signExtend 64)) ∧
  (Fires.of s (.mov e.h) e → exec (.mov e.h) s = s.answers e e.a)

/-- R321, R322, R323, R82: Address arithmetic, WID fields and tensor-map addresses; a map with V = 0 faults. -/
def Obligations.AddressResults : Prop := ∀ (s : State) (e : Env) (imm : BitVec 27) (k : BitVec 6) (i : BitVec 3) (n : BitVec 4),
  (Fires.of s (.lea e.h false imm) e → exec (.lea e.h false imm) s =
    s.answers e (e.a + e.b <<< (imm.extractLsb' 24 3).toNat + (imm.extractLsb' 0 24).signExtend 64)) ∧
  (Fires.of s (.lea e.h true imm) e → exec (.lea e.h true imm) s =
    s.answers e (sx32 (lo32 e.a + lo32 e.b <<< (imm.extractLsb' 24 3).toNat + (imm.extractLsb' 0 24).signExtend 32))) ∧
  (Fires.of s (.alignup e.h false k) e → exec (.alignup e.h false k) s =
    s.answers e ((e.a + (1#64 <<< k.toNat - 1)) &&& ~~~(1#64 <<< k.toNat - 1))) ∧
  (k.toNat < 32 → Fires.of s (.alignup e.h true k) e → exec (.alignup e.h true k) s =
    s.answers e (sx32 ((lo32 e.a + (1#32 <<< k.toNat - 1)) &&& ~~~(1#32 <<< k.toNat - 1)))) ∧
  (Fires.of s (.modadd e.h) e → exec (.modadd e.h) s =
    s.answers e (if e.b.toNat / 2 ^ 32 = 0 then e.a + (lo32 e.b).setWidth 64
      else w64 ((e.a.toNat + (lo32 e.b).toNat) % (e.b.toNat / 2 ^ 32)))) ∧
  (Fires.of s (.widf e.h i) e → exec (.widf e.h i) s =
    s.ends e id (if i.toNat < (s.ctx e.key).widfmt.toNat % 8 then
      w64 (e.a.toNat / 2 ^ widOff (s.ctx e.key).widfmt.toNat i.toNat % 2 ^ widW (s.ctx e.key).widfmt.toNat i.toNat) else 0)) ∧
  (Fires.of s (.widl e.h) e → exec (.widl e.h) s =
    s.ends e id (if e.b.toNat ≤ (s.ctx e.key).widfmt.toNat % 8 then
      w64 (e.a.toNat / 2 ^ widOff (s.ctx e.key).widfmt.toNat e.b.toNat) else 0)) ∧
  (((s.ctx e.key).tms.getD 0 n.toNat).getLsbD 255 = true → Fires.of s (.tmapx e.h n) e → exec (.tmapx e.h n) s =
    s.ends e id (tmapAddr ((s.ctx e.key).tms.getD 0 n.toNat) (lo32 e.a).toNat (e.a.toNat / 2 ^ 32) (lo32 e.b).toNat)) ∧
  (((s.ctx e.key).tms.getD 0 n.toNat).getLsbD 255 = false → Fires.of s (.tmapx e.h n) e → exec (.tmapx e.h n) s =
    s.traps e { code := .reservedField, extra := e.word })

/-- R76, R102, R288, R314: GET delivers the committed value, PUT and NULL record a write of a register, and a block
that ends with a second write of one register faults SLOT_CONFLICT at the instruction that made it. -/
def Obligations.GeneralRegisters : Prop := ∀ (s : State) (e : Env) (r : BitVec 6),
  (Fires.of s (.get e.h r) e → exec (.get e.h r) s =
    s.ends e id (if r = 0 then 0 else (s.ctx e.key).g.getD 0 r.toNat)) ∧
  (Fires.of s (.put e.h r) e → exec (.put e.h r) s =
    s.endsNone e (fun t => t.updBlk e.key (fun b => { b with writes := b.writes ++ [(e.idx, r.toNat, some e.a)] }))) ∧
  (Fires.of s (.null_ e.h r) e → exec (.null_ e.h r) s =
    s.endsNone e (fun t => t.updBlk e.key (fun b => { b with writes := b.writes ++ [(e.idx, r.toNat, none)] }))) ∧
  (∀ (t c z : Nat) (v : W64) (d : List Byte) (b : Blk) (p q : List (Nat × Nat × Option W64)) (i : Nat) (w : Option W64),
    s.focus = .ev t c z v d → z ≠ 1 → s.blks.get? (ctxKey t c) = some b → s.blockEnds (ctxKey t c) b = true →
    (s.ctx (ctxKey t c)).kill = false → b.exits.length ≤ 1 → b.writes = p ++ (i, r.toNat, w) :: q →
    (p.map (fun x => x.2.1)).Nodup → r.toNat ∈ p.map (fun x => x.2.1) →
    exec .blockCommit s = .next (endStep s
      (s.syncFault (ctxKey t c) { code := .slotConflict, idx := some i, late := true })))

/-- R79, R80, R92, R93, R315: CSRR delivers the value that a register held when its cycle began, whatever the cycle
has changed since, CSRW, CSRS and CSRC leave their operand for the commit. `s0` is the state that the cycle's plan
looked at, `l` its issues; outside a cycle's plan a register reads as it stands. The faults of a register access: a
number that is not listed, a write of a read-only register, a register of S reached from U, a value that breaks its
register's rule. -/
def Obligations.ControlRegisters : Prop :=
  (∀ (s s0 : State) (l : List (Nat × Nat × Nat)) (e : Env) (num : BitVec 12),
    let planned := fun (n : BitVec 12) => s.csrNow = s0.csrReads l ∧ (e.tile, e.ctx, e.idx) ∈ l ∧
      s0.actInstr (.fire e.tile e.ctx e.idx) = some (.csrr e.h n) ∧ Fires.of s (.csrr e.h n) e
    (csrCheck (s.ctx e.key) e.word num.toNat false = none → num ≠ 0x030 → num ≠ 0x040 → planned num →
      exec (.csrr e.h num) s = s.ends e id (w64 (s0.csrRead e.key num.toNat))) ∧
    (csrCheck (s.ctx e.key) e.word num.toNat false = none → num ≠ 0x030 → num ≠ 0x040 → s.csrNow = [] →
      Fires.of s (.csrr e.h num) e → exec (.csrr e.h num) s = s.ends e id (w64 ((s.begun e).csrRead e.key num.toNat))) ∧
    (planned 0x000 → exec (.csrr e.h 0x000) s = s.ends e id (s0.ctx e.key).fpstat) ∧
    (planned 0x010 → exec (.csrr e.h 0x010) s = s.ends e id (s0.ctx e.key).wid) ∧
    (planned 0x011 → exec (.csrr e.h 0x011) s = s.ends e id (s0.ctx e.key).taskv) ∧
    (planned 0x012 → exec (.csrr e.h 0x012) s = s.ends e id (s0.ctx e.key).ltag) ∧
    (planned 0x015 → exec (.csrr e.h 0x015) s = s.ends e id (w64 (s0.ctx e.key).incar)) ∧
    (planned 0x020 → exec (.csrr e.h 0x020) s = s.ends e id s0.cycle) ∧
    (Fires.of s (.csrr e.h 0x030) e → exec (.csrr e.h 0x030) s = s.ends e id (w64 e.blk.tmv)) ∧
    (Fires.of s (.csrr e.h 0x040) e → exec (.csrr e.h 0x040) s = s.ends e id (w64 e.blk.pbinfo)) ∧
    (csrCheck (s.ctx e.key) e.word num.toNat true = none →
      (csrValueOk num.toNat e.a = true → Fires.of s (.csrw e.h num) e → exec (.csrw e.h num) s =
        s.endsNone e (fun t => t.updBlk e.key (fun b => { b with csrw := b.csrw ++ [(e.idx, num.toNat, e.a, 0)] }))) ∧
      (csrValueOk num.toNat (w64 ((s.begun e).csrRead e.key num.toNat) ||| e.a) = true → Fires.of s (.csrs e.h num) e →
        exec (.csrs e.h num) s =
        s.endsNone e (fun t => t.updBlk e.key (fun b => { b with csrw := b.csrw ++ [(e.idx, num.toNat, e.a, 1)] }))) ∧
      (csrValueOk num.toNat (w64 ((s.begun e).csrRead e.key num.toNat) &&& ~~~e.a) = true → Fires.of s (.csrc e.h num) e →
        exec (.csrc e.h num) s =
        s.endsNone e (fun t => t.updBlk e.key (fun b => { b with csrw := b.csrw ++ [(e.idx, num.toNat, e.a, 2)] }))))) ∧
  (∀ (s : State) (e : Env) (num : BitVec 12),
    ((csrLow num.toNat || csrListed num.toNat) = false →
      (Fires.of s (.csrr e.h num) e → exec (.csrr e.h num) s =
        s.traps e { code := .reservedField, addr := w64 num.toNat, extra := e.word }) ∧
      (Fires.of s (.csrw e.h num) e → exec (.csrw e.h num) s =
        s.traps e { code := .reservedField, addr := w64 num.toNat, extra := e.word })) ∧
    ((s.ctx e.key).sup = false → csrListed num.toNat = true → csrUser (s.ctx e.key) num.toNat = false →
      (Fires.of s (.csrr e.h num) e → exec (.csrr e.h num) s =
        s.traps e { code := .privilege, addr := w64 num.toNat, extra := e.word }) ∧
      (Fires.of s (.csrs e.h num) e → exec (.csrs e.h num) s =
        s.traps e { code := .privilege, addr := w64 num.toNat, extra := e.word })) ∧
    ((csrLow num.toNat || csrListed num.toNat) = true → csrRw num.toNat = false →
      (Fires.of s (.csrw e.h num) e → exec (.csrw e.h num) s =
        s.traps e { code := .privilege, addr := w64 num.toNat, extra := e.word }) ∧
      (Fires.of s (.csrc e.h num) e → exec (.csrc e.h num) s =
        s.traps e { code := .privilege, addr := w64 num.toNat, extra := e.word })) ∧
    ((s.ctx e.key).sup = true → e.a.toNat % 4096 ≠ 0 → Fires.of s (.csrw e.h 0x121) e → exec (.csrw e.h 0x121) s =
      s.traps e { code := .reservedField, addr := 0x121, extra := e.word }))

/-- R102, R288, R295, R324, R325, R326, R327, R328, R329: What an exit leaves for the commit, beside any that has
fired before it. A block that ends with two exits fired and no register written twice faults MULTI_EXIT at the second,
with both in EXTRA; a computed target that is not 64-byte aligned faults BRANCH_ALIGN, and ERET outside a handler
PRIVILEGE. SWITCH loads its target as a plain load of alias class 15, from the local store or from HBM4E, and exits to
it when it is aligned. -/
def Obligations.ExitsFire : Prop :=
  (∀ (s : State) (e : Env) (x : BitVec 3) (ofs : BitVec 28) (imm : BitVec 27),
    let tgt := e.blk.addr + ofs.signExtend 64 * 64
    let ret := e.blk.addr + w64 (64 + 64 * ((e.blk.words.length + 7) / 8))
    let exit := fun (x : Nat) (k : ExitKind) (a : W64) (t : State) =>
      t.updBlk e.key (fun b => { b with exits := b.exits ++ [(x, e.idx, k, a, e.a)] })
    (Fires.of s (.br e.h x ofs) e → exec (.br e.h x ofs) s = s.endsNone e (exit x.toNat .plain tgt)) ∧
    (e.a.toNat % 64 = 0 → Fires.of s (.brr e.h x) e → exec (.brr e.h x) s = s.endsNone e (exit x.toNat .plain e.a)) ∧
    (Fires.of s (.call e.h x ofs) e → exec (.call e.h x ofs) s =
      s.ends e (fun t => (exit x.toNat .plain tgt t).rasPush e.key ret) ret) ∧
    (e.a.toNat % 64 = 0 → Fires.of s (.callr e.h x) e → exec (.callr e.h x) s =
      s.ends e (fun t => (exit x.toNat .plain e.a t).rasPush e.key ret) ret) ∧
    (e.a.toNat % 64 = 0 → Fires.of s (.ret_ e.h x) e → exec (.ret_ e.h x) s =
      s.endsNone e (fun t => (exit x.toNat .plain e.a t).rasPop e.key)) ∧
    (Fires.of s (.trap e.h imm) e → exec (.trap e.h imm) s = s.endsNone e (exit 0 .trap ret)) ∧
    (Fires.of s (.svc e.h imm) e → exec (.svc e.h imm) s = s.endsNone e (exit 0 .svc ret)) ∧
    ((s.ctx e.key).inh = true → Fires.of s (.eret e.h x) e → exec (.eret e.h x) s = s.endsNone e (exit x.toNat .eret 0)) ∧
    (Fires.of s (.halt e.h x) e → exec (.halt e.h x) s = s.endsNone e (exit x.toNat .halt 0))) ∧
  (∀ (s : State) (e : Env) (x : BitVec 3),
    (∀ (t c z : Nat) (v : W64) (d : List Byte) (b : Blk) (y y' : Nat × Nat × ExitKind × W64 × W64),
      s.focus = .ev t c z v d → z ≠ 1 → s.blks.get? (ctxKey t c) = some b → s.blockEnds (ctxKey t c) b = true →
      (s.ctx (ctxKey t c)).kill = false → b.exits = [y, y'] → (b.writes.map (fun w => w.2.1)).Nodup →
      exec .blockCommit s = .next (endStep s (s.syncFault (ctxKey t c)
        { code := .multiExit, idx := some y'.2.1, late := true, extra := w64 (Nat.lor (2 ^ y.1) (2 ^ y'.1)) }))) ∧
    (e.a.toNat % 64 ≠ 0 →
      (Fires.of s (.brr e.h x) e → exec (.brr e.h x) s =
        s.traps e { code := .branchAlign, addr := e.a, extra := w64 x.toNat }) ∧
      (Fires.of s (.callr e.h x) e → exec (.callr e.h x) s =
        s.traps e { code := .branchAlign, addr := e.a, extra := w64 x.toNat }) ∧
      (Fires.of s (.ret_ e.h x) e → exec (.ret_ e.h x) s =
        s.traps e { code := .branchAlign, addr := e.a, extra := w64 x.toNat })) ∧
    ((s.ctx e.key).inh = false → Fires.of s (.eret e.h x) e →
      exec (.eret e.h x) s = s.traps e { code := .privilege, extra := e.word })) ∧
  (∀ (s : State) (e : Env) (x : BitVec 3) (tr : Tr),
    let m : MFmt := { ts := 6, cls := 15, ord := 0, scp := 0, ow := false, ofs := 0 }
    let f : Env := { e with a := e.a + w64 (8 * e.b.toNat) }
    let v := w64 (forward e.blk e.idx 15 tr.pa 8 (s.rd tr.pa 8))
    Fires.of s (.switch e.h x) e → Reaches s f m 8 useLoad .plain tr → Free s f m true false tr →
    s.queueRead tr 8 = none →
    ((∃ wt off, s.paKind tr.pa = .window wt off ∧ off < 0x400000 ∧ s.poisonAt tr.pa 8 = none) ∨
      (s.paKind tr.pa = .hbm ∧ s.cached e.tile tr = none ∧ s.poisoned tr.pa = false ∧ OneWay s tr 8)) →
    (v.toNat % 64 = 0 → ∃ u, OnlyTraffic (s.begun e) u ∧ exec (.switch e.h x) s = .next (endStep s
      ((u.updBlk e.key (fun b => { b with exits := b.exits ++ [(x.toNat, e.idx, .plain, v, e.a)] })).finishNone e.key e.idx))) ∧
    (v.toNat % 64 ≠ 0 → ∃ u, OnlyTraffic (s.begun e) u ∧
      exec (.switch e.h x) s = s.faults e u { code := .branchAlign, addr := v, extra := w64 x.toNat }))

/-- R330, R331, R336: YIELD leaves its window for the commit; WAITEV answers a masked event at once and else waits;
TLBINV drops the translations it names and completes at once, walks in flight too: that is the model's choice, log 16.
WAITEV and TLBINV are of S only. -/
def Obligations.WaitAndInvalidate : Prop := ∀ (s : State) (e : Env),
  let ev := (s.tile e.tile).evstat &&& (s.tile e.tile).evmask
  let asn := e.b.toNat % 2 ^ 16
  (Fires.of s (.yield e.h) e → exec (.yield e.h) s =
    s.endsNone e (fun t => t.updBlk e.key (fun b => { b with yield := true }))) ∧
  ((s.ctx e.key).sup = true →
    (ev ≠ 0 → Fires.of s (.waitev e.h) e → exec (.waitev e.h) s = s.ends e id ev) ∧
    (ev = 0 → e.a = 0 → Fires.of s (.waitev e.h) e → exec (.waitev e.h) s = s.awaits e (.waitev none)) ∧
    (ev = 0 → e.a ≠ 0 → Fires.of s (.waitev e.h) e →
      exec (.waitev e.h) s = s.awaits e (.waitev (some (s.cycle, e.a)))) ∧
    (Fires.of s (.tlbinvPage e.h) e → exec (.tlbinvPage e.h) s =
      s.ends e (fun t => t.tlbDrop (fun x => x.covers asn e.a.toNat)) 0) ∧
    (Fires.of s (.tlbinvAsn e.h) e → exec (.tlbinvAsn e.h) s = s.ends e (fun t => t.tlbDrop (fun x => x.asn = asn)) 0) ∧
    (Fires.of s (.tlbinvAll e.h) e → exec (.tlbinvAll e.h) s = s.ends e (fun t => t.tlbDrop (fun _ => true)) 0)) ∧
  ((s.ctx e.key).sup = false →
    (Fires.of s (.waitev e.h) e → exec (.waitev e.h) s = s.traps e { code := .privilege, extra := e.word }) ∧
    (Fires.of s (.tlbinvPage e.h) e → exec (.tlbinvPage e.h) s = s.traps e { code := .privilege, extra := e.word }) ∧
    (Fires.of s (.tlbinvAsn e.h) e → exec (.tlbinvAsn e.h) s = s.traps e { code := .privilege, extra := e.word }) ∧
    (Fires.of s (.tlbinvAll e.h) e → exec (.tlbinvAll e.h) s = s.traps e { code := .privilege, extra := e.word }))

/-- R385, R137, R151, R87, R91, R152, R153, R88, R129, R140, R194: What LD delivers, extended to 64 bits: the bytes at
the address it reached, with the stores of its block that are ordered before it, a store whose token it waited for
among them (the model's reading of R152 and R153, log 70); from the tile's cache when that holds the line; a
work-queue entry through a QUEUE page. Undefined bits of a window word are any bits, and a load of an accumulator in
use waits for the operations it has accepted. A poisoned line faults DATA_POISON. -/
def Obligations.LoadResults : Prop := ∀ (s : State) (e : Env) (m : MFmt) (tr : Tr),
  let n := tsSize m.ts.toNat
  let val := fun (raw : Nat) => extend n (m.ts.getLsbD 0) (forward e.blk e.idx m.cls.toNat tr.pa n raw)
  let gives := fun (v : W64) => ∃ u, OnlyTraffic (s.begun e) u ∧ exec (.ld e.h m) s = s.closes e u v
  let poisons := ∃ u, OnlyTraffic (s.begun e) u ∧ exec (.ld e.h m) s = s.faults e u (poisonFault tr.pa)
  let busy := s.accBusyAt tr.pa n
  Fires.of s (.ld e.h m) e → Reaches s e m n useLoad .plain tr → Free s e m true false tr → OneWay s tr n →
  (busy ≠ [] → ∃ u, OnlyTraffic (s.begun e) u ∧
    exec (.ld e.h m) s = s.waitsFor e u (.accLoad tr.pa n (m.ts.getLsbD 0) busy)) ∧
  (busy = [] → (∀ v, s.queueRead tr n = some v → gives (extend n (m.ts.getLsbD 0) v)) ∧
    (s.queueRead tr n = none →
      (∀ wt off, s.paKind tr.pa = .window wt off → storageOff off = true →
        (s.poisonAt tr.pa n = none → gives (val (s.rd tr.pa n))) ∧ (s.poisonAt tr.pa n ≠ none → poisons)) ∧
      (∀ wt off, s.paKind tr.pa = .window wt off → storageOff off = false →
        ∃ u x, OnlyTraffic (s.begun e) { u with freeCtr := s.freeCtr } ∧ exec (.ld e.h m) s = s.closes e u
          (val (bitsOf ((x &&& w64 (s.winUndef wt (off / 8 * 8))) |||
            (u.winWord wt (off / 8 * 8) &&& ~~~(w64 (s.winUndef wt (off / 8 * 8))))).toNat (8 * (off % 8)) (8 * n)))) ∧
      (s.paKind tr.pa = .hbm →
        (s.cached e.tile tr = none → s.poisoned tr.pa = false → gives (val (s.rd tr.pa n))) ∧
        (s.cached e.tile tr = none → s.poisoned tr.pa = true → poisons) ∧
        (∀ l, s.cached e.tile tr = some l → (m.ord = 0 ∨ m.scp.toNat ≤ 1 ∨ l.weight = true) →
          gives (val (leNat ((l.bytes.drop (tr.pa % 128)).take n)))) ∧
        ((∀ l ∈ s.tcache, l.line = tr.pa / 128 → l.weight = false) → m.ord ≠ 0 → 1 < m.scp.toNat →
          s.poisoned tr.pa = false → gives (val (s.rd tr.pa n)))) ∧
      (∀ k, s.paKind tr.pa = .slow k →
        (s.poisonPages.contains (tr.pa / 65536) = true → poisons) ∧
        (s.poisonPages.contains (tr.pa / 65536) = false → s.slowBad tr.pa = false → gives (val (s.rd tr.pa n))))))

/-- R382, R384, R385, R387, R388: A store enters its block's store buffer with its address and value and delivers its
token; a store to a busy window faults REGION_BUSY. That FLUSH and INVAL ask for a load's permission (log 21), and
TAGSET and TAGCLR for write permission (log 23), is the model's choice. The faults of an M-format access, for LD, LDF
and ST: a misaligned address, the fault of translation, a register window that S alone reaches, a bank whose role
forbids the access. -/
def Obligations.StoresEnter : Prop :=
  (∀ (s : State) (e : Env) (m : MFmt) (tr : Tr),
    let enters := fun (i : Instr) (kind : StKind) (n : Nat) => ∃ u, OnlyTraffic (s.begun e) u ∧
      exec i s = s.closesTok e (u.updBlk e.key (fun b => { b with
        stores := b.stores ++ [{
          idx := e.idx, kind := kind, pa := tr.pa, size := n, val := w64 (e.b.toNat % 2 ^ (8 * n)), cls := m.cls.toNat,
          rel := if m.ord = 2 then some m.scp.toNat else none,
          after := if m.ow then (List.range e.blk.words.length).find? (fun j => e.blk.edge j e.idx) else none,
          va := mAddr e m, sliced := sliceHomed tr, ms := bitOf tr.pte.toNat 7, word := e.word }] }))
    let n := tsSize m.ts.toNat
    (Fires.of s (.st e.h m) e → Reaches s e m n useStore .plain tr →
      (∀ wt off, s.paKind tr.pa = .window wt off → s.winBusy wt off n = false) → enters (.st e.h m) .st n) ∧
    (∀ wt off, Fires.of s (.st e.h m) e → Reaches s e m n useStore .plain tr → s.paKind tr.pa = .window wt off →
      s.winBusy wt off n = true → ∃ u, OnlyTraffic (s.begun e) u ∧
        exec (.st e.h m) s = s.faults e u { code := .regionBusy, addr := mAddr e m }) ∧
    (Fires.of s (.tagset e.h m) e → Reaches s e m 8 useTagWrite .tagged tr → enters (.tagset e.h m) .tagset 8) ∧
    (Fires.of s (.tagclr e.h m) e → Reaches s e m 8 useTagWrite .tagged tr → enters (.tagclr e.h m) .tagclr 8) ∧
    (Fires.of s (.flush e.h m) e → Reaches s e m 1 useLoad .plain tr → enters (.flush e.h m) .flush 1) ∧
    (Fires.of s (.inval e.h m) e → Reaches s e m 1 useLoad .plain tr → enters (.inval e.h m) .inval 1)) ∧
  (∀ (s : State) (e : Env) (m : MFmt) (f : Flt),
    let n := tsSize m.ts.toNat
    let mis := fun (k : Nat) => ({ code := .misaligned, addr := mAddr e m, extra := w64 k } : Flt)
    let find := fun (use : Bool → Use) => (s.translate e.tile (s.ctx e.key).part (mAddr e m) (use (s.ctx e.key).sup)).1
    let fails := fun (i : Instr) (f : Flt) => ∃ u, OnlyTraffic (s.begun e) u ∧ exec i s = s.faults e u f
    (Fires.of s (.ld e.h m) e → Ordered s e m true false →
      ((mAddr e m).toNat % n ≠ 0 → exec (.ld e.h m) s = s.traps e (mis n)) ∧
      ((mAddr e m).toNat % n = 0 → find useLoad = .fault f → fails (.ld e.h m) f)) ∧
    (Fires.of s (.ldf e.h m) e → Ordered s e m false false →
      ((mAddr e m).toNat % 8 ≠ 0 → exec (.ldf e.h m) s = s.traps e (mis 8)) ∧
      ((mAddr e m).toNat % 8 = 0 → find useTagRead = .fault f → fails (.ldf e.h m) f)) ∧
    (Fires.of s (.st e.h m) e →
      ((mAddr e m).toNat % n ≠ 0 → exec (.st e.h m) s = s.traps e (mis n)) ∧
      ((mAddr e m).toNat % n = 0 → find useStore = .fault f → fails (.st e.h m) f) ∧
      (∀ tr wt off, (mAddr e m).toNat % n = 0 → find useStore = .ok tr → s.paKind tr.pa = .window wt off →
        (s.winPerm e.key (mAddr e m).toNat tr.pa off false = false →
          fails (.st e.h m) { code := .permission, addr := mAddr e m, extra := 4 }) ∧
        (s.winPerm e.key (mAddr e m).toNat tr.pa off false = true → off < 0x400000 →
          (s.role wt (off / 0x20000) = 1 ∨ 30 ≤ off / 0x20000) →
          fails (.st e.h m) { code := .bankRole, addr := mAddr e m, extra := w64 (off / 0x20000) }))))

/-- R386, R131, R387, R160, R388, R393, R155: The tagged accesses on a word, with no waiter on it: LDF takes a full
word and leaves it empty, LDFF leaves it full, STE fills an empty one; LDF and LDFF acquire at PKG. A word in the
other state is waited for while its bank's list of 16 has a place. TAGQ reads the full bit, and whether the whole line
is full. PREF never faults and leaves its context as it was; FENCE acquires at its scope once what it orders is
performed, and one that orders no class acquires at once. -/
def Obligations.TaggedAccesses : Prop :=
  (∀ (s : State) (e : Env) (m : MFmt) (tr : Tr),
    let alone := ∀ w ∈ s.waits, w.tagOn tr.pa = none
    let room := fun (op : Nat) => s.tagRefused op tr = false
    let after := fun (i : Instr) (p : State → Out) => ∃ u, OnlyTraffic (s.begun e) u ∧ u.tcache = s.tcache ∧ exec i s = p u
    s.poisonAt tr.pa 8 = none →
    (Fires.of s (.ldf e.h m) e → Reaches s e m 8 useTagRead .tagged tr → Free s e m false false tr →
      (s.isFull tr.pa = true → alone → after (.ldf e.h m) (fun u =>
        s.closes e ((u.cacheAcquire e.tile 3).setFull tr.pa false) (s.rd64 tr.pa))) ∧
      (s.isFull tr.pa = false → room 0 → after (.ldf e.h m) (fun u => s.waitsFor e u (.tagged tr.pa 0 e.b)))) ∧
    (Fires.of s (.ldff e.h m) e → Reaches s e m 8 useTagRead .tagged tr → Free s e m true false tr →
      (s.isFull tr.pa = true → alone → after (.ldff e.h m) (fun u =>
        s.closes e (u.cacheAcquire e.tile 3) (s.rd64 tr.pa))) ∧
      (s.isFull tr.pa = false → room 1 → after (.ldff e.h m) (fun u => s.waitsFor e u (.tagged tr.pa 1 e.b)))) ∧
    (Fires.of s (.ste e.h m) e → Reaches s e m 8 useTagWrite .tagged tr → Free s e m false true tr →
      (s.isFull tr.pa = false → alone → after (.ste e.h m) (fun u =>
        s.closesTok e ((u.wr tr.pa 8 e.b.toNat).setFull tr.pa true))) ∧
      (s.isFull tr.pa = true → room 2 → after (.ste e.h m) (fun u => s.waitsFor e u (.tagged tr.pa 2 e.b)))) ∧
    (Fires.of s (.tagq e.h m) e → Reaches s e m 8 useTagRead .tagged tr → Free s e m true false tr →
      after (.tagq e.h m) (fun u => s.closes e u (w64 ((s.isFull tr.pa).toNat +
        2 * ((List.range 16).all (fun i => s.isFull (tr.pa / 128 * 128 + 8 * i))).toNat))))) ∧
  (∀ (s : State) (e : Env) (m : MFmt) (mask : BitVec 16) (scope : BitVec 3),
    (Fires.of s (.pref e.h m) e → ∃ u, u.ctxs = s.ctxs ∧ u.waits = s.waits ∧ u.blks = (s.begun e).blks ∧
      u.poison = s.poison ∧ u.full = s.full ∧ exec (.pref e.h m) s = s.closesTok e u) ∧
    ((mask = 0 ∨ s.fenceReady e.key e.idx e.blk mask.toNat = true) → Fires.of s (.fence e.h mask scope) e →
      exec (.fence e.h mask scope) s = s.endsTok e (fun t => t.cacheAcquire e.tile scope.toNat)))

/-- R389, R390, R391, R392: Atomics replace the word at their address by their function of it and their operand; AMO
and CAS deliver the old word, RED a token; a CAS that finds another word writes nothing. AMOF and REDF act on each
FP32 lane of the word alone; AMOF delivers the old lanes. -/
def Obligations.AtomicResults : Prop :=
  (∀ (s : State) (e : Env) (m : MFmt) (tr : Tr),
    let o4 := (s.rd64 tr.pa).extractLsb' 0 32
    let o8 := s.rd64 tr.pa
    let fn := m.ts.toNat % 8
    let cmp := e.b.extractLsb' 32 32
    let after := fun (i : Instr) (p : State → Out) => ∃ u, OnlyTraffic (s.begun e) u ∧ exec i s = p u
    Free s e m false (m.ord.getLsbD 1) tr →
    (Reaches s e m 4 useAtomic .plain tr → OneWay s tr 4 → s.poisonAt tr.pa 4 = none →
      (m.ts.getLsbD 3 = false → Fires.of s (.amo e.h m) e → after (.amo e.h m) (fun u =>
        s.closes e (u.storeBytes e.tile tr.pa 4 (amoVal fn o4 (lo32 e.b)).toNat) (sx32 o4))) ∧
      (m.ts.getLsbD 3 = false → Fires.of s (.red e.h m) e → after (.red e.h m) (fun u =>
        s.closesTok e (u.storeBytes e.tile tr.pa 4 (amoVal fn o4 (lo32 e.b)).toNat))) ∧
      (Fires.of s (.cas e.h m) e → after (.cas e.h m) (fun u =>
        if o4 = cmp then s.closes e (u.storeBytes e.tile tr.pa 4 (lo32 e.b).toNat) (w64 (o4.toNat + 2 ^ 32))
        else s.closes e u (w64 o4.toNat)))) ∧
    (Reaches s e m 8 useAtomic .plain tr → OneWay s tr 8 → s.poisonAt tr.pa 8 = none → m.ts.getLsbD 3 = true →
      (Fires.of s (.amo e.h m) e → after (.amo e.h m) (fun u =>
        s.closes e (u.storeBytes e.tile tr.pa 8 (amoVal fn o8 e.b).toNat) o8)) ∧
      (Fires.of s (.red e.h m) e → after (.red e.h m) (fun u =>
        s.closesTok e (u.storeBytes e.tile tr.pa 8 (amoVal fn o8 e.b).toNat))))) ∧
  (∀ (s : State) (e : Env) (m : MFmt) (tr : Tr),
    let lane := fun (old x : BitVec 32) => match m.ts.toNat % 8 with
      | 0 => (fp32.add .rne old.toNat x.toNat).1
      | 1 => (fp32.minmax false old.toNat x.toNat).1
      | _ => (fp32.minmax true old.toNat x.toNat).1
    let o8 := s.rd64 tr.pa
    let lo := lane (lo32 o8) (lo32 e.b)
    let hi := lane (o8.extractLsb' 32 32) (e.b.extractLsb' 32 32)
    let after := fun (i : Instr) (p : State → Out) => ∃ u, OnlyTraffic (s.begun e) u ∧ exec i s = p u
    Free s e m false (m.ord.getLsbD 1) tr →
    (Reaches s e m 4 useAtomic .plain tr → OneWay s tr 4 → s.poisonAt tr.pa 4 = none → m.ts.getLsbD 3 = false →
      (Fires.of s (.amof e.h m) e → after (.amof e.h m) (fun u =>
        s.closes e (u.storeBytes e.tile tr.pa 4 lo) (w64 (lo32 o8).toNat))) ∧
      (Fires.of s (.redf e.h m) e → after (.redf e.h m) (fun u => s.closesTok e (u.storeBytes e.tile tr.pa 4 lo)))) ∧
    (Reaches s e m 8 useAtomic .plain tr → OneWay s tr 8 → s.poisonAt tr.pa 8 = none → m.ts.getLsbD 3 = true →
      (Fires.of s (.amof e.h m) e → after (.amof e.h m) (fun u =>
        s.closes e (u.storeBytes e.tile tr.pa 8 (lo + hi * 2 ^ 32)) o8)) ∧
      (Fires.of s (.redf e.h m) e → after (.redf e.h m) (fun u =>
        s.closesTok e (u.storeBytes e.tile tr.pa 8 (lo + hi * 2 ^ 32))))))

/-- R217, R384, R389, R390, R391, R392: What the plain, tagged and atomic instructions leave. A load, a store's entry,
TAGQ and a fence store no byte; STE stores the 8 bytes at the word it reached, an atomic the bytes of its size, and
where those fall into a valid table entry that entry's bytes are undefined (R217); no register of any context changes
before a commit. -/
def Obligations.MemoryFrames : Prop := ∀ (s s' : State) (e : Env) (m : MFmt) (mask : BitVec 16) (tr : Tr),
  s.log = [] → (∀ w ∈ s.waits, ∀ p, w.tagOn p = none) →
  (∀ i ∈ [Instr.ldf e.h m, .ldff e.h m, .tagq e.h m, .st e.h m, .tagset e.h m, .tagclr e.h m, .flush e.h m,
      .inval e.h m, .fence e.h mask m.scp],
    Fires.of s i e → exec i s = .next s' → SameMem s s' ∧ SameFile s s') ∧
  (Fires.of s (.ld e.h m) e → (Finds s e m useLoad tr → OneWay s tr (tsSize m.ts.toNat)) →
    exec (.ld e.h m) s = .next s' → SameMem s s' ∧ SameFile s s') ∧
  (Fires.of s (.ste e.h m) e → Finds s e m useTagWrite tr →
    exec (.ste e.h m) s = .next s' → MemOutside s s' tr.pa 8 ∧ SameFile s s') ∧
  (∀ i ∈ [Instr.amo e.h m, .amof e.h m, .red e.h m, .redf e.h m], Fires.of s i e →
    Finds s e m useAtomic tr → OneWay s tr (if m.ts.getLsbD 3 then 8 else 4) →
    exec i s = .next s' → StoreOutside s s' tr.pa (if m.ts.getLsbD 3 then 8 else 4) ∧ SameFile s s') ∧
  (Fires.of s (.cas e.h m) e → Finds s e m useAtomic tr → OneWay s tr 4 →
    exec (.cas e.h m) s = .next s' → StoreOutside s s' tr.pa 4 ∧ SameFile s s')

/-- R332, R245, R333, R169, R405: CFGLD reads and validates an image and leaves it in a cache entry of its tile: the
one that holds it or fetches it, else the one the cache gives up. It delivers the image's CFGID; a faulty image
faults, and an address that is not 64-byte aligned faults before an entry is chosen. RECONF marks its region draining
and loads the image at once when the conditions of R169 hold and the image is in the tile's cache: it then delivers
its CFGID, the region loaded and draining no more. Else it waits, its region marked, until they hold. A strand without
a region may not, and only one RECONF of a region waits. That the stores of its own block are not waited for (log 24),
and that the image becomes its task's, which a later restore loads (log 34), is the model's reading. -/
def Obligations.ConfigImages : Prop :=
  (∀ (s u : State) (e : Env) (n : Nat) (img : List W64) (f : Flt) (tr : Tr),
    let t := s.begun e
    let c := s.ctx e.key
    let asn := (t.asnOf c.part).getD 0
    let t1 := t.setCfg e.tile n { t.cfgEnt e.tile n with v := false }
    let bs := s.bytes tr.pa 3072
    let words := (List.range 384).map (fun i => w64 (leNat ((bs.drop (8 * i)).take 8)))
    Fires.of s (.cfgld e.h) e →
    ((s.cfgFind e.tile ((s.asnOf c.part).getD 0) e.a true).isSome ∨ (s.cfgVictim e.tile).isSome) →
    ((t.cfgFind e.tile asn e.a false).or (t.cfgFind e.tile asn e.a true)).or (t.cfgVictim e.tile) = some n →
    (e.a.toNat % 64 = 0 →
      (ReadsAt s e.tile c.part (useERead c.sup [0] 0) e.a 3072 tr → imgCheck words = none →
        ∃ v, OnlyTraffic t1 v ∧
          exec (.cfgld e.h) s = s.closes e (v.cfgInstall e.tile n asn e.a words) (w64 (imgCfgid words))) ∧
      (readImage e.tile c.part c.sup e.a .focus t1 = .ok img u →
        exec (.cfgld e.h) s = s.closes e (u.cfgInstall e.tile n asn e.a img) (w64 (imgCfgid img)) ∧
        ((u.cfgInstall e.tile n asn e.a img).cfgEnt e.tile n).v = true ∧
        ((u.cfgInstall e.tile n asn e.a img).cfgEnt e.tile n).img = img) ∧
      (readImage e.tile c.part c.sup e.a .focus t1 = .error f u → exec (.cfgld e.h) s = s.faults e u f)) ∧
    (e.a.toNat % 64 ≠ 0 → exec (.cfgld e.h) s = s.traps e { code := .misaligned, addr := e.a, extra := 64 })) ∧
  (∀ (s : State) (e : Env) (k n : Nat),
    let c := s.ctx e.key
    let rk := 4 * e.tile + k
    let marked := (s.begun e).updRegion rk (fun r => { r with reconf := true, draining := true })
    let waits : State := { marked with waits := marked.waits ++ [⟨e.key, e.idx, .reconf e.a⟩] }
    let img := (waits.cfgEnt e.tile n).img
    (Fires.of s (.reconf e.h) e → c.region = some k → (s.region rk).reconf = false →
      (waits.reconfReady e.tile k e.key e.idx = true → e.a.toNat % 64 = 0 →
        (∀ w ∈ s.waits, ¬(w.key = e.key ∧ w.idx = e.idx)) →
        waits.cfgFind e.tile ((s.asnOf c.part).getD 0) e.a false = some n →
        ∃ t, t = (let l := ((waits.cutOut rk).cfgTouch e.tile n).regionLoad e.tile k img e.a
            match c.task with
            | some i => l.updTask i (fun x => { x with img := e.a })
            | none => l) ∧
          exec (.reconf e.h) s = s.closes e ({ t with waits := s.waits } : State) (w64 (imgCfgid img)) ∧
          (t.region rk).loaded = true ∧ (t.region rk).draining = false ∧ (t.region rk).cfgid = imgCfgid img) ∧
      (waits.reconfReady e.tile k e.key e.idx = false → exec (.reconf e.h) s = s.waitsFor e marked (.reconf e.a))) ∧
    (Fires.of s (.reconf e.h) e → c.region = some k → (s.region rk).reconf = true →
      exec (.reconf e.h) s = s.traps e { code := .reconfPending, extra := w64 k }) ∧
    (Fires.of s (.reconf e.h) e → c.region = none →
      exec (.reconf e.h) s = s.traps e { code := .privilege, extra := e.word }))

/-- R334, R335: CTXSAVE writes a held context's image, CTXREST checks one and installs it; both answer a status, and
both are of S only. -/
def Obligations.ContextImages : Prop := ∀ (s u u' : State) (e : Env) (b : List Byte) (l : List Unit),
  let t := s.begun e
  let c := s.ctx e.key
  let key := ctxKey e.tile e.a.toNat
  let put := fun (off : Nat) (bs : List Byte) =>
    writeF e.tile c.part (useEWrite c.sup [0] 0) .engine (e.b + w64 off) bs
  Goes s e →
  (c.sup = false →
    (Fires.of s (.ctxsave e.h) e → exec (.ctxsave e.h) s = s.traps e { code := .privilege, extra := e.word }) ∧
    (Fires.of s (.ctxrest e.h) e → exec (.ctxrest e.h) s = s.traps e { code := .privilege, extra := e.word })) ∧
  (c.sup = true → e.a.toNat < 16 → e.b.toNat % 65536 ≠ 0 →
    (Fires.of s (.ctxsave e.h) e → exec (.ctxsave e.h) s =
      s.traps e { code := .misaligned, addr := e.b, extra := 65536 }) ∧
    (Fires.of s (.ctxrest e.h) e → exec (.ctxrest e.h) s =
      s.traps e { code := .misaligned, addr := e.b, extra := 65536 })) ∧
  (c.sup = true → e.a.toNat < 16 → e.b.toNat % 65536 = 0 →
    (Fires.of s (.ctxsave e.h) e → (s.ctx key).st ≠ .held → exec (.ctxsave e.h) s = s.closes e t 1) ∧
    (Fires.of s (.ctxsave e.h) e → (s.ctx key).st = .held →
      (t.imageOf key true).mapM (fun p => put p.1 p.2) t = .ok l u →
      put 0 (leBytes 1 (t.imgWord0 key true % 256 + 1)) u = .ok () u' →
      exec (.ctxsave e.h) s = s.closes e u' 0) ∧
    (Fires.of s (.ctxrest e.h) e → (s.ctx key).st ≠ .held →
      (∀ b' s', readCtxImage e t = .ok b' s' → s'.ctxrestStatus key b' ≠ 0) →
      exec (.ctxrest e.h) s = s.closes e t 1) ∧
    (Fires.of s (.ctxrest e.h) e → (s.ctx key).st = .held →
      (∀ b' s', readCtxImage e t = .ok b' s' → s'.pbBlocked e.tile (bitsOf (imgN b' 0 8) 3 2) b' = false) →
      readCtxImage e t = .ok b u →
      exec (.ctxrest e.h) s = s.closes e (if u.ctxrestStatus key b = 0 then u.ctxInstall key b else u)
        (w64 (u.ctxrestStatus key b))))

/-- R396, R397, R398: XCOPY and XCHAIN put their work on a copy channel and are accepted; XCOPY waits for a place in a
full queue, and XCHAIN answers BUSY on a running channel. XSTAT reads the channel's state. -/
def Obligations.CopyChannels : Prop := ∀ (s : State) (e : Env) (f : XcopyF) (ch : BitVec 2),
  let t := s.begun e
  let tm := (t.ctx e.key).tms.getD 0 f.mapn.toNat
  let x : Xfer := ⟨t.nextId, f.mode.toNat, tm, e.a, e.b, xferLen f tm, if f.bv then some f.bnum.toNat else none, f.wf, f.sf,
    t.who e⟩
  let c := t.copyCh e.tile f.ch.toNat
  let d := t.copyCh e.tile ch.toNat
  (Goes s e → Fires.of s (.xcopy e.h f) e → (f.mode = 0 ∨ tm.getLsbD 255 = true) →
    ((f.wf || f.sf) = true → xferLen f tm % 8 = 0 ∧ e.a.toNat % 8 = 0 ∧ e.b.toNat % 8 = 0) →
    (c.queue.length < 4 → c.state = 1 →
      exec (.xcopy e.h f) s = s.accepts e (({ t with nextId := t.nextId + 1 } : State).setCopyCh e.tile f.ch.toNat
        { c with queue := c.queue ++ [x] }) 0) ∧
    (c.queue.length < 4 → c.state = 0 → c.queue = [] →
      exec (.xcopy e.h f) s = s.accepts e (({ t with nextId := t.nextId + 1 } : State).setCopyCh e.tile f.ch.toNat
        { c with queue := [x], state := 1, psn := false, psnoff := 0 }) 0) ∧
    (4 ≤ (s.copyCh e.tile f.ch.toNat).queue.length → exec (.xcopy e.h f) s = .next (endStep s s))) ∧
  (Goes s e → Fires.of s (.xcopy e.h f) e → f.mode ≠ 0 → tm.getLsbD 255 = false →
    exec (.xcopy e.h f) s = s.traps e { code := .reservedField, extra := e.word }) ∧
  (Goes s e → Fires.of s (.xchain e.h ch) e → e.a ≠ 0 → e.a.toNat % 64 = 0 →
    (d.state = 1 → exec (.xchain e.h ch) s = s.closes e t 1) ∧
    (d.state ≠ 1 → exec (.xchain e.h ch) s = s.accepts e (({ t with nextId := t.nextId + 1 } : State).setCopyCh e.tile
      ch.toNat { d with
        head := e.a, state := 1, psn := false, psnoff := 0, who := t.who e, maps := (s.ctx e.key).tms, walkId := t.nextId }) 0)) ∧
  (Goes s e → Fires.of s (.xchain e.h ch) e → e.a = 0 →
    exec (.xchain e.h ch) s = s.traps e { code := .reservedField, extra := e.word }) ∧
  (Fires.of s (.xstat e.h ch) e → exec (.xstat e.h ch) s = s.closes e t
    (w64 (d.state % 4 + d.psn.toNat * 4 + d.queue.length * 16 + d.psnoff % 2 ^ 56 * 256)))

/-- R399, R81, R394, R168, R400, R403, R404, R405: TMAPSET takes a tensor map from 32 bytes at its address, read as
plain loads of class 15 that see the earlier stores of its block (the model's reading, log 84), a map with V = 0
leaving the register without one; a map that breaks R81 faults. DRAIN completes at once when no copy of its path is
outstanding, and else waits for those that are. SBIND binds a free routed port of the strand's region to a tensor map
or to a channel whose consumer it becomes, and is accepted; a port in use answers 1 and a closed channel 2, each with
its token at once (the model's choice, log 29); a region without a configuration has no routed port. SEOS waits its
turn at its port; SBAR names the barrier of a stream-out port, or none. -/
def Obligations.StreamPorts : Prop :=
  (∀ (s u : State) (e : Env) (n : BitVec 4) (bs : List Byte) (path : BitVec 3),
    let t := s.begun e
    let c := s.ctx e.key
    let tm := BitVec.ofNat 256 (leNat bs)
    let use : Use := { rd := true, sup := c.sup, cls := [0] }
    (plainHold e use e.a 32 s = none → Fires.of s (.tmapset e.h n) e → e.a.toNat % 32 = 0 →
      plainRead e use e.a 32 t = .ok bs u →
      (tm.getLsbD 255 = true → (tm.extractLsb' 250 5 = 0 ∧ tm.extractLsb' 64 32 ≠ 0 ∧ tm.extractLsb' 96 32 ≠ 0 ∧
          tm.extractLsb' 128 32 ≠ 0) →
        exec (.tmapset e.h n) s = s.closes e (u.updCtx e.key (fun c => { c with tms := c.tms.put n.toNat tm })) 0) ∧
      (tm.getLsbD 255 = true → ¬(tm.extractLsb' 250 5 = 0 ∧ tm.extractLsb' 64 32 ≠ 0 ∧ tm.extractLsb' 96 32 ≠ 0 ∧
          tm.extractLsb' 128 32 ≠ 0) →
        exec (.tmapset e.h n) s = s.faults e u { code := .reservedField, extra := e.word }) ∧
      (tm.getLsbD 255 = false →
        exec (.tmapset e.h n) s = s.closes e (u.updCtx e.key (fun c => { c with tms := c.tms.put n.toNat 0 })) 0)) ∧
    (∀ tr, s.orderReady e.key e.idx e.blk 15 true false = true → Fires.of s (.tmapset e.h n) e → e.a.toNat % 32 = 0 →
      ReadsAt s e.tile c.part use e.a 32 tr →
      (BitVec.ofNat 256 (leNat (e.sees tr.pa (s.bytes tr.pa 32)))).getLsbD 255 = false →
      ∃ v, OnlyTraffic t v ∧
        exec (.tmapset e.h n) s = s.closes e (v.updCtx e.key (fun c => { c with tms := c.tms.put n.toNat 0 })) 0) ∧
    (s.orderReady e.key e.idx e.blk 15 true false = false → Fires.of s (.tmapset e.h n) e →
      exec (.tmapset e.h n) s = .next (endStep s s)) ∧
    (plainHold e use e.a 32 s = none → Fires.of s (.tmapset e.h n) e → e.a.toNat % 32 ≠ 0 →
      exec (.tmapset e.h n) s = s.traps e { code := .misaligned, addr := e.a, extra := 32 }) ∧
    (Fires.of s (.drain e.h path) e → t.drainSet e.tile path.toNat = [] →
      exec (.drain e.h path) s = s.closes e (t.cacheAcquire e.tile (if path = 4 then 4 else 3)) 0) ∧
    (Fires.of s (.drain e.h path) e → t.drainSet e.tile path.toNat ≠ [] →
      exec (.drain e.h path) s = s.waitsFor e t (.drain (t.drainSet e.tile path.toNat)))) ∧
  (∀ (s u : State) (e : Env) (k ck : Nat) (port : BitVec 3) (p : BitVec 2)
      (mapn : BitVec 4) (x v : Bool) (bnum : BitVec 6),
    let t := s.begun e
    let rk := 4 * e.tile + k
    let r := t.region rk
    let tm := (s.ctx e.key).tms.getD 0 mapn.toNat
    let j := port.toNat % 4
    Goes s e → (s.ctx e.key).region = some k → r.reconf = false →
    (r.loaded = false →
      (Fires.of s (.sbindMap e.h port mapn x) e →
        exec (.sbindMap e.h port mapn x) s = s.traps e { code := .reservedField, extra := e.word }) ∧
      (Fires.of s (.sbindChannel e.h p) e →
        exec (.sbindChannel e.h p) s = s.traps e { code := .reservedField, extra := e.word })) ∧
    (Fires.of s (.sbindMap e.h port mapn x) e → r.loaded = true → sbindMapOk tm = true →
      (port.toNat < 4 → (r.inRoute j).testBit 15 = true →
        (r.sin.get? j = none → exec (.sbindMap e.h port mapn x) s = s.accepts e (t.updRegion rk (fun r => { r with
          sin := r.sin.put j ⟨tm, none, 0, tmTokens tm, x, (r.pend.filter (fun q => q.port = j)).length, t.who e⟩ })) 0) ∧
        (r.sin.get? j ≠ none → exec (.sbindMap e.h port mapn x) s = s.closes e t 1)) ∧
      (4 ≤ port.toNat → r.outBound j = true →
        (r.sout.get? j = none → exec (.sbindMap e.h port mapn x) s = s.accepts e (t.updRegion rk (fun r => { r with
          sout := r.sout.put j ⟨tm, 0, tmTokens tm, t.who e⟩ })) 0) ∧
        (r.sout.get? j ≠ none → exec (.sbindMap e.h port mapn x) s = s.closes e t 1))) ∧
    (Fires.of s (.sbindMap e.h port mapn x) e → sbindMapOk tm = false →
      exec (.sbindMap e.h port mapn x) s = s.traps e { code := .reservedField, extra := e.word }) ∧
    (Fires.of s (.sbindChannel e.h p) e → r.loaded = true → (r.inRoute p.toNat).testBit 15 = true →
      chanLocate e e.a t = .ok ck u →
      u.regions = t.regions →
      (r.sin.get? p.toNat ≠ none → exec (.sbindChannel e.h p) s = s.closes e u 1) ∧
      (r.sin.get? p.toNat = none → (u.chan ck).v = false → exec (.sbindChannel e.h p) s = s.closes e u 2) ∧
      (r.sin.get? p.toNat = none → (u.chan ck).v = true → (u.chan ck).esize = 8 →
        ((u.chan ck).cv = false ∨ (u.chan ck).w.getD 7 0 = (u.ctx e.key).ident) →
        exec (.sbindChannel e.h p) s = s.accepts e ((u.bindCons ck (u.who e).ident).updRegion rk (fun r => { r with
          sin := r.sin.put p.toNat ⟨0, some ck, 0, 0, false, (r.pend.filter (fun q => q.port = p.toNat)).length, u.who e⟩ })) 0)) ∧
    (Fires.of s (.seos e.h p) e → exec (.seos e.h p) s = s.accepts e (t.updRegion rk (fun r => { r with
      pend := r.pend ++ [⟨p.toNat, t.who e, none⟩] })) 0) ∧
    (Fires.of s (.sbar e.h p v bnum) e → exec (.sbar e.h p v bnum) s = s.closes e (t.updRegion rk (fun r => { r with
      sbar := if v then r.sbar.put p.toNat bnum.toNat else r.sbar.del p.toNat })) 0))

/-- R360, R361, R363, R364, R333, R88: A matrix instruction builds its control token (operation, accumulator, FLAG,
bits 54:6 of its operand) and sends it to the control port, where it waits for acceptance; the strand goes on. A
matrix instruction names an accumulator of its own strand's region only, and none is accepted while the region's
RECONF waits; the whole of group MATRIX. R363 says so of a strand in U; that an S strand faults too follows R88 (the
model's reading, log 42). -/
def Obligations.MatrixIssue : Prop :=
  (∀ (s : State) (e : Env) (ch : BitVec 2) (flag : Bool),
    let t := s.begun e
    let sends := fun (op : Nat) (fl : Bool) => Host.Outcome.next (endStep s
      (({ t with nextId := t.nextId + 1 } : State).updTile e.tile (fun x => { x with
        mq := x.mq ++ [⟨t.nextId, w64 (op * 2 ^ 60 + ch.toNat * 2 ^ 58 + fl.toNat * 2 ^ 57 + e.a.toNat / 64 % 2 ^ 49 * 64),
          t.who e, some e.idx, none, [e.a], 0, s.cycle, false, []⟩] })))
    Goes s e → (s.ctx e.key).region = some ch.toNat →
    (s.region (4 * e.tile + ch.toNat)).reconf = false →
    (Fires.of s (.mma e.h ch flag) e → exec (.mma e.h ch flag) s = sends 0 flag) ∧
    (Fires.of s (.mmas e.h ch flag) e → exec (.mmas e.h ch flag) s = sends 1 flag) ∧
    (Fires.of s (.mqk e.h ch) e → exec (.mqk e.h ch) s = sends 2 false) ∧
    (Fires.of s (.mpv e.h ch) e → exec (.mpv e.h ch) s = sends 3 false) ∧
    (Fires.of s (.mscan e.h ch flag) e → exec (.mscan e.h ch flag) s = sends 4 flag) ∧
    (Fires.of s (.mzero e.h ch flag) e → exec (.mzero e.h ch flag) s = sends 5 flag) ∧
    (Fires.of s (.mldacc e.h ch flag) e → exec (.mldacc e.h ch flag) s = sends 6 flag) ∧
    (Fires.of s (.mstacc e.h ch) e → exec (.mstacc e.h ch) s = sends 7 false) ∧
    (Fires.of s (.mresc e.h ch) e → exec (.mresc e.h ch) s = sends 8 false)) ∧
  (∀ (s : State) (e : Env) (ch side : BitVec 2) (flag : Bool) (mask : BitVec 4),
    let l := [Instr.mma e.h ch flag, .mmas e.h ch flag, .mqk e.h ch, .mpv e.h ch, .mscan e.h ch flag, .mzero e.h ch flag,
      .mldacc e.h ch flag, .mstacc e.h ch, .mresc e.h ch, .mside e.h ch side]
    Goes s e →
    ((s.ctx e.key).region ≠ some ch.toNat → ∀ i ∈ l, Fires.of s i e →
      exec i s = s.traps e { code := .privilege, extra := e.word }) ∧
    ((s.ctx e.key).region = some ch.toNat → (s.region (4 * e.tile + ch.toNat)).reconf = true →
      ∀ i ∈ l, Fires.of s i e → exec i s = s.traps e { code := .reconfPending, extra := w64 ch.toNat }) ∧
    ((∃ k : Nat, k < 4 ∧ mask.getLsbD k = true ∧ (s.ctx e.key).region ≠ some k) →
      Fires.of s (.mwait e.h mask) e → exec (.mwait e.h mask) s = s.traps e { code := .privilege, extra := e.word }))

/-- R376, R377: MSIDE reads MX, SM or AL of a row, MWAIT a bit for every accumulator of the tile whose ROWP is not 0,
both once the operations that were accepted on the accumulators they name have completed or stopped. -/
def Obligations.MatrixReads : Prop := ∀ (s : State) (e : Env) (ch side : BitVec 2) (mask : BitVec 4),
  let t := s.begun e
  let a := s.acc (4 * e.tile + ch.toNat)
  let ops := ((List.range 4).filter mask.getLsbD).flatMap (t.accOps e.tile)
  Goes s e →
  ((s.ctx e.key).region = some ch.toNat → (s.region (4 * e.tile + ch.toNat)).reconf = false →
    Fires.of s (.mside e.h ch side) e →
    (127 < e.a.toNat → exec (.mside e.h ch side) s = s.traps e { code := .reservedField, extra := e.word }) ∧
    (e.a.toNat ≤ 127 → t.accOps e.tile ch.toNat = [] → exec (.mside e.h ch side) s = s.closes e t
      (if side = 0 then (a.mx.getD 0xFF800000 e.a.toNat).setWidth 64
       else if side = 1 then (a.sm.getD 0 e.a.toNat).setWidth 64 else (a.al.getD 0x3F800000 e.a.toNat).setWidth 64)) ∧
    (e.a.toNat ≤ 127 → t.accOps e.tile ch.toNat ≠ [] → exec (.mside e.h ch side) s =
      s.waitsFor e t (.mside ch.toNat e.a.toNat side.toNat (t.accOps e.tile ch.toNat)))) ∧
  ((∀ k : Nat, k < 4 → mask.getLsbD k = true → (s.ctx e.key).region = some k) →
    (∀ k : Nat, k < 4 → mask.getLsbD k = true → (s.region (4 * e.tile + k)).reconf = false) →
    Fires.of s (.mwait e.h mask) e →
    (ops = [] → ∃ v : W64, exec (.mwait e.h mask) s = s.closes e t v ∧ ∀ k : Nat, k < 64 → v.getLsbD k =
      decide (k < 4 ∧ (s.acc (4 * e.tile + k)).rowp ≠ 0)) ∧
    (ops ≠ [] → exec (.mwait e.h mask) s = s.waitsFor e t (.mwait mask.toNat ops)))

/-- R242, R362, R374, R379, R90: MATRIX_ACCEPT takes the arbiter's choice off the control port and accepts it, its
instruction going on, or rejects it with its fault. MATRIX_COMPLETE ends the oldest operation of an accumulator whose
rows all complete, and MATRIX_STOP stops one at the row that faults, ROWP and the token kept; one that finds another's
ROWP leaves them (R90; for an operation already accepted the model's reading, log 42). What the rows compute enters by
name alone, as `mxRun`. MZERO leaves every word of its accumulator zero, its format tag set by INT, and its side
registers at their initial values. -/
def Obligations.MatrixEvents : Prop :=
  (∀ (s u : State) (t k y z i n fl : Nat) (v : W64) (d : List Byte) (o p : MOp) (f : Flt),
    s.focus = .ev t k y v d →
    (s.mxPick t = some o → o.idx = some i → o.region = none →
      (mxCheck t o (s.updTile t (fun x => { x with mq := x.mq.filter (fun q => q.id ≠ o.id) })) = .ok p u → p.idx = some i →
        exec .matrixAccept s = .next (endStep s
          ((u.updTile t (fun x => { x with mrun := x.mrun ++ [p] })).accept p.who.key i 0))) ∧
      (mxCheck t o (s.updTile t (fun x => { x with mq := x.mq.filter (fun q => q.id ≠ o.id) })) = .error f u →
        exec .matrixAccept s = .next (endStep s (u.syncFault o.who.key { f with idx := some i })))) ∧
    (s.mxRun t k = some (o, z, fl, none, u) → exec .matrixComplete s = .next (endStep s (u.mxDone t o fl)) ∧
      ((u.mxDone t o fl).acc (4 * t + o.acc)).rowp = 0) ∧
    (s.mxRun t k = some (o, n, fl, some f, u) → exec .matrixStop s = .next (endStep s (u.mxStopAt t o n fl f)) ∧
      (u.mxRefused t o = false →
        ((u.mxStopAt t o n fl f).acc (4 * t + o.acc)).rowp = n ∧
        ((u.mxStopAt t o n fl f).acc (4 * t + o.acc)).keptTok = o.tok) ∧
      (u.mxRefused t o = true → (u.mxStopAt t o n fl f).acc (4 * t + o.acc) = u.acc (4 * t + o.acc)))) ∧
  (∀ (s : State) (t k y i : Nat) (v : W64) (d : List Byte) (o : MOp),
    s.focus = .ev t k y v d → s.mxNext t k = some o → o.acc = k → o.op = 5 → o.desc = [] → (s.acc (4 * t + k)).rowp = 0 → o.sent = false →
    ∃ s', exec .matrixComplete s = .next s' ∧ (∀ j, (s'.acc (4 * t + k)).c.getD 0 j = 0) ∧
      (s'.acc (4 * t + k)).tag = (if o.tok.getLsbD 57 then 14 else 1) ∧ (s'.acc (4 * t + k)).side 0 i = 0xFF800000 ∧
      (s'.acc (4 * t + k)).side 1 i = 0 ∧ (s'.acc (4 * t + k)).side 2 i = 0x3F800000)

/-- R179, R181, R183, R184, R411: A push takes its number at the home; it is accepted while the channel has room,
answers DUP when a replayed number has been accepted before and CLOSED at an invalid or ended channel, and waits while
the channel is full; the element comes from the operand or from memory, whose address is checked and whose bytes are
loaded when the push fires (of a closed entry, as many as its ESIZE says: the model's choice, log 86). An operand is
an element of 8 bytes. The first push binds the producer. CHEOS is a push that ends the phase. -/
def Obligations.ChannelPushes : Prop := ∀ (s u u0 : State) (e : Env) (k : Nat) (flag : Bool) (data : List Byte) (f : Flt),
  let c := u.chan k
  let me := (u0.ctx e.key).ident
  let load := useLoad (s.ctx e.key).sup
  let num := (wAt c.w 4 + wAt c.w 5 + 1) % 2 ^ 64
  let has := (flag = true ∧ data = leBytes 8 e.b.toNat ∧ u0 = u) ∨
    (flag = false ∧ e.b.toNat % 8 = 0 ∧ loadBytes e e.b c.esize u = .ok data u0 ∧ u0.chan k = c)
  let fits := flag = true → c.esize = 8
  let u1 := u0.chanSend e.tile (u0.who e) k data.length false false
  let u2 := u.chanSend e.tile (u.who e) k 0 true false
  let owner : Flt := { code := .channelOwner, addr := e.a, extra := w64 (k % 64) }
  let fires := Fires.of s (.chpush e.h flag) e ∧ (flag = true → Goes s e) ∧
    (flag = false → (match chanLocate e e.a s with
      | .ok k' u' => plainHold e load e.b (u'.chan k').esize s
      | .error _ _ => plainHold e load e.b 0 s) = none)
  let ends := Fires.of s (.cheos e.h) e ∧ Goes s e
  chanLocate e e.a (s.begun e) = .ok k u → 6 < c.w.length →
  (fires → flag = false → e.b.toNat % 8 ≠ 0 → exec (.chpush e.h flag) s =
    s.faults e u { code := .misaligned, addr := e.b, extra := 8 }) ∧
  (fires → flag = false → e.b.toNat % 8 = 0 → loadBytes e e.b c.esize u = .error f u0 →
    exec (.chpush e.h flag) s = s.faults e u0 f) ∧
  (c.v = false → (fires → has → exec (.chpush e.h flag) s = s.closes e u0 2) ∧
    (ends → exec (.cheos e.h) s = s.closes e u 2)) ∧
  (c.v = true → c.pv = true →
    (fires → has → c.w.getD 6 0 ≠ me → exec (.chpush e.h flag) s = s.faults e u0 owner) ∧
    (ends → c.w.getD 6 0 ≠ (u.ctx e.key).ident → exec (.cheos e.h) s = s.faults e u owner)) ∧
  (c.v = true → (c.pv = false ∨ c.w.getD 6 0 = me) → fires → has → ¬fits →
    exec (.chpush e.h flag) s = s.faults e u0 { code := .reservedField, extra := e.word }) ∧
  (c.v = true → c.pv = true →
    (fires → has → fits → c.w.getD 6 0 = me →
      (num ≤ c.pushseq → exec (.chpush e.h flag) s =
        s.closes e (u1.setChan k (c.setW 5 (wAt c.w 5 + 1))) (w64 (1 + num % 2 ^ 56 * 256))) ∧
      (c.pushseq < num → c.est ≠ 0 → exec (.chpush e.h flag) s = s.closes e u1 2) ∧
      (c.pushseq < num → c.est = 0 → c.cap ≤ c.occ →
        exec (.chpush e.h flag) s = s.waitsFor e u1 (.push k 0 data e.a)) ∧
      (c.pushseq < num → c.est = 0 → c.occ < c.cap → c.onchip = c.occ → c.onchip < c.con → ∃ u',
        exec (.chpush e.h flag) s = s.closes e u' (w64 (num % 2 ^ 56 * 256)) ∧
        u'.chan k = { (c.setW 2 num).setW 5 (wAt c.w 5 + 1) with onchip := c.onchip + 1 } ∧
        (∀ j ≠ k, u'.chan j = u1.chan j) ∧ u'.mem = u1.mem ∧ u'.log = (u1.wrBytes (c.slotPa k num) data).log ∧
        u'.ctxs = u1.ctxs ∧ u'.waits = u1.waits)) ∧
    (ends → c.w.getD 6 0 = (u.ctx e.key).ident → c.pushseq < num → c.est = 0 → c.occ < c.cap → c.onchip = c.occ →
      c.onchip < c.con → ∃ u',
        exec (.cheos e.h) s = s.closes e u' (w64 (num % 2 ^ 56 * 256)) ∧ (u'.chan k).est = 1 ∧
        (u'.chan k).pushseq = num ∧ (∀ j ≠ k, u'.chan j = u2.chan j) ∧
        (∀ a, a < c.slotPa k num ∨ c.slotPa k num + c.esize ≤ a → u'.byte a = u2.byte a))) ∧
  (c.v = true → c.pv = false → fires → has → fits →
    (c.est ≠ 0 → exec (.chpush e.h flag) s = s.closes e u0 2) ∧
    (c.est = 0 → c.occ < c.cap → c.onchip = c.occ → c.onchip < c.con → c.pushseq + 1 < 2 ^ 64 → ∃ u',
      exec (.chpush e.h flag) s = s.closes e u' (w64 ((c.pushseq + 1) % 2 ^ 56 * 256)) ∧ (u'.chan k).pv = true ∧
      (u'.chan k).w.getD 6 0 = me ∧ (u'.chan k).pushseq = c.pushseq + 1 ∧
      (u'.chan k).onchip = c.onchip + 1 ∧ (∀ j ≠ k, u'.chan j = u1.chan j)))

/-- R180, R183, R185, R177, R160, R412, R274, R279: A pop takes the oldest element on chip to its destination and is
numbered, a peek leaves it; both bind the consumer and acquire at the smallest scope that contains the producer. At
the marker they answer EOS, at a closed channel CLOSED, and an empty channel makes them wait; another consumer's
fault, a misaligned destination does before all of these, and so does a channel whose elements a failed tile held,
which rebuilding closed (R274, R279). -/
def Obligations.ChannelPops : Prop := ∀ (s u u1 u3 u4 : State) (e : Env) (k : Nat) (bad : Option Nat),
  let c := u.chan k
  let x := u.ctx e.key
  let u2 := u1.chanSend e.tile (u1.who e) k c.esize false true
  let y := u2.ctx e.key
  let c2 := u2.chan k
  let n := (c2.popseq + 1) % 2 ^ 64
  let dest := { useDest y.sup with own := .work (e.key % 16) (u2.classOf e.key) : Use }
  let note := fun (t : State) => match bad with
    | some pa => t.asyncFault e.key { poisonFault pa with src := 9 }
    | none => t
  let acq := fun (t : State) => t.cacheAcquire e.tile (t.popScope k e.tile)
  let foreign : Flt := { code := .channelOwner, addr := e.a, extra := w64 (k % 64) }
  Goes s e → chanLocate e e.a (s.begun e) = .ok k u →
  (e.b.toNat % 8 ≠ 0 →
    (Fires.of s (.chpop e.h) e → exec (.chpop e.h) s = s.faults e u { code := .misaligned, addr := e.b, extra := 8 }) ∧
    (Fires.of s (.chpeek e.h) e → exec (.chpeek e.h) s = s.faults e u { code := .misaligned, addr := e.b, extra := 8 })) ∧
  (c.lost = true → e.b.toNat % 8 = 0 → (Fires.of s (.chpop e.h) e →
    exec (.chpop e.h) s = s.faults e u { code := .partFailed, extra := w64 (1 + c.lostTile * 256) }) ∧
    (Fires.of s (.chpeek e.h) e →
    exec (.chpeek e.h) s = s.faults e u { code := .partFailed, extra := w64 (1 + c.lostTile * 256) })) ∧
  (c.lost = false → e.b.toNat % 8 = 0 →
  (c.v = false → (Fires.of s (.chpop e.h) e → exec (.chpop e.h) s = s.closes e u 2) ∧
    (Fires.of s (.chpeek e.h) e → exec (.chpeek e.h) s = s.closes e u 2)) ∧
  (c.v = true → c.cv = true → c.w.getD 7 0 ≠ x.ident →
    (Fires.of s (.chpop e.h) e → exec (.chpop e.h) s = s.faults e u foreign) ∧
    (Fires.of s (.chpeek e.h) e → exec (.chpeek e.h) s = s.faults e u foreign)) ∧
  (c.v = true → (c.cv = false ∨ c.w.getD 7 0 = x.ident) →
    (c.atMarker = true → (Fires.of s (.chpop e.h) e → exec (.chpop e.h) s = s.closes e (u.chanMarker k e.key) 3) ∧
      (Fires.of s (.chpeek e.h) e → exec (.chpeek e.h) s = s.closes e (u.chanMarker k e.key) 3)) ∧
    (c.atMarker = false → checkU e.tile x.part (useDest x.sup) .plain e.b c.esize u = .ok () u1 →
      (c.onchip = 0 → (Fires.of s (.chpop e.h) e → exec (.chpop e.h) s = s.waitsFor e u2 (.pop k false e.b e.a)) ∧
        (Fires.of s (.chpeek e.h) e → exec (.chpeek e.h) s = s.waitsFor e u2 (.pop k true e.b e.a))) ∧
      (0 < c.onchip → checkU e.tile y.part dest .plain e.b c2.esize u2 = .ok () u3 →
        writeP e.tile y.part dest .plain e.b (u2.bytes (c2.slotPa k n) c2.esize) u3 = .ok bad u4 →
        (Fires.of s (.chpop e.h) e → exec (.chpop e.h) s = s.closes e
          (acq (note ((u4.bindCons k y.ident).chanTake k))) (w64 (n % 2 ^ 56 * 256))) ∧
        (Fires.of s (.chpeek e.h) e → exec (.chpeek e.h) s = s.closes e
          (acq (note (u4.bindCons k y.ident))) (w64 (n % 2 ^ 56 * 256)))))))

/-- R413, R187, R193, R195, R196, R414, R177, R183, R410: CHSTAT reads a channel's counts for its parties, all ones
when it is invalid; CHGROW raises SLIM up to SCAP and answers with it, CLOSED (code 2) at SCAP; its count must be 1 to
127. Both ask their home. ENQ and ENQW put a 128-byte record at the next place of an open queue and answer with its
number; at a queue without room ENQ and LAUNCH answer FULL and ENQW waits. LAUNCH submits a copy with the issuer's tag
as the lowest empty predecessor, and answers 3 when none is empty. An invalid or foreign queue faults QUEUE_ID. -/
def Obligations.QueueSubmission : Prop :=
  (∀ (s u : State) (e : Env) (k : Nat) (item : BitVec 3),
    let c := u.chan k
    let x := u.ctx e.key
    let t := u.chanSend e.tile (u.who e) k 8 false true
    let party := x.sup = true ∨ (c.pv = true ∧ c.w.getD 6 0 = x.ident) ∨ (c.cv = true ∧ c.w.getD 7 0 = x.ident)
    Goes s e → chanLocate e e.a (s.begun e) = .ok k u →
    (Fires.of s (.chstat e.h item) e →
      (c.v = false → exec (.chstat e.h item) s = s.closes e t (BitVec.allOnes 64)) ∧
      (c.v = true → ¬party → exec (.chstat e.h item) s =
        s.faults e t { code := .channelOwner, addr := e.a, extra := w64 (k % 64) }) ∧
      (c.v = true → party → exec (.chstat e.h item) s = s.closes e t (w64 (match item.toNat with
        | 0 => (c.pushseq + 2 ^ 64 - c.popseq) % 2 ^ 64
        | 1 => c.pushseq
        | 2 => c.popseq
        | _ => c.est + c.slim * 4 + c.scap * 512 + c.pv.toNat * 2 ^ 16 + c.cv.toNat * 2 ^ 17 +
            (c.con + c.slim * c.eps) * 2 ^ 32)))) ∧
    (Fires.of s (.chgrow e.h) e → ¬(1 ≤ e.b.toNat ∧ e.b.toNat ≤ 127) →
      exec (.chgrow e.h) s = s.faults e u { code := .reservedField, extra := e.word }) ∧
    (Fires.of s (.chgrow e.h) e → 1 ≤ e.b.toNat → e.b.toNat ≤ 127 →
      (c.v = false → exec (.chgrow e.h) s = s.closes e t 2) ∧
      (c.v = true → ¬party → exec (.chgrow e.h) s =
        s.faults e t { code := .channelOwner, addr := e.a, extra := w64 (k % 64) }) ∧
      (c.v = true → party → c.scap ≤ c.slim → exec (.chgrow e.h) s = s.closes e t (w64 (2 + c.slim * 256))) ∧
      (c.v = true → party → c.slim < c.scap → exec (.chgrow e.h) s = s.closes e
        ((t.setChan k { c with w := setField c.w 1 0 7 (min c.scap (c.slim + e.b.toNat)) }).chanRoomAll k)
        (w64 (min c.scap (c.slim + e.b.toNat) * 256))))) ∧
  (∀ (s u : State) (e : Env) (bs : List Byte),
    let t := s.begun e
    let c := s.ctx e.key
    let q := t.queueE e.b.toNat
    let rcd := (List.range 16).map (fun i => w64 (leNat ((bs.drop (8 * i)).take 8)))
    let num := (wAt (u.queueE e.b.toNat) 2 + 1) % 2 ^ 64
    let mayUse := e.b.toNat < 8192 ∧ qV q = true ∧ (c.sup = true ∨ (c.part = qPart q ∧ qSupq q = false))
    Goes s e →
    (¬mayUse →
      (Fires.of s (.enq e.h) e → exec (.enq e.h) s = s.traps e { code := .queueId, extra := e.b }) ∧
      (Fires.of s (.enqw e.h) e → exec (.enqw e.h) s = s.traps e { code := .queueId, extra := e.b }) ∧
      (Fires.of s (.launch e.h) e → exec (.launch e.h) s = s.traps e { code := .queueId, extra := e.b })) ∧
    (mayUse → e.a.toNat % 128 = 0 → readU e.tile c.part (useERead c.sup [0] 0) .engine e.a 128 t = .ok bs u →
      (qOpen (u.queueE e.b.toNat) false = true →
        (Fires.of s (.enq e.h) e → exec (.enq e.h) s = s.closes e (u.qAccept e.b.toNat rcd).2 (w64 (num % 2 ^ 56 * 256))) ∧
        (Fires.of s (.enqw e.h) e → exec (.enqw e.h) s = s.closes e (u.qAccept e.b.toNat rcd).2 (w64 (num % 2 ^ 56 * 256))) ∧
        (∀ j, j = 9 ∨ j = 10 ∨ j = 11 ∨ j = 12 → rcd.getD j 0 = 0 → (∀ i, 9 ≤ i → i < j → rcd.getD i 0 ≠ 0) →
          Fires.of s (.launch e.h) e → (u.ctx e.key).ltag = c.ltag →
          exec (.launch e.h) s = s.closes e (u.qAccept e.b.toNat (rcd.set j c.ltag)).2 (w64 (num % 2 ^ 56 * 256)))) ∧
      (qOpen (u.queueE e.b.toNat) false = false →
        (Fires.of s (.enq e.h) e → exec (.enq e.h) s = s.closes e u 1) ∧
        (Fires.of s (.enqw e.h) e → exec (.enqw e.h) s = s.waitsFor e u (.enqw e.b.toNat rcd)) ∧
        ((∃ j : Nat, 9 ≤ j ∧ j < 13 ∧ rcd.getD j 0 = 0) → Fires.of s (.launch e.h) e →
          exec (.launch e.h) s = s.closes e u 1)) ∧
      ((∀ i, 9 ≤ i → i < 13 → rcd.getD i 0 ≠ 0) → Fires.of s (.launch e.h) e →
        exec (.launch e.h) s = s.closes e u 3)))

/-- R250, R251, R252, R422, R423: BINIT writes a barrier's expectations and clears its counts; BARR and BADD count,
the event that meets the expectations flips the phase and clears the counts, one that would pass them faults and
counts nothing, and an arrival of a strand the barrier does not serve is FOREIGN. -/
def Obligations.BarrierEvents : Prop := ∀ (s : State) (e : Env) (n : BitVec 6) (level scope : BitVec 3),
  let t := s.begun e
  let c := s.ctx e.key
  let k := 48 * e.tile + n.toNat
  let b := s.bar k
  let expA := wAt b 0 % 2 ^ 32
  let expB := wAt b 1
  let cntA := wAt b 2 % 2 ^ 32
  let cntB := wAt b 3
  let ph := wAt b 2 / 2 ^ 32
  let done := [b.getD 0 0 ^^^ w64 (2 ^ 62), b.getD 1 0, w64 ((ph + 1) % 2 ^ 32 * 2 ^ 32), 0, b.getD 4 0, b.getD 5 0]
  let ov := ({ code := .barrierOverrun, extra := w64 n.toNat } : Flt)
  Goes s e → b.length = 6 →
  (Fires.of s (.binit e.h n level scope) e →
    (e.a.toNat < 2 ^ 32 → level.toNat ≤ c.widfmt.toNat % 8 → ∃ b' : List W64,
      exec (.binit e.h n level scope) s = s.closes e (t.setBar k b') 0 ∧ b'.length = 6 ∧ wAt b' 0 % 2 ^ 32 = e.a.toNat ∧
      wAt b' 1 = e.b.toNat ∧ wAt b' 2 = ph * 2 ^ 32 ∧ wAt b' 3 = 0 ∧
      b'.getD 4 0 = aboveLevel c.widfmt level.toNat c.wid ∧ b'.getD 5 0 = c.ltag) ∧
    (¬(e.a.toNat < 2 ^ 32 ∧ level.toNat ≤ c.widfmt.toNat % 8) →
      exec (.binit e.h n level scope) s = s.traps e { code := .reservedField, extra := e.word })) ∧
  (Fires.of s (.barr e.h n) e →
    (barMatch b c.ltag c.wid c.widfmt = false → exec (.barr e.h n) s = s.closes e t (w64 (1 + ph * 2 ^ 32))) ∧
    (barMatch b c.ltag c.wid c.widfmt = true → cntA + 1 = expA → cntB = expB →
      exec (.barr e.h n) s = s.closes e (t.setBar k done) (w64 (ph * 2 ^ 32))) ∧
    (barMatch b c.ltag c.wid c.widfmt = true → cntA < expA → cntB ≤ expB → ¬(cntA + 1 = expA ∧ cntB = expB) → ∃ b' : List W64,
      exec (.barr e.h n) s = s.closes e (t.setBar k b') (w64 (ph * 2 ^ 32)) ∧ wAt b' 2 = wAt b 2 + 1 ∧ wAt b' 3 = cntB ∧
      b'.getD 0 0 = b.getD 0 0 ∧ b'.getD 1 0 = b.getD 1 0) ∧
    (barMatch b c.ltag c.wid c.widfmt = true → expA ≤ cntA → exec (.barr e.h n) s = s.traps e ov)) ∧
  (Fires.of s (.badd e.h false n) e → e.b.toNat < 2 ^ 32 →
    (e.b = 0 → exec (.badd e.h false n) s = s.closes e t 0) ∧
    (e.b ≠ 0 → cntA = expA → cntB + e.b.toNat = expB → exec (.badd e.h false n) s = s.closes e (t.setBar k done) 0) ∧
    (e.b ≠ 0 → cntA ≤ expA → cntB + e.b.toNat ≤ expB → ¬(cntA = expA ∧ cntB + e.b.toNat = expB) → ∃ b' : List W64,
      exec (.badd e.h false n) s = s.closes e (t.setBar k b') 0 ∧ wAt b' 3 = cntB + e.b.toNat ∧ wAt b' 2 = wAt b 2 ∧
      b'.getD 0 0 = b.getD 0 0 ∧ b'.getD 1 0 = b.getD 1 0) ∧
    (e.b ≠ 0 → expB < cntB + e.b.toNat → exec (.badd e.h false n) s = s.traps e ov)) ∧
  (Fires.of s (.badd e.h false n) e → 2 ^ 32 ≤ e.b.toNat →
    exec (.badd e.h false n) s = s.traps e { code := .reservedField, extra := e.word })

/-- R423, R424, R254, R409: BARR.R and BADD.R send their event to the tile that the tile spec names, with what the
barrier needs to judge it; a spec that names no tile of the pod faults. BTEST answers whether a phase is passed, with
the phase count; BWAIT waits until it is. Both acquire at the barrier's scope when they find it passed. -/
def Obligations.BarrierWaits : Prop :=
  (∀ (s : State) (e : Env) (n : BitVec 6),
    let t := s.begun e
    let c := s.ctx e.key
    let rem := fun (bytes : Option Nat) => Host.Outcome.next (endStep s { t with
      rembars := t.rembars ++ [⟨e.a.toNat / 2 ^ 10 % 2 ^ 8, e.a.toNat % 2 ^ 10, n.toNat, bytes, e.key, e.idx, c.ltag, c.wid, c.widfmt,
        t.who e, s.pkgno⟩] })
    Goes s e →
    (s.tileSpecOk e.a = true →
      (Fires.of s (.barrR e.h n) e → exec (.barrR e.h n) s = rem none) ∧
      (Fires.of s (.badd e.h true n) e → e.b.toNat < 2 ^ 32 → exec (.badd e.h true n) s = rem (some e.b.toNat))) ∧
    (s.tileSpecOk e.a = false →
      (Fires.of s (.barrR e.h n) e → exec (.barrR e.h n) s = s.traps e { code := .reservedField, extra := e.word }))) ∧
  (∀ (s : State) (e : Env) (n : BitVec 6),
    let t := s.begun e
    let k := 48 * e.tile + n.toNat
    let b := s.bar k
    let ph := wAt b 2 / 2 ^ 32
    let d := (ph + 2 ^ 32 - e.a.toNat % 2 ^ 32) % 2 ^ 32
    let passed := 1 ≤ d ∧ d ≤ 2 ^ 31 - 1
    let scope := wAt b 0 / 2 ^ 56 % 2 ^ 3
    Goes s e →
    (passed → (Fires.of s (.btest e.h n) e → exec (.btest e.h n) s =
        s.closes e (t.cacheAcquire e.tile scope) (w64 (1 + ph * 2 ^ 32))) ∧
      (Fires.of s (.bwait e.h n) e → exec (.bwait e.h n) s = s.closes e (t.cacheAcquire e.tile scope) (w64 (1 + ph * 2 ^ 32)))) ∧
    (¬passed → (Fires.of s (.btest e.h n) e → exec (.btest e.h n) s = s.closes e t (w64 (ph * 2 ^ 32))) ∧
      (Fires.of s (.bwait e.h n) e → exec (.bwait e.h n) s = s.waitsFor e t (.bwait k (e.a.toNat % 2 ^ 32)))))

/-- R426, R47, R116, R428: PACQ takes a free permit or waits for it, and faults on its own permit, on a cycle of waits
and above eight held; PREL gives the issuer's permit to the oldest waiter or frees it, or makes a new one, and answers
NOTHELD for a permit that another holds, and for a free one (the model's choice, log 29); PREL.G turns it into a token
at a stream-in port; PQRY reads its entry. PCTR reads CYCLE, a barrier's arrivals and phase, a performance counter, or
the strand's mesh bucket; an operand out of range faults. -/
def Obligations.PermitResults : Prop :=
  (∀ (s : State) (e : Env) (port : BitVec 2) (k x : Nat) (h : W64 × Nat),
    let t := s.begun e
    let me := (s.ctx e.key).ident
    let n := e.a.toNat
    let mine := ((t.tile e.tile).permits.filter (fun p => p.holder.map Prod.fst = some me)).length
    let unwaited := ∀ w ∈ t.waits, w.key / 16 = e.tile → w.k ≠ .permit n
    Goes s e → n < 2 ^ 16 →
    (Fires.of s (.pacq e.h) e →
      (t.permit e.tile n = some ⟨x, none⟩ → mine < 8 →
        exec (.pacq e.h) s = s.closes e (t.setPermit e.tile ⟨n, some (me, e.key)⟩) 0) ∧
      (t.permit e.tile n = none → mine < 8 → exec (.pacq e.h) s = s.waitsFor e t (.permit n)) ∧
      (t.permit e.tile n = some ⟨x, none⟩ → 8 ≤ mine → exec (.pacq e.h) s = s.traps e { code := .reservedField, extra := e.word }) ∧
      (t.permit e.tile n = some ⟨x, some h⟩ → h.1 = me → exec (.pacq e.h) s = s.traps e { code := .permitSelf, extra := w64 n }) ∧
      (t.permit e.tile n = some ⟨x, some h⟩ → h.1 ≠ me → e.key ∈ t.permitChain e.tile 17 n →
        exec (.pacq e.h) s = s.traps e { code := .deadlock, extra := w64 n }) ∧
      (t.permit e.tile n = some ⟨x, some h⟩ → h.1 ≠ me → e.key ∉ t.permitChain e.tile 17 n → mine < 8 →
        exec (.pacq e.h) s = s.waitsFor e t (.permit n))) ∧
    (Fires.of s (.prel e.h) e →
      (t.permit e.tile n = some ⟨x, some h⟩ → h.1 = me → unwaited →
        exec (.prel e.h) s = s.closes e (t.setPermit e.tile ⟨n, none⟩) 0) ∧
      (t.permit e.tile n = some ⟨x, some h⟩ → h.1 ≠ me → exec (.prel e.h) s = s.closes e t 1) ∧
      (t.permit e.tile n = some ⟨x, none⟩ → exec (.prel e.h) s = s.closes e t 1) ∧
      (t.permit e.tile n = none → (t.tile e.tile).permits.length < 16 → unwaited →
        exec (.prel e.h) s = s.closes e (t.setPermit e.tile ⟨n, none⟩) 0) ∧
      (t.permit e.tile n = none → 16 ≤ (t.tile e.tile).permits.length → exec (.prel e.h) s = s.closes e t 2) ∧
      (∀ w ws, t.permit e.tile n = some ⟨x, some h⟩ → h.1 = me → t.waits = w :: ws → w.key / 16 = e.tile → w.k = .permit n →
        exec (.prel e.h) s = s.closes e (((dropWait t w).setPermit e.tile ⟨n, some ((s.ctx w.key).ident, w.key)⟩).finish
          w.key w.idx 0) 0)) ∧
    (Fires.of s (.prelG e.h port) e → (s.ctx e.key).region = some k → (t.region (4 * e.tile + k)).reconf = false →
      (t.permit e.tile n = some ⟨x, some h⟩ → h.1 = me → exec (.prelG e.h port) s = s.closes e
        ((t.dropPermit e.tile n).updRegion (4 * e.tile + k) (fun r => { r with
          pend := r.pend ++ [⟨port.toNat, t.who e, some n⟩] })) 0) ∧
      (t.permit e.tile n = none → exec (.prelG e.h port) s = s.closes e t 1)) ∧
    (Fires.of s (.pqry e.h) e → unwaited →
      (t.permit e.tile n = none → exec (.pqry e.h) s = s.closes e t 0) ∧
      (t.permit e.tile n = some ⟨x, none⟩ → exec (.pqry e.h) s = s.closes e t 1) ∧
      (t.permit e.tile n = some ⟨x, some h⟩ → exec (.pqry e.h) s = s.closes e t (w64 (2 + h.1.toNat % 2 ^ 46 * 2 ^ 18))))) ∧
  (∀ (s : State) (e : Env) (v : Int),
    let t := s.begun e
    let b := s.bar (48 * e.tile + e.a.toNat)
    Goes s e →
    (Fires.of s (.pctr e.h 0) e → exec (.pctr e.h 0) s = s.closes e t s.cycle) ∧
    (Fires.of s (.pctr e.h 1) e → e.a.toNat < 48 → exec (.pctr e.h 1) s =
      s.closes e t (w64 (wAt b 2 % 2 ^ 32 + ((b.getD 0 0).getLsbD 62).toNat * 2 ^ 32))) ∧
    (Fires.of s (.pctr e.h 1) e → 48 ≤ e.a.toNat → exec (.pctr e.h 1) s =
      s.traps e { code := .reservedField, extra := e.word }) ∧
    (Fires.of s (.pctr e.h 2) e → e.a.toNat < 16 → exec (.pctr e.h 2) s = s.closes e t ((t.tile e.tile).pmc.getD 0 e.a.toNat)) ∧
    (Fires.of s (.pctr e.h 2) e → 16 ≤ e.a.toNat → exec (.pctr e.h 2) s =
      s.traps e { code := .reservedField, extra := e.word }) ∧
    (Fires.of s (.pctr e.h 3) e → (t.tile e.tile).mesh.tok.getD 0 (t.classOf e.key) = v →
      exec (.pctr e.h 3) s = s.closes e t (BitVec.ofInt 64 v)))

/-- R409, R415, R419: SEND, SIGNAL and SEND.Q check their send spec, read what they send, and are accepted; the
message goes where the spec says. A SIGNAL within the package has landed at its tile in the same step (the model's
choice, logs 13 and 46); one to another package carries its tag in AUX and the kind of notice in TAG (log 77). -/
def Obligations.MessageSends : Prop := ∀ (s u u' : State) (e : Env) (dir : BitVec 2) (bs hb : List Byte),
  let t := s.begun e
  let c := s.ctx e.key
  let len := e.b.toNat / 2 ^ 50 % 2 ^ 13
  let msg := fun (x : State) (cls tag aux way : Nat) (data : List Byte) (sig : Bool) =>
    ({ cls := cls, dpkg := e.b.toNat / 2 ^ 42 % 2 ^ 8, dtile := e.b.toNat / 2 ^ 32 % 2 ^ 10, spkg := x.pkgno,
       stile := e.tile, who := x.who e, tag := tag, aux := aux, data := data, sig := sig, npkt := 1, way := way } : Msg)
  let bad := s.traps e { code := .reservedField, extra := e.word }
  Goes s e →
  (sendSpecOk t e.b = true →
    (Fires.of s (.send e.h dir) e → 1 ≤ len → len ≤ 4096 →
      readU e.tile c.part (copyRead c.sup) .engine e.a len t = .ok bs u →
      exec (.send e.h dir) s = .next (endStep s (u.sendMsg e (msg u 1 (e.b.toNat % 2 ^ 32) 0 dir.toNat bs false)))) ∧
    (Fires.of s (.signal e.h) e → len = 0 →
      (e.b.toNat / 2 ^ 42 % 2 ^ 8 = t.pkgno → ∃ v : State,
        exec (.signal e.h) s = .next (endStep s v) ∧ v = t.sendMsg e (msg t 3 (e.b.toNat % 2 ^ 32) 0 0 [] true) ∧
        v.msgs.get? t.nextId = some { msg t 3 (e.b.toNat % 2 ^ 32) 0 0 [] true with landed := 1 }) ∧
      (e.b.toNat / 2 ^ 42 % 2 ^ 8 ≠ t.pkgno → exec (.signal e.h) s =
        .next (endStep s (t.sendMsg e (msg t 3 noticeSignal (e.b.toNat % 2 ^ 32) 0 [] true))))) ∧
    (Fires.of s (.sendQ e.h dir) e → len = 0 → e.b.toNat / 2 ^ 5 % 2 ^ 27 = 0 →
      readU e.tile c.part (copyRead c.sup) .engine (e.a + w64 (tokOoff (e.b.toNat % 32 + 1) - 64)) 64 t = .ok hb u →
      (let rows := e.b.toNat % 32 + 1
       let img := List.replicate (tokOoff rows - 64) 0 ++ hb
       let dhd := hdrOf rows img 5 1
       hdrOk rows img = true → hdrOf rows img 4 1 = rows - 1 →
       readU e.tile c.part (copyRead c.sup) .engine e.a (tokLen rows dhd) u = .ok bs u' →
       exec (.sendQ e.h dir) s = .next (endStep s
        (u'.sendMsg e (msg u' 0 (hdrOf rows img 0 2) (rows - 1 + dhd * 32) dir.toNat bs false)))))) ∧
  (sendSpecOk t e.b = false → (Fires.of s (.send e.h dir) e → exec (.send e.h dir) s = bad) ∧
    (Fires.of s (.signal e.h) e → exec (.signal e.h) s = bad) ∧ (Fires.of s (.sendQ e.h dir) e → exec (.sendQ e.h dir) s = bad))

/-- R214, R416, R420, R421: RECV takes the oldest queued message that fits its match spec, NONE when there is none;
RECVW posts a receive when there is none. A message that has landed whole is written to the destination and its status
delivered, an acquire at the smallest scope that contains its sender (R160). RECVW.T waits for a query token with its
handler key. The instructions on a token in service: FWD.Q sends the token on, with this tile and package as its
source (the model's reading, log 46), and FWD.M bytes of its slot as a message, FWD.END frees the slot, TOKINFO reads
the header and the token's layout. A slot without a token in service faults RESERVED_FIELD, a token of another context
PRIVILEGE. -/
def Obligations.MessageReceives : Prop :=
  (∀ (s u u2 : State) (e : Env) (tag cap id : Nat) (src : Option (Nat × Nat)) (m : Msg)
      (bad : Option Nat),
    let t := s.begun e
    let c := s.ctx e.key
    let d := u.ovfDrop e.tile id
    let note := match bad with
      | some pa => u2.asyncFault e.key { poisonFault pa with src := 9 }
      | none => u2
    let got : State := { note with msgs := note.msgs.del id }
    let use := (useDest c.sup).by ⟨e.key, c.ident, e.idx, c.part, c.sup, d.classOf e.key⟩
    Goes s e →
    (matchSpec t e.b = some (tag, src, cap) → e.a.toNat % 8 = 0 →
      checkU e.tile c.part (useDest c.sup) .plain e.a cap t = .ok () u → u.ctx e.key = c →
      (u.ovfFind e.tile tag src = none →
        (Fires.of s (.recv e.h) e → exec (.recv e.h) s = s.closes e u 2) ∧
        (Fires.of s (.recvw e.h) e → exec (.recvw e.h) s =
          .next (endStep s (u.postRecv e.key e.idx tag src cap e.a)))) ∧
      (u.ovfFind e.tile tag src = some id → u.msgs.get? id = some m →
        (m.landed = m.npkt →
          writeP e.tile c.part use .plain e.a (m.data.take cap) d = .ok bad u2 →
          (Fires.of s (.recv e.h) e → exec (.recv e.h) s =
            s.closes e (if m.sig then got else got.cacheAcquire e.tile (got.msgScope m e.tile)) (recvStat m cap)) ∧
          (Fires.of s (.recvw e.h) e → exec (.recvw e.h) s =
            s.closes e (if m.sig then got else got.cacheAcquire e.tile (got.msgScope m e.tile)) (recvStat m cap))) ∧
        (m.landed ≠ m.npkt → (Fires.of s (.recv e.h) e → exec (.recv e.h) s = s.waitsFor e d (.recvGot id cap e.a)) ∧
          (Fires.of s (.recvw e.h) e → exec (.recvw e.h) s = s.waitsFor e d (.recvGot id cap e.a))))) ∧
    (matchSpec t e.b = none →
      (Fires.of s (.recv e.h) e → exec (.recv e.h) s = s.traps e { code := .reservedField, extra := e.word }) ∧
      (Fires.of s (.recvw e.h) e → exec (.recvw e.h) s = s.traps e { code := .reservedField, extra := e.word })) ∧
    (Fires.of s (.recvwT e.h) e → e.a = 0 → e.b.toNat < 2 ^ 32 →
      exec (.recvwT e.h) s = s.waitsFor e t (.recvTok e.b.toNat)) ∧
    (Fires.of s (.recvwT e.h) e → e.a ≠ 0 → exec (.recvwT e.h) s = s.traps e { code := .reservedField, extra := e.word })) ∧
  (∀ (s : State) (e : Env) (x : TSlot) (item : BitVec 3),
    let t := s.begun e
    let k := e.a.toNat % 8
    let off := e.a.toNat / 2 ^ 16 % 2 ^ 16
    let len := e.b.toNat / 2 ^ 50 % 2 ^ 13
    let tot := tokLen x.msg.rows x.msg.dhd
    let msg := fun (cls tag aux : Nat) (data : List Byte) =>
      ({ cls := cls, dpkg := e.b.toNat / 2 ^ 42 % 2 ^ 8, dtile := e.b.toNat / 2 ^ 32 % 2 ^ 10, spkg := t.pkgno,
         stile := e.tile, who := t.who e, tag := tag, aux := aux, data := data, sig := false, npkt := 1, way := 0 } : Msg)
    let q := msg 0 x.msg.tag x.msg.aux (t.bytes (tokSlotPa e.tile k) tot)
    Goes s e →
    (t.serving e.tile k = some x → x.service = some e.key →
      (Fires.of s (.fwdQ e.h) e → e.a.toNat < 8 →
        (e.b = 0 → ¬(x.msg.dpkg = t.pkgno ∧ x.msg.dtile = e.tile) → exec (.fwdQ e.h) s = .next (endStep s
          ((t.setTslot e.tile k { x with leaving := true }).sendMsg e
            { q with dpkg := x.msg.dpkg, dtile := x.msg.dtile, slot := some k }))) ∧
        (e.b ≠ 0 → sendSpecOk t e.b = true → len = 0 → e.b.toNat % 2 ^ 32 = 0 → exec (.fwdQ e.h) s = .next (endStep s
          ((t.setTslot e.tile k { x with leaving := true }).sendMsg e { q with slot := some k })))) ∧
      (Fires.of s (.fwdM e.h) e → e.a.toNat / 2 ^ 3 % 2 ^ 13 = 0 → e.a.toNat < 2 ^ 32 → sendSpecOk t e.b = true → 1 ≤ len →
        len ≤ 4096 → off + len ≤ tot → exec (.fwdM e.h) s = .next (endStep s
          (t.sendMsg e (msg 1 (e.b.toNat % 2 ^ 32) 0 (t.bytes (tokSlotPa e.tile k + off) len))))) ∧
      (Fires.of s (.fwdEnd e.h) e → e.a.toNat < 8 → e.b = 0 →
        exec (.fwdEnd e.h) s = s.closes e (t.dropTslot e.tile k) 0) ∧
      (Fires.of s (.tokinfo e.h item) e → e.a.toNat < 8 → exec (.tokinfo e.h item) s = s.closes e t (w64 (match item.toNat with
        | 0 => t.slotHdr e.tile k x 0 8
        | 1 => t.slotHdr e.tile k x 8 8
        | 2 => t.slotHdr e.tile k x 16 4
        | 3 => t.slotHdr e.tile k x 24 8
        | 4 => tokOoff x.msg.rows + tokQoff x.msg.rows x.msg.dhd * 2 ^ 16 + tot * 2 ^ 32
        | _ => x.msg.stile + x.msg.spkg * 2 ^ 10 + x.msg.dtile * 2 ^ 18 + x.msg.dpkg * 2 ^ 28)))) ∧
    (t.serving e.tile k = none →
      (Fires.of s (.fwdQ e.h) e → exec (.fwdQ e.h) s = s.traps e { code := .reservedField, extra := e.word }) ∧
      (Fires.of s (.fwdEnd e.h) e → exec (.fwdEnd e.h) s = s.traps e { code := .reservedField, extra := e.word })) ∧
    (t.serving e.tile k = some x → x.service ≠ some e.key →
      (Fires.of s (.fwdM e.h) e → exec (.fwdM e.h) s = s.traps e { code := .privilege, extra := e.word }) ∧
      (Fires.of s (.fwdEnd e.h) e → exec (.fwdEnd e.h) s = s.traps e { code := .privilege, extra := e.word })))

/-- R433, R226, R430, R223: SHLOOK reads a word of a shard-table entry or finds the entry of a page; SHMAP.E and
SHUNMAP.E set an entry and clear its V, for S only; an entry in use or one that breaks R226 is a CONFLICT. SHMAP.P
maps a key's page to a descriptor and counts the reference; SHUNMAP.P and KVEVICT.REL drop a map entry. A mapping in
use is a CONFLICT, a free or unmapped page a STATE, a tentative page TENT, a full count REF; a page in motion, or a
last reference under a visit, makes the command wait at its unit. A descriptor outside HBM4E faults TRANSLATION (the
model's choice, log 39). The accesses of the units are metered (`unit`). -/
def Obligations.ShardMappings : Prop :=
  (∀ (s u : State) (e : Env) (item : BitVec 3) (i : Nat) (x : BitVec 256) (bs : List Byte),
    let t := s.begun e
    let c := s.ctx e.key
    let entry := fun (i : Nat) => (t.tile e.tile).shard.getD 0 i
    let y := BitVec.ofNat 256 (leNat bs)
    let bad := s.traps e { code := .reservedField, extra := e.word }
    Goes s e →
    (Fires.of s (.shlookWord e.h item) e →
      (e.a.toNat < 512 → exec (.shlookWord e.h item) s =
        s.closes e t ((entry e.a.toNat).extractLsb' (64 * item.toNat) 64)) ∧
      (512 ≤ e.a.toNat → exec (.shlookWord e.h item) s = bad)) ∧
    (Fires.of s (.shlookFind e.h) e → e.a.toNat < 2 ^ 30 →
      (t.shardFind e.tile (e.a.toNat % 2 ^ 16) (e.a.toNat / 2 ^ 16 % 2 ^ 8) (e.a.toNat / 2 ^ 24 % 2 ^ 6) e.b.toNat = some (i, x) →
        exec (.shlookFind e.h) s = s.closes e t (w64 (i % 2 ^ 56 * 256))) ∧
      (t.shardFind e.tile (e.a.toNat % 2 ^ 16) (e.a.toNat / 2 ^ 16 % 2 ^ 8) (e.a.toNat / 2 ^ 24 % 2 ^ 6) e.b.toNat = none →
        exec (.shlookFind e.h) s = s.closes e t 8)) ∧
    (c.sup = true →
      (Fires.of s (.shmapE e.h) e → e.b.toNat < 512 → inBytes e e.a 32 8 t = .ok bs u → y.extractLsb' 0 123 = 0 →
        let free := ((u.tile e.tile).shard.getD 0 e.b.toNat).getLsbD 255 = false ∧
          u.shardOk e.tile y = true
        (free → exec (.shmapE e.h) s = s.closes e (u.updTile e.tile (fun z => { z with shard := z.shard.put e.b.toNat y })) 0) ∧
        (¬free → exec (.shmapE e.h) s = s.closes e u 7)) ∧
      (Fires.of s (.shunmapE e.h) e → e.a.toNat < 512 → exec (.shunmapE e.h) s = s.closes e (t.updTile e.tile (fun z =>
        { z with shard := z.shard.put e.a.toNat ((z.shard.getD 0 e.a.toNat) &&& BitVec.ofNat 256 (2 ^ 255 - 1)) })) 0)) ∧
    (c.sup = false →
      (Fires.of s (.shmapE e.h) e → exec (.shmapE e.h) s = s.traps e { code := .privilege, extra := e.word }) ∧
      (Fires.of s (.shunmapE e.h) e → exec (.shunmapE e.h) s = s.traps e { code := .privilege, extra := e.word }))) ∧
  (∀ (s u : State) (e : Env) (x : PKey) (d : Nat),
    let t := s.begun e
    let at_ := u.mapped x.q x.p x.k
    let waits := Host.Outcome.next (endStep s (s.atUnit e))
    let unit := fun (w : State) => w.unitAccs (w.ownOf e) (u.linkAccs x.q x.p x.k d)
    Goes s e → pageKey e e.a t = .ok x u →
    (Fires.of s (.shmapP e.h) e → e.b.toNat % 32 = 0 → u.paKind e.b.toNat ≠ .hbm →
      exec (.shmapP e.h) s = s.traps e { code := .translation, addr := e.b, extra := 15 }) ∧
    (Fires.of s (.shmapP e.h) e → e.b.toNat % 32 = 0 → u.paKind e.b.toNat = .hbm → e.b.toNat = d →
      (at_ ≠ none → exec (.shmapP e.h) s = s.closes e u 7) ∧
      (at_ = none → u.dState d = stEvict → exec (.shmapP e.h) s = waits) ∧
      (at_ = none → u.dState d = stFree → exec (.shmapP e.h) s = s.closes e u 6) ∧
      (at_ = none → u.dState d ≠ stEvict → u.dState d ≠ stFree →
        (u.dTent d = true → exec (.shmapP e.h) s = s.closes e u 2) ∧
        (u.dTent d = false → u.dRef d = 65535 → exec (.shmapP e.h) s = s.closes e u 4) ∧
        (u.dTent d = false → u.dRef d ≠ 65535 →
          exec (.shmapP e.h) s = s.closes e (unit ((u.setMap x.q x.p x.k (some d)).setRef d (u.dRef d + 1))) 0))) ∧
    (at_ = none → (Fires.of s (.shunmapP e.h) e → exec (.shunmapP e.h) s = s.closes e u 6) ∧
      (Fires.of s (.kvevictRel e.h) e → exec (.kvevictRel e.h) s = s.closes e u 6)) ∧
    (at_ = some d → u.dState d = stEvict →
      (Fires.of s (.shunmapP e.h) e → exec (.shunmapP e.h) s = waits) ∧
      (Fires.of s (.kvevictRel e.h) e → exec (.kvevictRel e.h) s = waits)) ∧
    (at_ = some d → u.dState d ≠ stEvict → u.dTent d = true →
      (Fires.of s (.shunmapP e.h) e → exec (.shunmapP e.h) s = s.closes e u 2) ∧
      (Fires.of s (.kvevictRel e.h) e → exec (.kvevictRel e.h) s = s.closes e u 2)) ∧
    (at_ = some d → u.dState d ≠ stEvict → u.dTent d = false → u.dRef d ≤ 1 → u.visited d = true →
      (Fires.of s (.shunmapP e.h) e → exec (.shunmapP e.h) s = waits) ∧
      (Fires.of s (.kvevictRel e.h) e → exec (.kvevictRel e.h) s = waits)) ∧
    (at_ = some d → u.dState d ≠ stEvict → u.dTent d = false → ¬(u.dRef d ≤ 1 ∧ u.visited d = true) →
      (Fires.of s (.shunmapP e.h) e → exec (.shunmapP e.h) s = s.closes e (unit (u.dropMap x.q x.p x.k d)) 0) ∧
      (Fires.of s (.kvevictRel e.h) e → exec (.kvevictRel e.h) s = s.closes e (unit (u.dropMap x.q x.p x.k d)) 0)))

/-- R434, R435: KVAPPEND reads its batch list and appends its entries in order. When all are done every entry's code
is OK; without PART one entry that cannot be done leaves everything as it was, with PART the entries before it stand.
That STATE ranks before SHORT, and that the entries done and the one that stopped a PART get their codes, is the
model's reading (log 38); so is that an append that meets a page in motion waits whole and is tried again (log 36). -/
def Obligations.KvAppendResults : Prop := ∀ (s u u1 u2 u3 : State) (e : Env) (flag : Bool) (b : List Byte) (l : List AppEnt)
    (done short : Nat) (st : Option Nat),
  let t := s.begun e
  let n := e.b.toNat
  Goes s e → Fires.of s (.kvappend e.h flag) e →
  ((n = 0 ∨ 64 < n) → exec (.kvappend e.h flag) s = s.traps e { code := .reservedField, extra := e.word }) ∧
  (1 ≤ n → n ≤ 64 → inBytes e e.a (32 * n) 8 t = .ok b u →
    (List.range n).mapM (fun i => appEnt e (b.drop (32 * i))) u = .ok l u1 →
    (appendAll e flag l u1 = .ok (done, st, short, true) u2 →
      exec (.kvappend e.h flag) s = .next (endStep s (s.atUnit e))) ∧
    (appendAll e flag l u1 = .ok (n, none, 0, false) u2 →
      (do for i in List.range n do putCode e i 0 : M Unit) u2 = .ok () u3 →
      exec (.kvappend e.h flag) s = s.closes e u3 0) ∧
    (flag = false → appendAll e flag l u1 = .ok (done, st, short, false) u2 →
      (∀ i, st = some i → exec (.kvappend e.h flag) s = s.closes e u1 (w64 (6 + i % 2 ^ 56 * 256))) ∧
      (st = none → 0 < short → exec (.kvappend e.h flag) s = s.closes e u1 (w64 (1 + short % 2 ^ 56 * 256)))) ∧
    (flag = true → appendAll e flag l u1 = .ok (done, st, short, false) u2 → done ≠ n →
      (do for i in List.range done do putCode e i 0
          putCode e done (if st.isSome then 6 else 1) : M Unit) u2 = .ok () u3 →
      exec (.kvappend e.h flag) s = s.closes e u3 (w64 (1 + done * 256 + short * 65536))))

/-- R436, R437, R438: KVTENT replaces the links of a sequence's tentative positions when they form a tree; KVROLL
removes the positions from b on; KVCOMMIT commits the path to position b and removes the rest. That KVCOMMIT answers
LINK over an invalid link (log 38) and commits nothing for b = 127 (log 32) is the model's reading. KVFORK gives an
empty sequence of the same shape the committed positions of another: full pages shared, the last page copied, trailer
and chain hash taken over. What it cannot share answers and changes nothing: another shape, or an invalid destination,
MISMATCH. That an unmapped page of the source answers STATE, and that a descriptor counts once for each time it is
named, is the model's reading (log 38). -/
def Obligations.KvSettling : Prop :=
  (∀ (s u u1 : State) (e : Env) (q : SeqE) (bs : List Byte),
    let t := s.begun e
    let n := e.a.toNat
    let b := e.b.toNat
    let path := (q.ancestors b).reverse
    let new := q.clen + path.length
    let own := u.ownOf e
    let unit := fun (w : State) => w.unitAccs (w.ownOf e) [(q.home, w.seqPa n, 128, true)]
    Goes s e → n < 2 ^ 16 → needSeq e n t = .ok q u →
    (Fires.of s (.kvtent e.h) e → inBytes e e.b 48 8 u = .ok bs u1 →
      (linksOk (leNat bs) q.tent = true → exec (.kvtent e.h) s = s.closes e (unit (u1.setLinks n (leNat bs))) 0) ∧
      (linksOk (leNat bs) q.tent = false → exec (.kvtent e.h) s = s.closes e u1 13)) ∧
    (Fires.of s (.kvroll e.h) e →
      ((b < q.clen ∨ q.tlen < b) → exec (.kvroll e.h) s = s.closes e u 6) ∧
      (q.clen ≤ b → b ≤ q.tlen → u.cutWaits q b b = true → exec (.kvroll e.h) s = .next (endStep s (s.atUnit e))) ∧
      (q.clen ≤ b → b ≤ q.tlen → u.cutWaits q b b = false →
        exec (.kvroll e.h) s = s.closes e (unit ((u.cutSeq own q b (decide (q.clen < b))).setLen n q.clen b)) 0)) ∧
    (Fires.of s (.kvcommit e.h) e →
      (63 < b → b ≠ 127 → exec (.kvcommit e.h) s = s.traps e { code := .reservedField, extra := e.word }) ∧
      (b = 127 → exec (.kvcommit e.h) s = s.closes e u 0) ∧
      (b ≤ 63 → q.tent ≤ b → exec (.kvcommit e.h) s = s.closes e u 6) ∧
      (b < q.tent → b ≤ 63 → (∃ k ∈ path, k < q.link k) → exec (.kvcommit e.h) s = s.closes e u 13) ∧
      (b < q.tent → b ≤ 63 → (∀ k ∈ path, q.link k ≤ k) → u.cutWaits q (q.clen / 64 * 64) new = true →
        exec (.kvcommit e.h) s = .next (endStep s (s.atUnit e))) ∧
      (b < q.tent → b ≤ 63 → (∀ k ∈ path, q.link k ≤ k) → u.cutWaits q (q.clen / 64 * 64) new = false → ∃ v,
        exec (.kvcommit e.h) s = s.closes e (unit v) 0 ∧
        v = ((((q.pages (q.clen / 64 * 64) new).foldl (fun (s : State) (pk : Nat × Nat) => match s.mapped q pk.1 pk.2 with
            | some d => s.setDsc d 60 1 0
            | none => s)
          (((path.zip (List.range path.length)).foldl (fun (s : State) (x : Nat × Nat) =>
            if x.1 = x.2 then s else s.copyPos own q (q.clen + x.1) (q.clen + x.2)) u).cutSeq own q new false)).setLen n new
              new).commitPages n q q.clen new)))) ∧
  (∀ (s u u1 u2 : State) (e : Env) (qa qb : SeqE) (short : Nat),
    let t := s.begun e
    let na := e.a.toNat
    let nb := e.b.toNat
    let c := u1.ctx e.key
    let full := qa.clen / 64
    let cnt := qa.clen % 64
    let ds := (qa.pages 0 qa.clen).map (fun pk => (pk, u1.mapped qa pk.1 pk.2))
    let shared := ds.filter (fun x => x.1.2 < full)
    let copied := ds.filter (fun x => x.1.2 = full)
    let fits := qb.v = true ∧ qb.clen = 0 ∧ qb.tlen = 0 ∧ qa.model = qb.model ∧ qa.nlay = qb.nlay ∧ qa.ngrp = qb.ngrp ∧ qa.dhd = qb.dhd ∧
      full + (if cnt = 0 then 0 else 1) ≤ qb.pmcap
    let own := u1.ownOf e
    let many := fun (x : (Nat × Nat) × Option Nat) (d : Nat) =>
      65535 < u1.dRef d + (shared.filter (fun y => y.2 = x.2)).length
    let share := fun (s : State) => shared.foldl (fun (s : State) (x : (Nat × Nat) × Option Nat) => match x.2 with
      | some d => ((s.setMap qb x.1.1 x.1.2 (some d)).setRef d (s.dRef d + 1)).unitAccs own (s.linkAccs qb x.1.1 x.1.2 d)
      | none => s) s
    let copy := fun (s : State) => copied.foldl (fun (s : State) (x : (Nat × Nat) × Option Nat) =>
      match x.2.bind s.pagePlace, s.mapped qb x.1.1 x.1.2 with
      | some a, some d => (match s.pagePlace d with
        | some b => (s.copyRows (s.dOwner d) own a b cnt).setDsc d 32 7 cnt
        | none => s)
      | _, _ => s) s
    let settle := fun (s : State) =>
      ((s.wrBytes qb.trbase (s.bytes qa.trbase (4 * qa.clen))).wr (s.seqPa nb + 0x30) 16 qa.chash).setLen nb qa.clen qa.clen
    let unit := fun (w : State) => w.unitAccs (w.ownOf e) [(qb.home, qa.trbase, 4 * qa.clen, false),
      (qb.home, qb.trbase, 4 * qa.clen, true), (qb.home, u1.seqPa nb, 128, true)]
    Goes s e → Fires.of s (.kvfork e.h) e → na < 2 ^ 16 → nb < 2 ^ 16 → needSeq e na t = .ok qa u → readSeq e nb u = .ok qb u1 →
    (qb.v = true → qb.fieldsOk = false → exec (.kvfork e.h) s = s.traps e { code := .reservedField, extra := e.word }) ∧
    (qb.v = false → exec (.kvfork e.h) s = s.closes e u1 9) ∧
    (qb.fieldsOk = true → ¬fits → exec (.kvfork e.h) s = s.closes e u1 9) ∧
    (qb.fieldsOk = true → fits → (∃ x ∈ ds, ∃ d, x.2 = some d ∧ u1.dState d = stEvict) →
      exec (.kvfork e.h) s = .next (endStep s (s.atUnit e))) ∧
    (qb.fieldsOk = true → fits → (∀ x ∈ ds, ∀ d, x.2 = some d → u1.dState d ≠ stEvict) →
      ((∃ x ∈ ds, x.2 = none) ∨ ∃ x ∈ copied, ∃ d, x.2 = some d ∧ u1.dState d = stAbsent) →
      exec (.kvfork e.h) s = s.closes e u1 6) ∧
    (qb.fieldsOk = true → fits → (∀ x ∈ ds, ∃ d, x.2 = some d ∧ u1.dState d ≠ stEvict) →
      (∀ x ∈ copied, ∀ d, x.2 = some d → u1.dState d ≠ stAbsent) →
      ((∃ x ∈ ds, ∃ d, x.2 = some d ∧ u1.dTent d = true) → exec (.kvfork e.h) s = s.closes e u1 2) ∧
      ((∀ x ∈ ds, ∀ d, x.2 = some d → u1.dTent d = false) → (∃ x ∈ shared, ∃ d, x.2 = some d ∧ many x d) →
        exec (.kvfork e.h) s = s.closes e u1 4)) ∧
    (qb.fieldsOk = true → fits → (∀ x ∈ ds, ∃ d, x.2 = some d ∧ u1.dState d ≠ stEvict ∧ u1.dTent d = false) →
      (∀ x ∈ shared, ∀ d, x.2 = some d → ¬many x d) → (∀ x ∈ copied, ∀ d, x.2 = some d → u1.dState d ≠ stAbsent) →
      reservePages e c.part nb qb (copied.map Prod.fst) u1 = .ok short u2 →
      (short = 0 → exec (.kvfork e.h) s = s.closes e (unit (settle (copy (share u2)))) 0) ∧
      (0 < short → exec (.kvfork e.h) s = s.closes e u1 (w64 (1 + short % 2 ^ 56 * 256)))))

/-- R225, R439: What the commands on places do to a page that is not in motion: KVEVICT starts its move to the HBM
place or to the slow tier, or drops it; KVPIN sets PIN and KVPIN.CLR clears it. A pinned page answers PINNED, a
tentative one TENT, and one in another state STATE; a page in motion makes every command wait. KVREFILL brings an
absent page in from an image in memory, a cold page from the slow tier, or a warm page with a slot from its HBM place:
to the slot when it has one, else to the HBM place. -/
def Obligations.KvPlaces : Prop :=
  (∀ (s u v : State) (e : Env) (x : PKey) (d a : Nat),
    let t := s.begun e
    let at_ := u.mapped x.q x.p x.k
    let waits := Host.Outcome.next (endStep s (s.atUnit e))
    let unit := fun (w : State) => w.unitAccs (w.ownOf e) [(w.dOwner d, d, 32, true)]
    let moves := fun (w : State) (target : Nat) (src dst caddr : Option Nat) => Host.Outcome.next (endStep s (unit
      { w.setDsc d 61 3 stEvict with moves := w.moves ++ [⟨d, target, src, dst, caddr, { w.who e with idx := e.idx }, []⟩] }))
    let l := [Instr.kvevictHbm e.h, .kvevictCold e.h, .kvevictDrop e.h]
    Goes s e → pageKey e e.a t = .ok x u →
    (at_ = none → ∀ i ∈ l ++ [.kvpin e.h, .kvpinClr e.h], Fires.of s i e → exec i s = s.closes e u 6) ∧
    (at_ = some d → u.dState d = stEvict → ∀ i ∈ l ++ [.kvpin e.h, .kvpinClr e.h], Fires.of s i e → exec i s = waits) ∧
    (at_ = some d → u.dState d ≠ stEvict →
      (u.dPin d = true → ∀ i ∈ l, Fires.of s i e → exec i s = s.closes e u 3) ∧
      (u.dPin d = false → u.dTent d = true → ∀ i ∈ l, Fires.of s i e → exec i s = s.closes e u 2) ∧
      (u.dPin d = false → u.dTent d = false → Fires.of s (.kvevictHbm e.h) e →
        (u.dState d = stRes → u.paKind (u.dHaddr d) ≠ .hole →
          exec (.kvevictHbm e.h) s = moves u stWarm (some (u.dSlotPa d)) (some (u.dHaddr d)) none) ∧
        (u.dState d ≠ stRes → exec (.kvevictHbm e.h) s = s.closes e u 6)) ∧
      (u.dPin d = false → u.dTent d = false → Fires.of s (.kvevictCold e.h) e →
        (u.dState d = stRes → u.stackTake (u.cfgWord 4) = some (a, v) →
          u.paKind (u.dSlotPa d) ≠ .hole → u.paKind a ≠ .hole →
          exec (.kvevictCold e.h) s = moves v stCold (some (u.dSlotPa d)) (some a) none) ∧
        (u.dState d = stWarm → u.stackTake (u.cfgWord 4) = some (a, v) →
          u.paKind (u.dHaddr d) ≠ .hole → u.paKind a ≠ .hole →
          exec (.kvevictCold e.h) s = moves v stCold (some (u.dHaddr d)) (some a) none) ∧
        ((u.dState d = stRes ∨ u.dState d = stWarm) → u.stackTake (u.cfgWord 4) = none →
          exec (.kvevictCold e.h) s = s.closes e u 5)) ∧
      (u.dPin d = false → u.dTent d = false → Fires.of s (.kvevictDrop e.h) e →
        ((u.dState d = stRes ∨ u.dState d = stWarm) →
          exec (.kvevictDrop e.h) s = moves u stAbsent (u.pagePlace d) none none) ∧
        (u.dState d = stCold → exec (.kvevictDrop e.h) s = moves u stAbsent (u.pagePlace d) none (some (u.dCaddr d)))) ∧
      (u.dState d = stFree →
        (Fires.of s (.kvpin e.h) e → exec (.kvpin e.h) s = s.closes e u 6) ∧
        (Fires.of s (.kvpinClr e.h) e → exec (.kvpinClr e.h) s = s.closes e u 6)) ∧
      (u.dState d ≠ stFree →
        (Fires.of s (.kvpin e.h) e → exec (.kvpin e.h) s = s.closes e (unit (u.setDsc d 58 1 1)) 0) ∧
        (Fires.of s (.kvpinClr e.h) e → exec (.kvpinClr e.h) s = s.closes e (unit (u.setDsc d 58 1 0)) 0)))) ∧
  (∀ (s u v : State) (e : Env) (x : PKey) (d : Nat) (img : List Byte),
    let t := s.begun e
    let dst := if u.dSlotv d then u.dSlotPa d else u.dHaddr d
    let target := if u.dSlotv d then stRes else stWarm
    let unit := fun (w : State) => w.unitAccs (w.ownOf e) [(w.dOwner d, d, 32, true)]
    let moves := fun (w : State) (src caddr : Option Nat) (image : List Byte) => Host.Outcome.next (endStep s (unit
      { w.setDsc d 61 3 stEvict with moves := w.moves ++ [⟨d, target, src, some dst, caddr, { w.who e with idx := e.idx }, image⟩] }))
    Goes s e → Fires.of s (.kvrefill e.h) e → pageKey e e.a t = .ok x u → u.mapped x.q x.p x.k = some d →
    u.dState d ≠ stEvict →
    (u.dState d = stAbsent → e.b ≠ 0 → inBytes e e.b 16384 64 u = .ok img v → v.paKind dst ≠ .hole → exec (.kvrefill e.h) s = moves v none none img) ∧
    (u.dState d = stCold → e.b = 0 → u.paKind (u.dCaddr d) ≠ .hole → u.paKind dst ≠ .hole →
      exec (.kvrefill e.h) s = moves u (some (u.dCaddr d)) (some (u.dCaddr d)) []) ∧
    (u.dState d = stWarm → u.dSlotv d = true → e.b = 0 → u.paKind (u.dHaddr d) ≠ .hole →
      exec (.kvrefill e.h) s = moves u (some (u.dHaddr d)) none []) ∧
    (u.dState d = stWarm → u.dSlotv d = false → exec (.kvrefill e.h) s = s.closes e u 6))

/-- R228, R440, R231, R441: PHASH.H delivers the chain hash of a page's trailer, PHASH.L looks it up in the prefix
table as well and answers MISS when no page holds it. That bytes 0x11 to 0x1F of the input other than zero fault
RESERVED_FIELD is the model's reading (log 39). SUMUPD widens the page's bounds of every dimension with the keys of
the rows it names, rounding the lower bound down and the upper up; a page without a summary or without those rows
answers STATE. -/
def Obligations.PrefixAndSummary : Prop :=
  (∀ (s u v w : State) (e : Env) (b : List Byte) (sq page : Nat),
    let t := s.begun e
    let tag := chainHash (b.take 16) (b.drop 0x20)
    Goes s e → inBytes e e.a 288 8 t = .ok b u → e.b.toNat % 8 = 0 →
    (nAt b 0x11 15 = 0 →
      (Fires.of s (.phashH e.h) e → outBytes e e.b (leBytes 16 tag ++ List.replicate 8 0 ++ List.replicate 8 0) u = .ok () v →
        exec (.phashH e.h) s = s.closes e v 0) ∧
      (Fires.of s (.phashL e.h) e →
        (u.probe tag (nAt b 16 1) (b.drop 0x20) = (some (sq, page), w) →
          outBytes e e.b (leBytes 16 tag ++ (leBytes 4 sq ++ leBytes 4 page) ++ List.replicate 8 0) w = .ok () v →
          exec (.phashL e.h) s = s.closes e v 0) ∧
        (u.probe tag (nAt b 16 1) (b.drop 0x20) = (none, w) →
          outBytes e e.b (leBytes 16 tag ++ List.replicate 8 0 ++ List.replicate 8 0) w = .ok () v →
          exec (.phashL e.h) s = s.closes e v 8))) ∧
    (nAt b 0x11 15 ≠ 0 →
      (Fires.of s (.phashH e.h) e → exec (.phashH e.h) s = s.traps e { code := .reservedField, extra := e.word }))) ∧
  (∀ (s u : State) (e : Env) (x : PKey) (d place : Nat) (f : Fmt),
    let t := s.begun e
    let b := e.b.toNat
    let j0 := b % 64
    let n := b / 2 ^ 8 % 64 + 1
    let tag := b / 2 ^ 16 % 16
    let dim := 32 * x.q.dhd
    let size := tagBytes tag
    let keys := fun (s : State) (c : Nat) => (List.range n).map (fun j => f.dec (s.rd (rowPa place (j0 + j) false + size * c) size))
    let step := fun (s : State) (c : Nat) =>
      (s.wr (u.dSum d + 2 * c) 2 ((keys s c).foldl (widen false) (s.rd (u.dSum d + 2 * c) 2))).wr
        (u.dSum d + 2 * dim + 2 * c) 2 ((keys s c).foldl (widen true) (s.rd (u.dSum d + 2 * dim + 2 * c) 2))
    Goes s e → Fires.of s (.sumupd e.h) e → pageKey e e.a t = .ok x u → b / 2 ^ 6 % 4 = 0 → b / 2 ^ 14 % 4 = 0 →
    b < 2 ^ 20 → 2 ≤ tag → tag ≤ 5 →
    (u.mapped x.q x.p x.k = none → exec (.sumupd e.h) s = s.closes e u 6) ∧
    (u.mapped x.q x.p x.k = some d → u.dState d = stEvict → exec (.sumupd e.h) s = .next (endStep s (s.atUnit e))) ∧
    (u.mapped x.q x.p x.k = some d → u.dState d ≠ stEvict → u.pagePlace d = none → exec (.sumupd e.h) s = s.closes e u 6) ∧
    (u.mapped x.q x.p x.k = some d → u.dState d ≠ stEvict → u.pagePlace d = some place → tagFmt tag = some f →
      ((u.dState d = stCold ∨ u.dFill d < j0 + n ∨ u.dSum d = 0) → exec (.sumupd e.h) s = s.closes e u 6) ∧
      (u.dState d ≠ stCold → j0 + n ≤ u.dFill d → u.dSum d ≠ 0 → u.poisonAt (rowPa place j0 false) (128 * n) = none →
        exec (.sumupd e.h) s = s.closes e ((List.range dim).foldl step (u.unitAccs (u.ownOf e)
          [(e.tile, rowPa place j0 false, 128 * n, false), (e.tile, u.dSum d, 4 * dim, false),
            (e.tile, u.dSum d, 4 * dim, true)])) 0)))

/-- R442, R443: PSEL ranks the candidate pages of a list by the largest product a query can have with their bounds and
writes the best k; it delivers how many it wrote. Its unit's reads of descriptors and summaries are metered. GCHAIN
writes one transfer record for each selected page that has a place, linked in order, and delivers how many it wrote
and how many it skipped. -/
def Obligations.PageSelection : Prop :=
  (∀ (s u1 u2 u3 u4 : State) (e : Env) (b qb lb : List Byte) (f : Fmt),
    let t := s.begun e
    let w := nAt b 0 8
    let n := w % 2 ^ 16
    let k := w / 2 ^ 16 % 2 ^ 8
    let tag := w / 2 ^ 24 % 2 ^ 4
    let dhd := w / 2 ^ 28 % 2 ^ 4
    let q := (List.range (32 * dhd)).map (fun c => f.dec (nAt qb (2 * c) 2))
    let cand := (List.range n).filterMap (fun i => (u3.psPage q (nAt lb (8 * i) 8)).map (fun x => (x, i)))
    let best := (cand.foldl (fun l x => psInsert x l) []).take k
    let read := u3.unitAccs (u3.ownOf e) ((List.range n).flatMap (fun i =>
      let d := nAt lb (8 * i) 8
      (e.tile, d, 32, false) :: (if u3.dSum d = 0 then [] else [(e.tile, u3.dSum d, 128 * dhd, false)])))
    Goes s e → Fires.of s (.psel e.h) e → inBytes e e.a 32 8 t = .ok b u1 →
    (1 ≤ n → n ≤ 1024 → 1 ≤ k → k ≤ 64 → (tag = 2 ∧ f = bf16 ∨ tag = 3 ∧ f = fp16) → 1 ≤ dhd → dhd ≤ 8 → w < 2 ^ 32 →
      inBytes e (w64 (nAt b 8 8)) (64 * dhd) 2 u1 = .ok qb u2 → inBytes e (w64 (nAt b 16 8)) (8 * n) 8 u2 = .ok lb u3 →
      nAt b 24 8 % 8 = 0 →
      outBytes e (w64 (nAt b 24 8)) (best.flatMap (fun x => leBytes 8 (x.1 * 2 ^ 32 + x.2))) read = .ok () u4 →
      exec (.psel e.h) s = s.closes e u4 (w64 (best.length * 256))) ∧
    (n = 0 ∨ 1024 < n ∨ k = 0 ∨ 64 < k ∨ 8 < dhd ∨ dhd = 0 ∨ tag < 2 ∨ 3 < tag →
      exec (.psel e.h) s = s.traps e { code := .reservedField, extra := e.word })) ∧
  (∀ (s u1 u2 u3 u4 : State) (e : Env) (b sel : List Byte) (ds : List Nat),
    let t := s.begun e
    let w := nAt b 0 8
    let m := w % 2 ^ 16
    let bnum := w / 2 ^ 17 % 2 ^ 6
    let btile := w / 2 ^ 32 % 2 ^ 10
    let recs := nAt b 24 8
    let l := ds.filterMap (fun d => (u3.pagePlace d).map (fun pa => (d, pa)))
    let ctl := 2 ^ 63 + w / 2 ^ 16 % 2 * 2 ^ 41 + bnum * 2 ^ 35 + btile * 2 ^ 25
    Goes s e → Fires.of s (.gchain e.h) e → inBytes e e.a 48 8 t = .ok b u1 →
    1 ≤ m → m ≤ 1024 → w / 2 ^ 23 % 2 ^ 9 = 0 → w < 2 ^ 42 →
    inBytes e (w64 (nAt b 8 8)) (8 * m) 8 u1 = .ok sel u2 → recs % 64 = 0 →
    ((List.range m).mapM (fun i => do
      pure (nAt (← inBytes e (w64 (nAt b 16 8 + 8 * nAt sel (8 * i) 4)) 8 8) 0 8)) : M (List Nat)) u2 = .ok ds u3 →
    (do for i in List.range l.length do
          let x := l.getD i (0, 0)
          let next := if i + 1 < l.length then (recs + 64 * (i + 1)) % 2 ^ 64 else 0
          outBytes e (w64 (recs + 64 * i))
            (gRecord ctl ((nAt b 40 8 + x.2) % 2 ^ 64) ((nAt b 32 8 + 16384 * i) % 2 ^ 64) next x.1) : M Unit)
      (u3.unitAccs (u3.ownOf e) (ds.map (fun d => (e.tile, d, 32, false)))) = .ok () u4 →
    exec (.gchain e.h) s = s.closes e u4 (w64 (l.length * 256 + (m - l.length) * 2 ^ 24)))

/-- R237, R444, R445, R449: TSINIT empties a pool that is not in use, its root the first node of half 0; TSREROOT
copies the subtree of a node of the active half to the other half and makes that half active, and the old one's nodes
become undefined. A pool with INFL not 0, or on which a TSBATCH of any partition waits, answers BUSY with nothing
changed; a subtree too large answers POOL. That TSREROOT takes every index of the active half, those from FREE on too,
and that TSINIT is no half switch, is the model's reading (log 40). TSBEST answers the root's child with the most
visits or the best mean value, ties to the lowest index, and STATE for a root without children; TSSTAT reads the
pool's free nodes, INFL, root and active half. -/
def Obligations.TreePools : Prop :=
  (∀ (s u u1 u2 u3 : State) (e : Env) (p : Pool) (next : Nat),
    let t := s.begun e
    let b := e.b.toNat
    let base := p.first (!p.act)
    let c := u.ctx e.key
    let busy := p.infl ≠ 0 ∨ ∃ w ∈ u.waits, ∃ pl data j pa, w.k = .push pl 2 data j ∧
      u.poolPa e.tile c.part p.va = some pa ∧ u.poolPa (w.key / 16) (u.ctx w.key).part (w64 (leNat (data.take 8))) = some pa
    Goes s e → poolOf e e.a t = .ok p u →
    (Fires.of s (.tsinit e.h) e →
      (busy → exec (.tsinit e.h) s = s.closes e u 10) ∧
      (¬busy → (do
          hdrWrite e p 4 3
          hdrWrite e p 8 (p.cap + 2)
          hdrWrite e p 12 2
          hdrWrite e p 0x1C (if p.sflip then 2 else 0)
          hdrWrite e p 0x20 0
          nodeWrite e p 2 ⟨0, 0, 0x3F80, 0, 0, 0, 8, 0, b % 2 ^ 32, 0⟩ : M Unit) u = .ok () u1 →
        exec (.tsinit e.h) s = s.closes e u1 0)) ∧
    (Fires.of s (.tsreroot e.h) e →
      ((b < p.first p.act ∨ p.last p.act < b) →
        exec (.tsreroot e.h) s = s.traps e { code := .reservedField, extra := e.word }) ∧
      (p.first p.act ≤ b → b ≤ p.last p.act → busy → exec (.tsreroot e.h) s = s.closes e u 10) ∧
      (p.first p.act ≤ b → b ≤ p.last p.act → ¬busy →
        (copyTree e p base p.cap [(b, base, 0)] (base + 1) u = .ok (some next) u1 →
          (do
            hdrWrite e p (if p.act then 4 else 8) next
            hdrWrite e p (if p.act then 8 else 4) (p.first p.act)
            hdrWrite e p 12 base
            hdrWrite e p 0x1C ((!p.act).toNat + p.sflip.toNat * 2) : M Unit) u1 = .ok () u2 →
          undefHalf e p (p.first p.act) u2 = .ok () u3 → exec (.tsreroot e.h) s = s.closes e u3 (w64 ((next - base) * 256))) ∧
        (copyTree e p base p.cap [(b, base, 0)] (base + 1) u = .ok none u1 → undefHalf e p base u1 = .ok () u2 →
          exec (.tsreroot e.h) s = s.closes e u2 11)))) ∧
  (∀ (s u u1 u2 : State) (e : Env) (p : Pool) (x : TNode) (cs : List (Nat × TNode)) (i : Nat)
      (v : FV) (item : BitVec 3),
    let t := s.begun e
    let closes := fun (r : Nat) => s.closes e u (w64 r)
    Goes s e → poolOf e e.a t = .ok p u →
    (Fires.of s (.tsstat e.h item) e →
      (item = 0 → exec (.tsstat e.h item) s = closes (p.last p.act + 1 - p.free)) ∧
      (item = 1 → exec (.tsstat e.h item) s = closes p.infl) ∧
      (item = 2 → exec (.tsstat e.h item) s = closes p.root) ∧
      (2 < item.toNat → exec (.tsstat e.h item) s = closes p.act.toNat)) ∧
    (nodeRead e p p.root u = .ok x u1 →
      ((x.exp = false ∨ x.nch = 0) → (Fires.of s (.tsbestN e.h) e → exec (.tsbestN e.h) s = s.closes e u1 6) ∧
        (Fires.of s (.tsbestQ e.h) e → exec (.tsbestQ e.h) s = s.closes e u1 6)) ∧
      (x.exp = true → x.nch ≠ 0 → childrenOf e p x u1 = .ok cs u2 →
        (Fires.of s (.tsbestN e.h) e → bestOf (cs.map (fun c => (c.1, FV.fin false c.2.n 0))) = some (i, v) →
          exec (.tsbestN e.h) s = s.closes e u2 (w64 (i * 256))) ∧
        (Fires.of s (.tsbestQ e.h) e → bestOf (cs.map (fun c => (c.1, noNan (p.q c.2)))) = some (i, v) →
          exec (.tsbestQ e.h) s = s.closes e u2 (w64 (i * 256))))))

/-- R446, R83: TSDESC descends from the root by the best score, raising the virtual loss on its way, and leaves the
path in the path buffer; one node at its bound makes it answer BUSY with nothing changed. -/
def Obligations.TreeDescent : Prop := ∀ (s u u1 u2 u3 : State) (e : Env) (p : Pool) (x leaf : TNode) (path : List Nat),
  let t := s.begun e
  Goes s e → Fires.of s (.tsdesc e.h) e → poolOf e e.a t = .ok p u →
  (enter e p p.root u = .ok none u1 → exec (.tsdesc e.h) s = s.closes e t 10) ∧
  (enter e p p.root u = .ok (some x) u1 →
    (descend e p 63 p.root x u1 = .ok none u2 → exec (.tsdesc e.h) s = s.closes e t 10) ∧
    (descend e p 63 p.root x u1 = .ok (some (path, leaf)) u2 → hdrWrite e p 0x20 (p.infl + 1) u2 = .ok () u3 →
      exec (.tsdesc e.h) s = s.closes e (u3.updCtx e.key (fun c => { c with
        pbpool := e.a
        pblen := path.length
        pbnode := (path.zip (List.range path.length)).foldl (fun (m : Map Nat) y => m.put y.2 y.1) c.pbnode }))
        (w64 (path.getLastD 0 * 2 ^ 8 + path.length * 2 ^ 40 + leaf.flags % 16 * 2 ^ 48))))

/-- R447: TSEXP gives the leaf of the path buffer its children from the active half, or marks it terminal when there
are none; an expanded leaf answers EXPANDED, and a half without room POOL or, with T, faults TREE_POOL_EMPTY. -/
def Obligations.TreeExpansion : Prop := ∀ (s u1 u2 u3 u4 u5 : State) (e : Env) (flag : Bool) (b0 b : List Byte) (p : Pool)
    (leaf : TNode),
  let t := s.begun e
  let c := s.ctx e.key
  let n := nAt b0 0 8
  let li := c.pbnode.getD 0 (c.pblen - 1)
  Goes s e → Fires.of s (.tsexp e.h flag) e →
  (c.pblen = 0 → exec (.tsexp e.h flag) s = s.traps e { code := .reservedField, extra := e.word }) ∧
  (c.pblen ≠ 0 → inBytes e e.a 8 8 t = .ok b0 u1 → n < 2 ^ 16 → inBytes e (e.a + 8) (8 * n) 8 u1 = .ok b u2 →
    (∀ i < n, nAt b (8 * i + 2) 2 = 0) → poolOf e c.pbpool u2 = .ok p u3 → nodeRead e p li u3 = .ok leaf u4 →
    (leaf.exp = true → exec (.tsexp e.h flag) s = s.closes e u4 12) ∧
    (leaf.exp = false → n = 0 → nodeWrite e p li { leaf with flags := Nat.lor leaf.flags 3 } u4 = .ok () u5 →
      exec (.tsexp e.h flag) s = s.closes e u5 0) ∧
    (leaf.exp = false → n ≠ 0 → p.last p.act + 1 < p.free + n →
      exec (.tsexp e.h flag) s = if flag then s.traps e { code := .treePoolEmpty, addr := p.va, extra := w64 p.act.toNat }
        else s.closes e u4 11) ∧
    (leaf.exp = false → n ≠ 0 → p.free + n ≤ p.last p.act + 1 → (do
        hdrWrite e p (if p.act then 8 else 4) (p.free + n)
        for i in List.range n do
          nodeWrite e p (p.free + i) ⟨0, 0, nAt b (8 * i) 2, 0, 0, 0, 0, li, nAt b (8 * i + 4) 4, 0⟩
        nodeWrite e p li { leaf with first := p.free, nch := n, flags := setBits (Nat.lor leaf.flags 1) 2 1 0 } : M Unit) u4 =
        .ok () u5 →
      exec (.tsexp e.h flag) s = s.closes e u5 0))

/-- R448, R83: TSBACK and TSEVAL back a value up their path and withdraw its virtual loss, TSVL and TSVL.R withdraw
the loss only; the path buffer's path is used up, a record's leaf loses PEND. An empty path answers STATE. TSBATCH
pushes the path as an evaluation record to a channel, the entries beyond it undefined, and is done when it is
accepted. -/
def Obligations.TreeBackups : Prop := ∀ (s u u1 u2 u3 : State) (e : Env) (pool : W64) (path : List Nat) (v k : Nat) (p : Pool)
    (st : W64),
  let t := s.begun e
  let c := s.ctx e.key
  let rcd := leBytes 8 c.pbpool.toNat ++ leBytes 8 c.pblen ++ leBytes 8 0 ++ leBytes 8 e.b.toNat ++
    (c.path.take 64).flatMap (leBytes 4)
  let used := fun (x : State) => x.updCtx e.key (fun c => { c with pblen := 0 })
  let push : M PushR := do
    let d ← drawM (288 - rcd.length)
    chanPush e k 2 e.a (fun z => decide (z = 288)) (rcd ++ d)
  Goes s e →
  (evalRecord e t = .ok (pool, path, v) u →
    (path = [] → (Fires.of s (.tseval e.h) e → exec (.tseval e.h) s = s.closes e u 6) ∧
      (Fires.of s (.tsvl e.h true) e → exec (.tsvl e.h true) s = s.closes e u 6)) ∧
    (path ≠ [] → poolOf e pool u = .ok p u1 →
      (Fires.of s (.tseval e.h) e → backup e p path (some v) u1 = .ok () u2 → clearPend e p path u2 = .ok () u3 →
        exec (.tseval e.h) s = s.closes e u3 0) ∧
      (Fires.of s (.tsvl e.h true) e → backup e p path none u1 = .ok () u2 → clearPend e p path u2 = .ok () u3 →
        exec (.tsvl e.h true) s = s.closes e u3 0))) ∧
  (c.pblen = 0 → (Fires.of s (.tsback e.h) e → e.a.toNat < 2 ^ 32 → exec (.tsback e.h) s = s.closes e t 6) ∧
    (Fires.of s (.tsvl e.h false) e → exec (.tsvl e.h false) s = s.closes e t 6) ∧
    (Fires.of s (.tsbatch e.h) e → exec (.tsbatch e.h) s = s.traps e { code := .reservedField, extra := e.word })) ∧
  (c.pblen ≠ 0 → poolOf e c.pbpool t = .ok p u1 →
    (Fires.of s (.tsback e.h) e → e.a.toNat < 2 ^ 32 → backup e p c.path (some e.a.toNat) u1 = .ok () u2 →
      exec (.tsback e.h) s = s.closes e (used u2) 0) ∧
    (Fires.of s (.tsvl e.h false) e → backup e p c.path none u1 = .ok () u2 →
      exec (.tsvl e.h false) s = s.closes e (used u2) 0)) ∧
  (Fires.of s (.tsbatch e.h) e → c.pblen ≠ 0 → chanLocate e e.a t = .ok k u →
    (push u = .ok (.done st) u1 →
      exec (.tsbatch e.h) s = .next (endStep s (u1.batchDone e.key e.idx st))) ∧
    (push u = .ok .wait u1 →
      exec (.tsbatch e.h) s = .next (endStep s u1)))

/-- R345, R346, R347: Element operations in an integer class give each lane its result modulo 2^w, its flags, and the
class as tag. -/
def Obligations.ElementIntegers : Prop := ∀ (s : State) (slot : Nat) (x : EEnv) (t : Nat),
  (numClass x.lm x.md [x.a, x.b] = some (.int t) →
    (ElemFires s 0 slot x → GivesLanes s (.elementAdd x.f) 0 slot x t fun i => (wrapNat x.w (x.sa i + x.sb i), 0)) ∧
    (ElemFires s 1 slot x → GivesLanes s (.elementSub x.f) 1 slot x t fun i => (wrapNat x.w (x.sa i - x.sb i), 0)) ∧
    (ElemFires s 2 slot x → GivesLanes s (.elementMul x.f) 2 slot x t fun i => (wrapNat x.w (x.sa i * x.sb i), 0)) ∧
    (x.sc = 0 → ElemFires s 6 slot x → GivesLanes s (.elementMin x.f) 6 slot x t fun i =>
      (if x.sa i ≤ x.sb i then x.la i else x.lb i, 0)) ∧
    (x.sc = 1 → ElemFires s 6 slot x → GivesLanes s (.elementMin x.f) 6 slot x t fun i => (min (x.la i) (x.lb i), 0)) ∧
    (x.sc = 0 → ElemFires s 7 slot x → GivesLanes s (.elementMax x.f) 7 slot x t fun i =>
      (if x.sa i ≤ x.sb i then x.lb i else x.la i, 0)) ∧
    (x.sc = 1 → ElemFires s 7 slot x → GivesLanes s (.elementMax x.f) 7 slot x t fun i => (max (x.la i) (x.lb i), 0)) ∧
    (x.sc < 8 → ElemFires s 13 slot x → ∃ r, Lanes x (fun i =>
        (if condHolds x.sc (BitVec.ofNat x.w (x.la i)) (BitVec.ofNat x.w (x.lb i)) then 2 ^ x.w - 1 else 0, 0)) r 0 ∧
      exec (.elementCmp x.f) s = s.elemDone 13 slot x { res := r, pred := some (r.getLsbD 0) })) ∧
  (numClass x.lm x.md [x.a, x.b, x.c] = some (.int t) →
    (ElemFires s 3 slot x → GivesLanes s (.elementFma x.f) 3 slot x t fun i =>
      (wrapNat x.w (x.sa i * x.sb i + sext x.w (x.lc i)), 0)) ∧
    (ElemFires s 4 slot x → GivesLanes s (.elementFms x.f) 4 slot x t fun i =>
      (wrapNat x.w (x.sa i * x.sb i - sext x.w (x.lc i)), 0)) ∧
    (ElemFires s 5 slot x → GivesLanes s (.elementFnma x.f) 5 slot x t fun i =>
      (wrapNat x.w (-(x.sa i * x.sb i) + sext x.w (x.lc i)), 0))) ∧
  (numClass x.lm x.md [x.a] = some (.int t) →
    (ElemFires s 8 slot x → GivesLanes s (.elementAbs x.f) 8 slot x t fun i => (wrapNat x.w (if x.sa i < 0 then -(x.sa i) else x.sa i), 0)) ∧
    (ElemFires s 9 slot x → GivesLanes s (.elementNeg x.f) 9 slot x t fun i => (wrapNat x.w (-(x.sa i)), 0))) ∧
  (IntOperands x [x.a, x.b] t →
    (x.sc = 0 → ElemFires s 10 slot x → GivesLanes s (.elementAdds x.f) 10 slot x t fun i =>
      ((clampS x.w (x.sa i + x.sb i)).toNat, 0)) ∧
    (x.sc = 1 → ElemFires s 10 slot x → GivesLanes s (.elementAdds x.f) 10 slot x t fun i =>
      (min (2 ^ x.w - 1) (x.la i + x.lb i), 0)) ∧
    (x.sc = 0 → ElemFires s 11 slot x → GivesLanes s (.elementSubs x.f) 11 slot x t fun i =>
      ((clampS x.w (x.sa i - x.sb i)).toNat, 0)) ∧
    (x.sc = 1 → ElemFires s 11 slot x → GivesLanes s (.elementSubs x.f) 11 slot x t fun i => (x.la i - x.lb i, 0)) ∧
    (x.sc = 0 → ElemFires s 12 slot x → GivesLanes s (.elementMulhi x.f) 12 slot x t fun i =>
      (wrapNat x.w ((x.sa i * x.sb i).fdiv (2 ^ x.w : Nat)), 0)) ∧
    (x.sc = 1 → ElemFires s 12 slot x → GivesLanes s (.elementMulhi x.f) 12 slot x t fun i =>
      (x.la i * x.lb i / 2 ^ x.w, 0)) ∧
    (ElemFires s 21 slot x → ∃ r, Lanes x (fun i => (x.la i * 2 ^ (x.lb i % x.w), 0)) r 0 ∧
      exec (.elementShl x.f) s = s.elemDone 21 slot x { res := r, tag := x.a.mtag }) ∧
    (ElemFires s 22 slot x → ∃ r, Lanes x (fun i => (x.la i / 2 ^ (x.lb i % x.w), 0)) r 0 ∧
      exec (.elementShr x.f) s = s.elemDone 22 slot x { res := r, tag := x.a.mtag }) ∧
    (ElemFires s 23 slot x → ∃ r, Lanes x (fun i =>
        (((BitVec.ofNat x.w (x.la i)).sshiftRight (x.lb i % x.w)).toNat, 0)) r 0 ∧
      exec (.elementSar x.f) s = s.elemDone 23 slot x { res := r, tag := x.a.mtag }))

/-- R346, R348, R350: Element operations in a floating-point class give each lane its result with one rounding, and
the flags of the lanes. -/
def Obligations.ElementFloats : Prop := ∀ (s : State) (slot : Nat) (x : EEnv) (t : Nat) (fm : Fmt),
  (numClass x.lm x.md [x.a, x.b] = some (.flt t fm) → t ≤ 3 →
    (ElemFires s 0 slot x → GivesLanes s (.elementAdd x.f) 0 slot x t fun i => fm.add x.rm (x.la i) (x.lb i)) ∧
    (ElemFires s 1 slot x → GivesLanes s (.elementSub x.f) 1 slot x t fun i => fm.sub x.rm (x.la i) (x.lb i)) ∧
    (ElemFires s 2 slot x → GivesLanes s (.elementMul x.f) 2 slot x t fun i => fm.mul x.rm (x.la i) (x.lb i)) ∧
    (x.sc = 0 → ElemFires s 6 slot x → GivesLanes s (.elementMin x.f) 6 slot x t fun i => fm.minmax false (x.la i) (x.lb i)) ∧
    (x.sc = 0 → ElemFires s 7 slot x → GivesLanes s (.elementMax x.f) 7 slot x t fun i => fm.minmax true (x.la i) (x.lb i))) ∧
  (numClass x.lm x.md [x.a, x.b] = some (.flt t fm) → x.sc = 0 ∨ x.sc = 1 ∨ x.sc = 2 ∨ x.sc = 3 ∨ x.sc = 6 →
    ElemFires s 13 slot x → ∃ r fl, Lanes x (fun i =>
        (if (fm.cmp x.sc (x.la i) (x.lb i)).1 then 2 ^ x.w - 1 else 0, (fm.cmp x.sc (x.la i) (x.lb i)).2)) r fl ∧
      exec (.elementCmp x.f) s = s.elemDone 13 slot x { res := r, pred := some (r.getLsbD 0), flags := fl }) ∧
  (numClass x.lm x.md [x.a, x.b, x.c] = some (.flt t fm) → t ≤ 3 →
    (ElemFires s 3 slot x → GivesLanes s (.elementFma x.f) 3 slot x t fun i =>
      fm.fma x.rm false false (x.la i) (x.lb i) (x.lc i)) ∧
    (ElemFires s 4 slot x → GivesLanes s (.elementFms x.f) 4 slot x t fun i =>
      fm.fma x.rm false true (x.la i) (x.lb i) (x.lc i)) ∧
    (ElemFires s 5 slot x → GivesLanes s (.elementFnma x.f) 5 slot x t fun i =>
      fm.fma x.rm true false (x.la i) (x.lb i) (x.lc i))) ∧
  (numClass x.lm x.md [x.a] = some (.flt t fm) → t ≤ 3 →
    (ElemFires s 8 slot x → (∀ i < x.lanes, (fm.dec (x.la i)).isNan = false) →
      GivesLanes s (.elementAbs x.f) 8 slot x t fun i => (x.la i % 2 ^ (x.w - 1), 0)) ∧
    (ElemFires s 9 slot x → (∀ i < x.lanes, (fm.dec (x.la i)).isNan = false) →
      GivesLanes s (.elementNeg x.f) 9 slot x t fun i => ((x.la i + 2 ^ (x.w - 1)) % 2 ^ x.w, 0)) ∧
    (ElemFires s 24 slot x → GivesLanes s (.elementExp2 x.f) 24 slot x t fun i => fm.exp2 x.rm (x.la i)) ∧
    (ElemFires s 25 slot x → GivesLanes s (.elementLog2 x.f) 25 slot x t fun i => fm.log2 x.rm (x.la i)) ∧
    (ElemFires s 26 slot x → GivesLanes s (.elementRcp x.f) 26 slot x t fun i => fm.rcp x.rm (x.la i)) ∧
    (ElemFires s 27 slot x → GivesLanes s (.elementRsqrt x.f) 27 slot x t fun i => fm.rsqrt x.rm (x.la i)) ∧
    (ElemFires s 28 slot x → GivesLanes s (.elementSqrt x.f) 28 slot x t fun i => fm.sqrt x.rm (x.la i)) ∧
    (ElemFires s 29 slot x → GivesLanes s (.elementSin x.f) 29 slot x t fun i => fm.sinCos x.rm false (x.la i)) ∧
    (ElemFires s 30 slot x → GivesLanes s (.elementCos x.f) 30 slot x t fun i => fm.sinCos x.rm true (x.la i)) ∧
    (ElemFires s 34 slot x → GivesLanes s (.elementRndi x.f) 34 slot x (if x.lm = 2 then 14 else 0) fun i =>
      let v := toIntV (if x.f.sc.getLsbD 2 then x.rm else RM.of x.sc) x.w (fm.dec (x.la i))
      (wrapNat x.w v.1, v.2)))

/-- R347, R353, R355, R356, R357, R358: What the element operations of selection, predicates, logic, movement, tokens,
top-k and permits leave. -/
def Obligations.ElementMoves : Prop := ∀ (s : State) (slot : Nat) (x : EEnv),
  (ElemFires s 14 slot x → exec (.elementSel x.f) s = s.elemDone 14 slot x
    (if x.el.p.getLsbD (x.sc % 8) then { res := x.a.v, tag := x.a.mtag } else { res := x.b.v, tag := x.b.mtag })) ∧
  (ElemFires s 15 slot x → exec (.elementPset x.f) s = s.elemDone 15 slot x { pred := some (x.f.sc.getLsbD 0) }) ∧
  (x.sc < 6 → ElemFires s 16 slot x → ∃ q, exec (.elementPmov x.f) s = s.elemDone 16 slot x { pred := some q } ∧
    ∀ u v, u = x.el.p.getLsbD (x.f.sa.toNat % 8) → v = x.el.p.getLsbD (x.f.sb.toNat % 8) →
      q = [u, !u, u && v, u || v, u ^^ v, u && !v].getD x.sc false) ∧
  (x.a.bfp = false → x.b.bfp = false →
    (ElemFires s 17 slot x → exec (.elementAnd x.f) s = s.elemDone 17 slot x { res := x.a.v &&& x.b.v, tag := x.a.mtag }) ∧
    (ElemFires s 18 slot x → exec (.elementOr x.f) s = s.elemDone 18 slot x { res := x.a.v ||| x.b.v, tag := x.a.mtag }) ∧
    (ElemFires s 19 slot x → exec (.elementXor x.f) s = s.elemDone 19 slot x { res := x.a.v ^^^ x.b.v, tag := x.a.mtag })) ∧
  (x.a.bfp = false → ElemFires s 20 slot x →
    exec (.elementNot x.f) s = s.elemDone 20 slot x { res := ~~~x.a.v, tag := x.a.mtag }) ∧
  (ElemFires s 35 slot x → exec (.elementMov x.f) s = s.elemDone 35 slot x { res := x.a.v, tag := x.a.mtag }) ∧
  (x.md = 0 → ElemFires s 36 slot x → exec (.elementMovi x.f) s = s.elemDone 36 slot x
    { res := x.el.k.getD 0 (x.sc % 4), tag := x.el.ktag.getD 0 (x.sc % 4) }) ∧
  (x.md = 1 → ElemFires s 36 slot x → GivesLanes s (.elementMovi x.f) 36 slot x 0 fun _ =>
    (wrapNat x.w (x.f.sa ++ x.f.sb).toInt, 0)) ∧
  (ElemFires s 37 slot x → ∀ h, x.el.inHead (x.f.sa.toNat - 8) = some h →
    exec (.elementTake x.f) s = s.elemDone 37 slot x { res := h.data, pred := some h.eos }) ∧
  (ElemFires s 38 slot x → ∀ h, x.el.inHead (x.f.sa.toNat - 8) = some h →
    exec (.elementPeek x.f) s = s.elemDone 38 slot x { res := h.data, pred := some h.eos, eat := false }) ∧
  (ElemFires s 39 slot x → exec (.elementEmit x.f) s = s.elemDone 39 slot x
    { res := x.a.v, tok := (x.f.sc.extractLsb' 0 2, x.f.sc.getLsbD 2) }) ∧
  (ElemFires s 40 slot x → ∀ h, x.el.inHead (x.f.sa.toNat - 8) = some h →
    exec (.elementPass x.f) s = s.elemDone 40 slot x { res := h.data, tok := (h.tag, h.eos) }) ∧
  (ElemFires s 41 slot x → ∀ h, x.el.inHead (x.f.sa.toNat - 8) = some h → exec (.elementTags x.f) s =
    s.elemDone 41 slot x { res := w64 (h.tag.toNat + 4 * (if h.eos then 1 else 0)), eat := false }) ∧
  (x.a.mtag = 0 → x.b.mtag = 0 → ElemFires s 46 slot x → exec (.elementTkins x.f) s =
    s.elemDone 46 slot x (if beats (x.md = 1) x.a.v x.b.v then { res := x.a.v, chain := some x.b.v }
      else { res := x.b.v, chain := some x.a.v })) ∧
  (x.a.mtag = 0 → ElemFires s 47 slot x → exec (.elementTkout x.f) s = s.elemDone 47 slot x
    { res := x.a.v, wipe := some (x.f.sa.toNat % 8, if x.md = 1 then 0xFF800000FFFFFFFF else 0x80000000FFFFFFFF) }) ∧
  (ElemFires s 48 slot x → exec (.elementNop x.f) s = s.elemDone 48 slot x {}) ∧
  (ElemFires s 49 slot x → exec (.elementEose x.f) s = s.elemDone 49 slot x
    { eats := (List.range 4).filter (trigIn x.trig), outs := (List.range 4).filter (trigOut x.trig) }) ∧
  (ElemFires s 50 slot x → exec (.elementCtok x.f) s = s.elemDone 50 slot x { res := x.a.v }) ∧
  (ElemFires s 51 slot x → ∀ h, x.el.inHead (x.f.sa.toNat - 8) = some h →
    exec (.elementWaitp x.f) s = s.elemDone 51 slot x { res := h.data, pred := some true }) ∧
  (ElemFires s 52 slot x → exec (.elementEmitp x.f) s = s.elemDone 52 slot x
    { res := (x.a.v.extractLsb' 0 16).setWidth 64, tok := (3, false) })

/-- R349, R351, R352, R354: What the element operations of conversion, the block formats and the chains of lanes
leave. -/
def Obligations.ElementPacks : Prop := ∀ (s : State) (slot : Nat) (x : EEnv) (src t : Nat) (fm : Fmt),
  (cvtSource x = some src → 1 ≤ x.sc → tagLm x.sc ≠ none → ElemFires s 31 slot x →
    ∃ r fl, exec (.elementCvt x.f) s = s.elemDone 31 slot x { res := r, tag := x.sc, flags := fl } ∧
      ∀ lt n k, lt = 8 * tagBytes x.sc → n = 64 / lt → k = min x.lanes n →
        (x.lanes > n → ∀ j < n, lane lt r j = (convert x.rm src x.w x.sc (lane x.w x.a.v (x.md * k + j))).1 % 2 ^ lt) ∧
        (x.lanes ≤ n → ∀ j < n, lane lt r j = if x.md * k ≤ j ∧ j < x.md * k + k then
          (convert x.rm src x.w x.sc (lane x.w x.a.v (j - x.md * k))).1 % 2 ^ lt else 0)) ∧
  (bfpkFmt x = some fm → bfpOperand x.b = true → ElemFires s 32 slot x →
    (x.md = 0 → (∃ i < x.lanes, (fm.dec (x.la i)).isNan = true ∨ (fm.dec (x.la i)).isInf = true) →
      exec (.elementBfpk x.f) s = s.elemDone 32 slot x { res := 255, flags := fNV }) ∧
    (x.md = 0 → (∀ i < x.lanes, (fm.dec (x.la i)).isNan = false ∧ (fm.dec (x.la i)).isInf = false) →
      exec (.elementBfpk x.f) s = s.elemDone 32 slot x { res := w64 (if bitsOf x.b.v.toNat 0 8 = 255 then 255
        else max (bitsOf x.b.v.toNat 0 8) (bfpExp ((List.range x.lanes).map fun i => fm.dec (x.la i)))) }) ∧
    (x.md = 1 → 6 ≤ x.sc → x.sc ≤ 12 → (∀ i < x.lanes, (fm.dec (x.la i)).isNan = false ∧ (fm.dec (x.la i)).isInf = false) →
      ∃ r fl, (∀ i < x.lanes, lane (x.sc - 4) r i = if bitsOf x.b.v.toNat 0 8 = 255 then 0
          else (bfpMant (x.sc - 4) (bitsOf x.b.v.toNat 0 8) (fm.dec (x.la i))).1 % 2 ^ (x.sc - 4)) ∧
        exec (.elementBfpk x.f) s = s.elemDone 32 slot x { res := r, tag := x.sc, flags := fl })) ∧
  (bfpOperand x.b = true → 6 ≤ t → t ≤ 12 → (x.a.mtag = t ∨ x.a.mtag = 0 ∧ bitsOf x.b.v.toNat 8 4 = t) →
    tagFmt x.sc = some fm → ElemFires s 33 slot x → GivesLanes s (.elementBfunpk x.f) 33 slot x x.sc fun i =>
      fm.pack x.rm (bfpVal (t - 4) (bitsOf x.b.v.toNat 0 8)
        (if (x.md * x.lanes + i) * (t - 4) + (t - 4) > 64 then 0
         else bitsOf x.a.v.toNat ((x.md * x.lanes + i) * (t - 4)) (t - 4))).toEx) ∧
  (∀ c op, (numClass x.lm x.md [x.a]).bind wideClass = some c → subOp c x.rm x.w x.sc = some op →
    (ElemFires s 42 slot x → ∃ r fl, exec (.elementRedc x.f) s = s.elemDone 42 slot x { res := r, tag := c.tag, flags := fl } ∧
      ∀ v, v = ((List.range x.lanes).drop 1).foldl (fun u i => (op u (x.la i)).1) (x.la 0) →
        r = w64 ((if x.follow then (op (lane x.w x.leader 0) v).1 else v) % 2 ^ x.w)) ∧
    (ElemFires s 45 slot x → x.follow = true → GivesLanes s (.elementScan x.f) 45 slot x c.tag fun i =>
      op (lane x.w x.leader i) (x.la i)) ∧
    (ElemFires s 45 slot x → x.follow = false →
      exec (.elementScan x.f) s = s.elemDone 45 slot x { res := x.a.v, tag := c.tag })) ∧
  (ElemFires s 43 slot x → x.sc < 4 → ∃ r, exec (.elementShuf x.f) s = s.elemDone 43 slot x { res := r, tag := x.a.mtag } ∧
    ∀ u : W64, u = [0, x.el.k.getD 0 2, x.el.k.getD 0 3, x.leader].getD x.sc 0 → ∀ i < x.lanes, ∀ n,
      n = bitsOf x.b.v.toNat (8 * i) 4 → lane x.w r i =
        if n < x.lanes then x.la n else if n < 2 * x.lanes then lane x.w u (n - x.lanes) else 0) ∧
  (ElemFires s 44 slot x → GivesLanes s (.elementBcst x.f) 44 slot x x.a.mtag fun _ => (x.la x.sc, 0))

/-- R101, R339, R340, R341, R344: The number class of an operation follows from the lane mode, MOD and the tags of its
operands, and a firing that no class fits faults. What a firing alone in its cycle leaves in the configuration, the
region and its tile. -/
def Obligations.ElementEffects : Prop :=
  (∀ (s : State) (slot : Nat) (x : EEnv) (lm md t : Nat) (fm : Fmt) (ops : List EOp),
    (numClass lm md ops = some (.flt t fm) ↔
      (1 ≤ t ∧ t ≤ 5 ∧ tagFmt t = some fm ∧ tagLm t = some lm ∧ md = 0 ∧ (∃ o ∈ ops, o.tag = some t) ∧
        ∀ o ∈ ops, o.tag = none ∨ o.tag = some t) ∨
      ((∀ o ∈ ops, o.tag = none) ∧ classOfMod lm md = some (.flt t fm))) ∧
    (numClass lm md ops = some (.int t) ↔
      (13 ≤ t ∧ tagLm t = some lm ∧ md = 0 ∧ (∃ o ∈ ops, o.tag = some t) ∧
        ∀ o ∈ ops, o.tag = none ∨ o.tag = some 0 ∨ o.tag = some t) ∨
      (t = 0 ∧ md = 0 ∧ (∃ o ∈ ops, o.tag = some 0) ∧ ∀ o ∈ ops, o.tag = none ∨ o.tag = some 0) ∨
      ((∀ o ∈ ops, o.tag = none) ∧ classOfMod lm md = some (.int t))) ∧
    (numClass x.lm x.md [x.a, x.b] = none →
      (ElemFires s 0 slot x → exec (.elementAdd x.f) s = s.elemFaults 0 slot x) ∧
      (ElemFires s 1 slot x → exec (.elementSub x.f) s = s.elemFaults 1 slot x) ∧
      (ElemFires s 2 slot x → exec (.elementMul x.f) s = s.elemFaults 2 slot x) ∧
      (ElemFires s 6 slot x → exec (.elementMin x.f) s = s.elemFaults 6 slot x) ∧
      (ElemFires s 7 slot x → exec (.elementMax x.f) s = s.elemFaults 7 slot x) ∧
      (ElemFires s 13 slot x → exec (.elementCmp x.f) s = s.elemFaults 13 slot x)) ∧
    (x.a.bfp = true ∨ x.b.bfp = true →
      (ElemFires s 17 slot x → exec (.elementAnd x.f) s = s.elemFaults 17 slot x) ∧
      (ElemFires s 18 slot x → exec (.elementOr x.f) s = s.elemFaults 18 slot x) ∧
      (ElemFires s 19 slot x → exec (.elementXor x.f) s = s.elemFaults 19 slot x)) ∧
    (x.a.mtag ≠ 0 →
      (ElemFires s 46 slot x → exec (.elementTkins x.f) s = s.elemFaults 46 slot x) ∧
      (ElemFires s 47 slot x → exec (.elementTkout x.f) s = s.elemFaults 47 slot x))) ∧
  (∀ (s : State) (opc slot : Nat) (x : EEnv) (y : EEff),
    ElemFires s opc slot x → (s.region x.rk).cyc = none →
    (∃ t, s.elemDone opc slot x y = .next t ∧
      t.elem (64 * x.tile + x.e) = y.apply x opc slot ∧
      (∀ k, k ≠ 64 * x.tile + x.e → t.elem k = s.elem k) ∧
      (t.region x.rk).fpstat = (s.region x.rk).fpstat ||| w64 (y.flags % 32) ∧
      (∀ k, t.ctx k = s.ctx k) ∧ t.mem = Mem.flush s.mem s.log ∧
      (∀ i, (t.elem (64 * x.tile + x.e)).k.getD 0 i = x.el.k.getD 0 i) ∧
      (t.elem (64 * x.tile + x.e)).chain = y.chain.getD y.res ∧
      (x.f.pwe = false → (t.elem (64 * x.tile + x.e)).p = x.el.p) ∧
      (x.f.pwe = true → ∀ i < 8, (t.elem (64 * x.tile + x.e)).p.getLsbD i =
        if i = x.f.pidx.toNat then y.pred.getD (y.res ≠ 0) else x.el.p.getLsbD i) ∧
      (y.wipe = none → ∀ i, (t.elem (64 * x.tile + x.e)).e.getD 0 i =
        if x.f.dst.toNat < 8 ∧ i = x.f.dst.toNat then y.res else x.el.e.getD 0 i) ∧
      (∀ i, (t.elem (64 * x.tile + x.e)).etag.getD 0 i =
        if x.f.dst.toNat < 8 ∧ i = x.f.dst.toNat then y.tag else x.el.etag.getD 0 i) ∧
      (y.outs = [] → ∀ i, (t.elem (64 * x.tile + x.e)).outs.getD [] i = x.el.outs.getD [] i ++
        if 8 ≤ x.f.dst.toNat ∧ x.f.dst.toNat < 12 ∧ i + 8 = x.f.dst.toNat then [⟨y.res, y.tok.1, y.tok.2⟩] else []) ∧
      (y.eats = [] → ∀ i, (t.elem (64 * x.tile + x.e)).ins.getD [] i =
        if y.eat = true ∧ x.f.keep = false ∧ i ∈ opInputs opc x.f then (x.el.ins.getD [] i).drop 1 else x.el.ins.getD [] i)) ∧
    (∃ t, s.elemFaults opc slot x = .next t ∧ (∀ k, t.elem k = s.elem k) ∧ (t.region x.rk).stopped = true ∧
      (∀ k, s.regionCtx x.rk = some k → (∀ f ∈ (s.ctx k).async, f.src ≠ 1) → ∃ f ∈ (t.ctx k).async, f.code = .formatMismatch ∧ f.extra = w64 (x.mismatch opc slot) ∧
        f.src = 1 ∧ f.reg = x.rk % 4)))

/-- R15, R40, R43, R195, R196, R198, R244, R268: HOST_SUBMISSION appends to an open queue, or every queue it touches
counts a refusal; DISPATCHER_TAKE takes the next record of the queue whose turn it is; TASK_AGING raises a waiting
launch; LAUNCH_END and DEPENDENT_CANCEL end launches, whose entries leave the dependence table. -/
def Obligations.LaunchEvents : Prop := ∀ (s : State) (x y z : Nat) (v : W64) (d : List Byte), s.focus = .ev x y z v d →
  ((s.queueE (x / 128 % 8192)).length = 8 →
    (d.length = 128 → x % 128 = 0 → qOpen (s.queueE (x / 128 % 8192)) true = true →
      ∃ t, exec .hostSubmission s = .next t ∧ wAt (t.queueE (x / 128 % 8192)) 2 = (wAt (s.queueE (x / 128 % 8192)) 2 + 1) % 2 ^ 64 ∧
        (∀ j, j ≠ 2 → (t.queueE (x / 128 % 8192)).getD j 0 = (s.queueE (x / 128 % 8192)).getD j 0) ∧
        (∀ m, m ≠ x / 128 % 8192 → t.queueE m = s.queueE m) ∧
        (s.log = [] → qJrn (s.queueE (x / 128 % 8192)) = false → ∀ i < 128,
          Mem.get t.mem (qSlot (s.queueE (x / 128 % 8192)) ((wAt (s.queueE (x / 128 % 8192)) 2 + 1) % 2 ^ 64) + i) = d.getD i 0)) ∧
    (¬(d.length = 128 ∧ x % 128 = 0 ∧ qOpen (s.queueE (x / 128 % 8192)) true = true) →
      (∀ m, (s.queueE m).length = 8) → x < 2 ^ 20 → x + max 1 d.length ≤ 2 ^ 20 →
      ∃ t, exec .hostSubmission s = .next t ∧ t.mem = Mem.flush s.mem s.log ∧
        (∀ m, 128 * m < x + max 1 d.length → x < 128 * m + 128 →
          wAt (t.queueE m) 5 = (wAt (s.queueE m) 5 + 1) % 2 ^ 64 ∧
          ∀ j, j ≠ 5 → (t.queueE m).getD j 0 = (s.queueE m).getD j 0) ∧
        (∀ m, ¬(128 * m < x + max 1 d.length ∧ x < 128 * m + 128) → t.queueE m = s.queueE m))) ∧
  (∀ l n i num, s.level ≠ 0 → s.deps.fresh 0 4096 = some i → s.nextTurn = some (l, n) → (s.queueE n).length = 8 →
    num = (wAt (s.queueE n) 3 + 1) % 2 ^ 64 → (qJrn (s.queueE n) = true → s.ended n num = false) →
    s.rcdOk (s.queueE n) (s.qRecord n num) = true → s.deps.any (fun p => p.2.tag = rcdTag (s.qRecord n num)) = false →
    ∃ t e, exec .dispatcherTake s = .next t ∧ wAt (t.queueE n) 3 = num ∧ t.deps.get? i = some e ∧
      e.rcd = s.qRecord n num ∧ e.recno = num ∧ e.qnum = n % 8192 ∧ e.tag = rcdTag (s.qRecord n num) ∧
      (∀ j, j ≠ i → t.deps.get? j = s.deps.get? j)) ∧
  (∀ e, s.deps.get? x = some e →
    (e.st = 1 → e.ending = none → e.retired = e.tasks →
      ∃ t, exec .launchEnd s = .next t ∧ t = endStep s (s.endLaunch x e 0) ∧ t.deps.get? x = none) ∧
    (∀ st, e.ending = some st → s.tasks.any (fun p => p.2.dep = x) = false →
      ∃ t, exec .launchEnd s = .next t ∧ t = endStep s (s.endLaunch x e st) ∧ t.deps.get? x = none) ∧
    (e.canc = true → e.st = 0 →
      ∃ t, exec .dependentCancel s = .next t ∧ t = endStep s (s.endLaunch x e 3) ∧ t.deps.get? x = none) ∧
    (e.st = 1 → e.started.length < e.tasks → ∃ t, exec .taskAging s = .next t ∧
      t.deps.get? x = some { e with aged := min 7 ((s.age e.since) / 65536) } ∧
      (∀ j, j ≠ x → t.deps.get? j = s.deps.get? j) ∧ t.mem = Mem.flush s.mem s.log))

/-- R20, R24, R41, R44, R45, R46, R112, R113, R114, R332: TASK_BIND starts a task whose home can take it;
CONFIG_FETCH_COMPLETE installs a validated image; TASK_RETIRE frees what its task held; QUANTUM_EXPIRY and
PREEMPT_ACCEPT request and accept a pre-emption; TASK_SAVE frees the contexts of a stopped task, TASK_REBIND takes
them again. -/
def Obligations.TaskEvents : Prop := ∀ (s : State) (x y z : Nat) (v : W64) (d : List Byte), s.focus = .ev x y z v d →
  (∀ e h, s.deps.get? x = some e → e.st = 1 → e.ending = none → y ∉ e.started → s.levelRuns e.part = true →
    s.isTask e.rcd y = true → e.rcd.getD 5 0 = 0 → e.homes.find? (fun p => p.1 = y) = some (y, h) →
    (s.tile h).failed = false → s.canTake (rcdStrands e.rcd) false h = true →
    ∃ t k, exec .taskBind s = .next t ∧ t = endStep s (s.bindTask x e y h none) ∧ t.tasks.get? s.nextId = some k ∧
      k.dep = x ∧ k.val = y ∧ k.tile = h ∧ k.st = .bound ∧ k.region = none ∧
      k.ctxs = (taskWids e.rcd y).zip ((s.freeCtxs h).take (rcdStrands e.rcd)) ∧
      ∀ w c, (w, c) ∈ k.ctxs → (t.ctx (ctxKey h c)).st = .run ∧ (t.ctx (ctxKey h c)).wid = w64 w ∧
        (t.ctx (ctxKey h c)).next = e.rcd.getD 0 0 ∧ (t.ctx (ctxKey h c)).task = some s.nextId) ∧
  (∀ img u, (s.cfgEnt x y).fetch = true →
    readImage x (s.cfgEnt x y).part (s.cfgEnt x y).sup (s.cfgEnt x y).va (match (s.cfgEnt x y).own with
      | some o => .work o.1 o.2
      | none => .dev) s = .ok img u →
    ∃ t, exec .configFetchComplete s = .next t ∧
      t = endStep s ((u.cfgInstall x y (s.cfgEnt x y).asn (s.cfgEnt x y).va img).cfgWaitWake x) ∧
      (u.cfgWait = [] → (t.cfgEnt x y).v = true ∧ (t.cfgEnt x y).img = img)) ∧
  (∀ k, s.tasks.get? x = some k → k.st = .bound → k.ctxs = [] → s.taskBusy k = false →
    ∃ t, exec .taskRetire s = .next t ∧ t.tasks.get? x = none ∧ (∀ j, j ≠ x → t.tasks.get? j = s.tasks.get? j) ∧
      (∀ r, k.region = some r → (t.region (4 * k.tile + r)).owner = none) ∧ t.mem = Mem.flush s.mem s.log) ∧
  (∀ k e, s.tasks.get? x = some k → s.deps.get? k.dep = some e → k.st = .bound → k.ctxs ≠ [] →
    s.age k.quantum ≥ bitsOf (s.partW e.part 0) 0 32 → s.tasks.all (fun p => p.2.st ≠ .saved) = true →
    s.deps.all (fun p => p.2.part ≠ e.part || p.2.started.length ≥ p.2.tasks) = true →
    ∃ t, exec .quantumExpiry s = .next t ∧ t.tasks.get? x = some { k with quantum := s.cycle } ∧
      (∀ c, t.ctx c = s.ctx c)) ∧
  (∀ k e mine, s.tasks.get? x = some k → s.deps.get? k.dep = some e → k.st = .bound → k.ctxs ≠ [] → k.preq = false →
    s.age k.quantum ≥ bitsOf (s.partW e.part 0) 0 32 →
    mine = (s.ctx (ctxKey k.tile ((k.ctxs.map Prod.snd).headD 0))).eprio →
    ((∃ p ∈ s.deps, p.2.part = e.part ∧ p.2.st = 1 ∧ p.2.ending = none ∧ p.2.started.length < p.2.tasks ∧ mine ≤ s.depPrio p.2) ∨
      ∃ p ∈ s.tasks, p.2.st = .saved ∧ ∃ f, s.deps.get? p.2.dep = some f ∧ f.part = e.part ∧ mine ≤ s.savedPrio p.2 f) →
    ∃ t, exec .quantumExpiry s = .next t ∧ t.tasks.get? x = some { k with preq := true } ∧
      t.agenda = .event .preemptAccept x 0 0 0 [] :: s.agenda ∧
      ∀ w c, (w, c) ∈ k.ctxs → (t.ctx (ctxKey k.tile c)).preq = true) ∧
  (∀ k e, s.tasks.get? x = some k → s.deps.get? k.dep = some e → k.st = .bound → k.preq = true → k.accepted = false →
    (s.freeAreas e.part k.ctxs.length).length = k.ctxs.length →
    ∃ t, exec .preemptAccept s = .next t ∧
      t.tasks.get? x = some { k with accepted := true, areas := (k.ctxs.map Prod.fst).zip (s.freeAreas e.part k.ctxs.length) } ∧
      (∀ w c, (w, c) ∈ k.ctxs → (s.ctx (ctxKey k.tile c)).st = .run → (t.ctx (ctxKey k.tile c)).st =
        if (s.ctx (ctxKey k.tile c)).spAt = some s.cycle ∧ s.blks.get? (ctxKey k.tile c) = none then .stopped else .stopreq) ∧
      (∀ c, (s.ctx c).st ≠ .run → t.ctx c = s.ctx c) ∧ t.mem = Mem.flush s.mem s.log) ∧
  (∀ k, s.tasks.get? x = some k → k.st = .bound → k.accepted = true → s.allStopped k = true → k.region = none →
    s.cmdsBusy k = false → (∀ w c, (w, c) ∈ k.ctxs → (s.ctx (ctxKey k.tile c)).sq = [] ∧ (s.ctx (ctxKey k.tile c)).async = []) →
    ∃ t u, exec .taskSave s = .next t ∧ t.tasks.get? x = some u ∧ u.st = .saving ∧ u.areas = k.areas ∧ u.ctxs = k.ctxs ∧
      (∀ w, w ∈ u.held ↔ ∃ c, (w, c) ∈ k.ctxs ∧ (s.ctx (ctxKey k.tile c)).st = .held) ∧
      (∀ w c, (w, c) ∈ k.ctxs → (t.ctx (ctxKey k.tile c)).st = .saving) ∧ t.mem = Mem.flush s.mem s.log) ∧
  (∀ k e, s.tasks.get? x = some k → s.deps.get? k.dep = some e → e.ending = none → k.st = .saving → k.region = none →
    ∃ t u, exec .taskSave s = .next t ∧ t.tasks.get? x = some u ∧ u.st = .saved ∧ u.areas = k.areas ∧ u.ctxs = k.ctxs ∧
      ∀ w c, (w, c) ∈ k.ctxs → (t.ctx (ctxKey k.tile c)).st = .free) ∧
  (∀ k e, s.tasks.get? x = some k → s.deps.get? k.dep = some e → k.st = .saved → e.ending = none →
    s.levelRuns e.part = true → s.canTake k.ctxs.length k.region.isSome k.tile = true → k.region = none →
    (∀ w c, (w, c) ∈ k.ctxs → imgValid (s.bytes (s.areaPa e.part
      (((k.areas.find? (fun a => a.1 = w)).map Prod.snd).getD 0)) 4096) = true) →
    ∃ t u, exec .taskRebind s = .next t ∧ t.tasks.get? x = some u ∧ u.st = .bound ∧
      u.ctxs = (k.ctxs.map Prod.fst).zip ((s.freeCtxs k.tile).take k.ctxs.length) ∧
      ∀ w c, (w, c) ∈ u.ctxs → (t.ctx (ctxKey k.tile c)).task = some x)

/-- R32, R38, R80, R200, R287, R288, R330, R331: BLOCK_MAP maps a block that the checks pass, every slot empty, and
raises the fault of one that they do not; BLOCK_COMMIT applies the control-register writes first, then commits, or
faults NO_EXIT or what the block fired twice (of two such faults, the lower instruction's: the model's choice, log 85;
that a quiescent block ends: log 11); SAFEPOINT_OVERDUE; FAULT_QUEUE_RETRY; YIELD_WINDOW_END and WAITEV_TIMEOUT end
what they name. -/
def Obligations.BlockEvents : Prop := ∀ (s : State) (t0 c y : Nat) (v : W64) (d : List Byte), s.focus = .ev t0 c y v d →
  ((s.ctx (ctxKey t0 c)).canMap = true → s.blks.get? (ctxKey t0 c) = none → s.inFlight (ctxKey t0 c / 16) < 8 →
    (∀ b u, fetchBlock (ctxKey t0 c) s = .ok b u → ∃ t, exec .blockMap s = .next t ∧ t.blks.get? (ctxKey t0 c) = some b ∧
      b.addr = (s.ctx (ctxKey t0 c)).next ∧ b.nodes = List.replicate b.words.length {} ∧ b.stores = [] ∧ b.writes = [] ∧
      b.exits = [] ∧ b.csrw = [] ∧ hdrFault b.hdr b.words = none ∧ bodyFault b.hdr b.words = none) ∧
    (∀ f u, fetchBlock (ctxKey t0 c) s = .error f u → ∃ t, exec .blockMap s = .next t ∧
      t = endStep s (u.syncFault (ctxKey t0 c) f))) ∧
  (∀ b, s.blks.get? (ctxKey t0 c) = some b → (s.ctx (ctxKey t0 c)).sync = none → (s.ctx (ctxKey t0 c)).async = [] →
    (s.ctx (ctxKey t0 c)).kill = false → s.quiescent (ctxKey t0 c) b = true →
    (y = 1 → b.ready = true → s.rolesCheck (ctxKey t0 c) (sortBy Prod.fst b.csrw) = none →
      s.rolesWait (ctxKey t0 c) (sortBy Prod.fst b.csrw) = false → ∃ t, exec .blockCommit s = .next t ∧
        t = endStep s ((s.csrCommit (ctxKey t0 c) (sortBy Prod.fst b.csrw)).updBlk (ctxKey t0 c) (fun b => { b with csrw := [] }))) ∧
    (y ≠ 1 → b.ready = true → ∀ j i tg a, b.exits = [(j, i, .plain, tg, a)] → b.csrw = [] → b.fencePending = none →
      ∃ t, exec .blockCommit s = .next t ∧ t.blks.get? (ctxKey t0 c) = none ∧
        (t.ctx (ctxKey t0 c)).next = tg ∧ (t.ctx (ctxKey t0 c)).irv = List.replicate 8 none ∧
        (t.ctx (ctxKey t0 c)).sq = (s.ctx (ctxKey t0 c)).sq ++ (sortBy StEnt.idx b.stores).map (fun e => { e with at_ := s.cycle }) ∧
        (∀ r, (∀ w ∈ b.writes, w.2.1 ≠ r) → (t.ctx (ctxKey t0 c)).g.getD 0 r = (s.ctx (ctxKey t0 c)).g.getD 0 r) ∧
        (∀ p q i r w, b.writes = p ++ (i, r, some w) :: q → (∀ o ∈ q, o.2.1 ≠ r) → (t.ctx (ctxKey t0 c)).g.getD 0 r = w) ∧
        (∀ k, k ≠ ctxKey t0 c → t.ctx k = s.ctx k) ∧ t.mem = Mem.flush s.mem s.log) ∧
    (y ≠ 1 → b.ready = false → ∃ t, exec .blockCommit s = .next t ∧
      (b.conflicts = [] → t = endStep s (s.syncFault (ctxKey t0 c) { code := .noExit, late := true })) ∧
      ∀ f, (b.conflicts = [f] ∨ ∃ g, (b.conflicts = [f, g] ∧ ¬ g.idx.getD 0 < f.idx.getD 0) ∨
          (b.conflicts = [g, f] ∧ f.idx.getD 0 < g.idx.getD 0)) → t = endStep s (s.syncFault (ctxKey t0 c) f))) ∧
  ((s.ctx (ctxKey t0 c)).spdist = 4096 → (s.ctx (ctxKey t0 c)).st ≠ .free → s.blks.get? (ctxKey t0 c) = none →
    ∃ t, exec .safepointOverdue s = .next t ∧
      t = endStep s (s.syncFault (ctxKey t0 c) { code := .safepointOverdue, extra := 4096 })) ∧
  ((s.ctx (ctxKey t0 c)).st = .held → (s.ctx (ctxKey t0 c)).fqPend = true →
    ∃ t, exec .faultQueueRetry s = .next t ∧ (t.ctx (ctxKey t0 c)).st = .held ∧
      ((t.ctx (ctxKey t0 c)).fqPend = true ↔
        s.partW (s.ctx (ctxKey t0 c)).part 4 ≠ 0 ∧ 1023 ≤ (s.rd (s.partW (s.ctx (ctxKey t0 c)).part 4) 8 + 2 ^ 64 -
          s.rd (s.partW (s.ctx (ctxKey t0 c)).part 4 + 8) 8) % 2 ^ 64)) ∧
  (∀ w, (s.ctx (ctxKey t0 c)).yieldTill = some w → 64 < (w - s.cycle).toNat →
    ∃ t, exec .yieldWindowEnd s = .next t ∧ t.ctx (ctxKey t0 c) = { s.ctx (ctxKey t0 c) with yieldTill := none } ∧
      (∀ k, k ≠ ctxKey t0 c → t.ctx k = s.ctx k) ∧ t.mem = Mem.flush s.mem s.log) ∧
  (∀ w, s.waits.find? (fun w => w.key = ctxKey t0 c && (match w.k with
      | .waitev (some till) => s.timedOut till
      | _ => false)) = some w →
    ∃ t, exec .waitevTimeout s = .next t ∧ t = endStep s
      (({ s with waits := s.waits.filter (fun x => !(x.key = w.key && x.idx = w.idx)) } : State).finish (ctxKey t0 c) w.idx
        (s.events t0)))

/-- R77, R87, R91, R95, R96, R158, R176, R250: RESUME, REDIRECT, KILL and PREEMPT of a context (a copy of a record
that waits for the fault queue is dropped with RESUME and REDIRECT: the model's choice, log 90, of which nothing is
said here); stores to the register windows and what a load of the accumulator window returns; a channel that is
validated or closed. -/
def Obligations.WindowEvents : Prop := ∀ (s : State) (x y z : Nat) (v : W64) (d : List Byte), s.focus = .ev x y z v d →
  ((s.ctx (ctxKey x y)).st = .held →
    (∃ t, exec .ctxctlResume s = .next t ∧ (t.ctx (ctxKey x y)).st = s.backTo (ctxKey x y) ∧
      (t.ctx (ctxKey x y)).inh = false ∧ (t.ctx (ctxKey x y)).next = s.rd64 (framePa (ctxKey x y) + 8) ∧
      (t.ctx (ctxKey x y)).replaying = true ∧ (∀ k, k ≠ ctxKey x y → t.ctx k = s.ctx k)) ∧
    (∃ t, exec .ctxctlRedirect s = .next t ∧ (t.ctx (ctxKey x y)).st = s.backTo (ctxKey x y) ∧
      (t.ctx (ctxKey x y)).inh = false ∧ (t.ctx (ctxKey x y)).next = v &&& 0xFFFFFFFFFFFFFFC0 ∧
      (t.ctx (ctxKey x y)).irv = List.replicate 8 none ∧ (∀ k, k ≠ ctxKey x y → t.ctx k = s.ctx k) ∧
      (s.log = [] → ∀ i < 128, Mem.get t.mem (framePa (ctxKey x y) + 0x40 + i) = 0))) ∧
  (∀ i k, (s.ctx (ctxKey x y)).task = some i → s.tasks.get? i = some k →
    ((s.ctx (ctxKey x y)).st = .held → ∃ t, exec .ctxctlKill s = .next t ∧ t = endStep s
      ((s.killStrand (ctxKey x y)).condemn k.dep 1 (codeOf (s.rd (framePa (ctxKey x y)) 1)))) ∧
    ((s.ctx (ctxKey x y)).st = .run → ∃ t, exec .ctxctlKill s = .next t ∧ (t.ctx (ctxKey x y)).kill = true ∧
      ∀ e, s.deps.get? k.dep = some e → e.ending = none →
        ∃ e', t.deps.get? k.dep = some e' ∧ e'.ending = some 3) ∧
    (k.st = .bound → k.preq = false → ∃ t, exec .ctxctlPreempt s = .next t ∧
      t.tasks.get? i = some { k with preq := true } ∧
      (∀ w c, (w, c) ∈ k.ctxs → (t.ctx (ctxKey k.tile c)).preq = true) ∧ t.mem = Mem.flush s.mem s.log)) ∧
  (s.roleFault x (s.tile x).bankrole.toNat v.toNat = none → s.rolesBusy x v.toNat = false →
    ∃ t, exec .bankroleWrite s = .next t ∧ t = endStep s (s.setBankrole x v.toNat)) ∧
  (z = 8 → y % 8 = 0 → s.winBusy x y 8 = false →
    (0xB00000 ≤ y → y < 0xB02000 → y % 512 ≠ 0 → ∃ t, exec .contextWindowStore s = .next t ∧
      (t.ctx (ctxKey x ((y - 0xB00000) / 512))).g.getD 0 (y % 512 / 8) = v ∧
      (∀ r, r ≠ y % 512 / 8 → (t.ctx (ctxKey x ((y - 0xB00000) / 512))).g.getD 0 r =
        (s.ctx (ctxKey x ((y - 0xB00000) / 512))).g.getD 0 r) ∧
      (∀ k, k ≠ ctxKey x ((y - 0xB00000) / 512) → t.ctx k = s.ctx k) ∧ t.mem = Mem.flush s.mem s.log) ∧
    (0xA00000 ≤ y → y < 0xA02000 → y % 128 < 0x40 → ∃ t, exec .elementWindowStore s = .next t ∧
      (t.elem (64 * x + (y - 0xA00000) / 128)).e.getD 0 (y % 128 / 8) = v ∧
      (∀ r, r ≠ y % 128 / 8 → (t.elem (64 * x + (y - 0xA00000) / 128)).e.getD 0 r =
        (s.elem (64 * x + (y - 0xA00000) / 128)).e.getD 0 r) ∧
      (∀ k, k ≠ 64 * x + (y - 0xA00000) / 128 → t.elem k = s.elem k) ∧ t.mem = Mem.flush s.mem s.log) ∧
    (0x800000 ≤ y → y < 0x820000 → ∃ t, exec .accumulatorWindowStore s = .next t ∧
      (t.acc (4 * x + (y - 0x800000) / 0x8000)).c.getD 0 (y % 0x8000 / 4) = v.extractLsb' 0 32 ∧
      (t.acc (4 * x + (y - 0x800000) / 0x8000)).c.getD 0 (y % 0x8000 / 4 + 1) = v.extractLsb' 32 32 ∧
      (∀ k, k ≠ 4 * x + (y - 0x800000) / 0x8000 → t.acc k = s.acc k) ∧ t.mem = Mem.flush s.mem s.log) ∧
    (0xE01000 ≤ y → y < 0xE01C00 → 1 ≤ y % 64 / 8 → y % 64 / 8 < 6 →
      (s.bar (48 * x + (y - 0xE01000) / 64)).length = 6 → ∃ t, exec .barrierWindowStore s = .next t ∧
      (t.bar (48 * x + (y - 0xE01000) / 64)).getD (y % 64 / 8) 0 = v ∧
      (∀ j, j ≠ y % 64 / 8 → (t.bar (48 * x + (y - 0xE01000) / 64)).getD j 0 =
        (s.bar (48 * x + (y - 0xE01000) / 64)).getD j 0) ∧
      (∀ k, k ≠ 48 * x + (y - 0xE01000) / 64 → t.bar k = s.bar k))) ∧
  (∀ m u w pa n sx ops tw off b, m = mfmtOf (s.wordAt (ctxKey x y) z) →
    u = (if m.ord = 0 then { s with waits := s.waits.filter (fun w => !(w.key = ctxKey x y && w.idx = z)) }
      else ({ s with waits := s.waits.filter (fun w => !(w.key = ctxKey x y && w.idx = z)) } : State).cacheAcquire x m.scp.toNat) →
    s.waits.find? (fun w => w.key = ctxKey x y && w.idx = z) = some w →
    w.k = .accLoad pa n sx ops → s.paKind pa = .window tw off →
    s.blks.get? (ctxKey x y) = some b → (∀ o ∈ (s.tile tw).mrun, o.id ∈ ops → o.sent = true) →
    ∃ t, exec .accumulatorWindowLoad s = .next t ∧
      t = endStep s ((u.winLoad tw off n).2.finish (ctxKey x y) z
        (extend n sx (forward b z m.cls.toNat pa n (u.winLoad tw off n).1)))) ∧
  ((s.chan (64 * x + y)).v = false → ({ s.chan (64 * x + y) with w := (s.chan (64 * x + y)).w.set 0 v } : Chan).valid s
      ((64 * x + y) / 64) = none → (s.chan (64 * x + y)).w.length = 8 →
    ∃ t, exec .channelEntryValidate s = .next t ∧ (t.chan (64 * x + y)).w.getD 0 0 = v ∧
      (t.chan (64 * x + y)).lost = false ∧ (∀ k, k ≠ 64 * x + y → t.chan k = s.chan k)) ∧
  ((s.chan (64 * x + y)).v = true → (s.chan (64 * x + y)).w.length = 8 → ∃ t, exec .channelClose s = .next t ∧
    (t.chan (64 * x + y)).v = false ∧
    ((∀ w ∈ s.waits, w.onChan (64 * x + y) = false) → ∀ k, k ≠ 64 * x + y → t.chan k = s.chan k) ∧
    ∀ w ∈ t.waits, (∀ a b cva, w.k ≠ .push (64 * x + y) a b cva) ∧ (∀ a b cva, w.k ≠ .pop (64 * x + y) a b cva))

/-- R263, R264, R265, R266, R268, R273, R281, R282: What a host reads, what a write of a mailbox register does, when a
mailbox command runs, and the result and effect of each command; MWRITE fails at its first word that cannot be
written. The model's choices: a command runs in one step, and table 0 is a table of words (log 49); a poison-list
entry is named by its page's number or by its address, and a write of a work-queue entry keeps its sequence numbers
and SAMP (log 50). -/
def Obligations.MailboxEvents : Prop := ∀ (s w : State) (x y z : Nat) (v : W64) (d : List Byte),
  let runs := fun (op : Nat) => s.mbBusy = true ∧ s.mbox.op = op ∧ s.mbox.queue = []
  let runsT := fun (op tbl : Nat) => s.mbBusy = true ∧ s.mbox.op = op ∧ s.mbox.tbl = tbl ∧ s.mbox.queue = []
  let done := fun (t : State) (c : Nat) => t.mbox.stat = w64 c ∧ t.mbox.msix = s.mbox.msix + 1
  let n := s.mbEntry
  (∀ off m i, i < m → (0x28 ≤ off + i ∧ off + i < 0x10000 ∨ 0x20000 ≤ off + i) → (s.hostRead off m).getD i 0 = 0) ∧
  (∀ off m i, i < m → 0x10000 ≤ off + i → off + i < 0x20000 →
    (s.hostRead off m).getD i 0 = s.mbox.data.getD 0 (off + i - 0x10000)) ∧
  (s.hostRead 0 8 = leBytes 8 s.mbox.cmd.toNat ∧ s.hostRead 32 8 = leBytes 8 s.mbox.stat.toNat) ∧
  (s.focus = .ev x y z v d →
    (s.mbBusy = true → ∃ t, exec .mailboxRegisterWrite s = .next t ∧
      t.mbox = { s.mbox with queue := s.mbox.queue ++ [(x, d)] }) ∧
    (s.mbBusy = false → d.length = 8 →
      (x = 8 → ∃ t, exec .mailboxRegisterWrite s = .next t ∧ t.mbox = { s.mbox with addr := w64 (leNat d) }) ∧
      (x = 16 → ∃ t, exec .mailboxRegisterWrite s = .next t ∧ t.mbox = { s.mbox with len := w64 (leNat d) }) ∧
      (x = 24 → ∃ t, exec .mailboxRegisterWrite s = .next t ∧ t.mbox = { s.mbox with arg := w64 (leNat d) }) ∧
      (0x10000 ≤ x → x + 8 ≤ 0x20000 → ∃ t, exec .mailboxRegisterWrite s = .next t ∧
        ∀ i, t.mbox.data.getD 0 i = if x - 0x10000 ≤ i ∧ i < x - 0x10000 + 8 then d.getD (i - (x - 0x10000)) 0
          else s.mbox.data.getD 0 i) ∧
      (x = 0 → ∀ i, mbCommand (leNat d % 256) (leNat d / 256 % 256) = .ok i → ∃ t, exec .mailboxRegisterWrite s = .next t ∧
        t.mbox = { s.mbox with cmd := w64 (leNat d), stat := 0x8000000000000000 } ∧
        t.agenda = Act.event i 0 0 0 0 [] :: s.agenda) ∧
      (x = 0 → ∀ c, mbCommand (leNat d % 256) (leNat d / 256 % 256) = .error c → ∃ t, exec .mailboxRegisterWrite s = .next t ∧
        t.mbox = { s.mbox with cmd := w64 (leNat d), stat := w64 c, msix := s.mbox.msix + 1 }))) ∧
  (runs 1 → s.mbRange = true → ∃ t, exec .mread s = .next t ∧ done t 0 ∧
    ((∀ j < s.mbox.len.toNat / 8, s.lineBad (s.mbox.addr.toNat + 8 * j) = false ∧
        (s.peek (s.mbox.addr.toNat + 8 * j) 8).2 = s) →
      ∀ i < s.mbox.len.toNat,
        t.mbox.data.getD 0 i = (s.peek (s.mbox.addr.toNat + 8 * (i / 8)) 8).1.getD (i % 8) 0)) ∧
  (runs 1 → s.mbRange = false → ∃ t, exec .mread s = .next t ∧ done t 2 ∧ t.mbox.data = s.mbox.data) ∧
  (runs 2 → s.log = [] → s.mbRange = true → (∀ j < s.mbox.len.toNat / 8, s.paKind (s.mbox.addr.toNat + 8 * j) = .hbm) →
    (∀ l ∈ linesOf s.mbox.addr.toNat s.mbox.len.toNat, s.lineBad l = true → coversLine s.mbox.addr.toNat s.mbox.len.toNat l = true) →
    (∀ o ∈ s.tableOver s.mbox.addr.toNat s.mbox.len.toNat, o.2.2 = false) →
    ∃ t, exec .mwrite s = .next t ∧ done t 0 ∧ MemOutside s t s.mbox.addr.toNat s.mbox.len.toNat ∧
      (∀ i < s.mbox.len.toNat, Mem.get t.mem (s.mbox.addr.toNat + i) = s.mbox.data.getD 0 i) ∧
      ∀ l ∈ linesOf s.mbox.addr.toNat s.mbox.len.toNat, coversLine s.mbox.addr.toNat s.mbox.len.toNat l = true →
        l / 128 ∉ t.poison) ∧
  (runs 2 → s.mbRange = false → ∃ t, exec .mwrite s = .next t ∧ done t 2 ∧ t.mem = Mem.flush s.mem s.log) ∧
  (runs 2 → s.mbRange = true → ∀ i c, i < s.mbox.len.toNat / 8 →
    (List.range i).foldlM (fun (u : State) j => mwriteWord s.mbox.addr.toNat s.mbox.len.toNat j u) s = .ok w →
    mwriteWord s.mbox.addr.toNat s.mbox.len.toNat i w = .error c →
    ∃ t, exec .mwrite s = .next t ∧ done t c ∧ t.mem = Mem.flush s.mem s.log) ∧
  (runsT 3 0 → n < 20 → s.level = 0 → ∃ t, exec .twritePkgcfg s = .next t ∧ done t 0 ∧
    (∀ j, t.pkgcfg.getD 0 j = if j = n then s.mbWord 0 else s.pkgcfg.getD 0 j)) ∧
  (runsT 3 0 → n < 20 → s.level ≠ 0 → ∃ t, exec .twritePkgcfg s = .next t ∧ done t 4 ∧ t.pkgcfg = s.pkgcfg) ∧
  (runsT 3 0 → n = 20 → 400 ≤ (s.mbWord 0).toNat → (s.mbWord 0).toNat ≤ 3200 → ∃ t, exec .twritePkgcfg s = .next t ∧ done t 0 ∧
    t.pkgcfg.getD 0 20 = s.mbWord 0) ∧
  (runsT 3 1 → n < 8 →
    (s.partOk n ((List.range 16).map s.mbWord) = true → ∃ t, exec .twritePartition s = .next t ∧ done t 0 ∧
      ∀ p, t.partE p = if p = n then (List.range 16).map s.mbWord else s.partE p) ∧
    (s.partOk n ((List.range 16).map s.mbWord) = false → ∃ t, exec .twritePartition s = .next t ∧ done t 1 ∧ t.parts = s.parts)) ∧
  (runsT 3 2 → n = 8 → (s.mbWord 0).extractLsb' 48 15 = 0 → (s.mbWord 0).extractLsb' 0 16 = 0 → rcRate (s.mbWord 0) ≤ rcDepth (s.mbWord 0) →
    ∃ t, exec .twriteRegclass s = .next t ∧ done t 0 ∧
      ∀ c, t.regclass.getD 0 c = if c = 8 then s.mbWord 0 else s.regclass.getD 0 c) ∧
  (runsT 3 2 → n ≤ 8 → (s.mbWord 0).extractLsb' 48 15 ≠ 0 ∨ rcDepth (s.mbWord 0) < rcRate (s.mbWord 0) →
    ∃ t, exec .twriteRegclass s = .next t ∧ done t 1 ∧ t.regclass = s.regclass) ∧
  (runsT 3 3 → n < 8192 → s.waits = [] → (s.mbWord 0).extractLsb' 0 26 = 0 → (s.mbWord 1).extractLsb' 0 16 = 0 →
    (s.mbWord 1).extractLsb' 52 12 = 0 → s.mbWord 6 = 0 → s.mbWord 7 = 0 → (s.mbWord 0).extractLsb' 43 6 ≠ 0 →
    (s.mbWord 0).extractLsb' 29 7 ≤ (s.mbWord 0).extractLsb' 36 7 → (s.queueE n).length = 8 →
    ∃ t, exec .twriteWorkqueue s = .next t ∧ done t 0 ∧ (t.queueE n).getD 1 0 = s.mbWord 1 ∧
      (∀ j, 2 ≤ j → j ≤ 4 → (t.queueE n).getD j 0 = (s.queueE n).getD j 0) ∧ (t.queueE n).getD 5 0 = s.mbWord 5 ∧
      (∀ k < 64, k ≠ 27 → k ≠ 28 → ((t.queueE n).getD 0 0).getLsbD k = (s.mbWord 0).getLsbD k) ∧
      (∀ m, m ≠ n → t.queueE m = s.queueE m)) ∧
  (runsT 3 4 → ∃ t, exec .twritePoisonList s = .next t ∧ done t 0 ∧
    ∀ p, p ∈ t.poisonPages ↔ p ∈ s.poisonPages ∧ p ≠ s.mbox.arg.toNat ∧ p * 65536 ≠ s.mbox.arg.toNat) ∧
  (runsT 3 5 → n < 12 → ∃ t, exec .twriteErrorCounter s = .next t ∧ done t 0 ∧
    ∀ k, t.stackErr.getD 0 k = if k = n then 0 else s.stackErr.getD 0 k) ∧
  (runs 4 →
    (s.mbox.tbl = 0 → n < 32 → ∃ t, exec .tread s = .next t ∧ done t 0 ∧ t.mbWord 0 = s.pkgcfg.getD 0 n) ∧
    (s.mbox.tbl = 1 → n < 8 → ∃ t, exec .tread s = .next t ∧ done t 0 ∧ ∀ i < (s.partE n).length, t.mbWord i = (s.partE n).getD i 0) ∧
    (s.mbox.tbl = 2 → n ≤ 8 → ∃ t, exec .tread s = .next t ∧ done t 0 ∧ t.mbWord 0 = s.regclass.getD 0 n) ∧
    (s.mbox.tbl = 3 → n < 8192 → ∃ t, exec .tread s = .next t ∧ done t 0 ∧
      ∀ i < (s.queueE n).length, t.mbWord i = (s.queueE n).getD i 0) ∧
    (s.mbox.tbl = 5 → n < 12 → ∃ t, exec .tread s = .next t ∧ done t 0 ∧ t.mbWord 0 = w64 (s.stackErr.getD 0 n))) ∧
  (runs 5 → ∃ t, exec .level s = .next t ∧
    if s.mbox.arg.toNat % 4 = s.level + 1 ∧ s.mbox.arg.toNat % 4 ≤ 2 then done t 0 ∧ t.level = s.level + 1
    else done t 2 ∧ t.level = s.level) ∧
  (runs 6 → ∃ t, exec .attest s = .next t ∧
    if s.leaf < 2 ^ 20 then done t 0 ∧ t.leaf = s.leaf + 1 ∧ ∀ i < 32, t.mbox.data.getD 0 i = s.mbox.data.getD 0 i
    else done t 5 ∧ t.leaf = s.leaf) ∧
  (runs 7 → s.level ≠ 0 → ∃ t, exec .fwstage s = .next t ∧ done t 4 ∧ t.fwStaged = s.fwStaged) ∧
  (runs 7 → s.level = 0 → s.mbRange = true → ∃ t, exec .fwstage s = .next t ∧
    if Config.firmwareOk s.mbReadBytes.1 = true then done t 0 ∧ t.fwStaged = some s.mbReadBytes.1
    else done t 2 ∧ t.fwStaged = s.fwStaged)

/-- R132, R255, R256, R257, R258, R271, R272, R273, R275, R280, R283, R284: Cold and warm reset, failures of parts and
of links, leaving power, and the steps of the regulators (pump, power, governor). -/
def Obligations.PackageEvents : Prop := ∀ (s : State) (x y z : Nat) (v : W64) (d : List Byte), s.focus = .ev x y z v d →
  ((s.tiles.map Prod.fst).Nodup → ∃ t, exec .coldReset s = .next t ∧ t.level = 0 ∧ t.deps = [] ∧ t.tasks = [] ∧ t.wq = [] ∧ t.parts = [] ∧ t.pkgcfg = [] ∧
    t.mbox = {} ∧ (∀ k, t.ctx k = {}) ∧ (∀ k, (t.tile k).failed = (s.tile k).failed) ∧ t.leaf = s.leaf ∧
    (s.log = [] → (∀ a, a < 0xF000000000000 → Mem.get t.mem a = Mem.get s.mem a) ∧
      (Mem.wf s.mem = true → ∀ a, 0xF000000000000 ≤ a → Mem.get t.mem a = 0))) ∧
  (∃ t, exec .warmReset s = .next t ∧ t.parts = s.parts ∧ t.pkgcfg = s.pkgcfg ∧ t.regclass = s.regclass ∧ t.cycle = s.cycle ∧
    t.level = 0 ∧ (∀ k, (t.ctx k).st = .free) ∧ t.blks = [] ∧ t.tasks = [] ∧ t.leaf = s.leaf) ∧
  ((x = 2 → ∃ t, exec .partFailure s = .next t ∧ (t.slice y).failed = true ∧ ∀ k, k ≠ y → t.slice k = s.slice k) ∧
   (x = 3 → ∃ t, exec .partFailure s = .next t ∧ ∀ k, k ∈ t.failedStacks ↔ k = y ∨ k ∈ s.failedStacks) ∧
   (x = 5 → ∃ t, exec .partFailure s = .next t ∧ ∀ k, k ∈ t.failedPorts ↔ k = y ∨ k ∈ s.failedPorts) ∧
   (x = 1 → tileOk y = true → ∃ t, exec .partFailure s = .next t ∧ (t.tile y).failed = true ∧
      (∀ c, c < 16 → t.ctx (ctxKey y c) = {}) ∧ ∀ c, c < 16 → t.blks.get? (ctxKey y c) = none)) ∧
  (∃ t, exec .linkDown s = .next t ∧ ∀ k, k ∈ t.failedPorts ↔ k = x ∨ k ∈ s.failedPorts) ∧
  (∃ t, exec .powerRemoval s = .next t ∧ t.powered = false ∧ step t = .fault .powerOff) ∧
  (∃ t, exec .powerEvaluation s = .next t ∧ t.power = Config.measuredPower s.now ∧ (∀ k, t.ctx k = s.ctx k) ∧
    (∀ i, i < 192 → t.temps.getD 0 i = Config.sensorTemp i s.now) ∧
    ∀ k, tileOk k = true → ∃ r dp, (t.tile k).prateNext = some (r, dp) ∧ (t.tile k).injected = 0 ∧
      (s.powerLimit < t.power → Config.sensorTemp (nearSensor k) s.now < 105 →
        r = (s.tile k).prate - (s.tile k).injected * Config.powerCut s.now / 1024) ∧
      (t.power * 10 < s.powerLimit * 9 → Config.sensorTemp (nearSensor k) s.now < 105 → (s.tile k).prate < 0xFFFF →
        (s.tile k).prate < r ∧ r ≤ 0xFFFF) ∧
      (105 ≤ Config.sensorTemp (nearSensor k) s.now → r ≤ (s.tile k).prate / 2) ∧
      { t.tile k with prateNext := none, injected := 0 } = { s.tile k with prateNext := none, injected := 0 }) ∧
  (∃ t, exec .periodBoundary s = .next t ∧ (∀ c, t.regEff.getD 0 c = s.regclass.getD 0 c) ∧
    (rcV (s.regclass.getD 0 8) = true →
      t.slowTok = min (rcDepth (s.regclass.getD 0 8) : Int) (s.slowTok + rcRate (s.regclass.getD 0 8))) ∧
    ∀ k, tileOk k = true → (t.tile k).prate = (((s.tile k).prateNext.map Prod.fst).getD (s.tile k).prate) ∧
      (t.tile k).pwrtok = min ((t.tile k).pdepth : Int) ((s.tile k).pwrtok + (t.tile k).prate) ∧
      ∀ c, rcV (s.regclass.getD 0 c) = true → c < 8 → (s.tile k).mesh.tok.getD 0 c ≤ (rcDepth (s.regclass.getD 0 c) : Int) →
        (s.tile k).mesh.tok.getD 0 c ≤ (t.tile k).mesh.tok.getD 0 c ∧
        (t.tile k).mesh.tok.getD 0 c ≤ (rcDepth (s.regclass.getD 0 c) : Int)) ∧
  (∀ r l, y = 0 → z < 8 → takeReq z (s.tile x).mesh.q = some (r, l) →
    ((s.mayInject (s.tile x).mesh z = true → ∃ t, exec .requestInject s = .next t ∧ (t.tile x).mesh.q = l ∧
      (t.tile x).mesh.inj = (s.tile x).mesh.inj ++ [r] ∧
      (t.tile x).mesh.tok.getD 0 z = (s.tile x).mesh.tok.getD 0 z - r.units) ∧
     (s.mayInject (s.tile x).mesh z = false → ∃ t, exec .requestInject s = .next t ∧ (t.tile x).mesh = (s.tile x).mesh))) ∧
  (∀ r l, y = 2 → s.slowq = r :: l → rcV (s.regWord 8) = true → 1 ≤ s.slowTok → ∃ t, exec .requestInject s = .next t ∧
    t.slowq = l ∧ t.slowTok = s.slowTok - r.units) ∧
  (y = 0 → (s.tile x).mesh.inj ≠ [] → 1 ≤ (s.tile x).pwrtok → ∃ t, exec .flitInject s = .next t ∧
    (t.tile x).pwrtok = (s.tile x).pwrtok - 1 ∧ (t.tile x).injected = (s.tile x).injected + 1 ∧
    (t.tile x).mesh = (s.tile x).mesh.flit) ∧
  (y = 0 → (s.tile x).pwrtok < 1 → ∃ t, exec .flitInject s = .next t ∧ t.tile x = s.tile x)

/-- R137, R138, R135, R145, R152, R178, R188, R203, R217, R382, R396, R439: A store that is performed, a walk that
ends, requests and misses of the slices, corrected and uncorrectable errors, spill fetches, copies, page moves and the
Remontoire. -/
def Obligations.MemoryEvents : Prop := ∀ (s : State) (x y z : Nat) (v : W64) (d : List Byte), s.focus = .ev x y z v d →
  (∀ e, (s.ctx (ctxKey x y)).sq[z]? = some e → s.storeReady (ctxKey x y) z = true → s.paKind e.pa = .hbm →
    s.poisonAt e.pa e.size = none → e.kind = .st → OneWay s ⟨e.pa, 0, !e.sliced, if e.ms then 0x80 else 0⟩ e.size → s.log = [] →
    ∃ t, exec .storePerform s = .next t ∧ (t.ctx (ctxKey x y)).sq = (s.ctx (ctxKey x y)).sq.eraseIdx z ∧
      ((∀ o ∈ s.tableOver e.pa e.size, o.2.2 = false) →
        ∀ i < e.size, Mem.get t.mem (e.pa + i) = BitVec.ofNat 8 (e.val.toNat / 256 ^ i)) ∧ StoreOutside s t e.pa e.size ∧
      ∀ k, k ≠ ctxKey x y → t.ctx k = s.ctx k) ∧
  (∀ e, (s.ctx (ctxKey x y)).sq[z]? = some e → s.storeReady (ctxKey x y) z = false ∨ s.roleHeld e = true →
    ∃ t, exec .storePerform s = .next t ∧ (∀ k, t.ctx k = s.ctx k) ∧ t.mem = Mem.flush s.mem s.log) ∧
  (∀ w, s.walks[x]? = some w → s.walking x = false → ∃ t, exec .pageWalkComplete s = .next t ∧ t = endStep s s) ∧
  (∀ w u, s.walks[x]? = some w → s.walking x = true → u = { s with walks := s.walks.eraseIdx x } →
    (∀ e q, u.walkNow w.tile w.part w.va.toNat w.write 0 = (.ok e, q) →
      ∃ t, exec .pageWalkComplete s = .next t ∧ t = endStep s q ∧ t.walks = s.walks.eraseIdx x) ∧
    (∀ f q, u.walkNow w.tile w.part w.va.toNat w.write 0 = (.error f, q) →
      ∃ t, exec .pageWalkComplete s = .next t ∧ t.walks = s.walks.eraseIdx x ∧ t.mem = Mem.flush s.mem s.log ∧
        (∀ r ∈ w.reqs, (t.ctx r.1).sync.isSome = true) ∧
        ∀ k, ({ t.ctx k with sync := none } : Ctx) = { s.ctx k with sync := none })) ∧
  (∀ q r, (s.slice x).arr = q :: r → (s.slice x).failed = false →
    ((s.slice x).spill = [] → (s.slice x).miss.length < 64 → (∀ m ∈ (s.slice x).miss, m.line ≠ q.line) →
      ∀ b, (s.slice x).lines.get? q.line = some b → ∃ t, exec .sliceRequest s = .next t ∧ (t.slice x).arr = r ∧
        (t.slice x).lines.get? q.line = some (b || q.wr) ∧ (t.slice x).miss = (s.slice x).miss) ∧
    ((s.slice x).spill = [] → (s.slice x).miss.length < 64 →
      ((s.slice x).lines.get? q.line = none ∨ ∃ m ∈ (s.slice x).miss, m.line = q.line) →
      ∃ t, exec .sliceRequest s = .next t ∧ (t.slice x).arr = r ∧ (t.slice x).miss = (s.slice x).miss ++ [q] ∧
        (t.slice x).lines = (s.slice x).lines) ∧
    (((s.slice x).spill ≠ [] ∨ 64 ≤ (s.slice x).miss.length) →
      ((s.slice x).spill.length < 1024 → ∃ t, exec .sliceRequest s = .next t ∧ (t.slice x).arr = r ∧
        (t.slice x).spill = (s.slice x).spill ++ [q] ∧ (t.slice x).miss = (s.slice x).miss ∧
        (t.slice x).lines = (s.slice x).lines) ∧
      (1024 ≤ (s.slice x).spill.length → ∃ t, exec .sliceRequest s = .next t ∧ t = endStep s s))) ∧
  (∀ q, (s.slice x).miss[y]? = some q → (∀ m ∈ (s.slice x).miss.take y, m.line ≠ q.line) →
    ∃ t, exec .missEntryFree s = .next t ∧
      (t.slice x).miss = (s.slice x).miss.eraseIdx y ++ (s.slice x).spill.take 1 ∧
      (t.slice x).spill = (s.slice x).spill.drop 1 ∧
      (q.alloc = true → ((t.slice x).lines.get? q.line).isSome = true) ∧
      (q.alloc = false → (s.slice x).lines.get? q.line = none → (t.slice x).lines = (s.slice x).lines)) ∧
  (∀ q, (s.slice x).miss[y]? = some q → (∃ m ∈ (s.slice x).miss.take y, m.line = q.line) →
    ∃ t, exec .missEntryFree s = .next t ∧ t = endStep s s) ∧
  (x = 0 → ∃ t, exec .correctedError s = .next t ∧ (t.tile (y / 32)).cebank.getD 0 (y % 32) =
    min 65535 ((s.tile (y / 32)).cebank.getD 0 (y % 32) + 1) ∧ (t.tile (y / 32)).evstat.getLsbD 5 = true) ∧
  (x = 2 → ∃ t, exec .correctedError s = .next t ∧ t.stackErr.getD 0 y = min (2 ^ 32 - 1) (s.stackErr.getD 0 y + 1)) ∧
  (s.paKind x = .hbm → ∃ t, exec .uncorrectableError s = .next t ∧ t.poisoned x = true ∧
    (∀ a, a / 128 ≠ x / 128 → t.poisoned a = s.poisoned a) ∧ t.mem = Mem.flush s.mem s.log) ∧
  (∃ t, exec .remontoireSample s = .next t ∧ t = endStep s ((List.range 255).foldl (fun s i => s.sampleGroup (i + 1)) s)) ∧
  (∀ c num p bs u, c = s.chan (64 * x + y) → num = (c.popseq + c.onchip + 1) % 2 ^ 64 → c.v = true → c.onchip < c.con →
    c.onchip < c.occ → (c.est = 0 ∨ num ≠ c.pushseq) → s.partOfTile x = some p →
    readU x p (spillUse false) .engine (w64 (c.spillVa num)) c.esize s = .ok bs u →
    ∃ t, exec .spillFetchComplete s = .next t ∧ t.chan (64 * x + y) = { c with onchip := c.onchip + 1 } ∧
      (∀ i < bs.length, Mem.get t.mem (c.slotPa (64 * x + y) num + i) = bs.getD i 0) ∧ ∀ k, k ≠ 64 * x + y → t.chan k = s.chan k) ∧
  (∀ p q r u fin, (s.copyCh x y).queue = p :: r → (s.copyCh x y).cur ≠ 2 →
    copyAll x p.who p.id p.wf p.sf p.chunks p.chunks (s.copyCh x y).at_ s = .ok (fin, q) u →
    ∃ t, exec .xcopyTransferComplete s = .next t ∧
      (fin = false ∨ u.copyOpen x p.id = true → t = endStep s (u.setCopyCh x y { s.copyCh x y with cur := 1, at_ := q })) ∧
      (fin = true → u.copyOpen x p.id = false → p.bar = none → t = endStep s ((u.setCopyCh x y
        (({ s.copyCh x y with queue := r, cur := 0, at_ := {} }.note q.bad).settle)).completeTo p.who))) ∧
  ((s.copyCh x y).walkId ≠ 0 → (s.copyCh x y).cur ≠ 1 → ((s.copyCh x y).cur = 0 → (s.copyCh x y).queue = []) →
    (∀ nx p u, walkRec x y s = .ok (some (nx, p)) u → ∃ t, exec .copyRecordComplete s = .next t ∧
      (t.copyCh x y).head = nx ∧ (nx = 0 → (t.copyCh x y).walkId = 0) ∧ (t.copyCh x y).queue = (u.copyCh x y).queue) ∧
    (∀ u, walkRec x y s = .ok none u → ∃ t, exec .copyRecordComplete s = .next t ∧ t = endStep s u) ∧
    (∀ f u, walkRec x y s = .error f u → ∃ t, exec .copyRecordComplete s = .next t ∧
      (t.copyCh x y).state = 2 ∧ (t.copyCh x y).walkId = 0)) ∧
  (∀ m, s.moves[x]? = some m → s.visited m.desc = true → ∃ t, exec .pageMoveComplete s = .next t ∧ t.moves = s.moves ∧
    t.mem = Mem.flush s.mem s.log) ∧
  (∀ m, s.moves[x]? = some m → s.visited m.desc = false → ∃ t, exec .pageMoveComplete s = .next t ∧ t.moves = s.moves.eraseIdx x)

/-- R86, R208, R209, R210, R211, R212, R214, R215, R252, R254: Hops of packets, arrivals of messages, query tokens and
remote barrier events, the landing of routed tokens, and the service of query tokens, which waits while another runs. -/
def Obligations.RingEvents : Prop := ∀ (s : State) (x y z : Nat) (v : W64) (d : List Byte), s.focus = .ev x y z v d →
  (∀ p m l q vc dl, s.pkts[x]? = some p → s.msgs.get? p.msg = some m → s.leaves p m = false →
    s.pktReady p = some (l, q, vc, dl) → s.granted p l = true → m.cls ≠ 0 →
    (m.dpkg ≠ s.pkgno ∨ q.ring ≠ 0) →
    ∃ t, exec .packetHop s = .next t ∧ t.grants.getD 2 l = m.cls ∧
      t.pkts[x]? = some { q with stop := s.nextStop q, vc := vc, dl := dl, examined := false, wait := s.now, held := p.behind vc } ∧
      t.mem = Mem.flush s.mem s.log) ∧
  (∀ p m, s.pkts[x]? = some p → s.msgs.get? p.msg = some m → s.leaves p m = false → s.pktReady p = none →
    ∃ t, exec .packetHop s = .next t ∧ t.pkts = s.pkts ∧ t.msgs = s.msgs) ∧
  (∀ i p m k, s.pkts.findIdx? (fun p => p.msg = x && p.pidx = y) = some i → s.pkts[i]? = some p → s.msgs.get? p.msg = some m →
    m.cls = 0 → p.ring = 0 → p.vc ≠ .source →
    s.stopTile p.ringNo p.stop = some k → (s.tile k).tslots.find? (fun e => e.2.mid = p.msg) = none → p.pidx = 0 →
    p.examined = false →
    ((m.dpkg ≠ s.pkgno ∨ m.dtile ≠ k) → s.shardNames k m = false →
      ∃ t, exec .qtArrival s = .next t ∧ t.pkts[i]? = some { p with examined := true } ∧ t.msgs = s.msgs) ∧
    (∀ j, (m.dpkg = s.pkgno ∧ m.dtile = k) ∨ s.shardNames k m = true → Map.fresh (s.tile k).tslots 0 8 = some j → m.landed + 1 < m.npkt →
      ∃ t, exec .qtArrival s = .next t ∧ (t.tile k).tslots.get? j = some { mid := p.msg, msg := m, order := s.nextId } ∧
        t.msgs.get? p.msg = some { m with landed := m.landed + 1 })) ∧
  (∀ m, s.msgs.get? x = some m → m.cls ≠ 0 → m.plain = false → m.dpkg = s.pkgno → m.landed ≠ 0 → s.msgHeld x m = false → m.met = true →
    (∀ w ∈ s.waits, ∀ tag src cap dst, w.key / 16 = m.dtile → w.k = .recv tag src cap dst → fitsMsg tag src m = false) →
    ((s.tile m.dtile).ovf.length < 64 → ∃ t, exec .msgArrival s = .next t ∧ (t.tile m.dtile).ovf = (s.tile m.dtile).ovf ++ [x] ∧
      t.msgs.get? x = some m) ∧
    (64 ≤ (s.tile m.dtile).ovf.length → x < s.nextId → ∃ t, exec .msgArrival s = .next t ∧ t.msgs.get? x = none ∧
      (t.tile m.dtile).ovf = (s.tile m.dtile).ovf)) ∧
  (∀ m w tag src cap dst, s.msgs.get? x = some m → m.cls ≠ 0 → m.plain = false → m.dpkg = s.pkgno → m.landed ≠ 0 → s.msgHeld x m = false →
    s.waits = [w] → w.k = .recv tag src cap dst → w.key / 16 = m.dtile → fitsMsg tag src m = true → m.met = true →
    ∃ t, exec .msgArrival s = .next t ∧ t.waits = [{ w with k := .recvGot x cap dst }]) ∧
  (∀ k e, s.parkHead x = some (k, e) → e.full = true → s.tokPost x (s.slotHdr x k e 0x10 4) = none →
    ∃ t, exec .tokenServiceStart s = .next t ∧ t.tile x = s.tile x ∧ t.waits = s.waits) ∧
  (s.tokRuns x = true → ∃ t, exec .tokenServiceStart s = .next t ∧ t = endStep s s) ∧
  (∀ k e w n, s.parkHead x = some (k, e) → e.full = true → s.tokRuns x = false →
    s.tokPost x (s.slotHdr x k e 0x10 4) = some w → (s.ctx w.key).region = none → n = s.slotHdr x k e 0 2 → s.poisonAt (s.seqPa n) 128 = none → (s.seq n).v = true →
    linksOk (s.seq n).links (s.seq n).tent = true → w.key / 16 = x →
    ∃ t f, exec .tokenServiceStart s = .next t ∧ (t.tile x).tslots.get? k = some f ∧ f.service = some w.key ∧
      f.clen = (s.seq n).clen ∧ f.tlen = (s.seq n).tlen ∧ f.links = (s.seq n).links ∧ f.full = true ∧
      ∀ u ∈ t.waits, ¬(u.key = w.key ∧ u.idx = w.idx)) ∧
  (∀ r b, s.rembars[x]? = some r → r.dpkg = s.pkgno → r.bytes = none →
    barMatch (s.bar (48 * r.tile + r.bar)) r.ltag r.wid r.widfmt = true → barEvent (s.bar (48 * r.tile + r.bar)) 1 0 = some b →
    ∃ t, exec .remoteBarrierArrival s = .next t ∧ t = endStep s ((({ s with rembars := s.rembars.eraseIdx x } : State).setBar
      (48 * r.tile + r.bar) b).barReply r (w64 (barPhcnt (s.bar (48 * r.tile + r.bar)) * 2 ^ 32))) ∧
      t.bar (48 * r.tile + r.bar) = b ∧ t.rembars = s.rembars.eraseIdx x ∧
      ∀ k, k ≠ 48 * r.tile + r.bar → t.bar k = s.bar k) ∧
  (∀ r, s.rembars[x]? = some r → r.dpkg = s.pkgno → r.bytes = none →
    barMatch (s.bar (48 * r.tile + r.bar)) r.ltag r.wid r.widfmt = false →
    ∃ t, exec .remoteBarrierArrival s = .next t ∧ (∀ k, t.bar k = s.bar k) ∧ t.rembars = s.rembars.eraseIdx x) ∧
  (y < 64 → ∀ f l, landing (s.region (4 * x + y / 16)).flights 0 (y % 16) (z % 4) = some (f, l) →
    ∃ t, exec .routeTokenLanding s = .next t ∧ (t.region (4 * x + y / 16)).flights = l ∧
      (t.elem (64 * x + 16 * ((4 * x + y / 16) % 4) + y % 16)).ins.getD [] (z % 4) =
        (s.elem (64 * x + 16 * ((4 * x + y / 16) % 4) + y % 16)).ins.getD [] (z % 4) ++ [f.tok])

/-- R279, R401, R402, R403, R405, R426: STREAM_IN_DELIVER sends the next token of a port on its way, or ends a binding
whose channel is closed, lost or poisoned; STREAM_OUT_TOKEN writes one that has come; PERMIT_TOKEN_ARRIVAL hands a
permit to the station. -/
def Obligations.StreamEvents : Prop := ∀ (s : State) (x y z : Nat) (v : W64) (d : List Byte), s.focus = .ev x y z v d → y < 4 →
  let rk := 4 * x + y
  let r := s.region rk
  let w := r.inRoute z
  (r.draining = true → ∃ t, exec .streamInDeliver s = .next t ∧ t = endStep s s) ∧
  (r.draining = false → rtV w = true → s.routeSpace rk w = true → (∀ p ∈ r.pend, p.port ≠ z) → ∀ b, r.sin.get? z = some b →
    (∀ ck, b.chan = some ck → (s.chan ck).lost = false → (s.chan ck).v = true → (s.chan ck).atMarker = false →
      0 < (s.chan ck).onchip → s.poisonAt ((s.chan ck).slotPa ck (((s.chan ck).popseq + 1) % 2 ^ 64)) 8 = none →
      ∃ t, exec .streamInDeliver s = .next t ∧
      (t.region rk).flights = r.flights ++ [⟨rtKind w, rtDest w, rtDin w, rtDelay w,
        ⟨s.rd64 ((s.chan ck).slotPa ck (((s.chan ck).popseq + 1) % 2 ^ 64)), 0, false⟩⟩] ∧
      (t.region rk).sin.get? z = some b) ∧
    (∀ ck, b.chan = some ck → (s.chan ck).lost = true ∨ (s.chan ck).v = false ∨ ((s.chan ck).atMarker = false ∧
        0 < (s.chan ck).onchip ∧ s.poisonAt ((s.chan ck).slotPa ck (((s.chan ck).popseq + 1) % 2 ^ 64)) 8 ≠ none) →
      ∃ t, exec .streamInDeliver s = .next t ∧
      (t.region rk).flights = r.flights ∧ (t.region rk).sin.get? z = none) ∧
    (b.chan = none → b.total ≤ b.pos → b.eos = true → ∃ t, exec .streamInDeliver s = .next t ∧
      (t.region rk).flights = r.flights ++ [⟨rtKind w, rtDest w, rtDin w, rtDelay w, ⟨0, 0, true⟩⟩] ∧
      (t.region rk).sin.get? z = none) ∧
    (b.chan = none → b.pos < b.total → ∀ l u, ((tokAddrs b.tm b.pos).mapM (fun a =>
        mReadPiece x b.who.part ((copyRead b.who.sup).by b.who) .engine a (tmEsz b.tm))) s = .ok l u → b.pos + 1 < b.total →
      ∃ t, exec .streamInDeliver s = .next t ∧
        (t.region rk).flights = r.flights ++ [⟨rtKind w, rtDest w, rtDin w, rtDelay w, ⟨w64 (leNat l.flatten), 0, false⟩⟩] ∧
        (t.region rk).sin.get? z = some { b with pos := b.pos + 1 })) ∧
  (r.draining = false → rtV w = true → s.routeSpace rk w = true → ∀ p l n, r.pend = p :: l → p.port = z → p.num = some n → r.sin.get? z = none →
    ∃ t, exec .streamInDeliver s = .next t ∧ (t.region rk).pend = l ∧
      (t.region rk).flights = r.flights ++ [⟨rtKind w, rtDest w, rtDin w, rtDelay w, ⟨w64 n, 3, false⟩⟩]) ∧
  (∀ tok rest, r.sobuf.getD [] z = tok :: rest → tok.permit = false →
    (r.sout.get? z = none → tok.eos = false → ∃ t, exec .streamOutToken s = .next t ∧ t.region rk = r) ∧
    (∀ b, r.sout.get? z = some b → tok.eos = true → r.sbar.get? z = none ∨ r.draining = true → ∃ t, exec .streamOutToken s = .next t ∧
      (t.region rk).sobuf.getD [] z = rest ∧ (t.region rk).sout.get? z = none ∧ ∀ k, t.bar k = s.bar k) ∧
    (∀ b u, r.sout.get? z = some b → tok.eos = false → b.pos < b.total → soWrite x b tok.data s = .ok () u →
      ∃ t, exec .streamOutToken s = .next t ∧ (t.region rk).sobuf.getD [] z = rest ∧
        (t.region rk).sout.get? z = some { b with pos := b.pos + 1 } ∧ t.mem = Mem.flush s.mem u.log)) ∧
  (∀ tok rest, r.sobuf.getD [] z = tok :: rest → tok.permit = true →
    (s.permit x tok.data.toNat = none → 16 ≤ (s.tile x).permits.length → ∃ t, exec .permitTokenArrival s = .next t ∧
      t.region rk = r ∧ t.tile x = s.tile x) ∧
    (s.permit x tok.data.toNat = none → (s.tile x).permits.length < 16 → s.waits = [] →
      ∃ t, exec .permitTokenArrival s = .next t ∧ (t.region rk).sobuf.getD [] z = rest ∧
        (t.tile x).permits = (s.tile x).permits ++ [⟨tok.data.toNat, none⟩]))

/-- R78, R290, R110: A delivery fills one empty slot of its target and no other; a second one faults SLOT_CONFLICT; an
instruction that its predicate bars is nullified, one that lacks a delivery does nothing, and one whose result is
recorded delivers it again and does nothing else. -/
def Obligations.Deliveries : Prop := ∀ (s : State) (e : Env) (key i dst slot : Nat) (b : Blk) (h : Head) (v r : W64),
  (s.blks.get? key = some b → targetOf i h.t0 = some (dst, slot) → targetOf i h.t1 = none → dst < b.nodes.length →
    ((b.node dst).slot slot = none → ∃ b', (s.deliver key i h (some v) true).blks.get? key = some b' ∧
      (b'.node dst).slot slot = some (slotValue slot v) ∧
      (∀ q, q ≠ slot → q < 4 → (b'.node dst).slot q = (b.node dst).slot q) ∧ (∀ j, j ≠ dst → b'.node j = b.node j) ∧
      ∀ k, k ≠ key → (s.deliver key i h (some v) true).blks.get? k = s.blks.get? k) ∧
    ((b.node dst).slot slot ≠ none → s.deliver key i h (some v) true =
      s.syncFault key { code := .slotConflict, extra := w64 slot, idx := some dst })) ∧
  (s.focus = .seq e.tile e.ctx e.idx → ∀ x ∈ [Instr.add h false, .get h 1, .cmp h true 2, .br h 0 4, .chpush h false, .kvtent h,
      .tsdesc h, .mma h 0 false],
    (s.firing e.tile e.ctx e.idx h (readsOf x) = .nullify →
      exec x s = .next (endStep s (s.setStat (ctxKey e.tile e.ctx) e.idx .nullified))) ∧
    (s.firing e.tile e.ctx e.idx h (readsOf x) = .notReady → exec x s = .next (endStep s s))) ∧
  (s.focus = .seq e.tile e.ctx e.idx → irrevocable e.word = true → tokenOnly e.word = false →
    irvFind (s.ctx e.key).irv e.idx = some r → ∀ x ∈ [Instr.enq h, .chpush h false, .pacq h, .kvtent h],
    s.firing e.tile e.ctx e.idx h (readsOf x) = .fire e → exec x s = .next (endStep s
      (((s.count e.tile 3 (ctx := some e.ctx)).deliver e.key e.idx h (some r) true).setStat e.key e.idx .done)))

/-- R76, R288, R311, R314, R316, R318, R320: An instruction that answers a value changes nothing but the block in
flight; so do an exit and a write of a register, which wait for the commit. -/
def Obligations.ValueFrames : Prop := ∀ (s t : State) (e : Env) (w : Bool) (imm : BitVec 27) (k : BitVec 6) (c : BitVec 3)
    (ofs : BitVec 28) (r : BitVec 6),
  s.log = [] → irrevocable e.word = false →
  ∀ i ∈ [Instr.add e.h w, .addi e.h w imm, .sub e.h w, .mul e.h w, .mulh e.h w, .mulhu e.h w, .div e.h w, .divu e.h w,
      .rem e.h w, .remu e.h w, .neg e.h w, .abs_ e.h w, .min e.h w, .max e.h w, .minu e.h w, .maxu e.h w, .adds e.h w,
      .subs e.h w, .and_ e.h w, .andi e.h w imm, .or_ e.h w, .ori e.h w imm, .xor e.h w, .xori e.h w imm, .not_ e.h w,
      .shl e.h w, .shli e.h w k, .shr e.h w, .shri e.h w k, .sar e.h w, .sari e.h w k, .rotl e.h w, .clz e.h w, .ctz e.h w,
      .popc e.h w, .bext e.h w k r, .bins e.h w k r, .sext e.h w k, .zext e.h w k, .cmp e.h w c, .cmpi e.h w c imm, .sel e.h,
      .pand e.h, .por e.h, .pnot e.h, .lea e.h w imm, .alignup e.h w k, .modadd e.h, .nop e.h, .movi e.h imm, .mov e.h,
      .get e.h r, .put e.h r, .null_ e.h r, .br e.h c ofs, .brr e.h c, .halt e.h c],
    Fires.of s i e → exec i s = .next t → OnlyBlock s t

/-- R98, R99, R100, R102, R104, R105, R106, R107, R110: Taking a fault writes its record, counts it, withdraws the
block, and goes to the handler or holds the strand, every register of which is live then (the model's choice, log 26);
a resumed strand gets its irrevocable results and its block back; a delivery takes the synchronous fault first, and
the asynchronous ones pending then wait until the strand is resumed. That the record of an S strand's handler has PRIV
0 is the model's choice (log 64). -/
def Obligations.FaultEntry : Prop := ∀ (s : State) (key : Nat) (f : Flt) (sup : Bool),
  let c := s.ctx key
  let t := s.takeFault key f sup
  let info := (t.rd64 (framePa key + if c.inh then 0xC0 else 0)).toNat
  let at_ := fun (i : Nat) => t.rd64 (framePa key + (if c.inh then 0xC0 else 0) + 8 * i)
  ((t.tile (key / 16)).fltcnt = ((s.tile (key / 16)).fltcnt + 1) % 2 ^ 32 ∧ t.blks.get? key = none ∧
    (∀ w ∈ t.waits, w.key ≠ key) ∧ (t.ctx key).irv = List.replicate 8 none ∧ (t.ctx key).g = c.g ∧
    (∀ k, k ≠ key → t.ctx k = s.ctx k)) ∧
  (sup = false → c.inh = false → c.handler ≠ 0 → (s.tile (key / 16)).frameva ≠ 0 →
    (t.ctx key).inh = true ∧ (t.ctx key).next = c.handler ∧ (t.ctx key).st = c.st ∧ (t.ctx key).live = c.live) ∧
  ((sup = true ∨ c.inh = true ∨ c.handler = 0 ∨ (s.tile (key / 16)).frameva = 0) →
    (t.ctx key).st = .held ∧ (t.ctx key).inh = c.inh ∧ (t.ctx key).live = 0xFFFFFFFFFFFFFFFE) ∧
  (s.partW c.part 4 = 0 → f.src < 16 → f.reg < 4 → key < 16384 → (∀ i, f.idx = some i → i < 128) →
    info % 2 ^ 16 = f.code.num ∧ bitsOf info 16 7 = f.idx.getD 0 ∧ bitOf info 23 = f.idx.isSome ∧ bitsOf info 24 4 = f.src ∧
    bitsOf info 28 2 = f.reg ∧ bitOf info 30 = f.more ∧ bitOf info 31 = c.inh ∧ bitsOf info 32 10 = key / 16 ∧
    bitsOf info 42 4 = key % 16 ∧ bitOf info 46 = (c.priv && !c.inh) ∧
    at_ 1 = f.block ∧ at_ 2 = f.addr ∧ at_ 3 = f.extra ∧ at_ 4 = c.ltag ∧ at_ 5 = c.wid ∧ at_ 6 = s.cycle ∧
    at_ 7 = w64 (((s.tile (key / 16)).fltcnt + 1) % 2 ^ 32)) ∧
  (((s.resumeFault key).ctx key).inh = false ∧ ((s.resumeFault key).ctx key).next = s.rd64 (framePa key + 8) ∧
    ((s.resumeFault key).ctx key).irv = irvOfWords (s.rdWords (framePa key + 0x40) 16) ∧
    ∀ k, k ≠ key → (s.resumeFault key).ctx k = s.ctx k) ∧
  (∀ tl cx z v d b, s.focus = .ev tl cx z v d → ctxKey tl cx = key → c.st = .run ∨ c.st = .stopreq → s.recordedOpen key = false →
    s.faultBlock key = b →
    (∀ g, c.sync = some g → exec .faultDelivery s = .next (endStep s
      ((s.updCtx key (fun c => { c with sync := none, async := c.async.map (fun o => { o with behind := true }) })).takeFault key
        { g with block := b }))) ∧
    (∀ g l m, c.sync = none → c.async = l ++ g :: m → (∀ o ∈ l, o.behind = true) → g.behind = false →
      exec .faultDelivery s = .next (endStep s
        ((s.updCtx key (fun c => { c with async := l ++ m })).takeFault key { g with block := b, idx := none }))) ∧
    (c.sync = none → (∀ o ∈ c.async, o.behind = true) → exec .faultDelivery s = .next (endStep s s))) ∧
  (∀ o ∈ ((s.resumeFault key).ctx key).async, o.behind = false)

/-- R42, R289, R302, R337: A step runs the next action of the agenda: an event, or the instruction that the word of
the block in flight or of the region's image decodes to; what a cycle does by itself between them runs in its place,
and with nothing left the next cycle is planned. Every instruction and event answers a next state in every state: none
stops the machine. -/
def Obligations.StepRunsDecoded : Prop := ∀ (s : State) (a : Act) (l : List Act),
  (∀ i : Instr, ∃ t, exec i s = .next t) ∧
  (s.powered = false → step s = .fault .powerOff) ∧
  (s.powered = true → s.agenda = [] → step s = .next (endStep s s.plan)) ∧
  (s.powered = true → s.agenda = a :: l →
    (∀ i x y z v d, a = .event i x y z v d → step s = exec i { s with agenda := l, focus := .ev x y z v d }) ∧
    (∀ t c k i, a = .fire t c k → decodeSeq (s.wordAt (ctxKey t c) k) = .ok i →
      step s = exec i { s with agenda := l, focus := .seq t c k }) ∧
    (∀ t e k i, a = .elem t e k → decodeElem (BitVec.ofNat 32 ((s.region (4 * t + e / 16)).opWord e k)) = some i →
      step s = exec i { s with agenda := l, focus := .elem t e k }) ∧
    (∀ t r, a = .gridEnd t r → step s = .next (endStep { s with agenda := l }
      (({ s with agenda := l } : State).gridEnd (4 * t + r)))) ∧
    (∀ k, a = .tick k → step s = .next (endStep { s with agenda := l } (({ s with agenda := l } : State).tickRun k))))

/-- R289, R290, R291, R292, R293, R294, R299, R301, R302: Words of the manual's encodings decode to the instructions
they stand for (R289-R302). -/
def Obligations.DecodeWords : Prop :=
  decodeSeq 0x0044080006000000 = .ok (.get ⟨false, 0, 0x204, 0⟩ 3) ∧
  decodeSeq 0x1044080000000001 = .ok (.addi ⟨false, 0, 0x204, 0⟩ false 1) ∧
  decodeSeq 0x7004110CA92E0010 = .ok (.ld ⟨false, 0, 0x208, 0x219⟩ ⟨5, 2, 1, 3, true, 16⟩) ∧
  decodeSeq 0xB084160004000000 = .ok (.mqk ⟨false, 0, 0x20B, 0⟩ 1) ∧
  decodeSeq 0xC004160004000000 = .ok (.chpush ⟨false, 0, 0x20B, 0⟩ true) ∧
  decodeSeq 0xD044080000500000 = .ok (.barr ⟨false, 0, 0x204, 0⟩ 5) ∧
  decodeSeq 0xE0C4080004000000 = .ok (.kvappend ⟨false, 0, 0x204, 0⟩ true) ∧
  decodeSeq 0xF044080000000000 = .ok (.tsdesc ⟨false, 0, 0x204, 0⟩) ∧
  decodeSeq 0xFFFFFFFFFFFFFFFF = .error .illegalOpcode ∧
  decodeElem 0x07444900 = some (.elementFma ⟨2, 8, 8, 9, 2, 0, false, false, 0⟩) ∧
  decodeElem 0x4BE40000 = some (.elementTake ⟨3, 12, 8, 0, 0, 0, false, false, 0⟩)

/-- R289, R290, R291, R292, R293, R294, R295, R296, R297, R298, R301, R302: The decoder reads the word of every
well-formed instruction as that instruction. -/
def Obligations.EncodeDecode : Prop := ∀ i : Instr, i.wf = true →
  match encode i with
  | .seq w => decodeSeq w = .ok i
  | .elem w => decodeElem w = some i
  | .none => True

/-- R4, R247: Every step of the machine keeps memory in its canonical form, leaves no write outstanding, and does not
change the fused virtual-unit map. -/
def Obligations.InvStep : Prop := ∀ s t : State, Inv s → step s = .next t → Inv t ∧ t.fuse = s.fuse

/-- R132, R261, R273, R96: The machine after reset meets the invariant. That the registers and the HBM read zero is
the model's choice (logs 1, 2). -/
def Obligations.ResetState : Prop :=
  Inv State.reset ∧ State.reset.level = 0 ∧ State.reset.cycle = 0 ∧ State.reset.powered = true ∧
  (∀ a, Mem.get State.reset.mem a = 0) ∧ (∀ k, (State.reset.ctx k).st = .free ∧ ∀ r, (State.reset.ctx k).g.getD 0 r = 0) ∧
  (∀ k, (State.reset.tile k).bankrole = 0xAA00000000005555 ∧ (State.reset.tile k).failed = false) ∧
  (∀ k, (State.reset.region k).loaded = false ∧ (State.reset.acc k).rowp = 0 ∧ (State.reset.chan k).v = false) ∧
  State.reset.deps = [] ∧ State.reset.blks = [] ∧ State.reset.poison = []

end
end

