-- ==== Sys2Proof/Laws/Fire.lean ====
section
/-! SUPPORT. What firing a sequencer instruction does, once for every meaning: the instruction has begun and its own effect
follows; and what having begun leaves as it was. -/

namespace Sys2Proof.Machine

/-! ## Tables -/

theorem map_get_put {α : Type} (m : Map α) (x y : Nat) (v : α) :
    (m.put x v).get? y = if x = y then some v else m.get? y := by
  induction m with
  | nil => simp [Map.put, Map.get?]
  | cons p r ih =>
    obtain ⟨k, w⟩ := p
    simp only [Map.put]
    split
    · simp [Map.get?]
    · split
      · subst_vars; by_cases h : k = y <;> simp [Map.get?, h]
      · by_cases h : k = y
        · subst h; simp_all [Map.get?, eq_comm]
        · simp [Map.get?, h, ih]

theorem map_getD_put {α : Type} (m : Map α) (d v : α) (x y : Nat) :
    (m.put x v).getD d y = if x = y then v else m.getD d y := by
  induction m with
  | nil => simp [Map.put, Map.getD]
  | cons p r ih =>
    obtain ⟨k, w⟩ := p
    simp only [Map.put]
    split
    · simp [Map.getD]
    · split
      · subst_vars; by_cases h : k = y <;> simp [Map.getD, h]
      · by_cases h : k = y
        · subst h; simp_all [Map.getD, eq_comm]
        · simp [Map.getD, h, ih]

/-! ## Firing -/

/-- What an instruction that fires sees is where it stands. -/
theorem firing_key {s : State} {t c i : Nat} {h : Head} {n : Needs} {e : Env} (H : s.firing t c i h n = .fire e) :
    e.key = ctxKey t c ∧ e.tile = t ∧ e.ctx = c ∧ e.idx = i ∧ e.h = h := by
  unfold State.firing at H
  simp only [] at H
  repeat' split at H
  all_goals first | (cases H; done) | (injection H with H; subst H; simp)

/-- A context's key holds its tile. -/
theorem Fires.tile_of_key {s : State} {n : Needs} {e : Env} (H : Fires s n e) : e.key / 16 = e.tile := by
  have h := firing_key H.fires
  have hf := H.fits
  rw [h.1, ctxKey]; omega

/-- It sees the block in flight of its context and its own word. -/
theorem firing_blk {s : State} {t c i : Nat} {h : Head} {n : Needs} {e : Env} (H : s.firing t c i h n = .fire e) :
    s.blks.get? e.key = some e.blk ∧ e.word = e.blk.words.getD i 0 := by
  unfold State.firing at H
  simp only [] at H
  repeat' split at H
  all_goals first | (cases H; done) | (injection H with H; subst H; simp_all)

/-- Its context lets it issue. -/
theorem firing_run {s : State} {t c i : Nat} {h : Head} {n : Needs} {e : Env} (H : s.firing t c i h n = .fire e) :
    (s.ctx e.key).issues s.cycle (e.blk.asked.contains i) = true := by
  unfold State.firing at H
  simp only [] at H
  repeat' split at H
  all_goals first | (cases H; done) | (injection H with H; subst H; simp_all)

/-- An instruction that fires and that nothing holds back begins, and has its own effect. -/
theorem fireSeq_of {s : State} {n : Needs} {e : Env} (H : Fires s n e) (body : Env → State → State)
    (blk : Env → State → Option State) (hb : blk e s = none) : fireSeq e.h n body s blk = body e (s.begun e) := by
  have hk := (firing_key H.fires).1
  unfold fireSeq
  simp only [H.focus, H.fires, H.fresh, ite_self, hb, State.begun]

/-- The answer of an instruction that fires and that nothing holds back. -/
theorem run_fireSeq {s : State} {n : Needs} {e : Env} (H : Fires s n e) (body : Env → State → State)
    (blk : Env → State → Option State) (hb : blk e s = none) :
    run (fun s => fireSeq e.h n body s blk) s = .next (endStep s (body e (s.begun e))) := by
  exact congrArg (fun t => Host.Outcome.next (endStep s t)) (fireSeq_of H body blk hb)

/-- An instruction that computes a value answers it. -/
theorem fireVal_of {s : State} {n : Needs} {e : Env} (H : Fires s n e) (f : Env → W64) :
    run (fireVal e.h n f) s = s.answers e (f e) := by
  exact congrArg (fun t => Host.Outcome.next (endStep s t)) (fireSeq_of H _ _ rfl)

/-- An instruction that runs a unit's computation answers as that does. -/
theorem fireM_of {s : State} {n : Needs} {e : Env} (H : Fires s n e) (body : Env → M Unit)
    (blk : Env → State → Option State) (hb : blk e s = none) :
    fireM e.h n body s blk = match body e (s.begun e) with
      | .ok _ t => t
      | .error f t => faultOf e f t := by
  unfold fireM; exact fireSeq_of H _ _ hb

theorem run_fireM {s : State} {n : Needs} {e : Env} (H : Fires s n e) (body : Env → M Unit)
    (blk : Env → State → Option State) (hb : blk e s = none) :
    run (fun s => fireM e.h n body s blk) s = .next (endStep s (match body e (s.begun e) with
      | .ok _ t => t
      | .error f t => faultOf e f t)) := by
  exact congrArg (fun t => Host.Outcome.next (endStep s t)) (fireM_of H body blk hb)

/-! ## What an instruction that has begun leaves as it was -/

theorem count_fields (s : State) (t ev add : Nat) (c k : Option Nat) :
    s.count t ev c k add = { s with tiles := (s.count t ev c k add).tiles } := by
  unfold State.count; split <;> rfl

theorem pmcOne_same (ev add n : Nat) (c k : Option Nat) (x : Tile) :
    ({ pmcOne ev c k add x n with pmc := [], pmovf := 0 } : Tile) = { x with pmc := [], pmovf := 0 } := by
  unfold pmcOne
  dsimp only
  split <;> rfl

theorem pmcs_same (ev add : Nat) (c k : Option Nat) (l : List Nat) (x : Tile) :
    ({ l.foldl (pmcOne ev c k add) x with pmc := [], pmovf := 0 } : Tile) = { x with pmc := [], pmovf := 0 } := by
  induction l generalizing x with
  | nil => rfl
  | cons n r ih => rw [List.foldl_cons, ih, pmcOne_same]

theorem count_tile (s : State) (t ev add j : Nat) (c k : Option Nat) :
    ({ (s.count t ev c k add).tile j with pmc := [], pmovf := 0 } : Tile) = { s.tile j with pmc := [], pmovf := 0 } := by
  unfold State.count
  split
  · rfl
  · simp only [State.updTile, State.setTile, State.tile, map_getD_put]
    split
    · subst_vars; exact pmcs_same ..
    · rfl

theorem setStat_fields (s : State) (k i : Nat) (st : NStat) : s.setStat k i st = { s with blks := (s.setStat k i st).blks } := by
  unfold State.setStat State.updBlk; split <;> rfl

theorem begun_fields (s : State) (e : Env) :
    s.begun e = { s with blks := (s.begun e).blks, tiles := (s.begun e).tiles } := by
  unfold State.begun
  rw [count_fields, setStat_fields]

@[simp] theorem begun_ctx (s : State) (e : Env) (k : Nat) : (s.begun e).ctx k = s.ctx k := by rw [begun_fields]; rfl
@[simp] theorem begun_cycle (s : State) (e : Env) : (s.begun e).cycle = s.cycle := by rw [begun_fields]
@[simp] theorem begun_waits (s : State) (e : Env) : (s.begun e).waits = s.waits := by rw [begun_fields]
@[simp] theorem begun_mem (s : State) (e : Env) : (s.begun e).mem = s.mem := by rw [begun_fields]
@[simp] theorem begun_log (s : State) (e : Env) : (s.begun e).log = s.log := by rw [begun_fields]
@[simp] theorem begun_chan (s : State) (e : Env) (k : Nat) : (s.begun e).chan k = s.chan k := by rw [begun_fields]; rfl
@[simp] theorem begun_bar (s : State) (e : Env) (k : Nat) : (s.begun e).bar k = s.bar k := by rw [begun_fields]; rfl
@[simp] theorem begun_acc (s : State) (e : Env) (k : Nat) : (s.begun e).acc k = s.acc k := by rw [begun_fields]; rfl
@[simp] theorem begun_region (s : State) (e : Env) (k : Nat) : (s.begun e).region k = s.region k := by
  rw [begun_fields]; rfl
@[simp] theorem begun_pkgcfg (s : State) (e : Env) : (s.begun e).pkgcfg = s.pkgcfg := by rw [begun_fields]

theorem begun_tile (s : State) (e : Env) (k : Nat) :
    ({ (s.begun e).tile k with pmc := [], pmovf := 0 } : Tile) = { s.tile k with pmc := [], pmovf := 0 } := by
  unfold State.begun
  rw [count_tile, setStat_fields]; rfl

@[simp] theorem begun_evstat (s : State) (e : Env) (k : Nat) : ((s.begun e).tile k).evstat = (s.tile k).evstat := by
  have := congrArg Tile.evstat (begun_tile s e k); exact this
@[simp] theorem begun_evmask (s : State) (e : Env) (k : Nat) : ((s.begun e).tile k).evmask = (s.tile k).evmask := by
  have := congrArg Tile.evmask (begun_tile s e k); exact this

/-- Its block in flight, the instruction's own progress apart. -/
theorem begun_blk {s : State} {n : Needs} {e : Env} (H : Fires s n e) :
    (s.begun e).blks.get? e.key =
      some { e.blk with nodes := e.blk.nodes.set e.idx { e.blk.node e.idx with st := .issued } } := by
  unfold State.begun
  rw [count_fields]
  simp only [State.setStat, State.updBlk, (firing_blk H.fires).1, map_get_put, if_true]

end Sys2Proof.Machine
end

