-- ==== Sys2Proof/Laws/Access.lean ====
section
/-! SUPPORT. What an M-format access does once its checks pass, and when nothing holds it back. -/

namespace Sys2Proof.Machine

/-! ## Translation -/

/-- A hit moves translations, and is counted. -/
theorem tlbLook_fields (s : State) (t asn va : Nat) (w : Bool) (cx : Option Nat) :
    (s.tlbLook t asn va w cx).2 =
      { s with tiles := (s.tlbLook t asn va w cx).2.tiles, dieTlb := (s.tlbLook t asn va w cx).2.dieTlb } := by
  unfold State.tlbLook State.tlbFill State.dieFill State.updTile State.setTile
  dsimp only
  split
  · rfl
  · split
    · rw [count_fields]
    · rfl

theorem translate_fields (s : State) (t part : Nat) (va : W64) (u : Use) :
    (s.translate t part va u).2 = { s with tiles := (s.translate t part va u).2.tiles, dieTlb := (s.translate t part va u).2.dieTlb } := by
  unfold State.translate
  dsimp only
  split
  · rfl
  · split
    · rfl
    · have := tlbLook_fields s t ‹_› va.toNat u.wr ((s.owner u).map Prod.fst)
      split
      · rename_i h; rw [h] at this; split <;> exact this
      · rename_i h; rw [h] at this; exact this

/-- Having begun, an instruction finds what it found before. -/
theorem begun_translate (s : State) (e : Env) (t part : Nat) (va : W64) (u : Use) :
    ((s.begun e).translate t part va u).1 = (s.translate t part va u).1 := by
  have ht : ((s.begun e).tile t).tlb = (s.tile t).tlb := by
    have := congrArg Tile.tlb (begun_tile s e t); exact this
  have hd : (s.begun e).dieTlb = s.dieTlb := by rw [begun_fields]
  have ha : (s.begun e).asnOf part = s.asnOf part := by rw [begun_fields]; rfl
  have ho : (s.begun e).owner u = s.owner u := by rw [begun_fields]; rfl
  have hl : ∀ asn w cx, ((s.begun e).tlbLook t asn va.toNat w cx).1 = (s.tlbLook t asn va.toNat w cx).1 := by
    intro asn w cx
    unfold State.tlbLook
    simp only [ht, hd]
    split
    · rfl
    · split <;> rfl
  have hc : ∀ (x : State) (y : TlbEnt), x.expCap = s.expCap → x.leafCheck y va.toNat u = s.leafCheck y va.toNat u := by
    intro x y h
    unfold State.leafCheck State.paKind
    rw [h]
  have hx : ∀ (z : State) asn w cx, ((z.tlbLook t asn va.toNat w cx).2).expCap = z.expCap := by
    intro z asn w cx; rw [tlbLook_fields]
  unfold State.translate
  simp only [ha, ho]
  cases s.asnOf part with
  | none => rfl
  | some asn =>
    dsimp only
    split
    · rfl
    · generalize (s.owner u).map Prod.fst = cx
      have h1 := hl asn u.wr cx
      have h2 := hx (s.begun e) asn u.wr cx
      have h3 := hx s asn u.wr cx
      rw [show (s.begun e).expCap = s.expCap by rw [begun_fields]] at h2
      generalize (s.begun e).tlbLook t asn va.toNat u.wr cx = x at *
      generalize s.tlbLook t asn va.toNat u.wr cx = y at *
      obtain ⟨x1, x2⟩ := x
      obtain ⟨y1, y2⟩ := y
      dsimp only at h1 h2 h3
      subst h1
      cases x1 with
      | none => rfl
      | some a =>
        dsimp only
        rw [hc x2 a h2, hc y2 a h3]
        split <;> rfl

/-! ## Traffic -/

theorem OnlyTraffic.refl (s : State) : OnlyTraffic s s := ⟨fun _ => rfl, rfl⟩

theorem OnlyTraffic.trans {s t u : State} (h : OnlyTraffic s t) (k : OnlyTraffic t u) : OnlyTraffic s u :=
  ⟨fun n => (k.tiles n).trans (h.tiles n), k.rest.trans h.rest⟩

theorem OnlyTraffic.acquire (s : State) (t scope : Nat) : OnlyTraffic s (s.cacheAcquire t scope) := by
  unfold State.cacheAcquire; split <;> exact ⟨fun _ => rfl, rfl⟩

theorem OnlyTraffic.fill (s : State) (t line : Nat) (w : Bool) : OnlyTraffic s (s.cacheFill t line w) :=
  ⟨fun _ => rfl, rfl⟩

theorem OnlyTraffic.count (s : State) (t ev add : Nat) (c k : Option Nat) : OnlyTraffic s (s.count t ev c k add) := by
  refine ⟨fun n => ?_, ?_⟩
  · exact congrArg (fun (x : Tile) => ({ x with mesh := {}, ring := {}, tlb := [] } : Tile)) (count_tile s t ev add n c k)
  · rw [count_fields]

/-- An update of one tile's ports and translations. -/
theorem OnlyTraffic.updTile (s : State) (t : Nat) (f : Tile → Tile)
    (h : ({ f (s.tile t) with mesh := {}, ring := {}, tlb := [], pmc := [], pmovf := 0 } : Tile) =
      { s.tile t with mesh := {}, ring := {}, tlb := [], pmc := [], pmovf := 0 }) : OnlyTraffic s (s.updTile t f) := by
  refine ⟨fun n => ?_, rfl⟩
  simp only [State.updTile, State.setTile, State.tile, map_getD_put]
  split
  · subst_vars; exact h
  · rfl

theorem OnlyTraffic.meter (s : State) (t cls bytes flits : Nat) (ring : Bool) :
    OnlyTraffic s (s.meter t ring cls bytes flits) := by
  unfold State.meter; exact .updTile _ _ _ (by cases ring <;> rfl)

theorem OnlyTraffic.slow (s : State) (cls bytes : Nat) : OnlyTraffic s (s.meterSlow cls bytes) := ⟨fun _ => rfl, rfl⟩

theorem OnlyTraffic.device (s : State) (t flits : Nat) : OnlyTraffic s (s.device t flits) := .updTile _ _ _ rfl

theorem OnlyTraffic.slice (s : State) (t : Option Nat) (pa : Nat) (w al : Bool) (cx : Option Nat) :
    OnlyTraffic s (s.reqSlice t pa w al cx) := by
  have h : ∀ k v n m, OnlyTraffic s ((s.setSlice k v).device n m) := fun k v n m =>
    OnlyTraffic.trans (t := s.setSlice k v) ⟨fun _ => rfl, rfl⟩ (.device ..)
  unfold State.reqSlice
  cases t with
  | none => exact h _ _ _ _
  | some t => dsimp only; split
              · exact (h _ _ _ _).trans (.count ..)
              · exact h _ _ _ _

/-- Steps that each only move traffic. -/
theorem OnlyTraffic.fold {α : Type} (f : State → α → State) (h : ∀ s x, OnlyTraffic s (f s x)) (l : List α) (s : State) :
    OnlyTraffic s (l.foldl f s) := by
  induction l generalizing s with
  | nil => exact .refl s
  | cons x r ih => exact (h s x).trans (ih _)

theorem OnlyTraffic.meshReq (s : State) (t : Nat) (own : Option (Nat × Nat)) (n : Nat) (wr : Bool) :
    OnlyTraffic s (s.meshReq t own n wr) := by
  unfold State.meshReq
  split
  · exact .fold _ (fun _ _ => .meter ..) _ _
  · exact .device ..

/-- What an access sends. -/
theorem OnlyTraffic.traffic (s : State) (t : Nat) (own : Option (Nat × Nat)) (tr : Tr) (n : Nat) (wr : Bool) :
    OnlyTraffic s (s.traffic t own tr n wr) := by
  unfold State.traffic
  split
  · split
    · exact .refl s
    · exact (OnlyTraffic.meshReq ..).trans (.device ..)
  · dsimp only
    split
    · exact (OnlyTraffic.meshReq ..).trans (.fold _ (fun _ _ => .slice ..) _ _)
    · exact .meshReq ..
  · exact .meshReq ..
  · exact .refl s

/-- A line reached as before is noted, and nothing else. -/
theorem OnlyTraffic.wayTouch (s : State) (tr : Tr) (n : Nat) (h : OneWay s tr n) : OnlyTraffic s (s.wayTouch tr n) := by
  unfold State.wayTouch
  split
  · next hk =>
    have hw := h hk
    generalize linesOf tr.pa n = ls at hw
    clear h hk
    induction ls generalizing s with
    | nil => exact .refl s
    | cons l r ih =>
      have hl := hw l (by simp)
      have hr := fun x hx => hw x (List.mem_cons_of_mem l hx)
      rw [List.foldl_cons]
      refine OnlyTraffic.trans (t := s.wayLine (wayOf tr) l) ?_ (ih _ ?_)
      · unfold State.wayLine
        obtain h | h := hl
        · simp only [h, if_true]; split
          · exact .refl s
          · exact ⟨fun _ => rfl, rfl⟩
        · simp only [h, if_true]; exact .refl s
      · intro x hx
        unfold State.wayLine
        obtain h | h := hl
        · simp only [h, if_true]; split
          · exact hr x hx
          · rw [map_getD_put]
            split
            · exact .inr rfl
            · exact hr x hx
        · simp only [h, if_true]; exact hr x hx
  · exact .refl s

theorem OnlyTraffic.translate (s : State) (t part : Nat) (va : W64) (u : Use) :
    OnlyTraffic s (s.translate t part va u).2 := by
  have hl : ∀ asn va w cx, OnlyTraffic s (s.tlbLook t asn va w cx).2 := by
    intro asn va w cx
    have hf : ∀ (z : State) e, OnlyTraffic z (z.tlbFill t e) := fun z e => .updTile _ _ _ rfl
    have hd : ∀ (z : State) d e, OnlyTraffic z (z.dieFill d e) := fun z d e => ⟨fun _ => rfl, rfl⟩
    unfold State.tlbLook
    dsimp only
    split
    · exact hf ..
    · split
      · exact ((hd ..).trans (hf ..)).trans (.count ..)
      · exact .refl s
  unfold State.translate
  dsimp only
  split
  · exact .refl s
  · split
    · exact .refl s
    · rename_i asn _ _
      have := hl asn va.toNat u.wr ((s.owner u).map Prod.fst)
      split
      · rename_i h; rw [h] at this; split <;> exact this
      · rename_i h; rw [h] at this; exact this

/-! ## An access of the M format -/

/-- The machine once an access that begins has found its page. -/
def State.found (s : State) (e : Env) (m : MFmt) (use : Bool → Use) : State :=
  ((s.begun e).translate e.tile (s.ctx e.key).part (mAddr e m) (use (s.ctx e.key).sup)).2

theorem found_traffic (s : State) (e : Env) (m : MFmt) (use : Bool → Use) :
    OnlyTraffic (s.begun e) (s.found e m use) := .translate ..

theorem found_fields (s : State) (e : Env) (m : MFmt) (use : Bool → Use) :
    s.found e m use = { s.begun e with tiles := (s.found e m use).tiles, dieTlb := (s.found e m use).dieTlb } :=
  translate_fields ..

theorem found_window (s : State) (e : Env) (m : MFmt) (use : Bool → Use) (pa : Nat) :
    (s.found e m use).paKind pa = s.paKind pa := by
  rw [found_fields, begun_fields]; rfl

/-- An access whose checks pass goes on at the address it reached. -/
theorem checkedM_of {s : State} {e : Env} {m : MFmt} {size : Nat} {use : Bool → Use} {bank : BankUse} {tr : Tr}
    (R : Reaches s e m size use bank tr) (go : Tr → W64 → State → State) :
    checkedM m size use bank e (s.begun e) go = go tr (mAddr e m) (s.found e m use) := by
  have hf : (s.begun e).translate e.tile (s.ctx e.key).part (mAddr e m) (use (s.ctx e.key).sup) =
      (.ok tr, s.found e m use) := by
    rw [State.found, ← R.found, ← begun_translate]
  have hw := R.window
  have hb := R.bank
  have hp : ∀ a b c d f, (s.found e m use).winPerm a b c d f = s.winPerm a b c d f := by
    intro a b c d f
    have ht : ((s.found e m use).tile (a / 16)).frameva = (s.tile (a / 16)).frameva := by
      have h1 := congrArg Tile.frameva ((found_traffic s e m use).tiles (a / 16))
      have h2 := congrArg Tile.frameva (begun_tile s e (a / 16))
      exact Eq.trans h1 h2
    have hc : (s.found e m use).ctx a = s.ctx a := by rw [found_fields]; exact begun_ctx s e a
    unfold State.winPerm; rw [ht, hc]
  have hr : (s.found e m use).bankCheck (mAddr e m).toNat tr.pa bank = s.bankCheck (mAddr e m).toNat tr.pa bank := by
    have ht : ∀ k n, (s.found e m use).role k n = s.role k n := by
      intro k n
      unfold State.role
      have h1 : ((s.found e m use).tile k).bankrole = (s.tile k).bankrole := by
        have h1 := congrArg Tile.bankrole ((found_traffic s e m use).tiles k)
        have h2 := congrArg Tile.bankrole (begun_tile s e k)
        exact Eq.trans h1 h2
      rw [h1]
    unfold State.bankCheck
    simp only [found_window, ht]
  simp only [checkedM, begun_ctx, misaligned, R.aligned, ne_eq, not_true_eq_false, decide_false, hf, found_window, hp, hr, hb]
  cases hk : s.paKind tr.pa with
  | window wt off =>
    obtain ⟨h1, h2⟩ := hw wt off hk
    simp only [h1, Bool.not_true, Bool.false_or, Bool.false_eq_true, if_false]
    rw [if_neg]
    intro hc
    simp only [Bool.and_eq_true, decide_eq_true_eq] at hc
    obtain h | h := h2 hc.1.1
    · rw [h] at hc; exact absurd hc.1.2 (by decide)
    · rw [h] at hc; exact absurd hc.2 (by decide)
  | hbm => simp [State.winPerm, supWindow]
  | slow n => simp [State.winPerm, supWindow]
  | hole => simp [State.winPerm, supWindow]

/-- Nothing holds back an access that program order lets through, whose page is found, and whose home is not busy. -/
theorem holdM_none {s : State} {e : Env} {m : MFmt} {size : Nat} {use : Bool → Use} {bank : BankUse} {tr : Tr}
    {read rel : Bool} {busy : Tr → State → Bool} (O : Free s e m read rel tr) (R : Reaches s e m size use bank tr)
    (B : busy tr s = false) : holdM m size use read rel e s busy = none := by
  have hh := R.found
  have ho := O.order
  unfold Finds at hh
  unfold Ordered at ho
  simp only [holdM, ho, misaligned, R.aligned]
  generalize s.translate e.tile (s.ctx e.key).part (mAddr e m) (use (s.ctx e.key).sup) = x at hh ⊢
  obtain ⟨r, u⟩ := x
  dsimp only at hh
  subst hh
  simp [O.window, B]

/-- An access that reached its page left the block in flight as it was. -/
theorem found_blks (s : State) (e : Env) (m : MFmt) (use : Bool → Use) : (s.found e m use).blks = (s.begun e).blks := by
  rw [found_fields]

/-! ## Plain loads -/

theorem OnlyTraffic.loadHbm (s : State) (key n : Nat) (tr : Tr) (h : OneWay s tr n) :
    OnlyTraffic s (s.loadHbm key tr n).2 := by
  unfold State.loadHbm
  dsimp only
  split
  · exact .wayTouch s tr n h
  · split
    · exact ((OnlyTraffic.wayTouch s tr n h).trans (.traffic ..)).trans (.fill ..)
    · exact (OnlyTraffic.wayTouch s tr n h).trans (.traffic ..)

end Sys2Proof.Machine
end

