-- ==== Sys2Proof/Laws/State.lean ====
section
/-! SUPPORT. What each update of the state leaves: the entry written, and every other field and entry as it was. -/

namespace Sys2Proof.Machine

/-! ## The entry written -/

theorem setCtx_ctx (s : State) (k j : Nat) (x : Ctx) : (s.setCtx k x).ctx j = if k = j then x else s.ctx j :=
  map_getD_put _ _ _ _ _
@[simp] theorem setCtx_ctx_same (s : State) (k : Nat) (x : Ctx) : (s.setCtx k x).ctx k = x := by rw [setCtx_ctx, if_pos rfl]
theorem setTile_tile (s : State) (k j : Nat) (x : Tile) : (s.setTile k x).tile j = if k = j then x else s.tile j :=
  map_getD_put _ _ _ _ _
@[simp] theorem setTile_tile_same (s : State) (k : Nat) (x : Tile) : (s.setTile k x).tile k = x := by rw [setTile_tile, if_pos rfl]
theorem setRegion_region (s : State) (k j : Nat) (x : Region) : (s.setRegion k x).region j = if k = j then x else s.region j :=
  map_getD_put _ _ _ _ _
@[simp] theorem setRegion_region_same (s : State) (k : Nat) (x : Region) : (s.setRegion k x).region k = x := by rw [setRegion_region, if_pos rfl]
theorem setElem_elem (s : State) (k j : Nat) (x : Elem) : (s.setElem k x).elem j = if k = j then x else s.elem j :=
  map_getD_put _ _ _ _ _
@[simp] theorem setElem_elem_same (s : State) (k : Nat) (x : Elem) : (s.setElem k x).elem k = x := by rw [setElem_elem, if_pos rfl]
theorem setAcc_acc (s : State) (k j : Nat) (x : Acc) : (s.setAcc k x).acc j = if k = j then x else s.acc j :=
  map_getD_put _ _ _ _ _
@[simp] theorem setAcc_acc_same (s : State) (k : Nat) (x : Acc) : (s.setAcc k x).acc k = x := by rw [setAcc_acc, if_pos rfl]
theorem setChan_chan (s : State) (k j : Nat) (x : Chan) : (s.setChan k x).chan j = if k = j then x else s.chan j :=
  map_getD_put _ _ _ _ _
@[simp] theorem setChan_chan_same (s : State) (k : Nat) (x : Chan) : (s.setChan k x).chan k = x := by rw [setChan_chan, if_pos rfl]
theorem setBar_bar (s : State) (k j : Nat) (x : List W64) : (s.setBar k x).bar j = if k = j then x else s.bar j :=
  map_getD_put _ _ _ _ _
@[simp] theorem setBar_bar_same (s : State) (k : Nat) (x : List W64) : (s.setBar k x).bar k = x := by rw [setBar_bar, if_pos rfl]
theorem setSlice_slice (s : State) (k j : Nat) (x : Slice) : (s.setSlice k x).slice j = if k = j then x else s.slice j :=
  map_getD_put _ _ _ _ _
@[simp] theorem setSlice_slice_same (s : State) (k : Nat) (x : Slice) : (s.setSlice k x).slice k = x := by rw [setSlice_slice, if_pos rfl]
theorem setQueue_queueE (s : State) (k j : Nat) (x : List W64) : (s.setQueue k x).queueE j = if k = j then x else s.queueE j :=
  map_getD_put _ _ _ _ _
@[simp] theorem setQueue_queueE_same (s : State) (k : Nat) (x : List W64) : (s.setQueue k x).queueE k = x := by rw [setQueue_queueE, if_pos rfl]
theorem setDep_get (s : State) (k j : Nat) (x : Dep) : (s.setDep k x).deps.get? j = if k = j then some x else s.deps.get? j :=
  map_get_put _ _ _ _
theorem setMsg_get (s : State) (k j : Nat) (x : Msg) : (s.setMsg k x).msgs.get? j = if k = j then some x else s.msgs.get? j :=
  map_get_put _ _ _ _

theorem updCtx_ctx (s : State) (k j : Nat) (f : Ctx → Ctx) : (s.updCtx k f).ctx j = if k = j then f (s.ctx k) else s.ctx j :=
  setCtx_ctx _ _ _ _
theorem updTile_tile (s : State) (k j : Nat) (f : Tile → Tile) : (s.updTile k f).tile j = if k = j then f (s.tile k) else s.tile j :=
  setTile_tile _ _ _ _
theorem updRegion_region (s : State) (k j : Nat) (f : Region → Region) :
    (s.updRegion k f).region j = if k = j then f (s.region k) else s.region j := setRegion_region _ _ _ _
theorem updAcc_acc (s : State) (k j : Nat) (f : Acc → Acc) : (s.updAcc k f).acc j = if k = j then f (s.acc k) else s.acc j :=
  setAcc_acc _ _ _ _

/-! ## setCtx -/

@[simp] theorem setCtx_powered (s : State) (k : Nat) (x : Ctx) : (s.setCtx k x).powered = s.powered := rfl
@[simp] theorem setCtx_level (s : State) (k : Nat) (x : Ctx) : (s.setCtx k x).level = s.level := rfl
@[simp] theorem setCtx_cycle (s : State) (k : Nat) (x : Ctx) : (s.setCtx k x).cycle = s.cycle := rfl
@[simp] theorem setCtx_tilesSince (s : State) (k : Nat) (x : Ctx) : (s.setCtx k x).tilesSince = s.tilesSince := rfl
@[simp] theorem setCtx_mem (s : State) (k : Nat) (x : Ctx) : (s.setCtx k x).mem = s.mem := rfl
@[simp] theorem setCtx_log (s : State) (k : Nat) (x : Ctx) : (s.setCtx k x).log = s.log := rfl
@[simp] theorem setCtx_agenda (s : State) (k : Nat) (x : Ctx) : (s.setCtx k x).agenda = s.agenda := rfl
@[simp] theorem setCtx_focus (s : State) (k : Nat) (x : Ctx) : (s.setCtx k x).focus = s.focus := rfl
@[simp] theorem setCtx_csrNow (s : State) (k : Nat) (x : Ctx) : (s.setCtx k x).csrNow = s.csrNow := rfl
@[simp] theorem setCtx_chanEnds (s : State) (k : Nat) (x : Ctx) : (s.setCtx k x).chanEnds = s.chanEnds := rfl
@[simp] theorem setCtx_freeCtr (s : State) (k : Nat) (x : Ctx) : (s.setCtx k x).freeCtr = s.freeCtr := rfl
@[simp] theorem setCtx_nextId (s : State) (k : Nat) (x : Ctx) : (s.setCtx k x).nextId = s.nextId := rfl
@[simp] theorem setCtx_full (s : State) (k : Nat) (x : Ctx) : (s.setCtx k x).full = s.full := rfl
@[simp] theorem setCtx_poison (s : State) (k : Nat) (x : Ctx) : (s.setCtx k x).poison = s.poison := rfl
@[simp] theorem setCtx_ueLines (s : State) (k : Nat) (x : Ctx) : (s.setCtx k x).ueLines = s.ueLines := rfl
@[simp] theorem setCtx_poisonPages (s : State) (k : Nat) (x : Ctx) : (s.setCtx k x).poisonPages = s.poisonPages := rfl
@[simp] theorem setCtx_blks (s : State) (k : Nat) (x : Ctx) : (s.setCtx k x).blks = s.blks := rfl
@[simp] theorem setCtx_waits (s : State) (k : Nat) (x : Ctx) : (s.setCtx k x).waits = s.waits := rfl
@[simp] theorem setCtx_tiles (s : State) (k : Nat) (x : Ctx) : (s.setCtx k x).tiles = s.tiles := rfl
@[simp] theorem setCtx_regions (s : State) (k : Nat) (x : Ctx) : (s.setCtx k x).regions = s.regions := rfl
@[simp] theorem setCtx_elems (s : State) (k : Nat) (x : Ctx) : (s.setCtx k x).elems = s.elems := rfl
@[simp] theorem setCtx_accs (s : State) (k : Nat) (x : Ctx) : (s.setCtx k x).accs = s.accs := rfl
@[simp] theorem setCtx_chans (s : State) (k : Nat) (x : Ctx) : (s.setCtx k x).chans = s.chans := rfl
@[simp] theorem setCtx_bars (s : State) (k : Nat) (x : Ctx) : (s.setCtx k x).bars = s.bars := rfl
@[simp] theorem setCtx_tcache (s : State) (k : Nat) (x : Ctx) : (s.setCtx k x).tcache = s.tcache := rfl
@[simp] theorem setCtx_ways (s : State) (k : Nat) (x : Ctx) : (s.setCtx k x).ways = s.ways := rfl
@[simp] theorem setCtx_slices (s : State) (k : Nat) (x : Ctx) : (s.setCtx k x).slices = s.slices := rfl
@[simp] theorem setCtx_dieTlb (s : State) (k : Nat) (x : Ctx) : (s.setCtx k x).dieTlb = s.dieTlb := rfl
@[simp] theorem setCtx_walks (s : State) (k : Nat) (x : Ctx) : (s.setCtx k x).walks = s.walks := rfl
@[simp] theorem setCtx_wq (s : State) (k : Nat) (x : Ctx) : (s.setCtx k x).wq = s.wq := rfl
@[simp] theorem setCtx_deps (s : State) (k : Nat) (x : Ctx) : (s.setCtx k x).deps = s.deps := rfl
@[simp] theorem setCtx_carried (s : State) (k : Nat) (x : Ctx) : (s.setCtx k x).carried = s.carried := rfl
@[simp] theorem setCtx_tasks (s : State) (k : Nat) (x : Ctx) : (s.setCtx k x).tasks = s.tasks := rfl
@[simp] theorem setCtx_parts (s : State) (k : Nat) (x : Ctx) : (s.setCtx k x).parts = s.parts := rfl
@[simp] theorem setCtx_saveUsed (s : State) (k : Nat) (x : Ctx) : (s.setCtx k x).saveUsed = s.saveUsed := rfl
@[simp] theorem setCtx_fqWait (s : State) (k : Nat) (x : Ctx) : (s.setCtx k x).fqWait = s.fqWait := rfl
@[simp] theorem setCtx_regclass (s : State) (k : Nat) (x : Ctx) : (s.setCtx k x).regclass = s.regclass := rfl
@[simp] theorem setCtx_regEff (s : State) (k : Nat) (x : Ctx) : (s.setCtx k x).regEff = s.regEff := rfl
@[simp] theorem setCtx_pkgcfg (s : State) (k : Nat) (x : Ctx) : (s.setCtx k x).pkgcfg = s.pkgcfg := rfl
@[simp] theorem setCtx_slowTok (s : State) (k : Nat) (x : Ctx) : (s.setCtx k x).slowTok = s.slowTok := rfl
@[simp] theorem setCtx_slowq (s : State) (k : Nat) (x : Ctx) : (s.setCtx k x).slowq = s.slowq := rfl
@[simp] theorem setCtx_stackErr (s : State) (k : Nat) (x : Ctx) : (s.setCtx k x).stackErr = s.stackErr := rfl
@[simp] theorem setCtx_pfxcoll (s : State) (k : Nat) (x : Ctx) : (s.setCtx k x).pfxcoll = s.pfxcoll := rfl
@[simp] theorem setCtx_mbox (s : State) (k : Nat) (x : Ctx) : (s.setCtx k x).mbox = s.mbox := rfl
@[simp] theorem setCtx_hostIn (s : State) (k : Nat) (x : Ctx) : (s.setCtx k x).hostIn = s.hostIn := rfl
@[simp] theorem setCtx_msgs (s : State) (k : Nat) (x : Ctx) : (s.setCtx k x).msgs = s.msgs := rfl
@[simp] theorem setCtx_pkts (s : State) (k : Nat) (x : Ctx) : (s.setCtx k x).pkts = s.pkts := rfl
@[simp] theorem setCtx_grants (s : State) (k : Nat) (x : Ctx) : (s.setCtx k x).grants = s.grants := rfl
@[simp] theorem setCtx_rembars (s : State) (k : Nat) (x : Ctx) : (s.setCtx k x).rembars = s.rembars := rfl
@[simp] theorem setCtx_outbox (s : State) (k : Nat) (x : Ctx) : (s.setCtx k x).outbox = s.outbox := rfl
@[simp] theorem setCtx_inbox (s : State) (k : Nat) (x : Ctx) : (s.setCtx k x).inbox = s.inbox := rfl
@[simp] theorem setCtx_moves (s : State) (k : Nat) (x : Ctx) : (s.setCtx k x).moves = s.moves := rfl
@[simp] theorem setCtx_poolPages (s : State) (k : Nat) (x : Ctx) : (s.setCtx k x).poolPages = s.poolPages := rfl
@[simp] theorem setCtx_pfxOf (s : State) (k : Nat) (x : Ctx) : (s.setCtx k x).pfxOf = s.pfxOf := rfl
@[simp] theorem setCtx_cfgWait (s : State) (k : Nat) (x : Ctx) : (s.setCtx k x).cfgWait = s.cfgWait := rfl
@[simp] theorem setCtx_rr (s : State) (k : Nat) (x : Ctx) : (s.setCtx k x).rr = s.rr := rfl
@[simp] theorem setCtx_rrPart (s : State) (k : Nat) (x : Ctx) : (s.setCtx k x).rrPart = s.rrPart := rfl
@[simp] theorem setCtx_failedPorts (s : State) (k : Nat) (x : Ctx) : (s.setCtx k x).failedPorts = s.failedPorts := rfl
@[simp] theorem setCtx_failedLinks (s : State) (k : Nat) (x : Ctx) : (s.setCtx k x).failedLinks = s.failedLinks := rfl
@[simp] theorem setCtx_failedStacks (s : State) (k : Nat) (x : Ctx) : (s.setCtx k x).failedStacks = s.failedStacks := rfl
@[simp] theorem setCtx_fwStaged (s : State) (k : Nat) (x : Ctx) : (s.setCtx k x).fwStaged = s.fwStaged := rfl
@[simp] theorem setCtx_fwRun (s : State) (k : Nat) (x : Ctx) : (s.setCtx k x).fwRun = s.fwRun := rfl
@[simp] theorem setCtx_leaf (s : State) (k : Nat) (x : Ctx) : (s.setCtx k x).leaf = s.leaf := rfl
@[simp] theorem setCtx_fuse (s : State) (k : Nat) (x : Ctx) : (s.setCtx k x).fuse = s.fuse := rfl
@[simp] theorem setCtx_expCap (s : State) (k : Nat) (x : Ctx) : (s.setCtx k x).expCap = s.expCap := rfl
@[simp] theorem setCtx_power (s : State) (k : Nat) (x : Ctx) : (s.setCtx k x).power = s.power := rfl
@[simp] theorem setCtx_temps (s : State) (k : Nat) (x : Ctx) : (s.setCtx k x).temps = s.temps := rfl
@[simp] theorem setCtx_tile (s : State) (k j : Nat) (x : Ctx) : (s.setCtx k x).tile j = s.tile j := rfl
@[simp] theorem setCtx_region (s : State) (k j : Nat) (x : Ctx) : (s.setCtx k x).region j = s.region j := rfl
@[simp] theorem setCtx_elem (s : State) (k j : Nat) (x : Ctx) : (s.setCtx k x).elem j = s.elem j := rfl
@[simp] theorem setCtx_acc (s : State) (k j : Nat) (x : Ctx) : (s.setCtx k x).acc j = s.acc j := rfl
@[simp] theorem setCtx_chan (s : State) (k j : Nat) (x : Ctx) : (s.setCtx k x).chan j = s.chan j := rfl
@[simp] theorem setCtx_bar (s : State) (k j : Nat) (x : Ctx) : (s.setCtx k x).bar j = s.bar j := rfl
@[simp] theorem setCtx_slice (s : State) (k j : Nat) (x : Ctx) : (s.setCtx k x).slice j = s.slice j := rfl
@[simp] theorem setCtx_queueE (s : State) (k j : Nat) (x : Ctx) : (s.setCtx k x).queueE j = s.queueE j := rfl

/-! ## setTile -/

@[simp] theorem setTile_powered (s : State) (k : Nat) (x : Tile) : (s.setTile k x).powered = s.powered := rfl
@[simp] theorem setTile_level (s : State) (k : Nat) (x : Tile) : (s.setTile k x).level = s.level := rfl
@[simp] theorem setTile_cycle (s : State) (k : Nat) (x : Tile) : (s.setTile k x).cycle = s.cycle := rfl
@[simp] theorem setTile_tilesSince (s : State) (k : Nat) (x : Tile) : (s.setTile k x).tilesSince = s.tilesSince := rfl
@[simp] theorem setTile_mem (s : State) (k : Nat) (x : Tile) : (s.setTile k x).mem = s.mem := rfl
@[simp] theorem setTile_log (s : State) (k : Nat) (x : Tile) : (s.setTile k x).log = s.log := rfl
@[simp] theorem setTile_agenda (s : State) (k : Nat) (x : Tile) : (s.setTile k x).agenda = s.agenda := rfl
@[simp] theorem setTile_focus (s : State) (k : Nat) (x : Tile) : (s.setTile k x).focus = s.focus := rfl
@[simp] theorem setTile_csrNow (s : State) (k : Nat) (x : Tile) : (s.setTile k x).csrNow = s.csrNow := rfl
@[simp] theorem setTile_chanEnds (s : State) (k : Nat) (x : Tile) : (s.setTile k x).chanEnds = s.chanEnds := rfl
@[simp] theorem setTile_freeCtr (s : State) (k : Nat) (x : Tile) : (s.setTile k x).freeCtr = s.freeCtr := rfl
@[simp] theorem setTile_nextId (s : State) (k : Nat) (x : Tile) : (s.setTile k x).nextId = s.nextId := rfl
@[simp] theorem setTile_full (s : State) (k : Nat) (x : Tile) : (s.setTile k x).full = s.full := rfl
@[simp] theorem setTile_poison (s : State) (k : Nat) (x : Tile) : (s.setTile k x).poison = s.poison := rfl
@[simp] theorem setTile_ueLines (s : State) (k : Nat) (x : Tile) : (s.setTile k x).ueLines = s.ueLines := rfl
@[simp] theorem setTile_poisonPages (s : State) (k : Nat) (x : Tile) : (s.setTile k x).poisonPages = s.poisonPages := rfl
@[simp] theorem setTile_ctxs (s : State) (k : Nat) (x : Tile) : (s.setTile k x).ctxs = s.ctxs := rfl
@[simp] theorem setTile_blks (s : State) (k : Nat) (x : Tile) : (s.setTile k x).blks = s.blks := rfl
@[simp] theorem setTile_waits (s : State) (k : Nat) (x : Tile) : (s.setTile k x).waits = s.waits := rfl
@[simp] theorem setTile_regions (s : State) (k : Nat) (x : Tile) : (s.setTile k x).regions = s.regions := rfl
@[simp] theorem setTile_elems (s : State) (k : Nat) (x : Tile) : (s.setTile k x).elems = s.elems := rfl
@[simp] theorem setTile_accs (s : State) (k : Nat) (x : Tile) : (s.setTile k x).accs = s.accs := rfl
@[simp] theorem setTile_chans (s : State) (k : Nat) (x : Tile) : (s.setTile k x).chans = s.chans := rfl
@[simp] theorem setTile_bars (s : State) (k : Nat) (x : Tile) : (s.setTile k x).bars = s.bars := rfl
@[simp] theorem setTile_tcache (s : State) (k : Nat) (x : Tile) : (s.setTile k x).tcache = s.tcache := rfl
@[simp] theorem setTile_ways (s : State) (k : Nat) (x : Tile) : (s.setTile k x).ways = s.ways := rfl
@[simp] theorem setTile_slices (s : State) (k : Nat) (x : Tile) : (s.setTile k x).slices = s.slices := rfl
@[simp] theorem setTile_dieTlb (s : State) (k : Nat) (x : Tile) : (s.setTile k x).dieTlb = s.dieTlb := rfl
@[simp] theorem setTile_walks (s : State) (k : Nat) (x : Tile) : (s.setTile k x).walks = s.walks := rfl
@[simp] theorem setTile_wq (s : State) (k : Nat) (x : Tile) : (s.setTile k x).wq = s.wq := rfl
@[simp] theorem setTile_deps (s : State) (k : Nat) (x : Tile) : (s.setTile k x).deps = s.deps := rfl
@[simp] theorem setTile_carried (s : State) (k : Nat) (x : Tile) : (s.setTile k x).carried = s.carried := rfl
@[simp] theorem setTile_tasks (s : State) (k : Nat) (x : Tile) : (s.setTile k x).tasks = s.tasks := rfl
@[simp] theorem setTile_parts (s : State) (k : Nat) (x : Tile) : (s.setTile k x).parts = s.parts := rfl
@[simp] theorem setTile_saveUsed (s : State) (k : Nat) (x : Tile) : (s.setTile k x).saveUsed = s.saveUsed := rfl
@[simp] theorem setTile_fqWait (s : State) (k : Nat) (x : Tile) : (s.setTile k x).fqWait = s.fqWait := rfl
@[simp] theorem setTile_regclass (s : State) (k : Nat) (x : Tile) : (s.setTile k x).regclass = s.regclass := rfl
@[simp] theorem setTile_regEff (s : State) (k : Nat) (x : Tile) : (s.setTile k x).regEff = s.regEff := rfl
@[simp] theorem setTile_pkgcfg (s : State) (k : Nat) (x : Tile) : (s.setTile k x).pkgcfg = s.pkgcfg := rfl
@[simp] theorem setTile_slowTok (s : State) (k : Nat) (x : Tile) : (s.setTile k x).slowTok = s.slowTok := rfl
@[simp] theorem setTile_slowq (s : State) (k : Nat) (x : Tile) : (s.setTile k x).slowq = s.slowq := rfl
@[simp] theorem setTile_stackErr (s : State) (k : Nat) (x : Tile) : (s.setTile k x).stackErr = s.stackErr := rfl
@[simp] theorem setTile_pfxcoll (s : State) (k : Nat) (x : Tile) : (s.setTile k x).pfxcoll = s.pfxcoll := rfl
@[simp] theorem setTile_mbox (s : State) (k : Nat) (x : Tile) : (s.setTile k x).mbox = s.mbox := rfl
@[simp] theorem setTile_hostIn (s : State) (k : Nat) (x : Tile) : (s.setTile k x).hostIn = s.hostIn := rfl
@[simp] theorem setTile_msgs (s : State) (k : Nat) (x : Tile) : (s.setTile k x).msgs = s.msgs := rfl
@[simp] theorem setTile_pkts (s : State) (k : Nat) (x : Tile) : (s.setTile k x).pkts = s.pkts := rfl
@[simp] theorem setTile_grants (s : State) (k : Nat) (x : Tile) : (s.setTile k x).grants = s.grants := rfl
@[simp] theorem setTile_rembars (s : State) (k : Nat) (x : Tile) : (s.setTile k x).rembars = s.rembars := rfl
@[simp] theorem setTile_outbox (s : State) (k : Nat) (x : Tile) : (s.setTile k x).outbox = s.outbox := rfl
@[simp] theorem setTile_inbox (s : State) (k : Nat) (x : Tile) : (s.setTile k x).inbox = s.inbox := rfl
@[simp] theorem setTile_moves (s : State) (k : Nat) (x : Tile) : (s.setTile k x).moves = s.moves := rfl
@[simp] theorem setTile_poolPages (s : State) (k : Nat) (x : Tile) : (s.setTile k x).poolPages = s.poolPages := rfl
@[simp] theorem setTile_pfxOf (s : State) (k : Nat) (x : Tile) : (s.setTile k x).pfxOf = s.pfxOf := rfl
@[simp] theorem setTile_cfgWait (s : State) (k : Nat) (x : Tile) : (s.setTile k x).cfgWait = s.cfgWait := rfl
@[simp] theorem setTile_rr (s : State) (k : Nat) (x : Tile) : (s.setTile k x).rr = s.rr := rfl
@[simp] theorem setTile_rrPart (s : State) (k : Nat) (x : Tile) : (s.setTile k x).rrPart = s.rrPart := rfl
@[simp] theorem setTile_failedPorts (s : State) (k : Nat) (x : Tile) : (s.setTile k x).failedPorts = s.failedPorts := rfl
@[simp] theorem setTile_failedLinks (s : State) (k : Nat) (x : Tile) : (s.setTile k x).failedLinks = s.failedLinks := rfl
@[simp] theorem setTile_failedStacks (s : State) (k : Nat) (x : Tile) : (s.setTile k x).failedStacks = s.failedStacks := rfl
@[simp] theorem setTile_fwStaged (s : State) (k : Nat) (x : Tile) : (s.setTile k x).fwStaged = s.fwStaged := rfl
@[simp] theorem setTile_fwRun (s : State) (k : Nat) (x : Tile) : (s.setTile k x).fwRun = s.fwRun := rfl
@[simp] theorem setTile_leaf (s : State) (k : Nat) (x : Tile) : (s.setTile k x).leaf = s.leaf := rfl
@[simp] theorem setTile_fuse (s : State) (k : Nat) (x : Tile) : (s.setTile k x).fuse = s.fuse := rfl
@[simp] theorem setTile_expCap (s : State) (k : Nat) (x : Tile) : (s.setTile k x).expCap = s.expCap := rfl
@[simp] theorem setTile_power (s : State) (k : Nat) (x : Tile) : (s.setTile k x).power = s.power := rfl
@[simp] theorem setTile_temps (s : State) (k : Nat) (x : Tile) : (s.setTile k x).temps = s.temps := rfl
@[simp] theorem setTile_ctx (s : State) (k j : Nat) (x : Tile) : (s.setTile k x).ctx j = s.ctx j := rfl
@[simp] theorem setTile_region (s : State) (k j : Nat) (x : Tile) : (s.setTile k x).region j = s.region j := rfl
@[simp] theorem setTile_elem (s : State) (k j : Nat) (x : Tile) : (s.setTile k x).elem j = s.elem j := rfl
@[simp] theorem setTile_acc (s : State) (k j : Nat) (x : Tile) : (s.setTile k x).acc j = s.acc j := rfl
@[simp] theorem setTile_chan (s : State) (k j : Nat) (x : Tile) : (s.setTile k x).chan j = s.chan j := rfl
@[simp] theorem setTile_bar (s : State) (k j : Nat) (x : Tile) : (s.setTile k x).bar j = s.bar j := rfl
@[simp] theorem setTile_slice (s : State) (k j : Nat) (x : Tile) : (s.setTile k x).slice j = s.slice j := rfl
@[simp] theorem setTile_queueE (s : State) (k j : Nat) (x : Tile) : (s.setTile k x).queueE j = s.queueE j := rfl

/-! ## setRegion -/

@[simp] theorem setRegion_powered (s : State) (k : Nat) (x : Region) : (s.setRegion k x).powered = s.powered := rfl
@[simp] theorem setRegion_level (s : State) (k : Nat) (x : Region) : (s.setRegion k x).level = s.level := rfl
@[simp] theorem setRegion_cycle (s : State) (k : Nat) (x : Region) : (s.setRegion k x).cycle = s.cycle := rfl
@[simp] theorem setRegion_tilesSince (s : State) (k : Nat) (x : Region) : (s.setRegion k x).tilesSince = s.tilesSince := rfl
@[simp] theorem setRegion_mem (s : State) (k : Nat) (x : Region) : (s.setRegion k x).mem = s.mem := rfl
@[simp] theorem setRegion_log (s : State) (k : Nat) (x : Region) : (s.setRegion k x).log = s.log := rfl
@[simp] theorem setRegion_agenda (s : State) (k : Nat) (x : Region) : (s.setRegion k x).agenda = s.agenda := rfl
@[simp] theorem setRegion_focus (s : State) (k : Nat) (x : Region) : (s.setRegion k x).focus = s.focus := rfl
@[simp] theorem setRegion_csrNow (s : State) (k : Nat) (x : Region) : (s.setRegion k x).csrNow = s.csrNow := rfl
@[simp] theorem setRegion_chanEnds (s : State) (k : Nat) (x : Region) : (s.setRegion k x).chanEnds = s.chanEnds := rfl
@[simp] theorem setRegion_freeCtr (s : State) (k : Nat) (x : Region) : (s.setRegion k x).freeCtr = s.freeCtr := rfl
@[simp] theorem setRegion_nextId (s : State) (k : Nat) (x : Region) : (s.setRegion k x).nextId = s.nextId := rfl
@[simp] theorem setRegion_full (s : State) (k : Nat) (x : Region) : (s.setRegion k x).full = s.full := rfl
@[simp] theorem setRegion_poison (s : State) (k : Nat) (x : Region) : (s.setRegion k x).poison = s.poison := rfl
@[simp] theorem setRegion_ueLines (s : State) (k : Nat) (x : Region) : (s.setRegion k x).ueLines = s.ueLines := rfl
@[simp] theorem setRegion_poisonPages (s : State) (k : Nat) (x : Region) : (s.setRegion k x).poisonPages = s.poisonPages := rfl
@[simp] theorem setRegion_ctxs (s : State) (k : Nat) (x : Region) : (s.setRegion k x).ctxs = s.ctxs := rfl
@[simp] theorem setRegion_blks (s : State) (k : Nat) (x : Region) : (s.setRegion k x).blks = s.blks := rfl
@[simp] theorem setRegion_waits (s : State) (k : Nat) (x : Region) : (s.setRegion k x).waits = s.waits := rfl
@[simp] theorem setRegion_tiles (s : State) (k : Nat) (x : Region) : (s.setRegion k x).tiles = s.tiles := rfl
@[simp] theorem setRegion_elems (s : State) (k : Nat) (x : Region) : (s.setRegion k x).elems = s.elems := rfl
@[simp] theorem setRegion_accs (s : State) (k : Nat) (x : Region) : (s.setRegion k x).accs = s.accs := rfl
@[simp] theorem setRegion_chans (s : State) (k : Nat) (x : Region) : (s.setRegion k x).chans = s.chans := rfl
@[simp] theorem setRegion_bars (s : State) (k : Nat) (x : Region) : (s.setRegion k x).bars = s.bars := rfl
@[simp] theorem setRegion_tcache (s : State) (k : Nat) (x : Region) : (s.setRegion k x).tcache = s.tcache := rfl
@[simp] theorem setRegion_ways (s : State) (k : Nat) (x : Region) : (s.setRegion k x).ways = s.ways := rfl
@[simp] theorem setRegion_slices (s : State) (k : Nat) (x : Region) : (s.setRegion k x).slices = s.slices := rfl
@[simp] theorem setRegion_dieTlb (s : State) (k : Nat) (x : Region) : (s.setRegion k x).dieTlb = s.dieTlb := rfl
@[simp] theorem setRegion_walks (s : State) (k : Nat) (x : Region) : (s.setRegion k x).walks = s.walks := rfl
@[simp] theorem setRegion_wq (s : State) (k : Nat) (x : Region) : (s.setRegion k x).wq = s.wq := rfl
@[simp] theorem setRegion_deps (s : State) (k : Nat) (x : Region) : (s.setRegion k x).deps = s.deps := rfl
@[simp] theorem setRegion_carried (s : State) (k : Nat) (x : Region) : (s.setRegion k x).carried = s.carried := rfl
@[simp] theorem setRegion_tasks (s : State) (k : Nat) (x : Region) : (s.setRegion k x).tasks = s.tasks := rfl
@[simp] theorem setRegion_parts (s : State) (k : Nat) (x : Region) : (s.setRegion k x).parts = s.parts := rfl
@[simp] theorem setRegion_saveUsed (s : State) (k : Nat) (x : Region) : (s.setRegion k x).saveUsed = s.saveUsed := rfl
@[simp] theorem setRegion_fqWait (s : State) (k : Nat) (x : Region) : (s.setRegion k x).fqWait = s.fqWait := rfl
@[simp] theorem setRegion_regclass (s : State) (k : Nat) (x : Region) : (s.setRegion k x).regclass = s.regclass := rfl
@[simp] theorem setRegion_regEff (s : State) (k : Nat) (x : Region) : (s.setRegion k x).regEff = s.regEff := rfl
@[simp] theorem setRegion_pkgcfg (s : State) (k : Nat) (x : Region) : (s.setRegion k x).pkgcfg = s.pkgcfg := rfl
@[simp] theorem setRegion_slowTok (s : State) (k : Nat) (x : Region) : (s.setRegion k x).slowTok = s.slowTok := rfl
@[simp] theorem setRegion_slowq (s : State) (k : Nat) (x : Region) : (s.setRegion k x).slowq = s.slowq := rfl
@[simp] theorem setRegion_stackErr (s : State) (k : Nat) (x : Region) : (s.setRegion k x).stackErr = s.stackErr := rfl
@[simp] theorem setRegion_pfxcoll (s : State) (k : Nat) (x : Region) : (s.setRegion k x).pfxcoll = s.pfxcoll := rfl
@[simp] theorem setRegion_mbox (s : State) (k : Nat) (x : Region) : (s.setRegion k x).mbox = s.mbox := rfl
@[simp] theorem setRegion_hostIn (s : State) (k : Nat) (x : Region) : (s.setRegion k x).hostIn = s.hostIn := rfl
@[simp] theorem setRegion_msgs (s : State) (k : Nat) (x : Region) : (s.setRegion k x).msgs = s.msgs := rfl
@[simp] theorem setRegion_pkts (s : State) (k : Nat) (x : Region) : (s.setRegion k x).pkts = s.pkts := rfl
@[simp] theorem setRegion_grants (s : State) (k : Nat) (x : Region) : (s.setRegion k x).grants = s.grants := rfl
@[simp] theorem setRegion_rembars (s : State) (k : Nat) (x : Region) : (s.setRegion k x).rembars = s.rembars := rfl
@[simp] theorem setRegion_outbox (s : State) (k : Nat) (x : Region) : (s.setRegion k x).outbox = s.outbox := rfl
@[simp] theorem setRegion_inbox (s : State) (k : Nat) (x : Region) : (s.setRegion k x).inbox = s.inbox := rfl
@[simp] theorem setRegion_moves (s : State) (k : Nat) (x : Region) : (s.setRegion k x).moves = s.moves := rfl
@[simp] theorem setRegion_poolPages (s : State) (k : Nat) (x : Region) : (s.setRegion k x).poolPages = s.poolPages := rfl
@[simp] theorem setRegion_pfxOf (s : State) (k : Nat) (x : Region) : (s.setRegion k x).pfxOf = s.pfxOf := rfl
@[simp] theorem setRegion_cfgWait (s : State) (k : Nat) (x : Region) : (s.setRegion k x).cfgWait = s.cfgWait := rfl
@[simp] theorem setRegion_rr (s : State) (k : Nat) (x : Region) : (s.setRegion k x).rr = s.rr := rfl
@[simp] theorem setRegion_rrPart (s : State) (k : Nat) (x : Region) : (s.setRegion k x).rrPart = s.rrPart := rfl
@[simp] theorem setRegion_failedPorts (s : State) (k : Nat) (x : Region) : (s.setRegion k x).failedPorts = s.failedPorts := rfl
@[simp] theorem setRegion_failedLinks (s : State) (k : Nat) (x : Region) : (s.setRegion k x).failedLinks = s.failedLinks := rfl
@[simp] theorem setRegion_failedStacks (s : State) (k : Nat) (x : Region) : (s.setRegion k x).failedStacks = s.failedStacks := rfl
@[simp] theorem setRegion_fwStaged (s : State) (k : Nat) (x : Region) : (s.setRegion k x).fwStaged = s.fwStaged := rfl
@[simp] theorem setRegion_fwRun (s : State) (k : Nat) (x : Region) : (s.setRegion k x).fwRun = s.fwRun := rfl
@[simp] theorem setRegion_leaf (s : State) (k : Nat) (x : Region) : (s.setRegion k x).leaf = s.leaf := rfl
@[simp] theorem setRegion_fuse (s : State) (k : Nat) (x : Region) : (s.setRegion k x).fuse = s.fuse := rfl
@[simp] theorem setRegion_expCap (s : State) (k : Nat) (x : Region) : (s.setRegion k x).expCap = s.expCap := rfl
@[simp] theorem setRegion_power (s : State) (k : Nat) (x : Region) : (s.setRegion k x).power = s.power := rfl
@[simp] theorem setRegion_temps (s : State) (k : Nat) (x : Region) : (s.setRegion k x).temps = s.temps := rfl
@[simp] theorem setRegion_ctx (s : State) (k j : Nat) (x : Region) : (s.setRegion k x).ctx j = s.ctx j := rfl
@[simp] theorem setRegion_tile (s : State) (k j : Nat) (x : Region) : (s.setRegion k x).tile j = s.tile j := rfl
@[simp] theorem setRegion_elem (s : State) (k j : Nat) (x : Region) : (s.setRegion k x).elem j = s.elem j := rfl
@[simp] theorem setRegion_acc (s : State) (k j : Nat) (x : Region) : (s.setRegion k x).acc j = s.acc j := rfl
@[simp] theorem setRegion_chan (s : State) (k j : Nat) (x : Region) : (s.setRegion k x).chan j = s.chan j := rfl
@[simp] theorem setRegion_bar (s : State) (k j : Nat) (x : Region) : (s.setRegion k x).bar j = s.bar j := rfl
@[simp] theorem setRegion_slice (s : State) (k j : Nat) (x : Region) : (s.setRegion k x).slice j = s.slice j := rfl
@[simp] theorem setRegion_queueE (s : State) (k j : Nat) (x : Region) : (s.setRegion k x).queueE j = s.queueE j := rfl

/-! ## setElem -/

@[simp] theorem setElem_powered (s : State) (k : Nat) (x : Elem) : (s.setElem k x).powered = s.powered := rfl
@[simp] theorem setElem_level (s : State) (k : Nat) (x : Elem) : (s.setElem k x).level = s.level := rfl
@[simp] theorem setElem_cycle (s : State) (k : Nat) (x : Elem) : (s.setElem k x).cycle = s.cycle := rfl
@[simp] theorem setElem_tilesSince (s : State) (k : Nat) (x : Elem) : (s.setElem k x).tilesSince = s.tilesSince := rfl
@[simp] theorem setElem_mem (s : State) (k : Nat) (x : Elem) : (s.setElem k x).mem = s.mem := rfl
@[simp] theorem setElem_log (s : State) (k : Nat) (x : Elem) : (s.setElem k x).log = s.log := rfl
@[simp] theorem setElem_agenda (s : State) (k : Nat) (x : Elem) : (s.setElem k x).agenda = s.agenda := rfl
@[simp] theorem setElem_focus (s : State) (k : Nat) (x : Elem) : (s.setElem k x).focus = s.focus := rfl
@[simp] theorem setElem_csrNow (s : State) (k : Nat) (x : Elem) : (s.setElem k x).csrNow = s.csrNow := rfl
@[simp] theorem setElem_chanEnds (s : State) (k : Nat) (x : Elem) : (s.setElem k x).chanEnds = s.chanEnds := rfl
@[simp] theorem setElem_freeCtr (s : State) (k : Nat) (x : Elem) : (s.setElem k x).freeCtr = s.freeCtr := rfl
@[simp] theorem setElem_nextId (s : State) (k : Nat) (x : Elem) : (s.setElem k x).nextId = s.nextId := rfl
@[simp] theorem setElem_full (s : State) (k : Nat) (x : Elem) : (s.setElem k x).full = s.full := rfl
@[simp] theorem setElem_poison (s : State) (k : Nat) (x : Elem) : (s.setElem k x).poison = s.poison := rfl
@[simp] theorem setElem_ueLines (s : State) (k : Nat) (x : Elem) : (s.setElem k x).ueLines = s.ueLines := rfl
@[simp] theorem setElem_poisonPages (s : State) (k : Nat) (x : Elem) : (s.setElem k x).poisonPages = s.poisonPages := rfl
@[simp] theorem setElem_ctxs (s : State) (k : Nat) (x : Elem) : (s.setElem k x).ctxs = s.ctxs := rfl
@[simp] theorem setElem_blks (s : State) (k : Nat) (x : Elem) : (s.setElem k x).blks = s.blks := rfl
@[simp] theorem setElem_waits (s : State) (k : Nat) (x : Elem) : (s.setElem k x).waits = s.waits := rfl
@[simp] theorem setElem_tiles (s : State) (k : Nat) (x : Elem) : (s.setElem k x).tiles = s.tiles := rfl
@[simp] theorem setElem_regions (s : State) (k : Nat) (x : Elem) : (s.setElem k x).regions = s.regions := rfl
@[simp] theorem setElem_accs (s : State) (k : Nat) (x : Elem) : (s.setElem k x).accs = s.accs := rfl
@[simp] theorem setElem_chans (s : State) (k : Nat) (x : Elem) : (s.setElem k x).chans = s.chans := rfl
@[simp] theorem setElem_bars (s : State) (k : Nat) (x : Elem) : (s.setElem k x).bars = s.bars := rfl
@[simp] theorem setElem_tcache (s : State) (k : Nat) (x : Elem) : (s.setElem k x).tcache = s.tcache := rfl
@[simp] theorem setElem_ways (s : State) (k : Nat) (x : Elem) : (s.setElem k x).ways = s.ways := rfl
@[simp] theorem setElem_slices (s : State) (k : Nat) (x : Elem) : (s.setElem k x).slices = s.slices := rfl
@[simp] theorem setElem_dieTlb (s : State) (k : Nat) (x : Elem) : (s.setElem k x).dieTlb = s.dieTlb := rfl
@[simp] theorem setElem_walks (s : State) (k : Nat) (x : Elem) : (s.setElem k x).walks = s.walks := rfl
@[simp] theorem setElem_wq (s : State) (k : Nat) (x : Elem) : (s.setElem k x).wq = s.wq := rfl
@[simp] theorem setElem_deps (s : State) (k : Nat) (x : Elem) : (s.setElem k x).deps = s.deps := rfl
@[simp] theorem setElem_carried (s : State) (k : Nat) (x : Elem) : (s.setElem k x).carried = s.carried := rfl
@[simp] theorem setElem_tasks (s : State) (k : Nat) (x : Elem) : (s.setElem k x).tasks = s.tasks := rfl
@[simp] theorem setElem_parts (s : State) (k : Nat) (x : Elem) : (s.setElem k x).parts = s.parts := rfl
@[simp] theorem setElem_saveUsed (s : State) (k : Nat) (x : Elem) : (s.setElem k x).saveUsed = s.saveUsed := rfl
@[simp] theorem setElem_fqWait (s : State) (k : Nat) (x : Elem) : (s.setElem k x).fqWait = s.fqWait := rfl
@[simp] theorem setElem_regclass (s : State) (k : Nat) (x : Elem) : (s.setElem k x).regclass = s.regclass := rfl
@[simp] theorem setElem_regEff (s : State) (k : Nat) (x : Elem) : (s.setElem k x).regEff = s.regEff := rfl
@[simp] theorem setElem_pkgcfg (s : State) (k : Nat) (x : Elem) : (s.setElem k x).pkgcfg = s.pkgcfg := rfl
@[simp] theorem setElem_slowTok (s : State) (k : Nat) (x : Elem) : (s.setElem k x).slowTok = s.slowTok := rfl
@[simp] theorem setElem_slowq (s : State) (k : Nat) (x : Elem) : (s.setElem k x).slowq = s.slowq := rfl
@[simp] theorem setElem_stackErr (s : State) (k : Nat) (x : Elem) : (s.setElem k x).stackErr = s.stackErr := rfl
@[simp] theorem setElem_pfxcoll (s : State) (k : Nat) (x : Elem) : (s.setElem k x).pfxcoll = s.pfxcoll := rfl
@[simp] theorem setElem_mbox (s : State) (k : Nat) (x : Elem) : (s.setElem k x).mbox = s.mbox := rfl
@[simp] theorem setElem_hostIn (s : State) (k : Nat) (x : Elem) : (s.setElem k x).hostIn = s.hostIn := rfl
@[simp] theorem setElem_msgs (s : State) (k : Nat) (x : Elem) : (s.setElem k x).msgs = s.msgs := rfl
@[simp] theorem setElem_pkts (s : State) (k : Nat) (x : Elem) : (s.setElem k x).pkts = s.pkts := rfl
@[simp] theorem setElem_grants (s : State) (k : Nat) (x : Elem) : (s.setElem k x).grants = s.grants := rfl
@[simp] theorem setElem_rembars (s : State) (k : Nat) (x : Elem) : (s.setElem k x).rembars = s.rembars := rfl
@[simp] theorem setElem_outbox (s : State) (k : Nat) (x : Elem) : (s.setElem k x).outbox = s.outbox := rfl
@[simp] theorem setElem_inbox (s : State) (k : Nat) (x : Elem) : (s.setElem k x).inbox = s.inbox := rfl
@[simp] theorem setElem_moves (s : State) (k : Nat) (x : Elem) : (s.setElem k x).moves = s.moves := rfl
@[simp] theorem setElem_poolPages (s : State) (k : Nat) (x : Elem) : (s.setElem k x).poolPages = s.poolPages := rfl
@[simp] theorem setElem_pfxOf (s : State) (k : Nat) (x : Elem) : (s.setElem k x).pfxOf = s.pfxOf := rfl
@[simp] theorem setElem_cfgWait (s : State) (k : Nat) (x : Elem) : (s.setElem k x).cfgWait = s.cfgWait := rfl
@[simp] theorem setElem_rr (s : State) (k : Nat) (x : Elem) : (s.setElem k x).rr = s.rr := rfl
@[simp] theorem setElem_rrPart (s : State) (k : Nat) (x : Elem) : (s.setElem k x).rrPart = s.rrPart := rfl
@[simp] theorem setElem_failedPorts (s : State) (k : Nat) (x : Elem) : (s.setElem k x).failedPorts = s.failedPorts := rfl
@[simp] theorem setElem_failedLinks (s : State) (k : Nat) (x : Elem) : (s.setElem k x).failedLinks = s.failedLinks := rfl
@[simp] theorem setElem_failedStacks (s : State) (k : Nat) (x : Elem) : (s.setElem k x).failedStacks = s.failedStacks := rfl
@[simp] theorem setElem_fwStaged (s : State) (k : Nat) (x : Elem) : (s.setElem k x).fwStaged = s.fwStaged := rfl
@[simp] theorem setElem_fwRun (s : State) (k : Nat) (x : Elem) : (s.setElem k x).fwRun = s.fwRun := rfl
@[simp] theorem setElem_leaf (s : State) (k : Nat) (x : Elem) : (s.setElem k x).leaf = s.leaf := rfl
@[simp] theorem setElem_fuse (s : State) (k : Nat) (x : Elem) : (s.setElem k x).fuse = s.fuse := rfl
@[simp] theorem setElem_expCap (s : State) (k : Nat) (x : Elem) : (s.setElem k x).expCap = s.expCap := rfl
@[simp] theorem setElem_power (s : State) (k : Nat) (x : Elem) : (s.setElem k x).power = s.power := rfl
@[simp] theorem setElem_temps (s : State) (k : Nat) (x : Elem) : (s.setElem k x).temps = s.temps := rfl
@[simp] theorem setElem_ctx (s : State) (k j : Nat) (x : Elem) : (s.setElem k x).ctx j = s.ctx j := rfl
@[simp] theorem setElem_tile (s : State) (k j : Nat) (x : Elem) : (s.setElem k x).tile j = s.tile j := rfl
@[simp] theorem setElem_region (s : State) (k j : Nat) (x : Elem) : (s.setElem k x).region j = s.region j := rfl
@[simp] theorem setElem_acc (s : State) (k j : Nat) (x : Elem) : (s.setElem k x).acc j = s.acc j := rfl
@[simp] theorem setElem_chan (s : State) (k j : Nat) (x : Elem) : (s.setElem k x).chan j = s.chan j := rfl
@[simp] theorem setElem_bar (s : State) (k j : Nat) (x : Elem) : (s.setElem k x).bar j = s.bar j := rfl
@[simp] theorem setElem_slice (s : State) (k j : Nat) (x : Elem) : (s.setElem k x).slice j = s.slice j := rfl
@[simp] theorem setElem_queueE (s : State) (k j : Nat) (x : Elem) : (s.setElem k x).queueE j = s.queueE j := rfl

/-! ## setAcc -/

@[simp] theorem setAcc_powered (s : State) (k : Nat) (x : Acc) : (s.setAcc k x).powered = s.powered := rfl
@[simp] theorem setAcc_level (s : State) (k : Nat) (x : Acc) : (s.setAcc k x).level = s.level := rfl
@[simp] theorem setAcc_cycle (s : State) (k : Nat) (x : Acc) : (s.setAcc k x).cycle = s.cycle := rfl
@[simp] theorem setAcc_tilesSince (s : State) (k : Nat) (x : Acc) : (s.setAcc k x).tilesSince = s.tilesSince := rfl
@[simp] theorem setAcc_mem (s : State) (k : Nat) (x : Acc) : (s.setAcc k x).mem = s.mem := rfl
@[simp] theorem setAcc_log (s : State) (k : Nat) (x : Acc) : (s.setAcc k x).log = s.log := rfl
@[simp] theorem setAcc_agenda (s : State) (k : Nat) (x : Acc) : (s.setAcc k x).agenda = s.agenda := rfl
@[simp] theorem setAcc_focus (s : State) (k : Nat) (x : Acc) : (s.setAcc k x).focus = s.focus := rfl
@[simp] theorem setAcc_csrNow (s : State) (k : Nat) (x : Acc) : (s.setAcc k x).csrNow = s.csrNow := rfl
@[simp] theorem setAcc_chanEnds (s : State) (k : Nat) (x : Acc) : (s.setAcc k x).chanEnds = s.chanEnds := rfl
@[simp] theorem setAcc_freeCtr (s : State) (k : Nat) (x : Acc) : (s.setAcc k x).freeCtr = s.freeCtr := rfl
@[simp] theorem setAcc_nextId (s : State) (k : Nat) (x : Acc) : (s.setAcc k x).nextId = s.nextId := rfl
@[simp] theorem setAcc_full (s : State) (k : Nat) (x : Acc) : (s.setAcc k x).full = s.full := rfl
@[simp] theorem setAcc_poison (s : State) (k : Nat) (x : Acc) : (s.setAcc k x).poison = s.poison := rfl
@[simp] theorem setAcc_ueLines (s : State) (k : Nat) (x : Acc) : (s.setAcc k x).ueLines = s.ueLines := rfl
@[simp] theorem setAcc_poisonPages (s : State) (k : Nat) (x : Acc) : (s.setAcc k x).poisonPages = s.poisonPages := rfl
@[simp] theorem setAcc_ctxs (s : State) (k : Nat) (x : Acc) : (s.setAcc k x).ctxs = s.ctxs := rfl
@[simp] theorem setAcc_blks (s : State) (k : Nat) (x : Acc) : (s.setAcc k x).blks = s.blks := rfl
@[simp] theorem setAcc_waits (s : State) (k : Nat) (x : Acc) : (s.setAcc k x).waits = s.waits := rfl
@[simp] theorem setAcc_tiles (s : State) (k : Nat) (x : Acc) : (s.setAcc k x).tiles = s.tiles := rfl
@[simp] theorem setAcc_regions (s : State) (k : Nat) (x : Acc) : (s.setAcc k x).regions = s.regions := rfl
@[simp] theorem setAcc_elems (s : State) (k : Nat) (x : Acc) : (s.setAcc k x).elems = s.elems := rfl
@[simp] theorem setAcc_chans (s : State) (k : Nat) (x : Acc) : (s.setAcc k x).chans = s.chans := rfl
@[simp] theorem setAcc_bars (s : State) (k : Nat) (x : Acc) : (s.setAcc k x).bars = s.bars := rfl
@[simp] theorem setAcc_tcache (s : State) (k : Nat) (x : Acc) : (s.setAcc k x).tcache = s.tcache := rfl
@[simp] theorem setAcc_ways (s : State) (k : Nat) (x : Acc) : (s.setAcc k x).ways = s.ways := rfl
@[simp] theorem setAcc_slices (s : State) (k : Nat) (x : Acc) : (s.setAcc k x).slices = s.slices := rfl
@[simp] theorem setAcc_dieTlb (s : State) (k : Nat) (x : Acc) : (s.setAcc k x).dieTlb = s.dieTlb := rfl
@[simp] theorem setAcc_walks (s : State) (k : Nat) (x : Acc) : (s.setAcc k x).walks = s.walks := rfl
@[simp] theorem setAcc_wq (s : State) (k : Nat) (x : Acc) : (s.setAcc k x).wq = s.wq := rfl
@[simp] theorem setAcc_deps (s : State) (k : Nat) (x : Acc) : (s.setAcc k x).deps = s.deps := rfl
@[simp] theorem setAcc_carried (s : State) (k : Nat) (x : Acc) : (s.setAcc k x).carried = s.carried := rfl
@[simp] theorem setAcc_tasks (s : State) (k : Nat) (x : Acc) : (s.setAcc k x).tasks = s.tasks := rfl
@[simp] theorem setAcc_parts (s : State) (k : Nat) (x : Acc) : (s.setAcc k x).parts = s.parts := rfl
@[simp] theorem setAcc_saveUsed (s : State) (k : Nat) (x : Acc) : (s.setAcc k x).saveUsed = s.saveUsed := rfl
@[simp] theorem setAcc_fqWait (s : State) (k : Nat) (x : Acc) : (s.setAcc k x).fqWait = s.fqWait := rfl
@[simp] theorem setAcc_regclass (s : State) (k : Nat) (x : Acc) : (s.setAcc k x).regclass = s.regclass := rfl
@[simp] theorem setAcc_regEff (s : State) (k : Nat) (x : Acc) : (s.setAcc k x).regEff = s.regEff := rfl
@[simp] theorem setAcc_pkgcfg (s : State) (k : Nat) (x : Acc) : (s.setAcc k x).pkgcfg = s.pkgcfg := rfl
@[simp] theorem setAcc_slowTok (s : State) (k : Nat) (x : Acc) : (s.setAcc k x).slowTok = s.slowTok := rfl
@[simp] theorem setAcc_slowq (s : State) (k : Nat) (x : Acc) : (s.setAcc k x).slowq = s.slowq := rfl
@[simp] theorem setAcc_stackErr (s : State) (k : Nat) (x : Acc) : (s.setAcc k x).stackErr = s.stackErr := rfl
@[simp] theorem setAcc_pfxcoll (s : State) (k : Nat) (x : Acc) : (s.setAcc k x).pfxcoll = s.pfxcoll := rfl
@[simp] theorem setAcc_mbox (s : State) (k : Nat) (x : Acc) : (s.setAcc k x).mbox = s.mbox := rfl
@[simp] theorem setAcc_hostIn (s : State) (k : Nat) (x : Acc) : (s.setAcc k x).hostIn = s.hostIn := rfl
@[simp] theorem setAcc_msgs (s : State) (k : Nat) (x : Acc) : (s.setAcc k x).msgs = s.msgs := rfl
@[simp] theorem setAcc_pkts (s : State) (k : Nat) (x : Acc) : (s.setAcc k x).pkts = s.pkts := rfl
@[simp] theorem setAcc_grants (s : State) (k : Nat) (x : Acc) : (s.setAcc k x).grants = s.grants := rfl
@[simp] theorem setAcc_rembars (s : State) (k : Nat) (x : Acc) : (s.setAcc k x).rembars = s.rembars := rfl
@[simp] theorem setAcc_outbox (s : State) (k : Nat) (x : Acc) : (s.setAcc k x).outbox = s.outbox := rfl
@[simp] theorem setAcc_inbox (s : State) (k : Nat) (x : Acc) : (s.setAcc k x).inbox = s.inbox := rfl
@[simp] theorem setAcc_moves (s : State) (k : Nat) (x : Acc) : (s.setAcc k x).moves = s.moves := rfl
@[simp] theorem setAcc_poolPages (s : State) (k : Nat) (x : Acc) : (s.setAcc k x).poolPages = s.poolPages := rfl
@[simp] theorem setAcc_pfxOf (s : State) (k : Nat) (x : Acc) : (s.setAcc k x).pfxOf = s.pfxOf := rfl
@[simp] theorem setAcc_cfgWait (s : State) (k : Nat) (x : Acc) : (s.setAcc k x).cfgWait = s.cfgWait := rfl
@[simp] theorem setAcc_rr (s : State) (k : Nat) (x : Acc) : (s.setAcc k x).rr = s.rr := rfl
@[simp] theorem setAcc_rrPart (s : State) (k : Nat) (x : Acc) : (s.setAcc k x).rrPart = s.rrPart := rfl
@[simp] theorem setAcc_failedPorts (s : State) (k : Nat) (x : Acc) : (s.setAcc k x).failedPorts = s.failedPorts := rfl
@[simp] theorem setAcc_failedLinks (s : State) (k : Nat) (x : Acc) : (s.setAcc k x).failedLinks = s.failedLinks := rfl
@[simp] theorem setAcc_failedStacks (s : State) (k : Nat) (x : Acc) : (s.setAcc k x).failedStacks = s.failedStacks := rfl
@[simp] theorem setAcc_fwStaged (s : State) (k : Nat) (x : Acc) : (s.setAcc k x).fwStaged = s.fwStaged := rfl
@[simp] theorem setAcc_fwRun (s : State) (k : Nat) (x : Acc) : (s.setAcc k x).fwRun = s.fwRun := rfl
@[simp] theorem setAcc_leaf (s : State) (k : Nat) (x : Acc) : (s.setAcc k x).leaf = s.leaf := rfl
@[simp] theorem setAcc_fuse (s : State) (k : Nat) (x : Acc) : (s.setAcc k x).fuse = s.fuse := rfl
@[simp] theorem setAcc_expCap (s : State) (k : Nat) (x : Acc) : (s.setAcc k x).expCap = s.expCap := rfl
@[simp] theorem setAcc_power (s : State) (k : Nat) (x : Acc) : (s.setAcc k x).power = s.power := rfl
@[simp] theorem setAcc_temps (s : State) (k : Nat) (x : Acc) : (s.setAcc k x).temps = s.temps := rfl
@[simp] theorem setAcc_ctx (s : State) (k j : Nat) (x : Acc) : (s.setAcc k x).ctx j = s.ctx j := rfl
@[simp] theorem setAcc_tile (s : State) (k j : Nat) (x : Acc) : (s.setAcc k x).tile j = s.tile j := rfl
@[simp] theorem setAcc_region (s : State) (k j : Nat) (x : Acc) : (s.setAcc k x).region j = s.region j := rfl
@[simp] theorem setAcc_elem (s : State) (k j : Nat) (x : Acc) : (s.setAcc k x).elem j = s.elem j := rfl
@[simp] theorem setAcc_chan (s : State) (k j : Nat) (x : Acc) : (s.setAcc k x).chan j = s.chan j := rfl
@[simp] theorem setAcc_bar (s : State) (k j : Nat) (x : Acc) : (s.setAcc k x).bar j = s.bar j := rfl
@[simp] theorem setAcc_slice (s : State) (k j : Nat) (x : Acc) : (s.setAcc k x).slice j = s.slice j := rfl
@[simp] theorem setAcc_queueE (s : State) (k j : Nat) (x : Acc) : (s.setAcc k x).queueE j = s.queueE j := rfl

/-! ## setChan -/

@[simp] theorem setChan_powered (s : State) (k : Nat) (x : Chan) : (s.setChan k x).powered = s.powered := rfl
@[simp] theorem setChan_level (s : State) (k : Nat) (x : Chan) : (s.setChan k x).level = s.level := rfl
@[simp] theorem setChan_cycle (s : State) (k : Nat) (x : Chan) : (s.setChan k x).cycle = s.cycle := rfl
@[simp] theorem setChan_tilesSince (s : State) (k : Nat) (x : Chan) : (s.setChan k x).tilesSince = s.tilesSince := rfl
@[simp] theorem setChan_mem (s : State) (k : Nat) (x : Chan) : (s.setChan k x).mem = s.mem := rfl
@[simp] theorem setChan_log (s : State) (k : Nat) (x : Chan) : (s.setChan k x).log = s.log := rfl
@[simp] theorem setChan_agenda (s : State) (k : Nat) (x : Chan) : (s.setChan k x).agenda = s.agenda := rfl
@[simp] theorem setChan_focus (s : State) (k : Nat) (x : Chan) : (s.setChan k x).focus = s.focus := rfl
@[simp] theorem setChan_csrNow (s : State) (k : Nat) (x : Chan) : (s.setChan k x).csrNow = s.csrNow := rfl
@[simp] theorem setChan_chanEnds (s : State) (k : Nat) (x : Chan) : (s.setChan k x).chanEnds = s.chanEnds := rfl
@[simp] theorem setChan_freeCtr (s : State) (k : Nat) (x : Chan) : (s.setChan k x).freeCtr = s.freeCtr := rfl
@[simp] theorem setChan_nextId (s : State) (k : Nat) (x : Chan) : (s.setChan k x).nextId = s.nextId := rfl
@[simp] theorem setChan_full (s : State) (k : Nat) (x : Chan) : (s.setChan k x).full = s.full := rfl
@[simp] theorem setChan_poison (s : State) (k : Nat) (x : Chan) : (s.setChan k x).poison = s.poison := rfl
@[simp] theorem setChan_ueLines (s : State) (k : Nat) (x : Chan) : (s.setChan k x).ueLines = s.ueLines := rfl
@[simp] theorem setChan_poisonPages (s : State) (k : Nat) (x : Chan) : (s.setChan k x).poisonPages = s.poisonPages := rfl
@[simp] theorem setChan_ctxs (s : State) (k : Nat) (x : Chan) : (s.setChan k x).ctxs = s.ctxs := rfl
@[simp] theorem setChan_blks (s : State) (k : Nat) (x : Chan) : (s.setChan k x).blks = s.blks := rfl
@[simp] theorem setChan_waits (s : State) (k : Nat) (x : Chan) : (s.setChan k x).waits = s.waits := rfl
@[simp] theorem setChan_tiles (s : State) (k : Nat) (x : Chan) : (s.setChan k x).tiles = s.tiles := rfl
@[simp] theorem setChan_regions (s : State) (k : Nat) (x : Chan) : (s.setChan k x).regions = s.regions := rfl
@[simp] theorem setChan_elems (s : State) (k : Nat) (x : Chan) : (s.setChan k x).elems = s.elems := rfl
@[simp] theorem setChan_accs (s : State) (k : Nat) (x : Chan) : (s.setChan k x).accs = s.accs := rfl
@[simp] theorem setChan_bars (s : State) (k : Nat) (x : Chan) : (s.setChan k x).bars = s.bars := rfl
@[simp] theorem setChan_tcache (s : State) (k : Nat) (x : Chan) : (s.setChan k x).tcache = s.tcache := rfl
@[simp] theorem setChan_ways (s : State) (k : Nat) (x : Chan) : (s.setChan k x).ways = s.ways := rfl
@[simp] theorem setChan_slices (s : State) (k : Nat) (x : Chan) : (s.setChan k x).slices = s.slices := rfl
@[simp] theorem setChan_dieTlb (s : State) (k : Nat) (x : Chan) : (s.setChan k x).dieTlb = s.dieTlb := rfl
@[simp] theorem setChan_walks (s : State) (k : Nat) (x : Chan) : (s.setChan k x).walks = s.walks := rfl
@[simp] theorem setChan_wq (s : State) (k : Nat) (x : Chan) : (s.setChan k x).wq = s.wq := rfl
@[simp] theorem setChan_deps (s : State) (k : Nat) (x : Chan) : (s.setChan k x).deps = s.deps := rfl
@[simp] theorem setChan_carried (s : State) (k : Nat) (x : Chan) : (s.setChan k x).carried = s.carried := rfl
@[simp] theorem setChan_tasks (s : State) (k : Nat) (x : Chan) : (s.setChan k x).tasks = s.tasks := rfl
@[simp] theorem setChan_parts (s : State) (k : Nat) (x : Chan) : (s.setChan k x).parts = s.parts := rfl
@[simp] theorem setChan_saveUsed (s : State) (k : Nat) (x : Chan) : (s.setChan k x).saveUsed = s.saveUsed := rfl
@[simp] theorem setChan_fqWait (s : State) (k : Nat) (x : Chan) : (s.setChan k x).fqWait = s.fqWait := rfl
@[simp] theorem setChan_regclass (s : State) (k : Nat) (x : Chan) : (s.setChan k x).regclass = s.regclass := rfl
@[simp] theorem setChan_regEff (s : State) (k : Nat) (x : Chan) : (s.setChan k x).regEff = s.regEff := rfl
@[simp] theorem setChan_pkgcfg (s : State) (k : Nat) (x : Chan) : (s.setChan k x).pkgcfg = s.pkgcfg := rfl
@[simp] theorem setChan_slowTok (s : State) (k : Nat) (x : Chan) : (s.setChan k x).slowTok = s.slowTok := rfl
@[simp] theorem setChan_slowq (s : State) (k : Nat) (x : Chan) : (s.setChan k x).slowq = s.slowq := rfl
@[simp] theorem setChan_stackErr (s : State) (k : Nat) (x : Chan) : (s.setChan k x).stackErr = s.stackErr := rfl
@[simp] theorem setChan_pfxcoll (s : State) (k : Nat) (x : Chan) : (s.setChan k x).pfxcoll = s.pfxcoll := rfl
@[simp] theorem setChan_mbox (s : State) (k : Nat) (x : Chan) : (s.setChan k x).mbox = s.mbox := rfl
@[simp] theorem setChan_hostIn (s : State) (k : Nat) (x : Chan) : (s.setChan k x).hostIn = s.hostIn := rfl
@[simp] theorem setChan_msgs (s : State) (k : Nat) (x : Chan) : (s.setChan k x).msgs = s.msgs := rfl
@[simp] theorem setChan_pkts (s : State) (k : Nat) (x : Chan) : (s.setChan k x).pkts = s.pkts := rfl
@[simp] theorem setChan_grants (s : State) (k : Nat) (x : Chan) : (s.setChan k x).grants = s.grants := rfl
@[simp] theorem setChan_rembars (s : State) (k : Nat) (x : Chan) : (s.setChan k x).rembars = s.rembars := rfl
@[simp] theorem setChan_outbox (s : State) (k : Nat) (x : Chan) : (s.setChan k x).outbox = s.outbox := rfl
@[simp] theorem setChan_inbox (s : State) (k : Nat) (x : Chan) : (s.setChan k x).inbox = s.inbox := rfl
@[simp] theorem setChan_moves (s : State) (k : Nat) (x : Chan) : (s.setChan k x).moves = s.moves := rfl
@[simp] theorem setChan_poolPages (s : State) (k : Nat) (x : Chan) : (s.setChan k x).poolPages = s.poolPages := rfl
@[simp] theorem setChan_pfxOf (s : State) (k : Nat) (x : Chan) : (s.setChan k x).pfxOf = s.pfxOf := rfl
@[simp] theorem setChan_cfgWait (s : State) (k : Nat) (x : Chan) : (s.setChan k x).cfgWait = s.cfgWait := rfl
@[simp] theorem setChan_rr (s : State) (k : Nat) (x : Chan) : (s.setChan k x).rr = s.rr := rfl
@[simp] theorem setChan_rrPart (s : State) (k : Nat) (x : Chan) : (s.setChan k x).rrPart = s.rrPart := rfl
@[simp] theorem setChan_failedPorts (s : State) (k : Nat) (x : Chan) : (s.setChan k x).failedPorts = s.failedPorts := rfl
@[simp] theorem setChan_failedLinks (s : State) (k : Nat) (x : Chan) : (s.setChan k x).failedLinks = s.failedLinks := rfl
@[simp] theorem setChan_failedStacks (s : State) (k : Nat) (x : Chan) : (s.setChan k x).failedStacks = s.failedStacks := rfl
@[simp] theorem setChan_fwStaged (s : State) (k : Nat) (x : Chan) : (s.setChan k x).fwStaged = s.fwStaged := rfl
@[simp] theorem setChan_fwRun (s : State) (k : Nat) (x : Chan) : (s.setChan k x).fwRun = s.fwRun := rfl
@[simp] theorem setChan_leaf (s : State) (k : Nat) (x : Chan) : (s.setChan k x).leaf = s.leaf := rfl
@[simp] theorem setChan_fuse (s : State) (k : Nat) (x : Chan) : (s.setChan k x).fuse = s.fuse := rfl
@[simp] theorem setChan_expCap (s : State) (k : Nat) (x : Chan) : (s.setChan k x).expCap = s.expCap := rfl
@[simp] theorem setChan_power (s : State) (k : Nat) (x : Chan) : (s.setChan k x).power = s.power := rfl
@[simp] theorem setChan_temps (s : State) (k : Nat) (x : Chan) : (s.setChan k x).temps = s.temps := rfl
@[simp] theorem setChan_ctx (s : State) (k j : Nat) (x : Chan) : (s.setChan k x).ctx j = s.ctx j := rfl
@[simp] theorem setChan_tile (s : State) (k j : Nat) (x : Chan) : (s.setChan k x).tile j = s.tile j := rfl
@[simp] theorem setChan_region (s : State) (k j : Nat) (x : Chan) : (s.setChan k x).region j = s.region j := rfl
@[simp] theorem setChan_elem (s : State) (k j : Nat) (x : Chan) : (s.setChan k x).elem j = s.elem j := rfl
@[simp] theorem setChan_acc (s : State) (k j : Nat) (x : Chan) : (s.setChan k x).acc j = s.acc j := rfl
@[simp] theorem setChan_bar (s : State) (k j : Nat) (x : Chan) : (s.setChan k x).bar j = s.bar j := rfl
@[simp] theorem setChan_slice (s : State) (k j : Nat) (x : Chan) : (s.setChan k x).slice j = s.slice j := rfl
@[simp] theorem setChan_queueE (s : State) (k j : Nat) (x : Chan) : (s.setChan k x).queueE j = s.queueE j := rfl

/-! ## setBar -/

@[simp] theorem setBar_powered (s : State) (k : Nat) (x : List W64) : (s.setBar k x).powered = s.powered := rfl
@[simp] theorem setBar_level (s : State) (k : Nat) (x : List W64) : (s.setBar k x).level = s.level := rfl
@[simp] theorem setBar_cycle (s : State) (k : Nat) (x : List W64) : (s.setBar k x).cycle = s.cycle := rfl
@[simp] theorem setBar_tilesSince (s : State) (k : Nat) (x : List W64) : (s.setBar k x).tilesSince = s.tilesSince := rfl
@[simp] theorem setBar_mem (s : State) (k : Nat) (x : List W64) : (s.setBar k x).mem = s.mem := rfl
@[simp] theorem setBar_log (s : State) (k : Nat) (x : List W64) : (s.setBar k x).log = s.log := rfl
@[simp] theorem setBar_agenda (s : State) (k : Nat) (x : List W64) : (s.setBar k x).agenda = s.agenda := rfl
@[simp] theorem setBar_focus (s : State) (k : Nat) (x : List W64) : (s.setBar k x).focus = s.focus := rfl
@[simp] theorem setBar_csrNow (s : State) (k : Nat) (x : List W64) : (s.setBar k x).csrNow = s.csrNow := rfl
@[simp] theorem setBar_chanEnds (s : State) (k : Nat) (x : List W64) : (s.setBar k x).chanEnds = s.chanEnds := rfl
@[simp] theorem setBar_freeCtr (s : State) (k : Nat) (x : List W64) : (s.setBar k x).freeCtr = s.freeCtr := rfl
@[simp] theorem setBar_nextId (s : State) (k : Nat) (x : List W64) : (s.setBar k x).nextId = s.nextId := rfl
@[simp] theorem setBar_full (s : State) (k : Nat) (x : List W64) : (s.setBar k x).full = s.full := rfl
@[simp] theorem setBar_poison (s : State) (k : Nat) (x : List W64) : (s.setBar k x).poison = s.poison := rfl
@[simp] theorem setBar_ueLines (s : State) (k : Nat) (x : List W64) : (s.setBar k x).ueLines = s.ueLines := rfl
@[simp] theorem setBar_poisonPages (s : State) (k : Nat) (x : List W64) : (s.setBar k x).poisonPages = s.poisonPages := rfl
@[simp] theorem setBar_ctxs (s : State) (k : Nat) (x : List W64) : (s.setBar k x).ctxs = s.ctxs := rfl
@[simp] theorem setBar_blks (s : State) (k : Nat) (x : List W64) : (s.setBar k x).blks = s.blks := rfl
@[simp] theorem setBar_waits (s : State) (k : Nat) (x : List W64) : (s.setBar k x).waits = s.waits := rfl
@[simp] theorem setBar_tiles (s : State) (k : Nat) (x : List W64) : (s.setBar k x).tiles = s.tiles := rfl
@[simp] theorem setBar_regions (s : State) (k : Nat) (x : List W64) : (s.setBar k x).regions = s.regions := rfl
@[simp] theorem setBar_elems (s : State) (k : Nat) (x : List W64) : (s.setBar k x).elems = s.elems := rfl
@[simp] theorem setBar_accs (s : State) (k : Nat) (x : List W64) : (s.setBar k x).accs = s.accs := rfl
@[simp] theorem setBar_chans (s : State) (k : Nat) (x : List W64) : (s.setBar k x).chans = s.chans := rfl
@[simp] theorem setBar_tcache (s : State) (k : Nat) (x : List W64) : (s.setBar k x).tcache = s.tcache := rfl
@[simp] theorem setBar_ways (s : State) (k : Nat) (x : List W64) : (s.setBar k x).ways = s.ways := rfl
@[simp] theorem setBar_slices (s : State) (k : Nat) (x : List W64) : (s.setBar k x).slices = s.slices := rfl
@[simp] theorem setBar_dieTlb (s : State) (k : Nat) (x : List W64) : (s.setBar k x).dieTlb = s.dieTlb := rfl
@[simp] theorem setBar_walks (s : State) (k : Nat) (x : List W64) : (s.setBar k x).walks = s.walks := rfl
@[simp] theorem setBar_wq (s : State) (k : Nat) (x : List W64) : (s.setBar k x).wq = s.wq := rfl
@[simp] theorem setBar_deps (s : State) (k : Nat) (x : List W64) : (s.setBar k x).deps = s.deps := rfl
@[simp] theorem setBar_carried (s : State) (k : Nat) (x : List W64) : (s.setBar k x).carried = s.carried := rfl
@[simp] theorem setBar_tasks (s : State) (k : Nat) (x : List W64) : (s.setBar k x).tasks = s.tasks := rfl
@[simp] theorem setBar_parts (s : State) (k : Nat) (x : List W64) : (s.setBar k x).parts = s.parts := rfl
@[simp] theorem setBar_saveUsed (s : State) (k : Nat) (x : List W64) : (s.setBar k x).saveUsed = s.saveUsed := rfl
@[simp] theorem setBar_fqWait (s : State) (k : Nat) (x : List W64) : (s.setBar k x).fqWait = s.fqWait := rfl
@[simp] theorem setBar_regclass (s : State) (k : Nat) (x : List W64) : (s.setBar k x).regclass = s.regclass := rfl
@[simp] theorem setBar_regEff (s : State) (k : Nat) (x : List W64) : (s.setBar k x).regEff = s.regEff := rfl
@[simp] theorem setBar_pkgcfg (s : State) (k : Nat) (x : List W64) : (s.setBar k x).pkgcfg = s.pkgcfg := rfl
@[simp] theorem setBar_slowTok (s : State) (k : Nat) (x : List W64) : (s.setBar k x).slowTok = s.slowTok := rfl
@[simp] theorem setBar_slowq (s : State) (k : Nat) (x : List W64) : (s.setBar k x).slowq = s.slowq := rfl
@[simp] theorem setBar_stackErr (s : State) (k : Nat) (x : List W64) : (s.setBar k x).stackErr = s.stackErr := rfl
@[simp] theorem setBar_pfxcoll (s : State) (k : Nat) (x : List W64) : (s.setBar k x).pfxcoll = s.pfxcoll := rfl
@[simp] theorem setBar_mbox (s : State) (k : Nat) (x : List W64) : (s.setBar k x).mbox = s.mbox := rfl
@[simp] theorem setBar_hostIn (s : State) (k : Nat) (x : List W64) : (s.setBar k x).hostIn = s.hostIn := rfl
@[simp] theorem setBar_msgs (s : State) (k : Nat) (x : List W64) : (s.setBar k x).msgs = s.msgs := rfl
@[simp] theorem setBar_pkts (s : State) (k : Nat) (x : List W64) : (s.setBar k x).pkts = s.pkts := rfl
@[simp] theorem setBar_grants (s : State) (k : Nat) (x : List W64) : (s.setBar k x).grants = s.grants := rfl
@[simp] theorem setBar_rembars (s : State) (k : Nat) (x : List W64) : (s.setBar k x).rembars = s.rembars := rfl
@[simp] theorem setBar_outbox (s : State) (k : Nat) (x : List W64) : (s.setBar k x).outbox = s.outbox := rfl
@[simp] theorem setBar_inbox (s : State) (k : Nat) (x : List W64) : (s.setBar k x).inbox = s.inbox := rfl
@[simp] theorem setBar_moves (s : State) (k : Nat) (x : List W64) : (s.setBar k x).moves = s.moves := rfl
@[simp] theorem setBar_poolPages (s : State) (k : Nat) (x : List W64) : (s.setBar k x).poolPages = s.poolPages := rfl
@[simp] theorem setBar_pfxOf (s : State) (k : Nat) (x : List W64) : (s.setBar k x).pfxOf = s.pfxOf := rfl
@[simp] theorem setBar_cfgWait (s : State) (k : Nat) (x : List W64) : (s.setBar k x).cfgWait = s.cfgWait := rfl
@[simp] theorem setBar_rr (s : State) (k : Nat) (x : List W64) : (s.setBar k x).rr = s.rr := rfl
@[simp] theorem setBar_rrPart (s : State) (k : Nat) (x : List W64) : (s.setBar k x).rrPart = s.rrPart := rfl
@[simp] theorem setBar_failedPorts (s : State) (k : Nat) (x : List W64) : (s.setBar k x).failedPorts = s.failedPorts := rfl
@[simp] theorem setBar_failedLinks (s : State) (k : Nat) (x : List W64) : (s.setBar k x).failedLinks = s.failedLinks := rfl
@[simp] theorem setBar_failedStacks (s : State) (k : Nat) (x : List W64) : (s.setBar k x).failedStacks = s.failedStacks := rfl
@[simp] theorem setBar_fwStaged (s : State) (k : Nat) (x : List W64) : (s.setBar k x).fwStaged = s.fwStaged := rfl
@[simp] theorem setBar_fwRun (s : State) (k : Nat) (x : List W64) : (s.setBar k x).fwRun = s.fwRun := rfl
@[simp] theorem setBar_leaf (s : State) (k : Nat) (x : List W64) : (s.setBar k x).leaf = s.leaf := rfl
@[simp] theorem setBar_fuse (s : State) (k : Nat) (x : List W64) : (s.setBar k x).fuse = s.fuse := rfl
@[simp] theorem setBar_expCap (s : State) (k : Nat) (x : List W64) : (s.setBar k x).expCap = s.expCap := rfl
@[simp] theorem setBar_power (s : State) (k : Nat) (x : List W64) : (s.setBar k x).power = s.power := rfl
@[simp] theorem setBar_temps (s : State) (k : Nat) (x : List W64) : (s.setBar k x).temps = s.temps := rfl
@[simp] theorem setBar_ctx (s : State) (k j : Nat) (x : List W64) : (s.setBar k x).ctx j = s.ctx j := rfl
@[simp] theorem setBar_tile (s : State) (k j : Nat) (x : List W64) : (s.setBar k x).tile j = s.tile j := rfl
@[simp] theorem setBar_region (s : State) (k j : Nat) (x : List W64) : (s.setBar k x).region j = s.region j := rfl
@[simp] theorem setBar_elem (s : State) (k j : Nat) (x : List W64) : (s.setBar k x).elem j = s.elem j := rfl
@[simp] theorem setBar_acc (s : State) (k j : Nat) (x : List W64) : (s.setBar k x).acc j = s.acc j := rfl
@[simp] theorem setBar_chan (s : State) (k j : Nat) (x : List W64) : (s.setBar k x).chan j = s.chan j := rfl
@[simp] theorem setBar_slice (s : State) (k j : Nat) (x : List W64) : (s.setBar k x).slice j = s.slice j := rfl
@[simp] theorem setBar_queueE (s : State) (k j : Nat) (x : List W64) : (s.setBar k x).queueE j = s.queueE j := rfl

/-! ## setSlice -/

@[simp] theorem setSlice_powered (s : State) (k : Nat) (x : Slice) : (s.setSlice k x).powered = s.powered := rfl
@[simp] theorem setSlice_level (s : State) (k : Nat) (x : Slice) : (s.setSlice k x).level = s.level := rfl
@[simp] theorem setSlice_cycle (s : State) (k : Nat) (x : Slice) : (s.setSlice k x).cycle = s.cycle := rfl
@[simp] theorem setSlice_tilesSince (s : State) (k : Nat) (x : Slice) : (s.setSlice k x).tilesSince = s.tilesSince := rfl
@[simp] theorem setSlice_mem (s : State) (k : Nat) (x : Slice) : (s.setSlice k x).mem = s.mem := rfl
@[simp] theorem setSlice_log (s : State) (k : Nat) (x : Slice) : (s.setSlice k x).log = s.log := rfl
@[simp] theorem setSlice_agenda (s : State) (k : Nat) (x : Slice) : (s.setSlice k x).agenda = s.agenda := rfl
@[simp] theorem setSlice_focus (s : State) (k : Nat) (x : Slice) : (s.setSlice k x).focus = s.focus := rfl
@[simp] theorem setSlice_csrNow (s : State) (k : Nat) (x : Slice) : (s.setSlice k x).csrNow = s.csrNow := rfl
@[simp] theorem setSlice_chanEnds (s : State) (k : Nat) (x : Slice) : (s.setSlice k x).chanEnds = s.chanEnds := rfl
@[simp] theorem setSlice_freeCtr (s : State) (k : Nat) (x : Slice) : (s.setSlice k x).freeCtr = s.freeCtr := rfl
@[simp] theorem setSlice_nextId (s : State) (k : Nat) (x : Slice) : (s.setSlice k x).nextId = s.nextId := rfl
@[simp] theorem setSlice_full (s : State) (k : Nat) (x : Slice) : (s.setSlice k x).full = s.full := rfl
@[simp] theorem setSlice_poison (s : State) (k : Nat) (x : Slice) : (s.setSlice k x).poison = s.poison := rfl
@[simp] theorem setSlice_ueLines (s : State) (k : Nat) (x : Slice) : (s.setSlice k x).ueLines = s.ueLines := rfl
@[simp] theorem setSlice_poisonPages (s : State) (k : Nat) (x : Slice) : (s.setSlice k x).poisonPages = s.poisonPages := rfl
@[simp] theorem setSlice_ctxs (s : State) (k : Nat) (x : Slice) : (s.setSlice k x).ctxs = s.ctxs := rfl
@[simp] theorem setSlice_blks (s : State) (k : Nat) (x : Slice) : (s.setSlice k x).blks = s.blks := rfl
@[simp] theorem setSlice_waits (s : State) (k : Nat) (x : Slice) : (s.setSlice k x).waits = s.waits := rfl
@[simp] theorem setSlice_tiles (s : State) (k : Nat) (x : Slice) : (s.setSlice k x).tiles = s.tiles := rfl
@[simp] theorem setSlice_regions (s : State) (k : Nat) (x : Slice) : (s.setSlice k x).regions = s.regions := rfl
@[simp] theorem setSlice_elems (s : State) (k : Nat) (x : Slice) : (s.setSlice k x).elems = s.elems := rfl
@[simp] theorem setSlice_accs (s : State) (k : Nat) (x : Slice) : (s.setSlice k x).accs = s.accs := rfl
@[simp] theorem setSlice_chans (s : State) (k : Nat) (x : Slice) : (s.setSlice k x).chans = s.chans := rfl
@[simp] theorem setSlice_bars (s : State) (k : Nat) (x : Slice) : (s.setSlice k x).bars = s.bars := rfl
@[simp] theorem setSlice_tcache (s : State) (k : Nat) (x : Slice) : (s.setSlice k x).tcache = s.tcache := rfl
@[simp] theorem setSlice_ways (s : State) (k : Nat) (x : Slice) : (s.setSlice k x).ways = s.ways := rfl
@[simp] theorem setSlice_dieTlb (s : State) (k : Nat) (x : Slice) : (s.setSlice k x).dieTlb = s.dieTlb := rfl
@[simp] theorem setSlice_walks (s : State) (k : Nat) (x : Slice) : (s.setSlice k x).walks = s.walks := rfl
@[simp] theorem setSlice_wq (s : State) (k : Nat) (x : Slice) : (s.setSlice k x).wq = s.wq := rfl
@[simp] theorem setSlice_deps (s : State) (k : Nat) (x : Slice) : (s.setSlice k x).deps = s.deps := rfl
@[simp] theorem setSlice_carried (s : State) (k : Nat) (x : Slice) : (s.setSlice k x).carried = s.carried := rfl
@[simp] theorem setSlice_tasks (s : State) (k : Nat) (x : Slice) : (s.setSlice k x).tasks = s.tasks := rfl
@[simp] theorem setSlice_parts (s : State) (k : Nat) (x : Slice) : (s.setSlice k x).parts = s.parts := rfl
@[simp] theorem setSlice_saveUsed (s : State) (k : Nat) (x : Slice) : (s.setSlice k x).saveUsed = s.saveUsed := rfl
@[simp] theorem setSlice_fqWait (s : State) (k : Nat) (x : Slice) : (s.setSlice k x).fqWait = s.fqWait := rfl
@[simp] theorem setSlice_regclass (s : State) (k : Nat) (x : Slice) : (s.setSlice k x).regclass = s.regclass := rfl
@[simp] theorem setSlice_regEff (s : State) (k : Nat) (x : Slice) : (s.setSlice k x).regEff = s.regEff := rfl
@[simp] theorem setSlice_pkgcfg (s : State) (k : Nat) (x : Slice) : (s.setSlice k x).pkgcfg = s.pkgcfg := rfl
@[simp] theorem setSlice_slowTok (s : State) (k : Nat) (x : Slice) : (s.setSlice k x).slowTok = s.slowTok := rfl
@[simp] theorem setSlice_slowq (s : State) (k : Nat) (x : Slice) : (s.setSlice k x).slowq = s.slowq := rfl
@[simp] theorem setSlice_stackErr (s : State) (k : Nat) (x : Slice) : (s.setSlice k x).stackErr = s.stackErr := rfl
@[simp] theorem setSlice_pfxcoll (s : State) (k : Nat) (x : Slice) : (s.setSlice k x).pfxcoll = s.pfxcoll := rfl
@[simp] theorem setSlice_mbox (s : State) (k : Nat) (x : Slice) : (s.setSlice k x).mbox = s.mbox := rfl
@[simp] theorem setSlice_hostIn (s : State) (k : Nat) (x : Slice) : (s.setSlice k x).hostIn = s.hostIn := rfl
@[simp] theorem setSlice_msgs (s : State) (k : Nat) (x : Slice) : (s.setSlice k x).msgs = s.msgs := rfl
@[simp] theorem setSlice_pkts (s : State) (k : Nat) (x : Slice) : (s.setSlice k x).pkts = s.pkts := rfl
@[simp] theorem setSlice_grants (s : State) (k : Nat) (x : Slice) : (s.setSlice k x).grants = s.grants := rfl
@[simp] theorem setSlice_rembars (s : State) (k : Nat) (x : Slice) : (s.setSlice k x).rembars = s.rembars := rfl
@[simp] theorem setSlice_outbox (s : State) (k : Nat) (x : Slice) : (s.setSlice k x).outbox = s.outbox := rfl
@[simp] theorem setSlice_inbox (s : State) (k : Nat) (x : Slice) : (s.setSlice k x).inbox = s.inbox := rfl
@[simp] theorem setSlice_moves (s : State) (k : Nat) (x : Slice) : (s.setSlice k x).moves = s.moves := rfl
@[simp] theorem setSlice_poolPages (s : State) (k : Nat) (x : Slice) : (s.setSlice k x).poolPages = s.poolPages := rfl
@[simp] theorem setSlice_pfxOf (s : State) (k : Nat) (x : Slice) : (s.setSlice k x).pfxOf = s.pfxOf := rfl
@[simp] theorem setSlice_cfgWait (s : State) (k : Nat) (x : Slice) : (s.setSlice k x).cfgWait = s.cfgWait := rfl
@[simp] theorem setSlice_rr (s : State) (k : Nat) (x : Slice) : (s.setSlice k x).rr = s.rr := rfl
@[simp] theorem setSlice_rrPart (s : State) (k : Nat) (x : Slice) : (s.setSlice k x).rrPart = s.rrPart := rfl
@[simp] theorem setSlice_failedPorts (s : State) (k : Nat) (x : Slice) : (s.setSlice k x).failedPorts = s.failedPorts := rfl
@[simp] theorem setSlice_failedLinks (s : State) (k : Nat) (x : Slice) : (s.setSlice k x).failedLinks = s.failedLinks := rfl
@[simp] theorem setSlice_failedStacks (s : State) (k : Nat) (x : Slice) : (s.setSlice k x).failedStacks = s.failedStacks := rfl
@[simp] theorem setSlice_fwStaged (s : State) (k : Nat) (x : Slice) : (s.setSlice k x).fwStaged = s.fwStaged := rfl
@[simp] theorem setSlice_fwRun (s : State) (k : Nat) (x : Slice) : (s.setSlice k x).fwRun = s.fwRun := rfl
@[simp] theorem setSlice_leaf (s : State) (k : Nat) (x : Slice) : (s.setSlice k x).leaf = s.leaf := rfl
@[simp] theorem setSlice_fuse (s : State) (k : Nat) (x : Slice) : (s.setSlice k x).fuse = s.fuse := rfl
@[simp] theorem setSlice_expCap (s : State) (k : Nat) (x : Slice) : (s.setSlice k x).expCap = s.expCap := rfl
@[simp] theorem setSlice_power (s : State) (k : Nat) (x : Slice) : (s.setSlice k x).power = s.power := rfl
@[simp] theorem setSlice_temps (s : State) (k : Nat) (x : Slice) : (s.setSlice k x).temps = s.temps := rfl
@[simp] theorem setSlice_ctx (s : State) (k j : Nat) (x : Slice) : (s.setSlice k x).ctx j = s.ctx j := rfl
@[simp] theorem setSlice_tile (s : State) (k j : Nat) (x : Slice) : (s.setSlice k x).tile j = s.tile j := rfl
@[simp] theorem setSlice_region (s : State) (k j : Nat) (x : Slice) : (s.setSlice k x).region j = s.region j := rfl
@[simp] theorem setSlice_elem (s : State) (k j : Nat) (x : Slice) : (s.setSlice k x).elem j = s.elem j := rfl
@[simp] theorem setSlice_acc (s : State) (k j : Nat) (x : Slice) : (s.setSlice k x).acc j = s.acc j := rfl
@[simp] theorem setSlice_chan (s : State) (k j : Nat) (x : Slice) : (s.setSlice k x).chan j = s.chan j := rfl
@[simp] theorem setSlice_bar (s : State) (k j : Nat) (x : Slice) : (s.setSlice k x).bar j = s.bar j := rfl
@[simp] theorem setSlice_queueE (s : State) (k j : Nat) (x : Slice) : (s.setSlice k x).queueE j = s.queueE j := rfl

/-! ## setQueue -/

@[simp] theorem setQueue_powered (s : State) (k : Nat) (x : List W64) : (s.setQueue k x).powered = s.powered := rfl
@[simp] theorem setQueue_level (s : State) (k : Nat) (x : List W64) : (s.setQueue k x).level = s.level := rfl
@[simp] theorem setQueue_cycle (s : State) (k : Nat) (x : List W64) : (s.setQueue k x).cycle = s.cycle := rfl
@[simp] theorem setQueue_tilesSince (s : State) (k : Nat) (x : List W64) : (s.setQueue k x).tilesSince = s.tilesSince := rfl
@[simp] theorem setQueue_mem (s : State) (k : Nat) (x : List W64) : (s.setQueue k x).mem = s.mem := rfl
@[simp] theorem setQueue_log (s : State) (k : Nat) (x : List W64) : (s.setQueue k x).log = s.log := rfl
@[simp] theorem setQueue_agenda (s : State) (k : Nat) (x : List W64) : (s.setQueue k x).agenda = s.agenda := rfl
@[simp] theorem setQueue_focus (s : State) (k : Nat) (x : List W64) : (s.setQueue k x).focus = s.focus := rfl
@[simp] theorem setQueue_csrNow (s : State) (k : Nat) (x : List W64) : (s.setQueue k x).csrNow = s.csrNow := rfl
@[simp] theorem setQueue_chanEnds (s : State) (k : Nat) (x : List W64) : (s.setQueue k x).chanEnds = s.chanEnds := rfl
@[simp] theorem setQueue_freeCtr (s : State) (k : Nat) (x : List W64) : (s.setQueue k x).freeCtr = s.freeCtr := rfl
@[simp] theorem setQueue_nextId (s : State) (k : Nat) (x : List W64) : (s.setQueue k x).nextId = s.nextId := rfl
@[simp] theorem setQueue_full (s : State) (k : Nat) (x : List W64) : (s.setQueue k x).full = s.full := rfl
@[simp] theorem setQueue_poison (s : State) (k : Nat) (x : List W64) : (s.setQueue k x).poison = s.poison := rfl
@[simp] theorem setQueue_ueLines (s : State) (k : Nat) (x : List W64) : (s.setQueue k x).ueLines = s.ueLines := rfl
@[simp] theorem setQueue_poisonPages (s : State) (k : Nat) (x : List W64) : (s.setQueue k x).poisonPages = s.poisonPages := rfl
@[simp] theorem setQueue_ctxs (s : State) (k : Nat) (x : List W64) : (s.setQueue k x).ctxs = s.ctxs := rfl
@[simp] theorem setQueue_blks (s : State) (k : Nat) (x : List W64) : (s.setQueue k x).blks = s.blks := rfl
@[simp] theorem setQueue_waits (s : State) (k : Nat) (x : List W64) : (s.setQueue k x).waits = s.waits := rfl
@[simp] theorem setQueue_tiles (s : State) (k : Nat) (x : List W64) : (s.setQueue k x).tiles = s.tiles := rfl
@[simp] theorem setQueue_regions (s : State) (k : Nat) (x : List W64) : (s.setQueue k x).regions = s.regions := rfl
@[simp] theorem setQueue_elems (s : State) (k : Nat) (x : List W64) : (s.setQueue k x).elems = s.elems := rfl
@[simp] theorem setQueue_accs (s : State) (k : Nat) (x : List W64) : (s.setQueue k x).accs = s.accs := rfl
@[simp] theorem setQueue_chans (s : State) (k : Nat) (x : List W64) : (s.setQueue k x).chans = s.chans := rfl
@[simp] theorem setQueue_bars (s : State) (k : Nat) (x : List W64) : (s.setQueue k x).bars = s.bars := rfl
@[simp] theorem setQueue_tcache (s : State) (k : Nat) (x : List W64) : (s.setQueue k x).tcache = s.tcache := rfl
@[simp] theorem setQueue_ways (s : State) (k : Nat) (x : List W64) : (s.setQueue k x).ways = s.ways := rfl
@[simp] theorem setQueue_slices (s : State) (k : Nat) (x : List W64) : (s.setQueue k x).slices = s.slices := rfl
@[simp] theorem setQueue_dieTlb (s : State) (k : Nat) (x : List W64) : (s.setQueue k x).dieTlb = s.dieTlb := rfl
@[simp] theorem setQueue_walks (s : State) (k : Nat) (x : List W64) : (s.setQueue k x).walks = s.walks := rfl
@[simp] theorem setQueue_deps (s : State) (k : Nat) (x : List W64) : (s.setQueue k x).deps = s.deps := rfl
@[simp] theorem setQueue_carried (s : State) (k : Nat) (x : List W64) : (s.setQueue k x).carried = s.carried := rfl
@[simp] theorem setQueue_tasks (s : State) (k : Nat) (x : List W64) : (s.setQueue k x).tasks = s.tasks := rfl
@[simp] theorem setQueue_parts (s : State) (k : Nat) (x : List W64) : (s.setQueue k x).parts = s.parts := rfl
@[simp] theorem setQueue_saveUsed (s : State) (k : Nat) (x : List W64) : (s.setQueue k x).saveUsed = s.saveUsed := rfl
@[simp] theorem setQueue_fqWait (s : State) (k : Nat) (x : List W64) : (s.setQueue k x).fqWait = s.fqWait := rfl
@[simp] theorem setQueue_regclass (s : State) (k : Nat) (x : List W64) : (s.setQueue k x).regclass = s.regclass := rfl
@[simp] theorem setQueue_regEff (s : State) (k : Nat) (x : List W64) : (s.setQueue k x).regEff = s.regEff := rfl
@[simp] theorem setQueue_pkgcfg (s : State) (k : Nat) (x : List W64) : (s.setQueue k x).pkgcfg = s.pkgcfg := rfl
@[simp] theorem setQueue_slowTok (s : State) (k : Nat) (x : List W64) : (s.setQueue k x).slowTok = s.slowTok := rfl
@[simp] theorem setQueue_slowq (s : State) (k : Nat) (x : List W64) : (s.setQueue k x).slowq = s.slowq := rfl
@[simp] theorem setQueue_stackErr (s : State) (k : Nat) (x : List W64) : (s.setQueue k x).stackErr = s.stackErr := rfl
@[simp] theorem setQueue_pfxcoll (s : State) (k : Nat) (x : List W64) : (s.setQueue k x).pfxcoll = s.pfxcoll := rfl
@[simp] theorem setQueue_mbox (s : State) (k : Nat) (x : List W64) : (s.setQueue k x).mbox = s.mbox := rfl
@[simp] theorem setQueue_hostIn (s : State) (k : Nat) (x : List W64) : (s.setQueue k x).hostIn = s.hostIn := rfl
@[simp] theorem setQueue_msgs (s : State) (k : Nat) (x : List W64) : (s.setQueue k x).msgs = s.msgs := rfl
@[simp] theorem setQueue_pkts (s : State) (k : Nat) (x : List W64) : (s.setQueue k x).pkts = s.pkts := rfl
@[simp] theorem setQueue_grants (s : State) (k : Nat) (x : List W64) : (s.setQueue k x).grants = s.grants := rfl
@[simp] theorem setQueue_rembars (s : State) (k : Nat) (x : List W64) : (s.setQueue k x).rembars = s.rembars := rfl
@[simp] theorem setQueue_outbox (s : State) (k : Nat) (x : List W64) : (s.setQueue k x).outbox = s.outbox := rfl
@[simp] theorem setQueue_inbox (s : State) (k : Nat) (x : List W64) : (s.setQueue k x).inbox = s.inbox := rfl
@[simp] theorem setQueue_moves (s : State) (k : Nat) (x : List W64) : (s.setQueue k x).moves = s.moves := rfl
@[simp] theorem setQueue_poolPages (s : State) (k : Nat) (x : List W64) : (s.setQueue k x).poolPages = s.poolPages := rfl
@[simp] theorem setQueue_pfxOf (s : State) (k : Nat) (x : List W64) : (s.setQueue k x).pfxOf = s.pfxOf := rfl
@[simp] theorem setQueue_cfgWait (s : State) (k : Nat) (x : List W64) : (s.setQueue k x).cfgWait = s.cfgWait := rfl
@[simp] theorem setQueue_rr (s : State) (k : Nat) (x : List W64) : (s.setQueue k x).rr = s.rr := rfl
@[simp] theorem setQueue_rrPart (s : State) (k : Nat) (x : List W64) : (s.setQueue k x).rrPart = s.rrPart := rfl
@[simp] theorem setQueue_failedPorts (s : State) (k : Nat) (x : List W64) : (s.setQueue k x).failedPorts = s.failedPorts := rfl
@[simp] theorem setQueue_failedLinks (s : State) (k : Nat) (x : List W64) : (s.setQueue k x).failedLinks = s.failedLinks := rfl
@[simp] theorem setQueue_failedStacks (s : State) (k : Nat) (x : List W64) : (s.setQueue k x).failedStacks = s.failedStacks := rfl
@[simp] theorem setQueue_fwStaged (s : State) (k : Nat) (x : List W64) : (s.setQueue k x).fwStaged = s.fwStaged := rfl
@[simp] theorem setQueue_fwRun (s : State) (k : Nat) (x : List W64) : (s.setQueue k x).fwRun = s.fwRun := rfl
@[simp] theorem setQueue_leaf (s : State) (k : Nat) (x : List W64) : (s.setQueue k x).leaf = s.leaf := rfl
@[simp] theorem setQueue_fuse (s : State) (k : Nat) (x : List W64) : (s.setQueue k x).fuse = s.fuse := rfl
@[simp] theorem setQueue_expCap (s : State) (k : Nat) (x : List W64) : (s.setQueue k x).expCap = s.expCap := rfl
@[simp] theorem setQueue_power (s : State) (k : Nat) (x : List W64) : (s.setQueue k x).power = s.power := rfl
@[simp] theorem setQueue_temps (s : State) (k : Nat) (x : List W64) : (s.setQueue k x).temps = s.temps := rfl
@[simp] theorem setQueue_ctx (s : State) (k j : Nat) (x : List W64) : (s.setQueue k x).ctx j = s.ctx j := rfl
@[simp] theorem setQueue_tile (s : State) (k j : Nat) (x : List W64) : (s.setQueue k x).tile j = s.tile j := rfl
@[simp] theorem setQueue_region (s : State) (k j : Nat) (x : List W64) : (s.setQueue k x).region j = s.region j := rfl
@[simp] theorem setQueue_elem (s : State) (k j : Nat) (x : List W64) : (s.setQueue k x).elem j = s.elem j := rfl
@[simp] theorem setQueue_acc (s : State) (k j : Nat) (x : List W64) : (s.setQueue k x).acc j = s.acc j := rfl
@[simp] theorem setQueue_chan (s : State) (k j : Nat) (x : List W64) : (s.setQueue k x).chan j = s.chan j := rfl
@[simp] theorem setQueue_bar (s : State) (k j : Nat) (x : List W64) : (s.setQueue k x).bar j = s.bar j := rfl
@[simp] theorem setQueue_slice (s : State) (k j : Nat) (x : List W64) : (s.setQueue k x).slice j = s.slice j := rfl

/-! ## setDep -/

@[simp] theorem setDep_powered (s : State) (k : Nat) (x : Dep) : (s.setDep k x).powered = s.powered := rfl
@[simp] theorem setDep_level (s : State) (k : Nat) (x : Dep) : (s.setDep k x).level = s.level := rfl
@[simp] theorem setDep_cycle (s : State) (k : Nat) (x : Dep) : (s.setDep k x).cycle = s.cycle := rfl
@[simp] theorem setDep_tilesSince (s : State) (k : Nat) (x : Dep) : (s.setDep k x).tilesSince = s.tilesSince := rfl
@[simp] theorem setDep_mem (s : State) (k : Nat) (x : Dep) : (s.setDep k x).mem = s.mem := rfl
@[simp] theorem setDep_log (s : State) (k : Nat) (x : Dep) : (s.setDep k x).log = s.log := rfl
@[simp] theorem setDep_agenda (s : State) (k : Nat) (x : Dep) : (s.setDep k x).agenda = s.agenda := rfl
@[simp] theorem setDep_focus (s : State) (k : Nat) (x : Dep) : (s.setDep k x).focus = s.focus := rfl
@[simp] theorem setDep_csrNow (s : State) (k : Nat) (x : Dep) : (s.setDep k x).csrNow = s.csrNow := rfl
@[simp] theorem setDep_chanEnds (s : State) (k : Nat) (x : Dep) : (s.setDep k x).chanEnds = s.chanEnds := rfl
@[simp] theorem setDep_freeCtr (s : State) (k : Nat) (x : Dep) : (s.setDep k x).freeCtr = s.freeCtr := rfl
@[simp] theorem setDep_nextId (s : State) (k : Nat) (x : Dep) : (s.setDep k x).nextId = s.nextId := rfl
@[simp] theorem setDep_full (s : State) (k : Nat) (x : Dep) : (s.setDep k x).full = s.full := rfl
@[simp] theorem setDep_poison (s : State) (k : Nat) (x : Dep) : (s.setDep k x).poison = s.poison := rfl
@[simp] theorem setDep_ueLines (s : State) (k : Nat) (x : Dep) : (s.setDep k x).ueLines = s.ueLines := rfl
@[simp] theorem setDep_poisonPages (s : State) (k : Nat) (x : Dep) : (s.setDep k x).poisonPages = s.poisonPages := rfl
@[simp] theorem setDep_ctxs (s : State) (k : Nat) (x : Dep) : (s.setDep k x).ctxs = s.ctxs := rfl
@[simp] theorem setDep_blks (s : State) (k : Nat) (x : Dep) : (s.setDep k x).blks = s.blks := rfl
@[simp] theorem setDep_waits (s : State) (k : Nat) (x : Dep) : (s.setDep k x).waits = s.waits := rfl
@[simp] theorem setDep_tiles (s : State) (k : Nat) (x : Dep) : (s.setDep k x).tiles = s.tiles := rfl
@[simp] theorem setDep_regions (s : State) (k : Nat) (x : Dep) : (s.setDep k x).regions = s.regions := rfl
@[simp] theorem setDep_elems (s : State) (k : Nat) (x : Dep) : (s.setDep k x).elems = s.elems := rfl
@[simp] theorem setDep_accs (s : State) (k : Nat) (x : Dep) : (s.setDep k x).accs = s.accs := rfl
@[simp] theorem setDep_chans (s : State) (k : Nat) (x : Dep) : (s.setDep k x).chans = s.chans := rfl
@[simp] theorem setDep_bars (s : State) (k : Nat) (x : Dep) : (s.setDep k x).bars = s.bars := rfl
@[simp] theorem setDep_tcache (s : State) (k : Nat) (x : Dep) : (s.setDep k x).tcache = s.tcache := rfl
@[simp] theorem setDep_ways (s : State) (k : Nat) (x : Dep) : (s.setDep k x).ways = s.ways := rfl
@[simp] theorem setDep_slices (s : State) (k : Nat) (x : Dep) : (s.setDep k x).slices = s.slices := rfl
@[simp] theorem setDep_dieTlb (s : State) (k : Nat) (x : Dep) : (s.setDep k x).dieTlb = s.dieTlb := rfl
@[simp] theorem setDep_walks (s : State) (k : Nat) (x : Dep) : (s.setDep k x).walks = s.walks := rfl
@[simp] theorem setDep_wq (s : State) (k : Nat) (x : Dep) : (s.setDep k x).wq = s.wq := rfl
@[simp] theorem setDep_carried (s : State) (k : Nat) (x : Dep) : (s.setDep k x).carried = s.carried := rfl
@[simp] theorem setDep_tasks (s : State) (k : Nat) (x : Dep) : (s.setDep k x).tasks = s.tasks := rfl
@[simp] theorem setDep_parts (s : State) (k : Nat) (x : Dep) : (s.setDep k x).parts = s.parts := rfl
@[simp] theorem setDep_saveUsed (s : State) (k : Nat) (x : Dep) : (s.setDep k x).saveUsed = s.saveUsed := rfl
@[simp] theorem setDep_fqWait (s : State) (k : Nat) (x : Dep) : (s.setDep k x).fqWait = s.fqWait := rfl
@[simp] theorem setDep_regclass (s : State) (k : Nat) (x : Dep) : (s.setDep k x).regclass = s.regclass := rfl
@[simp] theorem setDep_regEff (s : State) (k : Nat) (x : Dep) : (s.setDep k x).regEff = s.regEff := rfl
@[simp] theorem setDep_pkgcfg (s : State) (k : Nat) (x : Dep) : (s.setDep k x).pkgcfg = s.pkgcfg := rfl
@[simp] theorem setDep_slowTok (s : State) (k : Nat) (x : Dep) : (s.setDep k x).slowTok = s.slowTok := rfl
@[simp] theorem setDep_slowq (s : State) (k : Nat) (x : Dep) : (s.setDep k x).slowq = s.slowq := rfl
@[simp] theorem setDep_stackErr (s : State) (k : Nat) (x : Dep) : (s.setDep k x).stackErr = s.stackErr := rfl
@[simp] theorem setDep_pfxcoll (s : State) (k : Nat) (x : Dep) : (s.setDep k x).pfxcoll = s.pfxcoll := rfl
@[simp] theorem setDep_mbox (s : State) (k : Nat) (x : Dep) : (s.setDep k x).mbox = s.mbox := rfl
@[simp] theorem setDep_hostIn (s : State) (k : Nat) (x : Dep) : (s.setDep k x).hostIn = s.hostIn := rfl
@[simp] theorem setDep_msgs (s : State) (k : Nat) (x : Dep) : (s.setDep k x).msgs = s.msgs := rfl
@[simp] theorem setDep_pkts (s : State) (k : Nat) (x : Dep) : (s.setDep k x).pkts = s.pkts := rfl
@[simp] theorem setDep_grants (s : State) (k : Nat) (x : Dep) : (s.setDep k x).grants = s.grants := rfl
@[simp] theorem setDep_rembars (s : State) (k : Nat) (x : Dep) : (s.setDep k x).rembars = s.rembars := rfl
@[simp] theorem setDep_outbox (s : State) (k : Nat) (x : Dep) : (s.setDep k x).outbox = s.outbox := rfl
@[simp] theorem setDep_inbox (s : State) (k : Nat) (x : Dep) : (s.setDep k x).inbox = s.inbox := rfl
@[simp] theorem setDep_moves (s : State) (k : Nat) (x : Dep) : (s.setDep k x).moves = s.moves := rfl
@[simp] theorem setDep_poolPages (s : State) (k : Nat) (x : Dep) : (s.setDep k x).poolPages = s.poolPages := rfl
@[simp] theorem setDep_pfxOf (s : State) (k : Nat) (x : Dep) : (s.setDep k x).pfxOf = s.pfxOf := rfl
@[simp] theorem setDep_cfgWait (s : State) (k : Nat) (x : Dep) : (s.setDep k x).cfgWait = s.cfgWait := rfl
@[simp] theorem setDep_rr (s : State) (k : Nat) (x : Dep) : (s.setDep k x).rr = s.rr := rfl
@[simp] theorem setDep_rrPart (s : State) (k : Nat) (x : Dep) : (s.setDep k x).rrPart = s.rrPart := rfl
@[simp] theorem setDep_failedPorts (s : State) (k : Nat) (x : Dep) : (s.setDep k x).failedPorts = s.failedPorts := rfl
@[simp] theorem setDep_failedLinks (s : State) (k : Nat) (x : Dep) : (s.setDep k x).failedLinks = s.failedLinks := rfl
@[simp] theorem setDep_failedStacks (s : State) (k : Nat) (x : Dep) : (s.setDep k x).failedStacks = s.failedStacks := rfl
@[simp] theorem setDep_fwStaged (s : State) (k : Nat) (x : Dep) : (s.setDep k x).fwStaged = s.fwStaged := rfl
@[simp] theorem setDep_fwRun (s : State) (k : Nat) (x : Dep) : (s.setDep k x).fwRun = s.fwRun := rfl
@[simp] theorem setDep_leaf (s : State) (k : Nat) (x : Dep) : (s.setDep k x).leaf = s.leaf := rfl
@[simp] theorem setDep_fuse (s : State) (k : Nat) (x : Dep) : (s.setDep k x).fuse = s.fuse := rfl
@[simp] theorem setDep_expCap (s : State) (k : Nat) (x : Dep) : (s.setDep k x).expCap = s.expCap := rfl
@[simp] theorem setDep_power (s : State) (k : Nat) (x : Dep) : (s.setDep k x).power = s.power := rfl
@[simp] theorem setDep_temps (s : State) (k : Nat) (x : Dep) : (s.setDep k x).temps = s.temps := rfl
@[simp] theorem setDep_ctx (s : State) (k j : Nat) (x : Dep) : (s.setDep k x).ctx j = s.ctx j := rfl
@[simp] theorem setDep_tile (s : State) (k j : Nat) (x : Dep) : (s.setDep k x).tile j = s.tile j := rfl
@[simp] theorem setDep_region (s : State) (k j : Nat) (x : Dep) : (s.setDep k x).region j = s.region j := rfl
@[simp] theorem setDep_elem (s : State) (k j : Nat) (x : Dep) : (s.setDep k x).elem j = s.elem j := rfl
@[simp] theorem setDep_acc (s : State) (k j : Nat) (x : Dep) : (s.setDep k x).acc j = s.acc j := rfl
@[simp] theorem setDep_chan (s : State) (k j : Nat) (x : Dep) : (s.setDep k x).chan j = s.chan j := rfl
@[simp] theorem setDep_bar (s : State) (k j : Nat) (x : Dep) : (s.setDep k x).bar j = s.bar j := rfl
@[simp] theorem setDep_slice (s : State) (k j : Nat) (x : Dep) : (s.setDep k x).slice j = s.slice j := rfl
@[simp] theorem setDep_queueE (s : State) (k j : Nat) (x : Dep) : (s.setDep k x).queueE j = s.queueE j := rfl

/-! ## setMsg -/

@[simp] theorem setMsg_powered (s : State) (k : Nat) (x : Msg) : (s.setMsg k x).powered = s.powered := rfl
@[simp] theorem setMsg_level (s : State) (k : Nat) (x : Msg) : (s.setMsg k x).level = s.level := rfl
@[simp] theorem setMsg_cycle (s : State) (k : Nat) (x : Msg) : (s.setMsg k x).cycle = s.cycle := rfl
@[simp] theorem setMsg_tilesSince (s : State) (k : Nat) (x : Msg) : (s.setMsg k x).tilesSince = s.tilesSince := rfl
@[simp] theorem setMsg_mem (s : State) (k : Nat) (x : Msg) : (s.setMsg k x).mem = s.mem := rfl
@[simp] theorem setMsg_log (s : State) (k : Nat) (x : Msg) : (s.setMsg k x).log = s.log := rfl
@[simp] theorem setMsg_agenda (s : State) (k : Nat) (x : Msg) : (s.setMsg k x).agenda = s.agenda := rfl
@[simp] theorem setMsg_focus (s : State) (k : Nat) (x : Msg) : (s.setMsg k x).focus = s.focus := rfl
@[simp] theorem setMsg_csrNow (s : State) (k : Nat) (x : Msg) : (s.setMsg k x).csrNow = s.csrNow := rfl
@[simp] theorem setMsg_chanEnds (s : State) (k : Nat) (x : Msg) : (s.setMsg k x).chanEnds = s.chanEnds := rfl
@[simp] theorem setMsg_freeCtr (s : State) (k : Nat) (x : Msg) : (s.setMsg k x).freeCtr = s.freeCtr := rfl
@[simp] theorem setMsg_nextId (s : State) (k : Nat) (x : Msg) : (s.setMsg k x).nextId = s.nextId := rfl
@[simp] theorem setMsg_full (s : State) (k : Nat) (x : Msg) : (s.setMsg k x).full = s.full := rfl
@[simp] theorem setMsg_poison (s : State) (k : Nat) (x : Msg) : (s.setMsg k x).poison = s.poison := rfl
@[simp] theorem setMsg_ueLines (s : State) (k : Nat) (x : Msg) : (s.setMsg k x).ueLines = s.ueLines := rfl
@[simp] theorem setMsg_poisonPages (s : State) (k : Nat) (x : Msg) : (s.setMsg k x).poisonPages = s.poisonPages := rfl
@[simp] theorem setMsg_ctxs (s : State) (k : Nat) (x : Msg) : (s.setMsg k x).ctxs = s.ctxs := rfl
@[simp] theorem setMsg_blks (s : State) (k : Nat) (x : Msg) : (s.setMsg k x).blks = s.blks := rfl
@[simp] theorem setMsg_waits (s : State) (k : Nat) (x : Msg) : (s.setMsg k x).waits = s.waits := rfl
@[simp] theorem setMsg_tiles (s : State) (k : Nat) (x : Msg) : (s.setMsg k x).tiles = s.tiles := rfl
@[simp] theorem setMsg_regions (s : State) (k : Nat) (x : Msg) : (s.setMsg k x).regions = s.regions := rfl
@[simp] theorem setMsg_elems (s : State) (k : Nat) (x : Msg) : (s.setMsg k x).elems = s.elems := rfl
@[simp] theorem setMsg_accs (s : State) (k : Nat) (x : Msg) : (s.setMsg k x).accs = s.accs := rfl
@[simp] theorem setMsg_chans (s : State) (k : Nat) (x : Msg) : (s.setMsg k x).chans = s.chans := rfl
@[simp] theorem setMsg_bars (s : State) (k : Nat) (x : Msg) : (s.setMsg k x).bars = s.bars := rfl
@[simp] theorem setMsg_tcache (s : State) (k : Nat) (x : Msg) : (s.setMsg k x).tcache = s.tcache := rfl
@[simp] theorem setMsg_ways (s : State) (k : Nat) (x : Msg) : (s.setMsg k x).ways = s.ways := rfl
@[simp] theorem setMsg_slices (s : State) (k : Nat) (x : Msg) : (s.setMsg k x).slices = s.slices := rfl
@[simp] theorem setMsg_dieTlb (s : State) (k : Nat) (x : Msg) : (s.setMsg k x).dieTlb = s.dieTlb := rfl
@[simp] theorem setMsg_walks (s : State) (k : Nat) (x : Msg) : (s.setMsg k x).walks = s.walks := rfl
@[simp] theorem setMsg_wq (s : State) (k : Nat) (x : Msg) : (s.setMsg k x).wq = s.wq := rfl
@[simp] theorem setMsg_deps (s : State) (k : Nat) (x : Msg) : (s.setMsg k x).deps = s.deps := rfl
@[simp] theorem setMsg_carried (s : State) (k : Nat) (x : Msg) : (s.setMsg k x).carried = s.carried := rfl
@[simp] theorem setMsg_tasks (s : State) (k : Nat) (x : Msg) : (s.setMsg k x).tasks = s.tasks := rfl
@[simp] theorem setMsg_parts (s : State) (k : Nat) (x : Msg) : (s.setMsg k x).parts = s.parts := rfl
@[simp] theorem setMsg_saveUsed (s : State) (k : Nat) (x : Msg) : (s.setMsg k x).saveUsed = s.saveUsed := rfl
@[simp] theorem setMsg_fqWait (s : State) (k : Nat) (x : Msg) : (s.setMsg k x).fqWait = s.fqWait := rfl
@[simp] theorem setMsg_regclass (s : State) (k : Nat) (x : Msg) : (s.setMsg k x).regclass = s.regclass := rfl
@[simp] theorem setMsg_regEff (s : State) (k : Nat) (x : Msg) : (s.setMsg k x).regEff = s.regEff := rfl
@[simp] theorem setMsg_pkgcfg (s : State) (k : Nat) (x : Msg) : (s.setMsg k x).pkgcfg = s.pkgcfg := rfl
@[simp] theorem setMsg_slowTok (s : State) (k : Nat) (x : Msg) : (s.setMsg k x).slowTok = s.slowTok := rfl
@[simp] theorem setMsg_slowq (s : State) (k : Nat) (x : Msg) : (s.setMsg k x).slowq = s.slowq := rfl
@[simp] theorem setMsg_stackErr (s : State) (k : Nat) (x : Msg) : (s.setMsg k x).stackErr = s.stackErr := rfl
@[simp] theorem setMsg_pfxcoll (s : State) (k : Nat) (x : Msg) : (s.setMsg k x).pfxcoll = s.pfxcoll := rfl
@[simp] theorem setMsg_mbox (s : State) (k : Nat) (x : Msg) : (s.setMsg k x).mbox = s.mbox := rfl
@[simp] theorem setMsg_hostIn (s : State) (k : Nat) (x : Msg) : (s.setMsg k x).hostIn = s.hostIn := rfl
@[simp] theorem setMsg_pkts (s : State) (k : Nat) (x : Msg) : (s.setMsg k x).pkts = s.pkts := rfl
@[simp] theorem setMsg_grants (s : State) (k : Nat) (x : Msg) : (s.setMsg k x).grants = s.grants := rfl
@[simp] theorem setMsg_rembars (s : State) (k : Nat) (x : Msg) : (s.setMsg k x).rembars = s.rembars := rfl
@[simp] theorem setMsg_outbox (s : State) (k : Nat) (x : Msg) : (s.setMsg k x).outbox = s.outbox := rfl
@[simp] theorem setMsg_inbox (s : State) (k : Nat) (x : Msg) : (s.setMsg k x).inbox = s.inbox := rfl
@[simp] theorem setMsg_moves (s : State) (k : Nat) (x : Msg) : (s.setMsg k x).moves = s.moves := rfl
@[simp] theorem setMsg_poolPages (s : State) (k : Nat) (x : Msg) : (s.setMsg k x).poolPages = s.poolPages := rfl
@[simp] theorem setMsg_pfxOf (s : State) (k : Nat) (x : Msg) : (s.setMsg k x).pfxOf = s.pfxOf := rfl
@[simp] theorem setMsg_cfgWait (s : State) (k : Nat) (x : Msg) : (s.setMsg k x).cfgWait = s.cfgWait := rfl
@[simp] theorem setMsg_rr (s : State) (k : Nat) (x : Msg) : (s.setMsg k x).rr = s.rr := rfl
@[simp] theorem setMsg_rrPart (s : State) (k : Nat) (x : Msg) : (s.setMsg k x).rrPart = s.rrPart := rfl
@[simp] theorem setMsg_failedPorts (s : State) (k : Nat) (x : Msg) : (s.setMsg k x).failedPorts = s.failedPorts := rfl
@[simp] theorem setMsg_failedLinks (s : State) (k : Nat) (x : Msg) : (s.setMsg k x).failedLinks = s.failedLinks := rfl
@[simp] theorem setMsg_failedStacks (s : State) (k : Nat) (x : Msg) : (s.setMsg k x).failedStacks = s.failedStacks := rfl
@[simp] theorem setMsg_fwStaged (s : State) (k : Nat) (x : Msg) : (s.setMsg k x).fwStaged = s.fwStaged := rfl
@[simp] theorem setMsg_fwRun (s : State) (k : Nat) (x : Msg) : (s.setMsg k x).fwRun = s.fwRun := rfl
@[simp] theorem setMsg_leaf (s : State) (k : Nat) (x : Msg) : (s.setMsg k x).leaf = s.leaf := rfl
@[simp] theorem setMsg_fuse (s : State) (k : Nat) (x : Msg) : (s.setMsg k x).fuse = s.fuse := rfl
@[simp] theorem setMsg_expCap (s : State) (k : Nat) (x : Msg) : (s.setMsg k x).expCap = s.expCap := rfl
@[simp] theorem setMsg_power (s : State) (k : Nat) (x : Msg) : (s.setMsg k x).power = s.power := rfl
@[simp] theorem setMsg_temps (s : State) (k : Nat) (x : Msg) : (s.setMsg k x).temps = s.temps := rfl
@[simp] theorem setMsg_ctx (s : State) (k j : Nat) (x : Msg) : (s.setMsg k x).ctx j = s.ctx j := rfl
@[simp] theorem setMsg_tile (s : State) (k j : Nat) (x : Msg) : (s.setMsg k x).tile j = s.tile j := rfl
@[simp] theorem setMsg_region (s : State) (k j : Nat) (x : Msg) : (s.setMsg k x).region j = s.region j := rfl
@[simp] theorem setMsg_elem (s : State) (k j : Nat) (x : Msg) : (s.setMsg k x).elem j = s.elem j := rfl
@[simp] theorem setMsg_acc (s : State) (k j : Nat) (x : Msg) : (s.setMsg k x).acc j = s.acc j := rfl
@[simp] theorem setMsg_chan (s : State) (k j : Nat) (x : Msg) : (s.setMsg k x).chan j = s.chan j := rfl
@[simp] theorem setMsg_bar (s : State) (k j : Nat) (x : Msg) : (s.setMsg k x).bar j = s.bar j := rfl
@[simp] theorem setMsg_slice (s : State) (k j : Nat) (x : Msg) : (s.setMsg k x).slice j = s.slice j := rfl
@[simp] theorem setMsg_queueE (s : State) (k j : Nat) (x : Msg) : (s.setMsg k x).queueE j = s.queueE j := rfl

end Sys2Proof.Machine
end

