-- ==== Sys2Proof/Laws/Deliver.lean ====
section
/-! SUPPORT. Deliveries, completions and faults: what each of these shared operations can change, once. -/

namespace Sys2Proof.Machine

/-- Between `s` and `t` only the block in flight of context `key`, its raised fault and its irrevocable buffer, and the count
of free values drawn have changed. -/
structure DeliversAt (key : Nat) (s t : State) : Prop where
  fields : t = { s with blks := t.blks, ctxs := t.ctxs, freeCtr := t.freeCtr }
  blks : ∀ j, j ≠ key → t.blks.get? j = s.blks.get? j
  other : ∀ j, j ≠ key → t.ctx j = s.ctx j
  same : ({ t.ctx key with sync := none, irv := [] } : Ctx) = { s.ctx key with sync := none, irv := [] }

namespace DeliversAt

theorem refl (key : Nat) (s : State) : DeliversAt key s s := ⟨rfl, fun _ _ => rfl, fun _ _ => rfl, rfl⟩

theorem trans {key : Nat} {s t u : State} (h : DeliversAt key s t) (g : DeliversAt key t u) : DeliversAt key s u where
  fields := by rw [g.fields, h.fields]
  blks := fun j hj => (g.blks j hj).trans (h.blks j hj)
  other := fun j hj => (g.other j hj).trans (h.other j hj)
  same := g.same.trans h.same

/-- An update of the context that keeps all but its raised fault and its irrevocable buffer. -/
theorem updCtx (key : Nat) (s : State) (f : Ctx → Ctx)
    (h : ({ f (s.ctx key) with sync := none, irv := [] } : Ctx) = { s.ctx key with sync := none, irv := [] }) :
    DeliversAt key s (s.updCtx key f) where
  fields := rfl
  blks := fun _ _ => rfl
  other := fun j hj => by rw [updCtx_ctx, if_neg (Ne.symm hj)]
  same := by rw [updCtx_ctx, if_pos rfl, h]

theorem putBlk (key : Nat) (s : State) (b : Blk) : DeliversAt key s { s with blks := s.blks.put key b } where
  fields := rfl
  blks := fun j hj => by rw [map_get_put, if_neg (Ne.symm hj)]
  other := fun _ _ => rfl
  same := rfl

theorem syncFault (key : Nat) (s : State) (f : Flt) : DeliversAt key s (s.syncFault key f) := by
  refine updCtx key s _ ?_
  cases h : (s.ctx key).sync with
  | none => rfl
  | some g =>
    dsimp only
    split <;> rfl

theorem updBlk (key : Nat) (s : State) (f : Blk → Blk) : DeliversAt key s (s.updBlk key f) := by
  unfold State.updBlk
  split
  · exact refl key s
  · exact putBlk key s _

theorem setStat (key i : Nat) (s : State) (st : NStat) : DeliversAt key s (s.setStat key i st) := updBlk key s _

theorem putSlot (key dst slot : Nat) (s : State) (v : W64) : DeliversAt key s (s.putSlot key dst slot v) := by
  unfold State.putSlot
  split
  · exact refl key s
  · split
    · exact putBlk key s _
    · exact syncFault key s _

theorem deliverT (key i : Nat) (s : State) (v : Option W64) (tok : Bool) (t : BitVec 10) :
    DeliversAt key s (s.deliverT key i v tok t) := by
  unfold State.deliverT
  split
  · exact refl key s
  · split
    · split
      · exact putSlot key _ _ s _
      · exact refl key s
    · split
      · exact putSlot key _ _ s _
      · exact refl key s

theorem deliver (key i : Nat) (s : State) (h : Head) (v : Option W64) (tok : Bool) :
    DeliversAt key s (s.deliver key i h v tok) := (deliverT key i s v tok h.t0).trans (deliverT key i _ v tok h.t1)

theorem draw (key : Nat) (s : State) : DeliversAt key s s.drawWord.2 := ⟨rfl, fun _ _ => rfl, fun _ _ => rfl, rfl⟩

theorem tokenT (key i : Nat) (s : State) (t : BitVec 10) : DeliversAt key s (s.tokenT key i t) := by
  unfold State.tokenT
  split
  · exact refl key s
  · split
    · exact putSlot key _ _ s _
    · exact (draw key s).trans (putSlot key _ _ _ _)

theorem tokens (key i : Nat) (s : State) (h : Head) : DeliversAt key s (s.tokens key i h) :=
  (tokenT key i s h.t0).trans (tokenT key i _ h.t1)

theorem record (key i : Nat) (s : State) (v : W64) : DeliversAt key s (s.record key i v) := by
  unfold State.record
  split
  · exact updCtx key s _ rfl
  · exact refl key s

/-- An instruction that answers a value. -/
theorem finish (key i : Nat) (s : State) (v : W64) : DeliversAt key s (s.finish key i v) :=
  ((record key i s v).trans (deliver key i _ _ _ _)).trans (setStat key i _ _)

/-- An instruction that answers a token. -/
theorem finishTok (key i : Nat) (s : State) : DeliversAt key s (s.finishTok key i) :=
  ((record key i s 0).trans (tokens key i _ _)).trans (setStat key i _ _)

/-- The two halves of R361. -/
theorem accept (key i : Nat) (s : State) (v : W64) : DeliversAt key s (s.accept key i v) :=
  ((record key i s v).trans (deliver key i _ _ _ _)).trans (setStat key i _ _)

theorem complete (key i : Nat) (s : State) : DeliversAt key s (s.complete key i) := by
  unfold State.complete
  split
  · exact refl key s
  · split
    · exact (deliver key i s _ _ _).trans (setStat key i _ _)
    · exact refl key s

end DeliversAt

/-! ## Faults -/

/-- An asynchronous fault changes the pending list of its context, and nothing else. -/
theorem asyncFault_ctx (s : State) (key j : Nat) (f : Flt) :
    ({ (s.asyncFault key f).ctx j with async := [] } : Ctx) = { s.ctx j with async := [] } ∧
    s.asyncFault key f = { s with ctxs := (s.asyncFault key f).ctxs } := by
  refine ⟨?_, rfl⟩
  unfold State.asyncFault
  rw [updCtx_ctx]
  split
  · next h =>
    subst h
    split <;> rfl
  · rfl

/-- Returning from an exception changes one context. -/
theorem resumeFault_ctx (s : State) (key j : Nat) (h : j ≠ key) : (s.resumeFault key).ctx j = s.ctx j := by
  unfold State.resumeFault
  rw [updCtx_ctx, if_neg (Ne.symm h)]

end Sys2Proof.Machine
end

