-- ==== Sys2Proof/Laws/Effect.lean ====
section
/-! SUPPORT. What the parts of a unit's computation answer in a state: one lemma for each way to build one. -/

namespace Sys2Proof.Machine

variable {α β : Type}

@[simp] theorem effect_bind (x : M α) (f : α → M β) (s : State) : (x >>= f) s = match x s with
    | .ok a t => f a t
    | .error g t => .error g t := by
  show EStateM.bind x f s = _
  unfold EStateM.bind; cases x s <;> rfl
@[simp] theorem effect_pure (a : α) (s : State) : (pure a : M α) s = .ok a s := rfl
@[simp] theorem effect_getS (s : State) : getS s = .ok s s := rfl
@[simp] theorem effect_modS (f : State → State) (s : State) : modS f s = .ok () (f s) := rfl
@[simp] theorem effect_raise (f : Flt) (s : State) : (raise f : M α) s = .error f s := rfl
@[simp] theorem effect_mCtx (e : Env) (s : State) : mCtx e s = .ok (s.ctx e.key) s := rfl
@[simp] theorem effect_ite (c : Prop) [Decidable c] (x y : M α) (s : State) :
    (if c then x else y) s = if c then x s else y s := by split <;> rfl
@[simp] theorem effect_needField (e : Env) (ok : Bool) (s : State) :
    needField e ok s = if ok then .ok () s else .error (fltWord .reservedField e) s := by unfold needField; split <;> rfl
@[simp] theorem effect_needAlign (va : W64) (n : Nat) (s : State) :
    needAlign va n s = if va.toNat % n = 0 then .ok () s else .error (misFault va n) s := by
  unfold needAlign; split <;> rfl

/-! ## Reads of an engine -/

/-- A piece within one page. -/
theorem piecesOf_one {va : W64} {n : Nat} (h0 : 0 < n) (h : va.toNat % 65536 + n ≤ 65536) :
    piecesOf va n = [(0, va.toNat, n)] := by
  have hm : min n (65536 - va.toNat % 65536) = n := by omega
  unfold piecesOf
  rw [show n / 65536 + 2 = (n / 65536 + 1) + 1 from rfl]
  unfold pieces
  rw [if_neg (by omega)]
  simp only [hm, Nat.sub_self]
  simp [pieces]

/-- Traffic moves no byte, no poison and no home. -/
theorem OnlyTraffic.same {t u : State} (h : OnlyTraffic t u) : u.mem = t.mem ∧ u.log = t.log ∧ u.poison = t.poison ∧
    u.expCap = t.expCap ∧ u.full = t.full ∧ u.ctxs = t.ctxs ∧ u.waits = t.waits ∧ u.blks = t.blks := by
  have h1 := congrArg State.mem h.rest
  have h2 := congrArg State.log h.rest
  have h3 := congrArg State.poison h.rest
  have h4 := congrArg State.expCap h.rest
  have h5 := congrArg State.full h.rest
  have h6 := congrArg State.ctxs h.rest
  have h7 := congrArg State.waits h.rest
  have h8 := congrArg State.blks h.rest
  exact ⟨h1, h2, h3, h4, h5, h6, h7, h8⟩

theorem OnlyTraffic.paKind {t u : State} (h : OnlyTraffic t u) (pa : Nat) : u.paKind pa = t.paKind pa := by
  have := h.same.2.2.2.1
  unfold State.paKind; rw [this]

/-- Traffic does not change how lines were reached. -/
theorem fold_ways {α : Type} (f : State → α → State) (h : ∀ s x, (f s x).ways = s.ways) (l : List α) (s : State) :
    (l.foldl f s).ways = s.ways := by
  induction l generalizing s with
  | nil => rfl
  | cons x r ih => rw [List.foldl_cons, ih, h]

theorem meshReq_ways (s : State) (t : Nat) (own : Option (Nat × Nat)) (n : Nat) (wr : Bool) :
    (s.meshReq t own n wr).ways = s.ways := by
  unfold State.meshReq
  split
  · refine fold_ways _ (fun _ _ => ?_) _ _
    rfl
  · rfl

theorem reqSlice_ways (s : State) (t : Option Nat) (pa : Nat) (w al : Bool) (cx : Option Nat) :
    (s.reqSlice t pa w al cx).ways = s.ways := by
  unfold State.reqSlice
  cases t with
  | none => rfl
  | some t => dsimp only; split
              · rw [count_fields]; rfl
              · rfl

theorem traffic_ways (s : State) (t : Nat) (own : Option (Nat × Nat)) (tr : Tr) (n : Nat) (wr : Bool) :
    (s.traffic t own tr n wr).ways = s.ways := by
  unfold State.traffic
  split
  · split
    · rfl
    · exact meshReq_ways ..
  · dsimp only
    split
    · rw [fold_ways _ (fun _ _ => reqSlice_ways ..), meshReq_ways]
    · exact meshReq_ways ..
  · exact meshReq_ways ..
  · rfl

/-- A plain read within one page: the page is found, and its bytes are read. -/
theorem ReadsAt.piece {s : State} {t part : Nat} {u : Use} {va : W64} {n : Nat} {tr : Tr} (R : ReadsAt s t part u va n tr)
    (bank : BankUse) (hb : bank ≠ .tagged) :
    ∃ s1 v, OnlyTraffic s v ∧ mPiece t part u bank va.toNat n s = .ok tr s1 ∧ mReadTr t u tr n s1 = .ok (s.bytes tr.pa n) v := by
  have hf := R.found
  have ht := OnlyTraffic.translate s t part va u
  have hw := translate_fields s t part va u
  generalize hx : s.translate t part va u = x at hf ht hw
  obtain ⟨r, s1⟩ := x
  dsimp only at hf ht hw
  subst hf
  have hk : s1.paKind tr.pa = .hbm := by rw [ht.paKind, R.home]
  have hp : mPiece t part u bank va.toNat n s = .ok tr s1 := by
    have hv : w64 va.toNat = va := by simp [w64]
    have hc : s1.bankCheck va.toNat tr.pa bank = .ok () := by
      unfold State.bankCheck; rw [hk]; simp [hb]
    have hh : s1.holeAt tr.pa n = none := by unfold State.holeAt; rw [hk]
    simp only [mPiece, effect_bind, mTrans, State.translateNow, hv, hx, effect_getS, hh, hc, hk, effect_pure]
  have h2 := ht.trans (OnlyTraffic.traffic s1 t (s1.owner u) tr n false)
  have h3 := h2.trans (OnlyTraffic.wayTouch (s1.traffic t (s1.owner u) tr n false) tr n (by
    intro _ l hl
    rw [traffic_ways, hw]
    exact R.way R.home l hl))
  generalize hv : (s1.traffic t (s1.owner u) tr n false).wayTouch tr n = v at h3
  refine ⟨s1, v, h3, hp, ?_⟩
  have hm := h3.same
  have hb : ∀ pa k, v.bytes pa k = s.bytes pa k := by
    intro pa k; unfold State.bytes State.byte; rw [hm.1, hm.2.1]
  have hq : v.poisonAt tr.pa n = none := by
    have hf : v.failedStacks = s.failedStacks := by
      have := congrArg State.failedStacks h3.rest
      exact this
    rw [← R.clean]; unfold State.poisonAt State.poisoned; rw [hm.2.2.1, hf]
  simp only [mReadTr, effect_bind, effect_modS, effect_getS, hv, h3.paKind, R.home, hq, State.peek, hb]

/-- The bytes of a plain read within one page. -/
theorem readU_of {s : State} {t part : Nat} {u : Use} {va : W64} {n : Nat} {tr : Tr} (R : ReadsAt s t part u va n tr)
    (bank : BankUse) (hb : bank ≠ .tagged) :
    ∃ v, OnlyTraffic s v ∧ readU t part u bank va n s = .ok (s.bytes tr.pa n) v := by
  obtain ⟨s1, v, ht, hp, hr⟩ := R.piece bank hb
  refine ⟨v, ht, ?_⟩
  simp only [readU, piecesOf_one R.some R.page, List.mapM_cons, List.mapM_nil, mReadPiece, effect_bind, hp, hr, effect_pure]
  simp

/-- The plain loads of a command within one page see the earlier stores of its block. -/
theorem plainRead_of {s : State} {e : Env} {u : Use} {va : W64} {n : Nat} {tr : Tr}
    (R : ReadsAt s e.tile (s.ctx e.key).part u va n tr) :
    ∃ v, OnlyTraffic s v ∧ plainRead e u va n s = .ok (e.sees tr.pa (s.bytes tr.pa n)) v := by
  obtain ⟨s1, v, ht, hp, hr⟩ := R.piece .plain (by decide)
  have hc : mCtx e s = .ok (s.ctx e.key) s := rfl
  refine ⟨v, ht, ?_⟩
  simp only [plainRead, piecesOf_one R.some R.page, List.mapM_cons, List.mapM_nil, effect_bind, hc, hp, hr, effect_pure]
  simp

/-- Program order lets a command through. -/
theorem Goes.hold {s : State} {e : Env} (G : Goes s e) : hold15 e s = none := by
  unfold hold15; rw [if_pos (show s.orderReady e.key e.idx e.blk 15 false false = true from G)]

/-- An instruction whose computation ends in `t`. -/
theorem run_fireM_ok {s t : State} {n : Needs} {e : Env} (H : Fires s n e) {body : Env → M Unit}
    {blk : Env → State → Option State} (hb : blk e s = none) (h : body e (s.begun e) = .ok () t) :
    run (fun s => fireM e.h n body s blk) s = .next (endStep s t) := by rw [run_fireM H body blk hb, h]

/-- An instruction whose computation raises a fault. -/
theorem run_fireM_error {s t : State} {n : Needs} {e : Env} (H : Fires s n e) {body : Env → M Unit}
    {blk : Env → State → Option State} (hb : blk e s = none) {f : Flt} (h : body e (s.begun e) = .error f t) :
    run (fun s => fireM e.h n body s blk) s = s.faults e t f := by rw [run_fireM H body blk hb, h]; rfl

/-! ## Table commands -/

/-- What a table command answers, by what its computation comes to once it has begun. -/
theorem run_kvInstr {s : State} {n : Needs} {e : Env} (H : Fires s n e) (G : Goes s e) (body : Env → M KvR) :
    run (kvInstr e.h n body) s = match body e (s.begun e) with
      | .ok (.stat w) t => s.closes e t w
      | .ok .moving t => .next (endStep s t)
      | .ok .wait _ => .next (endStep s (s.atUnit e))
      | .error f _ => s.traps e f := by
  unfold kvInstr
  cases hb : body e (s.begun e) with
  | error f t => rw [run_fireSeq H _ _ (by simp only [G.hold, hb])]; simp only [hb]; rfl
  | ok r t =>
    cases r with
    | stat w => rw [run_fireSeq H _ _ (by simp only [G.hold, hb])]; simp only [hb]; rfl
    | moving => rw [run_fireSeq H _ _ (by simp only [G.hold, hb])]; simp only [hb]
    | wait => simp only [run, fireSeq, H.focus, H.fires, H.fresh, ite_self, G.hold, hb]

end Sys2Proof.Machine
end

