-- ==== Sys2Proof/Laws/Memory.lean ====
section
/-! SUPPORT. Memory: reads after writes, and that every write keeps the canonical form. -/

namespace Sys2Proof.Machine

/-! ## One byte -/

theorem Mem.wfFrom_mono {lo lo' : Nat} (h : lo' ≤ lo) : ∀ {m : List Host.Cell}, Mem.wfFrom lo m = true → Mem.wfFrom lo' m = true
  | [], _ => rfl
  | (a, b) :: r, w => by
    simp only [Mem.wfFrom, Bool.and_eq_true, decide_eq_true_eq] at w ⊢
    exact ⟨⟨by omega, w.1.2⟩, w.2⟩

theorem Mem.wfFrom_filter {lo : Nat} (p : Host.Cell → Bool) : ∀ {m : List Host.Cell},
    Mem.wfFrom lo m = true → Mem.wfFrom lo (m.filter p) = true
  | [], _ => rfl
  | (a, b) :: r, w => by
    simp only [Mem.wfFrom, Bool.and_eq_true, decide_eq_true_eq] at w
    rw [List.filter_cons]
    split
    · simp only [Mem.wfFrom, Bool.and_eq_true, decide_eq_true_eq]
      exact ⟨w.1, Mem.wfFrom_filter p w.2⟩
    · exact Mem.wfFrom_mono (by omega) (Mem.wfFrom_filter p w.2)

theorem Mem.wfFrom_ins {lo x : Nat} {v : Byte} (hv : v ≠ memDefault) (h : lo ≤ x) : ∀ {m : List Host.Cell},
    Mem.wfFrom lo m = true → Mem.wfFrom lo (Mem.ins m x v) = true
  | [], _ => by simp [Mem.ins, Mem.wfFrom, h, hv]
  | (a, b) :: r, w => by
    simp only [Mem.wfFrom, Bool.and_eq_true, decide_eq_true_eq] at w
    unfold Mem.ins
    split
    · simp only [Mem.wfFrom, Bool.and_eq_true, decide_eq_true_eq]
      exact ⟨⟨h, hv⟩, ⟨by omega, w.1.2⟩, w.2⟩
    · split
      · next hx =>
        simp only [Mem.wfFrom, Bool.and_eq_true, decide_eq_true_eq]
        exact ⟨⟨h, hv⟩, hx ▸ w.2⟩
      · simp only [Mem.wfFrom, Bool.and_eq_true, decide_eq_true_eq]
        exact ⟨w.1, Mem.wfFrom_ins hv (by omega) w.2⟩

/-- A write keeps the canonical form. -/
theorem Mem.wf_set {m : List Host.Cell} (x : Nat) (v : Byte) (h : Mem.wf m = true) : Mem.wf (Mem.set m x v) = true := by
  unfold Mem.set
  split
  · exact Mem.wfFrom_filter _ h
  · next hv => exact Mem.wfFrom_ins hv (Nat.zero_le x) h

theorem Mem.get_drop (x y : Nat) : ∀ m : List Host.Cell,
    Mem.get (m.filter (fun c => c.1 ≠ x)) y = if y = x then memDefault else Mem.get m y
  | [] => by split <;> rfl
  | (a, b) :: r => by
    rw [List.filter_cons]
    by_cases e : a = x
    · rw [if_neg (by simp [e]), Mem.get_drop x y r]
      split
      · rfl
      · next hy => rw [Mem.get, if_neg (by omega)]
    · rw [if_pos (by simp [e])]
      simp only [Mem.get, Mem.get_drop x y r]
      split
      · next hy => rw [if_neg (by omega)]
      · rfl

theorem Mem.get_ins (x y : Nat) (v : Byte) : ∀ m : List Host.Cell,
    Mem.get (Mem.ins m x v) y = if y = x then v else Mem.get m y
  | [] => by simp only [Mem.ins, Mem.get, eq_comm]
  | (a, b) :: r => by
    unfold Mem.ins
    split
    · simp only [Mem.get, eq_comm (a := x)]
    · split
      · next hx => subst hx; simp only [Mem.get, eq_comm (a := x)]; split <;> rfl
      · next hx =>
        simp only [Mem.get, Mem.get_ins x y v r]
        split
        · next hy => rw [if_neg (by omega)]
        · rfl

/-- A read after a write, in any memory. -/
theorem Mem.get_set (m : List Host.Cell) (x y : Nat) (v : Byte) :
    Mem.get (Mem.set m x v) y = if y = x then v else Mem.get m y := by
  unfold Mem.set
  split
  · next hv => rw [hv]; exact Mem.get_drop x y m
  · exact Mem.get_ins x y v m

/-! ## A step's writes -/

/-- The end of a step keeps the canonical form, whatever the step wrote. -/
theorem Mem.wf_flush {m : List Host.Cell} (h : Mem.wf m = true) : ∀ log : List Host.Cell, Mem.wf (Mem.flush m log) = true
  | [] => h
  | c :: r => Mem.wf_set c.1 c.2 (Mem.wf_flush h r)

/-- A byte after the end of a step: the newest write of it, else what it was. -/
theorem Mem.get_flush (m : List Host.Cell) (x : Nat) : ∀ log : List Host.Cell,
    Mem.get (Mem.flush m log) x = (logGet log x).getD (Mem.get m x)
  | [] => rfl
  | c :: r => by
    show Mem.get (Mem.set (Mem.flush m r) c.1 c.2) x = _
    rw [Mem.get_set, Mem.get_flush m x r, logGet]
    by_cases e : x = c.1
    · rw [if_pos e, if_pos e.symm, Option.getD_some]
    · rw [if_neg e, if_neg (Ne.symm e)]

/-- A step's own reads meet its writes: what `byte` answers is what memory holds after the step. -/
theorem byte_flush (s : State) (x : Nat) : Mem.get (Mem.flush s.mem s.log) x = s.byte x :=
  Mem.get_flush s.mem x s.log

theorem wrBytes_log : ∀ (l : List Byte) (s : State) (pa : Nat), s.wrBytes pa l = { s with log := (s.wrBytes pa l).log }
  | [], _, _ => rfl
  | b :: r, s, pa => by
    show State.wrBytes { s with log := (pa, b) :: s.log } (pa + 1) r = _
    rw [wrBytes_log r]
    rfl

/-- A byte after a write of bytes upward from an address. -/
theorem byte_wrBytes : ∀ (l : List Byte) (s : State) (pa x : Nat), (s.wrBytes pa l).byte x =
    if pa ≤ x ∧ x < pa + l.length then l.getD (x - pa) 0 else s.byte x
  | [], s, pa, x => by rw [if_neg (by simp only [List.length_nil]; omega)]; rfl
  | b :: r, s, pa, x => by
    show (State.wrBytes { s with log := (pa, b) :: s.log } (pa + 1) r).byte x = _
    rw [byte_wrBytes r]
    simp only [List.length_cons]
    by_cases e : pa = x
    · subst e
      rw [if_neg (by omega), if_pos (by omega)]
      simp [State.byte, logGet]
    · by_cases g : pa + 1 ≤ x ∧ x < pa + 1 + r.length
      · rw [if_pos g, if_pos (by omega), show x - pa = x - (pa + 1) + 1 by omega, List.getD_cons_succ]
      · rw [if_neg g, if_neg (by omega)]
        simp [State.byte, logGet, e]

/-- Every answer of `run` has memory in canonical form and no write outstanding. -/
theorem endStep_wf {s t : State} (h : Mem.wf s.mem = true) :
    Mem.wf (endStep s t).mem = true ∧ (endStep s t).log = [] ∧ (endStep s t).focus = .nowhere ∧ (endStep s t).fuse = s.fuse :=
  ⟨Mem.wf_flush h t.log, rfl, rfl, rfl⟩

end Sys2Proof.Machine
end

