-- ==== Sys2Proof/Tests/Slice0.lean ====
section
/-! SUPPORT. Tests: words and values of the manual, ill-formed terms that the check refuses, and for every statement with
hypotheses a state that meets them. -/

namespace Sys2Proof.Tests

open Sys2Proof.Machine

-- Many kernel evaluations: one after the other, within the checker's memory.
set_option Elab.async false

/-! ## States that meet the hypotheses -/

/-- A block of one word with every slot of it filled. -/
def blk1 (w a b : W64) (p : Bool) : Blk :=
  ⟨0x1000, List.replicate 8 0, [w], [{ a := some a, b := some b, p := some p, o := true }], [], [], [], [], false, 3, 5, []⟩

/-- A running context, at S, and one at U. -/
def atS : Ctx := { st := .run, priv := true }
def atU : Ctx := { st := .run }

/-- `s` with `blk` in flight in context 0 of tile 0, which is `c`, its first word at the focus. -/
def put0 (s : State) (c : Ctx) (blk : Blk) : State :=
  { s with
    focus := .seq 0 0 0
    ctxs := [(0, c)]
    blks := [(0, blk)] }

/-- What that word sees. -/
def env0 (h : Head) (a b : W64) (p : Bool) (blk : Blk) : Env := ⟨0, 0, 0, 0, a, b, p, blk, blk.words.getD 0 0, h⟩

/-- A head without a predicate, targets in slots o of the next words. -/
def hd0 : Head := ⟨false, 0, 0x207, 0⟩

/-- The word fires, whatever slots its instruction reads. -/
theorem fires0 {s : State} {c : Ctx} {h : Head} {n : Needs} {a b : W64} {p : Bool} {blk : Blk} {l : List Node}
    (hn : blk.nodes = { a := some a, b := some b, p := some p, o := true } :: l) (hs : c.st = .run ∧ c.sync = none)
    (hi : irvFind c.irv 0 = none) (hp : h.pr = 0) : Fires (put0 s c blk) n (env0 h a b p blk) := by
  refine ⟨rfl, ?_, hi, (by decide : 0 < 16)⟩
  have hc : (put0 s c blk).ctx 0 = c := rfl
  have hb : (put0 s c blk).blks.get? 0 = some blk := rfl
  have hy : c.syncStop (put0 s c blk).cycle = false := by simp [Ctx.syncStop, hs.2]
  have hj : ∀ q, c.issues (put0 s c blk).cycle q = true := fun q => by simp [Ctx.issues, hy, hs.1]
  simp [State.firing, env0, ctxKey, hc, hb, hn, hp, Blk.node, hj]

/-- A leaf entry with every permission, A and D set: physical address and class. -/
def leaf (pa cls : Nat) : W64 := w64 (pa + cls * 256 + 0x87F)

/-- A tile-0 TLB for address space 5: 64 KiB pages 0 (local store, bank 8), 1 (HBM4E), 2 (local store, bank 9, TAGGED),
3 (HBM4E, of class CHANNEL), 4 (local store, a cache bank), 5 (the slow tier, WEIGHT), 6 (HBM4E, of class TREE), and the tile windows from
0x2000_0000 on. -/
def tlb0 : List TlbEnt :=
  [⟨5, 2, 0, leaf 0xF000000100000 0⟩, ⟨5, 2, 1, leaf 0x10000 0⟩, ⟨5, 2, 2, leaf 0xF000000120000 5⟩, ⟨5, 2, 3, leaf 0x30000 1⟩,
   ⟨5, 2, 4, leaf 0xF000000000000 0⟩, ⟨5, 2, 5, leaf 0x1000000000000 4⟩, ⟨5, 2, 6, leaf 0x80000 2⟩, ⟨5, 1, 1, leaf 0xF000000000000 0⟩]

/-- A machine with one partition, address space 5, those translations, and one expander. -/
def base : State :=
  { State.reset with
    parts := [(0, (List.replicate 16 0).set 0 0x8000000500000000)]
    tiles := [(0, { tlb := tlb0 })]
    expCap := [(0, 0x100000)] }

/-- What an M-format access finds. -/
def hit (s : State) (e : Env) (m : MFmt) (use : Bool → Use) : TrR :=
  (s.translate e.tile (s.ctx e.key).part (mAddr e m) (use (s.ctx e.key).sup)).1

def hitTr (s : State) (e : Env) (m : MFmt) (use : Bool → Use) : Tr := match hit s e m use with
  | .ok tr => tr
  | _ => ⟨0, 0, false, 0⟩

/-- The checks of R382, as a test. -/
def passes (s : State) (e : Env) (m : MFmt) (size : Nat) (use : Bool → Use) (bank : BankUse) : Bool :=
  (mAddr e m).toNat % size == 0 &&
  match hit s e m use with
  | .ok tr =>
    (match s.paKind tr.pa with
     | .window _ off => s.winPerm e.key (mAddr e m).toNat tr.pa off (!(use (s.ctx e.key).sup).wr) &&
        (decide (off < 0x800000) || !(use (s.ctx e.key).sup).rd || !(use (s.ctx e.key).sup).wr)
     | _ => true) &&
    (match s.bankCheck (mAddr e m).toNat tr.pa bank with
     | .ok _ => true
     | .error _ => false)
  | _ => false

theorem reaches_of {s : State} {e : Env} {m : MFmt} {size : Nat} {use : Bool → Use} {bank : BankUse}
    (h : passes s e m size use bank = true) : Reaches s e m size use bank (hitTr s e m use) := by
  unfold passes at h
  unfold hitTr
  simp only [Bool.and_eq_true, beq_iff_eq] at h
  obtain ⟨h1, h2⟩ := h
  cases hh : hit s e m use with
  | ok tr =>
    rw [hh] at h2
    simp only [Bool.and_eq_true] at h2
    refine ⟨h1, hh, ?_, ?_⟩
    · intro wt off hk
      have h3 := h2.1
      simp only [hk, Bool.and_eq_true, Bool.or_eq_true, decide_eq_true_eq, Bool.not_eq_true'] at h3
      refine ⟨h3.1, fun ho => ?_⟩
      rcases h3.2 with (h4 | h4) | h4
      · omega
      · exact .inl h4
      · exact .inr h4
    · have h3 := h2.2
      revert h3
      cases s.bankCheck (mAddr e m).toNat tr.pa bank with
      | ok x => intro _; rfl
      | error x => intro h; cases h
  | fault f => rw [hh] at h2; cases h2
  | miss => rw [hh] at h2; cases h2

/-- `base` with one word of operands `a` and `b` in flight at S or U. -/
def mem0 (a b : W64) : State := put0 base atS (blk1 0 a b true)
def mem0E (a b : W64) : Env := env0 hd0 a b true (blk1 0 a b true)

theorem fires_mem0 (n : Needs) (a b : W64) : Fires (mem0 a b) n (mem0E a b) := fires0 rfl (by decide) (by decide) rfl

/-- 8 bytes (TS 6), alias class 1, no order, no token awaited, offset 0. -/
def m8 : MFmt := { ts := 6, cls := 1, ord := 0, scp := 0, ow := false, ofs := 0 }
def m4 : MFmt := { m8 with ts := 4 }

theorem ordered_of {s : State} {e : Env} {m : MFmt} {read rel : Bool}
    (h : s.orderReady e.key e.idx e.blk m.cls.toNat read rel = true) : Ordered s e m read rel := h

theorem goes_of {s : State} {e : Env} (h : s.orderReady e.key e.idx e.blk 15 false false = true) : Goes s e := h

theorem free_of {s : State} {e : Env} {m : MFmt} {read rel : Bool} {tr : Tr}
    (h : (s.orderReady e.key e.idx e.blk m.cls.toNat read rel && !s.windowHeld e.key tr.pa) = true) :
    Free s e m read rel tr := by
  rw [Bool.and_eq_true, Bool.not_eq_true'] at h
  exact ⟨h.1, h.2⟩

/-- Where no line was reached yet, none was reached with the other value of MS. -/
theorem way_of {s : State} {tr : Tr} {n : Nat} (h : s.ways = []) : OneWay s tr n :=
  fun _ _ _ => .inl (by rw [h]; rfl)

theorem ordered_mem0 (a b : W64) (m : MFmt) (read rel : Bool) : Ordered (mem0 a b) (mem0E a b) m read rel := rfl

/-- The same over another machine. -/
def memS (s : State) (a b : W64) : State := put0 s atS (blk1 0 a b true)

theorem fires_memS (s : State) (n : Needs) (a b : W64) : Fires (memS s a b) n (mem0E a b) :=
  fires0 rfl (by decide) (by decide) rfl

theorem ordered_memS (s : State) (a b : W64) (m : MFmt) (read rel : Bool) :
    Ordered (memS s a b) (mem0E a b) m read rel := rfl

theorem goes_memS (s : State) (a b : W64) : Goes (memS s a b) (mem0E a b) := rfl

/-- A unit's computation ends without a fault, its value meeting a test. -/
def okWith {α : Type} (p : α → State → Bool) : EStateM.Result Flt State α → Bool
  | .ok a s => p a s
  | .error _ _ => false

theorem ok_of {α : Type} {p : α → State → Bool} {r : EStateM.Result Flt State α} (h : okWith p r = true) :
    ∃ a u, r = .ok a u ∧ p a u = true := by
  cases r with
  | ok a s => exact ⟨a, s, rfl, h⟩
  | error f s => cases h

/-- It ends in a fault of that code. -/
def faultWith {α : Type} (c : FCode) : EStateM.Result Flt State α → Bool
  | .ok _ _ => false
  | .error f _ => f.code = c

theorem error_of {α : Type} {c : FCode} {r : EStateM.Result Flt State α} (h : faultWith c r = true) :
    ∃ f u, r = .error f u ∧ f.code = c := by
  cases r with
  | ok a s => cases h
  | error f s => exact ⟨f, s, rfl, by simpa [faultWith] using h⟩

/-- A word at S in a machine with nothing in it fires; `a` and `b` are its operands. -/
def plain (a b : W64) : State := put0 State.reset atS (blk1 0 a b true)
def plainE (a b : W64) : Env := env0 hd0 a b true (blk1 0 a b true)

theorem fires_plain (n : Needs) (a b : W64) : Fires (plain a b) n (plainE a b) := fires0 rfl (by decide) (by decide) rfl

theorem witness_IntegerResults : Fires.of (plain 7 0) (.div hd0 false) (plainE 7 0) ∧
    Fires.of (plain 0x8000000000000000 (-1)) (.div hd0 false) (plainE 0x8000000000000000 (-1)) ∧
    Fires.of (plain 7 2) (.remu hd0 true) (plainE 7 2) ∧
    Fires.of (plain 1 2) (.addi hd0 true 0x4000000) (plainE 1 2) :=
  ⟨fires_plain _ _ _, fires_plain _ _ _, fires_plain _ _ _, fires_plain _ _ _⟩

theorem witness_LogicResults : Fires.of (plain 7 64) (.shl hd0 false) (plainE 7 64) ∧
    (31#6).toNat < 32 ∧ Fires.of (plain 7 0) (.sari hd0 true 31) (plainE 7 0) ∧
    (60#6).toNat + (3#6).toNat < 64 ∧ Fires.of (plain 7 9) (.bins hd0 false 60 3) (plainE 7 9) ∧
    (0#6).toNat + (31#6).toNat < 32 ∧ Fires.of (plain 7 9) (.bext hd0 true 0 31) (plainE 7 9) :=
  ⟨fires_plain _ _ _, by decide, fires_plain _ _ _, by decide, fires_plain _ _ _, by decide, fires_plain _ _ _⟩

theorem witness_CompareAndMoveResults : Fires.of (plain 1 2) (.cmp hd0 false 7) (plainE 1 2) ∧
    Fires.of (plain 1 2) (.sel hd0) (plainE 1 2) ∧ Fires.of (plain 1 2) (.nop hd0) (plainE 1 2) :=
  ⟨fires_plain _ _ _, fires_plain _ _ _, fires_plain _ _ _⟩

theorem witness_AddressResults : Fires.of (plain 1 2) (.lea hd0 true 0x3FFFFFF) (plainE 1 2) ∧
    (31#6).toNat < 32 ∧ Fires.of (plain 1 2) (.alignup hd0 true 31) (plainE 1 2) ∧
    Fires.of (plain 1 2) (.widl hd0) (plainE 1 2) ∧
    (let s := put0 State.reset { atS with tms := [(15, 2 ^ 255)] } (blk1 0 1 2 true)
     ((s.ctx 0).tms.getD 0 (15#4).toNat).getLsbD 255 = true ∧ Fires.of s (.tmapx hd0 15) (plainE 1 2)) ∧
    (((plain 1 2).ctx 0).tms.getD 0 (15#4).toNat).getLsbD 255 = false ∧ Fires.of (plain 1 2) (.tmapx hd0 15) (plainE 1 2) :=
  ⟨fires_plain _ _ _, by decide, fires_plain _ _ _, fires_plain _ _ _,
   ⟨by decide +kernel, fires0 rfl (by decide) (by decide) rfl⟩, by decide +kernel, fires_plain _ _ _⟩

/-- A block whose one word is done, and the state in which it ends. -/
def overBlk : Blk := { blk1 0 1 2 true with nodes := [{ st := .done }] }
def ended (b : Blk) : State := { State.reset with focus := .ev 0 0 0 0 [], ctxs := [(0, atS)], blks := [(0, b)] }

/-- It has written register 63 twice. -/
def twice : Blk := { overBlk with writes := [(0, 63, some 1), (1, 63, none)] }

theorem witness_GeneralRegisters : Fires.of (plain 1 2) (.get hd0 63) (plainE 1 2) ∧
    Fires.of (plain 1 2) (.put hd0 63) (plainE 1 2) ∧ Fires.of (plain 1 2) (.null_ hd0 63) (plainE 1 2) ∧
    (ended twice).blks.get? (ctxKey 0 0) = some twice ∧ (ended twice).blockEnds (ctxKey 0 0) twice = true ∧
    ((ended twice).ctx (ctxKey 0 0)).kill = false ∧ twice.exits.length ≤ 1 ∧
    twice.writes = [(0, (63#6).toNat, some 1)] ++ (1, (63#6).toNat, none) :: [] ∧
    (63#6).toNat ∈ [(0, (63#6).toNat, some (1 : W64))].map (fun x => x.2.1) :=
  ⟨fires_plain _ _ _, fires_plain _ _ _, fires_plain _ _ _, rfl, by decide +kernel, rfl, by decide, rfl, by decide⟩

/-- The word of CSRR INCAR, alone in the cycle, whose reads the plan has set down. -/
def csrrW : W64 := match encode (.csrr hd0 0x015) with
  | .seq w => w
  | _ => 0
def csrr0 : State := put0 State.reset atS (blk1 csrrW 1 2 true)
def csrr1 : State := put0 { State.reset with csrNow := csrr0.csrReads [(0, 0, 0)] } atS (blk1 csrrW 1 2 true)

theorem witness_ControlRegisters_planned : csrr1.csrNow = csrr0.csrReads [(0, 0, 0)] ∧
    csrr0.actInstr (.fire 0 0 0) = some (.csrr hd0 0x015) ∧
    csrCheck (csrr1.ctx 0) (env0 hd0 1 2 true (blk1 csrrW 1 2 true)).word 0x015 false = none ∧
    Fires.of csrr1 (.csrr hd0 0x015) (env0 hd0 1 2 true (blk1 csrrW 1 2 true)) :=
  ⟨rfl, by decide +kernel, by decide +kernel, fires0 rfl (by decide) (by decide) rfl⟩

theorem witness_ControlRegisters : (plain 1 2).csrNow = [] ∧ Fires.of (plain 1 2) (.csrr hd0 0x030) (plainE 1 2) ∧
    csrCheck ((plain 1 2).ctx 0) (plainE 1 2).word 0x800 false = none ∧ Fires.of (plain 1 2) (.csrr hd0 0x800) (plainE 1 2) ∧
    csrCheck ((plain 1 2).ctx 0) (plainE 1 2).word 0x000 true = none ∧ csrValueOk 0x000 (plainE 1 2).a = true ∧
    csrValueOk 0x000 (w64 (((plain 1 2).begun (plainE 1 2)).csrRead 0 0x000) ||| (plainE 1 2).a) = true ∧
    csrValueOk 0x000 (w64 (((plain 1 2).begun (plainE 1 2)).csrRead 0 0x000) &&& ~~~(plainE 1 2).a) = true ∧
    Fires.of (plain 1 2) (.csrw hd0 0x000) (plainE 1 2) ∧ Fires.of (plain 1 2) (.csrs hd0 0x000) (plainE 1 2) ∧
    Fires.of (plain 1 2) (.csrc hd0 0x000) (plainE 1 2) :=
  ⟨rfl, fires_plain _ _ _, by decide +kernel, fires_plain _ _ _, by decide +kernel, by decide +kernel, by decide +kernel,
   by decide +kernel, fires_plain _ _ _, fires_plain _ _ _, fires_plain _ _ _⟩

/-- The word at U. -/
def plainU (a b : W64) : State := put0 State.reset atU (blk1 0 a b true)

theorem fires_plainU (n : Needs) (a b : W64) : Fires (plainU a b) n (plainE a b) := fires0 rfl (by decide) (by decide) rfl

theorem witness_ControlRegisterFaults :
    (csrLow 0xFFF || csrListed 0xFFF) = false ∧ Fires.of (plain 1 2) (.csrr hd0 0xFFF) (plainE 1 2) ∧
    ((plainU 1 2).ctx 0).sup = false ∧ csrListed 0x121 = true ∧ csrUser ((plainU 1 2).ctx 0) 0x121 = false ∧
    Fires.of (plainU 1 2) (.csrs hd0 0x121) (plainE 1 2) ∧
    (csrLow 0x010 || csrListed 0x010) = true ∧ csrRw 0x010 = false ∧ Fires.of (plain 1 2) (.csrw hd0 0x010) (plainE 1 2) ∧
    ((plain 1 2).ctx 0).sup = true ∧ (plainE 1 2).a.toNat % 4096 ≠ 0 ∧
    Fires.of (plain 1 2) (.csrw hd0 0x121) (plainE 1 2) :=
  ⟨by decide, fires_plain _ _ _, by decide, by decide, by decide +kernel, fires_plainU _ _ _, by decide, by decide,
   fires_plain _ _ _, by decide, by decide, fires_plain _ _ _⟩

/-- A block that has fired two exits; and the word in a handler. -/
def exited : Blk := { overBlk with exits := [(3, 1, .plain, 0x40, 0), (7, 0, .halt, 0, 0)], writes := [(0, 63, some 1)] }
def handling : Ctx := { atU with inh := true }

theorem witness_ExitsFire : Fires.of (plain 64 2) (.br hd0 7 1) (plainE 64 2) ∧
    (plainE 64 2).a.toNat % 64 = 0 ∧ Fires.of (plain 64 2) (.ret_ hd0 7) (plainE 64 2) ∧
    Fires.of (plain 64 2) (.halt hd0 7) (plainE 64 2) ∧
    ((put0 State.reset handling (blk1 0 64 2 true)).ctx 0).inh = true ∧
    Fires.of (put0 State.reset handling (blk1 0 64 2 true)) (.eret hd0 7) (plainE 64 2) ∧
    (ended exited).blks.get? (ctxKey 0 0) = some exited ∧ (ended exited).blockEnds (ctxKey 0 0) exited = true ∧
    ((ended exited).ctx (ctxKey 0 0)).kill = false ∧ exited.exits = [(3, 1, .plain, 0x40, 0), (7, 0, .halt, 0, 0)] ∧
    (exited.writes.map (fun w => w.2.1)).Nodup ∧
    (plainE 1 2).a.toNat % 64 ≠ 0 ∧ Fires.of (plain 1 2) (.brr hd0 7) (plainE 1 2) ∧
    ((plain 1 2).ctx 0).inh = false ∧ Fires.of (plain 1 2) (.eret hd0 7) (plainE 1 2) :=
  ⟨fires_plain _ _ _, by decide, fires_plain _ _ _, fires_plain _ _ _, rfl, fires0 rfl (by decide) (by decide) rfl,
   rfl, by decide +kernel, rfl, rfl, by decide, by decide, fires_plain _ _ _, rfl, fires_plain _ _ _⟩

theorem witness_ExitsFire_switch :
    let s := mem0 0 2
    let e := mem0E 0 2
    let m : MFmt := { ts := 6, cls := 15, ord := 0, scp := 0, ow := false, ofs := 0 }
    let f : Env := { e with a := e.a + w64 (8 * e.b.toNat) }
    let tr := hitTr s f m useLoad
    Fires.of s (.switch hd0 7) e ∧ Free s f m true false tr ∧ Reaches s f m 8 useLoad .plain tr ∧
    s.queueRead tr 8 = none ∧ s.paKind tr.pa = .window 0 0x100010 ∧ s.poisonAt tr.pa 8 = none ∧
    (w64 (forward e.blk e.idx 15 tr.pa 8 (s.rd tr.pa 8))).toNat % 64 = 0 :=
  ⟨fires_mem0 _ _ _, free_of (by decide +kernel), reaches_of (by decide +kernel), by decide +kernel⟩

theorem witness_ExitsFire_switch_hbm :
    let s := mem0 0x10000 2
    let e := mem0E 0x10000 2
    let m : MFmt := { ts := 6, cls := 15, ord := 0, scp := 0, ow := false, ofs := 0 }
    let f : Env := { e with a := e.a + w64 (8 * e.b.toNat) }
    let tr := hitTr s f m useLoad
    Fires.of s (.switch hd0 7) e ∧ Free s f m true false tr ∧ Reaches s f m 8 useLoad .plain tr ∧ OneWay s tr 8 ∧
    s.queueRead tr 8 = none ∧ s.paKind tr.pa = .hbm ∧ s.cached 0 tr = none ∧ s.poisoned tr.pa = false :=
  ⟨fires_mem0 _ _ _, free_of (by decide +kernel), reaches_of (by decide +kernel), way_of rfl, by decide +kernel⟩

/-- The word on a tile where event bit 4 is up and masked in. -/
def evented : State := put0 { State.reset with tiles := [(0, { evstat := 16, evmask := 24 })] } atS (blk1 0 1 2 true)

theorem witness_WaitAndInvalidate : Fires.of (plain 1 2) (.yield hd0) (plainE 1 2) ∧
    ((plain 1 2).ctx 0).sup = true ∧ (evented.tile 0).evstat &&& (evented.tile 0).evmask ≠ 0 ∧
    Fires.of evented (.waitev hd0) (plainE 1 2) ∧
    ((plain 1 2).tile 0).evstat &&& ((plain 1 2).tile 0).evmask = 0 ∧ (plainE 0 2).a = 0 ∧
    Fires.of (plain 0 2) (.waitev hd0) (plainE 0 2) ∧ (plainE 1 2).a ≠ 0 ∧ Fires.of (plain 1 2) (.waitev hd0) (plainE 1 2) ∧
    Fires.of (plain 1 2) (.tlbinvPage hd0) (plainE 1 2) ∧ ((plainU 1 2).ctx 0).sup = false ∧
    Fires.of (plainU 1 2) (.waitev hd0) (plainE 1 2) :=
  ⟨fires_plain _ _ _, rfl, by decide +kernel, fires0 rfl (by decide) (by decide) rfl, by decide +kernel, rfl,
   fires_plain _ _ _, by decide, fires_plain _ _ _, fires_plain _ _ _, rfl, fires_plainU _ _ _⟩

/-- What an M-format instruction meets at `a` over a machine, at S. -/
structure Meets (i : Head → MFmt → Instr) (m : MFmt) (n : Nat) (use : Bool → Use) (bank : BankUse) (s : State) (a b : W64)
    (also : Tr → State → Prop) : Prop where
  fires : Fires.of (memS s a b) (i hd0 m) (mem0E a b)
  free : ∀ read rel, Free (memS s a b) (mem0E a b) m read rel (hitTr (memS s a b) (mem0E a b) m use)
  reaches : Reaches (memS s a b) (mem0E a b) m n use bank (hitTr (memS s a b) (mem0E a b) m use)
  way : OneWay (memS s a b) (hitTr (memS s a b) (mem0E a b) m use) n
  also : also (hitTr (memS s a b) (mem0E a b) m use) (memS s a b)

theorem meets {i : Head → MFmt → Instr} {m : MFmt} {n : Nat} {use : Bool → Use} {bank : BankUse} {s : State} {a b : W64}
    {also : Tr → State → Prop} (hw : s.ways = [])
    (hp : (passes (memS s a b) (mem0E a b) m n use bank &&
      !(memS s a b).windowHeld 0 (hitTr (memS s a b) (mem0E a b) m use).pa) = true)
    (h : also (hitTr (memS s a b) (mem0E a b) m use) (memS s a b)) : Meets i m n use bank s a b also := by
  rw [Bool.and_eq_true, Bool.not_eq_true'] at hp
  exact ⟨fires_memS _ _ _ _, fun _ _ => ⟨ordered_memS _ _ _ _ _ _, hp.2⟩, reaches_of hp.1, way_of hw, h⟩

def busyOp : MOp := ⟨7, 0, ⟨0, 0, 0, 0, true, 0⟩, none, none, [], 0, 0, false, []⟩

/-- No accepted operation is waited for, and the bytes are no work-queue entry. -/
abbrev Now (t : State) (tr : Tr) : Prop := t.accBusyAt tr.pa 8 = [] ∧ t.queueRead tr 8 = none

/-- A page of class QUEUE at 0x70000, in the machine's TLB. -/
def queuePage : State := { base with tiles := [(0, { tlb := ⟨5, 2, 7, leaf 0x90000 6⟩ :: tlb0 })] }

theorem witness_LoadResults :
    Meets .ld m8 8 useLoad .plain base 0x10 0 (fun tr t => Now t tr ∧ t.paKind tr.pa = .window 0 0x100010 ∧
      storageOff 0x100010 = true ∧ t.poisonAt tr.pa 8 = none) ∧
    Meets .ld m8 8 useLoad .plain ({ base with poison := [0xF000000100000 / 128] }) 0x10 0 (fun tr t => Now t tr ∧
      t.paKind tr.pa = .window 0 0x100010 ∧ t.poisonAt tr.pa 8 = some (poisonFault 0xF000000100000)) ∧
    Meets .ld m8 8 useLoad .plain ({ base with regions := [(3, { owner := some 0 })] }) 0x20A01FF8 0 (fun tr t =>
      Now t tr ∧ t.paKind tr.pa = .window 0 0xA01FF8 ∧ storageOff 0xA01FF8 = false ∧ t.winUndef 0 0xA01FF8 = 2 ^ 64 - 1) ∧
    Meets .ld m8 8 useLoad .plain base 0x20826008 0 (fun tr t => Now t tr ∧ t.paKind tr.pa = .window 0 0x826008 ∧
      storageOff 0x826008 = false ∧ t.winUndef 0 0x826008 = 0xFFFF) ∧
    Meets .ld m8 8 useLoad .plain ({ base with tiles := [(0, { tlb := tlb0, mrun := [busyOp] })] }) 0x20800000 0 (fun tr t =>
      t.paKind tr.pa = .window 0 0x800000 ∧ t.accBusyAt tr.pa 8 = [7]) ∧
    Meets .ld m8 8 useLoad .plain base 0x1FFF8 0 (fun tr t => Now t tr ∧ t.paKind tr.pa = .hbm ∧
      t.poisoned tr.pa = false ∧ t.cached 0 tr = none) ∧
    Meets .ld m8 8 useLoad .plain ({ base with tcache := [⟨0, 512, List.replicate 128 3, false⟩] }) 0x10000 0 (fun tr t =>
      Now t tr ∧ t.paKind tr.pa = .hbm ∧ m8.ord = 0 ∧ t.cached 0 tr = some ⟨0, 512, List.replicate 128 3, false⟩) ∧
    Meets .ld m8 8 useLoad .plain ({ base with poison := [512] }) 0x10000 0 (fun tr t => Now t tr ∧
      t.paKind tr.pa = .hbm ∧ t.poisoned tr.pa = true ∧ t.cached 0 tr = none) ∧
    Meets .ld { m8 with ord := 1, scp := 3 } 8 useLoad .plain ({ base with tcache := [⟨0, 512, [], false⟩] }) 0x10000 0
      (fun tr t => Now t tr ∧ t.paKind tr.pa = .hbm ∧ t.poisoned tr.pa = false ∧
        ∀ l ∈ t.tcache, l.line = tr.pa / 128 → l.weight = false) ∧
    Meets .ld m8 8 useLoad .plain base 0x50000 0 (fun tr t => Now t tr ∧ t.paKind tr.pa = .slow 0 ∧
      t.poisonPages.contains (tr.pa / 65536) = false ∧ t.slowBad tr.pa = false) ∧
    Meets .ld m8 8 useLoad .plain ({ base with poisonPages := [0x1000000000000 / 65536] }) 0x50000 0 (fun tr t =>
      Now t tr ∧ t.paKind tr.pa = .slow 0 ∧ t.poisonPages.contains (tr.pa / 65536) = true) ∧
    Meets .ld m8 8 useLoad .plain queuePage 0x70000 0 (fun tr t => t.accBusyAt tr.pa 8 = [] ∧ t.queueRead tr 8 = some 0) :=
  ⟨meets rfl (by decide +kernel) (by decide +kernel),
   meets rfl (by decide +kernel) (by decide +kernel),
   meets rfl (by decide +kernel) (by decide +kernel),
   meets rfl (by decide +kernel) (by decide +kernel),
   meets rfl (by decide +kernel) (by decide +kernel),
   meets rfl (by decide +kernel) (by decide +kernel),
   meets rfl (by decide +kernel) (by decide +kernel),
   meets rfl (by decide +kernel) (by decide +kernel),
   meets rfl (by decide +kernel) (by decide +kernel),
   meets rfl (by decide +kernel) (by decide +kernel),
   meets rfl (by decide +kernel) (by decide +kernel),
   meets rfl (by decide +kernel) (by decide +kernel)⟩

theorem witness_StoresEnter :
    Meets .st m8 8 useStore .plain base 0x10 7 (fun tr t => t.paKind tr.pa = .window 0 0x100010 ∧ t.winBusy 0 0x100010 8 = false) ∧
    Meets .st m8 8 useStore .plain base 0x10000 7 (fun tr t => t.paKind tr.pa = .hbm) ∧
    Meets .st m8 8 useStore .plain base 0x20B00008 7 (fun tr t => t.paKind tr.pa = .window 0 0xB00008 ∧ t.winBusy 0 0xB00008 8 = true) ∧
    Meets .tagset m8 8 useTagWrite .tagged base 0x20008 7 (fun _ _ => True) ∧
    Meets .inval m8 1 useLoad .plain base 0x1FFFF 7 (fun _ _ => True) ∧
    (Fires.of (memS base 1 0) (.ld hd0 m8) (mem0E 1 0) ∧ (mAddr (mem0E 1 0) m8).toNat % 8 ≠ 0) ∧
    (Fires.of (memS base 0x30000 0) (.st hd0 m8) (mem0E 0x30000 0) ∧
      hit (memS base 0x30000 0) (mem0E 0x30000 0) m8 useStore = .fault (classFault 0x30000 1 0)) ∧
    (Fires.of (memS base 0x30000 0) (.ldf hd0 m8) (mem0E 0x30000 0) ∧
      hit (memS base 0x30000 0) (mem0E 0x30000 0) m8 useTagRead = .fault (classFault 0x30000 1 5)) ∧
    (let s := put0 base atU (blk1 0 0x20C08000 0 true)
     Fires.of s (.st hd0 m8) (mem0E 0x20C08000 0) ∧
     hit s (mem0E 0x20C08000 0) m8 useStore = .ok ⟨0xF000000C08000, 0, false, leaf 0xF000000000000 0⟩ ∧
     s.paKind 0xF000000C08000 = .window 0 0xC08000 ∧ s.winPerm 0 0x20C08000 0xF000000C08000 0xC08000 false = false) ∧
    (Fires.of (memS base 0x40000 0) (.st hd0 m8) (mem0E 0x40000 0) ∧
     hit (memS base 0x40000 0) (mem0E 0x40000 0) m8 useStore = .ok ⟨0xF000000000000, 0, false, leaf 0xF000000000000 0⟩ ∧
     (memS base 0x40000 0).winPerm 0 0x40000 0xF000000000000 0 false = true ∧ (memS base 0x40000 0).role 0 0 = 1) :=
  ⟨meets rfl (by decide +kernel) (by decide +kernel), meets rfl (by decide +kernel) (by decide +kernel),
   meets rfl (by decide +kernel) (by decide +kernel), meets rfl (by decide +kernel) trivial, meets rfl (by decide +kernel) trivial,
   ⟨fires_memS _ _ _ _, by decide +kernel⟩, ⟨fires_memS _ _ _ _, by decide +kernel⟩, ⟨fires_memS _ _ _ _, by decide +kernel⟩,
   ⟨fires0 rfl (by decide) (by decide) rfl, by decide +kernel⟩, ⟨fires_memS _ _ _ _, by decide +kernel⟩⟩

/-- The word at 0x20000 full. -/
def fullWord : State := { base with full := [0xF000000120000 / 8] }

theorem witness_TaggedAccesses :
    Meets .ldf m8 8 useTagRead .tagged fullWord 0x20000 7 (fun tr t => t.poisonAt tr.pa 8 = none ∧ t.isFull tr.pa = true ∧
      ∀ w ∈ t.waits, w.tagOn tr.pa = none) ∧
    Meets .ldf m8 8 useTagRead .tagged base 0x20000 7 (fun tr t => t.poisonAt tr.pa 8 = none ∧ t.isFull tr.pa = false ∧
      t.tagRefused 0 tr = false) ∧
    Meets .ste m8 8 useTagWrite .tagged base 0x20000 7 (fun tr t => t.poisonAt tr.pa 8 = none ∧ t.isFull tr.pa = false ∧
      ∀ w ∈ t.waits, w.tagOn tr.pa = none) ∧
    Meets .ste m8 8 useTagWrite .tagged fullWord 0x20000 7 (fun tr t => t.poisonAt tr.pa 8 = none ∧ t.isFull tr.pa = true ∧
      t.tagRefused 2 tr = false) ∧
    Meets .ldff m8 8 useTagRead .tagged fullWord 0x20000 7 (fun tr t => t.poisonAt tr.pa 8 = none ∧ t.isFull tr.pa = true ∧
      ∀ w ∈ t.waits, w.tagOn tr.pa = none) ∧
    Meets .ldff m8 8 useTagRead .tagged base 0x20000 7 (fun tr t => t.poisonAt tr.pa 8 = none ∧ t.isFull tr.pa = false ∧
      t.tagRefused 1 tr = false) ∧
    Meets .tagq m8 8 useTagRead .tagged fullWord 0x20000 7 (fun tr t => t.poisonAt tr.pa 8 = none) ∧
    Fires.of (memS base 1 0) (.pref hd0 m8) (mem0E 1 0) ∧ Fires.of (memS base 1 0) (.fence hd0 0 3) (mem0E 1 0) ∧
    (0xFFFF#16) ≠ 0 ∧ (memS base 1 0).fenceReady 0 0 (mem0E 1 0).blk (0xFFFF#16).toNat = true ∧
    Fires.of (memS base 1 0) (.fence hd0 0xFFFF 3) (mem0E 1 0) :=
  ⟨meets rfl (by decide +kernel) (by decide +kernel), meets rfl (by decide +kernel) (by decide +kernel),
   meets rfl (by decide +kernel) (by decide +kernel), meets rfl (by decide +kernel) (by decide +kernel),
   meets rfl (by decide +kernel) (by decide +kernel), meets rfl (by decide +kernel) (by decide +kernel),
   meets rfl (by decide +kernel) (by decide +kernel), fires_memS _ _ _ _, fires_memS _ _ _ _, by decide, by decide +kernel,
   fires_memS _ _ _ _⟩

def amo4 : MFmt := { m8 with ts := 7 }
def amo8 : MFmt := { m8 with ts := 8 }

theorem witness_AtomicResults :
    Meets .amo amo4 4 useAtomic .plain base 0x1FFFC 7 (fun tr t => t.poisonAt tr.pa 4 = none ∧ amo4.ts.getLsbD 3 = false) ∧
    Meets .cas amo4 4 useAtomic .plain base 0x10 7 (fun tr t => t.poisonAt tr.pa 4 = none) ∧
    Meets .red amo8 8 useAtomic .plain base 0x1FFF8 7 (fun tr t => t.poisonAt tr.pa 8 = none ∧ amo8.ts.getLsbD 3 = true) ∧
    Meets .amof { m8 with ts := 1 } 4 useAtomic .plain base 0x10 7 (fun tr t => t.poisonAt tr.pa 4 = none) ∧
    Meets .redf { m8 with ts := 10 } 8 useAtomic .plain base 0x10 7 (fun tr t => t.poisonAt tr.pa 8 = none) :=
  ⟨meets rfl (by decide +kernel) (by decide +kernel), meets rfl (by decide +kernel) (by decide +kernel),
   meets rfl (by decide +kernel) (by decide +kernel), meets rfl (by decide +kernel) (by decide +kernel),
   meets rfl (by decide +kernel) (by decide +kernel)⟩

theorem witness_MemoryFrames :
    (memS base 0x20000 7).log = [] ∧ (memS base 0x20000 7).waits = [] ∧
    Meets .ste m8 8 useTagWrite .tagged base 0x20000 7 (fun _ _ => True) ∧
    (∃ s', exec (.ste hd0 m8) (memS base 0x20000 7) = .next s') ∧
    Meets .cas amo4 4 useAtomic .plain base 0x10 7 (fun _ _ => True) ∧
    Meets .ld m8 8 useLoad .plain base 0x10 7 (fun _ _ => True) ∧ (∃ s', exec (.ld hd0 m8) (memS base 0x10 7) = .next s') ∧
    Meets .amo amo8 (if amo8.ts.getLsbD 3 then 8 else 4) useAtomic .plain base 0x10 7 (fun _ _ => True) ∧
    (∃ s', exec (.amo hd0 amo8) (memS base 0x10 7) = .next s') :=
  ⟨rfl, rfl, meets rfl (by decide +kernel) trivial, ⟨_, rfl⟩, meets rfl (by decide +kernel) trivial,
   meets rfl (by decide +kernel) trivial, ⟨_, rfl⟩, meets rfl (by decide +kernel) trivial, ⟨_, rfl⟩⟩

/-- An empty image stands at 0x10000. -/
def imaged : State := { base with mem := [(0x10006, 0x61), (0x10007, 0xCF)] }

/-- A strand whose task owns region 3. -/
def owner3 : Ctx := { atS with region := some 3 }

/-- Its words and its bytes. -/
def img0 : List W64 := 0xCF61000000000000 :: List.replicate 383 0
def bytes0 : List Byte := [0, 0, 0, 0, 0, 0, 0x61, 0xCF] ++ List.replicate 3064 0

theorem words0 : (List.range 384).map (fun i => w64 (leNat ((bytes0.drop (8 * i)).take 8))) = img0 := by
  rw [show (384 : Nat) = 383 + 1 from rfl, List.range_succ_eq_map, List.map_cons, List.map_map, img0]
  refine congrArg₂ List.cons (by decide +kernel) ?_
  have h : ∀ i ∈ List.range 383, (((fun i => w64 (leNat ((bytes0.drop (8 * i)).take 8))) ∘ Nat.succ) i) = 0 := by
    intro i hi
    rw [List.mem_range] at hi
    have h1 : bytes0.drop (8 * i.succ) = List.replicate (3064 - 8 * i) 0 := by
      rw [show 8 * i.succ = [(0 : Byte), 0, 0, 0, 0, 0, 0x61, 0xCF].length + 8 * i by simp; omega]
      rw [bytes0, ← List.drop_drop, List.drop_left, List.drop_replicate]
    simp only [Function.comp, h1, List.take_replicate]
    rw [show min 8 (3064 - 8 * i) = 8 by omega]
    decide
  rw [List.map_congr_left h, List.map_const', List.length_range]

theorem check0 : imgCheck img0 = none := by decide +kernel

theorem readImage_of {t part : Nat} {sup : Bool} {va : W64} {own : Owner} {s u : State} {bs : List Byte}
    {img : List W64} (ha : va.toNat % 64 = 0) (h : readU t part { useERead sup [0] 0 with own := own } .engine va 3072 s = .ok bs u)
    (hw : (List.range 384).map (fun i => w64 (leNat ((bs.drop (8 * i)).take 8))) = img) (hc : imgCheck img = none) :
    readImage t part sup va own s = .ok img u := by
  simp only [readImage, effect_bind, effect_needAlign, ha, if_true, h, hw, hc, effect_pure]

theorem witness_ConfigImages_load :
    let s := memS imaged 0x10000 0
    let e := mem0E 0x10000 0
    let t1 := (s.begun e).setCfg 0 0 { (s.begun e).cfgEnt 0 0 with v := false }
    Fires.of s (.cfgld hd0) e ∧ (s.cfgVictim 0).isSome ∧
    ((((s.begun e).cfgFind 0 5 0x10000 false).or ((s.begun e).cfgFind 0 5 0x10000 true)).or ((s.begun e).cfgVictim 0) = some 0) ∧
    e.a.toNat % 64 = 0 ∧ ReadsAt s 0 0 (useERead true [0] 0) e.a 3072 ⟨0x10000, 0, false, leaf 0x10000 0⟩ ∧
    imgCheck ((List.range 384).map (fun i => w64 (leNat (((s.bytes 0x10000 3072).drop (8 * i)).take 8)))) = none ∧
    ∃ u, readImage 0 0 true 0x10000 .focus t1 = .ok img0 u := by
  intro s e t1
  refine ⟨fires_memS _ _ _ _, by decide +kernel, by decide +kernel, by decide, ⟨by decide, by decide, by decide +kernel,
    by decide +kernel, way_of rfl, by decide +kernel⟩, ?_, ?_⟩
  · rw [show s.bytes 0x10000 3072 = bytes0 by decide +kernel, words0]
    exact check0
  obtain ⟨l, u, h, hl⟩ := ok_of (show okWith (fun l _ => l = bytes0) (readU 0 0 { useERead true [0] 0 with own := .focus } .engine 0x10000 3072 t1) = true
    by decide +kernel)
  exact ⟨u, readImage_of (by decide) h (by rw [of_decide_eq_true hl]; exact words0) check0⟩

theorem witness_ConfigImages_fault :
    let s := memS base 0x30000 0
    let e := mem0E 0x30000 0
    let t1 := (s.begun e).setCfg 0 0 { (s.begun e).cfgEnt 0 0 with v := false }
    Fires.of s (.cfgld hd0) e ∧ (s.cfgVictim 0).isSome ∧ e.a.toNat % 64 = 0 ∧
    (∃ f u, readImage 0 0 true 0x30000 .focus t1 = .error f u ∧ f.code = .regionClass) ∧
    Fires.of (memS base 0x10008 0) (.cfgld hd0) (mem0E 0x10008 0) ∧ ((memS base 0x10008 0).cfgVictim 0).isSome ∧
    (mem0E 0x10008 0).a.toNat % 64 ≠ 0 :=
  ⟨fires_memS _ _ _ _, by decide +kernel, by decide, error_of (by decide +kernel), fires_memS _ _ _ _, by decide +kernel,
   by decide⟩

/-- RECONF in flight, and one that waits. -/
def reconfAt (r : Region) : State := put0 { base with regions := [(3, r)] } owner3 (blk1 0 0x10000 0 true)
def reconfWaits : State :=
  { put0 { base with regions := [(3, { reconf := true, draining := true })], waits := [⟨0, 0, .reconf 0x10000⟩],
                     tiles := [(0, { tlb := tlb0, cfg := [(5, { v := true, asn := 5, va := 0x10000 })] })] }
    owner3 (blk1 0 0x10000 0 true) with focus := .nowhere }

/-- The machine as its RECONF waits: ready with the image in cache entry 5, and not ready with an operation of accumulator 3
accepted. -/
def reconfNow (ops : List MOp) : State :=
  put0 { base with
    regions := [(3, {})]
    tiles := [(0, { tlb := tlb0, cfg := [(5, { v := true, asn := 5, va := 0x10000 })], mrun := ops })] }
    owner3 (blk1 0 0x10000 0 true)
def reconfMarked (ops : List MOp) : State :=
  let m := ((reconfNow ops).begun (mem0E 0x10000 0)).updRegion 3 (fun r => { r with reconf := true, draining := true })
  { m with waits := m.waits ++ [⟨0, 0, .reconf 0x10000⟩] }

theorem witness_ConfigImages_reconf :
    (∀ ops, Fires.of (reconfNow ops) (.reconf hd0) (mem0E 0x10000 0) ∧ ((reconfNow ops).ctx 0).region = some 3 ∧
      ((reconfNow ops).region 3).reconf = false ∧ (reconfNow ops).waits = []) ∧
    (reconfMarked []).reconfReady 0 3 0 0 = true ∧ (0x10000#64).toNat % 64 = 0 ∧
    (reconfMarked []).cfgFind 0 (((reconfNow []).asnOf 0).getD 0) 0x10000 false = some 5 ∧
    (reconfMarked [{ busyOp with tok := 0xC00000000000000, sent := true }]).reconfReady 0 3 0 0 = false ∧
    Fires.of (reconfAt { reconf := true }) (.reconf hd0) (mem0E 0x10000 0) ∧
    ((reconfAt { reconf := true }).region 3).reconf = true ∧ ((reconfAt { reconf := true }).ctx 0).region = some 3 ∧
    Fires.of (memS base 0x10000 0) (.reconf hd0) (mem0E 0x10000 0) ∧ ((memS base 0x10000 0).ctx 0).region = none :=
  ⟨fun _ => ⟨fires0 rfl (by decide) (by decide) rfl, rfl, rfl, rfl⟩, by decide +kernel, by decide, by decide +kernel,
   by decide +kernel, fires0 rfl (by decide) (by decide) rfl, by decide +kernel, rfl, fires_memS _ _ _ _, rfl⟩

/-- CTXSAVE or CTXREST of context 15, which is as `c`; the image stands at 0x10000. -/
def ctx15 (s : State) (c d : Ctx) : State :=
  { put0 s c (blk1 0 15 0x10000 true) with ctxs := [(0, c), (15, d)] }

theorem fires_ctx15 (s : State) (c d : Ctx) (n : Needs) (hs : c.st = .run ∧ c.sync = none) (hi : irvFind c.irv 0 = none) :
    Fires (ctx15 s c d) n (mem0E 15 0x10000) := by
  refine ⟨rfl, ?_, hi, (by decide : 0 < 16)⟩
  have hc : (ctx15 s c d).ctx 0 = c := rfl
  have hb : (ctx15 s c d).blks.get? 0 = some (blk1 0 15 0x10000 true) := rfl
  have hy : c.syncStop (ctx15 s c d).cycle = false := by simp [Ctx.syncStop, hs.2]
  have hj : ∀ q, c.issues (ctx15 s c d).cycle q = true := fun q => by simp [Ctx.issues, hy, hs.1]
  simp [State.firing, mem0E, env0, ctxKey, hc, hb, hj, Blk.node, blk1, hd0]

/-- A strand image of WID 0 stands at 0x10000. -/
def saved : State := { base with mem := [(0x10000, 1), (0x10006, 0x6E), (0x10007, 0x1A)] }

theorem witness_ContextImages :
    Fires.of (ctx15 base atU {}) (.ctxrest hd0) (mem0E 15 0x10000) ∧ Goes (memS base 15 0x10008) (mem0E 15 0x10008) ∧
    Fires.of (memS base 15 0x10008) (.ctxsave hd0) (mem0E 15 0x10008) ∧
    Fires.of (memS base 15 0x10008) (.ctxrest hd0) (mem0E 15 0x10008) ∧ (mem0E 15 0x10008).b.toNat % 65536 ≠ 0 ∧
    Fires.of (ctx15 base atU {}) (.ctxsave hd0) (mem0E 15 0x10000) ∧ ((ctx15 base atU {}).ctx 0).sup = false ∧
    Fires.of (ctx15 base atS {}) (.ctxsave hd0) (mem0E 15 0x10000) ∧ ((ctx15 base atS {}).ctx 0).sup = true ∧
    (15#64).toNat < 16 ∧ (0x10000#64).toNat % 65536 = 0 ∧ ((ctx15 base atS {}).ctx 15).st ≠ .held ∧
    (let s := ctx15 base atS { st := .held }
     let t := s.begun (mem0E 15 0x10000)
     let put := fun (off : Nat) (bs : List Byte) => writeF 0 0 (useEWrite true [0] 0) .engine (0x10000 + w64 off) bs
     Fires.of s (.ctxsave hd0) (mem0E 15 0x10000) ∧ (s.ctx 15).st = .held ∧
     ∃ l u, (t.imageOf 15 true).mapM (fun p => put p.1 p.2) t = .ok l u ∧
       okWith (fun _ _ => true) (put 0 (leBytes 1 (u.imgWord0 15 true % 256 + 1)) u) = true) ∧
    (let s := ctx15 saved atS { st := .held }
     let t := s.begun (mem0E 15 0x10000)
     Fires.of s (.ctxrest hd0) (mem0E 15 0x10000) ∧ (s.ctx 15).st = .held ∧
     ∃ b u, readCtxImage (mem0E 15 0x10000) t = .ok b u ∧
       (u.ctxrestStatus 15 b = 0 && !u.pbBlocked 0 (bitsOf (imgN b 0 8) 3 2) b) = true) :=
  ⟨fires_ctx15 _ _ _ _ (by decide) (by decide), rfl, fires_memS _ _ _ _, fires_memS _ _ _ _, by decide,
   fires_ctx15 _ _ _ _ (by decide) (by decide), rfl, fires_ctx15 _ _ _ _ (by decide) (by decide), rfl, by decide, by decide,
   by decide +kernel, ⟨fires_ctx15 _ _ _ _ (by decide) (by decide), rfl, ok_of (by decide +kernel)⟩,
   ⟨fires_ctx15 _ _ _ _ (by decide) (by decide), rfl, ok_of (by decide +kernel)⟩⟩


/-- Fields of an XCOPY: mode, the wait flag, a tensor map register 15. -/
def xf (mode : BitVec 3) (wf : Bool) : XcopyF := ⟨mode, 3, 15, false, 0, wf, false, 7⟩

/-- Copy channel 3 of tile 0 as `c`, over the machine with translations. -/
def copies (c : CopyCh) : State := { base with tiles := [(0, { tlb := tlb0, copy := [(3, c)] })] }
def someXfer : Xfer := ⟨1, 0, 0, 0, 0, 8, none, false, false, ⟨0, 0, 0, 0, true, 0⟩⟩

theorem witness_CopyChannels :
    Goes (memS base 0x40 8) (mem0E 0x40 8) ∧ Fires.of (memS base 0x40 8) (.xcopy hd0 (xf 0 true)) (mem0E 0x40 8) ∧
    (xf 0 true).mode = 0 ∧ xferLen (xf 0 true) 0 % 8 = 0 ∧ (0x40#64).toNat % 8 = 0 ∧ (8#64).toNat % 8 = 0 ∧
    ((memS base 0x40 8).copyCh 0 3).queue = [] ∧ ((memS base 0x40 8).copyCh 0 3).state = 0 ∧
    Fires.of (memS (copies { state := 1, queue := List.replicate 3 someXfer }) 0x40 8) (.xcopy hd0 (xf 0 true)) (mem0E 0x40 8) ∧
    (((memS (copies { state := 1, queue := List.replicate 3 someXfer }) 0x40 8).begun (mem0E 0x40 8)).copyCh 0 3).queue.length < 4 ∧
    Fires.of (memS (copies { state := 1, queue := List.replicate 4 someXfer }) 0x40 8) (.xcopy hd0 (xf 0 true)) (mem0E 0x40 8) ∧
    4 ≤ ((memS (copies { state := 1, queue := List.replicate 4 someXfer }) 0x40 8).copyCh 0 3).queue.length ∧
    (xf 1 false).mode ≠ 0 ∧ (((memS base 0x40 8).ctx 0).tms.getD 0 15).getLsbD 255 = false ∧
    Fires.of (memS base 0x40 8) (.xcopy hd0 (xf 1 false)) (mem0E 0x40 8) ∧
    (mem0E 0x40 8).a ≠ 0 ∧ (mem0E 0x40 8).a.toNat % 64 = 0 ∧ Fires.of (memS base 0x40 8) (.xchain hd0 3) (mem0E 0x40 8) ∧
    (mem0E 0 8).a = 0 ∧ Fires.of (memS base 0 8) (.xchain hd0 3) (mem0E 0 8) ∧
    Fires.of (memS base 0 8) (.xstat hd0 3) (mem0E 0 8) :=
  ⟨rfl, fires_memS _ _ _ _, rfl, by decide, by decide, by decide, by decide +kernel, by decide +kernel, fires_memS _ _ _ _,
   by decide +kernel, fires_memS _ _ _ _, by decide +kernel, by decide, by decide +kernel, fires_memS _ _ _ _, by decide,
   by decide, fires_memS _ _ _ _, rfl, fires_memS _ _ _ _, fires_memS _ _ _ _⟩

/-- Tensor maps in memory at 0x10000: element size 1 byte, every extent 1, V as given; and one whose extent 2 is 0. -/
def mapAt (v : Byte) (x2 : Byte) : State := { base with
  mem :=
    [(0x10008, 1), (0x1000C, 1)] ++ (if x2 = 0 then [] else [(0x10010, x2)]) ++ (if v = 0 then [] else [(0x1001F, v)]) }

def isMap (v : Bool) (bs : List Byte) (_ : State) : Bool := (BitVec.ofNat 256 (leNat bs)).getLsbD 255 == v

def mapUse : Use := { rd := true, sup := true, cls := [0] }

def readsMap (s : State) (p : List Byte → State → Bool) : Bool :=
  okWith p (plainRead (mem0E 0x10000 8) mapUse 0x10000 32 ((memS s 0x10000 8).begun (mem0E 0x10000 8))) &&
  (plainHold (mem0E 0x10000 8) mapUse 0x10000 32 (memS s 0x10000 8)).isNone

/-- A committed store of class 15 that has not been performed. -/
def store15 : StEnt := ⟨0, .st, 0x10000, 8, 1, 15, none, none, 0x10000, true, false, 0, 0⟩

def goodMap (bs : List Byte) : Bool :=
  let tm := BitVec.ofNat 256 (leNat bs)
  tm.extractLsb' 250 5 = 0 && tm.extractLsb' 64 32 ≠ 0 && tm.extractLsb' 96 32 ≠ 0 && tm.extractLsb' 128 32 ≠ 0

def drains : State := copies { state := 1, queue := [someXfer] }

theorem witness_StreamPorts_maps :
    (memS base 0x10000 8).orderReady 0 0 (blk1 0 0x10000 8 true) 15 true false = true ∧
    (plainHold (mem0E 0x10010 8) mapUse 0x10010 32 (memS base 0x10010 8)).isNone = true ∧
    (let s := put0 base { atS with sq := [store15] } (blk1 0 0x10000 8 true)
     s.orderReady 0 0 (blk1 0 0x10000 8 true) 15 true false = false ∧ Fires.of s (.tmapset hd0 15) (mem0E 0x10000 8)) ∧
    (∀ s : State, Fires.of (memS s 0x10000 8) (.tmapset hd0 15) (mem0E 0x10000 8)) ∧ (0x10000#64).toNat % 32 = 0 ∧
    readsMap (mapAt 0x80 1) (fun bs s => isMap true bs s && goodMap bs) = true ∧
    readsMap (mapAt 0x80 0) (fun bs s => isMap true bs s && !goodMap bs) = true ∧
    readsMap (mapAt 0 1) (isMap false) = true ∧ (mem0E 0x10010 8).a.toNat % 32 ≠ 0 ∧
    ReadsAt (memS base 0x10000 8) 0 0 { rd := true, sup := true, cls := [0] } 0x10000 32 ⟨0x10000, 0, false, leaf 0x10000 0⟩ ∧
    (BitVec.ofNat 256 (leNat ((mem0E 0x10000 8).sees 0x10000 ((memS base 0x10000 8).bytes 0x10000 32)))).getLsbD 255 = false ∧
    Fires.of (memS base 0x10010 8) (.tmapset hd0 15) (mem0E 0x10010 8) ∧
    (∀ s : State, ∀ p, Fires.of (memS s 0x40 8) (.drain hd0 p) (mem0E 0x40 8)) ∧
    ((memS base 0x40 8).begun (mem0E 0x40 8)).drainSet 0 4 = [] ∧
    ((memS drains 0x40 8).begun (mem0E 0x40 8)).drainSet 0 0 ≠ [] :=
  ⟨rfl, by decide +kernel, ⟨by decide +kernel, fires0 rfl ⟨rfl, rfl⟩ rfl rfl⟩,
   fun s => fires_memS s _ _ _, by decide, by decide +kernel, by decide +kernel, by decide +kernel, by decide,
   ⟨by decide, by decide, by decide +kernel, by decide +kernel, way_of rfl, by decide +kernel⟩, by decide +kernel,
   fires_memS _ _ _ _, fun s _ => fires_memS s _ _ _, by decide +kernel, by decide +kernel⟩

/-- Over `base`: a strand that owns region 3, whose image routes stream-in port 3 and an output to stream-out port 3; `a` a
tensor map in TM15. -/
def routed (r : Region) (tm : BitVec 256) (chans : Map Chan) : State :=
  put0 { base with regions := [(3, { r with img := ((List.replicate 384 0).set 24 (0x8000 + 0x4000 + 3 * 512)).set 40 (2 ^ 63) })]
                   chans := chans } { owner3 with tms := [(15, tm)] } (blk1 0 0x30000 8 true)
def routedE : Env := mem0E 0x30000 8
def map8 : BitVec 256 := BitVec.ofNat 256 (2 ^ 255 + 8 * 2 ^ 64 + 2 ^ 96 + 2 ^ 128)
def wired : Region := { loaded := true }
def bound3 : Region := { wired with sin := [(3, ⟨map8, none, 0, 1, false, 0, ⟨0, 0, 0, 0, true, 0⟩⟩)], sout := [(3, ⟨map8, 0, 1, ⟨0, 0, 0, 0, true, 0⟩⟩)] }

theorem fires_routed (n : Needs) (r : Region) (tm : BitVec 256) (c : Map Chan) : Fires (routed r tm c) n routedE :=
  fires0 rfl ⟨rfl, rfl⟩ rfl rfl

/-- What a channel command finds at 0x30000. -/
def Locates (s : State) (e : Env) (p : Nat → State → Bool) : Prop :=
  ∃ k u, chanLocate e 0x30000 (s.begun e) = .ok k u ∧ p k u = true

/-- A channel of 8-byte elements, 8 of them on chip in bank 8, from word 0's flags and words 2, 3 and 5. -/
def ch8 (flags : Nat) (push pop n on : Nat) : Chan :=
  { w := [w64 (flags * 2 ^ 59 + 2 ^ 33 + 8 * 2 ^ 28 + 32), w64 (2 * 2 ^ 9 + 0), w64 push, w64 pop, 0, w64 n, 0, 0], onchip := on }

theorem witness_StreamPorts :
    ((routed {} map8 []).region 3).loaded = false ∧ Fires.of (routed {} map8 []) (.sbindMap hd0 3 15 true) routedE ∧
    Fires.of (routed {} map8 []) (.sbindChannel hd0 3) routedE ∧ (((routed wired map8 []).begun routedE).region 3).loaded = true ∧
    Goes (routed wired map8 []) routedE ∧ ((routed wired map8 []).ctx 0).region = some 3 ∧
    (((routed wired map8 []).begun routedE).region 3).reconf = false ∧
    Fires.of (routed wired map8 []) (.sbindMap hd0 3 15 true) routedE ∧ sbindMapOk map8 = true ∧
    ((((routed wired map8 []).begun routedE).region 3).inRoute 3).testBit 15 = true ∧
    (((routed wired map8 []).begun routedE).region 3).sin.get? 3 = none ∧
    (((routed bound3 map8 []).begun routedE).region 3).sin.get? 3 ≠ none ∧
    Fires.of (routed wired map8 []) (.sbindMap hd0 7 15 true) routedE ∧
    (((routed wired map8 []).begun routedE).region 3).outBound 3 = true ∧
    (((routed wired map8 []).begun routedE).region 3).sout.get? 3 = none ∧
    (((routed bound3 map8 []).begun routedE).region 3).sout.get? 3 ≠ none ∧
    Fires.of (routed bound3 map8 []) (.sbindMap hd0 7 15 true) routedE ∧
    sbindMapOk 0 = false ∧ Fires.of (routed wired 0 []) (.sbindMap hd0 7 15 true) routedE ∧
    Fires.of (routed wired map8 []) (.sbindChannel hd0 3) routedE ∧
    Locates (routed wired map8 []) routedE (fun k u => k = 0 && (u.chan 0).v == false && u.regions == (routed wired map8 []).regions) ∧
    Locates (routed wired map8 [(0, ch8 16 0 0 0 0)]) routedE (fun k u => k = 0 && (u.chan 0).v && (u.chan 0).esize = 8 &&
      !(u.chan 0).cv && u.regions == (routed wired map8 []).regions) ∧
    Fires.of (routed wired map8 []) (.seos hd0 3) routedE ∧ Fires.of (routed wired map8 []) (.sbar hd0 3 true 47) routedE :=
  ⟨rfl, fires_routed _ _ _ _, fires_routed _ _ _ _, by decide +kernel, rfl, rfl, by decide +kernel, fires_routed _ _ _ _, by decide, by decide +kernel, by decide +kernel, by decide +kernel,
   fires_routed _ _ _ _, by decide +kernel, by decide +kernel, by decide +kernel, fires_routed _ _ _ _, by decide,
   fires_routed _ _ _ _, fires_routed _ _ _ _, ok_of (by decide +kernel), ok_of (by decide +kernel),
   fires_routed _ _ _ _, fires_routed _ _ _ _⟩

/-- An event at the focus. -/
def ev (s : State) (x y z : Nat) (v : W64) (d : List Byte) : State := { s with focus := .ev x y z v d }

theorem witness_MatrixIssue :
    Goes (reconfAt {}) (mem0E 0x10000 0) ∧ ((reconfAt {}).ctx 0).region = some 3 ∧
    ((reconfAt {}).region 3).reconf = false ∧ (∀ i ∈ [Instr.mma hd0 3 true, .mmas hd0 3 true, .mqk hd0 3, .mpv hd0 3,
      .mscan hd0 3 true, .mzero hd0 3 true, .mldacc hd0 3 true, .mstacc hd0 3, .mresc hd0 3],
      Fires.of (reconfAt {}) i (mem0E 0x10000 0)) ∧
    Goes (plain 1 2) (plainE 1 2) ∧ ((plain 1 2).ctx 0).region ≠ some 3 ∧
    Fires.of (plain 1 2) (.mside hd0 3 2) (plainE 1 2) ∧ Goes (reconfAt { reconf := true }) (mem0E 0x10000 0) ∧
    ((reconfAt { reconf := true }).region 3).reconf = true ∧ ((reconfAt { reconf := true }).ctx 0).region = some 3 ∧
    Fires.of (reconfAt { reconf := true }) (.mma hd0 3 true) (mem0E 0x10000 0) ∧
    (∃ k : Nat, k < 4 ∧ (8#4).getLsbD k = true ∧ ((plainU 1 2).ctx 0).region ≠ some k) ∧
    Fires.of (plainU 1 2) (.mwait hd0 8) (plainE 1 2) :=
  ⟨rfl, rfl, rfl, fun _ _ => fires0 rfl (by decide) (by decide) rfl, rfl, by decide, fires_plain _ _ _, rfl, rfl, rfl,
   fires0 rfl (by decide) (by decide) rfl, ⟨3, by decide⟩, fires_plainU _ _ _⟩

/-- An accepted MZERO of accumulator 3, and an MMA whose X operand lies on no page. -/
def zeroOp : MOp := ⟨7, 0x5C00000000000000, ⟨0, 0, 0, 0, true, 0⟩, none, none, [], 0, 0, false, []⟩
def lostOp : MOp := ⟨7, 0x0C00000000000000, ⟨0, 0, 0, 0, true, 0⟩, none, none, [0x600000, 0, 0, 0, 0, 0, 0, 0], 0, 0, false, []⟩
def running (o : MOp) : State := { base with tiles := [(0, { tlb := tlb0, mrun := [o] })] }

/-- An operation accepted behind another one that stopped at row 5. -/
def stopped : State := { running zeroOp with accs := [(3, { rowp := 5, keptTok := 1 })] }

/-- A word of the strand that owns region 3. -/
def owns (s : State) (a : W64) : State := put0 s owner3 (blk1 0 a 8 true)

theorem fires_owns (s : State) (n : Needs) (a : W64) : Fires (owns s a) n (mem0E a 8) := fires0 rfl (by decide) (by decide) rfl

theorem witness_MatrixReads :
    Goes (owns base 127) (mem0E 127 8) ∧ (∀ s a, ((owns s a).ctx 0).region = some 3) ∧ ((owns base 127).region 3).reconf = false ∧
    Fires.of (owns base 128) (.mside hd0 3 2) (mem0E 128 8) ∧ 127 < (mem0E 128 8).a.toNat ∧
    Fires.of (owns base 127) (.mside hd0 3 2) (mem0E 127 8) ∧ (mem0E 127 8).a.toNat ≤ 127 ∧
    ((owns base 127).begun (mem0E 127 8)).accOps 0 3 = [] ∧
    ((owns (running zeroOp) 127).begun (mem0E 127 8)).accOps 0 3 ≠ [] ∧
    Fires.of (owns (running zeroOp) 127) (.mside hd0 3 2) (mem0E 127 8) ∧
    (∀ k : Nat, k < 4 → (8#4).getLsbD k = true → ((owns (running zeroOp) 127).ctx 0).region = some k) ∧
    Fires.of (owns (running zeroOp) 127) (.mwait hd0 8) (mem0E 127 8) ∧
    (∀ k : Nat, k < 4 → ((owns (running zeroOp) 127).region k).reconf = false) ∧
    ((List.range 4).filter (8#4).getLsbD).flatMap (((owns base 127).begun (mem0E 127 8)).accOps 0) = [] ∧
    ((List.range 4).filter (8#4).getLsbD).flatMap (((owns (running zeroOp) 127).begun (mem0E 127 8)).accOps 0) ≠ [] :=
  ⟨rfl, fun _ _ => rfl, rfl, fires_owns _ _ _, by decide, fires_owns _ _ _, by decide, by decide +kernel, by decide +kernel,
   fires_owns _ _ _, by decide +kernel, fires_owns _ _ _, fun _ _ => rfl, by decide +kernel, by decide +kernel⟩

theorem mxRun_of {x : Option (MOp × Nat × Nat × Option Flt × State)} {o : MOp} {p : Option Flt → Bool}
    (h : (match x with | some y => decide (y.1 = o) && p y.2.2.2.1 | none => false) = true) :
    ∃ n fl f u, x = some (o, n, fl, f, u) ∧ p f = true := by
  match x with
  | some (o', n, fl, f, u) =>
    simp only [Bool.and_eq_true, decide_eq_true_eq] at h
    exact ⟨n, fl, f, u, by rw [h.1], h.2⟩

/-- MZERO at the control port of tile 0, its strand's task owning region 3, or none. -/
def portS (c : Ctx) : State := { base with ctxs := [(0, c)], tiles := [(0, { tlb := tlb0, mq := [{ zeroOp with idx := some 0 }] })] }

theorem witness_MatrixEvents :
    (∀ s, (ev s 0 3 0 0 []).focus = .ev 0 3 0 0 []) ∧
    (ev (portS owner3) 0 0 0 0 []).mxPick 0 = some { zeroOp with idx := some 0 } ∧
    (∃ p u, mxCheck 0 { zeroOp with idx := some 0 } ((ev (portS owner3) 0 0 0 0 []).updTile 0
      (fun x => { x with mq := x.mq.filter (fun q => q.id ≠ 7) })) = .ok p u ∧ decide (p.idx = some 0) = true) ∧
    (ev (portS atS) 0 0 0 0 []).mxPick 0 = some { zeroOp with idx := some 0 } ∧
    (∃ f u, mxCheck 0 { zeroOp with idx := some 0 } ((ev (portS atS) 0 0 0 0 []).updTile 0
      (fun x => { x with mq := x.mq.filter (fun q => q.id ≠ 7) })) = .error f u ∧ f.code = .privilege) ∧
    (∃ n fl f u, (ev (running zeroOp) 0 3 0 0 []).mxRun 0 3 = some (zeroOp, n, fl, f, u) ∧ f.isNone = true) ∧
    (∃ n fl f u, (ev (running lostOp) 0 3 0 0 []).mxRun 0 3 = some (lostOp, n, fl, f, u) ∧ f.isSome = true) ∧
    (∃ n fl f u, (ev stopped 0 3 0 0 []).mxRun 0 3 = some (zeroOp, n, fl, f, u) ∧ f.isSome = true) ∧
    stopped.mxRefused 0 zeroOp = true ∧ (running lostOp).mxRefused 0 lostOp = false ∧
    (ev (running zeroOp) 0 3 0 0 []).mxNext 0 3 = some zeroOp ∧ zeroOp.acc = 3 ∧ zeroOp.op = 5 ∧ zeroOp.desc = [] ∧
    ((running zeroOp).acc 3).rowp = 0 ∧ zeroOp.sent = false ∧ zeroOp.region = none :=
  ⟨fun _ => rfl, by decide +kernel, ok_of (by decide +kernel), by decide +kernel, error_of (by decide +kernel),
   mxRun_of (by decide +kernel), mxRun_of (by decide +kernel), mxRun_of (by decide +kernel), by decide +kernel⟩

/-- A channel command on 0x30000 over a machine with that channel; `b` its other operand, the strand's identity 0. -/
def chanS (c : Chan) (b : W64) : State := put0 { base with chans := [(0, c)] } atS (blk1 0 0x30000 b true)
def chanE (b : W64) : Env := mem0E 0x30000 b

theorem fires_chan (n : Needs) (c : Chan) (b : W64) : Fires (chanS c b) n (chanE b) := fires0 rfl ⟨rfl, rfl⟩ rfl rfl

/-- What a test of channel 0 finds once a command has located it. -/
def ChanIs (c : Chan) (p : Chan → Bool) : Prop :=
  Goes (chanS c 0x10) (chanE 0x10) ∧ Locates (chanS c 0x10) (chanE 0x10) (fun k u => k = 0 && p (u.chan 0))

theorem chanIs {c : Chan} {p : Chan → Bool}
    (h : okWith (fun k u => k = 0 && p (u.chan 0)) (chanLocate (chanE 0x10) 0x30000 ((chanS c 0x10).begun (chanE 0x10))) = true) :
    ChanIs c p := ⟨rfl, ok_of h⟩

/-- V alone, V and PV, V and CV; EST 1. -/
def vOnly := 16
def vPv := 18
def vCv := 17
def isV (c : Chan) : Bool := c.v && c.esize = 8 && 6 < c.w.length

/-- Channel 0 with elements of 16 bytes. -/
def ch16 (flags : Nat) : Chan := { ch8 flags 0 0 0 0 with w := (ch8 flags 0 0 0 0).w.set 0 (w64 (flags * 2 ^ 59 + 2 ^ 34 + 8 * 2 ^ 28 + 32)) }

/-- What a CHPUSH from memory waits for. -/
def pushHold (c : Chan) (b : W64) : Option State := match chanLocate (chanE b) 0x30000 (chanS c b) with
  | .ok k u => plainHold (chanE b) (useLoad ((chanS c b).ctx 0).sup) b (u.chan k).esize (chanS c b)
  | .error _ _ => plainHold (chanE b) (useLoad ((chanS c b).ctx 0).sup) b 0 (chanS c b)

theorem witness_ChannelPushes :
    (∀ c, Fires.of (chanS c 0x10) (.chpush hd0 true) (chanE 0x10) ∧ Fires.of (chanS c 0x10) (.cheos hd0) (chanE 0x10)) ∧
    ChanIs {} (fun c => !c.v && 6 < c.w.length) ∧
    ChanIs { ch8 vPv 0 0 0 0 with w := (ch8 vPv 0 0 0 0).w.set 6 9 } (fun c => isV c && c.pv && c.w.getD 6 0 ≠ 0) ∧
    ChanIs (ch16 vPv) (fun c => c.v && c.pv && c.w.getD 6 0 = 0 && c.esize ≠ 8 && 6 < c.w.length) ∧
    ChanIs (ch8 vPv 1 0 0 1) (fun c => isV c && c.pv && c.w.getD 6 0 = 0 && (wAt c.w 4 + wAt c.w 5 + 1) % 2 ^ 64 ≤ c.pushseq) ∧
    ChanIs (ch8 (vPv + 4) 1 0 1 0) (fun c => isV c && c.pv && c.pushseq < wAt c.w 5 + 1 && c.est ≠ 0) ∧
    ChanIs (ch8 vPv 8 0 8 8) (fun c => isV c && c.pv && c.pushseq < wAt c.w 5 + 1 && c.est = 0 && c.cap ≤ c.occ) ∧
    ChanIs (ch8 vPv 7 0 7 7) (fun c => isV c && c.pv && c.pushseq < wAt c.w 5 + 1 && c.est = 0 && c.occ < c.cap &&
      c.onchip = c.occ && c.onchip < c.con) ∧
    ChanIs (ch8 (vOnly + 4) 1 0 0 0) (fun c => isV c && !c.pv && c.est ≠ 0) ∧
    ChanIs (ch8 vOnly 7 0 0 7) (fun c => isV c && !c.pv && c.est = 0 && c.occ < c.cap && c.onchip = c.occ && c.onchip < c.con &&
      c.pushseq + 1 < 2 ^ 64) :=
  ⟨fun _ => ⟨fires_chan _ _ _, fires_chan _ _ _⟩, chanIs (by decide +kernel), chanIs (by decide +kernel),
   chanIs (by decide +kernel), chanIs (by decide +kernel), chanIs (by decide +kernel), chanIs (by decide +kernel),
   chanIs (by decide +kernel), chanIs (by decide +kernel), chanIs (by decide +kernel)⟩

/-- From memory: an element that is loaded, one on no page, one at a misaligned address. -/
theorem witness_ChannelPushes_memory :
    (∀ b, Fires.of (chanS (ch8 vPv 7 0 7 7) b) (.chpush hd0 false) (chanE b)) ∧
    (pushHold (ch8 vPv 7 0 7 7) 0x10).isNone = true ∧ (chanE 0x10).b.toNat % 8 = 0 ∧
    Locates (chanS (ch8 vPv 7 0 7 7) 0x10) (chanE 0x10)
      (fun k u => okWith (fun _ u0 => decide (u0.chan k = u.chan k)) (loadBytes (chanE 0x10) 0x10 8 u)) ∧
    (pushHold (ch8 vPv 7 0 7 7) 0x600000).isNone = true ∧ (chanE 0x600000).b.toNat % 8 = 0 ∧
    Locates (chanS (ch8 vPv 7 0 7 7) 0x600000) (chanE 0x600000)
      (fun _ u => faultWith .translation (loadBytes (chanE 0x600000) 0x600000 8 u)) ∧
    (pushHold (ch8 vPv 7 0 7 7) 0x14).isNone = true ∧ (chanE 0x14).b.toNat % 8 ≠ 0 ∧
    Locates (chanS (ch8 vPv 7 0 7 7) 0x14) (chanE 0x14) (fun k u => k = 0 && 6 < (u.chan 0).w.length) :=
  ⟨fun _ => fires_chan _ _ _, by decide +kernel, by decide, ok_of (by decide +kernel), by decide +kernel, by decide,
   ok_of (by decide +kernel), by decide +kernel, by decide, ok_of (by decide +kernel)⟩

/-- The destination 0x10 of a pop is checked, checked again once the element is sent for, and written. -/
def popMeets (k : Nat) (u : State) : Bool :=
  k = 0 && decide (0 < (u.chan 0).onchip) && !(u.chan 0).atMarker && !(u.chan 0).lost && (u.chan 0).v && !(u.chan 0).cv &&
  okWith (fun _ u1 =>
    let u2 := u1.chanSend 0 (u1.who (chanE 0x10)) 0 (u.chan 0).esize false true
    let dest := { useDest true with own := .work 0 (u2.classOf 0) : Use }
    okWith (fun _ u3 => okWith (fun bad _ => bad.isNone)
      (writeP 0 0 dest .plain 0x10 (u2.bytes ((u2.chan 0).slotPa 0 1) 8) u3))
      (checkU 0 0 dest .plain 0x10 8 u2))
    (checkU 0 0 (useDest true) .plain 0x10 8 u)

theorem witness_ChannelPops :
    (∀ c b, Fires.of (chanS c b) (.chpop hd0) (chanE b) ∧ Fires.of (chanS c b) (.chpeek hd0) (chanE b)) ∧
    Goes (chanS {} 0x14) (chanE 0x14) ∧ (chanE 0x14).b.toNat % 8 ≠ 0 ∧
    Locates (chanS {} 0x14) (chanE 0x14) (fun k _ => k = 0) ∧
    ChanIs { lost := true, lostTile := 7 } (fun c => c.lost && c.lostTile = 7) ∧
    ChanIs {} (fun c => !c.v && !c.lost) ∧
    ChanIs { ch8 vCv 1 0 0 1 with w := (ch8 vCv 1 0 0 1).w.set 7 9 } (fun c => isV c && c.cv && c.w.getD 7 0 ≠ 0) ∧
    ChanIs (ch8 (vOnly + 4) 5 4 0 0) (fun c => isV c && !c.cv && c.atMarker) ∧
    ChanIs (ch8 vCv 4 4 0 0) (fun c => isV c && c.cv && c.w.getD 7 0 = 0 && !c.atMarker && c.onchip = 0 && !c.lost) ∧
    (chanE 0x10).b.toNat % 8 = 0 ∧ Locates (chanS (ch8 vOnly 1 0 0 1) 0x10) (chanE 0x10) popMeets :=
  ⟨fun _ _ => ⟨fires_chan _ _ _, fires_chan _ _ _⟩, rfl, by decide, ok_of (by decide +kernel), chanIs (by decide +kernel),
   chanIs (by decide +kernel), chanIs (by decide +kernel), chanIs (by decide +kernel), chanIs (by decide +kernel), by decide,
   ok_of (by decide +kernel)⟩

/-- A work queue 8191 of partition 0, capacity as given, one record in it; the operand of ENQ at 0x10080. -/
def queueS (q : List W64) (c : Ctx) : State := put0 { base with wq := [(8191, q)] } c (blk1 0 0x10080 8191 true)
def queueE : Env := mem0E 0x10080 8191

theorem fires_queue (n : Needs) (q : List W64) (c : Ctx) (h : c.st = .run ∧ c.sync = none) (hi : irvFind c.irv 0 = none) :
    Fires (queueS q c) n queueE := fires0 rfl h hi rfl

/-- V; V and the submitting side enabled; the same with no room. -/
def qEmpty : List W64 := [0x8000000000000000, 0, 0, 0, 0, 0, 0, 0]
def qReady : List W64 := [0x9000000000000000, 0x20000, 0, 0, 0, 0, 0, 0]
def qFull : List W64 := [0x9000000000000000, 0x20000, 512, 0, 0, 0, 0, 0]

/-- The record at 0x10080, with and without an empty predecessor. -/
def rcdAt (s : State) (p : List W64 → Bool) : Bool :=
  okWith (fun bs u => p ((List.range 16).map (fun i => w64 (leNat ((bs.drop (8 * i)).take 8)))) &&
    decide ((u.queueE 8191) = s.queueE 8191) && decide ((u.ctx 0).ltag = (s.ctx 0).ltag))
    (readU 0 0 (useERead true [0] 0) .engine 0x10080 128 (s.begun queueE))

/-- Predecessors of the record, words 9 to 12, each not 0. -/
def preds : State → State := fun s => { s with mem := [(0x100C8, 1), (0x100D0, 1), (0x100D8, 1), (0x100E0, 1)] }

theorem witness_QueueSubmission :
    (∀ c, Fires.of (chanS c 0x10) (.chstat hd0 7) (chanE 0x10)) ∧ ChanIs {} (fun c => !c.v) ∧
    ChanIs (ch8 vOnly 1 0 0 0) (fun c => c.v && decide (c.slim < c.scap)) ∧
    ChanIs { ch8 vOnly 1 0 0 0 with w := (ch8 vOnly 1 0 0 0).w.set 1 0 } (fun c => c.v && decide (c.scap ≤ c.slim)) ∧
    Fires.of (chanS (ch8 vOnly 1 0 0 0) 127) (.chgrow hd0) (chanE 127) ∧ (chanE 127).b.toNat ≤ 127 ∧
    Fires.of (chanS (ch8 vOnly 1 0 0 0) 0) (.chgrow hd0) (chanE 0) ∧ Goes (chanS (ch8 vOnly 1 0 0 0) 0) (chanE 0) ∧
    Locates (chanS (ch8 vOnly 1 0 0 0) 0) (chanE 0) (fun k _ => k = 0) ∧ ¬ 1 ≤ (chanE 0).b.toNat ∧
    (let s := put0 { base with chans := [(0, ch8 vOnly 1 0 0 0)] } atU (blk1 0 0x30000 1 true)
     Fires.of s (.chstat hd0 0) (chanE 1) ∧ Fires.of s (.chgrow hd0) (chanE 1) ∧ (s.ctx 0).sup = false ∧
     Locates s (chanE 1) (fun k u => k = 0 && (u.chan 0).v && !(u.chan 0).pv && !(u.chan 0).cv)) ∧
    Goes (queueS qReady atS) queueE ∧ Fires.of (queueS qReady atS) (.enq hd0) queueE ∧ queueE.b.toNat < 8192 ∧
    qV ((queueS qReady atS).queueE 8191) = true ∧ queueE.a.toNat % 128 = 0 ∧
    qOpen ((queueS qReady atS).queueE 8191) false = true ∧ rcdAt (queueS qReady atS) (fun r => r.getD 9 0 = 0) = true ∧
    qOpen ((queueS qFull atS).queueE 8191) false = false ∧ rcdAt (queueS qFull atS) (fun r => r.getD 9 0 = 0) = true ∧
    Fires.of (queueS qFull atS) (.launch hd0) queueE ∧
    Fires.of (queueS qFull atS) (.enqw hd0) queueE ∧ Fires.of (queueS qReady atS) (.launch hd0) queueE ∧
    rcdAt (preds (queueS qReady atS)) (fun r => (List.range 4).all (fun i => r.getD (9 + i) 0 ≠ 0)) = true ∧
    qV ((queueS qReady atU).queueE 8191) = true ∧ ((queueS qReady atU).ctx 0).part = qPart ((queueS qReady atU).queueE 8191) ∧
    qSupq ((queueS qReady atU).queueE 8191) = false ∧ Fires.of (queueS qReady atU) (.enq hd0) queueE ∧
    qV ((queueS (List.replicate 8 0) atS).queueE 8191) = false ∧ Fires.of (queueS (List.replicate 8 0) atS) (.enq hd0) queueE :=
  ⟨fun _ => fires_chan _ _ _, chanIs (by decide +kernel), chanIs (by decide +kernel), chanIs (by decide +kernel),
   fires_chan _ _ _, by decide, fires_chan _ _ _, rfl, ok_of (by decide +kernel), by decide,
   ⟨fires0 rfl ⟨rfl, rfl⟩ rfl rfl, fires0 rfl ⟨rfl, rfl⟩ rfl rfl, rfl, ok_of (by decide +kernel)⟩, rfl,
   fires_queue _ _ _ ⟨rfl, rfl⟩ rfl, by decide, by decide +kernel, by decide, by decide +kernel, by decide +kernel,
   by decide +kernel, by decide +kernel, fires_queue _ _ _ ⟨rfl, rfl⟩ rfl, fires_queue _ _ _ ⟨rfl, rfl⟩ rfl, fires_queue _ _ _ ⟨rfl, rfl⟩ rfl,
   by decide +kernel, by decide +kernel, by decide +kernel, by decide +kernel, fires_queue _ _ _ ⟨rfl, rfl⟩ rfl,
   by decide +kernel, fires_queue _ _ _ ⟨rfl, rfl⟩ rfl⟩

/-- Barrier 47 of the tile with these words; `a` and `b` the operands. -/
def barS (b : List W64) (x y : W64) : State := memS { base with bars := [(47, b)] } x y

/-- Expecting 2 arrivals and 5 bytes, with those counted, of any launch and strand (level 0). -/
def bar2 (arr bytes : W64) : List W64 := [2, 5, arr, bytes, 0, 0]

def serves (b : List W64) : Bool := b.length = 6 && barMatch b 0 0 0

theorem witness_BarrierEvents :
    (∀ b, Goes (barS b 1 5) (mem0E 1 5) ∧ Fires.of (barS b 1 5) (.barr hd0 47) (mem0E 1 5) ∧
      Fires.of (barS b 1 5) (.badd hd0 false 47) (mem0E 1 5)) ∧
    Fires.of (barS (bar2 0 0) 0xFFFFFFFF 5) (.binit hd0 47 0 4) (mem0E 0xFFFFFFFF 5) ∧
    (mem0E 0xFFFFFFFF 5).a.toNat < 2 ^ 32 ∧ (0#3).toNat ≤ ((barS (bar2 0 0) 0xFFFFFFFF 5).ctx 0).widfmt.toNat % 8 ∧
    ¬((mem0E 0x100000000 5).a.toNat < 2 ^ 32) ∧ Fires.of (barS (bar2 0 0) 0x100000000 5) (.binit hd0 47 0 4) (mem0E 0x100000000 5) ∧
    (barS (bar2 1 5) 1 5).bar 47 = bar2 1 5 ∧ serves (bar2 1 5) = true ∧ serves (bar2 0 5) = true ∧ serves (bar2 2 0) = true ∧
    barMatch ((bar2 0 0).set 5 9) 0 0 0 = false ∧
    (wAt (bar2 1 5) 2 % 2 ^ 32 + 1 = wAt (bar2 1 5) 0 % 2 ^ 32 ∧ wAt (bar2 1 5) 3 = wAt (bar2 1 5) 1) ∧
    (wAt (bar2 0 5) 2 % 2 ^ 32 < wAt (bar2 0 5) 0 % 2 ^ 32 ∧ wAt (bar2 0 5) 2 % 2 ^ 32 + 1 ≠ wAt (bar2 0 5) 0 % 2 ^ 32) ∧
    wAt (bar2 2 0) 0 % 2 ^ 32 ≤ wAt (bar2 2 0) 2 % 2 ^ 32 ∧
    (mem0E 1 5).b.toNat < 2 ^ 32 ∧ wAt (bar2 2 0) 2 % 2 ^ 32 = wAt (bar2 2 0) 0 % 2 ^ 32 ∧ wAt (bar2 2 0) 3 + 5 = wAt (bar2 2 0) 1 ∧
    (wAt (bar2 1 0) 2 % 2 ^ 32 ≠ wAt (bar2 1 0) 0 % 2 ^ 32 ∧ wAt (bar2 1 0) 3 + 5 ≤ wAt (bar2 1 0) 1) ∧
    wAt (bar2 1 1) 1 < wAt (bar2 1 1) 3 + 5 ∧ (mem0E 1 0).b = 0 ∧
    Fires.of (barS (bar2 1 1) 1 0) (.badd hd0 false 47) (mem0E 1 0) ∧ 2 ^ 32 ≤ (mem0E 1 0x100000000).b.toNat ∧
    Fires.of (barS (bar2 1 1) 1 0x100000000) (.badd hd0 false 47) (mem0E 1 0x100000000) :=
  ⟨fun b => ⟨rfl, fires_memS _ _ _ _, fires_memS _ _ _ _⟩, fires_memS _ _ _ _, by decide, by decide +kernel, by decide,
   fires_memS _ _ _ _, by decide +kernel, by decide, by decide, by decide, by decide, by decide, by decide, by decide,
   by decide, by decide, by decide, by decide, by decide, rfl, fires_memS _ _ _ _, by decide, fires_memS _ _ _ _⟩

/-- Barrier 47 with its phase at `ph`. -/
def barPh (ph : W64) : List W64 := [2, 5, ph <<< 32, 0, 0, 0]

theorem witness_BarrierWaits :
    Goes (barS (barPh 7) 1 5) (mem0E 1 5) ∧ (barS (barPh 7) 1 5).tileSpecOk 1 = true ∧
    Fires.of (barS (barPh 7) 1 5) (.barrR hd0 47) (mem0E 1 5) ∧ (mem0E 1 5).b.toNat < 2 ^ 32 ∧
    Fires.of (barS (barPh 7) 1 5) (.badd hd0 true 47) (mem0E 1 5) ∧
    (barS (barPh 7) 160 5).tileSpecOk 160 = false ∧ Fires.of (barS (barPh 7) 160 5) (.barrR hd0 47) (mem0E 160 5) ∧
    Goes (barS (barPh 7) 6 5) (mem0E 6 5) ∧ (wAt (barPh 7) 2 / 2 ^ 32 + 2 ^ 32 - 6 % 2 ^ 32) % 2 ^ 32 = 1 ∧
    Fires.of (barS (barPh 7) 6 5) (.btest hd0 47) (mem0E 6 5) ∧
    (wAt (barPh 0x7FFFFFFF) 2 / 2 ^ 32 + 2 ^ 32 - 0 % 2 ^ 32) % 2 ^ 32 ≤ 2 ^ 31 - 1 ∧
    ¬(1 ≤ (wAt (barPh 7) 2 / 2 ^ 32 + 2 ^ 32 - 7 % 2 ^ 32) % 2 ^ 32) ∧
    Fires.of (barS (barPh 7) 7 5) (.bwait hd0 47) (mem0E 7 5) :=
  ⟨rfl, by decide +kernel, fires_memS _ _ _ _, by decide, fires_memS _ _ _ _, by decide +kernel, fires_memS _ _ _ _, rfl,
   by decide, fires_memS _ _ _ _, by decide, by decide, fires_memS _ _ _ _⟩

/-- A permit table over the machine whose region 3 the strand owns; the strand's identity is 0. -/
def permS (l : List Permit) (n : W64) : State :=
  put0 { base with tiles := [(0, { tlb := tlb0, permits := l })] } owner3 (blk1 0 n 5 true)
def permE (n : W64) : Env := mem0E n 5

theorem fires_perm (i : Needs) (l : List Permit) (n : W64) : Fires (permS l n) i (permE n) := fires0 rfl ⟨rfl, rfl⟩ rfl rfl

/-- What a permit instruction on 65535 meets. -/
def PermMeets (l : List Permit) (p : State → Bool) : Prop :=
  Goes (permS l 65535) (permE 65535) ∧ p ((permS l 65535).begun (permE 65535)) = true

def mine8 : List Permit := (List.range 8).map (fun i => ⟨i, some (0, 0)⟩)

theorem witness_PermitResults :
    (∀ l, Fires.of (permS l 65535) (.pacq hd0) (permE 65535) ∧ Fires.of (permS l 65535) (.prel hd0) (permE 65535) ∧
      Fires.of (permS l 65535) (.prelG hd0 3) (permE 65535) ∧ Fires.of (permS l 65535) (.pqry hd0) (permE 65535)) ∧
    (permE 65535).a.toNat < 2 ^ 16 ∧ ((permS [] 65535).ctx 0).region = some 3 ∧
    (((permS [] 65535).begun (permE 65535)).region 3).reconf = false ∧
    PermMeets (mine8.take 7 ++ [⟨65535, none⟩]) (fun t => t.permit 0 65535 = some ⟨65535, none⟩ && t.waits = [] &&
      ((t.tile 0).permits.filter (fun p => p.holder.map Prod.fst = some 0)).length < 8) ∧
    PermMeets [] (fun t => t.permit 0 65535 = none && (t.tile 0).permits.length < 16 && t.waits = []) ∧
    PermMeets (mine8 ++ [⟨65535, none⟩]) (fun t => t.permit 0 65535 = some ⟨65535, none⟩ &&
      8 ≤ ((t.tile 0).permits.filter (fun p => p.holder.map Prod.fst = some 0)).length) ∧
    PermMeets [⟨65535, some (0, 0)⟩] (fun t => t.permit 0 65535 = some ⟨65535, some (0, 0)⟩ && t.waits = []) ∧
    PermMeets [⟨65535, some (1, 1)⟩] (fun t => t.permit 0 65535 = some ⟨65535, some (1, 1)⟩ && !(t.permitChain 0 17 65535).contains 0) ∧
    PermMeets (List.replicate 16 ⟨1, none⟩) (fun t => t.permit 0 65535 = none && 16 ≤ (t.tile 0).permits.length) ∧
    (let s := { permS [⟨65535, some (1, 1)⟩, ⟨2, some (0, 0)⟩] 65535 with waits := [⟨1, 0, .permit 2⟩], ctxs := [(0, owner3), (1, { atS with ident := 1 })] }
     (s.begun (permE 65535)).permit 0 65535 = some ⟨65535, some (1, 1)⟩ ∧ 0 ∈ (s.begun (permE 65535)).permitChain 0 17 65535) ∧
    (let s := { permS [⟨65535, some (0, 0)⟩] 65535 with waits := [⟨1, 0, .permit 65535⟩] }
     (s.begun (permE 65535)).permit 0 65535 = some ⟨65535, some (0, 0)⟩ ∧ (s.begun (permE 65535)).waits = [⟨1, 0, .permit 65535⟩]) ∧
    Fires.of (memS base 47 5) (.pctr hd0 1) (mem0E 47 5) ∧ (mem0E 47 5).a.toNat < 48 ∧ Fires.of (memS base 48 5) (.pctr hd0 1) (mem0E 48 5) ∧
    48 ≤ (mem0E 48 5).a.toNat ∧ Fires.of (memS base 15 5) (.pctr hd0 2) (mem0E 15 5) ∧ (mem0E 15 5).a.toNat < 16 ∧
    (((memS base 15 5).begun (mem0E 15 5)).tile 0).mesh.tok.getD 0 (((memS base 15 5).begun (mem0E 15 5)).classOf 0) = 0 ∧
    Fires.of (memS base 15 5) (.pctr hd0 3) (mem0E 15 5) :=
  ⟨fun l => ⟨fires_perm _ _ _, fires_perm _ _ _, fires_perm _ _ _, fires_perm _ _ _⟩, by decide, rfl, by decide +kernel,
   ⟨rfl, by decide +kernel⟩, ⟨rfl, by decide +kernel⟩, ⟨rfl, by decide +kernel⟩, ⟨rfl, by decide +kernel⟩,
   ⟨rfl, by decide +kernel⟩, ⟨rfl, by decide +kernel⟩, by decide +kernel, by decide +kernel, fires_memS _ _ _ _, by decide,
   fires_memS _ _ _ _, by decide, fires_memS _ _ _ _, by decide, by decide +kernel, fires_memS _ _ _ _⟩

/-- A unit's computation, made as an instruction begins, comes to a value that meets a test. -/
def Comes {α : Type} (s : State) (e : Env) (m : M α) (p : α → State → Bool) : Prop := ∃ a u, m (s.begun e) = .ok a u ∧ p a u = true

/-- Write numbers into memory: address, bytes, value. -/
def wrs (s : State) (l : List (Nat × Nat × Nat)) : State :=
  let t := l.foldl (fun (s : State) p => s.wr p.1 p.2.1 p.2.2) s
  { t with
    mem := Mem.flush t.mem t.log
    log := [] }

/-- A send spec to tile 1 of this package, of a length. -/
def spec1 (len : Nat) : W64 := w64 (1 * 2 ^ 32 + len * 2 ^ 50 + 0)

/-- A one-row token at 0x10000 of DHD 1: its header at OOFF - 64. -/
def tokenAt : State := wrs base [(0x10000 + 64 + 5, 1, 1), (0x10000 + 64 + 12, 4, 0xFFFFFFFF)]

theorem witness_MessageSends :
    Goes (memS base 0x10000 (spec1 4096)) (mem0E 0x10000 (spec1 4096)) ∧
    sendSpecOk ((memS base 0x10000 (spec1 4096)).begun (mem0E 0x10000 (spec1 4096))) (spec1 4096) = true ∧
    Fires.of (memS base 0x10000 (spec1 4096)) (.send hd0 2) (mem0E 0x10000 (spec1 4096)) ∧
    (spec1 4096).toNat / 2 ^ 50 % 2 ^ 13 = 4096 ∧
    Comes (memS base 0x10000 (spec1 64)) (mem0E 0x10000 (spec1 64)) (readU 0 0 (copyRead true) .engine 0x10000 64) (fun _ _ => true) ∧
    Fires.of (memS base 0 (spec1 0)) (.signal hd0) (mem0E 0 (spec1 0)) ∧ (spec1 0).toNat / 2 ^ 50 % 2 ^ 13 = 0 ∧
    sendSpecOk ((memS base 0 (spec1 0)).begun (mem0E 0 (spec1 0))) (spec1 0) = true ∧
    Fires.of (memS tokenAt 0x10000 (spec1 0)) (.sendQ hd0 2) (mem0E 0x10000 (spec1 0)) ∧ (spec1 0).toNat / 2 ^ 5 % 2 ^ 27 = 0 ∧
    Comes (memS tokenAt 0x10000 (spec1 0)) (mem0E 0x10000 (spec1 0)) (readU 0 0 (copyRead true) .engine (0x10000 + w64 (tokOoff 1 - 64)) 64)
      (fun hb u => hdrOk 1 (List.replicate (tokOoff 1 - 64) 0 ++ hb) && hdrOf 1 (List.replicate (tokOoff 1 - 64) 0 ++ hb) 4 1 = 0 &&
        okWith (fun _ _ => true) (readU 0 0 (copyRead true) .engine 0x10000 (tokLen 1 (hdrOf 1 (List.replicate (tokOoff 1 - 64) 0 ++ hb) 5 1)) u)) ∧
    sendSpecOk ((memS base 0 (2 ^ 63)).begun (mem0E 0 (2 ^ 63))) (2 ^ 63) = false ∧
    Fires.of (memS base 0 (2 ^ 63)) (.signal hd0) (mem0E 0 (2 ^ 63)) ∧
    (spec1 0).toNat / 2 ^ 42 % 2 ^ 8 = ((memS base 0 (spec1 0)).begun (mem0E 0 (spec1 0))).pkgno ∧
    (let far := spec1 0 + 2 ^ 42
     let s := memS { base with pkgcfg := [(21, 0x100)] } 0 far
     far.toNat / 2 ^ 42 % 2 ^ 8 ≠ (s.begun (mem0E 0 far)).pkgno ∧ far.toNat / 2 ^ 50 % 2 ^ 13 = 0 ∧
       sendSpecOk (s.begun (mem0E 0 far)) far = true ∧ Fires.of s (.signal hd0) (mem0E 0 far)) :=
  ⟨rfl, by decide +kernel, fires_memS _ _ _ _, by decide, ok_of (by decide +kernel), fires_memS _ _ _ _, by decide,
   by decide +kernel, fires_memS _ _ _ _, by decide, ok_of (by decide +kernel), by decide +kernel, fires_memS _ _ _ _,
   by decide +kernel, by decide +kernel, by decide, by decide +kernel, fires_memS _ _ _ _⟩

/-- A message of 8 bytes with tag 9 that stands in the overflow queue, its packets landed or not. -/
def msg9 (landed : Nat) : Msg := ⟨1, 0, 0, 0, 1, ⟨0, 0, 0, 0, true, 0⟩, 9, 0, List.replicate 8 1, false, 1, landed, 0, true, none⟩
def queued (landed : Nat) : State := { base with msgs := [(5, msg9 landed)], tiles := [(0, { tlb := tlb0, ovf := [5] })] }
/-- A match spec: any sender, tag 9, capacity 8. -/
def match9 : W64 := w64 (9 + 2 ^ 32 + 7 * 2 ^ 51)

def recvMeets (s : State) (p : State → Bool) : Prop :=
  Goes (memS s 0x10000 match9) (mem0E 0x10000 match9) ∧ Fires.of (memS s 0x10000 match9) (.recv hd0) (mem0E 0x10000 match9) ∧
  Fires.of (memS s 0x10000 match9) (.recvw hd0) (mem0E 0x10000 match9) ∧
  matchSpec ((memS s 0x10000 match9).begun (mem0E 0x10000 match9)) match9 = some (9, none, 8) ∧
  Comes (memS s 0x10000 match9) (mem0E 0x10000 match9) (checkU 0 0 (useDest true) .plain 0x10000 8) (fun _ u => p u)

theorem witness_MessageReceives :
    recvMeets base (fun u => u.ovfFind 0 9 none = none && u.ctx 0 == (memS base 0 0).ctx 0) ∧
    recvMeets (queued 1) (fun u => u.ovfFind 0 9 none = some 5 && u.msgs.get? 5 = some (msg9 1) &&
      okWith (fun o _ => o.isNone) (writeP 0 0 ((useDest true).by ⟨0, 0, 0, 0, true, (u.ovfDrop 0 5).classOf 0⟩) .plain 0x10000
        ((msg9 1).data.take 8) (u.ovfDrop 0 5))) ∧
    recvMeets (queued 0) (fun u => u.ovfFind 0 9 none = some 5 && u.msgs.get? 5 = some (msg9 0) && (msg9 0).landed ≠ (msg9 0).npkt) ∧
    matchSpec ((memS base 0 (2 ^ 63)).begun (mem0E 0 (2 ^ 63))) (2 ^ 63) = none ∧
    Fires.of (memS base 0 (2 ^ 63)) (.recv hd0) (mem0E 0 (2 ^ 63)) ∧
    Fires.of (memS base 0 0xFFFFFFFF) (.recvwT hd0) (mem0E 0 0xFFFFFFFF) ∧ (0xFFFFFFFF#64).toNat < 2 ^ 32 ∧
    Fires.of (memS base 1 0) (.recvwT hd0) (mem0E 1 0) ∧ (mem0E 1 0).a ≠ 0 :=
  ⟨⟨rfl, fires_memS _ _ _ _, fires_memS _ _ _ _, by decide +kernel, ok_of (by decide +kernel)⟩,
   ⟨rfl, fires_memS _ _ _ _, fires_memS _ _ _ _, by decide +kernel, ok_of (by decide +kernel)⟩,
   ⟨rfl, fires_memS _ _ _ _, fires_memS _ _ _ _, by decide +kernel, ok_of (by decide +kernel)⟩,
   by decide +kernel, fires_memS _ _ _ _, fires_memS _ _ _ _, by decide, fires_memS _ _ _ _, by decide⟩

/-- A token of one row in service in slot 7, for context 0 or another. -/
def served (key dtile : Nat) : TSlot :=
  { mid := 5, msg := ⟨0, 0, dtile, 0, 1, ⟨0, 0, 0, 0, true, 0⟩, 0, 32, [], false, 1, 1, 0, true, none⟩, order := 0, full := true, service := some key }
def slotted (x : TSlot) : State := { base with tiles := [(0, { tlb := tlb0, tslots := [(7, x)] })] }

theorem witness_TokenForwards :
    (∀ s a b, Goes (memS s a b) (mem0E a b)) ∧
    (∀ a b i, (i : Instr) ∈ [Instr.fwdQ hd0, .fwdM hd0, .fwdEnd hd0, .tokinfo hd0 5] → Fires.of (memS (slotted (served 0 1)) a b) i (mem0E a b)) ∧
    ((memS (slotted (served 0 1)) 7 0).begun (mem0E 7 0)).serving 0 7 = some (served 0 1) ∧ (served 0 1).service = some 0 ∧
    (7#64).toNat < 8 ∧ ¬((served 0 1).msg.dpkg = ((memS (slotted (served 0 1)) 7 0).begun (mem0E 7 0)).pkgno ∧ (served 0 1).msg.dtile = 0) ∧
    sendSpecOk ((memS (slotted (served 0 1)) 7 (spec1 0)).begun (mem0E 7 (spec1 0))) (spec1 0) = true ∧ spec1 0 ≠ 0 ∧
    (spec1 0).toNat / 2 ^ 50 % 2 ^ 13 = 0 ∧ (spec1 0).toNat % 2 ^ 32 = 0 ∧
    (0 + 128 ≤ tokLen (served 0 1).msg.rows (served 0 1).msg.dhd ∧ (spec1 128).toNat / 2 ^ 50 % 2 ^ 13 = 128) ∧
    sendSpecOk ((memS (slotted (served 0 1)) 7 (spec1 128)).begun (mem0E 7 (spec1 128))) (spec1 128) = true ∧
    ((memS base 7 0).begun (mem0E 7 0)).serving 0 7 = none ∧ Fires.of (memS base 7 0) (.fwdQ hd0) (mem0E 7 0) ∧
    ((memS (slotted (served 1 1)) 7 0).begun (mem0E 7 0)).serving 0 7 = some (served 1 1) ∧ (served 1 1).service ≠ some 0 ∧
    Fires.of (memS (slotted (served 1 1)) 7 0) (.fwdEnd hd0) (mem0E 7 0) :=
  ⟨fun s a b => goes_memS s a b, fun _ _ _ _ => fires_memS _ _ _ _, by decide +kernel, by decide, by decide, by decide +kernel,
   by decide +kernel, by decide, by decide, by decide, by decide, by decide +kernel, by decide +kernel, fires_memS _ _ _ _,
   by decide +kernel, by decide, fires_memS _ _ _ _⟩

/-- Word 0 of a page descriptor: its state, TENT, PIN, SLOTV, FILL, REF; owner tile 0, slot 3. -/
def dscW (st tent pin slotv fill ref : Nat) : Nat :=
  st * 2 ^ 61 + tent * 2 ^ 60 + pin * 2 ^ 58 + slotv * 2 ^ 57 + 3 * 2 ^ 39 + fill * 2 ^ 32 + ref * 2 ^ 16

/-- A machine with a sequence table at 0x40000 and the page lists. Sequence 65535 has one plane of 32 dimensions, CLEN and
TLEN as given, its page map at 0x50000, its trailer at 0x52000; page 3 has the descriptor 0x60000. Sequence 0 is of the same
shape and empty. -/
def kvS (clen tlen d : Nat) (more : List (Nat × Nat × Nat)) : State :=
  wrs { base with pkgcfg := [(0, 0x40000), (1, 0x700000), (3, 0x71000), (4, 0x72000), (8, 0x73000)] }
    ([(0x40000 + 128 * 65535, 8, 2 ^ 63 + 2 ^ 20), (0x40008 + 128 * 65535, 4, clen), (0x4000C + 128 * 65535, 4, tlen),
      (0x40010 + 128 * 65535, 8, 0x50000), (0x40018 + 128 * 65535, 4, 4), (0x40020 + 128 * 65535, 8, 0x52000),
      (0x40000, 8, 2 ^ 63 + 2 ^ 20), (0x40010, 8, 0x51000), (0x40018, 4, 4), (0x40020, 8, 0x53000),
      (0x50000 + 24, 8, if d = 0 then 0 else 0x60001), (0x60000, 8, d), (0x60008, 8, 0x64000), (0x60010, 8, 0x1000000004000),
      (0x60018, 8, 0x68000)] ++ more)

/-- Page 3 of sequence 65535; its key. -/
def key3 : W64 := w64 (65535 + 3 * 2 ^ 32)

/-- A command on that page, the other operand `b`. -/
def pageS (d : Nat) (b : W64) (more : List (Nat × Nat × Nat)) : State := memS (kvS 0 0 d more) key3 b

theorem fires_page (n : Needs) (d : Nat) (b : W64) (more : List (Nat × Nat × Nat)) : Fires (pageS d b more) n (mem0E key3 b) :=
  fires_memS _ _ _ _

/-- The command finds its page, and the machine meets a test. -/
def OnPage (d : Nat) (b : W64) (more : List (Nat × Nat × Nat)) (p : PKey → State → Bool) : Prop :=
  Goes (pageS d b more) (mem0E key3 b) ∧ Comes (pageS d b more) (mem0E key3 b) (pageKey (mem0E key3 b) key3) p

theorem onPage_of {d : Nat} {b : W64} {more : List (Nat × Nat × Nat)} {p : PKey → State → Bool}
    (h : okWith p (pageKey (mem0E key3 b) key3 ((pageS d b more).begun (mem0E key3 b))) = true) : OnPage d b more p := ⟨rfl, ok_of h⟩

def at3 (x : PKey) (u : State) : Bool := u.mapped x.q x.p x.k = some 0x60000
def un3 (x : PKey) (u : State) : Bool := u.mapped x.q x.p x.k = none

/-- Shard entries: V with the first 123 bits free. -/
def shardV : BitVec 256 := BitVec.ofNat 256 (2 ^ 255 + 2 ^ 177)

theorem witness_ShardMappings :
    (∀ d b more, Fires.of (pageS d b more) (.shmapP hd0) (mem0E key3 b) ∧ Fires.of (pageS d b more) (.shunmapP hd0) (mem0E key3 b) ∧
      Fires.of (pageS d b more) (.kvevictRel hd0) (mem0E key3 b)) ∧
    (mem0E key3 0x60000).b.toNat % 32 = 0 ∧
    OnPage 0 0xC000000000 [] (fun _ u => u.paKind 0xC000000000 ≠ .hbm) ∧ (mem0E key3 0xC000000000).b.toNat % 32 = 0 ∧
    OnPage (dscW 1 0 0 1 64 1) 0x60000 [] (fun x u => at3 x u && u.paKind 0x60000 = .hbm) ∧
    OnPage 0 0x61000 [(0x61000, 8, dscW 5 0 0 1 64 1)] (fun x u => un3 x u && u.dState 0x61000 = stEvict) ∧
    OnPage 0 0x61000 [] (fun x u => un3 x u && u.dState 0x61000 = stFree) ∧
    OnPage 0 0x61000 [(0x61000, 8, dscW 2 1 0 1 64 1)] (fun x u => un3 x u && u.dState 0x61000 = stWarm && u.dTent 0x61000) ∧
    OnPage 0 0x61000 [(0x61000, 8, dscW 2 0 0 1 64 65535)] (fun x u => un3 x u && !u.dTent 0x61000 && u.dRef 0x61000 = 65535) ∧
    OnPage 0 0x61000 [(0x61000, 8, dscW 2 0 0 1 64 65534)] (fun x u => un3 x u && !u.dTent 0x61000 && u.dRef 0x61000 ≠ 65535) ∧
    OnPage (dscW 5 0 0 1 64 1) 0 [] (fun x u => at3 x u && u.dState 0x60000 = stEvict) ∧
    OnPage (dscW 1 1 0 1 64 1) 0 [] (fun x u => at3 x u && u.dState 0x60000 ≠ stEvict && u.dTent 0x60000) ∧
    OnPage (dscW 1 0 0 1 64 1) 0 [] (fun x u => at3 x u && u.dState 0x60000 ≠ stEvict && !u.dTent 0x60000 && !u.visited 0x60000) ∧
    (let s := { pageS (dscW 1 0 0 1 64 1) 0 [] with tiles := [(0, { tlb := tlb0, tslots := [(0, { served 0 1 with visits := [0x60000] })] })] }
     Comes s (mem0E key3 0) (pageKey (mem0E key3 0) key3) (fun x u => at3 x u && u.dRef 0x60000 ≤ 1 && u.visited 0x60000)) ∧
    Goes (memS base 511 511) (mem0E 511 511) ∧ Fires.of (memS base 511 511) (.shlookWord hd0 3) (mem0E 511 511) ∧ (511#64).toNat < 512 ∧
    Fires.of (memS base 512 511) (.shlookWord hd0 3) (mem0E 512 511) ∧ 512 ≤ (512#64).toNat ∧
    Fires.of (memS base 511 511) (.shlookFind hd0) (mem0E 511 511) ∧
    ((memS base 511 511).begun (mem0E 511 511)).shardFind 0 511 0 0 511 = none ∧
    (let s := { memS base 0 0 with tiles := [(0, { shard := [(511, shardV)] })] }
     ((s.begun (mem0E 0 0)).shardFind 0 0 0 0 0) = some (511, shardV)) ∧
    Fires.of (memS base 0x10000 511) (.shmapE hd0) (mem0E 0x10000 511) ∧ ((memS base 0x10000 511).ctx 0).sup = true ∧
    Comes (memS (wrs base [(0x10000, 32, shardV.toNat)]) 0x10000 511) (mem0E 0x10000 511) (inBytes (mem0E 0x10000 511) 0x10000 32 8)
      (fun bs u => BitVec.ofNat 256 (leNat bs) = shardV && u.shardOk 0 shardV && !((u.tile 0).shard.getD 0 511).getLsbD 255) ∧
    Comes { memS (wrs base [(0x10000, 32, shardV.toNat)]) 0x10000 511 with tiles := [(0, { tlb := tlb0, shard := [(511, shardV)] })] }
      (mem0E 0x10000 511) (inBytes (mem0E 0x10000 511) 0x10000 32 8)
      (fun bs u => BitVec.ofNat 256 (leNat bs) = shardV && ((u.tile 0).shard.getD 0 511).getLsbD 255) ∧
    ((plainU 1 2).ctx 0).sup = false ∧ Goes (plainU 1 2) (plainE 1 2) ∧ Fires.of (plainU 1 2) (.shmapE hd0) (plainE 1 2) :=
  ⟨fun _ _ _ => ⟨fires_page _ _ _ _, fires_page _ _ _ _, fires_page _ _ _ _⟩, by decide, onPage_of (by decide +kernel), by decide,
   onPage_of (by decide +kernel),
   onPage_of (by decide +kernel), onPage_of (by decide +kernel), onPage_of (by decide +kernel), onPage_of (by decide +kernel),
   onPage_of (by decide +kernel), onPage_of (by decide +kernel), onPage_of (by decide +kernel), onPage_of (by decide +kernel),
   ok_of (by decide +kernel), rfl, fires_memS _ _ _ _, by decide, fires_memS _ _ _ _, by decide, fires_memS _ _ _ _,
   by decide +kernel, by decide +kernel, fires_memS _ _ _ _, rfl, ok_of (by decide +kernel), ok_of (by decide +kernel), rfl,
   rfl, fires_plainU _ _ _⟩

/-- One entry of a batch list at 0x10000: one position, one byte a row, keys and IDs from 0x10080. -/
def batchAt : List (Nat × Nat × Nat) := [(0x10000, 8, 65535 + 2 ^ 32), (0x10008, 8, 0x10080), (0x10010, 8, 0x10080)]
def appS (d : Nat) : State := memS (kvS 192 192 d batchAt) 0x10000 1
def appE : Env := mem0E 0x10000 1

/-- Appending the batch comes to `r`, and its codes can be written. -/
def Appends (d : Nat) (flag : Bool) (r : Nat × Option Nat × Nat × Bool) : Prop :=
  Comes (appS d) appE (inBytes appE 0x10000 32 8) (fun b u =>
    okWith (fun l u1 => okWith (fun q u2 => q = r &&
        okWith (fun _ _ => true) ((do for i in List.range q.1 do putCode appE i 0
                                      putCode appE q.1 6 : M Unit) u2)) (appendAll appE flag l u1))
      ((List.range 1).mapM (fun i => appEnt appE (b.drop (32 * i))) u))

theorem witness_KvAppendResults :
    (∀ s a b f, Goes (memS s a b) (mem0E a b) ∧ Fires.of (memS s a b) (.kvappend hd0 f) (mem0E a b)) ∧
    (mem0E 0x10000 0).b.toNat = 0 ∧ 64 < (mem0E 0x10000 65).b.toNat ∧ 1 ≤ appE.b.toNat ∧ appE.b.toNat ≤ 64 ∧
    Appends (dscW 1 0 0 1 0 1) false (1, none, 0, false) ∧ Appends (dscW 5 0 0 1 0 1) false (0, none, 0, true) ∧
    Appends (dscW 3 0 0 1 0 1) false (0, some 0, 0, false) ∧ Appends (dscW 3 0 0 1 0 1) true (0, some 0, 0, false) :=
  ⟨fun _ _ _ _ => ⟨rfl, fires_memS _ _ _ _⟩, by decide, by decide, by decide, by decide, ok_of (by decide +kernel),
   ok_of (by decide +kernel), ok_of (by decide +kernel), ok_of (by decide +kernel)⟩

/-- Sequence 65535 with CLEN 192 and TLEN as given, page 3 as `d`; the other operand `b`; link 1 names slot 0. -/
def seqS (tlen d : Nat) (b : W64) (links : Nat) : State := memS (kvS 192 tlen d [(0x40040 + 128 * 65535, 48, links)]) 65535 b
def seqE_ (b : W64) : Env := mem0E 65535 b

def OnSeq (tlen d : Nat) (b : W64) (links : Nat) (p : SeqE → State → Bool) : Prop :=
  Goes (seqS tlen d b links) (seqE_ b) ∧ Comes (seqS tlen d b links) (seqE_ b) (needSeq (seqE_ b) 65535) p

theorem onSeq_of {tlen d : Nat} {b : W64} {links : Nat} {p : SeqE → State → Bool}
    (h : okWith p (needSeq (seqE_ b) 65535 ((seqS tlen d b links).begun (seqE_ b))) = true) : OnSeq tlen d b links p := ⟨rfl, ok_of h⟩

def pathOf (q : SeqE) (b : Nat) : List Nat := (q.ancestors b).reverse

theorem witness_KvSettling :
    (∀ t d b l, Fires.of (seqS t d b l) (.kvtent hd0) (seqE_ b) ∧ Fires.of (seqS t d b l) (.kvroll hd0) (seqE_ b) ∧
      Fires.of (seqS t d b l) (.kvcommit hd0) (seqE_ b)) ∧ (65535#64).toNat < 2 ^ 16 ∧
    OnSeq 194 (dscW 1 1 0 1 2 1) 0x10000 0 (fun q u => okWith (fun bs _ => linksOk (leNat bs) q.tent)
      (inBytes (seqE_ 0x10000) 0x10000 48 8 u)) ∧
    (let s := memS (kvS 192 194 (dscW 1 1 0 1 2 1) [(0x10000, 8, 1)]) 65535 0x10000
     Comes s (seqE_ 0x10000) (needSeq (seqE_ 0x10000) 65535) (fun q u => okWith (fun bs _ => !linksOk (leNat bs) q.tent)
      (inBytes (seqE_ 0x10000) 0x10000 48 8 u))) ∧
    OnSeq 194 (dscW 1 1 0 1 2 1) 191 0 (fun q _ => 191 < q.clen) ∧ OnSeq 194 (dscW 1 1 0 1 2 1) 195 0 (fun q _ => q.tlen < 195) ∧
    OnSeq 194 (dscW 5 1 0 1 2 1) 193 0 (fun q u => q.clen ≤ 193 && 193 ≤ q.tlen && u.cutWaits q 193 193) ∧
    OnSeq 194 (dscW 1 1 0 1 2 1) 192 0 (fun q u => q.clen ≤ 192 && 192 ≤ q.tlen && !u.cutWaits q 192 192) ∧
    OnSeq 194 (dscW 1 1 0 1 2 1) 64 0 (fun _ _ => true) ∧ (63 < (seqE_ 64).b.toNat ∧ (seqE_ 64).b.toNat ≠ 127) ∧
    OnSeq 194 (dscW 1 1 0 1 2 1) 2 0 (fun q _ => q.tent ≤ 2) ∧
    OnSeq 194 (dscW 1 1 0 1 2 1) 0 1 (fun q _ => 0 < q.tent && (pathOf q 0).any (fun k => k < q.link k)) ∧
    OnSeq 195 (dscW 5 1 0 1 3 1) 1 0 (fun q u => 1 < q.tent && (pathOf q 1).all (fun k => q.link k ≤ k) &&
      u.cutWaits q (q.clen / 64 * 64) (q.clen + (pathOf q 1).length)) ∧
    OnSeq 194 (dscW 1 1 0 1 2 1) 1 0 (fun q u => 1 < q.tent && (pathOf q 1).all (fun k => q.link k ≤ k) &&
      !u.cutWaits q (q.clen / 64 * 64) (q.clen + (pathOf q 1).length)) ∧
    OnSeq 194 (dscW 1 1 0 1 2 1) 127 0 (fun _ _ => true) ∧ (seqE_ 127).b.toNat = 127 :=
  ⟨fun _ _ _ _ => ⟨fires_memS _ _ _ _, fires_memS _ _ _ _, fires_memS _ _ _ _⟩, by decide, onSeq_of (by decide +kernel),
   ok_of (by decide +kernel), onSeq_of (by decide +kernel), onSeq_of (by decide +kernel), onSeq_of (by decide +kernel),
   onSeq_of (by decide +kernel), onSeq_of (by decide +kernel), by decide, onSeq_of (by decide +kernel),
   onSeq_of (by decide +kernel), onSeq_of (by decide +kernel), onSeq_of (by decide +kernel), onSeq_of (by decide +kernel), by decide⟩

/-- KVFORK of sequence 65535, its page 3 the last and the others mapped to page 2's descriptor, to sequence 0. -/
def forkS (clen d3 d0 : Nat) (more : List (Nat × Nat × Nat)) : State :=
  memS (kvS clen clen d3 ([(0x50000, 8, 0x60021), (0x50008, 8, 0x60021), (0x50010, 8, 0x60021), (0x60020, 8, d0)] ++ more)) 65535 0

def Forks (clen d3 d0 : Nat) (more : List (Nat × Nat × Nat)) (p : SeqE → SeqE → State → Bool) : Prop :=
  Goes (forkS clen d3 d0 more) (mem0E 65535 0) ∧ Fires.of (forkS clen d3 d0 more) (.kvfork hd0) (mem0E 65535 0) ∧
  Comes (forkS clen d3 d0 more) (mem0E 65535 0) (needSeq (mem0E 65535 0) 65535) (fun qa u =>
    okWith (fun qb u1 => p qa qb u1) (readSeq (mem0E 65535 0) 0 u))

def fits (qa qb : SeqE) : Bool :=
  qb.v && qb.clen = 0 && qb.tlen = 0 && qa.model = qb.model && qa.nlay = qb.nlay && qa.ngrp = qb.ngrp && qa.dhd = qb.dhd &&
    decide (qa.clen / 64 + (if qa.clen % 64 = 0 then 0 else 1) ≤ qb.pmcap)
def forkDs (qa : SeqE) (u : State) : List ((Nat × Nat) × Option Nat) := (qa.pages 0 qa.clen).map (fun pk => (pk, u.mapped qa pk.1 pk.2))
def shareable (u : State) (x : (Nat × Nat) × Option Nat) : Bool := match x.2 with
  | some d => u.dState d ≠ stEvict && !u.dTent d && u.dState d ≠ stAbsent
  | none => false
/-- The pages shared whole whose descriptor would be counted past 65,535. -/
def overCounted (qa : SeqE) (u : State) : Bool :=
  let shared := (forkDs qa u).filter (fun x => x.1.2 < qa.clen / 64)
  shared.any (fun x => x.2.any (fun d => decide (65535 < u.dRef d + (shared.filter (fun y => y.2 = x.2)).length)))
def still (u : State) (x : (Nat × Nat) × Option Nat) : Bool := x.2.all (fun d => u.dState d ≠ stEvict)

theorem witness_KvForkResults :
    Forks 193 (dscW 1 0 0 1 1 1) (dscW 2 0 0 0 64 1) [(0x40000, 8, 2 ^ 63 + 2 ^ 61 + 2 ^ 20)] (fun _ qb _ => qb.v && !qb.fieldsOk) ∧
    Forks 193 (dscW 1 0 0 1 1 1) (dscW 2 0 0 0 64 1) [(0x40000, 8, 2 ^ 20)] (fun _ qb _ => !qb.v) ∧
    Forks 193 (dscW 1 0 0 1 1 1) (dscW 2 0 0 0 64 1) [(0x40018, 4, 3)] (fun qa qb _ => qb.fieldsOk && !fits qa qb) ∧
    Forks 193 (dscW 5 0 0 1 1 1) (dscW 2 0 0 0 64 1) [] (fun qa qb u => qb.fieldsOk && fits qa qb &&
      (forkDs qa u).any (fun x => x.2.any (fun d => u.dState d = stEvict))) ∧
    Forks 193 0 (dscW 2 0 0 0 64 1) [] (fun qa qb u => fits qa qb && (forkDs qa u).any (fun x => x.2 = none) &&
      (forkDs qa u).all (still u)) ∧
    Forks 193 (dscW 4 0 0 1 1 1) (dscW 2 0 0 0 64 1) [] (fun qa qb u => fits qa qb && (forkDs qa u).all (still u) &&
      (forkDs qa u).any (fun x => x.1.2 = qa.clen / 64 && x.2.any (fun d => u.dState d = stAbsent))) ∧
    Forks 192 0 (dscW 2 1 0 0 64 1) [] (fun qa qb u => fits qa qb && (forkDs qa u).all (still u) &&
      (forkDs qa u).any (fun x => x.2.any u.dTent)) ∧
    Forks 192 0 (dscW 2 0 0 0 64 65533) [] (fun qa qb u => fits qa qb && (forkDs qa u).all (shareable u) && overCounted qa u) ∧
    (let s := { forkS 193 (dscW 1 0 0 1 1 1) (dscW 2 0 0 0 64 1) [] with
        parts := [(0, ((List.replicate 16 0).set 0 0x8000000500000000).set 1 1)]
        tiles := [(0, { tlb := tlb0, shard := [(511, BitVec.ofNat 256 (2 ^ 255 + 4 * 2 ^ 177))] })] }
     Comes s (mem0E 65535 0) (needSeq (mem0E 65535 0) 65535) (fun qa u => okWith (fun qb u1 =>
      qb.fieldsOk && fits qa qb && (forkDs qa u1).all (shareable u1) && !overCounted qa u1 &&
        okWith (fun n _ => n = 1) (reservePages (mem0E 65535 0) 0 0 qb [(0, 3)] u1))
      (readSeq (mem0E 65535 0) 0 u))) ∧
    Forks 192 0 (dscW 2 0 0 0 64 65532) [] (fun qa qb u => qb.fieldsOk && fits qa qb && (forkDs qa u).all (shareable u) &&
      !overCounted qa u && okWith (fun n _ => n = 0) (reservePages (mem0E 65535 0) 0 0 qb [] u)) :=
  ⟨⟨rfl, fires_memS _ _ _ _, ok_of (by decide +kernel)⟩, ⟨rfl, fires_memS _ _ _ _, ok_of (by decide +kernel)⟩,
   ⟨rfl, fires_memS _ _ _ _, ok_of (by decide +kernel)⟩, ⟨rfl, fires_memS _ _ _ _, ok_of (by decide +kernel)⟩,
   ⟨rfl, fires_memS _ _ _ _, ok_of (by decide +kernel)⟩, ⟨rfl, fires_memS _ _ _ _, ok_of (by decide +kernel)⟩,
   ⟨rfl, fires_memS _ _ _ _, ok_of (by decide +kernel)⟩, ⟨rfl, fires_memS _ _ _ _, ok_of (by decide +kernel)⟩,
   ok_of (by decide +kernel), ⟨rfl, fires_memS _ _ _ _, ok_of (by decide +kernel)⟩⟩

theorem witness_KvPlaces :
    (∀ d b more i, (i : Instr) ∈ [Instr.kvevictHbm hd0, .kvevictCold hd0, .kvevictDrop hd0, .kvpin hd0, .kvpinClr hd0, .kvrefill hd0] →
      Fires.of (pageS d b more) i (mem0E key3 b)) ∧
    OnPage 0 0 [] un3 ∧ OnPage (dscW 5 0 0 1 64 1) 0 [] (fun x u => at3 x u && u.dState 0x60000 = stEvict) ∧
    OnPage (dscW 1 0 1 1 64 1) 0 [] (fun x u => at3 x u && u.dState 0x60000 ≠ stEvict && u.dPin 0x60000) ∧
    OnPage (dscW 1 1 0 1 64 1) 0 [] (fun x u => at3 x u && u.dState 0x60000 ≠ stEvict && !u.dPin 0x60000 && u.dTent 0x60000) ∧
    OnPage (dscW 1 0 0 1 64 1) 0 [(0x72000, 4, 1), (0x72040, 8, 0x1000000000000)] (fun x u => at3 x u && !u.dPin 0x60000 && !u.dTent 0x60000 &&
      u.dState 0x60000 = stRes && u.paKind (u.dHaddr 0x60000) ≠ .hole && u.paKind (u.dSlotPa 0x60000) ≠ .hole &&
      (match u.stackTake (u.cfgWord 4) with
       | some (a, _) => u.paKind a ≠ .hole
       | none => false)) ∧
    OnPage (dscW 2 0 0 1 64 1) 0 [(0x72000, 4, 1), (0x72040, 8, 0x1000000000000)] (fun x u => at3 x u && !u.dPin 0x60000 && !u.dTent 0x60000 &&
      u.dState 0x60000 = stWarm && u.dSlotv 0x60000 && (u.stackTake (u.cfgWord 4)).isSome && u.paKind (u.dHaddr 0x60000) ≠ .hole) ∧
    OnPage (dscW 2 0 0 0 64 1) 0 [] (fun x u => at3 x u && !u.dPin 0x60000 && !u.dTent 0x60000 && u.dState 0x60000 ≠ stRes &&
      u.dState 0x60000 = stWarm && !u.dSlotv 0x60000 && (u.stackTake (u.cfgWord 4)).isNone) ∧
    OnPage (dscW 3 0 0 1 64 1) 0 [] (fun x u => at3 x u && !u.dPin 0x60000 && !u.dTent 0x60000 && u.dState 0x60000 = stCold &&
      u.paKind (u.dCaddr 0x60000) ≠ .hole && u.paKind (u.dSlotPa 0x60000) ≠ .hole) ∧
    OnPage (dscW 4 0 0 1 64 1) 0x10000 [] (fun x u => at3 x u && u.dState 0x60000 = stAbsent &&
      okWith (fun img v => img.length = 16384 && v.paKind (u.dSlotPa 0x60000) ≠ .hole)
        (inBytes (mem0E key3 0x10000) 0x10000 16384 64 u)) ∧
    OnPage (dscW 0 0 0 1 64 1) 0 [] (fun x u => at3 x u && u.dState 0x60000 = stFree) :=
  ⟨fun _ _ _ _ _ => fires_page _ _ _ _, onPage_of (by decide +kernel), onPage_of (by decide +kernel), onPage_of (by decide +kernel),
   onPage_of (by decide +kernel), onPage_of (by decide +kernel), onPage_of (by decide +kernel), onPage_of (by decide +kernel),
   onPage_of (by decide +kernel), onPage_of (by decide +kernel), onPage_of (by decide +kernel)⟩

/-- What PHASH and SUMUPD meet. -/
theorem witness_PrefixAndSummary :
    (let s := memS (kvS 0 0 0 []) 0x10000 0x10200
     let e := mem0E 0x10000 0x10200
     Goes s e ∧ Fires.of s (.phashH hd0) e ∧ Fires.of s (.phashL hd0) e ∧ e.b.toNat % 8 = 0 ∧
     Comes s e (inBytes e 0x10000 288 8) (fun b u => nAt b 0x11 15 = 0 &&
       okWith (fun _ _ => true) (outBytes e 0x10200 (List.replicate 32 0) u) && (u.phFind 0 0).isNone)) ∧
    (let s := memS (wrs base [(0x10011, 1, 1)]) 0x10000 0x10200
     Comes s (mem0E 0x10000 0x10200) (inBytes (mem0E 0x10000 0x10200) 0x10000 288 8) (fun b _ => nAt b 0x11 15 ≠ 0)) ∧
    Fires.of (pageS 0 0x50000 []) (.sumupd hd0) (mem0E key3 0x50000) ∧ OnPage 0 0x50000 [] un3 ∧
    (let b := (mem0E key3 0x5003F).b.toNat
     b / 2 ^ 6 % 4 = 0 ∧ b / 2 ^ 14 % 4 = 0 ∧ b < 2 ^ 20 ∧ 2 ≤ b / 2 ^ 16 % 16 ∧ b / 2 ^ 16 % 16 ≤ 5) ∧
    OnPage (dscW 5 0 0 1 64 1) 0x5003F [] (fun x u => at3 x u && u.dState 0x60000 = stEvict) ∧
    OnPage (dscW 4 0 0 1 64 1) 0x5003F [] (fun x u => at3 x u && u.dState 0x60000 ≠ stEvict && (u.pagePlace 0x60000).isNone) ∧
    OnPage (dscW 1 0 0 1 63 1) 0x5003F [] (fun x u => at3 x u && (u.pagePlace 0x60000).isSome && u.dFill 0x60000 < 63 + 1) ∧
    OnPage (dscW 1 0 0 1 64 1) 0x5003F [] (fun x u => at3 x u && u.dState 0x60000 ≠ stCold && 63 + 1 ≤ u.dFill 0x60000 && u.dSum 0x60000 ≠ 0 &&
      (match u.pagePlace 0x60000 with
       | some place => u.poisonAt (rowPa place 63 false) 128 = none
       | none => false)) :=
  ⟨⟨rfl, fires_memS _ _ _ _, fires_memS _ _ _ _, by decide, ok_of (by decide +kernel)⟩, ok_of (by decide +kernel),
   fires_page _ _ _ _, onPage_of (by decide +kernel), by decide, onPage_of (by decide +kernel), onPage_of (by decide +kernel),
   onPage_of (by decide +kernel), onPage_of (by decide +kernel)⟩

/-- A list of a command at 0x10000 comes as bytes that meet a test, and so on. -/
def read8 (e : Env) (va n : Nat) (u : State) (p : List Byte → State → Bool) : Bool := okWith p (inBytes e (w64 va) n 8 u)

/-- PSEL of two candidates from a list at 0x10100, the query at 0x10080, the result at 0x10200. -/
def pselS (w : Nat) : State :=
  memS (wrs base [(0x10000, 8, w), (0x10008, 8, 0x10080), (0x10010, 8, 0x10100), (0x10018, 8, 0x10200), (0x10100, 8, 0x68000)]) 0x10000 0

def pselMeets (b : List Byte) (u : State) : Bool :=
  let e := mem0E 0x10000 0
  let w := nAt b 0 8
  decide (w % 2 ^ 16 = 2 ∧ w / 2 ^ 16 % 2 ^ 8 = 64 ∧ w / 2 ^ 24 % 2 ^ 4 = 2 ∧ w / 2 ^ 28 % 2 ^ 4 = 1 ∧ w < 2 ^ 32 ∧ nAt b 24 8 % 8 = 0) &&
  okWith (fun _ u2 => read8 e (nAt b 16 8) 16 u2 (fun _ u3 => okWith (fun _ _ => true) (outBytes e (w64 (nAt b 24 8)) (List.replicate 16 1) u3)))
    (inBytes e (w64 (nAt b 8 8)) 64 2 u)

theorem witness_PageSelection :
    (∀ s, Goes (memS s 0x10000 0) (mem0E 0x10000 0) ∧ Fires.of (memS s 0x10000 0) (.psel hd0) (mem0E 0x10000 0) ∧
      Fires.of (memS s 0x10000 0) (.gchain hd0) (mem0E 0x10000 0)) ∧
    Comes (pselS (2 + 64 * 2 ^ 16 + 2 * 2 ^ 24 + 2 ^ 28)) (mem0E 0x10000 0) (inBytes (mem0E 0x10000 0) 0x10000 32 8) pselMeets ∧
    Comes (pselS (1025 + 65 * 2 ^ 16)) (mem0E 0x10000 0) (inBytes (mem0E 0x10000 0) 0x10000 32 8)
      (fun b _ => 1024 < nAt b 0 8 % 2 ^ 16 && 64 < nAt b 0 8 / 2 ^ 16 % 2 ^ 8 && nAt b 0 8 / 2 ^ 24 % 2 ^ 4 < 2) ∧
    Comes (memS (wrs base [(0x10000, 8, 1 + 63 * 2 ^ 17), (0x10008, 8, 0x10080), (0x10010, 8, 0x10100), (0x10018, 8, 0x10200)]) 0x10000 0)
      (mem0E 0x10000 0) (inBytes (mem0E 0x10000 0) 0x10000 48 8) (fun b u => nAt b 0 8 % 2 ^ 16 = 1 && nAt b 0 8 / 2 ^ 23 % 2 ^ 9 = 0 && nAt b 0 8 < 2 ^ 42 &&
        nAt b 24 8 % 64 = 0 && read8 (mem0E 0x10000 0) 0x10080 8 u (fun _ u2 => read8 (mem0E 0x10000 0) 0x10100 8 u2 (fun ds u3 =>
          (u3.pagePlace (nAt ds 0 8)).isNone))) :=
  ⟨fun _ => ⟨rfl, fires_memS _ _ _ _, fires_memS _ _ _ _⟩, ok_of (by decide +kernel), ok_of (by decide +kernel), ok_of (by decide +kernel)⟩

/-- A tree pool at 0x60000 of 4 nodes a half: FREE0 as given, root 2 with two children 3 and 4 when `exp`. -/
def treeMem (free root infl flags vl : Nat) (more : List (Nat × Nat × Nat)) : State :=
  wrs base ([(0x80000, 4, 4), (0x80004, 4, free), (0x80008, 4, 6), (0x8000C, 4, root), (0x80020, 4, infl), (0x80040 + 10, 2, vl),
    (0x80040 + 12, 4, 3), (0x80040 + 16, 2, 2), (0x80040 + 18, 2, flags)] ++ more)

/-- A strand whose path buffer names nodes 2 and 3 of that pool, or is empty. -/
def pather (n : Nat) : Ctx := { atS with pbpool := 0x60000, pblen := n, pbnode := [(0, 2), (1, 3)] }
def treeS (s : State) (n : Nat) (a b : W64) : State := put0 s (pather n) (blk1 0 a b true)

theorem fires_tree (i : Needs) (s : State) (n : Nat) (a b : W64) : Fires (treeS s n a b) i (mem0E a b) := fires0 rfl ⟨rfl, rfl⟩ rfl rfl

/-- A tree command on the pool finds it as a test says. -/
def OnPool (s : State) (b : W64) (p : Pool → State → Bool) : Prop :=
  Goes (treeS s 2 0x60000 b) (mem0E 0x60000 b) ∧ Comes (treeS s 2 0x60000 b) (mem0E 0x60000 b) (poolOf (mem0E 0x60000 b) 0x60000) p

theorem onPool_of {s : State} {b : W64} {p : Pool → State → Bool}
    (h : okWith p (poolOf (mem0E 0x60000 b) 0x60000 ((treeS s 2 0x60000 b).begun (mem0E 0x60000 b))) = true) : OnPool s b p := ⟨rfl, ok_of h⟩

def te (b : W64) : Env := mem0E 0x60000 b
def runs {α : Type} (m : M α) (u : State) : Bool := okWith (fun _ _ => true) (m u)

theorem witness_TreePools :
    (∀ s b, Fires.of (treeS s 2 0x60000 b) (.tsinit hd0) (mem0E 0x60000 b) ∧ Fires.of (treeS s 2 0x60000 b) (.tsreroot hd0) (mem0E 0x60000 b) ∧
      Fires.of (treeS s 2 0x60000 b) (.tsbestN hd0) (mem0E 0x60000 b) ∧ Fires.of (treeS s 2 0x60000 b) (.tsstat hd0 3) (mem0E 0x60000 b)) ∧
    OnPool (treeMem 5 2 1 1 0 []) 5 (fun p _ => p.infl ≠ 0 && decide (p.first p.act ≤ 5 ∧ 5 ≤ p.last p.act)) ∧
    (let s := { treeS (treeMem 5 2 0 1 0 []) 2 0x60000 5 with
        waits := [⟨1, 0, .push 0 2 (leBytes 8 0x60000) 0⟩], ctxs := [(0, pather 2), (1, atS)] }
     Comes s (te 5) (poolOf (te 5) 0x60000) (fun p u => p.infl = 0 && u.waits = [⟨1, 0, .push 0 2 (leBytes 8 0x60000) 0⟩] &&
       u.poolPa 0 0 p.va = some 0x80000 && u.poolPa 0 (u.ctx 1).part (w64 (leNat ((leBytes 8 0x60000).take 8))) = some 0x80000)) ∧
    OnPool (treeMem 5 2 0 1 0 []) 5 (fun p u => p.infl = 0 && runs (hdrWrite (te 5) p 4 3) u && runs (nodeWrite (te 5) p 2 ⟨0, 0, 0, 0, 0, 0, 8, 0, 5, 0⟩) u) ∧
    OnPool (treeMem 5 2 0 1 0 []) 1 (fun p _ => decide (1 < p.first p.act)) ∧
    OnPool (treeMem 5 2 0 1 0 []) 6 (fun p _ => decide (p.last p.act < 6)) ∧
    OnPool (treeMem 5 2 0 1 0 []) 2 (fun p u => p.infl = 0 && decide (p.first p.act ≤ 2) &&
      okWith (fun r u1 => r = some 9 && runs (hdrWrite (te 2) p 8 9) u1) (copyTree (te 2) p 6 4 [(2, 6, 0)] 7 u)) ∧
    OnPool (treeMem 5 2 0 1 0 [(0x80050, 2, 9)]) 2 (fun p u => okWith (fun r u1 => r.isNone && runs (undefHalf (te 2) p 6) u1)
      (copyTree (te 2) p 6 4 [(2, 6, 0)] 7 u)) ∧
    OnPool (treeMem 5 2 0 0 0 []) 0 (fun p u => okWith (fun x _ => !x.exp) (nodeRead (te 0) p p.root u)) ∧
    OnPool (treeMem 5 2 0 1 0 []) 0 (fun p u => okWith (fun x u1 => x.exp && x.nch ≠ 0 &&
      okWith (fun cs _ => (bestOf (cs.map (fun c => (c.1, FV.fin false c.2.n 0)))).isSome && (bestOf (cs.map (fun c => (c.1, noNan (p.q c.2))))).isSome)
        (childrenOf (te 0) p x u1)) (nodeRead (te 0) p p.root u)) :=
  ⟨fun _ _ => ⟨fires_tree _ _ _ _ _, fires_tree _ _ _ _ _, fires_tree _ _ _ _ _, fires_tree _ _ _ _ _⟩, onPool_of (by decide +kernel),
   ok_of (by decide +kernel), onPool_of (by decide +kernel), onPool_of (by decide +kernel), onPool_of (by decide +kernel), onPool_of (by decide +kernel),
   onPool_of (by decide +kernel), onPool_of (by decide +kernel), onPool_of (by decide +kernel)⟩

theorem witness_TreeDescent :
    (∀ s, Fires.of (treeS s 2 0x60000 0) (.tsdesc hd0) (te 0)) ∧
    OnPool (treeMem 5 2 0 1 65535 []) 0 (fun p u => okWith (fun r _ => r.isNone) (enter (te 0) p p.root u)) ∧
    OnPool (treeMem 5 2 0 1 0 [(0x8006A, 2, 65535), (0x8008A, 2, 65535)]) 0 (fun p u => okWith (fun r u1 => match r with
      | some x => okWith (fun q _ => q.isNone) (descend (te 0) p 63 p.root x u1)
      | none => false) (enter (te 0) p p.root u)) ∧
    OnPool (treeMem 5 2 0 1 0 []) 0 (fun p u => okWith (fun r u1 => match r with
      | some x => okWith (fun q u2 => q.isSome && runs (hdrWrite (te 0) p 0x20 1) u2) (descend (te 0) p 63 p.root x u1)
      | none => false) (enter (te 0) p p.root u)) :=
  ⟨fun _ => fires_tree _ _ _ _ _, onPool_of (by decide +kernel), onPool_of (by decide +kernel), onPool_of (by decide +kernel)⟩

/-- TSEXP with a list of `n` children at 0x10000, the leaf node 3 with these flags. -/
def expS (n free flags : Nat) : State := treeS (treeMem free 2 1 1 0 [(0x80060 + 18, 2, flags), (0x10000, 8, n)]) 2 0x10000 0

def Expands (n free flags : Nat) (p : Pool → TNode → State → Bool) : Prop :=
  Goes (expS n free flags) (mem0E 0x10000 0) ∧ Fires.of (expS n free flags) (.tsexp hd0 true) (mem0E 0x10000 0) ∧
  Fires.of (expS n free flags) (.tsexp hd0 false) (mem0E 0x10000 0) ∧ ((expS n free flags).ctx 0).pblen = 2 ∧
  Comes (expS n free flags) (mem0E 0x10000 0) (inBytes (mem0E 0x10000 0) 0x10000 8 8) (fun b0 u1 => nAt b0 0 8 = n && n < 2 ^ 16 &&
    okWith (fun b u2 => (List.range n).all (fun i => nAt b (8 * i + 2) 2 = 0) && okWith (fun pl u3 =>
      okWith (fun leaf u4 => p pl leaf u4) (nodeRead (mem0E 0x10000 0) pl 3 u3)) (poolOf (mem0E 0x10000 0) 0x60000 u2))
      (inBytes (mem0E 0x10000 0) (0x10000 + 8) (8 * n) 8 u1))

theorem witness_TreeExpansion :
    (Fires.of (treeS base 0 0x10000 0) (.tsexp hd0 true) (mem0E 0x10000 0) ∧ ((treeS base 0 0x10000 0).ctx 0).pblen = 0 ∧
      Goes (treeS base 0 0x10000 0) (mem0E 0x10000 0)) ∧
    Expands 1 5 1 (fun _ leaf _ => leaf.exp) ∧
    Expands 0 5 0 (fun p leaf u => !leaf.exp && runs (nodeWrite (mem0E 0x10000 0) p 3 { leaf with flags := 3 }) u) ∧
    Expands 2 5 0 (fun p leaf _ => !leaf.exp && decide (p.last p.act + 1 < p.free + 2)) ∧
    Expands 1 5 0 (fun p leaf u => !leaf.exp && decide (p.free + 1 ≤ p.last p.act + 1) && runs (hdrWrite (mem0E 0x10000 0) p 4 6) u &&
      runs (nodeWrite (mem0E 0x10000 0) p 5 leaf) u) :=
  ⟨⟨fires_tree _ _ _ _ _, rfl, rfl⟩,
   ⟨rfl, fires_tree _ _ _ _ _, fires_tree _ _ _ _ _, rfl, ok_of (by decide +kernel)⟩,
   ⟨rfl, fires_tree _ _ _ _ _, fires_tree _ _ _ _ _, rfl, ok_of (by decide +kernel)⟩,
   ⟨rfl, fires_tree _ _ _ _ _, fires_tree _ _ _ _ _, rfl, ok_of (by decide +kernel)⟩,
   ⟨rfl, fires_tree _ _ _ _ _, fires_tree _ _ _ _ _, rfl, ok_of (by decide +kernel)⟩⟩

/-- An evaluation record at 0x10000: the pool, a path of `n` nodes 2, 3. -/
def rcdS (n : Nat) : State :=
  treeS (treeMem 5 2 1 1 1 [(0x10000, 8, 0x60000), (0x10008, 8, n), (0x10010, 4, 0x3F800000), (0x10020, 4, 2), (0x10024, 4, 3)]) 0 0x10000 0

/-- A channel of evaluation records, two on chip; room or none. -/
def ch288 (push : Nat) : Chan :=
  { w := [w64 (18 * 2 ^ 59 + 36 * 2 ^ 33 + 8 * 2 ^ 28 + 9 * 32), 0, w64 push, 0, 0, w64 push, 0, 0], onchip := push }
def batchS (push n : Nat) : State := treeS { treeMem 5 2 1 1 1 [] with chans := [(0, ch288 push)] } n 0x30000 0

/-- The record of that strand's path of two nodes, its other entries drawn. -/
def rcd2 : M (List Byte) := do
  let r := leBytes 8 0x60000 ++ leBytes 8 2 ++ leBytes 8 0 ++ leBytes 8 0 ++ leBytes 4 2 ++ leBytes 4 3
  pure (r ++ (← drawM (288 - r.length)))

def push2 : M PushR := do
  let r ← rcd2
  chanPush (mem0E 0x30000 0) 0 2 0x30000 (fun z => decide (z = 288)) r

theorem witness_TreeBackups :
    (Goes (rcdS 0) (mem0E 0x10000 0) ∧ Fires.of (rcdS 0) (.tseval hd0) (mem0E 0x10000 0) ∧ Fires.of (rcdS 0) (.tsvl hd0 true) (mem0E 0x10000 0) ∧
      Comes (rcdS 0) (mem0E 0x10000 0) (evalRecord (mem0E 0x10000 0)) (fun r _ => r.2.1 = [])) ∧
    (Goes (rcdS 2) (mem0E 0x10000 0) ∧ Fires.of (rcdS 2) (.tseval hd0) (mem0E 0x10000 0) ∧
      Comes (rcdS 2) (mem0E 0x10000 0) (evalRecord (mem0E 0x10000 0)) (fun r u => r.1 = 0x60000 && r.2.1 = [2, 3] &&
        okWith (fun p u1 => okWith (fun _ u2 => runs (clearPend (mem0E 0x10000 0) p r.2.1) u2)
          (backup (mem0E 0x10000 0) p r.2.1 (some r.2.2) u1)) (poolOf (mem0E 0x10000 0) r.1 u))) ∧
    (Goes (treeS base 0 1 0) (mem0E 1 0) ∧ ((treeS base 0 1 0).ctx 0).pblen = 0 ∧ Fires.of (treeS base 0 1 0) (.tsback hd0) (mem0E 1 0) ∧
      (1#64).toNat < 2 ^ 32 ∧ Fires.of (treeS base 0 1 0) (.tsvl hd0 false) (mem0E 1 0) ∧ Fires.of (treeS base 0 1 0) (.tsbatch hd0) (mem0E 1 0)) ∧
    (let s := treeS (treeMem 5 2 1 1 1 []) 2 1 0
     Goes s (mem0E 1 0) ∧ (s.ctx 0).pblen ≠ 0 ∧ Fires.of s (.tsback hd0) (mem0E 1 0) ∧
     Comes s (mem0E 1 0) (poolOf (mem0E 1 0) 0x60000) (fun p u => runs (backup (mem0E 1 0) p (s.ctx 0).path (some 1)) u &&
       runs (backup (mem0E 1 0) p (s.ctx 0).path none) u)) ∧
    (Goes (batchS 1 2) (mem0E 0x30000 0) ∧ Fires.of (batchS 1 2) (.tsbatch hd0) (mem0E 0x30000 0) ∧ ((batchS 1 2).ctx 0).pblen ≠ 0 ∧
      Comes (batchS 1 2) (mem0E 0x30000 0) (chanLocate (mem0E 0x30000 0) 0x30000) (fun k u => k = 0 &&
        okWith (fun r _ => match r with | .done _ => true | .wait => false)
          (push2 u))) ∧
    (Goes (batchS 2 2) (mem0E 0x30000 0) ∧ Fires.of (batchS 2 2) (.tsbatch hd0) (mem0E 0x30000 0) ∧
      Comes (batchS 2 2) (mem0E 0x30000 0) (chanLocate (mem0E 0x30000 0) 0x30000) (fun k u => k = 0 &&
        okWith (fun r _ => match r with | .done _ => false | .wait => true)
          (push2 u))) :=
  ⟨⟨rfl, fires_tree _ _ _ _ _, fires_tree _ _ _ _ _, ok_of (by decide +kernel)⟩, ⟨rfl, fires_tree _ _ _ _ _, ok_of (by decide +kernel)⟩,
   ⟨rfl, rfl, fires_tree _ _ _ _ _, by decide, fires_tree _ _ _ _ _, fires_tree _ _ _ _ _⟩,
   ⟨rfl, by decide +kernel, fires_tree _ _ _ _ _, ok_of (by decide +kernel)⟩,
   ⟨rfl, fires_tree _ _ _ _ _, by decide +kernel, ok_of (by decide +kernel)⟩, ⟨rfl, fires_tree _ _ _ _ _, ok_of (by decide +kernel)⟩⟩

/-! ### Elements -/

/-- Element 0 of region 0, which runs: `el`, and `trig` in slot 0 of its program. -/
def elReg (trig : Nat) : Region := { loaded := true, owner := some 0, img := List.replicate 106 0 ++ [w64 trig] }
def elS (el : Elem) (trig : Nat) : State :=
  { base with
    focus := .elem 0 0 0
    regions := [(0, elReg trig)]
    elems := [(0, el)] }
def elX (el : Elem) (trig : Nat) (f : ElemF) : EEnv :=
  ⟨0, 0, 0, el, f, el.chain, false, .rne, trig, Config.freeWord (elS el trig).freeCtr⟩

theorem elem_of {el : Elem} {trig : Nat} {f : ElemF} {opc : Nat}
    (h : ((elReg trig).trig 0 0 == trig && !(elReg trig).follows 0 && el.trigger trig && el.implicit opc f trig) = true) :
    ElemFires (elS el trig) opc 0 (elX el trig f) := by
  simp only [Bool.and_eq_true, beq_iff_eq, Bool.not_eq_true'] at h
  exact ⟨rfl, (by decide : (0 : Nat) = 4 * 0 + 0 / 16), rfl, rfl, h.1.1.1.symm, h.1.1.2.symm, h.1.2, h.2, rfl, (by decide : RM.rne = rmOf 0), rfl⟩

/-- Registers of integers and (by tag) of floating-point values; inputs: a permit, and a token that ends a stream. -/
def elI : Elem :=
  { e := [(0, 0x80), (1, 0xFF00), (2, 3)]
    k := [(0, 7)]
    p := 5
    ins := [(0, [⟨7, 3, false⟩]), (1, [⟨9, 1, true⟩])]
    chain := 0x33 }
def elF : Elem :=
  { elI with
    e := [(0, 0x3F800000), (1, 0xC0000000), (2, 3), (3, 0x7FC00000), (4, 0x81)]
    etag := [(0, 1), (1, 1), (2, 1), (3, 1), (4, 6)] }

/-- Lane mode, target, operand codes, MOD. -/
def ef (lm : BitVec 2) (dst sa sb sc : BitVec 4) (md : BitVec 2) : ElemF := ⟨lm, dst, sa, sb, sc, 3, true, false, md⟩

theorem fires_elI {f : ElemF} {opc : Nat} (h : elI.implicit opc f 1 = true) : ElemFires (elS elI 1) opc 0 (elX elI 1 f) :=
  elem_of (by rw [h]; decide +kernel)
theorem fires_elF {f : ElemF} {opc : Nat} (h : elF.implicit opc f 1 = true) : ElemFires (elS elF 1) opc 0 (elX elF 1 f) :=
  elem_of (by rw [h]; decide +kernel)

theorem witness_ElementIntegers :
    numClass (elX elI 1 (ef 0 3 0 1 0 0)).lm (elX elI 1 (ef 0 3 0 1 0 0)).md
      [(elX elI 1 (ef 0 3 0 1 0 0)).a, (elX elI 1 (ef 0 3 0 1 0 0)).b] = some (.int 0) ∧
    numClass (elX elI 1 (ef 0 3 0 1 0 0)).lm (elX elI 1 (ef 0 3 0 1 0 0)).md
      [(elX elI 1 (ef 0 3 0 1 0 0)).a, (elX elI 1 (ef 0 3 0 1 0 0)).b, (elX elI 1 (ef 0 3 0 1 0 0)).c] = some (.int 0) ∧
    numClass (elX elI 1 (ef 0 3 0 1 0 0)).lm (elX elI 1 (ef 0 3 0 1 0 0)).md [(elX elI 1 (ef 0 3 0 1 0 0)).a] = some (.int 0) ∧
    IntOperands (elX elI 1 (ef 0 3 0 1 0 0)) [(elX elI 1 (ef 0 3 0 1 0 0)).a, (elX elI 1 (ef 0 3 0 1 0 0)).b] 0 ∧
    numClass (elX elI 1 (ef 0 3 0 1 1 0)).lm (elX elI 1 (ef 0 3 0 1 1 0)).md
      [(elX elI 1 (ef 0 3 0 1 1 0)).a, (elX elI 1 (ef 0 3 0 1 1 0)).b] = some (.int 0) ∧
    (∀ opc ∈ [0, 1, 2, 3, 4, 5, 6, 7, 8, 9, 10, 11, 12, 13, 21, 22, 23], ∀ sc ∈ [(0 : BitVec 4), 1],
      ElemFires (elS elI 1) opc 0 (elX elI 1 (ef 0 3 0 1 sc 0))) :=
  ⟨by decide +kernel, by decide +kernel, by decide +kernel, by unfold IntOperands; decide +kernel, by decide +kernel,
   fun opc ho sc hs => fires_elI ((by decide +kernel : ∀ opc ∈ [0, 1, 2, 3, 4, 5, 6, 7, 8, 9, 10, 11, 12, 13, 21, 22, 23],
     ∀ sc ∈ [(0 : BitVec 4), 1], elI.implicit opc (ef 0 3 0 1 sc 0) 1 = true) opc ho sc hs)⟩

theorem witness_ElementFloats :
    numClass (elX elF 1 (ef 2 3 0 1 0 0)).lm (elX elF 1 (ef 2 3 0 1 0 0)).md
      [(elX elF 1 (ef 2 3 0 1 0 0)).a, (elX elF 1 (ef 2 3 0 1 0 0)).b] = some (.flt 1 fp32) ∧
    numClass (elX elF 1 (ef 2 3 0 1 0 0)).lm (elX elF 1 (ef 2 3 0 1 0 0)).md
      [(elX elF 1 (ef 2 3 0 1 0 0)).a, (elX elF 1 (ef 2 3 0 1 0 0)).b, (elX elF 1 (ef 2 3 0 1 0 0)).c] = some (.flt 1 fp32) ∧
    numClass (elX elF 1 (ef 2 3 0 1 0 0)).lm (elX elF 1 (ef 2 3 0 1 0 0)).md [(elX elF 1 (ef 2 3 0 1 0 0)).a] =
      some (.flt 1 fp32) ∧
    (∀ i < (elX elF 1 (ef 2 3 0 1 0 0)).lanes, (fp32.dec ((elX elF 1 (ef 2 3 0 1 0 0)).la i)).isNan = false) ∧
    (∀ opc ∈ [0, 1, 2, 3, 4, 5, 6, 7, 8, 9, 13, 24, 25, 26, 27, 28, 29, 30, 34],
      ElemFires (elS elF 1) opc 0 (elX elF 1 (ef 2 3 0 1 0 0))) :=
  ⟨by decide +kernel, by decide +kernel, by decide +kernel, by decide +kernel,
   fun opc ho => fires_elF ((by decide +kernel : ∀ opc ∈ [0, 1, 2, 3, 4, 5, 6, 7, 8, 9, 13, 24, 25, 26, 27, 28, 29, 30, 34],
     elF.implicit opc (ef 2 3 0 1 0 0) 1 = true) opc ho)⟩

theorem witness_ElementMoves :
    (∀ opc ∈ [14, 15, 16, 17, 18, 19, 20, 35, 36, 39, 46, 47, 48, 50, 52],
      ElemFires (elS elI 1) opc 0 (elX elI 1 (ef 0 3 0 1 0 0))) ∧
    (elX elI 1 (ef 0 3 0 1 0 0)).a.bfp = false ∧ (elX elI 1 (ef 0 3 0 1 0 0)).b.bfp = false ∧
    (elX elI 1 (ef 0 3 0 1 0 0)).a.mtag = 0 ∧ (elX elI 1 (ef 0 3 0 1 0 0)).b.mtag = 0 ∧
    (elX elI 1 (ef 0 3 0 1 0 0)).md = 0 ∧ (elX elI 1 (ef 0 3 0 1 0 1)).md = 1 ∧
    ElemFires (elS elI 1) 36 0 (elX elI 1 (ef 0 3 0 1 0 1)) ∧
    (∀ opc ∈ [37, 38, 40, 41, 51], ElemFires (elS elI 1) opc 0 (elX elI 1 (ef 0 3 8 1 0 0))) ∧
    (elX elI 1 (ef 0 3 8 1 0 0)).el.inHead ((elX elI 1 (ef 0 3 8 1 0 0)).f.sa.toNat - 8) = some ⟨7, 3, false⟩ ∧
    ElemFires (elS elI 1) 37 0 (elX elI 1 (ef 0 3 9 1 0 0)) ∧
    ElemFires (elS elI 0x2101) 49 0 (elX elI 0x2101 (ef 0 3 0 1 0 0)) :=
  ⟨fun opc ho => fires_elI ((by decide +kernel : ∀ opc ∈ [14, 15, 16, 17, 18, 19, 20, 35, 36, 39, 46, 47, 48, 50, 52],
     elI.implicit opc (ef 0 3 0 1 0 0) 1 = true) opc ho),
   rfl, rfl, rfl, rfl, rfl, rfl, fires_elI (by decide +kernel),
   fun opc ho => fires_elI ((by decide +kernel : ∀ opc ∈ [37, 38, 40, 41, 51],
     elI.implicit opc (ef 0 3 8 1 0 0) 1 = true) opc ho),
   rfl, fires_elI (by decide +kernel), elem_of (by decide +kernel)⟩

theorem witness_ElementPacks :
    cvtSource (elX elF 1 (ef 2 3 0 0 2 0)) = some 1 ∧ tagLm (elX elF 1 (ef 2 3 0 0 2 0)).sc ≠ none ∧
    ElemFires (elS elF 1) 31 0 (elX elF 1 (ef 2 3 0 0 2 0)) ∧
    bfpkFmt (elX elF 1 (ef 2 3 0 1 0 0)) = some fp32 ∧ bfpOperand (elX elF 1 (ef 2 3 0 1 0 0)).b = true ∧
    (∀ i < (elX elF 1 (ef 2 3 0 1 0 0)).lanes, (fp32.dec ((elX elF 1 (ef 2 3 0 1 0 0)).la i)).isNan = false ∧
      (fp32.dec ((elX elF 1 (ef 2 3 0 1 0 0)).la i)).isInf = false) ∧
    (elX elF 1 (ef 2 3 0 1 0 0)).md = 0 ∧ ElemFires (elS elF 1) 32 0 (elX elF 1 (ef 2 3 0 1 0 0)) ∧
    bfpkFmt (elX elF 1 (ef 2 3 3 1 0 0)) = some fp32 ∧
    (∃ i, i < (elX elF 1 (ef 2 3 3 1 0 0)).lanes ∧ (fp32.dec ((elX elF 1 (ef 2 3 3 1 0 0)).la i)).isNan = true) ∧
    ElemFires (elS elF 1) 32 0 (elX elF 1 (ef 2 3 3 1 0 0)) ∧
    (elX elF 1 (ef 2 3 0 1 6 1)).md = 1 ∧ 6 ≤ (elX elF 1 (ef 2 3 0 1 6 1)).sc ∧
    ElemFires (elS elF 1) 32 0 (elX elF 1 (ef 2 3 0 1 6 1)) ∧
    (elX elF 1 (ef 2 3 4 5 1 0)).a.mtag = 6 ∧ bfpOperand (elX elF 1 (ef 2 3 4 5 1 0)).b = true ∧
    tagFmt (elX elF 1 (ef 2 3 4 5 1 0)).sc = some fp32 ∧ ElemFires (elS elF 1) 33 0 (elX elF 1 (ef 2 3 4 5 1 0)) ∧
    (numClass (elX elF 1 (ef 2 3 0 1 0 0)).lm (elX elF 1 (ef 2 3 0 1 0 0)).md [(elX elF 1 (ef 2 3 0 1 0 0)).a]).bind wideClass =
      some (.flt 1 fp32) ∧
    (subOp (.flt 1 fp32) (elX elF 1 (ef 2 3 0 1 0 0)).rm (elX elF 1 (ef 2 3 0 1 0 0)).w (elX elF 1 (ef 2 3 0 1 0 0)).sc).isSome =
      true ∧
    (∀ opc ∈ [42, 43, 44, 45], ElemFires (elS elF 1) opc 0 (elX elF 1 (ef 2 3 0 1 0 0))) ∧
    (elX elF 1 (ef 2 3 0 1 0 0)).follow = false :=
  ⟨by decide +kernel, by decide +kernel, fires_elF (by decide +kernel), by decide +kernel, by decide +kernel,
   by decide +kernel, rfl, fires_elF (by decide +kernel), by decide +kernel, ⟨0, by decide +kernel, by decide +kernel⟩,
   fires_elF (by decide +kernel), rfl, by decide, fires_elF (by decide +kernel), by decide +kernel, by decide +kernel, rfl,
   fires_elF (by decide +kernel), by decide +kernel, rfl,
   fun opc ho => fires_elF ((by decide +kernel : ∀ opc ∈ [42, 43, 44, 45], elF.implicit opc (ef 2 3 0 1 0 0) 1 = true) opc ho),
   rfl⟩

/-- The same element as the second of a chain: it follows element 0, whose slot 0 it shares. -/
def chainS : State :=
  { base with
    focus := .elem 0 1 0
    regions := [(0, { elReg 1 with img := List.replicate 9 0 ++ [0x8000000000000000] ++ List.replicate 112 0 ++ [1] })]
    elems := [(0, elI), (1, elF)] }
def chainX : EEnv := ⟨0, 1, 0, elF, ef 2 3 0 1 0 0, 0x33, true, .rne, 1, Config.freeWord chainS.freeCtr⟩

theorem witness_ElementFollower : chainX.follow = true ∧ ElemFires chainS 45 0 chainX ∧ ElemFires chainS 42 0 chainX :=
  ⟨rfl, ⟨rfl, rfl, rfl, rfl, by decide +kernel, rfl, by decide +kernel, by decide +kernel, rfl, by decide, rfl⟩,
   ⟨rfl, rfl, rfl, rfl, by decide +kernel, rfl, by decide +kernel, by decide +kernel, rfl, by decide, rfl⟩⟩

/-- Task 0, which owns region 0, has its one strand in context 0. -/
def withTask (s : State) : State :=
  { s with tasks := [(0, ⟨0, 0, 0, .bound, [(0, 0)], some 0, false, false, [], 0, 0, 0, 0, 0, 0, [0], [], [], [], {}⟩)], ctxs := [(0, atS)] }

theorem witness_ElementEffects :
    numClass (elX elF 1 (ef 0 3 0 2 0 0)).lm (elX elF 1 (ef 0 3 0 2 0 0)).md
      [(elX elF 1 (ef 0 3 0 2 0 0)).a, (elX elF 1 (ef 0 3 0 2 0 0)).b] = none ∧
    (∀ opc ∈ [0, 1, 2, 6, 7, 13], ElemFires (elS elF 1) opc 0 (elX elF 1 (ef 0 3 0 2 0 0))) ∧
    (elX elF 1 (ef 0 3 4 2 0 0)).a.bfp = true ∧ (elX elF 1 (ef 0 3 4 2 0 0)).a.mtag ≠ 0 ∧
    (∀ opc ∈ [17, 18, 19, 46, 47], ElemFires (elS elF 1) opc 0 (elX elF 1 (ef 0 3 4 2 0 0))) ∧
    ((elS elI 1).region (elX elI 1 (ef 0 3 0 1 0 0)).rk).cyc = none ∧
    ElemFires (elS elI 1) 0 0 (elX elI 1 (ef 0 3 0 1 0 0)) ∧
    (∃ k, (withTask (elS elI 1)).regionCtx 0 = some k ∧ ∀ f ∈ ((withTask (elS elI 1)).ctx k).async, f.src ≠ 1) :=
  ⟨by decide +kernel,
   fun opc ho => fires_elF ((by decide +kernel : ∀ opc ∈ [0, 1, 2, 6, 7, 13],
     elF.implicit opc (ef 0 3 0 2 0 0) 1 = true) opc ho),
   rfl, by decide,
   fun opc ho => fires_elF ((by decide +kernel : ∀ opc ∈ [17, 18, 19, 46, 47],
     elF.implicit opc (ef 0 3 4 2 0 0) 1 = true) opc ho),
   rfl, fires_elI (by decide +kernel), 0, by decide +kernel, by decide +kernel⟩

/-! ### Launches, tasks and contexts -/

/-- A launch record of two tasks of one strand each, without a region, and the entry it makes. -/
def rcd0 : List W64 := [0x1000, 0x40000000009, 2, 0, 0, 0, 0, 0, 0, 0, 0, 0, 0, 0, 0, 0x77]
def dep0 (st retired : Nat) (canc : Bool) : Dep :=
  { w := [w64 (2 ^ 63 + st * 2 ^ 60 + canc.toNat * 2 ^ 56), 0x77, 0, 1, w64 (2 + retired * 2 ^ 32), 0, 0, 0]
    rcd := rcd0, since := 0, aged := 0, started := [], homes := [(1, 0)], cause := .trap, ending := none, replays := 0
    ids := [], rebind := [] }

/-- A machine at level 2 with a work queue, and its first record in HBM4E. -/
def qHost (enq lim : Nat) : List W64 := [w64 (2 ^ 63 + 2 ^ 61 + lim * 2 ^ 29), 0x20000, w64 enq, 0, 0, 0, 0, 0]
def pkgS (q : List W64) : State := wrs { base with wq := [(8191, q)], level := 2 } [(0x20000, 8, 0x1000),
  (0x20008, 8, 0x40000000009), (0x20010, 8, 2), (0x20078, 8, 0x77)]
def depS (d : Dep) : State := { base with deps := [(4095, d)], level := 2 }

theorem queueE_length (m : Nat) : ((pkgS (qHost 512 0)).queueE m).length = 8 := by
  have h : (pkgS (qHost 512 0)).wq = [(8191, qHost 512 0)] := rfl
  unfold State.queueE
  rw [h]
  by_cases hm : m = 8191
  · subst hm; rfl
  · simp [Map.getD, hm, eq_comm]

theorem witness_LaunchEvents :
    (ev (pkgS (qHost 0 0)) (128 * 8191) 0 0 0 (List.replicate 128 1)).focus = .ev (128 * 8191) 0 0 0 (List.replicate 128 1) ∧
    ((pkgS (qHost 0 0)).queueE (128 * 8191 / 128 % 8192)).length = 8 ∧ 128 * 8191 % 128 = 0 ∧
    qOpen ((pkgS (qHost 0 0)).queueE 8191) true = true ∧ (pkgS (qHost 0 0)).log = [] ∧
    qJrn ((pkgS (qHost 0 0)).queueE 8191) = false ∧
    qOpen ((pkgS (qHost 512 0)).queueE 8191) true = false ∧
    (∀ m, ((pkgS (qHost 512 0)).queueE m).length = 8) ∧ 128 * 8191 + max 1 ([] : List Byte).length ≤ 2 ^ 20 ∧
    (pkgS (qHost 1 0)).level ≠ 0 ∧ (pkgS (qHost 1 0)).deps.fresh 0 4096 = some 0 ∧
    ((pkgS (qHost 1 0)).nextTurn.map Prod.snd) = some 8191 ∧ ((pkgS (qHost 1 0)).queueE 8191).length = 8 ∧
    qJrn ((pkgS (qHost 1 0)).queueE 8191) = false ∧
    (pkgS (qHost 1 0)).rcdOk ((pkgS (qHost 1 0)).queueE 8191) ((pkgS (qHost 1 0)).qRecord 8191 1) = true ∧
    (pkgS (qHost 1 0)).deps.any (fun p => p.2.tag = rcdTag ((pkgS (qHost 1 0)).qRecord 8191 1)) = false ∧
    (dep0 1 2 false).st = 1 ∧ (dep0 1 2 false).retired = (dep0 1 2 false).tasks ∧
    (depS { dep0 1 0 false with ending := some 1 }).tasks.any (fun p => p.2.dep = 4095) = false ∧
    (dep0 0 0 true).canc = true ∧ (dep0 0 0 true).st = 0 ∧
    (dep0 1 0 false).started.length < (dep0 1 0 false).tasks ∧ (depS (dep0 1 0 false)).deps.get? 4095 = some (dep0 1 0 false) :=
  ⟨rfl, by decide +kernel, by decide, by decide +kernel, rfl, by decide +kernel, by decide +kernel, queueE_length, by decide,
   by decide, by decide +kernel, by decide +kernel, by decide +kernel, by decide +kernel, by decide +kernel, by decide +kernel,
   by decide +kernel, by decide +kernel, rfl, by decide +kernel, by decide +kernel, by decide +kernel, by decide +kernel⟩

/-- Task 7 of launch 4095, its one strand (WID 1) in context 15 of tile 0. -/
def task0 (st : TaskSt) (ctxs : List (Nat × Nat)) (preq acc : Bool) : Task :=
  ⟨4095, 1, 0, st, ctxs, none, preq, acc, [(1, 0)], 0, 0, 0, 0, 0, 0, [15], [], [], [], {}⟩
def taskS (d : Dep) (k : Task) (c : CtxSt) : State :=
  { wrs base [(0x40000, 8, 0x1A6E000000000001)] with
    deps := [(4095, d)], level := 2, tasks := [(7, k)], ctxs := [(15, { st := c, task := some 7, prio := 1 })]
    parts := [(0, ((List.replicate 16 0).set 0 0x8000000500000001).set 6 4)] }

theorem witness_TaskEvents :
    ((depS (dep0 1 0 false)).levelRuns (dep0 1 0 false).part = true ∧ (depS (dep0 1 0 false)).isTask rcd0 1 = true ∧
      1 ∉ (dep0 1 0 false).started ∧ rcd0.getD 5 0 = 0 ∧ (dep0 1 0 false).homes.find? (fun p => p.1 = 1) = some (1, 0) ∧
      ((depS (dep0 1 0 false)).tile 0).failed = false ∧
      (depS (dep0 1 0 false)).canTake (rcdStrands rcd0) false 0 = true) ∧
    ((task0 .bound [] false false).ctxs = [] ∧ (taskS (dep0 1 0 false) (task0 .bound [] false false) .free).taskBusy
      (task0 .bound [] false false) = false) ∧
    (let s := { taskS { dep0 1 0 false with started := [0, 1] } (task0 .bound [(1, 15)] false false) .run with cycle := 1 }
     s.now ≥ 0 + bitsOf (s.partW 0 0) 0 32 ∧ s.tasks.all (fun p => p.2.st ≠ .saved) = true ∧
     s.deps.all (fun p => p.2.part ≠ 0 || p.2.started.length ≥ p.2.tasks) = true) ∧
    (let s := { taskS (dep0 1 0 false) (task0 .bound [(1, 15)] false false) .run with cycle := 1 }
     s.now ≥ 0 + bitsOf (s.partW 0 0) 0 32 ∧ (∃ p, p ∈ s.deps ∧ p.2.part = 0 ∧ p.2.st = 1 ∧ p.2.ending = none ∧
       p.2.started.length < p.2.tasks ∧
       (s.ctx (ctxKey 0 (([((1 : Nat), 15)].map Prod.snd).headD 0))).eprio ≤ s.depPrio p.2)) ∧
    (let s := { taskS { dep0 1 0 false with started := [0, 1] } (task0 .bound [(1, 15)] false false) .run with
        cycle := 1
        tasks := [(7, task0 .bound [(1, 15)] false false), (8, task0 .saved [] true true)]
        ctxs := [(15, { st := .run, task := some 7 })] }
     s.now ≥ 0 + bitsOf (s.partW 0 0) 0 32 ∧ ∃ p, p ∈ s.tasks ∧ p.2.st = .saved ∧ ∃ f, s.deps.get? p.2.dep = some f ∧ f.part = 0 ∧
       (s.ctx (ctxKey 0 15)).eprio ≤ s.savedPrio p.2 f) ∧
    (((taskS (dep0 1 0 false) (task0 .bound [(1, 15)] true false) .run).freeAreas 0 1).length = 1 ∧
      ((taskS (dep0 1 0 false) (task0 .bound [(1, 15)] true false) .run).ctx (ctxKey 0 15)).st = .run) ∧
    (let s := taskS (dep0 1 0 false) (task0 .bound [(1, 15)] true true) .stopped
     s.allStopped (task0 .bound [(1, 15)] true true) = true ∧ s.cmdsBusy (task0 .bound [(1, 15)] true true) = false ∧
     (s.ctx (ctxKey 0 15)).sq = [] ∧ (s.ctx (ctxKey 0 15)).async = []) ∧
    (let s := taskS (dep0 1 0 false) (task0 .saving [(1, 15)] true true) .saving
     s.tasks.get? 7 = some (task0 .saving [(1, 15)] true true) ∧ s.deps.get? 4095 = some (dep0 1 0 false)) ∧
    (let s := taskS (dep0 1 0 false) (task0 .saved [(1, 15)] true true) .free
     s.levelRuns 0 = true ∧ s.canTake 1 false 0 = true ∧ s.deps.get? 4095 = some (dep0 1 0 false)) :=
  ⟨⟨by decide +kernel, by decide +kernel, by decide, rfl, by decide, rfl, by decide +kernel⟩,
   ⟨rfl, by decide +kernel⟩, ⟨by decide +kernel, by decide +kernel, by decide +kernel⟩,
   ⟨by decide +kernel, (4095, dep0 1 0 false), by decide +kernel, by decide +kernel, by decide +kernel, rfl, by decide +kernel,
    by decide +kernel⟩,
   ⟨by decide +kernel, (8, task0 .saved [] true true), by decide +kernel, rfl, { dep0 1 0 false with started := [0, 1] },
    by decide +kernel, by decide +kernel, by decide +kernel⟩,
   ⟨by decide +kernel, by decide +kernel⟩, ⟨by decide +kernel, by decide +kernel, rfl, rfl⟩, ⟨rfl, rfl⟩,
   ⟨by decide +kernel, by decide +kernel, by decide +kernel⟩⟩

/-- A save area with a valid image, for a task that is bound again. -/
def areaS : State :=
  let s := taskS (dep0 1 0 false) (task0 .saved [(1, 15)] true true) .free
  wrs s [(s.areaPa 0 0, 8, 0x1A6E000000000001)]

theorem witness_TaskEvents_rebind : areaS.levelRuns 0 = true ∧ areaS.canTake 1 false 0 = true ∧
    imgValid (areaS.bytes (areaS.areaPa 0 ((([((1 : Nat), 0)].find? (fun a => a.1 = 1)).map Prod.snd).getD 0)) 4096) = true :=
  ⟨by decide +kernel, by decide +kernel, by decide +kernel⟩

/-- The fetch of an image that an entry waits for. -/
def fetching : State := { imaged with tiles := [(0, { tlb := tlb0, cfg := [(7, { fetch := true, asn := 5, va := 0x10000, sup := true })] })] }

theorem witness_TaskEvents_config : ((ev fetching 0 7 0 0 []).cfgEnt 0 7).fetch = true ∧
    ∃ u, readImage 0 ((ev fetching 0 7 0 0 []).cfgEnt 0 7).part ((ev fetching 0 7 0 0 []).cfgEnt 0 7).sup
      ((ev fetching 0 7 0 0 []).cfgEnt 0 7).va .dev (ev fetching 0 7 0 0 []) = .ok img0 u ∧
    ((ev fetching 0 7 0 0 []).cfgEnt 0 7).own = none := by
  refine ⟨rfl, ?_⟩
  obtain ⟨l, u, h, hl⟩ := ok_of (show okWith (fun l _ => l = bytes0)
    (readU 0 0 { useERead true [0] 0 with own := .dev } .engine 0x10000 3072 (ev fetching 0 7 0 0 [])) = true by decide +kernel)
  exact ⟨u, readImage_of (by decide) h (by rw [of_decide_eq_true hl]; exact words0) check0, rfl⟩

/-- A context whose next block lies in HBM4E: one word. -/
def mapS (c : Ctx) (word0 body : Nat) : State :=
  ev { wrs base [(0x10000, 8, word0), (0x10040, 8, body)] with ctxs := [(15, c)] } 0 15 0 0 []
def haltW : W64 := match encode (.halt ⟨false, 0, 0, 0⟩ 0) with
  | .seq w => w
  | _ => 0
def haltHdr : List W64 := [0xB10C000000000000, 0, 0, 0, 0, 0, 0, 0]
/-- A block that has fired its one exit, or no exit, at its commit; such a block that writes a CSR, one step before. -/
def commitS (x : List (Nat × Nat × ExitKind × W64 × W64)) (ws : List (Nat × Nat × Option W64)) (mask : W64) : State :=
  ev { base with ctxs := [(15, atU)], blks := [(15, ⟨0x10000, haltHdr.set 2 mask, [haltW],
    [{ st := .done }], ws, [], [], x, false, 0, 0, []⟩)] } 0 15 0 0 []
def commitB (x : List (Nat × Nat × ExitKind × W64 × W64)) (ws : List (Nat × Nat × Option W64)) (mask : W64) : Blk :=
  ⟨0x10000, haltHdr.set 2 mask, [haltW], [{ st := .done }], ws, [], [], x, false, 0, 0, []⟩

def csrS : State :=
  let s := commitS [(0, 0, .plain, 0x40, 0)] [] 0
  ev { s with blks := [(15, { commitB [(0, 0, .plain, 0x40, 0)] [] 0 with csrw := [(0, 0x102, 5, 0)] })] } 0 15 1 0 []

/-- A block that has fired two exits, or written a register twice, or both. -/
def twiceB (w x : Bool) (n : Nat) : Blk :=
  commitB (if x then [(0, 1, .plain, 0x40, 0), (1, 2, .plain, 0x40, 0)] else [(0, 1, .plain, 0x40, 0)])
    (if w then [(0, 63, some 5), (n, 63, some 6)] else [(0, 63, some 5)]) 0x8000000000000000
def twiceS (w x : Bool) (n : Nat) : State := ev { base with ctxs := [(15, atU)], blks := [(15, twiceB w x n)] } 0 15 0 0 []

theorem witness_BlockEvents :
    (let s := mapS { atU with next := 0x10000 } 0xB10C000000000000 haltW.toNat
     (s.ctx (ctxKey 0 15)).canMap = true ∧ s.blks.get? (ctxKey 0 15) = none ∧ s.inFlight (ctxKey 0 15 / 16) < 8 ∧
     ∃ b u, fetchBlock (ctxKey 0 15) s = .ok b u ∧ decide (b.words.length = 1) = true) ∧
    (let s := mapS { atU with next := 0x10000 } 0 0
     (s.ctx (ctxKey 0 15)).canMap = true ∧ ∃ f u, fetchBlock (ctxKey 0 15) s = .error f u ∧ f.code = .blockHeader) ∧
    (let s := commitS [(0, 0, .plain, 0x40, 0)] [(0, 63, some 5)] 0x8000000000000000
     let b := commitB [(0, 0, .plain, 0x40, 0)] [(0, 63, some 5)] 0x8000000000000000
     s.blks.get? (ctxKey 0 15) = some b ∧ (s.ctx (ctxKey 0 15)).sync = none ∧ (s.ctx (ctxKey 0 15)).async = [] ∧
     (s.ctx (ctxKey 0 15)).kill = false ∧ s.quiescent (ctxKey 0 15) b = true ∧ b.ready = true ∧ b.fencePending = none ∧
     b.writes = [] ++ (0, 63, some 5) :: []) ∧
    (let s := commitS [] [] 0
     s.blks.get? (ctxKey 0 15) = some (commitB [] [] 0) ∧ s.quiescent (ctxKey 0 15) (commitB [] [] 0) = true ∧
     (commitB [] [] 0).ready = false ∧ (commitB [] [] 0).conflicts = []) ∧
    (csrS.focus = .ev 0 15 1 0 [] ∧ ∃ b, csrS.blks.get? (ctxKey 0 15) = some b ∧ b.csrw = [(0, 0x102, 5, 0)] ∧ b.ready = true ∧
      csrS.quiescent (ctxKey 0 15) b = true ∧ csrS.rolesCheck (ctxKey 0 15) (sortBy Prod.fst b.csrw) = none ∧
      csrS.rolesWait (ctxKey 0 15) (sortBy Prod.fst b.csrw) = false) ∧
    (∀ x ∈ [(true, false, 1), (false, true, 1), (true, true, 1), (true, true, 3)],
      (twiceS x.1 x.2.1 x.2.2).quiescent (ctxKey 0 15) (twiceB x.1 x.2.1 x.2.2) = true ∧
      (twiceB x.1 x.2.1 x.2.2).ready = false ∧
      (twiceB x.1 x.2.1 x.2.2).conflicts.map (fun f => (f.code, f.idx)) =
        (if x.1 then [(.slotConflict, some x.2.2)] else []) ++ if x.2.1 then [(.multiExit, some 2)] else []) ∧
    (let s := mapS { atU with spdist := 4096 } 0 0
     (s.ctx (ctxKey 0 15)).spdist = 4096 ∧ (s.ctx (ctxKey 0 15)).st ≠ .free ∧ s.blks.get? (ctxKey 0 15) = none) ∧
    (let s := mapS { st := .held, fqPend := true } 0 0
     (s.ctx (ctxKey 0 15)).st = .held ∧ (s.ctx (ctxKey 0 15)).fqPend = true) ∧
    (let s := { mapS { atU with yieldTill := some 5 } 0 0 with cycle := 6 }
     (s.ctx (ctxKey 0 15)).yieldTill = some 5 ∧ 64 < ((5 : W64) - s.cycle).toNat) ∧
    (let s := { mapS atU 0 0 with cycle := 5, waits := [⟨15, 0, .waitev (some (1, 4))⟩] }
     s.waits.find? (fun w => w.key = ctxKey 0 15 && (match w.k with
      | .waitev (some till) => s.timedOut till
      | _ => false)) = some ⟨15, 0, .waitev (some (1, 4))⟩) :=
  ⟨⟨by decide +kernel, by decide +kernel, by decide +kernel, ok_of (by decide +kernel)⟩,
   ⟨by decide +kernel, error_of (by decide +kernel)⟩,
   ⟨by decide +kernel, rfl, rfl, rfl, by decide +kernel, by decide +kernel, by decide +kernel, rfl⟩,
   ⟨by decide +kernel, by decide +kernel, by decide +kernel, rfl⟩,
   ⟨rfl, _, rfl, rfl, by decide +kernel, by decide +kernel, by decide +kernel, by decide +kernel⟩, by decide +kernel,
   ⟨rfl, by decide, rfl⟩, ⟨rfl, rfl⟩, ⟨by decide, by decide +kernel⟩, by decide +kernel⟩

/-- A load that waits for an operation on the accumulators, which has completed but not drained: a plain one, an acquire. -/
def ldW (ord : BitVec 2) : W64 := match encode (.ld hd0 { m8 with ord := ord }) with
  | .seq w => w
  | _ => 0
def accS (ord : BitVec 2) : State :=
  ev { base with
    ctxs := [(15, atU)], blks := [(15, { blk1 0 0 0 true with words := [ldW ord] })]
    waits := [⟨15, 0, .accLoad (winPa 0 0x800000) 8 false [7]⟩]
    tiles := [(0, { tlb := tlb0, mrun := [{ busyOp with sent := true }, { busyOp with id := 8 }] })] } 0 15 0 0 []

/-- A store to a window of tile 0; channel 63 of tile 0. -/
def winS (y z : Nat) (v : W64) : State := ev base 0 y z v []
def chanV (n : Nat) (v : W64) : State := ev { base with chans := [(63, ch8 n 0 0 0 0)] } 0 63 0 v []

theorem witness_WindowEvents :
    ((mapS { st := .held } 0 0).ctx (ctxKey 0 15)).st = .held ∧
    (let s := ev (taskS (dep0 1 0 false) (task0 .bound [(1, 15)] false false) .held) 0 15 0 0 []
     (s.ctx (ctxKey 0 15)).task = some 7 ∧ s.tasks.get? 7 = some (task0 .bound [(1, 15)] false false) ∧
     (s.ctx (ctxKey 0 15)).st = .held) ∧
    (let s := ev (taskS (dep0 1 0 false) (task0 .bound [(1, 15)] false false) .run) 0 15 0 0 []
     (s.ctx (ctxKey 0 15)).st = .run ∧ s.deps.get? 4095 = some (dep0 1 0 false) ∧ (dep0 1 0 false).ending = none) ∧
    (base.roleFault 0 (base.tile 0).bankrole.toNat (0xAA00000000015555 : W64).toNat = none ∧
      base.rolesBusy 0 (0xAA00000000015555 : W64).toNat = false) ∧
    ((winS 0xB01FF8 8 1).winBusy 0 0xB01FF8 8 = false ∧ 0xB01FF8 % 8 = 0 ∧ 0xB01FF8 % 512 ≠ 0) ∧
    ((winS 0xA01F80 8 1).winBusy 0 0xA01F80 8 = false ∧ 0xA01F80 % 128 < 0x40) ∧
    (winS 0x81FFF8 8 1).winBusy 0 0x81FFF8 8 = false ∧
    ((winS 0xE01BE8 8 1).winBusy 0 0xE01BE8 8 = false ∧ 0xE01BE8 % 64 / 8 = 5) ∧
    ((barS (bar2 0 0) 0 0).bar (48 * 0 + (0xE01BC8 - 0xE01000) / 64)).length = 6 ∧
    (∀ ord ∈ [(0 : BitVec 2), 1],
     (accS ord).waits.find? (fun w => w.key = ctxKey 0 15 && w.idx = 0) = some ⟨15, 0, .accLoad (winPa 0 0x800000) 8 false [7]⟩ ∧
     (accS ord).paKind (winPa 0 0x800000) = .window 0 0x800000 ∧ ((accS ord).blks.get? (ctxKey 0 15)).isSome = true ∧
     (mfmtOf ((accS ord).wordAt (ctxKey 0 15) 0)).ord = ord ∧ ∀ o ∈ ((accS ord).tile 0).mrun, o.id ∈ [7] → o.sent = true) ∧
    (let v := (ch8 16 0 0 0 0).w.getD 0 0
     let s := chanV 0 v
     (s.chan (64 * 0 + 63)).v = false ∧ (s.chan (64 * 0 + 63)).w.length = 8 ∧
     ({ s.chan (64 * 0 + 63) with w := (s.chan (64 * 0 + 63)).w.set 0 v } : Chan).valid s 0 = none) ∧
    ((chanV 16 0).chan (64 * 0 + 63)).v = true :=
  ⟨rfl, ⟨rfl, rfl, rfl⟩, ⟨rfl, rfl, rfl⟩, ⟨by decide +kernel, by decide +kernel⟩, ⟨by decide +kernel, by decide, by decide⟩,
   ⟨by decide +kernel, by decide⟩, by decide +kernel, ⟨by decide +kernel, by decide⟩, by decide +kernel,
   by decide +kernel, ⟨by decide +kernel, rfl, by decide +kernel⟩, by decide +kernel⟩

/-! ### The host, resets and memory -/

/-- A command in the mailbox: MBCMD, MBADDR, MBLEN, MBARG, the data window's words; the machine's level. -/
def mb (cmd addr len arg : W64) (ws : List (Nat × Byte)) (lv : Nat) : State :=
  { base with level := lv, mbox := { cmd := cmd, addr := addr, len := len, arg := arg, stat := 0x8000000000000000, data := ws } }

/-- Such a command runs, and its hypotheses on the rest hold. -/
def MbRuns (s : State) (op tbl : Nat) (p : State → Bool) : Prop :=
  s.mbBusy = true ∧ s.mbox.op = op ∧ s.mbox.tbl = tbl ∧ s.mbox.queue = [] ∧ s.log = [] ∧ s.waits = [] ∧ p s = true

theorem witness_MailboxEvents :
    (∀ x d, (ev (mb 0 0 0 0 [] 0) x 0 0 0 d).focus = .ev x 0 0 0 d) ∧ (ev (mb 0 0 0 0 [] 0) 8 0 0 0 []).mbBusy = true ∧
    (ev base 8 0 0 0 []).mbBusy = false ∧ mbCommand 5 0 = .ok .level ∧ mbCommand 3 9 = .error 2 ∧
    MbRuns (mb 1 0xFFF8 8 0 [] 0) 1 0 (fun s => s.mbRange && (List.range 1).all (fun j => !s.lineBad (s.mbox.addr.toNat + 8 * j) &&
      decide ((s.peek (s.mbox.addr.toNat + 8 * j) 8).2 = s))) ∧
    MbRuns (mb 1 0xFFF9 8 0 [] 0) 1 0 (fun s => !s.mbRange) ∧
    MbRuns (mb 2 0x10080 128 0 [(127, 9)] 0) 2 0 (fun s => s.mbRange && (List.range 16).all (fun j =>
      decide (s.paKind (s.mbox.addr.toNat + 8 * j) = .hbm)) && (linesOf 0x10080 128).all (fun l => coversLine 0x10080 128 l) &&
      (s.tableOver s.mbox.addr.toNat s.mbox.len.toNat).all (fun o => !o.2.2)) ∧
    MbRuns { mb 2 0x10080 16 0 [(7, 9)] 0 with poison := [0x10080 / 128] } 2 0 (fun s => s.mbRange && decide (0 < s.mbox.len.toNat / 8) &&
      (match mwriteWord s.mbox.addr.toNat s.mbox.len.toNat 0 s with
       | .error c => decide (c = 2)
       | .ok _ => false)) ∧
    MbRuns (mb 3 0 0 19 [(0, 1)] 0) 3 0 (fun s => decide (s.mbEntry < 20 ∧ s.level = 0)) ∧
    MbRuns (mb 3 0 0 19 [(0, 1)] 1) 3 0 (fun s => decide (s.mbEntry < 20 ∧ s.level ≠ 0)) ∧
    MbRuns (mb 3 0 0 20 [(0, 0x80), (1, 0xC)] 1) 3 0 (fun s => decide (s.mbEntry = 20 ∧ (s.mbWord 0).toNat = 3200)) ∧
    MbRuns (mb 0x103 0 0 7 [(1, 0x10), (7, 0x80)] 0) 3 1 (fun s => decide (s.mbEntry < 8) && s.partOk 7 ((List.range 16).map s.mbWord)) ∧
    MbRuns (mb 0x103 0 0 7 [(7, 0x80)] 0) 3 1 (fun s => decide (s.mbEntry < 8) && !s.partOk 7 ((List.range 16).map s.mbWord)) ∧
    MbRuns (mb 0x203 0 0 8 [(2, 5), (4, 5), (7, 0x80)] 0) 3 2 (fun s => decide (s.mbEntry = 8 ∧ (s.mbWord 0).extractLsb' 48 15 = 0 ∧
      (s.mbWord 0).extractLsb' 0 16 = 0 ∧ rcRate (s.mbWord 0) ≤ rcDepth (s.mbWord 0))) ∧
    MbRuns (mb 0x203 0 0 8 [(2, 6), (4, 5), (7, 0x80)] 0) 3 2 (fun s => decide (s.mbEntry ≤ 8 ∧ rcDepth (s.mbWord 0) < rcRate (s.mbWord 0))) ∧
    MbRuns (mb 0x303 0 0 8191 [(5, 8), (7, 0x80), (10, 2)] 0) 3 3 (fun s => decide (s.mbEntry < 8192 ∧
      (s.mbWord 0).extractLsb' 0 26 = 0 ∧ (s.mbWord 1).extractLsb' 0 16 = 0 ∧ (s.mbWord 1).extractLsb' 52 12 = 0 ∧
      s.mbWord 6 = 0 ∧ s.mbWord 7 = 0 ∧ (s.mbWord 0).extractLsb' 43 6 ≠ 0 ∧
      (s.mbWord 0).extractLsb' 29 7 ≤ (s.mbWord 0).extractLsb' 36 7 ∧ (s.queueE 8191).length = 8)) ∧
    MbRuns (mb 0x403 0 0 5 [] 0) 3 4 (fun _ => true) ∧ MbRuns (mb 0x503 0 0 11 [] 0) 3 5 (fun s => decide (s.mbEntry < 12)) ∧
    MbRuns (mb 4 0 0 31 [] 0) 4 0 (fun s => decide (s.mbEntry < 32)) ∧ MbRuns (mb 0x104 0 0 7 [] 0) 4 1 (fun s => decide (s.mbEntry < 8)) ∧
    MbRuns (mb 0x204 0 0 8 [] 0) 4 2 (fun s => decide (s.mbEntry ≤ 8)) ∧
    MbRuns (mb 0x304 0 0 8191 [] 0) 4 3 (fun s => decide (s.mbEntry < 8192)) ∧
    MbRuns (mb 0x504 0 0 11 [] 0) 4 5 (fun s => decide (s.mbEntry < 12)) ∧
    MbRuns (mb 5 0 0 2 [] 1) 5 0 (fun s => decide (s.mbox.arg.toNat % 4 = s.level + 1)) ∧
    MbRuns (mb 6 0 0 0 [] 0) 6 0 (fun s => decide (s.leaf < 2 ^ 20)) ∧ MbRuns (mb 7 0 8 0 [] 1) 7 0 (fun s => decide (s.level ≠ 0)) ∧
    MbRuns (mb 7 0 8 0 [] 0) 7 0 (fun s => decide (s.level = 0) && s.mbRange) :=
  ⟨fun _ _ => rfl, rfl, rfl, rfl, rfl, by unfold MbRuns; decide +kernel, by unfold MbRuns; decide +kernel, by unfold MbRuns; decide +kernel, by unfold MbRuns; decide +kernel,
   by unfold MbRuns; decide +kernel, by unfold MbRuns; decide +kernel, by unfold MbRuns; decide +kernel,
   by unfold MbRuns; decide +kernel, by unfold MbRuns; decide +kernel, by unfold MbRuns; decide +kernel,
   by unfold MbRuns; decide +kernel, by unfold MbRuns; decide +kernel, by unfold MbRuns; decide +kernel,
   by unfold MbRuns; decide +kernel, by unfold MbRuns; decide +kernel, by unfold MbRuns; decide +kernel,
   by unfold MbRuns; decide +kernel, by unfold MbRuns; decide +kernel, by unfold MbRuns; decide +kernel,
   by unfold MbRuns; decide +kernel, by unfold MbRuns; decide +kernel, by unfold MbRuns; decide +kernel,
   by unfold MbRuns; decide +kernel⟩

/-- Requests that wait at a tile's mesh port and before the slow tier, with tokens in class 7 and power tokens. -/
def req7 : Req := ⟨7, 3, 2, 0⟩
def portT (tok pwr : Int) : State :=
  { base with
    tiles := [(0, { mesh := { tok := [(7, tok)], q := [req7], inj := [req7] }, pwrtok := pwr, prate := 5 })]
    regEff := [(7, 0x8000000500010000), (8, 0x8000000500010000)], regclass := [(7, 0x8000000500010000), (8, 0x8000000500010000)]
    slowq := [req7], slowTok := 1 }

theorem witness_PackageEvents :
    (∀ x y z, (ev base x y z 0 []).focus = .ev x y z 0 []) ∧ (base.tiles.map Prod.fst).Nodup ∧ base.log = [] ∧
    (Mem.wf saved.mem = true ∧ saved.log = [] ∧ (saved.tiles.map Prod.fst).Nodup) ∧
    tileOk 0 = true ∧ tileOk 925 = true ∧
    rcV ((portT 1 1).regclass.getD 0 8) = true ∧ rcV ((portT 1 1).regclass.getD 0 7) = true ∧
    ((portT 1 1).tile 0).mesh.tok.getD 0 7 ≤ (rcDepth ((portT 1 1).regclass.getD 0 7) : Int) ∧
    takeReq 7 ((portT 1 1).tile 0).mesh.q = some (req7, []) ∧ (portT 1 1).mayInject ((portT 1 1).tile 0).mesh 7 = true ∧
    (portT 0 1).mayInject ((portT 0 1).tile 0).mesh 7 = false ∧ (portT 1 1).slowq = [req7] ∧ rcV ((portT 1 1).regWord 8) = true ∧
    (1 : Int) ≤ (portT 1 1).slowTok ∧ ((portT 1 1).tile 0).mesh.inj ≠ [] ∧ 1 ≤ ((portT 1 1).tile 0).pwrtok ∧
    ((portT 1 0).tile 0).pwrtok < 1 ∧ 0 < ((portT 1 1).tile 0).prate :=
  ⟨fun _ _ _ => rfl, by decide +kernel, rfl, ⟨by decide +kernel, rfl, by decide +kernel⟩, by decide +kernel, by decide +kernel,
   by decide +kernel, by decide +kernel, by decide +kernel, by decide +kernel, by decide +kernel, by decide +kernel, rfl, by decide +kernel,
   by decide +kernel, by decide, by decide +kernel, by decide +kernel, by decide +kernel⟩

/-- A committed store, alone and behind another of its class; a walk; a slice with a line and a request. -/
def st8 : StEnt := ⟨0, .st, 0x10000, 8, 7, 3, none, none, 0x10000, true, false, 0, 0⟩
def sqS (l : List StEnt) (z : Nat) : State := ev { base with ctxs := [(15, { sq := l })] } 0 15 z 0 []
def walkS (root : W64) : State :=
  ev { wrs base [(0x20000, 8, 0x30001), (0x30000, 8, 0x40001), (0x40000, 8, 0x5087F)] with
       parts := [(0, ((List.replicate 16 0).set 0 0x8000000500000000).set 3 root)]
       walks := [⟨0, 5, 0, false, 0, 0, [(15, 0, 0, 0)]⟩], tiles := [] } 0 0 0 0 []
def sliceS (x : Slice) (n : Nat) : State := ev { base with slices := [(159, x)] } 159 n 0 0 []
def rd1 (line : Nat) : SReq := ⟨line, false, true⟩

theorem witness_MemoryEvents :
    ((sqS [st8] 0).ctx (ctxKey 0 15)).sq[0]? = some st8 ∧ (sqS [st8] 0).storeReady (ctxKey 0 15) 0 = true ∧
    (sqS [st8] 0).paKind st8.pa = .hbm ∧ (sqS [st8] 0).poisonAt st8.pa st8.size = none ∧ st8.kind = .st ∧
    OneWay (sqS [st8] 0) ⟨st8.pa, 0, false, 0⟩ 8 ∧ (sqS [st8] 0).log = [] ∧
    (∀ o ∈ (sqS [st8] 0).tableOver st8.pa st8.size, o.2.2 = false) ∧
    ((sqS [st8, st8] 1).ctx (ctxKey 0 15)).sq[1]? = some st8 ∧ (sqS [st8, st8] 1).storeReady (ctxKey 0 15) 1 = false ∧
    (let s := sliceS { lines := [(0x10000, false)], arr := [⟨0x10000, true, true⟩] } 0
     (s.slice 159).arr = [⟨0x10000, true, true⟩] ∧ (s.slice 159).failed = false ∧ (s.slice 159).spill = [] ∧
     (s.slice 159).miss.length < 64 ∧ (∀ q ∈ (s.slice 159).miss, q.line ≠ 0x10000) ∧ (s.slice 159).lines.get? 0x10000 = some false) ∧
    (let s := sliceS { arr := [rd1 0x10000] } 0
     (s.slice 159).lines.get? 0x10000 = none ∧ (s.slice 159).miss.length < 64) ∧
    (let s := sliceS { arr := [rd1 0x10000], miss := List.replicate 64 (rd1 0x20000) } 0
     64 ≤ (s.slice 159).miss.length ∧ (s.slice 159).spill.length < 1024) ∧
    (let s := sliceS { arr := [rd1 0x10000], spill := List.replicate 1024 (rd1 0x20000) } 0
     (s.slice 159).spill ≠ [] ∧ 1024 ≤ (s.slice 159).spill.length) ∧
    (let s := sliceS { miss := [rd1 0x20000, ⟨0x10000, true, true⟩], spill := [⟨0x30000, true, true⟩] } 1
     (s.slice 159).miss[1]? = some ⟨0x10000, true, true⟩ ∧ ∀ q ∈ (s.slice 159).miss.take 1, q.line ≠ 0x10000) ∧
    (let s := sliceS { miss := [⟨0x20000, false, false⟩] } 0
     (s.slice 159).miss[0]? = some ⟨0x20000, false, false⟩ ∧ (s.slice 159).lines.get? 0x20000 = none) ∧
    (let s := sliceS { miss := [rd1 0x10000, rd1 0x10000] } 1
     (s.slice 159).miss[1]? = some (rd1 0x10000) ∧ ∃ q, q ∈ (s.slice 159).miss.take 1 ∧ q.line = 0x10000) ∧
    base.paKind 0x10000 = .hbm ∧
    (let s := ev { base with moves := [⟨0x40000, 0, none, none, none, ⟨0, 0, 0, 0, true, 0⟩, []⟩] } 0 0 0 0 []
     (∃ m, s.moves[0]? = some m ∧ s.visited m.desc = false)) ∧
    (let s := ev { base with moves := [⟨0x40000, 0, none, none, none, ⟨0, 0, 0, 0, true, 0⟩, []⟩]
                             tiles := [(0, { tslots := [(7, { served 0 0 with visits := [0x40000] })] })] } 0 0 0 0 []
     (∃ m, s.moves[0]? = some m ∧ s.visited m.desc = true)) :=
  ⟨rfl, by decide +kernel, by decide +kernel, by decide +kernel, rfl, way_of rfl, rfl, by decide +kernel, rfl, by decide +kernel,
   ⟨rfl, rfl, rfl, by decide, by decide +kernel, rfl⟩, ⟨rfl, by decide⟩, ⟨by decide, by decide⟩, ⟨by decide +kernel, by decide +kernel⟩,
   ⟨rfl, by decide +kernel⟩, ⟨rfl, rfl⟩, ⟨rfl, rd1 0x10000, by decide, rfl⟩, by decide +kernel,
   ⟨_, rfl, by decide +kernel⟩, ⟨_, rfl, by decide +kernel⟩⟩

def walksTo (s : State) : Option Nat := match (s.walkNow 0 0 0 false 0).1 with
  | .ok e => some e.pte.toNat
  | .error _ => none

theorem witness_MemoryEvents_walks :
    (∃ w, (walkS 0x20000).walks[0]? = some w ∧ w.tile = 0 ∧ w.part = 0 ∧ w.va = 0 ∧ w.write = false) ∧
    (walkS 0x20000).walking 0 = true ∧
    (let s := { walkS 0x20000 with walks := List.replicate 33 ⟨0, 5, 0, false, 0, 0, [(15, 0, 0, 0)]⟩ }
     (∃ w, s.walks[32]? = some w) ∧ s.walking 32 = false) ∧
    walksTo { walkS 0x20000 with walks := [] } = some 0x5087F ∧ walksTo { walkS 0x10000 with walks := [] } = none ∧
    (∀ w ∈ (walkS 0x10000).walks, w.reqs ≠ []) := by
  refine ⟨⟨_, rfl, rfl, rfl, rfl, rfl⟩, by decide +kernel, ⟨⟨_, rfl⟩, by decide +kernel⟩, by decide +kernel, by decide +kernel,
    by decide +kernel⟩

/-- Channel 63 of tile 0 with an element in its spill ring, its tile in partition 0. -/
def spilt : Chan := { w := [w64 (2 ^ 63 + 2 ^ 33 + 8 * 2 ^ 28 + 32 * 2 ^ 5), 0x4000400, 1, 0, 0, 0, 0, 0] }
def spillS : State :=
  ev { base with
    chans := [(63, spilt)]
    parts := [(0, ((List.replicate 16 0).set 0 0x8000000500000000).set 1 1)] } 0 63 0 0 []

/-- Copy channel 3 of tile 0: a transfer of 8 bytes; walks of records at 0x10000 (none ready), 0x10040 (one of 8 bytes that
waits for a word to fill), 0x10080 (one that waits for its requests) and 0x10008 (misaligned); of one in the local store. -/
def xfer8 : Xfer := { someXfer with a := 0x10000, b := 0x10100 }
def recL : State :=
  let pa := 0xF000000100080
  ev (wrs (copies { state := 1, walkId := 5, head := 0x80 }) [(pa, 8, 2 ^ 63), (pa + 0x10, 8, 0x200), (pa + 0x18, 8, 2 ^ 32 + 8)]) 0 3 0 0 []
def recS (head : W64) : State :=
  ev (wrs (copies { state := 1, walkId := 5, head := head }) [(0x10040, 8, 2 ^ 63 + 2 ^ 52), (0x10048, 8, 0x20000), (0x10050, 8, 0x10100),
    (0x10058, 8, 2 ^ 32 + 8), (0x10080, 8, 2 ^ 63), (0x10088, 8, 0x10000), (0x10090, 8, 0x10100), (0x10098, 8, 2 ^ 32 + 8)]) 0 3 0 0 []

theorem witness_MemoryEvents_copies :
    ((spillS.chan (64 * 0 + 63)).v = true ∧ (spillS.chan (64 * 0 + 63)).onchip < (spillS.chan (64 * 0 + 63)).con ∧
      (spillS.chan (64 * 0 + 63)).onchip < (spillS.chan (64 * 0 + 63)).occ ∧ (spillS.chan (64 * 0 + 63)).est = 0 ∧
      spillS.partOfTile 0 = some 0 ∧
      ∃ bs u, readU 0 0 (spillUse false) .engine (w64 ((spillS.chan (64 * 0 + 63)).spillVa 1)) (spillS.chan (64 * 0 + 63)).esize spillS =
        .ok bs u ∧ decide (bs.length = 8) = true) ∧
    (let x := { someXfer with a := 0, b := 0x100 }
     let s := ev (copies { state := 1, queue := [x] }) 0 3 0 0 []
     (s.copyCh 0 3).queue = x :: [] ∧ (s.copyCh 0 3).cur ≠ 2 ∧ x.bar = none ∧
     ∃ r u, copyAll 0 x.who x.id x.wf x.sf x.chunks x.chunks (s.copyCh 0 3).at_ s = .ok r u ∧
       (r.1 && !u.copyOpen 0 x.id) = true) ∧
    (let s := ev { copies { state := 1, queue := [xfer8] } with
        tiles := [(0, { tlb := tlb0, copy := [(3, { state := 1, queue := [xfer8] })], mesh := { q := [{ req7 with copy := xfer8.id }] } })] } 0 3 0 0 []
     ∃ r u, copyAll 0 xfer8.who xfer8.id xfer8.wf xfer8.sf xfer8.chunks xfer8.chunks (s.copyCh 0 3).at_ s = .ok r u ∧
       u.copyOpen 0 xfer8.id = true) ∧
    (((recS 0x10080).copyCh 0 3).walkId ≠ 0 ∧ ((recS 0x10080).copyCh 0 3).cur = 0 ∧ ((recS 0x10080).copyCh 0 3).queue = []) ∧
    (∃ r u, walkRec 0 3 (recS 0x10080) = .ok r u ∧ decide (r = none) = true) ∧
    (∃ r u, walkRec 0 3 recL = .ok r u ∧ (match r with
      | some (nx, p) => decide (nx = 0 ∧ p.bad = none)
      | none => false) = true) ∧
    (∃ r u, walkRec 0 3 (recS 0x10000) = .ok r u ∧ (match r with
      | some (nx, _) => decide (nx = 0)
      | none => false) = true) ∧
    (∃ r u, walkRec 0 3 (recS 0x10040) = .ok r u ∧ decide (r = none) = true) ∧
    (∃ f u, walkRec 0 3 (recS 0x10008) = .error f u ∧ f.code = .misaligned) :=
  ⟨⟨by decide +kernel, by decide +kernel, by decide +kernel, by decide +kernel, by decide +kernel, ok_of (by decide +kernel)⟩,
   ⟨rfl, by decide, rfl, ok_of (by decide +kernel)⟩, ok_of (by decide +kernel),
   ⟨by decide +kernel, by decide +kernel, by decide +kernel⟩, ok_of (by decide +kernel), ok_of (by decide +kernel), ok_of (by decide +kernel), ok_of (by decide +kernel),
   error_of (by decide +kernel)⟩

/-! ### Rings and streams -/

/-- A packet of message 5 in the row ring of tiles 0 to 15. -/
def pkt0 (stop : Nat) (vc : VC) : Pkt := ⟨5, 0, 1, false, false, 0, 0, stop, vc, false, 0, []⟩
def msgTo (cls dpkg dtile landed npkt : Nat) (met : Bool) : Msg :=
  ⟨cls, dpkg, dtile, 0, 1, ⟨16, 0, 0, 0, true, 0⟩, 9, 32, List.replicate 8 1, false, npkt, landed, 0, met, none⟩
def ringS (m : Msg) (l : List Pkt) (x : Nat) : State := ev { base with msgs := [(5, m)], pkts := l } x 15 3 0 []
/-- An arrival of its packet 0 before a tile, behind another message's packet. -/
def comingS (m : Msg) (p : Pkt) : State := ev { base with msgs := [(5, m)], pkts := [{ p with msg := 4 }, p] } 5 0 0 0 []
def finds (s : State) (i : Nat) : Bool := s.pkts.findIdx? (fun p => p.msg = 5 && p.pidx = 0) = some i

def hops (s : State) (p : Pkt) : Bool := match s.pktReady p with
  | some (l, q, _, _) => s.granted p l && q.ring = 0
  | none => false

/-- A token parked in slot 7 of tile 0 and a receive of its handler key 3. -/
def tokS (k : Nat) : State :=
  let s := { kvS 192 0 0 [(tokSlotPa 0 7 + tokOoff (served 0 0).msg.rows - 64, 2, 65535), (tokSlotPa 0 7 + tokOoff (served 0 0).msg.rows - 64 + 16, 4, k)] with
    waits := [⟨15, 0, .recvTok 3⟩] }
  ev (s.updTile 0 (fun t => { t with tslots := [(7, { served 0 0 with service := none })] })) 0 0 0 0 []

theorem witness_RingEvents :
    (ringS (msgTo 1 1 1 0 1 false) [pkt0 0 .source] 0).pkts[0]? = some (pkt0 0 .source) ∧
    (ringS (msgTo 1 1 1 0 1 false) [pkt0 0 .source] 0).leaves (pkt0 0 .source) (msgTo 1 1 1 0 1 false) = false ∧
    hops (ringS (msgTo 1 1 1 0 1 false) [pkt0 0 .source] 0) (pkt0 0 .source) = true ∧
    (ringS (msgTo 1 1 1 0 2 false) [{ pkt0 0 .source with pidx := 1 }, pkt0 0 .source] 0).pktReady { pkt0 0 .source with pidx := 1 } = none ∧
    (let s := comingS (msgTo 0 0 2 0 3 false) (pkt0 1 .adaptive)
     finds s 1 = true ∧ s.stopTile 0 1 = some 1 ∧ (s.tile 1).tslots.find? (fun e => e.2.mid = 5) = none ∧ s.shardNames 1 (msgTo 0 0 2 0 3 false) = false) ∧
    (let s := comingS (msgTo 0 0 2 0 3 false) (pkt0 2 .adaptive)
     finds s 1 = true ∧ s.stopTile 0 2 = some 2 ∧ Map.fresh (s.tile 2).tslots 0 8 = some 0) ∧
    (let s := ringS (msgTo 1 0 0 1 1 true) [] 5
     s.msgs.get? 5 = some (msgTo 1 0 0 1 1 true) ∧ s.msgHeld 5 (msgTo 1 0 0 1 1 true) = false ∧ (s.tile 0).ovf.length < 64) ∧
    (let s := ev { base with msgs := [(5, msgTo 1 0 0 1 1 true)], nextId := 200, tiles := [(0, { tlb := tlb0, ovf := List.range' 100 64 })] } 5 0 0 0 []
     5 < s.nextId ∧ s.msgHeld 5 (msgTo 1 0 0 1 1 true) = false ∧ 64 ≤ (s.tile 0).ovf.length) ∧
    (let s := { ringS (msgTo 1 0 0 1 1 true) [] 5 with waits := [⟨15, 0, .recv 9 (some (0, 1)) 8 0⟩] }
     s.msgHeld 5 (msgTo 1 0 0 1 1 true) = false ∧ fitsMsg 9 (some (0, 1)) (msgTo 1 0 0 1 1 true) = true) ∧
    (∃ e, (tokS 3).parkHead 0 = some (7, e) ∧ e.full = true ∧ ((tokS 3).tokPost 0 ((tokS 3).slotHdr 0 7 e 0x10 4)).isSome = true ∧
      (tokS 3).slotHdr 0 7 e 0 2 = 65535) ∧ ((tokS 3).ctx 15).region = none ∧
    (tokS 3).poisonAt ((tokS 3).seqPa 65535) 128 = none ∧ ((tokS 3).seq 65535).v = true ∧
    linksOk ((tokS 3).seq 65535).links ((tokS 3).seq 65535).tent = true ∧ (tokS 3).tokRuns 0 = false ∧
    ((tokS 3).updTile 0 (fun t => { t with tslots := (6, served 15 0) :: t.tslots })).tokRuns 0 = true ∧
    (∃ e, (tokS 4).parkHead 0 = some (7, e) ∧ e.full = true ∧ (tokS 4).tokPost 0 ((tokS 4).slotHdr 0 7 e 0x10 4) = none) ∧
    (let s := ev { base with bars := [(47, bar2 1 0)], rembars := [⟨0, 0, 47, none, 16, 0, 0, 0, 0, ⟨16, 0, 0, 0, true, 0⟩, 0⟩] } 0 0 0 0 []
     barMatch (s.bar (48 * 0 + 47)) 0 0 0 = true ∧ (barEvent (s.bar (48 * 0 + 47)) 1 0).isSome = true ∧
     barMatch (s.bar (48 * 0 + 47)) 1 0 0 = false) ∧
    (let s := ev { base with regions := [(0, { flights := [⟨0, 15, 3, 0, ⟨9, 1, false⟩⟩] })] } 0 15 3 0 []
     (landing (s.region (4 * 0 + 15 / 16)).flights 0 (15 % 16) (3 % 4)).isSome = true) :=
  ⟨rfl, by decide +kernel, by decide +kernel, by decide +kernel,
   ⟨by decide +kernel, by decide +kernel, by decide +kernel, by decide +kernel⟩,
   ⟨by decide +kernel, by decide +kernel, by decide +kernel⟩, ⟨rfl, by decide +kernel, by decide +kernel⟩, ⟨by decide, by decide +kernel, by decide +kernel⟩,
   ⟨by decide +kernel, by decide +kernel⟩, ⟨_, rfl, by decide +kernel, by decide +kernel, by decide +kernel⟩, by decide +kernel,
   by decide +kernel, by decide +kernel, by decide +kernel, by decide +kernel, by decide +kernel,
   ⟨_, rfl, by decide +kernel, by decide +kernel⟩, ⟨by decide +kernel, by decide +kernel, by decide +kernel⟩, by decide +kernel⟩

/-- Region 3 of tile 0 whose stream-in port 3 leads to input 3 of element 15; map of 8 tokens of 8 bytes in HBM4E. -/
def inReg (r : Region) : Region := { r with img := (List.replicate 40 (0 : W64)) ++ [0x9F80000000000000] ++ List.replicate 343 0 }
def map64 (base : Nat) : BitVec 256 := BitVec.ofNat 256 (2 ^ 255 + 3 * 2 ^ 252 + 8 * 2 ^ 64 + 2 ^ 96 + 2 ^ 128 + base)
def strS (r : Region) (chans : Map Chan) : State := ev { base with regions := [(3, inReg r)], chans := chans } 0 3 3 0 []
def sinW (chan : Option Nat) (pos total : Nat) (eos : Bool) : StreamIn := ⟨map64 0x10000, chan, pos, total, eos, 0, ⟨0, 0, 0, 0, true, 0⟩⟩

theorem witness_StreamEvents :
    (strS { draining := true } []).region 3 = { inReg {} with draining := true } ∧
    (rtV ((inReg {}).inRoute 3) = true ∧ (strS {} []).routeSpace 3 ((inReg {}).inRoute 3) = true) ∧
    (let s := strS { sin := [(3, sinW (some 63) 0 8 false)] } [(63, ch8 16 2 1 0 1)]
     s.routeSpace 3 ((s.region 3).inRoute 3) = true ∧ (s.chan 63).lost = false ∧ (s.chan 63).v = true ∧ (s.chan 63).atMarker = false ∧
     0 < (s.chan 63).onchip ∧ (s.region 3).pend = [] ∧
     s.poisonAt ((s.chan 63).slotPa 63 (((s.chan 63).popseq + 1) % 2 ^ 64)) 8 = none) ∧
    (let s := strS { sin := [(3, sinW (some 63) 0 8 false)] } [(63, ch8 16 2 1 0 1)]
     let u := { s with poison := [(s.chan 63).slotPa 63 (((s.chan 63).popseq + 1) % 2 ^ 64) / 128] }
     (u.chan 63).atMarker = false ∧ 0 < (u.chan 63).onchip ∧
     u.poisonAt ((u.chan 63).slotPa 63 (((u.chan 63).popseq + 1) % 2 ^ 64)) 8 ≠ none) ∧
    ((strS { sin := [(3, sinW (some 63) 0 8 false)] } [(63, { ch8 16 2 1 0 1 with lost := true })]).chan 63).lost = true ∧
    (let s := strS { sin := [(3, sinW (some 63) 0 8 false)] } []
     s.routeSpace 3 ((s.region 3).inRoute 3) = true ∧ (s.chan 63).v = false) ∧
    (let s := strS { sin := [(3, sinW none 8 8 true)] } []
     s.routeSpace 3 ((s.region 3).inRoute 3) = true ∧ (sinW none 8 8 true).total ≤ (sinW none 8 8 true).pos) ∧
    (let s := strS { sin := [(3, sinW none 3 8 false)] } []
     s.routeSpace 3 ((s.region 3).inRoute 3) = true ∧ ∃ l u, ((tokAddrs (sinW none 3 8 false).tm 3).mapM (fun a =>
        mReadPiece 0 0 ((copyRead true).by ⟨0, 0, 0, 0, true, 0⟩) .engine a (tmEsz (sinW none 3 8 false).tm))) s = .ok l u ∧ decide (l.flatten.length = 8) = true) ∧
    (let s := strS { pend := [⟨3, ⟨15, 0, 0, 0, true, 0⟩, some 5⟩] } []
     (s.region 3).pend = ⟨3, ⟨15, 0, 0, 0, true, 0⟩, some 5⟩ :: [] ∧ (s.region 3).sin.get? 3 = none ∧ s.routeSpace 3 ((s.region 3).inRoute 3) = true) ∧
    (let s := strS { sobuf := [(3, [⟨9, 0, false⟩])] } []
     (s.region 3).sobuf.getD [] 3 = ⟨9, 0, false⟩ :: [] ∧ (s.region 3).sout.get? 3 = none) ∧
    (let s := strS { sobuf := [(3, [⟨9, 0, true⟩])], sout := [(3, ⟨map64 0x10000, 1, 8, ⟨0, 0, 0, 0, true, 0⟩⟩)] } []
     (s.region 3).sobuf.getD [] 3 = ⟨9, 0, true⟩ :: [] ∧ (s.region 3).sbar.get? 3 = none) ∧
    (let s := strS { sobuf := [(3, [⟨9, 0, true⟩])], sout := [(3, ⟨map64 0x10000, 1, 8, ⟨0, 0, 0, 0, true, 0⟩⟩)], draining := true,
                     sbar := [(3, 5)] } []
     (s.region 3).sobuf.getD [] 3 = ⟨9, 0, true⟩ :: [] ∧ (s.region 3).sbar.get? 3 ≠ none ∧ (s.region 3).draining = true) ∧
    (let s := strS { sobuf := [(3, [⟨9, 0, false⟩])], sout := [(3, ⟨map64 0x10000, 1, 8, ⟨0, 0, 0, 0, true, 0⟩⟩)] } []
     ∃ a u, soWrite 0 ⟨map64 0x10000, 1, 8, ⟨0, 0, 0, 0, true, 0⟩⟩ 9 s = .ok a u ∧ decide (a = ()) = true) ∧
    (let s := strS { sobuf := [(3, [⟨5, 3, false⟩])] } []
     (⟨5, 3, false⟩ : Tok).permit = true ∧ s.permit 0 5 = none ∧ (s.tile 0).permits.length < 16 ∧ s.waits = []) ∧
    (let s := { strS { sobuf := [(3, [⟨16, 3, false⟩])] } [] with tiles := [(0, { permits := (List.range 16).map (fun i => ⟨i, none⟩) })] }
     s.permit 0 16 = none ∧ 16 ≤ (s.tile 0).permits.length) ∧ (⟨9, 0, true⟩ : Tok).permit = false :=
  ⟨rfl, ⟨by decide +kernel, by decide +kernel⟩, ⟨by decide +kernel, by decide +kernel, by decide +kernel, by decide +kernel, by decide, rfl, by decide +kernel⟩,
   ⟨by decide +kernel, by decide, by decide +kernel⟩, by decide +kernel, ⟨by decide +kernel, by decide +kernel⟩, ⟨by decide +kernel, by decide⟩, ⟨by decide +kernel, ok_of (by decide +kernel)⟩,
   ⟨rfl, rfl, by decide +kernel⟩, ⟨rfl, rfl⟩, ⟨rfl, rfl⟩, ⟨rfl, by decide, rfl⟩, ok_of (by decide +kernel), ⟨rfl, rfl, by decide, rfl⟩,
   ⟨by decide +kernel, by decide⟩, rfl⟩

/-! ### Deliveries, faults and steps -/

/-- Does a step answer a next state? -/
def Answers (o : Host.Outcome State Fault Refusal) : Bool := match o with
  | .next _ => true
  | _ => false

theorem answers_of {o : Host.Outcome State Fault Refusal} (h : Answers o = true) : ∃ t, o = .next t := by
  cases o with
  | next t => exact ⟨t, rfl⟩
  | fault => cases h
  | refused => cases h

/-- Two words, the first of which delivers to slot b of the second. -/
def blkD (b : Option W64) : Blk :=
  ⟨0x1000, List.replicate 8 0, [0, 0], [{ a := some 1, b := some 2, p := some true, o := true }, { b := b }], [], [], [], [], false, 0, 0, []⟩
def headD : Head := ⟨false, 0, 0x205, 0⟩

/-- A word whose predicate bars it, one that lacks its operands, and one with a recorded result. -/
def headP : Head := ⟨false, 2, 0x205, 0⟩
def blkE : Blk := ⟨0x1000, List.replicate 8 0, [0, 0], [{}, {}], [], [], [], [], false, 0, 0, []⟩
def enqW : W64 := match encode (.enq headD) with
  | .seq w => w
  | _ => 0
def recorded : State := put0 State.reset { atS with irv := some ⟨0, 5⟩ :: List.replicate 7 none } (blk1 enqW 1 2 true)

theorem witness_Deliveries :
    ((put0 State.reset atS (blkD none)).blks.get? 0 = some (blkD none) ∧ targetOf 0 headD.t0 = some (1, 1) ∧
      targetOf 0 headD.t1 = none ∧ 1 < (blkD none).nodes.length ∧ ((blkD none).node 1).slot 1 = none) ∧
    ((blkD (some 7)).node 1).slot 1 ≠ none ∧
    (∀ x ∈ [Instr.add headP false, .get headP 1, .cmp headP true 2, .br headP 0 4, .chpush headP false, .kvtent headP, .tsdesc headP,
      .mma headP 0 false], (put0 State.reset atS (blk1 0 1 2 true)).firing 0 0 0 headP (readsOf x) = .nullify) ∧
    (∀ x ∈ [Instr.add headP false, .get headP 1, .cmp headP true 2, .br headP 0 4, .chpush headP false, .kvtent headP, .tsdesc headP,
      .mma headP 0 false], (put0 State.reset atS blkE).firing 0 0 0 headP (readsOf x) = .notReady) ∧
    (irrevocable enqW = true ∧ tokenOnly enqW = false ∧ irvFind (recorded.ctx 0).irv 0 = some 5 ∧
      ∀ x ∈ [Instr.enq headD, .chpush headD false, .pacq headD, .kvtent headD],
        recorded.firing 0 0 0 headD (readsOf x) = .fire (env0 headD 1 2 true (blk1 enqW 1 2 true))) :=
  ⟨⟨rfl, by decide +kernel, by decide +kernel, by decide, rfl⟩, by decide, by decide +kernel, by decide +kernel,
   ⟨by decide +kernel, by decide +kernel, by decide +kernel, by decide +kernel⟩⟩

theorem witness_ValueFrames : (plain 1 2).log = [] ∧ irrevocable (plainE 1 2).word = false ∧
    (∀ n, Fires (plain 1 2) n (plainE 1 2)) ∧
    (∀ i ∈ [Instr.add hd0 true, .div hd0 false, .cmpi hd0 true 7 5, .lea hd0 false 9, .get hd0 63, .put hd0 63, .br hd0 0 4,
      .halt hd0 7], ∃ t, exec i (plain 1 2) = .next t) := by
  refine ⟨rfl, by decide, fun n => fires_plain n _ _, fun i hi => answers_of ?_⟩
  exact (by decide +kernel : ∀ i ∈ [Instr.add hd0 true, .div hd0 false, .cmpi hd0 true 7 5, .lea hd0 false 9, .get hd0 63,
    .put hd0 63, .br hd0 0 4, .halt hd0 7], Answers (exec i (plain 1 2)) = true) i hi

/-- A strand with a handler on a tile with a fault frame, and faults that wait. -/
def faulty : State :=
  ev { base with
    ctxs := [(15, { atU with handler := 0x4000, sync := some { code := .trap }, async := [{ code := .regionBusy, src := 3 }] }),
      (14, { atU with async := [{ code := .regionBusy, src := 3 }] })]
    tiles := [(0, { tlb := tlb0, frameva := 0x5000 })] } 0 15 0 0 []

theorem witness_FaultEntry :
    ((faulty.ctx 15).inh = false ∧ (faulty.ctx 15).handler ≠ 0 ∧ (faulty.tile (15 / 16)).frameva ≠ 0) ∧
    (faulty.ctx 14).handler = 0 ∧ faulty.partW (faulty.ctx 15).part 4 = 0 ∧
    (faulty.focus = .ev 0 15 0 0 [] ∧ ctxKey 0 15 = 15 ∧ (faulty.ctx 15).st = .run ∧ faulty.recordedOpen 15 = false ∧
      (faulty.ctx 15).sync = some { code := .trap }) ∧
    ((ev faulty 0 14 0 0 []).recordedOpen 14 = false ∧ (faulty.ctx 14).sync = none ∧ (faulty.ctx 14).st = .run ∧
      (faulty.ctx 14).async = [] ++ { code := .regionBusy, src := 3 } :: []) ∧
    (let s := ev { base with ctxs := [(15, { atU with async := [{ code := .regionBusy, src := 3, behind := true }] })] } 0 15 0 0 []
     s.recordedOpen 15 = false ∧ (s.ctx 15).sync = none ∧ (s.ctx 15).st = .run ∧ ∀ o ∈ (s.ctx 15).async, o.behind = true) :=
  ⟨⟨rfl, by decide, by decide⟩, rfl, by decide +kernel, ⟨rfl, rfl, rfl, by decide +kernel, rfl⟩,
   ⟨by decide +kernel, rfl, rfl, rfl⟩, ⟨by decide +kernel, rfl, rfl, by decide +kernel⟩⟩

theorem witness_StepRunsDecoded :
    (∃ a, ({ State.reset with agenda := [.tick .count] } : State).agenda = a :: []) ∧
    ({ State.reset with powered := false }).powered = false ∧ (State.reset.powered = true ∧ State.reset.agenda = []) ∧
    (let s := { put0 State.reset atS (blk1 0x1044080000000001 1 2 true) with agenda := [.fire 0 0 0] }
     decodeSeq (s.wordAt (ctxKey 0 0) 0) = .ok (.addi ⟨false, 0, 0x204, 0⟩ false 1)) ∧
    (let s := { elS elI (0x07444900 * 2 ^ 32 + 1) with agenda := [.elem 0 0 0] }
     decodeElem (BitVec.ofNat 32 ((s.region (4 * 0 + 0 / 16)).opWord 0 0)) =
       some (.elementFma ⟨2, 8, 8, 9, 2, 0, false, false, 0⟩)) :=
  ⟨⟨_, rfl⟩, rfl, ⟨rfl, rfl⟩, by decide +kernel, by decide +kernel⟩

theorem witness_EncodeDecode : (Instr.ld hd0 ⟨6, 1, 0, 0, false, 16⟩).wf = true ∧ (Instr.kvappend hd0 true).wf = true ∧
    (Instr.elementFma ⟨2, 8, 8, 9, 2, 0, false, false, 0⟩).wf = true ∧ Instr.blockMap.wf = true :=
  ⟨by decide +kernel, by decide +kernel, by decide +kernel, by decide +kernel⟩

theorem witness_InvStep : Inv State.reset ∧ ∃ t, step State.reset = .next t := by
  refine ⟨?_, answers_of (by decide +kernel)⟩
  constructor <;> rfl

/-! ## Ill-formed terms: one for each check (R290-R297, R299, R345, R383, R395, R400-R408) -/

/-- A head with a target whose V is 0 and whose other bits are not, and one that delivers. -/
def headBad : Head := ⟨false, 0, 0x001, 0⟩

theorem test_illFormed_targets : (Instr.nop headBad).wf = false ∧ (Instr.put hd0 1).wf = false ∧
    (Instr.const_ ⟨false, 0, 0x204, 0x204⟩ 1).wf = false ∧ (Instr.sel ⟨false, 2, 0x204, 0⟩).wf = false := by decide

theorem test_illFormed_fields : (Instr.shli hd0 true 32).wf = false ∧ (Instr.bext hd0 true 31 1).wf = false ∧
    (Instr.bins hd0 false 63 1).wf = false ∧ (Instr.widf hd0 6).wf = false ∧ (Instr.alignup hd0 true 32).wf = false ∧
    (Instr.sext hd0 true 32).wf = false := by decide

theorem test_illFormed_memory : (Instr.ld hd0 { m8 with ts := 7 }).wf = false ∧ (Instr.st hd0 { m8 with ts := 1 }).wf = false ∧
    (Instr.ldf hd0 m4).wf = false ∧ (Instr.pref hd0 m8).wf = false ∧ (Instr.cas hd0 m8).wf = false ∧
    (Instr.red hd0 { m8 with ts := 8 }).wf = false ∧ (Instr.amof hd0 { m8 with ts := 3 }).wf = false ∧
    (Instr.ld hd0 { m8 with ord := 2 }).wf = false ∧ (Instr.st hd0 { m8 with ord := 1 }).wf = false ∧
    (Instr.ld hd0 { m8 with scp := 3 }).wf = false ∧ (Instr.ld hd0 { m8 with ord := 1, scp := 6 }).wf = false ∧
    (Instr.fence hd0 0 6).wf = false := by decide

theorem test_illFormed_units : (Instr.drain hd0 5).wf = false ∧ (Instr.xcopy hd0 ⟨3, 0, 0, false, 0, false, false, 0⟩).wf = false ∧
    (Instr.xcopy hd0 ⟨0, 0, 1, false, 0, false, false, 0⟩).wf = false ∧ (Instr.xcopy hd0 ⟨1, 0, 0, false, 0, false, false, 1⟩).wf = false ∧
    (Instr.xcopy hd0 ⟨0, 0, 0, true, 48, false, false, 0⟩).wf = false ∧ (Instr.sbar hd0 0 false 1).wf = false ∧
    (Instr.sbindMap hd0 4 0 true).wf = false ∧ (Instr.mside hd0 0 3).wf = false ∧ (Instr.mwait hd0 0).wf = false ∧
    (Instr.chstat hd0 4).wf = false ∧ (Instr.send hd0 3).wf = false ∧ (Instr.tokinfo hd0 6).wf = false ∧
    (Instr.binit hd0 0 0 5).wf = false ∧ (Instr.barr hd0 48).wf = false ∧ (Instr.pctr hd0 4).wf = false := by decide

theorem test_illFormed_elements : (Instr.elementAdd (ef 2 0 8 9 1 0)).wf = false ∧ (Instr.elementTake (ef 2 0 8 0 0 0)).wf = false ∧
    (Instr.elementShl (ef 3 0 8 9 0 1)).wf = false ∧ (Instr.elementPset { ef 3 12 0 0 1 0 with pwe := true }).wf = false ∧
    (Instr.elementNop (ef 3 8 0 0 0 0)).wf = false ∧ (Instr.elementPmov (ef 3 13 8 0 0 0)).wf = false ∧
    (Instr.elementSel (ef 3 0 8 9 8 0)).wf = false ∧ (Instr.elementRndi (ef 3 0 8 0 8 0)).wf = false ∧
    (Instr.elementShuf (ef 3 0 8 9 4 0)).wf = false ∧ (Instr.elementTkins (ef 3 0 8 9 0 2)).wf = false := by decide

/-! ## Words of the manual's encodings (R289-R302) -/

theorem test_decode_memory : decodeSeq 0x71040E0032000000 = .ok (.ste ⟨false, 0, 0x207, 0⟩ ⟨6, 4, 0, 0, false, 0⟩) ∧
    decodeSeq 0xA0040E0004232FFF = .ok (.xcopy ⟨false, 0, 0x207, 0⟩ ⟨0, 1, 0, true, 6, false, true, 4095⟩) := by decide +kernel

theorem test_decode_units : decodeSeq 0xC304080004000000 = .ok (.recvwT ⟨false, 0, 0x204, 0⟩) ∧
    decodeSeq 0xE118000000000000 = .ok (.kvcommit ⟨false, 3, 0, 0⟩) := by decide +kernel

theorem test_decode_elements : decodeElem 0x5D840001 = some (.elementTkins ⟨3, 0, 8, 0, 0, 0, false, false, 1⟩) ∧
    decodeElem 0x5D870001 = some (.elementTkins ⟨3, 0, 14, 0, 0, 0, false, false, 1⟩) := by decide +kernel

/-! ## Values of the manual's tables and examples -/

/-- What a word delivers to slot a of the next one. -/
def hdA : Head := ⟨false, 0, 0x204, 0⟩
def wordOf (i : Instr) : W64 := match encode i with
  | .seq w => w
  | _ => 0
def given (i : Instr) (c : Ctx) (a b : W64) : Option W64 :=
  match exec i { put0 State.reset c (blkD none) with
      blks := [(0, { blkD none with
        words := [wordOf i, 0]
        nodes := [{ a := some a, b := some b, p := some true, o := true }, {}] })] } with
  | .next t => ((t.blks.get? 0).map (fun x => x.node 1)).bind Node.a
  | _ => none

theorem test_div : given (.div hdA false) atU 7 (-2) = some (-3) ∧ given (.rem hdA false) atU 7 (-2) = some 1 := by decide +kernel
theorem test_div_signs : given (.div hdA false) atU (-7) 2 = some (-3) ∧ given (.rem hdA false) atU (-7) 2 = some (-1) := by
  decide +kernel
theorem test_div_zero : given (.div hdA false) atU 5 0 = some 0xFFFFFFFFFFFFFFFF ∧ given (.rem hdA false) atU 5 0 = some 5 := by
  decide +kernel
theorem test_div_overflow : given (.div hdA false) atU 0x8000000000000000 (-1) = some 0x8000000000000000 := by decide +kernel
theorem test_divu_w : given (.divu hdA true) atU 0x180000000 0 = some 0xFFFFFFFFFFFFFFFF ∧
    given (.remu hdA true) atU 0x180000000 0 = some 0xFFFFFFFF80000000 := by decide +kernel
theorem test_adds_w : given (.adds hdA true) atU 0x7FFFFFF0 0x20 = some 0x7FFFFFFF := by decide +kernel
theorem test_modadd : given (.modadd hdA) atU 127 0x8000000003 = some 2 := by decide +kernel

/-- The strand of the example launch: WIDFMT 0x0002_2080_0001_0823, WID 0x153. -/
def widC : Ctx := { atU with wid := 0x153, widfmt := 0x0002208000010823 }

theorem test_wid : given (.widf hdA 0) widC 0x153 0 = some 3 ∧ given (.widf hdA 1) widC 0x153 0 = some 5 ∧
    given (.widl hdA) widC 0x153 1 = some 0x15 := by decide +kernel

/-- The key ring of R82's example: positions 2, 130 and 255. -/
def ringTm : BitVec 256 := BitVec.ofNat 256 (2 ^ 255 + 4 * 2 ^ 244 + 128 * 2 ^ 224 + 64 * 2 ^ 160 + 2 ^ 128 + 128 * 2 ^ 96 + 64 * 2 ^ 64 +
  0x7F0000100000)

theorem test_keyRing : tmapAddr ringTm 5 2 0 = 0x7F0000100085 ∧ tmapAddr ringTm 5 130 0 = 0x7F0000100085 ∧
    tmapAddr ringTm 5 255 0 = 0x7F0000101FC5 := by decide +kernel

theorem test_window : winPa 0x25B 0 = 0xF00025B000000 := by decide
/-- R247's example: SKIP(3) = 6 on die 1. -/
theorem test_phys : ({ base with fuse := [[], [16, 16, 16, 6]] } : State).phys 0x135 = (1, 3, 5) ∧
    ({ base with fuse := [[], [16, 16, 16, 6]] } : State).phys 0x136 = (1, 3, 7) ∧
    ({ base with fuse := [[], [16, 16, 16, 6]] } : State).phys 0x13F = (1, 3, 16) := by decide +kernel

/-- A summary entry as R231 resets it, for head dimension 32. -/
theorem test_sumReset : (sumReset 32).length = 128 ∧ leNat ((sumReset 32).take 2) = 0x7F80 ∧
    leNat ((sumReset 32).drop 126) = 0xFF80 := by decide +kernel

theorem test_homes : homeSlice 0x7123452180 = 160 * 2 + 131 ∧ stackChannel 0x7123452180 = 32 * 7 + 8 := by decide +kernel

/-- The word placed where the first step fetches runs. -/
theorem test_placed : Answers (step (State.reset.withFetchWord 64 0x1044080000000001)) = true ∧
    Answers (step (State.reset.withFetchWord 32 0x07444900)) = true := by decide +kernel

/-- The head of the three-best chain: its first candidate beats the sentinel (R356's example). -/
def chain1 : Elem := { e := [(0, 0xFF800000FFFFFFFF)], ins := [(0, [⟨0x4000000000000007, 0, false⟩])] }

theorem test_tkins : (match exec (.elementTkins ⟨3, 0, 8, 0, 0, 0, false, false, 1⟩) (elS chain1 0x1001) with
    | .next t => decide ((t.elem 0).e.getD 0 0 = 0x4000000000000007 ∧ (t.elem 0).chain = 0xFF800000FFFFFFFF ∧
        (t.elem 0).ins.getD [] 0 = [])
    | _ => false) = true := by decide +kernel

/-- The block of R54's example: its exponent, its mantissas and NX. -/
theorem test_bfp : bfpExp ([0x40400000, 0xBF4CCCCD, 0x3E99999A, 0x3FA00000, 0x4079999A].map fp32.dec) = 0x80 ∧
    [0x40400000, 0xBF4CCCCD, 0x3E99999A, 0x3FA00000, 0x4079999A].map (fun v => bfpMant 4 0x80 (fp32.dec v)) =
      [(6, 0), (14, fNX), (1, fNX), (2, fNX), (7, fNX)] := by decide +kernel

/-- Special results of the functions (R69's table). -/
theorem test_functions : fp32.log2 .rne 0x80000000 = (0xFF800000, fDZ) ∧ fp32.rsqrt .rne 0xBF800000 = (0x7FC00000, fNV) ∧
    fp32.exp2 .rne 0xFF800000 = (0, 0) ∧ fp32.sqrt .rne 0x80000000 = (0x80000000, 0) ∧ fp32.rcp .rne 0 = (0x7F800000, fDZ) := by
  decide +kernel

/-- Overflow by rounding mode (R59). -/
theorem test_overflow : (fp32.add .rtz 0x7F7FFFFF 0x7F7FFFFF).1 = 0x7F7FFFFF ∧ (fp32.add .rne 0x7F7FFFFF 0x7F7FFFFF).1 = 0x7F800000 ∧
    (fp32.add .rup 0xFF7FFFFF 0xFF7FFFFF).1 = 0xFF7FFFFF := by decide +kernel

end Sys2Proof.Tests
end

/-! Every step ends with `endStep`, which alone decides memory, the write log, the focus and the fused map (R4, R247). -/

namespace Sys2Proof.Machine

/-- Every instruction's meaning ends with `endStep` of the state it starts from: none faults, none is refused. -/
theorem exec_next_endStep (i : Instr) (s : State) : ∃ u, exec i s = .next (endStep s u) := by
  cases i <;> exact ⟨_, rfl⟩

/-- The agenda and the focus that a step starts from are not among what `endStep` keeps. -/
theorem endStep_with_agenda_focus (s u : State) (l : List Act) (f : Focus) :
    endStep { s with agenda := l, focus := f } u = endStep s u := rfl

/-- A step that answers a state ended that state with `endStep`: as a plan, as an instruction, or as a unit's own action. -/
theorem step_next_endStep {s t : State} (h : step s = .next t) : ∃ u, t = endStep s u := by
  unfold step at h
  split at h
  case isFalse => nomatch h
  case isTrue =>
    split at h
    case h_1 => exact ⟨s.plan, (Host.Outcome.next.inj h).symm⟩
    case h_2 a r _ =>
      split at h
      case h_1 i _ =>
        obtain ⟨u, hu⟩ := exec_next_endStep i { s with agenda := r, focus := a.focus }
        rw [hu, endStep_with_agenda_focus] at h
        exact ⟨u, (Host.Outcome.next.inj h).symm⟩
      case h_2 =>
        exact ⟨State.actPlain { s with agenda := r } a, (Host.Outcome.next.inj h).symm⟩

/-- Ending a step restores the invariant, whatever the step did. -/
theorem inv_endStep {s : State} (hs : Inv s) (u : State) : Inv (endStep s u) := by
  obtain ⟨hmem, hlog, hfocus, -⟩ := endStep_wf (t := u) hs.mem
  exact ⟨hmem, hlog, hfocus⟩

/-- Settles O59: every answer of `step` is an `endStep`, which restores the invariant and puts back the fused map. -/
theorem invStep : Obligations.InvStep := by
  intro s t hs h
  obtain ⟨u, rfl⟩ := step_next_endStep h
  exact ⟨inv_endStep hs u, rfl⟩

end Sys2Proof.Machine

/-! ## Tables, lists of words and bytes, folds over the state -/

namespace Sys2Proof.Machine

section Tables

variable {α : Type}

theorem map_del_cons (k x : Nat) (v : α) (r : Map α) :
    Map.del ((k, v) :: r) x = if k = x then Map.del r x else (k, v) :: Map.del r x := by
  by_cases h : k = x <;> simp [Map.del, h]

theorem map_get_del (m : Map α) (x y : Nat) : (m.del x).get? y = if y = x then none else m.get? y := by
  induction m with
  | nil => simp [Map.del, Map.get?]
  | cons p r ih =>
    obtain ⟨k, v⟩ := p
    rw [map_del_cons]
    by_cases hk : k = x
    · rw [if_pos hk, ih]
      by_cases hy : y = x
      · simp [hy]
      · simp [Map.get?, hy, hk, Ne.symm hy]
    · rw [if_neg hk, Map.get?, Map.get?, ih]
      by_cases hy : k = y
      · simp [hy, hy ▸ hk]
      · simp [hy]

/-- A change of a table's values lists no new key. -/
theorem map_get_map_none {m : Map α} {f : Nat × α → Nat × α} (hf : ∀ p, (f p).1 = p.1) {x : Nat} (h : m.get? x = none) :
    Map.get? (m.map f) x = none := by
  induction m with
  | nil => rfl
  | cons p r ih =>
    obtain ⟨k, v⟩ := p
    by_cases hk : k = x
    · simp [Map.get?, hk] at h
    · have hr : Map.get? r x = none := by simpa [Map.get?, hk] using h
      rw [List.map_cons, Map.get?]
      simp [hf, hk, ih hr]

end Tables

section Folds

variable {α β : Type}

/-- What every step of a fold keeps, the fold keeps. -/
theorem foldl_keeps {γ : Type} (p : β → γ) {f : β → α → β} (h : ∀ b x, p (f b x) = p b) (l : List α) (b : β) :
    p (l.foldl f b) = p b :=
  List.foldlRecOn l f (motive := fun c => p c = p b) rfl fun c hc x _ => (h c x).trans hc

/-- A fold none of whose steps changes anything. -/
theorem foldl_unchanged {f : β → α → β} {b : β} : ∀ l : List α, (∀ x ∈ l, f b x = b) → l.foldl f b = b
  | [], _ => rfl
  | x :: r, h => by
    rw [List.foldl_cons, h x List.mem_cons_self]
    exact foldl_unchanged r fun y hy => h y (List.mem_cons_of_mem x hy)

/-- Steps that each write the context of a key and no other: what each leaves there, stands there in the end. -/
theorem foldl_ctx_at {key : α → Nat} {f : State → α → State} {P : Nat → Ctx → Prop}
    (hother : ∀ s x j, key x ≠ j → (f s x).ctx j = s.ctx j) : ∀ (l : List α) (s : State),
    (∀ s, ∀ x ∈ l, P (key x) ((f s x).ctx (key x))) → ∀ x ∈ l, P (key x) ((l.foldl f s).ctx (key x))
  | a :: r, s, hw, x, hx => by
    have hr := foldl_ctx_at (P := P) hother r (f s a) fun t y hy => hw t y (List.mem_cons_of_mem a hy)
    by_cases hk : ∃ y ∈ r, key y = key x
    · obtain ⟨y, hy, e⟩ := hk
      exact e ▸ hr y hy
    · have hxa : x = a := (List.mem_cons.mp hx).resolve_right fun h => hk ⟨x, h, rfl⟩
      subst hxa
      have hlast : (r.foldl f (f s x)).ctx (key x) = (f s x).ctx (key x) :=
        List.foldlRecOn r f (motive := fun t => t.ctx (key x) = (f s x).ctx (key x)) rfl
          fun t ht y hy => (hother t y _ fun e => hk ⟨y, hy, e⟩).trans ht
      rw [List.foldl_cons, hlast]
      exact hw s x hx

end Folds

section EndOfStep

variable (s u : State)

@[simp] theorem endStep_ctx (k : Nat) : (endStep s u).ctx k = u.ctx k := rfl
@[simp] theorem endStep_region (k : Nat) : (endStep s u).region k = u.region k := rfl
@[simp] theorem endStep_queueE (k : Nat) : (endStep s u).queueE k = u.queueE k := rfl
@[simp] theorem endStep_cfgEnt (t n : Nat) : (endStep s u).cfgEnt t n = u.cfgEnt t n := rfl
@[simp] theorem endStep_blks : (endStep s u).blks = u.blks := rfl
@[simp] theorem endStep_deps : (endStep s u).deps = u.deps := rfl
@[simp] theorem endStep_tasks : (endStep s u).tasks = u.tasks := rfl
@[simp] theorem endStep_agenda : (endStep s u).agenda = u.agenda := rfl
@[simp] theorem endStep_mem : (endStep s u).mem = Mem.flush s.mem u.log := rfl

end EndOfStep

section Contexts

variable (s : State) (k : Nat) (f : Ctx → Ctx)

@[simp] theorem updCtx_ctx_same : (s.updCtx k f).ctx k = f (s.ctx k) := (updCtx_ctx ..).trans (if_pos rfl)
theorem updCtx_ctx_other {j : Nat} (h : k ≠ j) : (s.updCtx k f).ctx j = s.ctx j := (updCtx_ctx ..).trans (if_neg h)

end Contexts

section Words

@[simp] theorem leBytes_length (n v : Nat) : (leBytes n v).length = n := by
  induction n generalizing v with
  | zero => rfl
  | succ n ih => simp [leBytes, ih]

theorem leNat_lt (l : List Byte) : leNat l < 256 ^ l.length := by
  induction l with
  | nil => simp [leNat]
  | cons b r ih =>
    have hb := b.isLt
    rw [leNat, List.length_cons, Nat.pow_succ]
    omega

/-- Bytes are those of their little-endian number (R4). -/
theorem leBytes_leNat (l : List Byte) : leBytes l.length (leNat l) = l := by
  induction l with
  | nil => rfl
  | cons b r ih =>
    have hb := b.isLt
    have hhead : BitVec.ofNat 8 (b.toNat + 256 * leNat r) = b := BitVec.eq_of_toNat_eq (by simp; omega)
    have htail : (b.toNat + 256 * leNat r) / 256 = leNat r := by omega
    rw [leNat, List.length_cons, leBytes, hhead, htail, ih]

/-- Eight bytes as a word, and back. -/
theorem leBytes_w64_leNat {l : List Byte} (h : l.length = 8) : leBytes 8 (w64 (leNat l)).toNat = l := by
  have hlt : leNat l < 2 ^ 64 := by simpa [h] using leNat_lt l
  have hw : (w64 (leNat l)).toNat = leNat l := by simpa [w64] using Nat.mod_eq_of_lt hlt
  rw [hw, ← h, leBytes_leNat]

/-- The words of bytes, eight at a time, written out again. -/
theorem wordBytes_of_bytes (n : Nat) (d : List Byte) (h : d.length = 8 * n) :
    wordBytes ((List.range n).map fun i => w64 (leNat ((d.drop (8 * i)).take 8))) = d := by
  induction n generalizing d with
  | zero => exact (List.eq_nil_of_length_eq_zero h).symm
  | succ n ih =>
    have htail : ((List.range n).map fun i => w64 (leNat ((d.drop (8 * (i + 1))).take 8))) =
        (List.range n).map fun i => w64 (leNat (((d.drop 8).drop (8 * i)).take 8)) := by
      simp [List.drop_drop, Nat.mul_add, Nat.add_comm]
    have hhead := leBytes_w64_leNat (l := d.take 8) (by simp; omega)
    have hrest := ih (d.drop 8) (by simp; omega)
    unfold wordBytes at hrest ⊢
    rw [List.range_succ_eq_map, List.map_cons, List.map_map, List.flatMap_cons]
    simp only [Nat.mul_zero, List.drop_zero, Function.comp_def, Nat.succ_eq_add_one, hhead, htail, hrest, List.take_append_drop]

theorem wrBytes_append (l r : List Byte) (s : State) (pa : Nat) :
    s.wrBytes pa (l ++ r) = (s.wrBytes pa l).wrBytes (pa + l.length) r := by
  induction l generalizing s pa with
  | nil => rfl
  | cons b l ih =>
    rw [List.cons_append, State.wrBytes, State.wrBytes, ih, List.length_cons, Nat.add_assoc, Nat.add_comm 1]

/-- Words written upward are their bytes written upward. -/
theorem wrWords_eq_wrBytes (l : List W64) (s : State) (pa : Nat) : s.wrWords pa l = s.wrBytes pa (wordBytes l) := by
  induction l generalizing s pa with
  | nil => rfl
  | cons w r ih =>
    have hb : wordBytes (w :: r) = leBytes 8 w.toNat ++ wordBytes r := rfl
    rw [State.wrWords, ih, hb, wrBytes_append, leBytes_length, State.wr]

theorem wr_log (s : State) (pa n v : Nat) : s.wr pa n v = { s with log := (s.wr pa n v).log } := wrBytes_log _ _ _

theorem wrWords_log (s : State) (pa : Nat) (l : List W64) : s.wrWords pa l = { s with log := (s.wrWords pa l).log } := by
  rw [wrWords_eq_wrBytes]
  exact wrBytes_log _ _ _

theorem wrBoth_log (s : State) (pa n v : Nat) : s.wrBoth pa n v = { s with log := (s.wrBoth pa n v).log } := by
  rw [State.wrBoth, wr_log, wr_log s]

@[simp] theorem w64_toNat (n : Nat) : (w64 n).toNat = n % 2 ^ 64 := by simp [w64]

/-- A word of a list after another is written. -/
theorem wAt_set_other (l : List W64) {i j : Nat} (v : W64) (h : i ≠ j) : wAt (l.set i v) j = wAt l j := by
  simp [wAt, List.getD_eq_getElem?_getD, List.getElem?_set_ne h]

theorem wAt_set_same {l : List W64} {i : Nat} (v : W64) (h : i < l.length) : wAt (l.set i v) i = v.toNat := by
  simp [wAt, List.getD_eq_getElem?_getD, h]

theorem getD_set_other (l : List W64) {i j : Nat} (v d : W64) (h : j ≠ i) : (l.set i v).getD j d = l.getD j d := by
  simp [List.getD_eq_getElem?_getD, List.getElem?_set_ne (Ne.symm h)]

end Words

end Sys2Proof.Machine

/-! ## A step runs the decoded instruction (O56) -/

namespace Sys2Proof.Machine

section StepRuns

variable {s : State} {a : Act} {l : List Act}

/-- A package without power stops (R284). -/
theorem step_unpowered (h : s.powered = false) : step s = .fault .powerOff := by
  simp [step, h]

/-- With nothing left the next cycle is planned (R42). -/
theorem step_plans (hp : s.powered = true) (ha : s.agenda = []) : step s = .next (endStep s s.plan) := by
  simp [step, hp, ha, run]

/-- An action that stands for an instruction runs it. -/
theorem step_runs_instr (hp : s.powered = true) (ha : s.agenda = a :: l) {i : Instr} (hi : s.actInstr a = some i) :
    step s = exec i { s with agenda := l, focus := a.focus } := by
  simp [step, hp, ha, hi]

/-- Any other action is a unit's own. -/
theorem step_runs_plain (hp : s.powered = true) (ha : s.agenda = a :: l) (hi : s.actInstr a = none) :
    step s = .next (endStep { s with agenda := l } (State.actPlain { s with agenda := l } a)) := by
  simp [step, hp, ha, hi, run]

end StepRuns

/-- Settles O56: `step` by the kind of the action at the head of the agenda. -/
theorem stepRunsDecoded : Obligations.StepRunsDecoded := by
  intro s a l
  refine ⟨fun i => ?_, step_unpowered, step_plans, fun hp ha => ⟨?_, ?_, ?_, ?_, ?_⟩⟩
  · obtain ⟨u, hu⟩ := exec_next_endStep i s
    exact ⟨_, hu⟩
  · rintro i x y z v d rfl
    exact step_runs_instr hp ha rfl
  · rintro t c k i rfl hd
    exact step_runs_instr hp ha (by simp [State.actInstr, hd, Except.toOption])
  · rintro t e k i rfl hd
    exact step_runs_instr hp ha hd
  · rintro t r rfl
    exact step_runs_plain hp ha rfl
  · rintro k rfl
    exact step_runs_plain hp ha rfl

end Sys2Proof.Machine

/-! ## Blocks (O46) -/

namespace Sys2Proof.Machine

section BlockEvents

variable {s : State} {t c y : Nat} {v : W64} {d : List Byte}

theorem exec_blockMap (hf : s.focus = .ev t c y v d) :
    exec .blockMap s = .next (endStep s (s.mapBlock (ctxKey t c))) := by
  change execBlockMap s = _
  simp only [execBlockMap, run, hf]

theorem exec_blockCommit (hf : s.focus = .ev t c y v d) : exec .blockCommit s =
    .next (endStep s (if y = 1 then s.commitCsrs (ctxKey t c) else s.commitTry (ctxKey t c))) := by
  change execBlockCommit s = _
  simp only [execBlockCommit, run, hf]

/-! ### Mapping -/

/-- A computation that comes to an answer came to one at its first part. -/
theorem effect_bind_ok {α β : Type} {x : M α} {f : α → M β} {s u : State} {b : β} (h : (x >>= f) s = .ok b u) :
    ∃ a t, x s = .ok a t ∧ f a t = .ok b u := by
  rw [effect_bind] at h
  cases hx : x s with
  | ok a t => exact ⟨a, t, rfl, by simpa only [hx] using h⟩
  | error g t => simp [hx] at h

/-- A computation that goes on did not meet the condition of its fault. -/
theorem effect_unless_ok {α β : Type} {c : Prop} [Decidable c] {g : Flt} {k : α → M β} {y : M β} {s u : State} {b : β}
    (h : (if c then raise g >>= k else y) s = .ok b u) : y s = .ok b u := by
  by_cases hc : c
  · simp [hc] at h
  · simpa [hc] using h

/-- The block that a fetch answers is the next one of its context, nothing of it begun, and the checks pass it (R287). -/
theorem fetchBlock_ok {key : Nat} {b : Blk} {u : State} (h : fetchBlock key s = .ok b u) :
    b.addr = (s.ctx key).next ∧ b.nodes = List.replicate b.words.length {} ∧ b.stores = [] ∧ b.writes = [] ∧
      b.exits = [] ∧ b.csrw = [] ∧ hdrFault b.hdr b.words = none ∧ bodyFault b.hdr b.words = none := by
  unfold fetchBlock at h
  obtain ⟨_, _, hs, h⟩ := effect_bind_ok h
  cases hs
  obtain ⟨hd, t1, -, h⟩ := effect_bind_ok (effect_unless_ok h)
  obtain ⟨body, t2, -, h⟩ := effect_bind_ok (effect_unless_ok h)
  cases hh : hdrFault hd body with
  | some f => simp [hh] at h
  | none =>
    cases hb : bodyFault hd body with
    | some f => simp [hh, hb] at h
    | none =>
      simp only [hh, hb, effect_pure] at h
      cases h
      exact ⟨rfl, rfl, rfl, rfl, rfl, rfl, hh, hb⟩

section Maps

variable {key : Nat} (hc : (s.ctx key).canMap = true) (hn : s.blks.get? key = none) (hp : s.inFlight (key / 16) < 8)

include hc hn hp

/-- A context that can take its next block, with a place for it on its tile (R33), takes the block that the fetch answers. -/
theorem mapBlock_of_ok {b : Blk} {u : State} (h : fetchBlock key s = .ok b u) :
    s.mapBlock key = { u with blks := u.blks.put key b } := by
  simp [State.mapBlock, hc, hn, hp, h]

theorem mapBlock_of_error {f : Flt} {u : State} (h : fetchBlock key s = .error f u) :
    s.mapBlock key = u.syncFault key f := by
  simp [State.mapBlock, hc, hn, hp, h]

end Maps

/-! ### Commit -/

@[simp] theorem count_ctx (s : State) (t ev k add : Nat) (c cls : Option Nat) : (s.count t ev c cls add).ctx k = s.ctx k := by
  rw [count_fields]
  rfl
@[simp] theorem count_ctxs (s : State) (t ev add : Nat) (c cls : Option Nat) : (s.count t ev c cls add).ctxs = s.ctxs := by
  rw [count_fields]
@[simp] theorem count_blks (s : State) (t ev add : Nat) (c cls : Option Nat) : (s.count t ev c cls add).blks = s.blks := by
  rw [count_fields]
@[simp] theorem count_mem (s : State) (t ev add : Nat) (c cls : Option Nat) : (s.count t ev c cls add).mem = s.mem := by
  rw [count_fields]
@[simp] theorem count_log (s : State) (t ev add : Nat) (c cls : Option Nat) : (s.count t ev c cls add).log = s.log := by
  rw [count_fields]

/-- A write that a block fired, of a register or of none (NULL). -/
def regWrite (g : Map W64) (w : Nat × Nat × Option W64) : Map W64 :=
  match w.2.2 with
  | some v => g.put w.2.1 v
  | none => g

/-- The registers after a block's writes, in the order in which they fired (R288). -/
def Blk.regsAfter (b : Blk) (g : Map W64) : Map W64 := b.writes.foldl regWrite g

theorem regWrite_other (g : Map W64) {w : Nat × Nat × Option W64} {r : Nat} (h : w.2.1 ≠ r) :
    (regWrite g w).getD 0 r = g.getD 0 r := by
  unfold regWrite
  split
  · rw [map_getD_put, if_neg h]
  · rfl

theorem regWrites_other {r : Nat} : ∀ (l : List (Nat × Nat × Option W64)) (g : Map W64), (∀ w ∈ l, w.2.1 ≠ r) →
    (l.foldl regWrite g).getD 0 r = g.getD 0 r
  | [], _, _ => rfl
  | w :: l, g, h => by
    rw [List.foldl_cons, regWrites_other l _ fun o ho => h o (List.mem_cons_of_mem w ho),
      regWrite_other g (h w List.mem_cons_self)]

/-- A register that no write names keeps its value. -/
theorem regsAfter_other {b : Blk} {r : Nat} (g : Map W64) (h : ∀ w ∈ b.writes, w.2.1 ≠ r) :
    (b.regsAfter g).getD 0 r = g.getD 0 r := regWrites_other b.writes g h

/-- A register holds what the last write of it gave. -/
theorem regsAfter_last {b : Blk} {p q : List (Nat × Nat × Option W64)} {i r : Nat} {w : W64} (g : Map W64)
    (hb : b.writes = p ++ (i, r, some w) :: q) (h : ∀ o ∈ q, o.2.1 ≠ r) : (b.regsAfter g).getD 0 r = w := by
  rw [Blk.regsAfter, hb, List.foldl_append, List.foldl_cons, regWrites_other q _ h]
  exact (map_getD_put ..).trans (if_pos rfl)

/-- A block without CSR writes changes nothing by them. -/
theorem csrCommit_nil (s : State) (key : Nat) : s.csrCommit key [] = s := by
  have ha : afterCommits [] s.agenda = s.agenda := by
    unfold afterCommits
    split
    · simp
    · rfl
  simp only [State.csrCommit, List.foldl_nil, List.reverse_nil, ha]

theorem rolesCheck_nil (s : State) (key : Nat) : s.rolesCheck key [] = none := rfl
theorem rolesWait_nil (s : State) (key : Nat) : s.rolesWait key [] = false := rfl

/-- What a committed block leaves in its context, whatever its exit: its writes, its stores, an empty irrevocable buffer
(R288). -/
structure Committed (s u : State) (key : Nat) (b : Blk) : Prop where
  irv : (u.ctx key).irv = List.replicate 8 none
  sq : (u.ctx key).sq = (s.ctx key).sq ++ (sortBy StEnt.idx b.stores).map (fun e => { e with at_ := s.cycle })
  regs : (u.ctx key).g = b.regsAfter (s.ctx key).g
  others : ∀ k, k ≠ key → u.ctx k = s.ctx k
  mem : u.mem = s.mem
  log : u.log = s.log

/-- An update of the context that leaves those registers keeps this. -/
theorem Committed.updCtx {u : State} {key : Nat} {b : Blk} (h : Committed s u key b) (f : Ctx → Ctx)
    (hf : ∀ c, (f c).irv = c.irv ∧ (f c).sq = c.sq ∧ (f c).g = c.g) : Committed s (u.updCtx key f) key b := by
  obtain ⟨hirv, hsq, hregs⟩ := hf (u.ctx key)
  have hctx : (u.updCtx key f).ctx key = f (u.ctx key) := (updCtx_ctx ..).trans (if_pos rfl)
  exact ⟨by rw [hctx, hirv, h.irv], by rw [hctx, hsq, h.sq], by rw [hctx, hregs, h.regs],
    fun k hk => by rw [updCtx_ctx, if_neg (Ne.symm hk), h.others k hk], h.mem, h.log⟩

/-- So does what changes neither contexts nor memory. -/
theorem Committed.of_same {u w : State} {key : Nat} {b : Blk} (h : Committed s u key b) (hc : w.ctxs = u.ctxs)
    (hm : w.mem = u.mem) (hl : w.log = u.log) : Committed s w key b := by
  have hctx : ∀ k, w.ctx k = u.ctx k := fun k => by rw [State.ctx, State.ctx, hc]
  exact ⟨by rw [hctx, h.irv], by rw [hctx, h.sq], by rw [hctx, h.regs], fun k hk => by rw [hctx, h.others k hk],
    hm.trans h.mem, hl.trans h.log⟩

/-- The commit of a block with one plain exit, no CSR write and no FENCE to complete (R288): the block is gone, and its
target is next. -/
structure CommitsTo (s u : State) (key : Nat) (b : Blk) (target : W64) : Prop where
  leaves : Committed s u key b
  blks : u.blks = s.blks.del key
  next : (u.ctx key).next = target

theorem commitBlock_plain {key j i : Nat} {b : Blk} {tg a : W64} (hx : b.exits = [(j, i, .plain, tg, a)])
    (hw : b.csrw = []) (hf : b.fencePending = none) : CommitsTo s (s.commitBlock key b) key b tg := by
  unfold State.commitBlock
  extract_lets csr t sp overdue s1 s2 s3 s4 s5 s6
  have hcsr : csr = [] := by simp only [csr, hw]; rfl
  have h1 : Committed s s1 key b :=
    ⟨by simp [s1], by simp [s1], by simp only [s1, updCtx_ctx, if_pos]; rfl,
      fun k hk => by simp [s1, updCtx_ctx, Ne.symm hk], rfl, rfl⟩
  have h2 : s2 = s1 := by simp only [s2, hcsr, csrCommit_nil]
  have h4 : s4 = s3 := by simp only [s4, hf]
  have h5 : Committed s s5 key b := (h2 ▸ h1).of_same (by simp [s5, h4, s3]) (by simp [s5, h4, s3]) (by simp [s5, h4, s3])
  have hb5 : s5.blks = s.blks.del key := by simp [s5, h4, s3, h2, s1, State.updCtx]
  have h6 : Committed s s6 key b ∧ s6.blks = s.blks.del key := by
    unfold s6
    split
    · exact ⟨h5.updCtx _ fun c => by split <;> exact ⟨rfl, rfl, rfl⟩, hb5⟩
    · exact ⟨h5, hb5⟩
  clear_value s6 csr
  subst hcsr
  let s7 := s6.updCtx key (fun c => { c with next := tg })
  have h7 : CommitsTo s s7 key b tg := ⟨h6.1.updCtx _ fun _ => ⟨rfl, rfl, rfl⟩, h6.2, by simp [s7]⟩
  rw [rolesCheck_nil, rolesWait_nil, hx]
  change CommitsTo s (if overdue && true then { s7 with
    agenda := Act.event .safepointOverdue t (key % 16) 0 0 [] :: s7.agenda } else s7) key b tg
  clear_value s7
  split
  · exact ⟨h7.leaves.of_same rfl rfl rfl, h7.blks, h7.next⟩
  · exact h7

section Ends

variable {key : Nat} {b : Blk} (hb : s.blks.get? key = some b) (hs : (s.ctx key).sync = none)
  (ha : (s.ctx key).async = []) (hk : (s.ctx key).kill = false) (hq : s.quiescent key b = true)

include hs ha hq in
/-- A quiescent block without a pending fault ends (log 11). -/
theorem blockEnds_of_quiescent : s.blockEnds key b = true := by
  simp [State.blockEnds, Ctx.asyncDue, hs, ha, hq]

include hb hs ha hk hq

theorem commitCsrs_of_ready (hr : b.ready = true) (hc : s.rolesCheck key (sortBy Prod.fst b.csrw) = none)
    (hw : s.rolesWait key (sortBy Prod.fst b.csrw) = false) : s.commitCsrs key =
      (s.csrCommit key (sortBy Prod.fst b.csrw)).updBlk key (fun b => { b with csrw := [] }) := by
  simp [State.commitCsrs, hb, blockEnds_of_quiescent hs ha hq, hr, hk, hc, hw]

theorem commitTry_of_ready (hr : b.ready = true) : s.commitTry key = s.commitBlock key b := by
  simp [State.commitTry, hb, blockEnds_of_quiescent hs ha hq, hr, hk]

theorem commitTry_of_not_ready (hr : b.ready = false) : s.commitTry key = s.syncFault key b.lateFault := by
  simp [State.commitTry, hb, blockEnds_of_quiescent hs ha hq, hr, hk]

end Ends

theorem lateFault_of_no_conflict {b : Blk} (h : b.conflicts = []) : b.lateFault = { code := .noExit, late := true } := by
  simp [Blk.lateFault, h]

/-- Of two commit checks, the one of the lower instruction (log 85). -/
theorem lateFault_of_conflicts {b : Blk} {f : Flt} (h : b.conflicts = [f] ∨ ∃ g,
    (b.conflicts = [f, g] ∧ ¬ g.idx.getD 0 < f.idx.getD 0) ∨ (b.conflicts = [g, f] ∧ f.idx.getD 0 < g.idx.getD 0)) :
    b.lateFault = f := by
  obtain h | ⟨g, ⟨h, hlt⟩ | ⟨h, hlt⟩⟩ := h
  · simp [Blk.lateFault, h]
  · simp [Blk.lateFault, h, hlt]
  · simp [Blk.lateFault, h, hlt]

/-! ### Safe points, the fault queue, and what ends a wait -/

theorem exec_safepointOverdue (hf : s.focus = .ev t c y v d) (hd : (s.ctx (ctxKey t c)).spdist = 4096)
    (hc : (s.ctx (ctxKey t c)).st ≠ .free) (hb : s.blks.get? (ctxKey t c) = none) : exec .safepointOverdue s =
      .next (endStep s (s.syncFault (ctxKey t c) { code := .safepointOverdue, extra := 4096 })) := by
  change execSafepointOverdue s = _
  simp [execSafepointOverdue, run, hf, hd, hc, hb]

/-- A record finds no room when 1,023 stand in its partition's queue (R200). -/
theorem fqAppend_full (s : State) (part : Nat) (ws : List W64) : (s.fqAppend part ws).1 = false ↔
    s.partW part 4 ≠ 0 ∧ 1023 ≤ (s.rd (s.partW part 4) 8 + 2 ^ 64 - s.rd (s.partW part 4 + 8) 8) % 2 ^ 64 := by
  unfold State.fqAppend
  dsimp only
  split
  case isTrue h0 => simp [h0]
  case isFalse h0 =>
    split
    case isTrue hr => exact iff_of_false Bool.noConfusion fun h => absurd hr (Nat.not_lt.mpr h.2)
    case isFalse hr => exact iff_of_true rfl ⟨h0, Nat.not_lt.mp hr⟩

theorem fqAppend_log (s : State) (part : Nat) (ws : List W64) :
    (s.fqAppend part ws).2 = { s with log := (s.fqAppend part ws).2.log } := by
  unfold State.fqAppend
  dsimp only
  split
  · rfl
  · split
    · rw [wr_log, wrWords_log]
    · rfl

@[simp] theorem fqAppend_ctx (s : State) (part k : Nat) (ws : List W64) : (s.fqAppend part ws).2.ctx k = s.ctx k := by
  rw [fqAppend_log]
  rfl

@[simp] theorem fqSaved_ctx (s : State) (k : Nat) : s.fqSaved.ctx k = s.ctx k := by
  refine foldl_keeps (fun u : State => u.ctx k) (fun u w => ?_) s.fqWait s
  dsimp only
  split
  · exact fqAppend_ctx u w.1 k w.2
  · rfl

/-- The copy of a held context's record that waits is tried again (R200). -/
theorem exec_faultQueueRetry (hf : s.focus = .ev t c y v d) (hh : (s.ctx (ctxKey t c)).st = .held)
    (hq : (s.ctx (ctxKey t c)).fqPend = true) : ∃ ws, exec .faultQueueRetry s = .next (endStep s
      (((s.fqAppend (s.ctx (ctxKey t c)).part ws).2.updCtx (ctxKey t c) fun x =>
        { x with fqPend := !(s.fqAppend (s.ctx (ctxKey t c)).part ws).1 }).fqSaved)) := by
  refine ⟨s.rdWords (framePa (ctxKey t c) + (if (s.ctx (ctxKey t c)).inh then 0xC0 else 0)) 8, ?_⟩
  change execFaultQueueRetry s = _
  simp only [execFaultQueueRetry, run, hf, hh, hq, decide_true, Bool.and_self, if_true]

theorem exec_yieldWindowEnd (hf : s.focus = .ev t c y v d) {w : W64} (hy : (s.ctx (ctxKey t c)).yieldTill = some w)
    (ho : 64 < (w - s.cycle).toNat) : exec .yieldWindowEnd s =
      .next (endStep s (s.updCtx (ctxKey t c) fun c => { c with yieldTill := none })) := by
  have hover : s.yielding (ctxKey t c) = false := by simpa [State.yielding, hy] using ho
  change execYieldWindowEnd s = _
  simp [execYieldWindowEnd, run, evCtx, hf, hy, hover]

theorem exec_waitevTimeout (hf : s.focus = .ev t c y v d) {w : Wait} (hw : s.waits.find? (fun w => w.key = ctxKey t c &&
    (match w.k with
      | .waitev (some till) => s.timedOut till
      | _ => false)) = some w) : exec .waitevTimeout s = .next (endStep s
    (({ s with waits := s.waits.filter (fun x => !(x.key = w.key && x.idx = w.idx)) } : State).finish (ctxKey t c) w.idx
      (s.events t))) := by
  change execWaitevTimeout s = _
  simp only [execWaitevTimeout, run, hf]
  split
  next w' hw' =>
    cases Option.some.inj (hw'.symm.trans hw)
    rfl
  next hn => cases hn.symm.trans hw

end BlockEvents

/-- Settles O46, an event at a time. -/
theorem blockEvents : Obligations.BlockEvents := by
  intro s t0 c y v d hf
  refine ⟨fun hc hn hp => ⟨fun b u hb => ?_, fun f u hb => ?_⟩, fun b hb hs ha hk hq => ⟨?_, ?_, ?_⟩, ?_, ?_, ?_, ?_⟩
  · refine ⟨_, exec_blockMap hf, ?_, fetchBlock_ok hb⟩
    rw [mapBlock_of_ok hc hn hp hb]
    exact (map_get_put ..).trans (if_pos rfl)
  · refine ⟨_, exec_blockMap hf, ?_⟩
    rw [mapBlock_of_error hc hn hp hb]
  · intro hy hr hc hw
    refine ⟨_, exec_blockCommit hf, ?_⟩
    rw [if_pos hy, commitCsrs_of_ready hb hs ha hk hq hr hc hw]
  · intro hy hr j i tg a hx hw hfp
    refine ⟨_, exec_blockCommit hf, ?_⟩
    rw [if_neg hy, commitTry_of_ready hb hs ha hk hq hr]
    obtain ⟨⟨hirv, hsq, hregs, hothers, hmem, hlog⟩, hblks, hnext⟩ := commitBlock_plain (s := s) hx hw hfp
    refine ⟨?_, hnext, hirv, hsq, fun r h => ?_, fun p q i r w hpq h => ?_, hothers, ?_⟩
    · exact (congrArg (Map.get? · _) hblks).trans ((map_get_del ..).trans (if_pos rfl))
    · exact (congrArg (Map.getD 0 · r) hregs).trans (regsAfter_other _ h)
    · exact (congrArg (Map.getD 0 · r) hregs).trans (regsAfter_last _ hpq h)
    · exact congrArg (Mem.flush s.mem) hlog
  · intro hy hr
    refine ⟨_, exec_blockCommit hf, ?_⟩
    rw [if_neg hy, commitTry_of_not_ready hb hs ha hk hq hr]
    exact ⟨fun h => by rw [lateFault_of_no_conflict h], fun f h => by rw [lateFault_of_conflicts h]⟩
  · intro hd hst hb
    exact ⟨_, exec_safepointOverdue hf hd hst hb, rfl⟩
  · intro hh hp
    obtain ⟨ws, he⟩ := exec_faultQueueRetry hf hh hp
    refine ⟨_, he, ?_, ?_⟩
    · simp [hh]
    · rw [← fqAppend_full s _ ws]
      simp
  · intro w hy ho
    refine ⟨_, exec_yieldWindowEnd hf hy ho, ?_, fun k hk => ?_, rfl⟩
    · rw [endStep_ctx, updCtx_ctx_same]
    · rw [endStep_ctx, updCtx_ctx_other _ _ _ (Ne.symm hk)]
  · intro w hw
    exact ⟨_, exec_waitevTimeout hf hw, rfl⟩

end Sys2Proof.Machine

/-! ## Launches (O44) -/

namespace Sys2Proof.Machine

/-! ### Work queues -/

theorem endMark_log (s : State) (n num : Nat) (v : Bool) :
    s.endMark n num v = { s with log := (s.endMark n num v).log } := by
  unfold State.endMark
  dsimp only
  split
  · rfl
  · rw [wrBoth_log]

/-- The storage of an accepted record and its copy in the journal: what a submission writes (R195, R277). -/
def State.recordWritten (s : State) (n : Nat) (rcd : List W64) : State :=
  let q := s.queueE n
  let num := (wAt q 2 + 1) % 2 ^ 64
  let s := s.wrWords (qSlot q num) rcd
  if qJrn q then (s.wrWords ((qSlot q num + s.jdelta) % 2 ^ 64) rcd).endMark n num false else s

theorem recordWritten_log (s : State) (n : Nat) (rcd : List W64) :
    s.recordWritten n rcd = { s with log := (s.recordWritten n rcd).log } := by
  unfold State.recordWritten
  dsimp only
  split
  · rw [endMark_log, wrWords_log, wrWords_log s]
  · rw [wrWords_log]

/-- An accepted record is written, and TAILSEQ counts it. -/
theorem qAccept_state (s : State) (n : Nat) (rcd : List W64) : (s.qAccept n rcd).2 =
    (s.recordWritten n rcd).setQueue n ((s.queueE n).set 2 (w64 ((wAt (s.queueE n) 2 + 1) % 2 ^ 64))) := rfl

theorem qAccept_queueE (s : State) (n m : Nat) (rcd : List W64) : (s.qAccept n rcd).2.queueE m =
    if n = m then (s.queueE n).set 2 (w64 ((wAt (s.queueE n) 2 + 1) % 2 ^ 64)) else s.queueE m := by
  rw [qAccept_state, setQueue_queueE, recordWritten_log]
  rfl

/-- The bytes that memory holds after a record was accepted that no journal keeps. -/
theorem qAccept_written {s : State} {n : Nat} (hj : qJrn (s.queueE n) = false) (rcd : List W64) (x : Nat) :
    Mem.get (endStep s (s.qAccept n rcd).2).mem x =
      (s.wrBytes (qSlot (s.queueE n) ((wAt (s.queueE n) 2 + 1) % 2 ^ 64)) (wordBytes rcd)).byte x := by
  have hw : s.recordWritten n rcd = s.wrBytes (qSlot (s.queueE n) ((wAt (s.queueE n) 2 + 1) % 2 ^ 64)) (wordBytes rcd) := by
    simp [State.recordWritten, hj, wrWords_eq_wrBytes]
  have hm : (s.recordWritten n rcd).mem = s.mem := by rw [recordWritten_log]
  rw [endStep_mem, qAccept_state, setQueue_log, ← hw, ← hm, byte_flush]

/-- A queue that a refused write touches counts it (R196). -/
def State.qRefuse (s : State) (m : Nat) : State := s.setQueue m ((s.queueE m).set 5 (w64 (wAt (s.queueE m) 5 + 1)))

theorem qRefuse_queueE (s : State) (n m : Nat) : (s.qRefuse n).queueE m =
    if n = m then (s.queueE n).set 5 (w64 (wAt (s.queueE n) 5 + 1)) else s.queueE m := setQueue_queueE ..

theorem qRefuse_fold_queueE (m : Nat) : ∀ (l : List Nat) (s : State), l.Nodup → (l.foldl State.qRefuse s).queueE m =
    if m ∈ l then (s.queueE m).set 5 (w64 (wAt (s.queueE m) 5 + 1)) else s.queueE m
  | [], _, _ => by simp
  | n :: l, s, hl => by
    obtain ⟨hn, hl⟩ := List.nodup_cons.mp hl
    rw [List.foldl_cons, qRefuse_fold_queueE m l _ hl, qRefuse_queueE]
    by_cases e : n = m
    · subst e
      simp [hn]
    · simp [e, Ne.symm e]

theorem qRefuse_fold_log (l : List Nat) (s : State) : (l.foldl State.qRefuse s).log = s.log :=
  foldl_keeps (f := State.qRefuse) State.log (fun _ _ => rfl) l s

section Submission

variable {s : State} {x y z : Nat} {v : W64} {d : List Byte}

theorem exec_hostSubmission_accepts (hf : s.focus = .ev x y z v d) (hl : d.length = 128) (hx : x % 128 = 0)
    (ho : qOpen (s.queueE (x / 128 % 8192)) true = true) : exec .hostSubmission s =
      .next (endStep s (s.qAccept (x / 128 % 8192) ((List.range 16).map fun i => w64 (leNat ((d.drop (8 * i)).take 8)))).2) := by
  change execHostSubmission s = _
  simp only [execHostSubmission, run, hf, hl, hx, ho, decide_true, Bool.and_self, if_true]

/-- The queues that a write of `n` bytes from an offset touches, the table's 2^20 bytes long (R268). -/
def queuesOver (x n : Nat) : List Nat := List.range' (x / 128) ((x % 128 + n + 127) / 128)

theorem queuesOver_nodup (x n : Nat) : (queuesOver x n).Nodup := List.nodup_range'

theorem mem_queuesOver {x n m : Nat} : m ∈ queuesOver x n ↔ 128 * m < x + n ∧ x < 128 * m + 128 := by
  rw [queuesOver, List.mem_range'_1]
  omega

theorem exec_hostSubmission_refuses (hf : s.focus = .ev x y z v d)
    (hr : ¬(d.length = 128 ∧ x % 128 = 0 ∧ qOpen (s.queueE (x / 128 % 8192)) true = true)) (hx : x < 2 ^ 20)
    (hn : x + max 1 d.length ≤ 2 ^ 20) : exec .hostSubmission s =
      .next (endStep s ((queuesOver x (max 1 d.length)).foldl State.qRefuse s)) := by
  have hc : (decide (d.length = 128) && decide (x % 128 = 0) && qOpen (s.queueE (x / 128 % 8192)) true) = false := by
    simpa [Bool.and_eq_true, and_assoc] using hr
  have hl : (List.range ((x % 128 + max 1 d.length + 127) / 128)).map (fun i => (x / 128 % 8192 + i) % 8192) =
      queuesOver x (max 1 d.length) := by
    rw [queuesOver, List.range'_eq_map_range]
    refine List.map_congr_left fun i hi => ?_
    have hi := List.mem_range.mp hi
    omega
  change execHostSubmission s = _
  simp only [execHostSubmission, run, hf, hc, Bool.false_eq_true, if_false, ← hl, List.foldl_map]
  rfl

end Submission

/-! ### The dispatcher -/

/-- RETSEQ moves in its own queue's entry. -/
theorem retPass_wq (n : Nat) : ∀ (k : Nat) (s : State), s.retPass n k = { s with wq := (s.retPass n k).wq }
  | 0, _ => rfl
  | k + 1, s => by
    unfold State.retPass
    dsimp only
    split
    · rfl
    · rw [retPass_wq n k]
      rfl

theorem retPass_word {j : Nat} (hj : j ≠ 4) (n m : Nat) : ∀ (k : Nat) (s : State),
    wAt ((s.retPass n k).queueE m) j = wAt (s.queueE m) j
  | 0, _ => rfl
  | k + 1, s => by
    unfold State.retPass
    dsimp only
    split
    · rfl
    · rw [retPass_word hj n m k, setQueue_queueE]
      split
      next e =>
        subst e
        exact wAt_set_other _ _ (Ne.symm hj)
      · rfl

/-- The head of a queue moved past a record that is taken: the record, its queue's rights and its checks read as before. -/
def State.headMoved (s : State) (level n num : Nat) : State :=
  (s.setQueue n ((s.queueE n).set 3 (w64 num))).turnTaken level n

section HeadMoved

variable (s : State) (level n num : Nat)

theorem headMoved_queueE : (s.headMoved level n num).queueE n = (s.queueE n).set 3 (w64 num) := setQueue_queueE_same ..

theorem headMoved_deps : (s.headMoved level n num).deps = s.deps := rfl

theorem wAt_headMoved {j : Nat} (hj : j ≠ 3) : wAt ((s.headMoved level n num).queueE n) j = wAt (s.queueE n) j := by
  rw [headMoved_queueE, wAt_set_other _ _ (Ne.symm hj)]

theorem headMoved_qJrn : qJrn ((s.headMoved level n num).queueE n) = qJrn (s.queueE n) := by
  simp only [qJrn, wAt_headMoved s level n num (show 0 ≠ 3 by decide)]

theorem headMoved_qRecord (k : Nat) : (s.headMoved level n num).qRecord n k = s.qRecord n k := by
  have hs : qSlot ((s.headMoved level n num).queueE n) k = qSlot (s.queueE n) k := by
    simp only [qSlot, qScap, wAt_headMoved s level n num (show 0 ≠ 3 by decide), wAt_headMoved s level n num (show 1 ≠ 3 by decide)]
  simp only [State.qRecord, headMoved_qJrn, hs]
  rfl

theorem headMoved_ended (k : Nat) : (s.headMoved level n num).ended n k = s.ended n k := by
  simp only [State.ended, qScap, wAt_headMoved s level n num (show 0 ≠ 3 by decide)]
  rfl

theorem headMoved_rcdOk (r : List W64) :
    (s.headMoved level n num).rcdOk ((s.headMoved level n num).queueE n) r = s.rcdOk (s.queueE n) r := by
  simp only [State.rcdOk, qPart, qSupq, wAt_headMoved s level n num (show 0 ≠ 3 by decide)]
  rfl

end HeadMoved

/-- Bits below a power are those of the residue. -/
theorem bitsOf_mod_pow {w p lo n : Nat} (h : lo + n ≤ p) : bitsOf (w % 2 ^ p) lo n = bitsOf w lo n := by
  have hp : 2 ^ p = 2 ^ lo * 2 ^ (p - lo) := by rw [← Nat.pow_add, Nat.add_sub_of_le (by omega)]
  rw [bitsOf, bitsOf, hp, Nat.mod_mul_right_div_self, Nat.mod_mod_of_dvd _ (Nat.pow_dvd_pow 2 (by omega))]

theorem setBits_mod (w lo n v : Nat) : setBits w lo n v % 2 ^ lo = w % 2 ^ lo := by
  have hle : bitsOf w lo n ≤ w / 2 ^ lo := Nat.mod_le _ _
  have hsum : setBits w lo n v = w % 2 ^ lo + 2 ^ lo * (w / 2 ^ lo - bitsOf w lo n + v % 2 ^ n) := by
    have hw := Nat.mod_add_div w (2 ^ lo)
    have hmul := Nat.mul_le_mul_left (2 ^ lo) hle
    rw [setBits, Nat.mul_add, Nat.mul_sub, Nat.mul_comm (bitsOf w lo n), Nat.mul_comm (v % 2 ^ n)]
    omega
  rw [hsum, Nat.add_mul_mod_self_left, Nat.mod_mod]

/-- Lower bits than those replaced stay. -/
theorem bitsOf_setBits_below {w lo n v lo' n' : Nat} (h : lo' + n' ≤ lo) :
    bitsOf (setBits w lo n v) lo' n' = bitsOf w lo' n' := by
  rw [← bitsOf_mod_pow h, setBits_mod, bitsOf_mod_pow h]

/-- Two entries of one launch: the same record, taken from the same queue under the same number. -/
structure SameLaunch (e d : Dep) : Prop where
  rcd : e.rcd = d.rcd
  recno : e.recno = d.recno
  qnum : e.qnum = d.qnum
  tag : e.tag = d.tag

/-- The fields of word 0 above QNUM say nothing of the record. -/
theorem SameLaunch.fld_zero {d : Dep} (hd : 0 < d.w.length) {lo : Nat} (h : 45 ≤ lo) (n v : Nat) :
    SameLaunch (d.fld 0 lo n v) d where
  rcd := rfl
  recno := wAt_set_other _ _ (by decide)
  qnum := by
    rw [Dep.qnum, Dep.fld, setField, wAt_set_same _ hd, w64_toNat, bitsOf_mod_pow (by decide), bitsOf_setBits_below h]
    rfl
  tag := getD_set_other _ _ _ (by decide)

/-- What a warm reset has kept changes nothing of the record (R280). -/
theorem carry_sameLaunch (old : List Dep) {d : Dep} (hd : 0 < d.w.length) : SameLaunch (carry old d).1 d := by
  have hw : 0 < (d.fld 0 56 1 1).w.length := by simpa [Dep.fld, setField] using hd
  unfold carry
  split
  · exact ⟨rfl, rfl, rfl, rfl⟩
  · dsimp only
    split
    · have h1 := SameLaunch.fld_zero hw (show 45 ≤ 60 by decide) 3 0
      have h2 := SameLaunch.fld_zero hd (show 45 ≤ 56 by decide) 1 1
      exact ⟨h1.rcd.trans h2.rcd, h1.recno.trans h2.recno, h1.qnum.trans h2.qnum, h1.tag.trans h2.tag⟩
    · split <;> exact ⟨rfl, rfl, rfl, rfl⟩

/-- QNUM of an entry's first word (R243). -/
theorem depWord_qnum (r p t q : Nat) : bitsOf ((2 ^ 63 + r * 2 ^ 60 + p * 2 ^ 57 + t * 2 ^ 53 + q * 2 ^ 32) % 2 ^ 64) 32 13 = q % 8192 := by
  rw [bitsOf_mod_pow (by decide), bitsOf]
  omega

/-- A record is entered at the lowest free index. -/
theorem depEnter_entry {s : State} {i : Nat} (hi : s.deps.fresh 0 4096 = some i) (qn recno : Nat) (r : List W64) :
    ∃ e c, s.depEnter qn recno r = ({ s with carried := c } : State).setDep i e ∧ e.rcd = r ∧ e.recno = recno % 2 ^ 64 ∧
      e.qnum = qn % 8192 ∧ e.tag = rcdTag r := by
  unfold State.depEnter
  rw [hi]
  dsimp only
  refine ⟨_, _, rfl, ?_⟩
  refine (fun h => ⟨h.rcd, h.recno.trans ?_, h.qnum.trans ?_, h.tag⟩) (carry_sameLaunch s.carried ?_)
  · exact Nat.succ_pos 7
  · exact w64_toNat recno
  · exact (congrArg (bitsOf · 32 13) (w64_toNat _)).trans (depWord_qnum ..)

/-- A record whose checks pass is entered (R15, R40). -/
theorem takeRecord_enters {s : State} {n num : Nat}
    (hend : qJrn (s.queueE n) = true → s.ended n num = false)
    (hok : s.rcdOk (s.queueE n) (s.qRecord n num) = true)
    (hnew : s.deps.any (fun p => p.2.tag = rcdTag (s.qRecord n num)) = false) :
    s.takeRecord n num = s.depEnter n num (s.qRecord n num) := by
  have he : (qJrn (s.queueE n) && s.ended n num) = false := by
    cases hj : qJrn (s.queueE n)
    · rfl
    · exact hend hj
  simp [State.takeRecord, he, hok, hnew]

/-- The record that leaves its queue is entered, when its checks pass and its launch has not ended already. -/
theorem headMoved_takeRecord {s : State} {level n num : Nat}
    (hend : qJrn (s.queueE n) = true → s.ended n num = false)
    (hok : s.rcdOk (s.queueE n) (s.qRecord n num) = true)
    (hnew : s.deps.any (fun p => p.2.tag = rcdTag (s.qRecord n num)) = false) :
    (s.headMoved level n num).takeRecord n num = (s.headMoved level n num).depEnter n num (s.qRecord n num) := by
  rw [takeRecord_enters, headMoved_qRecord]
  · rw [headMoved_qJrn, headMoved_ended]
    exact hend
  · rw [headMoved_qRecord, headMoved_rcdOk]
    exact hok
  · rw [headMoved_qRecord, headMoved_deps]
    exact hnew

section Take

variable {s : State} {x y z : Nat} {v : W64} {d : List Byte}

theorem exec_dispatcherTake {l n i : Nat} (hl : s.level ≠ 0) (hi : s.deps.fresh 0 4096 = some i)
    (ht : s.nextTurn = some (l, n)) : exec .dispatcherTake s = .next (endStep s
      (((s.headMoved l n ((wAt (s.queueE n) 3 + 1) % 2 ^ 64)).takeRecord n ((wAt (s.queueE n) 3 + 1) % 2 ^ 64)).retAdvance n)) := by
  change execDispatcherTake s = _
  simp only [execDispatcherTake, run, hl, hi, ht, decide_false, Option.isNone_some, Bool.or_self, Bool.false_eq_true, if_false]
  rfl

theorem exec_launchEnd (hf : s.focus = .ev x y z v d) {e : Dep} (he : s.deps.get? x = some e) :
    (e.st = 1 → e.ending = none → e.retired = e.tasks →
      exec .launchEnd s = .next (endStep s (s.endLaunch x e 0))) ∧
    (∀ st, e.ending = some st → s.tasks.any (fun p => p.2.dep = x) = false →
      exec .launchEnd s = .next (endStep s (s.endLaunch x e st))) := by
  refine ⟨fun hst hen hre => ?_, fun st hen hno => ?_⟩
  · change execLaunchEnd s = _
    simp [execLaunchEnd, run, hf, he, hst, hen, hre]
  · change execLaunchEnd s = _
    simp only [execLaunchEnd, run, hf, he, hen, hno]
    simp

theorem exec_dependentCancel (hf : s.focus = .ev x y z v d) {e : Dep} (he : s.deps.get? x = some e) (hc : e.canc = true)
    (hst : e.st = 0) : exec .dependentCancel s = .next (endStep s (s.endLaunch x e 3)) := by
  change execDependentCancel s = _
  simp [execDependentCancel, run, hf, he, hc, hst]

end Take

/-- A launch that has ended is gone from the dependence table (R244). -/
theorem endLaunch_deps (s : State) (i : Nat) (e : Dep) (st : Nat) : (s.endLaunch i e st).deps.get? i = none := by
  unfold State.endLaunch
  extract_lets s1 s2
  rw [State.retAdvance, retPass_wq]
  refine map_get_map_none (fun p => ?_) ((map_get_del ..).trans (if_pos rfl))
  dsimp only
  split <;> rfl


/-- A launch with a task that still waits unbound ages (R43). -/
theorem exec_taskAging {s : State} {x y z : Nat} {v : W64} {d : List Byte} (hf : s.focus = .ev x y z v d) {e : Dep}
    (he : s.deps.get? x = some e) (hst : e.st = 1) (hw : e.started.length < e.tasks) :
    ∃ u, exec .taskAging s = .next (endStep s u) ∧ u.log = s.log ∧
      u.deps = s.deps.put x { e with aged := min 7 ((s.age e.since) / 65536) } := by
  refine ⟨_, rfl, ?_, ?_⟩
  · simp only [hf, State.updDep, he]
    rfl
  · simp [hf, State.updDep, he, hst, hw, State.setDep]

/-- Settles O44, an event at a time. -/
theorem launchEvents : Obligations.LaunchEvents := by
  intro s x y z v d hf
  refine ⟨fun hlen => ⟨fun hl hx ho => ?_, fun hr hlen' hx hn => ?_⟩, ?_, fun e he => ⟨?_, ?_, ?_, ?_⟩⟩
  · refine ⟨_, exec_hostSubmission_accepts hf hl hx ho, ?_, fun j hj => ?_, fun m hm => ?_, fun hlog hj i hi => ?_⟩
    · rw [endStep_queueE, qAccept_queueE, if_pos rfl, wAt_set_same _ (by omega), w64_toNat, Nat.mod_mod]
    · rw [endStep_queueE, qAccept_queueE, if_pos rfl, getD_set_other _ _ _ hj]
    · rw [endStep_queueE, qAccept_queueE, if_neg (Ne.symm hm)]
    · rw [qAccept_written hj, wordBytes_of_bytes 16 d hl, byte_wrBytes, if_pos (by omega), Nat.add_sub_cancel_left]
  · refine ⟨_, exec_hostSubmission_refuses hf hr hx hn, ?_, fun m h1 h2 => ?_, fun m hm => ?_⟩
    · rw [endStep_mem, qRefuse_fold_log]
    · have hm : m ∈ queuesOver x (max 1 d.length) := mem_queuesOver.mpr ⟨h1, h2⟩
      rw [endStep_queueE, qRefuse_fold_queueE _ _ _ (queuesOver_nodup ..), if_pos hm]
      exact ⟨by rw [wAt_set_same _ (by rw [hlen']; decide), w64_toNat], fun j hj => getD_set_other _ _ _ hj⟩
    · have hm : m ∉ queuesOver x (max 1 d.length) := fun h => hm (mem_queuesOver.mp h)
      rw [endStep_queueE, qRefuse_fold_queueE _ _ _ (queuesOver_nodup ..), if_neg hm]
  · rintro l n i num hl hi ht hlen hnum hend hok hnew
    obtain ⟨e, c, hent, hrcd, hrec, hq, htag⟩ :=
      depEnter_entry (s := s.headMoved l n num) hi n num (s.qRecord n num)
    have hdeps : (((s.headMoved l n num).takeRecord n num).retAdvance n).deps = s.deps.put i e := by
      rw [State.retAdvance, retPass_wq, headMoved_takeRecord hend hok hnew, hent]
      rfl
    have hmod : num % 2 ^ 64 = num := by rw [hnum, Nat.mod_mod]
    refine ⟨_, e, hnum ▸ exec_dispatcherTake hl hi ht, ?_, ?_, hrcd, hrec.trans hmod, hq, htag, fun j hj => ?_⟩
    · rw [endStep_queueE, State.retAdvance, retPass_word (by decide), headMoved_takeRecord hend hok hnew, hent,
        setDep_queueE]
      change wAt ((s.headMoved l n num).queueE n) 3 = num
      rw [headMoved_queueE, wAt_set_same _ (by omega), w64_toNat, hmod]
    · rw [endStep_deps, hdeps, map_get_put, if_pos rfl]
    · rw [endStep_deps, hdeps, map_get_put, if_neg (Ne.symm hj)]
  · intro hst hen hre
    refine ⟨_, (exec_launchEnd hf he).1 hst hen hre, rfl, ?_⟩
    rw [endStep_deps, endLaunch_deps]
  · intro st hen hno
    refine ⟨_, (exec_launchEnd hf he).2 st hen hno, rfl, ?_⟩
    rw [endStep_deps, endLaunch_deps]
  · intro hc hst
    refine ⟨_, exec_dependentCancel hf he hc hst, rfl, ?_⟩
    rw [endStep_deps, endLaunch_deps]
  · intro hst hw
    obtain ⟨u, ht, hlog, hdeps⟩ := exec_taskAging hf he hst hw
    refine ⟨_, ht, ?_, fun j hj => ?_, by rw [endStep_mem, hlog]⟩
    · rw [endStep_deps, hdeps, map_get_put, if_pos rfl]
    · rw [endStep_deps, hdeps, map_get_put, if_neg (Ne.symm hj)]

end Sys2Proof.Machine

/-! ## Tasks (O45) -/

namespace Sys2Proof.Machine

section TaskUpdates

variable {s : State} {i : Nat} {k : Task}

/-- An update of a task of the table. -/
theorem updTask_of_get (h : s.tasks.get? i = some k) (f : Task → Task) :
    s.updTask i f = { s with tasks := s.tasks.put i (f k) } := by
  simp [State.updTask, h]

theorem updTask_get (h : s.tasks.get? i = some k) (f : Task → Task) : (s.updTask i f).tasks.get? i = some (f k) := by
  rw [updTask_of_get h, map_get_put, if_pos rfl]

theorem updTask_fields (s : State) (i : Nat) (f : Task → Task) : s.updTask i f = { s with tasks := (s.updTask i f).tasks } := by
  unfold State.updTask
  split <;> rfl

@[simp] theorem updTask_ctx (s : State) (i j : Nat) (f : Task → Task) : (s.updTask i f).ctx j = s.ctx j := by
  rw [updTask_fields]
  rfl

theorem updDep_fields (s : State) (i : Nat) (f : Dep → Dep) : s.updDep i f = { s with deps := (s.updDep i f).deps } := by
  unfold State.updDep
  split <;> rfl

@[simp] theorem updDep_tasks (s : State) (i : Nat) (f : Dep → Dep) : (s.updDep i f).tasks = s.tasks := by
  rw [updDep_fields]
@[simp] theorem updDep_log (s : State) (i : Nat) (f : Dep → Dep) : (s.updDep i f).log = s.log := by
  rw [updDep_fields]
@[simp] theorem updDep_region (s : State) (i j : Nat) (f : Dep → Dep) : (s.updDep i f).region j = s.region j := by
  rw [updDep_fields]
  rfl

@[simp] theorem dropTask_tasks (s : State) (i : Nat) (t : Task) : (s.dropTask i t).tasks = s.tasks.del i := rfl
@[simp] theorem dropTask_log (s : State) (i : Nat) (t : Task) : (s.dropTask i t).log = s.log := rfl
@[simp] theorem dropTask_region (s : State) (i j : Nat) (t : Task) : (s.dropTask i t).region j = s.region j := rfl

end TaskUpdates

/-! ### The contexts of a task -/

/-- One action on each context of a task, in the order in which the task lists its strands. -/
def State.eachCtx (s : State) (k : Task) (f : State → Nat → State) : State :=
  k.ctxs.foldl (fun (s : State) x => f s (ctxKey k.tile x.2)) s

section EachCtx

variable {k : Task} {f : State → Nat → State}

theorem eachCtx_keeps {γ : Type} (p : State → γ) (h : ∀ u key, p (f u key) = p u) (s : State) : p (s.eachCtx k f) = p s :=
  foldl_keeps (f := fun (s : State) (x : Nat × Nat) => f s (ctxKey k.tile x.2)) p (fun u x => h u (ctxKey k.tile x.2)) k.ctxs s

/-- What the action leaves of a context whatever it finds there, each of the contexts has in the end. -/
theorem eachCtx_at {P : Ctx → Prop} (hother : ∀ u key j, key ≠ j → (f u key).ctx j = u.ctx j)
    (hw : ∀ u key, P ((f u key).ctx key)) (s : State) {w c : Nat} (h : (w, c) ∈ k.ctxs) :
    P ((s.eachCtx k f).ctx (ctxKey k.tile c)) :=
  foldl_ctx_at (key := fun x : Nat × Nat => ctxKey k.tile x.2) (f := fun s x => f s (ctxKey k.tile x.2)) (P := fun _ => P)
    (fun u _ j hj => hother u _ j hj) k.ctxs s (fun u _ _ => hw u _) (w, c) h

end EachCtx

/-! ### Binding -/

section Strand

variable (s : State) (key task : Nat) (r : List W64) (wid v : Nat) (region : Option Nat)

/-- A strand starts with what its launch says of it (R27, R79). -/
theorem startStrand_started : ((s.startStrand key task r wid v region).ctx key).st = .run ∧
    ((s.startStrand key task r wid v region).ctx key).wid = w64 wid ∧
    ((s.startStrand key task r wid v region).ctx key).next = r.getD 0 0 ∧
    ((s.startStrand key task r wid v region).ctx key).task = some task := by
  have hc : ∀ (u : State) (t c : Nat), (((u.slotsGrant t c).cacheAcquire t 5).ctx key) = u.ctx key := fun _ _ _ => rfl
  simp only [State.startStrand, hc, setCtx_ctx_same, and_self]

theorem startStrand_other {j : Nat} (h : key ≠ j) : (s.startStrand key task r wid v region).ctx j = s.ctx j :=
  (setCtx_ctx ..).trans (if_neg h)

end Strand

/-- The strands of a task without a region start, each on its context. -/
def State.startAll (s : State) (t id : Nat) (r : List W64) (v : Nat) (ps : List (Nat × Nat)) : State :=
  ps.foldl (fun (s : State) (x : Nat × Nat) => s.startStrand (ctxKey t x.2) id r x.1 v none) s

theorem startAll_tasks (s : State) (t id : Nat) (r : List W64) (v : Nat) (ps : List (Nat × Nat)) :
    (s.startAll t id r v ps).tasks = s.tasks :=
  foldl_keeps (f := fun (s : State) (x : Nat × Nat) => s.startStrand (ctxKey t x.2) id r x.1 v none) State.tasks (fun _ _ => rfl) ps s

theorem ctxKey_inj {t c c' : Nat} : ctxKey t c = ctxKey t c' ↔ c = c' := by
  unfold ctxKey
  omega

/-- In a pairing with a list without repeats, the second of a pair names the first. -/
theorem zip_fst_unique {α β : Type} {l : List α} {m : List β} (hm : m.Nodup) {a a' : α} {b : β} (h : (a, b) ∈ l.zip m)
    (h' : (a', b) ∈ l.zip m) : a = a' := by
  obtain ⟨i, hi, e⟩ := List.mem_iff_getElem.mp h
  obtain ⟨j, hj, e'⟩ := List.mem_iff_getElem.mp h'
  rw [List.getElem_zip, Prod.mk.injEq] at e e'
  have hij : i = j := (hm.getElem_inj_iff).mp (e.2.trans e'.2.symm)
  subst hij
  exact e.1.symm.trans e'.1

/-- Every strand of the task runs on its context then. -/
theorem startAll_started {s : State} {t id v : Nat} {r : List W64} {ws cs : List Nat} (hc : cs.Nodup) {w c : Nat}
    (h : (w, c) ∈ ws.zip cs) : ((s.startAll t id r v (ws.zip cs)).ctx (ctxKey t c)).st = .run ∧
      ((s.startAll t id r v (ws.zip cs)).ctx (ctxKey t c)).wid = w64 w ∧
      ((s.startAll t id r v (ws.zip cs)).ctx (ctxKey t c)).next = r.getD 0 0 ∧
      ((s.startAll t id r v (ws.zip cs)).ctx (ctxKey t c)).task = some id := by
  have hall := foldl_ctx_at (key := fun x : Nat × Nat => ctxKey t x.2)
    (f := fun (s : State) (x : Nat × Nat) => s.startStrand (ctxKey t x.2) id r x.1 v none)
    (P := fun j c => c.st = .run ∧ (∀ x ∈ ws.zip cs, ctxKey t x.2 = j → c.wid = w64 x.1) ∧ c.next = r.getD 0 0 ∧ c.task = some id)
    (fun u x j hj => startStrand_other u _ _ _ _ _ _ hj) (ws.zip cs) s fun u x hx => by
      obtain ⟨hst, hwid, hnext, htask⟩ := startStrand_started u (ctxKey t x.2) id r x.1 v none
      refine ⟨hst, fun y hy e => ?_, hnext, htask⟩
      have hxy : y.2 = x.2 := ctxKey_inj.mp e
      have hw : y.1 = x.1 := zip_fst_unique hc hy (by rw [hxy]; exact hx)
      rw [hwid, hw]
  obtain ⟨hst, hwid, hnext, htask⟩ := hall (w, c) h
  exact ⟨hst, hwid (w, c) h rfl, hnext, htask⟩

theorem preset_ctxs_tasks (s : State) (t : Nat) (r : List W64) (v : Nat) :
    ((s.preset t r v).ctxs, (s.preset t r v).tasks) = (s.ctxs, s.tasks) := by
  unfold State.preset
  dsimp only
  split <;> rfl

/-- A write of an entry to its mirrors writes memory only (R277). -/
theorem mirror_log (s : State) (k lo n : Nat) :
    ({ s.mirror k lo n with log := [] } : State) = { s with log := [] } := by
  unfold State.mirror
  exact foldl_keeps (fun u : State => ({ u with log := [] } : State)) (fun _ _ => by rw [wrBoth_log]) _ s

@[simp] theorem mirror_ctxs (s : State) (k lo n : Nat) : (s.mirror k lo n).ctxs = s.ctxs :=
  have h := congrArg State.ctxs (mirror_log s k lo n)
  h
@[simp] theorem mirror_tasks (s : State) (k lo n : Nat) : (s.mirror k lo n).tasks = s.tasks :=
  have h := congrArg State.tasks (mirror_log s k lo n)
  h

/-- Strands that take over channels change neither contexts nor tasks (R192). -/
theorem rebindChans_ctxs_tasks (s : State) (l : List (Nat × Bool × Nat)) (wid : Nat) (id : W64) :
    ((s.rebindChans l wid id).ctxs, (s.rebindChans l wid id).tasks) = (s.ctxs, s.tasks) := by
  unfold State.rebindChans
  exact foldl_keeps (fun u : State => (u.ctxs, u.tasks)) (fun _ _ => by simp) _ s

/-- Where a task without a region stands once it is bound. -/
structure BoundAs (k : Task) (i v t : Nat) (ctxs : List (Nat × Nat)) : Prop where
  dep : k.dep = i
  val : k.val = v
  tile : k.tile = t
  st : k.st = .bound
  region : k.region = none
  ctxs : k.ctxs = ctxs

/-- Binding a task without a region: its strands start, and the table of tasks lists it (R39, R41). -/
theorem bindTask_none (s : State) (i : Nat) (d : Dep) (v t : Nat) :
    ∃ (u : State) (k : Task), u.ctxs = s.ctxs ∧ u.tasks = s.tasks ∧
      BoundAs k i v t ((taskWids d.rcd v).zip ((s.freeCtxs t).take (rcdStrands d.rcd))) ∧
      (s.bindTask i d v t none).tasks = s.tasks.put s.nextId k ∧ (s.bindTask i d v t none).ctxs =
        (u.startAll t s.nextId d.rcd v ((taskWids d.rcd v).zip ((s.freeCtxs t).take (rcdStrands d.rcd)))).ctxs := by
  let u := ({ s with nextId := s.nextId + 1 } : State).preset t d.rcd v
  let w := u.startAll t s.nextId d.rcd v ((taskWids d.rcd v).zip ((s.freeCtxs t).take (rcdStrands d.rcd)))
  obtain ⟨k, ids, f, hk, hb⟩ : ∃ (k : Task) (ids : List (Nat × W64)) (f : Dep → Dep),
      BoundAs k i v t ((taskWids d.rcd v).zip ((s.freeCtxs t).take (rcdStrands d.rcd))) ∧ s.bindTask i d v t none =
        (ids.foldl (fun (s : State) x => s.rebindChans d.rebind x.1 x.2) { w with tasks := w.tasks.put s.nextId k }).updDep i f :=
    ⟨_, _, _, ⟨rfl, rfl, rfl, rfl, rfl, rfl⟩, rfl⟩
  have hfold : ∀ b : State, ((ids.foldl (fun (s : State) x => s.rebindChans d.rebind x.1 x.2) b).ctxs,
      (ids.foldl (fun (s : State) x => s.rebindChans d.rebind x.1 x.2) b).tasks) = (b.ctxs, b.tasks) := fun b =>
    foldl_keeps (fun u : State => (u.ctxs, u.tasks)) (fun _ _ => rebindChans_ctxs_tasks ..) ids b
  obtain ⟨hctxs, htasks⟩ := Prod.mk.inj (hfold { w with tasks := w.tasks.put s.nextId k })
  obtain ⟨huc, hut⟩ := Prod.mk.inj (preset_ctxs_tasks ({ s with nextId := s.nextId + 1 } : State) t d.rcd v)
  refine ⟨u, k, huc, hut, hk, ?_, ?_⟩
  · rw [hb, updDep_fields]
    exact htasks.trans (congrArg (Map.put · s.nextId k) ((startAll_tasks ..).trans hut))
  · rw [hb, updDep_fields]
    exact hctxs

section BindEvent

variable {s : State} {x y z : Nat} {v : W64} {d : List Byte}

theorem exec_taskBind (hf : s.focus = .ev x y z v d) : exec .taskBind s = .next (endStep s (s.taskBind x y)) := by
  change execTaskBind s = _
  simp only [execTaskBind, run, hf]

/-- The first that meets one condition is the first that meets another too, when it does. -/
theorem find_and {α : Type} {p q : α → Bool} {a : α} (hq : q a = true) :
    ∀ {l : List α}, l.find? p = some a → l.find? (fun x => p x && q x) = some a
  | b :: r, h => by
    rw [List.find?_cons] at h ⊢
    cases hb : p b with
    | true =>
      rw [hb] at h
      cases Option.some.inj h
      simp [hq]
    | false =>
      rw [hb] at h
      simpa using find_and hq h

/-- A task whose home is fixed and can take it is bound there (R41). -/
theorem taskBind_home {e : Dep} {h : Nat} (he : s.deps.get? x = some e) (hst : e.st = 1) (hen : e.ending = none)
    (hy : y ∉ e.started) (hl : s.levelRuns e.part = true) (ht : s.isTask e.rcd y = true) (hc : e.rcd.getD 5 0 = 0)
    (hh : e.homes.find? (fun p => p.1 = y) = some (y, h)) (hw : (s.tile h).failed = false)
    (hr : s.canTake (rcdStrands e.rcd) false h = true) : s.taskBind x y = s.bindTask x e y h none := by
  have hhome : e.homes.find? (fun p => p.1 = y && !(s.tile p.2).failed) = some (y, h) := find_and (by simp [hw]) hh
  have hmem : (y, h) ∈ e.homes := List.mem_of_find?_eq_some hh
  have hgo : (!(decide (e.st = 1) && e.ending.isNone && !e.started.contains y && s.levelRuns e.part && s.isTask e.rcd y)) = false := by
    simp [hst, hen, hy, hl, ht]
  have hfix : e.homes.contains (y, h) = true := by simpa using hmem
  simp only [State.taskBind, he, hgo, hhome, hfix, hc, ne_eq, not_true_eq_false, decide_false, hr, Bool.not_true,
    Bool.false_eq_true, if_false, if_true]

end BindEvent

/-! ### Configuration fetches -/

section Fetch

variable {s u : State} {t n : Nat} {img : List W64}

theorem exec_configFetchComplete {x y z : Nat} {v : W64} {d : List Byte} (hf : s.focus = .ev x y z v d) :
    exec .configFetchComplete s = .next (endStep s (s.cfgFetchDone x y)) := by
  change execConfigFetchComplete s = _
  simp only [execConfigFetchComplete, run, hf]

/-- A fetch that ends in a validated image installs it (R245, R332). -/
theorem cfgFetchDone_of_ok (hv : (s.cfgEnt t n).fetch = true) (hr : readImage t (s.cfgEnt t n).part (s.cfgEnt t n).sup
    (s.cfgEnt t n).va (match (s.cfgEnt t n).own with
      | some o => .work o.1 o.2
      | none => .dev) s = .ok img u) :
    s.cfgFetchDone t n = (u.cfgInstall t n (s.cfgEnt t n).asn (s.cfgEnt t n).va img).cfgWaitWake t := by
  unfold State.cfgFetchDone
  dsimp only
  rw [if_neg (by simp [hv])]
  split
  next hok =>
    cases hok.symm.trans hr
    rfl
  next herr => cases herr.symm.trans hr

theorem cfgTouch_cfgWait (s : State) (t n : Nat) : (s.cfgTouch t n).cfgWait = s.cfgWait := by
  unfold State.cfgTouch
  refine foldl_keeps State.cfgWait (fun u i => ?_) _ s
  dsimp only
  split
  · rfl
  · split <;> rfl

theorem cfgInstall_cfgWait (s : State) (t n asn : Nat) (va : W64) (img : List W64) :
    (s.cfgInstall t n asn va img).cfgWait = s.cfgWait := cfgTouch_cfgWait ..

theorem cfgWaitWake_of_none (h : s.cfgWait = []) : s.cfgWaitWake t = s := by
  simp [State.cfgWaitWake, h]

theorem cfgInstall_cfgEnt (s : State) (t n asn : Nat) (va : W64) (img : List W64) :
    ((s.cfgInstall t n asn va img).cfgEnt t n).v = true ∧ ((s.cfgInstall t n asn va img).cfgEnt t n).img = img := by
  simp [State.cfgInstall, State.setCfg, State.cfgEnt, State.updTile, map_getD_put]

end Fetch

/-! ### Retirement -/

/-- A task whose strands have retired and whose commands are complete frees what it held (R20, R24). -/
theorem exec_taskRetire {s : State} {x y z : Nat} {v : W64} {d : List Byte} (hf : s.focus = .ev x y z v d) {k : Task}
    (hk : s.tasks.get? x = some k) (hst : k.st = .bound) (hc : k.ctxs = []) (hb : s.taskBusy k = false) :
    ∃ u, exec .taskRetire s = .next (endStep s u) ∧ u.tasks = s.tasks.del x ∧ u.log = s.log ∧
      ∀ r, k.region = some r → (u.region (4 * k.tile + r)).owner = none := by
  refine ⟨_, rfl, ?_⟩
  have hgo : (decide (k.st = .bound) && k.ctxs.isEmpty && !s.taskBusy k) = true := by simp [hst, hc, hb]
  simp only [hf, hk, hgo, if_true]
  cases hr : k.region with
  | none => simp
  | some r => simp [State.updRegion]

/-! ### Pre-emption -/

section Preempt

variable {s : State} {x y z : Nat} {v : W64} {d : List Byte} {k : Task} {e : Dep}

/-- A task whose quantum is over and that no ready task of its partition waits for starts another (R44). -/
theorem exec_quantumExpiry_alone (hf : s.focus = .ev x y z v d) (hk : s.tasks.get? x = some k) (he : s.deps.get? k.dep = some e)
    (hst : k.st = .bound) (hc : k.ctxs ≠ []) (hq : s.age k.quantum ≥ bitsOf (s.partW e.part 0) 0 32)
    (hs : s.tasks.all (fun p => p.2.st ≠ .saved) = true)
    (hd : s.deps.all (fun p => p.2.part ≠ e.part || p.2.started.length ≥ p.2.tasks) = true) :
    exec .quantumExpiry s = .next (endStep s (s.updTask x fun k => { k with quantum := s.cycle })) := by
  have hgo : (decide (k.st = .bound) && !k.ctxs.isEmpty && decide (s.age k.quantum ≥ bitsOf (s.partW e.part 0) 0 32)) = true := by
    simp [hst, hc, hq]
  change execQuantumExpiry s = _
  simp only [execQuantumExpiry, run, hf, hk, he, hgo, if_true]
  rw [if_neg]
  simp only [List.all_eq_true, Bool.or_eq_true, decide_eq_true_eq] at hs hd
  simp only [Bool.or_eq_true, List.any_eq_true, Bool.and_eq_true, decide_eq_true_eq]
  rintro (⟨p, hp, ⟨⟨⟨hpart, -⟩, -⟩, hlt⟩, -⟩ | ⟨p, hp, hsaved, -⟩)
  · exact (hd p hp).elim (fun h => h hpart) (Nat.not_le.mpr hlt)
  · exact hs p hp hsaved

/-- A task whose quantum is over is asked to give way to a ready task of its partition that is no less urgent (R44). -/
theorem exec_quantumExpiry_yields (hf : s.focus = .ev x y z v d) (hk : s.tasks.get? x = some k) (he : s.deps.get? k.dep = some e)
    (hst : k.st = .bound) (hc : k.ctxs ≠ []) (hq : s.age k.quantum ≥ bitsOf (s.partW e.part 0) 0 32) {mine : Nat}
    (hm : mine = (s.ctx (ctxKey k.tile ((k.ctxs.map Prod.snd).headD 0))).eprio)
    (hr : (∃ p ∈ s.deps, p.2.part = e.part ∧ p.2.st = 1 ∧ p.2.ending = none ∧ p.2.started.length < p.2.tasks ∧ mine ≤ s.depPrio p.2) ∨
      ∃ p ∈ s.tasks, p.2.st = .saved ∧ ∃ f, s.deps.get? p.2.dep = some f ∧ f.part = e.part ∧ mine ≤ s.savedPrio p.2 f) :
    exec .quantumExpiry s = .next (endStep s (s.requestPreempt x)) := by
  have hgo : (decide (k.st = .bound) && !k.ctxs.isEmpty && decide (s.age k.quantum ≥ bitsOf (s.partW e.part 0) 0 32)) = true := by
    simp [hst, hc, hq]
  change execQuantumExpiry s = _
  simp only [execQuantumExpiry, run, hf, hk, he, hgo, if_true]
  rw [if_pos]
  subst hm
  simp only [Bool.or_eq_true, List.any_eq_true, Bool.and_eq_true, decide_eq_true_eq]
  obtain ⟨p, hp, hpart, hpst, hend, hlt, hle⟩ | ⟨p, hp, hpst, f, hf, hpart, hle⟩ := hr
  · exact .inl ⟨p, hp, ⟨⟨⟨hpart, hpst⟩, by simp [hend]⟩, hlt⟩, hle⟩
  · refine .inr ⟨p, hp, hpst, ?_⟩
    simpa [hf, hpart] using hle

/-- A context asked to give way (R46). -/
def State.askCtx (s : State) (key : Nat) : State := s.updCtx key fun c => { c with preq := true }

/-- A request is noted in the task and its contexts, and looked at in the same cycle (R46). -/
theorem requestPreempt_of_get (hk : s.tasks.get? x = some k) (hst : k.st = .bound) (hp : k.preq = false) :
    (s.requestPreempt x).tasks.get? x = some { k with preq := true } ∧
      (s.requestPreempt x).agenda = .event .preemptAccept x 0 0 0 [] :: s.agenda ∧
      ∀ w c, (w, c) ∈ k.ctxs → ((s.requestPreempt x).ctx (ctxKey k.tile c)).preq = true := by
  let u := s.updTask x fun k => { k with preq := true }
  have hr : s.requestPreempt x = ({ u with agenda := .event .preemptAccept x 0 0 0 [] :: u.agenda } : State).eachCtx k
      State.askCtx := by
    simp only [State.requestPreempt, hk, hst, hp, ne_eq, not_true_eq_false, decide_false, Bool.or_self, Bool.false_eq_true, if_false]
    rfl
  rw [hr]
  refine ⟨?_, ?_, fun w c hc => ?_⟩
  · rw [eachCtx_keeps (f := State.askCtx) State.tasks fun _ _ => rfl]
    exact updTask_get hk _
  · rw [eachCtx_keeps (f := State.askCtx) State.agenda fun _ _ => rfl]
    simp only [u, updTask_of_get hk]
  · exact eachCtx_at (f := State.askCtx) (P := fun c => c.preq = true) (fun _ _ _ h => updCtx_ctx_other _ _ _ h)
      (fun _ _ => by simp [State.askCtx]) _ hc

/-- What the acceptance of a pre-emption makes of a context (R46). -/
def State.stopped (s : State) (j : Nat) : Ctx := (s.stopCtx j).ctx j

theorem stopCtx_ctx (s : State) (key j : Nat) : (s.stopCtx key).ctx j = if key = j then s.stopped j else s.ctx j := by
  by_cases h : key = j
  · rw [if_pos h, ← h]
    rfl
  · rw [if_neg h]
    exact updCtx_ctx_other _ _ _ h

theorem stopped_eq (s : State) (j : Nat) : s.stopped j = if (s.ctx j).st = .run then
    { s.ctx j with st := if (s.ctx j).spAt = some s.cycle ∧ s.blks.get? j = none then .stopped else .stopreq } else s.ctx j := by
  simp only [State.stopped, State.stopCtx, updCtx_ctx_same]
  simp

/-- A context that has been told to stop is not told again. -/
theorem stopped_stopCtx (s : State) (key j : Nat) : (s.stopCtx key).stopped j = s.stopped j := by
  have hc := stopCtx_ctx s key j
  have hsame : (s.stopCtx key).cycle = s.cycle ∧ (s.stopCtx key).blks = s.blks := ⟨rfl, rfl⟩
  rw [stopped_eq, hsame.1, hsame.2]
  by_cases hk : key = j
  · rw [if_pos hk] at hc
    rw [hc]
    by_cases hrun : (s.ctx j).st = .run
    · have hs := stopped_eq s j
      rw [if_pos hrun] at hs
      rw [if_neg]
      rw [hs]
      dsimp only
      split <;> nofun
    · rw [stopped_eq, if_neg hrun, if_neg hrun]
  · rw [if_neg hk] at hc
    rw [hc, ← stopped_eq]

theorem stopAll_ctx (s : State) (k : Task) (j : Nat) : (s.eachCtx k State.stopCtx).ctx j =
    if ∃ x ∈ k.ctxs, ctxKey k.tile x.2 = j then s.stopped j else s.ctx j := by
  unfold State.eachCtx
  induction k.ctxs generalizing s with
  | nil => simp
  | cons x r ih =>
    rw [List.foldl_cons, ih, stopped_stopCtx, stopCtx_ctx]
    by_cases hr : ∃ y ∈ r, ctxKey k.tile y.2 = j
    · simp [hr]
    · by_cases hx : ctxKey k.tile x.2 = j
      · simp [hr, hx]
      · simp [hr, hx]

end Preempt

end Sys2Proof.Machine

/-! ### Saving -/

namespace Sys2Proof.Machine

section Accept

variable {s : State} {x y z : Nat} {v : W64} {d : List Byte} {k : Task} {e : Dep}

/-- Save areas of a partition that are taken for a task (R112). -/
def State.reserve (s : State) (part : Nat) (l : List Nat) : State := { s with saveUsed := s.saveUsed ++ l.map fun a => (part, a) }

/-- A requested pre-emption that finds a save area for every context is accepted (R112, R113). -/
theorem exec_preemptAccept (hf : s.focus = .ev x y z v d) (hk : s.tasks.get? x = some k) (he : s.deps.get? k.dep = some e)
    (hst : k.st = .bound) (hp : k.preq = true) (ha : k.accepted = false)
    (hn : (s.freeAreas e.part k.ctxs.length).length = k.ctxs.length) :
    exec .preemptAccept s = .next (endStep s
      (((s.reserve e.part (s.freeAreas e.part k.ctxs.length)).updTask x
        fun t => { t with accepted := true, areas := (t.ctxs.map Prod.fst).zip (s.freeAreas e.part k.ctxs.length) }).eachCtx k
          State.stopCtx)) := by
  change execPreemptAccept s = _
  simp only [execPreemptAccept, run, hf, hk, he, hst, hp, ha, hn, decide_true, Bool.not_false, Bool.and_self, if_true, State.reserve]
  rfl

theorem stopAll_tasks (s : State) (k : Task) : (s.eachCtx k State.stopCtx).tasks = s.tasks :=
  eachCtx_keeps (f := State.stopCtx) State.tasks (fun _ _ => rfl) s

theorem stopAll_log (s : State) (k : Task) : (s.eachCtx k State.stopCtx).log = s.log :=
  eachCtx_keeps (f := State.stopCtx) State.log (fun _ _ => rfl) s

theorem updTask_log (s : State) (i : Nat) (f : Task → Task) : (s.updTask i f).log = s.log := by
  rw [updTask_fields]

/-- The acceptance stops a running context of the task and leaves one that does not run as it was. -/
theorem stopAll_st {w c : Nat} (h : (w, c) ∈ k.ctxs) (hr : (s.ctx (ctxKey k.tile c)).st = .run) :
    ((s.eachCtx k State.stopCtx).ctx (ctxKey k.tile c)).st =
      if (s.ctx (ctxKey k.tile c)).spAt = some s.cycle ∧ s.blks.get? (ctxKey k.tile c) = none then .stopped else .stopreq := by
  rw [stopAll_ctx, if_pos ⟨(w, c), h, rfl⟩, stopped_eq, if_pos hr]

theorem stopAll_idle {j : Nat} (hr : (s.ctx j).st ≠ .run) : (s.eachCtx k State.stopCtx).ctx j = s.ctx j := by
  rw [stopAll_ctx, stopped_eq, if_neg hr, ite_self]

end Accept

theorem ctx_of_ctxs {s u : State} (h : u.ctxs = s.ctxs) (j : Nat) : u.ctx j = s.ctx j := by
  rw [State.ctx, State.ctx, h]

section Save

variable {s : State} {x : Nat} {k : Task}

theorem exec_taskSave {y z : Nat} {v : W64} {d : List Byte} (hf : s.focus = .ev x y z v d) :
    exec .taskSave s = .next (endStep s (s.taskSave x)) := by
  change execTaskSave s = _
  simp only [execTaskSave, run, hf]

theorem drainSq_nil {key : Nat} (h : (s.ctx key).sq = []) : s.drainSq key = s := by
  simp [State.drainSq, h]

theorem drainFault_nil {key : Nat} (h : (s.ctx key).async = []) : s.drainFault key = s := by
  unfold State.drainFault
  split
  next ha => simp [h] at ha
  next => rfl

theorem eachCtx_unchanged {f : State → Nat → State} (h : ∀ w c, (w, c) ∈ k.ctxs → f s (ctxKey k.tile c) = s) :
    s.eachCtx k f = s :=
  foldl_unchanged k.ctxs fun p hp => h p.1 p.2 hp

theorem saveCtx_ctx_same (s : State) (key : Nat) : ((s.saveCtx key).ctx key).st = .saving := by
  simp [State.saveCtx]

theorem saveCtx_ctx_other (s : State) {key j : Nat} (h : key ≠ j) : (s.saveCtx key).ctx j = s.ctx j := by
  rw [State.saveCtx, updCtx_ctx_other _ _ _ h]
  split <;> rfl

theorem saveCtx_tasks_log (s : State) (key : Nat) : ((s.saveCtx key).tasks, (s.saveCtx key).log) = (s.tasks, s.log) := by
  unfold State.saveCtx
  dsimp only
  split <;> rfl

/-- With no store, fault or command left of a stopped task, its contexts turn to SAVING at once (R113). -/
theorem saveBegin_quiet (hr : k.region = none) (hb : s.cmdsBusy k = false)
    (hq : ∀ w c, (w, c) ∈ k.ctxs → (s.ctx (ctxKey k.tile c)).sq = [] ∧ (s.ctx (ctxKey k.tile c)).async = []) :
    s.saveBegin x k = (s.eachCtx k State.saveCtx).updTask x fun t => { t with
      st := .saving
      held := (k.ctxs.filter (fun x => (s.ctx (ctxKey k.tile x.2)).st = .held)).map Prod.fst
      flts := k.ctxs.map (fun x => (x.1, (s.ctx (ctxKey k.tile x.2)).async)) } := by
  have hsq : k.ctxs.foldl (fun (s : State) (x : Nat × Nat) => s.drainSq (ctxKey k.tile x.2)) s = s :=
    eachCtx_unchanged (f := State.drainSq) fun w c h => drainSq_nil (hq w c h).1
  have hfl : k.ctxs.foldl (fun (s : State) (x : Nat × Nat) => s.drainFault (ctxKey k.tile x.2)) s = s :=
    eachCtx_unchanged (f := State.drainFault) fun w c h => drainFault_nil (hq w c h).2
  simp only [State.saveBegin, hr, hb, Option.map_none, Option.getD_none, Bool.not_true, Bool.or_self, Bool.false_eq_true, if_false, hsq,
    hfl]
  rfl

theorem freeCtx_ctx_same (s : State) (key : Nat) : ((s.freeCtx key).ctx key).st = .free := by
  have hc : ∀ (u : State) (t c : Nat), (u.slotsFree t c).ctx key = u.ctx key := fun _ _ _ => rfl
  simp only [State.freeCtx, hc, setCtx_ctx_same]

theorem reconfDrop_ctxs_tasks (s : State) (key : Nat) :
    ((s.reconfDrop key).ctxs, (s.reconfDrop key).tasks) = (s.ctxs, s.tasks) := by
  unfold State.reconfDrop
  dsimp only
  split
  · split <;> rfl
  · rfl

theorem abortBlock_ctxs_tasks (s : State) (key : Nat) :
    ((s.abortBlock key).ctxs, (s.abortBlock key).tasks) = (s.ctxs, s.tasks) := by
  unfold State.abortBlock
  dsimp only
  rw [← reconfDrop_ctxs_tasks s key]
  split <;> rfl

theorem freeCtx_ctx_other (s : State) {key j : Nat} (h : key ≠ j) : (s.freeCtx key).ctx j = s.ctx j := by
  have hc : ∀ (u : State) (t c : Nat), (u.slotsFree t c).ctx j = u.ctx j := fun _ _ _ => rfl
  have ha : (s.abortBlock key).ctxs = s.ctxs := (Prod.mk.inj (abortBlock_ctxs_tasks s key)).1
  rw [State.freeCtx, hc, setCtx_ctx, if_neg h]
  exact ctx_of_ctxs ha j

theorem freeCtx_tasks (s : State) (key : Nat) : (s.freeCtx key).tasks = s.tasks :=
  (Prod.mk.inj (abortBlock_ctxs_tasks s key)).2

/-- Traffic changes neither contexts nor tasks. -/
theorem OnlyTraffic.ctxs_tasks {t u : State} (h : OnlyTraffic t u) : (u.ctxs, u.tasks) = (t.ctxs, t.tasks) :=
  have hr := h.rest
  have hc := congrArg State.ctxs hr
  have ht := congrArg State.tasks hr
  Prod.ext hc ht

theorem imgTraffic_ctxs_tasks (s : State) (key pa : Nat) (r wr : Bool) :
    ((s.imgTraffic key pa r wr).ctxs, (s.imgTraffic key pa r wr).tasks) = (s.ctxs, s.tasks) :=
  (OnlyTraffic.traffic ..).ctxs_tasks

theorem wrBytes_ctxs_tasks (s : State) (pa : Nat) (l : List Byte) :
    ((s.wrBytes pa l).ctxs, (s.wrBytes pa l).tasks) = (s.ctxs, s.tasks) := by
  rw [wrBytes_log]

/-- Writing an image leaves contexts and tasks alone. -/
theorem saveStrand_ctxs_tasks (s : State) (key pa : Nat) (held : Bool) :
    ((s.saveStrand key pa held).ctxs, (s.saveStrand key pa held).tasks) = (s.ctxs, s.tasks) := by
  unfold State.saveStrand
  dsimp only
  rw [State.wr, wrBytes_ctxs_tasks, foldl_keeps (f := fun (s : State) (p : Nat × List Byte) => s.wrBytes (pa + p.1) p.2)
    (fun u : State => (u.ctxs, u.tasks)) (fun _ _ => wrBytes_ctxs_tasks ..), imgTraffic_ctxs_tasks]

theorem saveRelease_none (hr : k.region = none) : s.saveRelease k = s.eachCtx k State.freeCtx := by
  simp only [State.saveRelease, hr]
  rfl

/-- A strand's image goes to its save area, when the task has one for it (R113, R120). -/
def State.saveImage (s : State) (k : Task) (part : Nat) (x : Nat × Nat) : State :=
  match k.areas.find? (fun a => a.1 = x.1) with
  | some a => s.saveStrand (ctxKey k.tile x.2) (s.areaPa part a.2) (k.held.contains x.1)
  | none => s

/-- The images of all strands of a task. -/
def State.saveImages (s : State) (k : Task) : State :=
  k.ctxs.foldl (fun (u : State) (x : Nat × Nat) =>
    u.saveImage k (s.ctx (ctxKey k.tile ((k.ctxs.map Prod.snd).headD 0))).part x) s

theorem saveImages_tasks (s : State) (k : Task) : (s.saveImages k).tasks = s.tasks := by
  unfold State.saveImages
  refine foldl_keeps State.tasks (fun u p => ?_) k.ctxs s
  unfold State.saveImage
  split
  · exact (Prod.mk.inj (saveStrand_ctxs_tasks ..)).2
  · rfl

/-- The images of a task without a region are written; then its contexts are free and the task is saved (R113). -/
theorem saveEnd_alive {e : Dep} (he : s.deps.get? k.dep = some e) (hen : e.ending = none) (hr : k.region = none) :
    s.saveEnd x k = ((s.saveImages k).eachCtx k State.freeCtx).updTask x fun t => { t with
      st := .saved, preq := false, accepted := false, since := (s.saveImages k).cycle, aged := 0, left := {} } := by
  have hgo : ((s.deps.get? k.dep).bind Dep.ending).isSome = false := by simp [he, hen]
  simp only [State.saveEnd, hgo, hr, Bool.false_eq_true, if_false, saveRelease_none hr, Option.map_none, Option.getD_none]
  rfl

end Save

/-! ### Rebinding -/

section Rebind

variable (s : State) (key task : Nat) (r : List W64) (region : Option Nat) (flts : List Flt) (b : List Byte)

/-- Installing strand state writes the strand's context and memory, and keeps whose strand it is. -/
theorem installStrand_of : ∃ f : Ctx → Ctx, (∀ c, (f c).task = c.task) ∧
    ((s.installStrand key b).ctxs, (s.installStrand key b).tasks) = ((s.updCtx key f).ctxs, s.tasks) := by
  refine ⟨_, ?_, wrBytes_ctxs_tasks ..⟩
  exact fun _ => rfl

theorem restoreStrand_via : ∃ (u : State) (c : Ctx), c.task = some task ∧ (u.ctxs, u.tasks) = (s.ctxs, s.tasks) ∧
    ((s.restoreStrand key task r region flts b).ctxs, (s.restoreStrand key task r region flts b).tasks) =
      (((u.setCtx key c).installStrand key b).ctxs, ((u.setCtx key c).installStrand key b).tasks) := by
  unfold State.restoreStrand
  extract_lets prio w0 id wid live
  split
  next g u hd =>
    refine ⟨u, _, ?_, ?_, rfl⟩
    · rfl
    · have hu := congrArg (fun st : Map W64 × State => (st.2.ctxs, st.2.tasks)) hd
      refine Eq.trans hu.symm (foldl_keeps (fun st : Map W64 × State => (st.2.ctxs, st.2.tasks)) (fun st n => ?_) _ _)
      split <;> rfl

/-- A restored strand belongs to its task, and neither another context nor a task changes (R114). -/
theorem restoreStrand_of : ((s.restoreStrand key task r region flts b).ctx key).task = some task ∧
    (∀ j, key ≠ j → (s.restoreStrand key task r region flts b).ctx j = s.ctx j) ∧
    (s.restoreStrand key task r region flts b).tasks = s.tasks := by
  obtain ⟨u, c, hc, hu, hr⟩ := restoreStrand_via s key task r region flts b
  obtain ⟨f, hf, hi⟩ := installStrand_of (u.setCtx key c) key b
  obtain ⟨huc, hut⟩ := Prod.mk.inj hu
  obtain ⟨hrc, hrt⟩ := Prod.mk.inj (hr.trans hi)
  have hat : ∀ j, (s.restoreStrand key task r region flts b).ctx j = ((u.setCtx key c).updCtx key f).ctx j := fun j =>
    ctx_of_ctxs hrc j
  refine ⟨?_, fun j hj => ?_, hrt.trans hut⟩
  · rw [hat, updCtx_ctx_same, hf, setCtx_ctx_same, hc]
  · rw [hat, updCtx_ctx_other _ _ _ hj, setCtx_ctx, if_neg hj]
    exact ctx_of_ctxs huc j

end Rebind

/-- A strand of a task without a region returns from its image (R114). -/
def State.restoreOne (s : State) (i : Nat) (k : Task) (d : Dep) (pa : Nat → Nat) (p : (Nat × List Byte) × Nat) : State :=
  (s.restoreStrand (ctxKey k.tile p.2) i d.rcd none (((k.flts.find? (fun f => f.1 = p.1.1)).map Prod.snd).getD []) p.1.2).imgTraffic
    (ctxKey k.tile p.2) (pa p.1.1) false false

section RebindTask

variable {s : State} {i : Nat} {k : Task} {d : Dep}

theorem restoreOne_of (s : State) (i : Nat) (k : Task) (d : Dep) (pa : Nat → Nat) (p : (Nat × List Byte) × Nat) :
    ((s.restoreOne i k d pa p).ctx (ctxKey k.tile p.2)).task = some i ∧
      (∀ j, ctxKey k.tile p.2 ≠ j → (s.restoreOne i k d pa p).ctx j = s.ctx j) ∧ (s.restoreOne i k d pa p).tasks = s.tasks := by
  obtain ⟨hsame, hother, htasks⟩ := restoreStrand_of s (ctxKey k.tile p.2) i d.rcd none
    (((k.flts.find? (fun f => f.1 = p.1.1)).map Prod.snd).getD []) p.1.2
  obtain ⟨hc, ht⟩ := Prod.mk.inj (imgTraffic_ctxs_tasks (s.restoreStrand (ctxKey k.tile p.2) i d.rcd none
    (((k.flts.find? (fun f => f.1 = p.1.1)).map Prod.snd).getD []) p.1.2) (ctxKey k.tile p.2) (pa p.1.1) false false)
  exact ⟨(congrArg Ctx.task (ctx_of_ctxs hc _)).trans hsame, fun j hj => (ctx_of_ctxs hc j).trans (hother j hj), ht.trans htasks⟩

/-- All strands that return, each to its context. -/
def State.restoreAll (s : State) (i : Nat) (k : Task) (d : Dep) (pa : Nat → Nat) (l : List ((Nat × List Byte) × Nat)) : State :=
  l.foldl (fun (s : State) p => s.restoreOne i k d pa p) s

theorem restoreAll_tasks (s : State) (pa : Nat → Nat) (l : List ((Nat × List Byte) × Nat)) :
    (s.restoreAll i k d pa l).tasks = s.tasks :=
  foldl_keeps (f := fun (s : State) p => s.restoreOne i k d pa p) State.tasks (fun s p => (restoreOne_of s i k d pa p).2.2) l s

theorem restoreAll_task (s : State) {pa : Nat → Nat} {l : List ((Nat × List Byte) × Nat)} {p : (Nat × List Byte) × Nat} (hp : p ∈ l) :
    ((s.restoreAll i k d pa l).ctx (ctxKey k.tile p.2)).task = some i :=
  foldl_ctx_at (key := fun p : (Nat × List Byte) × Nat => ctxKey k.tile p.2) (f := fun s p => s.restoreOne i k d pa p)
    (P := fun _ c => c.task = some i) (fun s p j hj => (restoreOne_of s i k d pa p).2.1 j hj) l s
    (fun s p _ => (restoreOne_of s i k d pa p).1) p hp

/-- The save areas of a task whose images are installed are free again (R114). -/
def State.freeAreasOf (s : State) (part : Nat) (k : Task) : State :=
  { s with saveUsed := s.saveUsed.filter fun a => !(a.1 = part && k.areas.any fun x => x.2 = a.2) }

/-- A task without a region whose images are all valid returns with every strand (R114, R120). -/
theorem rebindTask_none {pa : Nat → Nat} {cs : List Nat} {u : State}
    (hpa : pa = fun w => s.areaPa d.part (((k.areas.find? (fun a => a.1 = w)).map Prod.snd).getD 0))
    (hv : ∀ w c, (w, c) ∈ k.ctxs → imgValid (s.bytes (pa w) 4096) = true) (hcs : cs = (s.freeCtxs k.tile).take k.ctxs.length)
    (hu : u = s.restoreAll i k d pa ((k.ctxs.map fun x => (x.1, s.bytes (pa x.1) 4096)).zip cs)) :
    s.rebindTask i k d none = (u.freeAreasOf d.part k).updTask i fun t =>
      { t with
        st := .bound, ctxs := (t.ctxs.map Prod.fst).zip cs, region := none, areas := [], bound := u.cycle, quantum := u.cycle,
        held := [], flts := [], left := {}, keys := cs.map (ctxKey t.tile) } := by
  have hgo : (k.ctxs.map fun x => (x.1, s.bytes (pa x.1) 4096)).any (fun x => !imgValid x.2) = false := by
    simpa using fun a b h => hv a b h
  subst hpa hcs hu
  simp only [State.rebindTask, hgo, Option.bind_none, Option.map_none, Option.getD_none, Bool.or_self, Bool.false_eq_true, if_false,
    State.renewPorts, List.length_map]
  rfl

/-- A pairing by numbers is one by what stands for each number too. -/
theorem mem_zip_map_fst {α β γ δ : Type} (g : α → δ) {l : List (α × β)} {m : List γ} {a : α} {c : γ}
    (h : (a, c) ∈ (l.map Prod.fst).zip m) : ((a, g a), c) ∈ (l.map fun p => (p.1, g p.1)).zip m := by
  have hmap : (l.map fun p => (p.1, g p.1)) = (l.map Prod.fst).map fun a => (a, g a) := by simp
  rw [hmap, List.zip_map_left]
  exact List.mem_map_of_mem (f := Prod.map (fun a => (a, g a)) id) h

theorem exec_taskRebind {y z : Nat} {v : W64} {b : List Byte} (hf : s.focus = .ev i y z v b) (hk : s.tasks.get? i = some k)
    (he : s.deps.get? k.dep = some d) (hst : k.st = .saved) (hen : d.ending = none) (hl : s.levelRuns d.part = true)
    (hc : s.canTake k.ctxs.length k.region.isSome k.tile = true) (hr : k.region = none) :
    exec .taskRebind s = .next (endStep s (s.rebindTask i k d none)) := by
  have hgo : (!(decide (k.st = .saved) && d.ending.isNone && s.levelRuns d.part)) = false := by simp [hst, hen, hl]
  have hnone : k.region.isNone = true := by simp [hr]
  change execTaskRebind s = _
  simp only [execTaskRebind, run, hf, State.taskRebind, hk, he, hgo, hc, hnone, Bool.not_true, Bool.false_eq_true, if_false, if_true]

end RebindTask

end Sys2Proof.Machine

/-! ### The events of a task -/

namespace Sys2Proof.Machine

section TaskEventClauses

variable {s : State} {x y z : Nat} {v : W64} {d : List Byte} {k : Task} {e : Dep}

theorem freeCtxs_nodup (s : State) (t : Nat) : (s.freeCtxs t).Nodup := List.nodup_range.filter _

theorem bind_starts {h : Nat} {t : State} (ht : t = endStep s (s.bindTask x e y h none)) : ∃ k : Task,
    t.tasks.get? s.nextId = some k ∧ BoundAs k x y h ((taskWids e.rcd y).zip ((s.freeCtxs h).take (rcdStrands e.rcd))) ∧
      ∀ w c, (w, c) ∈ k.ctxs → (t.ctx (ctxKey h c)).st = .run ∧ (t.ctx (ctxKey h c)).wid = w64 w ∧
        (t.ctx (ctxKey h c)).next = e.rcd.getD 0 0 ∧ (t.ctx (ctxKey h c)).task = some s.nextId := by
  obtain ⟨u, k, -, -, hk, htasks, hctxs⟩ := bindTask_none s x e y h
  refine ⟨k, ?_, hk, fun w c hc => ?_⟩
  · rw [ht, endStep_tasks, htasks, map_get_put, if_pos rfl]
  · rw [ht, endStep_ctx, ctx_of_ctxs hctxs]
    exact startAll_started ((freeCtxs_nodup s h).sublist (List.take_sublist ..)) (hk.ctxs ▸ hc)

theorem retire_frees {u : State} (hu : u.tasks = s.tasks.del x) :
    (endStep s u).tasks.get? x = none ∧ ∀ j, j ≠ x → (endStep s u).tasks.get? j = s.tasks.get? j := by
  simp only [endStep_tasks, hu, map_get_del]
  exact ⟨if_pos trivial, fun j hj => if_neg hj⟩

/-- What a fetch installs, a fetch that nobody waits for leaves. -/
theorem cfgInstall_stands {t n : Nat} {u : State} {img : List W64} {asn : Nat} {va : W64} (hw : u.cfgWait = []) :
    (((u.cfgInstall t n asn va img).cfgWaitWake t).cfgEnt t n).v = true ∧
      (((u.cfgInstall t n asn va img).cfgWaitWake t).cfgEnt t n).img = img := by
  rw [cfgWaitWake_of_none ((cfgInstall_cfgWait ..).trans hw)]
  exact cfgInstall_cfgEnt ..

/-- An accepted pre-emption: the task has its areas, its running contexts stop, the others stand as they were (R46, R112). -/
theorem preemptAccept_stops (hf : s.focus = .ev x y z v d) (hk : s.tasks.get? x = some k) (he : s.deps.get? k.dep = some e)
    (hst : k.st = .bound) (hp : k.preq = true) (ha : k.accepted = false)
    (hn : (s.freeAreas e.part k.ctxs.length).length = k.ctxs.length) : ∃ t, exec .preemptAccept s = .next t ∧
      t.tasks.get? x = some { k with accepted := true, areas := (k.ctxs.map Prod.fst).zip (s.freeAreas e.part k.ctxs.length) } ∧
      (∀ w c, (w, c) ∈ k.ctxs → (s.ctx (ctxKey k.tile c)).st = .run → (t.ctx (ctxKey k.tile c)).st =
        if (s.ctx (ctxKey k.tile c)).spAt = some s.cycle ∧ s.blks.get? (ctxKey k.tile c) = none then .stopped else .stopreq) ∧
      (∀ c, (s.ctx c).st ≠ .run → t.ctx c = s.ctx c) ∧ t.mem = Mem.flush s.mem s.log := by
  have hw := updTask_of_get (s := s.reserve e.part (s.freeAreas e.part k.ctxs.length)) hk fun t =>
    { t with accepted := true, areas := (t.ctxs.map Prod.fst).zip (s.freeAreas e.part k.ctxs.length) }
  have hexec := exec_preemptAccept hf hk he hst hp ha hn
  rw [hw] at hexec
  refine ⟨_, hexec, ?_, fun w c hc hr => ?_, fun c hr => ?_, ?_⟩
  · rw [endStep_tasks, stopAll_tasks, map_get_put, if_pos rfl]
  · rw [endStep_ctx]
    exact stopAll_st hc hr
  · rw [endStep_ctx]
    exact stopAll_idle hr
  · rw [endStep_mem, stopAll_log]
    rfl

/-- The contexts of a task that has stopped, with nothing left to drain, turn to SAVING (R113). -/
theorem taskSave_begins (hf : s.focus = .ev x y z v d) (hk : s.tasks.get? x = some k) (hst : k.st = .bound) (ha : k.accepted = true)
    (hs : s.allStopped k = true) (hr : k.region = none) (hb : s.cmdsBusy k = false)
    (hq : ∀ w c, (w, c) ∈ k.ctxs → (s.ctx (ctxKey k.tile c)).sq = [] ∧ (s.ctx (ctxKey k.tile c)).async = []) :
    ∃ t u, exec .taskSave s = .next t ∧ t.tasks.get? x = some u ∧ u.st = .saving ∧ u.areas = k.areas ∧ u.ctxs = k.ctxs ∧
      (∀ w, w ∈ u.held ↔ ∃ c, (w, c) ∈ k.ctxs ∧ (s.ctx (ctxKey k.tile c)).st = .held) ∧
      (∀ w c, (w, c) ∈ k.ctxs → (t.ctx (ctxKey k.tile c)).st = .saving) ∧ t.mem = Mem.flush s.mem s.log := by
  have hsave : s.taskSave x = s.saveBegin x k := by simp [State.taskSave, hk, hst, ha, hs]
  have hexec := exec_taskSave hf
  rw [hsave, saveBegin_quiet hr hb hq] at hexec
  obtain ⟨htasks, hlog⟩ := Prod.mk.inj
    (eachCtx_keeps (f := State.saveCtx) (k := k) (fun u : State => (u.tasks, u.log)) saveCtx_tasks_log s)
  have hu := updTask_get ((congrArg (Map.get? · x) htasks).trans hk)
  refine ⟨_, _, hexec, hu _, rfl, rfl, rfl, fun w => ?_, fun w c hc => ?_, ?_⟩
  · simp
  · rw [endStep_ctx, updTask_ctx]
    exact eachCtx_at (f := State.saveCtx) (P := fun c => c.st = .saving) (fun u _ _ h => saveCtx_ctx_other u h) saveCtx_ctx_same s hc
  · rw [endStep_mem, updTask_log, hlog]

/-- Once the images of a task are written its contexts are free (R113). -/
theorem taskSave_ends (hf : s.focus = .ev x y z v d) (hk : s.tasks.get? x = some k) (he : s.deps.get? k.dep = some e)
    (hen : e.ending = none) (hst : k.st = .saving) (hr : k.region = none) :
    ∃ t u, exec .taskSave s = .next t ∧ t.tasks.get? x = some u ∧ u.st = .saved ∧ u.areas = k.areas ∧ u.ctxs = k.ctxs ∧
      ∀ w c, (w, c) ∈ k.ctxs → (t.ctx (ctxKey k.tile c)).st = .free := by
  have hsave : s.taskSave x = s.saveEnd x k := by simp [State.taskSave, hk, hst]
  have hexec := exec_taskSave hf
  rw [hsave, saveEnd_alive he hen hr] at hexec
  have htasks : ((s.saveImages k).eachCtx k State.freeCtx).tasks = s.tasks :=
    (eachCtx_keeps (f := State.freeCtx) State.tasks freeCtx_tasks _).trans (saveImages_tasks s k)
  have hu := updTask_get ((congrArg (Map.get? · x) htasks).trans hk)
  refine ⟨_, _, hexec, hu _, rfl, rfl, rfl, fun w c hc => ?_⟩
  rw [endStep_ctx, updTask_ctx]
  exact eachCtx_at (f := State.freeCtx) (P := fun c => c.st = .free) (fun u _ _ h => freeCtx_ctx_other u h) freeCtx_ctx_same _ hc

/-- A saved task that its home can take runs there again (R45, R114). -/
theorem taskRebind_returns (hf : s.focus = .ev x y z v d) (hk : s.tasks.get? x = some k) (he : s.deps.get? k.dep = some e)
    (hst : k.st = .saved) (hen : e.ending = none) (hl : s.levelRuns e.part = true)
    (hc : s.canTake k.ctxs.length k.region.isSome k.tile = true) (hr : k.region = none)
    (hv : ∀ w c, (w, c) ∈ k.ctxs → imgValid (s.bytes (s.areaPa e.part
      (((k.areas.find? (fun a => a.1 = w)).map Prod.snd).getD 0)) 4096) = true) :
    ∃ t u, exec .taskRebind s = .next t ∧ t.tasks.get? x = some u ∧ u.st = .bound ∧
      u.ctxs = (k.ctxs.map Prod.fst).zip ((s.freeCtxs k.tile).take k.ctxs.length) ∧
      ∀ w c, (w, c) ∈ u.ctxs → (t.ctx (ctxKey k.tile c)).task = some x := by
  obtain ⟨pa, hpa⟩ : ∃ pa : Nat → Nat, pa = fun w => s.areaPa e.part (((k.areas.find? (fun a => a.1 = w)).map Prod.snd).getD 0) :=
    ⟨_, rfl⟩
  obtain ⟨u, hu⟩ : ∃ u : State, u = s.restoreAll x k e pa ((k.ctxs.map fun p => (p.1, s.bytes (pa p.1) 4096)).zip
    ((s.freeCtxs k.tile).take k.ctxs.length)) := ⟨_, rfl⟩
  have htask : (u.freeAreasOf e.part k).tasks.get? x = some k := by
    rw [hu]
    exact (congrArg (Map.get? · x) (restoreAll_tasks ..)).trans hk
  have hexec := exec_taskRebind hf hk he hst hen hl hc hr
  rw [rebindTask_none hpa (by rw [hpa]; exact hv) rfl hu] at hexec
  refine ⟨_, _, hexec, updTask_get htask _, rfl, rfl, fun w c hc => ?_⟩
  rw [endStep_ctx, updTask_ctx, hu]
  exact restoreAll_task s (mem_zip_map_fst (fun w => s.bytes (pa w) 4096) hc)

end TaskEventClauses

/-- Settles O45, event by event: what the event does is rewritten as a step on each context of the task between two updates of
the task's entry, and what such a step leaves of a context, it leaves of all of them. -/
theorem taskEvents : Obligations.TaskEvents := by
  unfold Obligations.TaskEvents
  intro s x y z v d hf
  refine ⟨?bind, ?fetch, ?retire, ?alone, ?yields, ?accept, ?saves, ?saved, ?rebind⟩
  case bind =>
    intro e h he hst hen hy hl ht hc hh hw hr
    have hexec := exec_taskBind hf
    rw [taskBind_home he hst hen hy hl ht hc hh hw hr] at hexec
    obtain ⟨k, hk, ⟨hdep, hval, htile, hkst, hreg, hctxs⟩, hstarts⟩ := bind_starts (x := x) (y := y) (e := e) (h := h) rfl
    exact ⟨_, k, hexec, rfl, hk, hdep, hval, htile, hkst, hreg, hctxs, hstarts⟩
  case fetch =>
    intro img u hv hr
    have hexec := exec_configFetchComplete hf
    rw [cfgFetchDone_of_ok hv hr] at hexec
    exact ⟨_, hexec, rfl, cfgInstall_stands⟩
  case retire =>
    intro k hk hst hc hb
    obtain ⟨u, hexec, htasks, hlog, hown⟩ := exec_taskRetire hf hk hst hc hb
    obtain ⟨hgone, hothers⟩ := retire_frees (s := s) htasks
    exact ⟨_, hexec, hgone, hothers, hown, by rw [endStep_mem, hlog]⟩
  case alone =>
    intro k e hk he hst hc hq hs hd
    exact ⟨_, exec_quantumExpiry_alone hf hk he hst hc hq hs hd, updTask_get hk _, fun c => updTask_ctx ..⟩
  case yields =>
    intro k e mine hk he hst hc hp hq hm hr
    exact ⟨_, exec_quantumExpiry_yields hf hk he hst hc hq hm hr, requestPreempt_of_get hk hst hp⟩
  case accept =>
    intro k e hk he hst hp ha hn
    exact preemptAccept_stops hf hk he hst hp ha hn
  case saves =>
    intro k hk hst ha hs hr hb hq
    exact taskSave_begins hf hk hst ha hs hr hb hq
  case saved =>
    intro k e hk he hen hst hr
    exact taskSave_ends hf hk he hen hst hr
  case rebind =>
    intro k e hk he hst hen hl hc hr hv
    exact taskRebind_returns hf hk he hst hen hl hc hr hv

end Sys2Proof.Machine

/-! ## General and control registers (O5, O6) -/

namespace Sys2Proof.Machine

section RegisterCommit

/-- Before the first repeated register, every write is of a new one. -/
theorem firstWrites_unrepeated {p q : List (Nat × Nat × Option W64)} (hp : (p.map (fun x => x.2.1)).Nodup) :
    p.zipIdx.find? (fun x => ((p ++ q).take x.2).any (fun w => w.2.1 = x.1.2.1)) = none := by
  refine List.find?_eq_none.mpr fun x hx => ?_
  obtain ⟨hlt, hget⟩ := List.mem_zipIdx' hx
  rw [List.take_append_of_le_length hlt.le]
  simp only [List.any_eq_true, decide_eq_true_eq, not_exists, not_and]
  intro w hw he
  obtain ⟨j, hj, rfl⟩ := List.mem_take_iff_getElem.mp hw
  have hjx : j < x.2 := by omega
  refine absurd (hp.getElem_inj_iff (i := j) (j := x.2) (hi := by simp; omega) (hj := by simpa using hlt) |>.mp ?_) (by omega)
  simpa [hget] using he

/-- The first write of a register that stands written already is the second one (R288). -/
theorem secondWrite_of_repeat {p q : List (Nat × Nat × Option W64)} {i r : Nat} {w : Option W64}
    (hp : (p.map (fun x => x.2.1)).Nodup) (hr : r ∈ p.map (fun x => x.2.1)) :
    secondWrite (p ++ (i, r, w) :: q) = some i := by
  obtain ⟨o, ho, he⟩ := List.mem_map.mp hr
  have hrepeat : ((p ++ (i, r, w) :: q).take p.length).any (fun o => o.2.1 = r) = true := by
    rw [List.take_left]
    exact List.any_eq_true.mpr ⟨o, ho, by simpa using he⟩
  rw [secondWrite, List.zipIdx_append, List.find?_append, firstWrites_unrepeated hp, Option.none_or, List.zipIdx_cons,
    Nat.zero_add, List.find?_cons_of_pos (by simpa using hrepeat)]
  rfl

variable {s : State} {b : Blk} {key i : Nat}

/-- A block with one exit at most that wrote a register twice fails that check, and no other. -/
theorem conflicts_of_secondWrite (hw : secondWrite b.writes = some i) (hx : b.exits.length ≤ 1) :
    b.conflicts = [{ code := .slotConflict, idx := some i, late := true }] := by
  have hexits : ∀ (x y : Nat × Nat × ExitKind × W64 × W64) l, b.exits ≠ x :: y :: l := fun x y l h => by
    rw [h] at hx
    simp at hx
  unfold Blk.conflicts
  rw [hw]
  split
  next h => exact absurd h (hexits _ _ _)
  next => rfl

theorem ready_of_conflicts (h : b.conflicts ≠ []) : b.ready = false := by
  simp [Blk.ready, h]

/-- A block that ends without its conditions raises the check it fails (R102, R288). -/
theorem commitTry_of_failed (hb : s.blks.get? key = some b) (he : s.blockEnds key b = true) (hr : b.ready = false)
    (hk : (s.ctx key).kill = false) : s.commitTry key = s.syncFault key b.lateFault := by
  simp [State.commitTry, hb, he, hr, hk]

end RegisterCommit

/-- The answer of an instruction that fires and that nothing can hold back. -/
theorem run_fireSeq_free {s : State} {n : Needs} {e : Env} (H : Fires s n e) (body : Env → State → State) :
    run (fireSeq e.h n body) s = .next (endStep s (body e (s.begun e))) := run_fireSeq H body (fun _ _ => none) rfl

/-- Settles O5: the three instructions through the common firing rule, the commit check through the first repeated write. -/
theorem generalRegisters : Obligations.GeneralRegisters := by
  intro s e r
  refine ⟨fun H => ?get, fun H => ?put, fun H => ?null, ?commit⟩
  case get =>
    have h := run_fireSeq_free H fun e s => s.finish e.key e.idx (if r = 0 then 0 else (s.ctx e.key).g.getD 0 r.toNat)
    rw [begun_ctx] at h
    exact h
  case put => exact run_fireSeq_free H _
  case null => exact run_fireSeq_free H _
  case commit =>
    intro t c z v d b p q i w hf hz hb he hk hx hw hp hr
    have hconf := conflicts_of_secondWrite (hw ▸ secondWrite_of_repeat hp hr) hx
    rw [exec_blockCommit hf, if_neg hz,
      commitTry_of_failed hb he (ready_of_conflicts (by rw [hconf]; exact List.cons_ne_nil _ _)) hk,
      lateFault_of_conflicts (.inl hconf)]

section ControlRegisters

/-- In a table built by one pass over a list, a key has value `v` once some good entry puts it there and no entry changes
it back. -/
theorem foldl_put_get {α β : Type} {f : Map β → α → Map β} {k : Nat} {v : β} {good : α → Prop}
    (hgood : ∀ m a, good a → (f m a).get? k = some v)
    (hkeep : ∀ m a, m.get? k = some v → (f m a).get? k = some v) :
    ∀ (l : List α) (m : Map β), (m.get? k = some v ∨ ∃ a ∈ l, good a) → (l.foldl f m).get? k = some v
  | [], m, h => by simpa using h
  | a :: l, m, h => by
    refine foldl_put_get hgood hkeep l _ ?_
    obtain hm | ⟨x, hx, hg⟩ := h
    · exact .inl (hkeep m a hm)
    · obtain rfl | hx := List.mem_cons.mp hx
      · exact .inl (hgood m _ hg)
      · exact .inr ⟨x, hx, hg⟩

/-- Two registers of contexts have one place in the plan's table only if they are one (12-bit numbers). -/
theorem csrPlace_inj {k k' : Nat} {n n' : BitVec 12} (h : 4096 * k + n.toNat = 4096 * k' + n'.toNat) : k = k' ∧ n = n' := by
  have h1 := n.isLt
  have h2 := n'.isLt
  exact ⟨by omega, BitVec.eq_of_toNat_eq (by omega)⟩

/-- What the plan's pass over the cycle's issues does for one of them (R80). -/
theorem csrReads_get {s : State} {l : List (Nat × Nat × Nat)} {t c i : Nat} {h : Head} {n : BitVec 12}
    (hl : (t, c, i) ∈ l) (hi : s.actInstr (.fire t c i) = some (.csrr h n)) :
    (s.csrReads l).get? (4096 * ctxKey t c + n.toNat) = some (w64 (s.csrRead (ctxKey t c) n.toNat)) := by
  refine foldl_put_get (good := fun f => f = (t, c, i)) ?_ ?_ l [] (.inr ⟨_, hl, rfl⟩)
  · rintro m _ rfl
    simp only [hi]
    exact (map_get_put ..).trans (if_pos rfl)
  · intro m f hm
    dsimp only
    split
    next n' _ =>
      rw [map_get_put]
      split
      next he =>
        obtain ⟨hk, rfl⟩ := csrPlace_inj he
        rw [hk]
      next => exact hm
    next => exact hm

@[simp] theorem begun_csrNow (s : State) (e : Env) : (s.begun e).csrNow = s.csrNow := by rw [begun_fields]

theorem csrCheck_ok_of_low {c : Ctx} {word : W64} {n : Nat} (hn : csrLow n = true) (hu : csrUser c n = true) :
    csrCheck c word n false = none := by
  simp [csrCheck, hn, hu]

theorem csrCheck_unlisted {c : Ctx} {word : W64} {n : Nat} {write : Bool} (h : (csrLow n || csrListed n) = false) :
    csrCheck c word n write = some { code := .reservedField, addr := w64 n, extra := word } := by
  simp [csrCheck, h]

theorem csrCheck_forbidden {c : Ctx} {word : W64} {n : Nat} {write : Bool} (h : (csrLow n || csrListed n) = true)
    (hp : ((write && !csrRw n) || (!c.sup && !csrUser c n)) = true) :
    csrCheck c word n write = some { code := .privilege, addr := w64 n, extra := word } := by
  rw [csrCheck, h, hp]
  rfl

variable {s : State} {e : Env} {num : BitVec 12}

/-- CSRR, its check passed. -/
theorem exec_csrr_of_check (H : Fires.of s (.csrr e.h num) e) (hc : csrCheck (s.ctx e.key) e.word num.toNat false = none) :
    exec (.csrr e.h num) s = s.ends e id (if num = 0x030 then w64 e.blk.tmv else if num = 0x040 then w64 e.blk.pbinfo
      else (s.begun e).csrValue e.key num.toNat) := by
  refine (run_fireSeq_free H _).trans ?_
  simp only [begun_ctx, hc]
  rfl

theorem exec_csrr_of_fault (H : Fires.of s (.csrr e.h num) e) {f : Flt}
    (hc : csrCheck (s.ctx e.key) e.word num.toNat false = some f) : exec (.csrr e.h num) s = s.traps e f := by
  refine (run_fireSeq_free H _).trans ?_
  simp only [begun_ctx, hc]
  rfl

variable {mode : Nat}

/-- The form that CSRW, CSRS and CSRC share (R315): the check first, then the value's own rule. -/
theorem run_csrWriteInstr_of_fault (H : Fires s nA e) {f : Flt}
    (hc : csrCheck (s.ctx e.key) e.word num.toNat true = some f) : run (csrWriteInstr e.h num mode) s = s.traps e f := by
  refine (run_fireSeq_free H _).trans ?_
  simp only [begun_ctx, hc]
  rfl

theorem run_csrWriteInstr_of_ok (H : Fires s nA e) (hc : csrCheck (s.ctx e.key) e.word num.toNat true = none)
    (hv : csrValueOk num.toNat (csrNew mode (w64 ((s.begun e).csrRead e.key num.toNat)) e.a) = true) :
    run (csrWriteInstr e.h num mode) s =
      s.endsNone e (fun t => t.updBlk e.key (fun b => { b with csrw := b.csrw ++ [(e.idx, num.toNat, e.a, mode)] })) := by
  refine (run_fireSeq_free H _).trans ?_
  simp only [begun_ctx, hc, hv, if_true]
  rfl

theorem run_csrWriteInstr_of_bad (H : Fires s nA e) (hc : csrCheck (s.ctx e.key) e.word num.toNat true = none)
    (hv : csrValueOk num.toNat (csrNew mode (w64 ((s.begun e).csrRead e.key num.toNat)) e.a) = false) :
    run (csrWriteInstr e.h num mode) s =
      s.traps e { code := .reservedField, addr := w64 num.toNat, extra := e.word } := by
  refine (run_fireSeq_free H _).trans ?_
  simp only [begun_ctx, hc, hv, Bool.false_eq_true, if_false]
  rfl

/-- A CSRR of a cycle's plan answers what the register held when the cycle began (R80). -/
theorem exec_csrr_planned {s0 : State} {l : List (Nat × Nat × Nat)} (hn : s.csrNow = s0.csrReads l)
    (hl : (e.tile, e.ctx, e.idx) ∈ l) (hi : s0.actInstr (.fire e.tile e.ctx e.idx) = some (.csrr e.h num))
    (H : Fires.of s (.csrr e.h num) e) (hc : csrCheck (s.ctx e.key) e.word num.toNat false = none) (h3 : num ≠ 0x030)
    (h4 : num ≠ 0x040) : exec (.csrr e.h num) s = s.ends e id (w64 (s0.csrRead e.key num.toNat)) := by
  have hk := (firing_key H.fires).1
  rw [exec_csrr_of_check H hc, if_neg h3, if_neg h4, State.csrValue, begun_csrNow, hn, hk, csrReads_get hl hi]
  rfl

/-- Outside a cycle's plan it answers the register as it stands. -/
theorem exec_csrr_unplanned (hn : s.csrNow = []) (H : Fires.of s (.csrr e.h num) e)
    (hc : csrCheck (s.ctx e.key) e.word num.toNat false = none) (h3 : num ≠ 0x030) (h4 : num ≠ 0x040) :
    exec (.csrr e.h num) s = s.ends e id (w64 ((s.begun e).csrRead e.key num.toNat)) := by
  rw [exec_csrr_of_check H hc, if_neg h3, if_neg h4, State.csrValue, begun_csrNow, hn]
  rfl

end ControlRegisters

theorem w64_of_toNat (x : W64) : w64 x.toNat = x := BitVec.ofNat_toNat ..

/-- Settles O6: a read through the plan's table, a write through the form that the three write instructions share, a fault
through the check that both make first. -/
theorem controlRegisters : Obligations.ControlRegisters := by
  refine ⟨fun s s0 l e num => ?_, fun s e num => ⟨?_, ?_, ?_, ?_⟩⟩
  · intro planned
    have hread : ∀ n : BitVec 12, csrLow n.toNat = true → csrUser (s.ctx e.key) n.toNat = true → n ≠ 0x030 → n ≠ 0x040 →
        planned n → exec (.csrr e.h n) s = s.ends e id (w64 (s0.csrRead e.key n.toNat)) := by
      rintro n hlow huser h3 h4 ⟨hn, hl, hi, H⟩
      exact exec_csrr_planned hn hl hi H (csrCheck_ok_of_low hlow huser) h3 h4
    refine ⟨?_, ?_, ?fpstat, ?wid, ?taskv, ?ltag, ?incar, ?cycle, ?tmv, ?pbinfo, fun hc => ⟨?_, ?_, ?_⟩⟩
    · rintro hc h3 h4 ⟨hn, hl, hi, H⟩
      exact exec_csrr_planned hn hl hi H hc h3 h4
    · exact fun hc h3 h4 hn H => exec_csrr_unplanned hn H hc h3 h4
    case fpstat => exact fun h => (hread 0x000 rfl rfl (by decide) (by decide) h).trans (congrArg _ (w64_of_toNat _))
    case wid => exact fun h => (hread 0x010 rfl rfl (by decide) (by decide) h).trans (congrArg _ (w64_of_toNat _))
    case taskv => exact fun h => (hread 0x011 rfl rfl (by decide) (by decide) h).trans (congrArg _ (w64_of_toNat _))
    case ltag => exact fun h => (hread 0x012 rfl rfl (by decide) (by decide) h).trans (congrArg _ (w64_of_toNat _))
    case incar => exact hread 0x015 rfl rfl (by decide) (by decide)
    case cycle => exact fun h => (hread 0x020 rfl rfl (by decide) (by decide) h).trans (congrArg _ (w64_of_toNat _))
    case tmv => exact fun H => exec_csrr_of_check H (csrCheck_ok_of_low rfl rfl)
    case pbinfo => exact fun H => exec_csrr_of_check H (csrCheck_ok_of_low rfl rfl)
    · exact fun hv H => run_csrWriteInstr_of_ok H hc hv
    · exact fun hv H => run_csrWriteInstr_of_ok H hc hv
    · exact fun hv H => run_csrWriteInstr_of_ok H hc hv
  · exact fun h => ⟨fun H => exec_csrr_of_fault H (csrCheck_unlisted h),
      fun H => run_csrWriteInstr_of_fault H (csrCheck_unlisted h)⟩
  · intro hsup hl hu
    have hlisted : (csrLow num.toNat || csrListed num.toNat) = true := by rw [hl, Bool.or_true]
    exact ⟨fun H => exec_csrr_of_fault H (csrCheck_forbidden hlisted (by simp [hsup, hu])),
      fun H => run_csrWriteInstr_of_fault H (csrCheck_forbidden hlisted (by simp [hsup, hu]))⟩
  · intro hl hrw
    exact ⟨fun H => run_csrWriteInstr_of_fault H (csrCheck_forbidden hl (by simp [hrw])),
      fun H => run_csrWriteInstr_of_fault H (csrCheck_forbidden hl (by simp [hrw]))⟩
  · intro hsup ha H
    have hc : csrCheck (s.ctx e.key) e.word (0x121#12).toNat true = none := by
      simp [csrCheck, hsup, csrListed, csrRw]
    have hv : csrValueOk (0x121#12).toNat (csrNew 0 (w64 ((s.begun e).csrRead e.key (0x121#12).toNat)) e.a) = false := by
      simpa [csrValueOk, csrNew, bitsOf] using ha
    exact run_csrWriteInstr_of_bad H hc hv

end Sys2Proof.Machine

/-! ## Deliveries, and what stays within the block in flight (O53, O54) -/

namespace Sys2Proof.Machine

section Slots

variable {s : State} {key i dst slot : Nat} {b : Blk} {n : Node} {h : Head} {v : W64}

/-- A delivery finds its slot empty and fills it with what the slot can hold (R78, R290). -/
theorem put_of_empty (he : n.slot slot = none) (hs : slot < 4) : ∃ m, n.put slot v = some m ∧
    m.slot slot = some (slotValue slot v) ∧ ∀ q, q ≠ slot → q < 4 → m.slot q = n.slot q := by
  obtain ⟨a, b, p, o, st⟩ := n
  match slot, hs with
  | 0, _ =>
    obtain rfl : a = none := he
    exact ⟨_, rfl, rfl, fun | 0, hq, _ => absurd rfl hq | 1, _, _ => rfl | 2, _, _ => rfl | 3, _, _ => rfl⟩
  | 1, _ =>
    obtain rfl : b = none := he
    exact ⟨_, rfl, rfl, fun | 0, _, _ => rfl | 1, hq, _ => absurd rfl hq | 2, _, _ => rfl | 3, _, _ => rfl⟩
  | 2, _ =>
    obtain rfl : p = none := Option.map_eq_none_iff.mp he
    exact ⟨_, rfl, rfl, fun | 0, _, _ => rfl | 1, _, _ => rfl | 2, hq, _ => absurd rfl hq | 3, _, _ => rfl⟩
  | 3, _ =>
    obtain rfl : o = false := by simpa [Node.slot] using he
    exact ⟨_, rfl, rfl, fun | 0, _, _ => rfl | 1, _, _ => rfl | 2, _, _ => rfl | 3, hq, _ => absurd rfl hq⟩

/-- A slot that holds a delivery takes no other (R78). -/
theorem put_of_filled (he : n.slot slot ≠ none) (hs : slot < 4) : n.put slot v = none := by
  obtain ⟨a, b, p, o, st⟩ := n
  match slot, hs with
  | 0, _ => simpa [Node.put, Node.slot, Option.isSome_iff_ne_none] using he
  | 1, _ => simpa [Node.put, Node.slot, Option.isSome_iff_ne_none] using he
  | 2, _ => simpa [Node.put, Node.slot, Option.isSome_iff_ne_none] using he
  | 3, _ => simpa [Node.put, Node.slot] using he

/-- A target names one of four slots (R290). -/
theorem targetOf_slot_lt {t : BitVec 10} (ht : targetOf i t = some (dst, slot)) : slot < 4 := by
  unfold targetOf at ht
  split at ht
  · obtain ⟨-, rfl⟩ := Prod.mk.inj (Option.some.inj ht)
    exact BitVec.isLt _
  · exact absurd ht (by simp)

/-- What of a value reaches a slot: none of it slot o, which takes a token (R290). -/
def slotData (slot : Nat) (v : W64) : W64 := if slot = 3 then 0 else v

theorem slotValue_slotData (hs : slot < 4) : slotValue slot (slotData slot v) = slotValue slot v :=
  match slot, hs with
  | 0, _ | 1, _ | 2, _ | 3, _ => rfl

/-- A value and its token, delivered to a single target. -/
theorem deliver_single (h0 : targetOf i h.t0 = some (dst, slot)) (h1 : targetOf i h.t1 = none) :
    s.deliver key i h (some v) true = s.putSlot key dst slot (slotData slot v) := by
  simp only [State.deliver, State.deliverT, h0, h1, slotData]
  split
  next hs => rw [hs]; rfl
  next => rfl

theorem node_set (b : Blk) (hd : dst < b.nodes.length) (m : Node) (j : Nat) :
    ({ b with nodes := b.nodes.set dst m } : Blk).node j = if j = dst then m else b.node j := by
  simp only [Blk.node, List.getD_eq_getElem?_getD, List.getElem?_set, eq_comm (a := dst)]
  split <;> rfl

/-- A delivery to an empty slot fills it, and no other (R78, R290). -/
theorem deliver_fills (hb : s.blks.get? key = some b) (h0 : targetOf i h.t0 = some (dst, slot))
    (h1 : targetOf i h.t1 = none) (hd : dst < b.nodes.length) (he : (b.node dst).slot slot = none) :
    ∃ b', (s.deliver key i h (some v) true).blks.get? key = some b' ∧ (b'.node dst).slot slot = some (slotValue slot v) ∧
      (∀ q, q ≠ slot → q < 4 → (b'.node dst).slot q = (b.node dst).slot q) ∧ ∀ j, j ≠ dst → b'.node j = b.node j := by
  have hs := targetOf_slot_lt h0
  obtain ⟨m, hput, hval, hother⟩ := put_of_empty (v := slotData slot v) he hs
  refine ⟨{ b with nodes := b.nodes.set dst m }, ?_, ?_, fun q hq hq4 => ?_, fun j hj => ?_⟩
  · rw [deliver_single h0 h1]
    simp only [State.putSlot, hb, hput, map_get_put, if_pos]
  · rw [node_set b hd, if_pos rfl, hval, slotValue_slotData hs]
  · rw [node_set b hd, if_pos rfl, hother q hq hq4]
  · rw [node_set b hd, if_neg hj]

/-- A second delivery to a slot is a fault of its target (R78; the index is the model's, log 18). -/
theorem deliver_conflicts (hb : s.blks.get? key = some b) (h0 : targetOf i h.t0 = some (dst, slot))
    (h1 : targetOf i h.t1 = none) (he : (b.node dst).slot slot ≠ none) : s.deliver key i h (some v) true =
      s.syncFault key { code := .slotConflict, extra := w64 slot, idx := some dst } := by
  rw [deliver_single h0 h1]
  simp only [State.putSlot, hb, put_of_filled he (targetOf_slot_lt h0)]

end Slots

section Firing

/-- An instruction that goes through the common firing rule: its own effect, and what may hold it back. -/
def FiresBy (x : Instr) (h : Head) (body : Env → State → State) (hold : Env → State → Option State) : Prop :=
  ∀ s, exec x s = run (fun s => fireSeq h (readsOf x) body s hold) s

variable {s : State} {x : Instr} {h : Head} {body : Env → State → State} {hold : Env → State → Option State} {t c i : Nat}

/-- An instruction whose predicate bars it is nullified (R78). -/
theorem FiresBy.nullify (hx : FiresBy x h body hold) (hf : s.focus = .seq t c i)
    (hn : s.firing t c i h (readsOf x) = .nullify) :
    exec x s = .next (endStep s (s.setStat (ctxKey t c) i .nullified)) := by
  rw [hx]
  simp only [run, fireSeq, hf, hn]

/-- One that lacks a delivery does nothing (R78). -/
theorem FiresBy.notReady (hx : FiresBy x h body hold) (hf : s.focus = .seq t c i)
    (hn : s.firing t c i h (readsOf x) = .notReady) : exec x s = .next (endStep s s) := by
  rw [hx]
  simp only [run, fireSeq, hf, hn]

/-- An irrevocable one whose result stands recorded delivers it again, and has no effect of its own (R110). -/
theorem FiresBy.replay {e : Env} {r : W64} (hx : FiresBy x h body hold) (hf : s.focus = .seq e.tile e.ctx e.idx)
    (hn : s.firing e.tile e.ctx e.idx h (readsOf x) = .fire e) (hi : irrevocable e.word = true)
    (ht : tokenOnly e.word = false) (hr : irvFind (s.ctx e.key).irv e.idx = some r) : exec x s = .next (endStep s
      (((s.count e.tile 3 (ctx := some e.ctx)).deliver e.key e.idx h (some r) true).setStat e.key e.idx .done)) := by
  rw [hx]
  simp only [run, fireSeq, hf, hn, hi, ht, hr, if_true, Bool.false_eq_true, if_false]

end Firing

/-- Settles O53: one delivery by its slot, the rest by what the common firing rule comes to. -/
theorem deliveries : Obligations.Deliveries := by
  intro s e key i dst slot b h v r
  refine ⟨fun hb h0 h1 hd => ⟨fun he => ?_, fun he => deliver_conflicts hb h0 h1 he⟩, fun hf x hx => ?_,
    fun hf hi ht hr x hx hn => ?_⟩
  · obtain ⟨b', hget, hval, hslots, hnodes⟩ := deliver_fills (v := v) hb h0 h1 hd he
    exact ⟨b', hget, hval, hslots, hnodes, (DeliversAt.deliver key i s h (some v) true).blks⟩
  · have hfires : ∃ body hold, FiresBy x h body hold := by
      simp only [List.mem_cons, List.not_mem_nil, or_false] at hx
      obtain rfl | rfl | rfl | rfl | rfl | rfl | rfl | rfl := hx <;> exact ⟨_, _, fun _ => rfl⟩
    obtain ⟨body, hold, hfires⟩ := hfires
    exact ⟨hfires.nullify hf, hfires.notReady hf⟩
  · have hfires : ∃ body hold, FiresBy x h body hold := by
      simp only [List.mem_cons, List.not_mem_nil, or_false] at hx
      obtain rfl | rfl | rfl | rfl := hx <;> exact ⟨_, _, fun _ => rfl⟩
    obtain ⟨body, hold, hfires⟩ := hfires
    exact hfires.replay hf hn hi ht hr

/-! ### Frames -/

/-- Nothing but the block in flight, a raised fault and the performance counters has changed, the bytes that the step has
written so far among what has not. -/
structure InBlock (s t : State) : Prop where
  regs : SameRegs s t
  rest : t = { s with blks := t.blks, ctxs := t.ctxs, tiles := t.tiles }

namespace InBlock

variable {s t u : State}

theorem refl (s : State) : InBlock s s := ⟨⟨fun _ => rfl, fun _ => rfl⟩, rfl⟩

theorem trans (h : InBlock s t) (g : InBlock t u) : InBlock s u where
  regs := ⟨fun k => (g.regs.ctxs k).trans (h.regs.ctxs k), fun k => (g.regs.tiles k).trans (h.regs.tiles k)⟩
  rest := by rw [g.rest, h.rest]

/-- What changes only the blocks in flight. -/
theorem of_blks (h : t = { s with blks := t.blks }) : InBlock s t := by
  rw [h]
  exact ⟨⟨fun _ => rfl, fun _ => rfl⟩, rfl⟩

theorem updBlk (s : State) (key : Nat) (f : Blk → Blk) : InBlock s (s.updBlk key f) := by
  refine of_blks ?_
  unfold State.updBlk
  split <;> rfl

theorem setStat (s : State) (key i : Nat) (st : NStat) : InBlock s (s.setStat key i st) := updBlk ..

theorem count (s : State) (t ev add : Nat) (c k : Option Nat) : InBlock s (s.count t ev c k add) where
  regs := ⟨fun k => by rw [count_ctx], fun j => count_tile ..⟩
  rest := by rw [count_fields]

theorem begun (s : State) (e : Env) : InBlock s (s.begun e) := (setStat ..).trans (count ..)

theorem syncFault (s : State) (key : Nat) (f : Flt) : InBlock s (s.syncFault key f) where
  regs.ctxs k := by
    rw [State.syncFault, updCtx_ctx]
    split
    next hk =>
      subst hk
      cases (s.ctx key).sync with
      | none => rfl
      | some g =>
        dsimp only
        split <;> rfl
    next => rfl
  regs.tiles _ := rfl
  rest := rfl

theorem putSlot (s : State) (key dst slot : Nat) (v : W64) : InBlock s (s.putSlot key dst slot v) := by
  unfold State.putSlot
  split
  · exact refl s
  · split
    · exact of_blks rfl
    · exact syncFault ..

theorem deliverT (s : State) (key i : Nat) (v : Option W64) (tok : Bool) (t : BitVec 10) :
    InBlock s (s.deliverT key i v tok t) := by
  unfold State.deliverT
  split
  · exact refl s
  · split
    · split
      · exact putSlot ..
      · exact refl s
    · split
      · exact putSlot ..
      · exact refl s

theorem deliver (s : State) (key i : Nat) (h : Head) (v : Option W64) (tok : Bool) :
    InBlock s (s.deliver key i h v tok) := (deliverT ..).trans (deliverT ..)

/-- A result that no irrevocable instruction gives is not recorded (R84). -/
theorem finish {key i : Nat} (h : irrevocable (s.wordAt key i) = false) (v : W64) : InBlock s (s.finish key i v) := by
  have hr : s.record key i v = s := by simp [State.record, h]
  rw [State.finish, hr]
  exact (deliver ..).trans (setStat ..)

theorem fireExit (e : Env) (x : Nat) (kind : ExitKind) (target : W64) (s : State) :
    InBlock s (Machine.fireExit e x kind target s fun s => s.finishNone e.key e.idx) := (updBlk ..).trans (setStat ..)

theorem fireExitAligned (e : Env) (x : Nat) (target : W64) (s : State) :
    InBlock s (Machine.fireExitAligned e x target s fun s => s.finishNone e.key e.idx) := by
  unfold Machine.fireExitAligned
  split
  · exact syncFault ..
  · exact fireExit ..

/-- A step that wrote no byte and stays within the block. -/
theorem onlyBlock (h : InBlock s u) (hl : s.log = []) : OnlyBlock s (endStep s u) := by
  have hu : u.log = [] := by rw [h.rest, hl]
  refine ⟨fun a => ?_, ⟨h.regs.ctxs, h.regs.tiles⟩, ?_⟩
  · rw [endStep_mem, hu]
    rfl
  · rw [h.rest]
    rfl

end InBlock

theorem begun_wordAt {s : State} {n : Needs} {e : Env} (H : Fires s n e) : (s.begun e).wordAt e.key e.idx = e.word := by
  simp only [State.wordAt, begun_blk H, (firing_blk H.fires).2]

section ValueFrames

variable {s t : State} {e : Env} {i : Instr}

/-- An instruction whose own effect stays within the block in flight. -/
theorem onlyBlock_of_effect {body : Env → State → State} (hl : s.log = []) (H : Fires.of s i e)
    (hi : FiresBy i e.h body fun _ _ => none) (hb : InBlock (s.begun e) (body e (s.begun e))) (ht : exec i s = .next t) :
    OnlyBlock s t := by
  rw [hi s, run_fireSeq_free H body] at ht
  cases ht
  exact ((InBlock.begun s e).trans hb).onlyBlock hl

/-- One that delivers a value computed from its slots. -/
theorem onlyBlock_of_value {f : Env → W64} (hl : s.log = []) (hi : ∀ s, exec i s = run (fireVal e.h (readsOf i) f) s)
    (H : Fires.of s i e) (ht : exec i s = .next t) : OnlyBlock s t :=
  onlyBlock_of_effect hl H hi ((InBlock.deliver ..).trans (.setStat ..)) ht

end ValueFrames

/-- Settles O54: an instruction that computes a value by what a delivery can change, the six others by their own effect. -/
theorem valueFrames : Obligations.ValueFrames := by
  intro s t e w imm k c ofs r hl hirv i hi H ht
  simp only [List.mem_cons, List.not_mem_nil, or_false] at hi
  -- The 51 instructions that compute a value come first in the list.
  iterate 51
    rcases hi with rfl | hi
    · exact onlyBlock_of_value hl (fun _ => rfl) H ht
  obtain rfl | rfl | rfl | rfl | rfl | rfl := hi
  · exact onlyBlock_of_effect hl H (fun _ => rfl) (.finish ((begun_wordAt H).symm ▸ hirv) _) ht
  · exact onlyBlock_of_effect hl H (fun _ => rfl) ((InBlock.updBlk ..).trans (.setStat ..)) ht
  · exact onlyBlock_of_effect hl H (fun _ => rfl) ((InBlock.updBlk ..).trans (.setStat ..)) ht
  · exact onlyBlock_of_effect hl H (fun _ => rfl) (.fireExit ..) ht
  · exact onlyBlock_of_effect hl H (fun _ => rfl) (.fireExitAligned ..) ht
  · exact onlyBlock_of_effect hl H (fun _ => rfl) (.fireExit ..) ht

end Sys2Proof.Machine

/-! ## Commands to a context, and register windows (O47) -/

namespace Sys2Proof.Machine

/-! ### Commands -/

section Commands

variable {s : State} {x y z key : Nat} {v : W64} {d : List Byte}

/-- An event that names a context acts on it (R95). -/
theorem run_evCtx (hf : s.focus = .ev x y z v d) (f : Nat → W64 → State → State) :
    run (evCtx f) s = .next (endStep s (f (ctxKey x y) v s)) := by
  simp only [run, evCtx, hf]

theorem ctxResume_of_held (hh : (s.ctx key).st = .held) : s.ctxResume key =
    (s.resumeFault key).updCtx key fun c => { c with st := s.backTo key, fqPend := false } := if_pos hh

/-- The frame of a context with its irrevocable image discarded (R95, R98). -/
def State.imageCleared (s : State) (key : Nat) : State := s.wrWords (framePa key + 0x40) (List.replicate 16 0)

theorem ctxRedirect_of_held (hh : (s.ctx key).st = .held) (target : W64) : s.ctxRedirect key target =
    (s.imageCleared key).updCtx key fun c =>
      { c with
        st := s.backTo key, inh := false, next := target, irv := List.replicate 8 none, fqPend := false, replaying := false,
        async := c.async.map (fun f => { f with behind := false }) } := if_pos hh

theorem imageCleared_log (s : State) (key : Nat) : s.imageCleared key = { s with log := (s.imageCleared key).log } :=
  wrWords_log ..

theorem imageCleared_ctx (s : State) (key j : Nat) : (s.imageCleared key).ctx j = s.ctx j :=
  ctx_of_ctxs (by rw [imageCleared_log]) j

theorem imageCleared_mem (s : State) (key : Nat) : (s.imageCleared key).mem = s.mem := by rw [imageCleared_log]

/-- Sixteen words of 0 are 128 bytes of 0. -/
theorem imageCleared_byte (s : State) (key : Nat) {i : Nat} (hi : i < 128) :
    (s.imageCleared key).byte (framePa key + 0x40 + i) = 0 := by
  have hb : wordBytes (List.replicate 16 0) = List.replicate 128 0 := rfl
  rw [State.imageCleared, wrWords_eq_wrBytes, hb, byte_wrBytes, List.length_replicate, if_pos (by omega),
    Nat.add_sub_cancel_left]
  exact List.getD_replicate _ hi

/-! ### KILL -/

variable {i status : Nat} {cause : FCode}

/-- A strand is to end at its next block boundary (R95). -/
def State.markKill (s : State) (key : Nat) : State := s.updCtx key fun c => { c with kill := true }

theorem markKill_kill {j : Nat} (h : (s.ctx key).kill = true) : ((s.markKill j).ctx key).kill = true := by
  rw [State.markKill, updCtx_ctx]
  split
  · rfl
  · exact h

/-- What the end of a launch does to a task: a saved one of it is forgotten, the strands of a bound one are to be killed. -/
def State.condemnTask (i : Nat) (s : State) (p : Nat × Task) : State :=
  if p.2.dep ≠ i then s
  else if p.2.st = .saved then s.dropTask p.1 p.2
  else s.eachCtx p.2 State.markKill

theorem condemnTask_deps (s : State) (p : Nat × Task) : (s.condemnTask i p).deps = s.deps := by
  unfold State.condemnTask
  split
  · rfl
  · split
    · rfl
    · exact eachCtx_keeps (f := State.markKill) State.deps (fun _ _ => rfl) s

/-- A strand that is to be killed stays so. -/
theorem condemnTask_kill (p : Nat × Task) (h : (s.ctx key).kill = true) : ((s.condemnTask i p).ctx key).kill = true := by
  unfold State.condemnTask
  split
  · exact h
  · split
    · exact h
    · exact List.foldlRecOn p.2.ctxs _ (motive := fun u : State => (u.ctx key).kill = true) h fun _ hu _ _ =>
        markKill_kill hu

theorem condemn_kill (h : (s.ctx key).kill = true) : ((s.condemn i status cause).ctx key).kill = true := by
  refine List.foldlRecOn _ (State.condemnTask i) (motive := fun u : State => (u.ctx key).kill = true) ?_
    fun u hu p _ => condemnTask_kill p hu
  rw [updDep_fields]
  exact h

/-- A launch that was not ending ends with the status given. -/
theorem condemn_ending {e : Dep} (he : s.deps.get? i = some e) (hn : e.ending = none) :
    ∃ e', (s.condemn i status cause).deps.get? i = some e' ∧ e'.ending = some status := by
  refine ⟨{ e.fld 0 60 3 2 with ending := some status, cause := cause }, ?_, rfl⟩
  refine (congrArg (Map.get? · i) (foldl_keeps (f := State.condemnTask i) State.deps condemnTask_deps _ _)).trans ?_
  simp only [State.updDep, he, hn, State.setDep]
  exact (map_get_put ..).trans (if_pos rfl)

variable {k : Task}

theorem ctxKill_of_held (ht : (s.ctx key).task = some i) (hk : s.tasks.get? i = some k) (hh : (s.ctx key).st = .held) :
    s.ctxKill key = (s.killStrand key).condemn k.dep 1 (codeOf (s.rd (framePa key) 1)) := by
  simp [State.ctxKill, ht, hk, hh]

theorem ctxKill_of_run (ht : (s.ctx key).task = some i) (hk : s.tasks.get? i = some k) (hr : (s.ctx key).st = .run) :
    s.ctxKill key = (s.markKill key).condemn k.dep 3 .trap := by
  simp [State.ctxKill, State.markKill, ht, hk, hr]

/-! ### PREEMPT -/

theorem requestPreempt_log (s : State) (i : Nat) : (s.requestPreempt i).log = s.log := by
  unfold State.requestPreempt
  split
  · rfl
  · split
    · rfl
    · refine (foldl_keeps State.log (fun _ _ => ?_) _ _).trans ?_
      · rfl
      · exact updTask_log ..

end Commands

/-! ### Stores to the register windows -/

section WindowStores

variable {s u : State} {t off : Nat} {v : W64}

/-- Eight bytes replace a word whole. -/
theorem splice_whole (w v : W64) : splice w 0 8 v = v := by
  have hw := w.isLt
  have hv := v.isLt
  refine BitVec.eq_of_toNat_eq ?_
  rw [splice, w64_toNat]
  simp only [setBits, bitsOf, Nat.mul_zero, Nat.pow_zero, Nat.div_one, Nat.mul_one, Nat.reduceMul]
  omega

/-- A store of an aligned word that the window admits, at an offset of a register window. -/
structure StoresWord (s : State) (t off : Nat) : Prop where
  aligned : off % 8 = 0
  idle : s.winBusy t off 8 = false

namespace StoresWord

variable (h : StoresWord s t off)

include h

theorem acc (hoff : off < 0xA00000) : s.winStore t off 8 v = .ok (s.accStore t off v) := by
  have ho : off / 8 * 8 = off := by have := h.aligned; omega
  simp only [State.winStore, h.idle, h.aligned, splice_whole, ho, Bool.false_eq_true, if_false, if_pos hoff]

theorem elem (hlo : 0xA00000 ≤ off) (hhi : off < 0xB00000) : s.winStore t off 8 v = .ok (s.elemStore t off v) := by
  have ho : off / 8 * 8 = off := by have := h.aligned; omega
  simp only [State.winStore, h.idle, h.aligned, splice_whole, ho, Bool.false_eq_true, if_false, Nat.not_lt.mpr hlo, if_pos hhi]

theorem ctx (hlo : 0xB00000 ≤ off) (hhi : off < 0xC00000) : s.winStore t off 8 v = .ok (s.gStore t off v) := by
  have ho : off / 8 * 8 = off := by have := h.aligned; omega
  simp only [State.winStore, h.idle, h.aligned, splice_whole, ho, Bool.false_eq_true, if_false]
  rw [if_neg (by omega), if_neg (by omega), if_pos hhi]

theorem bar (hlo : 0xE01000 ≤ off) (hhi : off < 0xE01C00) : s.winStore t off 8 v = s.barStore t off v := by
  have ho : off / 8 * 8 = off := by have := h.aligned; omega
  simp only [State.winStore, h.idle, h.aligned, splice_whole, ho, Bool.false_eq_true, if_false]
  rw [if_neg (by omega), if_neg (by omega), if_neg (by omega), if_neg (by omega), if_neg (by omega), if_neg (by omega),
    if_pos hhi]

/-- A window event whose store goes through. -/
theorem event {lo hi : Nat} {d : List Byte} (hf : s.focus = .ev t off 8 v d) (hlo : lo ≤ off) (hhi : off < hi)
    (hok : windowOk off = true) (hs : s.winStore t off 8 v = .ok u) : run (winEvent lo hi) s = .next (endStep s u) := by
  have ha := h.aligned
  simp only [run, winEvent, hf, hlo, hhi, hok, hs, ha, decide_true, Bool.and_self, Nat.reduceLeDiff, Nat.zero_add,
    Nat.le_refl, if_true]

end StoresWord

/-- A word of the accumulator window is two elements of a row (R91). -/
theorem accStore_acc (hoff : off < 0x820000) : 
    ((s.accStore t off v).acc (4 * t + (off - 0x800000) / 0x8000)).c.getD 0 (off % 0x8000 / 4) = v.extractLsb' 0 32 ∧
    ((s.accStore t off v).acc (4 * t + (off - 0x800000) / 0x8000)).c.getD 0 (off % 0x8000 / 4 + 1) = v.extractLsb' 32 32 ∧
    ∀ k, k ≠ 4 * t + (off - 0x800000) / 0x8000 → (s.accStore t off v).acc k = s.acc k := by
  simp only [State.accStore, if_pos hoff, updAcc_acc]
  refine ⟨?_, ?_, fun k hk => if_neg (Ne.symm hk)⟩
  · simp [map_getD_put]
  · simp [map_getD_put]

/-- A word below 0x40 of an element is one of its registers (R87). -/
theorem elemStore_elem (hoff : off % 128 < 0x40) :
    ((s.elemStore t off v).elem (64 * t + (off - 0xA00000) / 128)).e.getD 0 (off % 128 / 8) = v ∧
    (∀ r, r ≠ off % 128 / 8 → ((s.elemStore t off v).elem (64 * t + (off - 0xA00000) / 128)).e.getD 0 r =
      (s.elem (64 * t + (off - 0xA00000) / 128)).e.getD 0 r) ∧
    ∀ k, k ≠ 64 * t + (off - 0xA00000) / 128 → (s.elemStore t off v).elem k = s.elem k := by
  simp only [State.elemStore, if_pos hoff, setElem_elem, if_true, map_getD_put]
  exact ⟨trivial, fun r hr => if_neg (Ne.symm hr), fun k hk => if_neg (Ne.symm hk)⟩

/-- A word of the context window is a general register, but for G0's (R77). -/
theorem gStore_ctx (hoff : off % 512 ≠ 0) (ha : off % 8 = 0) :
    ((s.gStore t off v).ctx (ctxKey t ((off - 0xB00000) / 512))).g.getD 0 (off % 512 / 8) = v ∧
    (∀ r, r ≠ off % 512 / 8 → ((s.gStore t off v).ctx (ctxKey t ((off - 0xB00000) / 512))).g.getD 0 r =
      (s.ctx (ctxKey t ((off - 0xB00000) / 512))).g.getD 0 r) ∧
    ∀ k, k ≠ ctxKey t ((off - 0xB00000) / 512) → (s.gStore t off v).ctx k = s.ctx k := by
  simp only [State.gStore, if_neg (show off % 512 / 8 ≠ 0 by omega), updCtx_ctx, if_true, map_getD_put]
  exact ⟨trivial, fun r hr => if_neg (Ne.symm hr), fun k hk => if_neg (Ne.symm hk)⟩

/-- Words 1 to 5 of a barrier take any value (R250). -/
theorem barStore_bar (h1 : 1 ≤ off % 64 / 8) (h6 : off % 64 / 8 < 6) : s.barStore t off v =
    .ok (s.setBar (48 * t + (off - 0xE01000) / 64) ((s.bar (48 * t + (off - 0xE01000) / 64)).set (off % 64 / 8) v)) := by
  have h0 : off % 64 / 8 ≠ 0 := by omega
  simp only [State.barStore, h0, decide_false, Bool.false_and, Bool.false_eq_true, if_false, if_neg (Nat.not_le.mpr h6)]

/-- What a window store of these kinds leaves of memory and the log. -/
theorem accStore_log (hoff : off < 0x820000) : (s.accStore t off v).log = s.log := by
  simp only [State.accStore, if_pos hoff]
  rfl

theorem elemStore_log (hoff : off % 128 < 0x40) : (s.elemStore t off v).log = s.log := by
  simp only [State.elemStore, if_pos hoff]
  rfl

theorem gStore_log : (s.gStore t off v).log = s.log := by
  unfold State.gStore
  dsimp only
  split <;> rfl

end WindowStores

/-! ### Loads of a busy accumulator -/

section AccumulatorLoad

theorem cacheAcquire_blks (s : State) (t scope : Nat) : (s.cacheAcquire t scope).blks = s.blks := by
  unfold State.cacheAcquire
  split <;> rfl

theorem winLoad_blks (s : State) (t off n : Nat) : (s.winLoad t off n).2.blks = s.blks := by
  unfold State.winLoad
  dsimp only
  split <;> rfl

/-- No operation that a load waits for is still to complete or to stop. -/
theorem opsBusy_of_sent {s : State} {t : Nat} {ops : List Nat} (h : ∀ o ∈ (s.tile t).mrun, o.id ∈ ops → o.sent = true) :
    s.opsBusy t ops = false := by
  simp only [State.opsBusy, List.any_eq_false, Bool.and_eq_true, List.contains_iff_mem, Bool.not_eq_true', not_and,
    Bool.not_eq_false]
  exact h

end AccumulatorLoad

/-! ### Channels that are validated and closed -/

section Channels

variable {s : State} {k : Nat} {w : Wait}

/-- What completes for an instruction touches no channel and no list of waits. -/
theorem finish_chans_waits (s : State) (key i : Nat) (v : W64) :
    ((s.finish key i v).chans, (s.finish key i v).waits) = (s.chans, s.waits) := by
  rw [(DeliversAt.finish key i s v).fields]

/-- What the close of channel `k` does to a wait (R176). -/
def State.closeWait (k : Nat) (s : State) (w : Wait) : State :=
  if w.onChan k then (dropWait s w).finish w.key w.idx 2 else s

theorem closeWait_chans (w : Wait) : (s.closeWait k w).chans = s.chans := by
  unfold State.closeWait
  split
  · exact congrArg Prod.fst (finish_chans_waits ..)
  · rfl

theorem closeWait_waits (s : State) (k : Nat) (w : Wait) : (s.closeWait k w).waits =
    if w.onChan k then s.waits.filter (fun x => !(x.key = w.key && x.idx = w.idx)) else s.waits := by
  unfold State.closeWait
  split
  · exact congrArg Prod.snd (finish_chans_waits ..)
  · rfl

/-- After the pass over a list of waits none of them that was on the channel is left. -/
theorem closeWaits_waits : ∀ (l : List Wait) (s : State), ∀ u ∈ (l.foldl (State.closeWait k) s).waits,
    u ∈ s.waits ∧ (u ∈ l → u.onChan k = false)
  | [], _, u, hu => ⟨hu, fun h => absurd h List.not_mem_nil⟩
  | w :: l, s, u, hu => by
    obtain ⟨hmem, hl⟩ := closeWaits_waits l (s.closeWait k w) u hu
    rw [closeWait_waits] at hmem
    by_cases hw : w.onChan k = true
    · rw [if_pos hw, List.mem_filter] at hmem
      refine ⟨hmem.1, fun h => (List.mem_cons.mp h).elim (fun e => ?_) hl⟩
      subst e
      simp at hmem
    · rw [if_neg hw] at hmem
      refine ⟨hmem, fun h => (List.mem_cons.mp h).elim (fun e => ?_) hl⟩
      rw [e]
      exact Bool.not_eq_true _ ▸ hw

/-- The channel's own group notes the waits that the close completes (R188). -/
def State.closeNoted (s : State) (k : Nat) : State := if s.waits.any (fun w => w.onChan k) then s.noteWait k else s

/-- A close: the group is told, the entry written, every wait on the channel ended. -/
theorem chanClose_eq (s : State) (k : Nat) (v : W64) : s.chanClose k v = (s.closeNoted k).waits.foldl (State.closeWait k)
    ((s.closeNoted k).setChan k { (s.closeNoted k).chan k with w := ((s.closeNoted k).chan k).w.set 0 v, onchip := 0 }) := by
  unfold State.chanClose
  refine congrArg (fun f => List.foldl f _ _) (funext fun u => funext fun w => ?_)
  obtain ⟨key, idx, kind⟩ := w
  cases kind <;> simp [State.closeWait, Wait.onChan]

theorem noteWait_waits (s : State) (k : Nat) : (s.noteWait k).waits = s.waits := by
  unfold State.noteWait State.noteGrp
  split <;> rfl

theorem closeNoted_waits (s : State) (k : Nat) : (s.closeNoted k).waits = s.waits := by
  unfold State.closeNoted
  split
  · exact noteWait_waits ..
  · rfl

/-- A change of a table's values that keeps a property of each keeps it of the one on a key. -/
theorem map_getD_map_keeps {α : Type} {Q : α → Prop} {f : Nat × α → Nat × α} (hf : ∀ p, (f p).1 = p.1)
    (hq : ∀ p, Q p.2 → Q (f p).2) {x : Nat} {d : α} : ∀ {m : Map α}, Q (m.getD d x) → Q (Map.getD d (m.map f) x)
  | [], h => h
  | p :: m, h => by
    rw [List.map_cons, Map.getD, hf]
    rw [Map.getD] at h
    split
    next hx => exact hq p (by rwa [if_pos hx] at h)
    next hx => exact map_getD_map_keeps hf hq (by rwa [if_neg hx] at h)

/-- The counts of a group change no entry's shape. -/
theorem closeNoted_length (h : (s.chan k).w.length = 8) : ((s.closeNoted k).chan k).w.length = 8 := by
  unfold State.closeNoted
  split
  · unfold State.noteWait State.noteGrp
    split
    · exact h
    · refine map_getD_map_keeps (Q := fun c : Chan => c.w.length = 8) (fun p => ?_) (fun p hp => ?_) h
      · split <;> rfl
      · split
        · simpa [Chan.fld, setField] using hp
        · exact hp
  · exact h

theorem closeNoted_of_unwaited (h : ∀ w ∈ s.waits, w.onChan k = false) : s.closeNoted k = s := by
  refine if_neg ?_
  simpa using h

theorem chanClose_chan (s : State) (k j : Nat) (v : W64) : (s.chanClose k v).chan j =
    if k = j then { (s.closeNoted k).chan k with w := ((s.closeNoted k).chan k).w.set 0 v, onchip := 0 }
    else (s.closeNoted k).chan j := by
  have hc := foldl_keeps (f := State.closeWait k) State.chans (fun u w => closeWait_chans (s := u) w)
    (s.closeNoted k).waits ((s.closeNoted k).setChan k
      { (s.closeNoted k).chan k with w := ((s.closeNoted k).chan k).w.set 0 v, onchip := 0 })
  rw [chanClose_eq, State.chan, hc]
  exact setChan_chan ..

theorem chanClose_waits (s : State) (k : Nat) (v : W64) : ∀ u ∈ (s.chanClose k v).waits, u.onChan k = false := by
  intro u hu
  rw [chanClose_eq] at hu
  obtain ⟨hmem, hl⟩ := closeWaits_waits _ _ u hu
  exact hl hmem

theorem ne_push_of_onChan (h : w.onChan k = false) (a : Nat) (b : List Byte) (va : W64) : w.k ≠ .push k a b va :=
  fun e => by simp [Wait.onChan, e] at h

theorem ne_pop_of_onChan (h : w.onChan k = false) (a : Bool) (b va : W64) : w.k ≠ .pop k a b va :=
  fun e => by simp [Wait.onChan, e] at h

/-- Bit 63 of a word with 0 put there. -/
theorem bit63_cleared (w : Nat) : bitOf (w64 (setBits w 63 1 0)).toNat 63 = false := by
  simp only [bitOf, w64_toNat, setBits, bitsOf, beq_eq_false_iff_ne]
  omega

@[simp] theorem mirror_chan (s : State) (k lo n j : Nat) : (s.mirror k lo n).chan j = s.chan j := by
  have h := congrArg State.chans (mirror_log s k lo n)
  exact congrArg (fun m : Map Chan => m.getD {} j) h

end Channels

section WindowEventClauses

variable {s : State} {x y z : Nat} {v : W64} {d : List Byte} (hf : s.focus = .ev x y z v d)

include hf

theorem exec_ctxctlResume (hh : (s.ctx (ctxKey x y)).st = .held) : exec .ctxctlResume s = .next (endStep s
    ((s.resumeFault (ctxKey x y)).updCtx (ctxKey x y) fun c => { c with st := s.backTo (ctxKey x y), fqPend := false })) := by
  rw [← ctxResume_of_held hh]
  exact run_evCtx hf fun k _ s => s.ctxResume k

theorem exec_ctxctlRedirect (hh : (s.ctx (ctxKey x y)).st = .held) : exec .ctxctlRedirect s = .next (endStep s
    ((s.imageCleared (ctxKey x y)).updCtx (ctxKey x y) fun c =>
      { c with
        st := s.backTo (ctxKey x y), inh := false, next := v &&& 0xFFFFFFFFFFFFFFC0, irv := List.replicate 8 none,
        fqPend := false, replaying := false, async := c.async.map (fun f => { f with behind := false }) })) := by
  rw [← ctxRedirect_of_held hh]
  exact run_evCtx hf fun k v s => s.ctxRedirect k (v &&& 0xFFFFFFFFFFFFFFC0)

theorem exec_ctxctlKill : exec .ctxctlKill s = .next (endStep s (s.ctxKill (ctxKey x y))) :=
  run_evCtx hf fun k _ s => s.ctxKill k

theorem exec_ctxctlPreempt {i : Nat} (ht : (s.ctx (ctxKey x y)).task = some i) :
    exec .ctxctlPreempt s = .next (endStep s (s.requestPreempt i)) := by
  change execCtxctlPreempt s = _
  simp only [execCtxctlPreempt, run_evCtx hf, ht]

theorem exec_bankroleWrite (hr : s.roleFault x (s.tile x).bankrole.toNat v.toNat = none)
    (hb : s.rolesBusy x v.toNat = false) : exec .bankroleWrite s = .next (endStep s (s.setBankrole x v.toNat)) := by
  change execBankroleWrite s = _
  simp [execBankroleWrite, run, hf, hr, hb]

theorem exec_accumulatorWindowLoad {w : Wait} {pa n tw off : Nat} {sx : Bool} {ops : List Nat} {b : Blk} {m : MFmt} {u : State}
    (hm : m = mfmtOf (s.wordAt (ctxKey x y) z))
    (hu : u = (if m.ord = 0 then { s with waits := s.waits.filter (fun w => !(w.key = ctxKey x y && w.idx = z)) }
      else ({ s with waits := s.waits.filter (fun w => !(w.key = ctxKey x y && w.idx = z)) } : State).cacheAcquire x m.scp.toNat))
    (hw : s.waits.find? (fun w => w.key = ctxKey x y && w.idx = z) = some w) (hk : w.k = .accLoad pa n sx ops)
    (hp : s.paKind pa = .window tw off) (hb : s.blks.get? (ctxKey x y) = some b)
    (ho : ∀ o ∈ (s.tile tw).mrun, o.id ∈ ops → o.sent = true) : exec .accumulatorWindowLoad s =
      .next (endStep s ((u.winLoad tw off n).2.finish (ctxKey x y) z
        (extend n sx (forward b z m.cls.toNat pa n (u.winLoad tw off n).1)))) := by
  obtain ⟨key, idx, kind⟩ := w
  dsimp only at hk
  subst hk
  subst hm hu
  change execAccumulatorWindowLoad s = _
  simp only [execAccumulatorWindowLoad, run, hf, hw, hp, opsBusy_of_sent ho, Bool.false_eq_true, if_false, winLoad_blks,
    apply_ite State.blks, cacheAcquire_blks, ite_self, hb]
  rfl

theorem exec_channelEntryValidate {c : Chan} (hv : (s.chan (64 * x + y)).v = false)
    (hc : c = { s.chan (64 * x + y) with w := (s.chan (64 * x + y)).w.set 0 v })
    (hok : c.valid s ((64 * x + y) / 64) = none) : exec .channelEntryValidate s = .next (endStep s
      ((s.setChan (64 * x + y) { c with onchip := min c.occ c.con, lost := false }).mirror (64 * x + y) 0 8)) := by
  subst hc
  change execChannelEntryValidate s = _
  simp only [execChannelEntryValidate, run, hf, hv, State.chanValidate, hok, Bool.false_eq_true, if_false]

theorem exec_channelClose (hv : (s.chan (64 * x + y)).v = true) : exec .channelClose s = .next (endStep s
    (s.chanClose (64 * x + y) (w64 (setBits (wAt (s.chan (64 * x + y)).w 0) 63 1 0)))) := by
  change execChannelClose s = _
  simp only [execChannelClose, run, hf, hv, if_true]

end WindowEventClauses

@[simp] theorem endStep_elem (s u : State) (k : Nat) : (endStep s u).elem k = u.elem k := rfl
@[simp] theorem endStep_acc (s u : State) (k : Nat) : (endStep s u).acc k = u.acc k := rfl
@[simp] theorem endStep_bar (s u : State) (k : Nat) : (endStep s u).bar k = u.bar k := rfl
@[simp] theorem endStep_chan (s u : State) (k : Nat) : (endStep s u).chan k = u.chan k := rfl
@[simp] theorem endStep_waits (s u : State) : (endStep s u).waits = u.waits := rfl

/-- Settles O47: commands by what they do to the context they name, window stores by the register that the word is, a close by
the pass over the waits on the channel. -/
theorem windowEvents : Obligations.WindowEvents := by
  intro s x y z v d hf
  refine ⟨fun hh => ⟨?resume, ?redirect⟩, fun i k ht hk => ⟨fun hh => ?killHeld, fun hr => ?killRun, fun hst hp => ?preempt⟩,
    fun hr hb => ?bankrole, fun hz ha hi => ?stores, ?load, fun hv hok hl => ?validate, fun hv hl => ?close⟩
  case resume =>
    refine ⟨_, exec_ctxctlResume hf hh, ?_⟩
    simp only [endStep_ctx, updCtx_ctx_same, State.resumeFault, true_and]
    exact fun j hj => by rw [updCtx_ctx_other _ _ _ (Ne.symm hj), updCtx_ctx_other _ _ _ (Ne.symm hj)]
  case redirect =>
    refine ⟨_, exec_ctxctlRedirect hf hh, ?_⟩
    simp only [endStep_ctx, updCtx_ctx_same, true_and]
    refine ⟨fun j hj => ?_, fun _ i hi => ?_⟩
    · rw [updCtx_ctx_other _ _ _ (Ne.symm hj), imageCleared_ctx]
    · rw [endStep_mem, ← imageCleared_mem s (ctxKey x y), ← imageCleared_byte s (ctxKey x y) hi]
      exact byte_flush ..
  case killHeld => exact ⟨_, exec_ctxctlKill hf, by rw [ctxKill_of_held ht hk hh]⟩
  case killRun =>
    refine ⟨_, exec_ctxctlKill hf, ?_, fun e he hn => ?_⟩
    · rw [ctxKill_of_run ht hk hr, endStep_ctx]
      exact condemn_kill (by simp [State.markKill])
    · rw [ctxKill_of_run ht hk hr, endStep_deps]
      exact condemn_ending he hn
  case preempt =>
    obtain ⟨htask, -, hctxs⟩ := requestPreempt_of_get hk hst hp
    exact ⟨_, exec_ctxctlPreempt hf ht, htask, hctxs, by rw [endStep_mem, requestPreempt_log]⟩
  case bankrole => exact ⟨_, exec_bankroleWrite hf hr hb, rfl⟩
  case stores =>
    subst hz
    have hw : StoresWord s x y := ⟨ha, hi⟩
    refine ⟨fun hlo hhi h0 => ?context, fun hlo hhi h40 => ?element, fun hlo hhi => ?accumulator, fun hlo hhi h1 h6 hlen => ?barrier⟩
    case context =>
      obtain ⟨hsame, hother, hctxs⟩ := gStore_ctx (s := s) (t := x) (v := v) h0 ha
      exact ⟨_, hw.event hf hlo hhi (by simp [windowOk]; omega) (hw.ctx hlo (by omega)), hsame, hother, hctxs,
        by rw [endStep_mem, gStore_log]⟩
    case element =>
      obtain ⟨hsame, hother, helems⟩ := elemStore_elem (s := s) (t := x) (v := v) h40
      exact ⟨_, hw.event hf hlo hhi (by simp [windowOk]; omega) (hw.elem hlo (by omega)), hsame, hother, helems,
        by rw [endStep_mem, elemStore_log h40]⟩
    case accumulator =>
      obtain ⟨hfirst, hsecond, haccs⟩ := accStore_acc (s := s) (t := x) (v := v) hhi
      exact ⟨_, hw.event hf hlo (by omega) (by simp [windowOk]; omega) (hw.acc (by omega)), hfirst, hsecond, haccs,
        by rw [endStep_mem, accStore_log hhi]⟩
    case barrier =>
      refine ⟨_, hw.event hf hlo (by omega) (by simp [windowOk]; omega) ((hw.bar hlo hhi).trans (barStore_bar h1 h6)),
        ?_, fun j hj => ?_, fun j hj => ?_⟩
      · rw [endStep_bar, setBar_bar_same]
        simp [List.getD_eq_getElem?_getD, hlen, h6]
      · rw [endStep_bar, setBar_bar_same, getD_set_other _ _ _ hj]
      · rw [endStep_bar, setBar_bar, if_neg (Ne.symm hj)]
  case load =>
    intro m u w pa n sx ops tw off b hm hu hw hk hp hb ho
    exact ⟨_, exec_accumulatorWindowLoad hf hm hu hw hk hp hb ho, rfl⟩
  case validate =>
    refine ⟨_, exec_channelEntryValidate hf hv rfl hok, ?_⟩
    simp only [endStep_chan, mirror_chan, setChan_chan_same, true_and]
    refine ⟨?_, fun j hj => ?_⟩
    · simp [List.getD_eq_getElem?_getD, hl]
    · rw [setChan_chan, if_neg (Ne.symm hj)]
  case close =>
    refine ⟨_, exec_channelClose hf hv, ?_, fun hno j hj => ?_, fun w hw => ?_⟩
    · rw [endStep_chan, chanClose_chan, if_pos rfl, Chan.v, wAt_set_same _ (by rw [closeNoted_length hl]; decide)]
      exact bit63_cleared _
    · rw [endStep_chan, chanClose_chan, if_neg (Ne.symm hj), closeNoted_of_unwaited hno]
    · have hoff := chanClose_waits _ _ _ w hw
      exact ⟨ne_push_of_onChan hoff, ne_pop_of_onChan hoff⟩

end Sys2Proof.Machine

/-! ## Rings, tokens, messages and routes (O51) -/

namespace Sys2Proof.Machine

section EndOfRingStep

variable (s u : State)

@[simp] theorem endStep_pkts : (endStep s u).pkts = u.pkts := rfl
@[simp] theorem endStep_msgs : (endStep s u).msgs = u.msgs := rfl
@[simp] theorem endStep_grants : (endStep s u).grants = u.grants := rfl
@[simp] theorem endStep_rembars : (endStep s u).rembars = u.rembars := rfl
@[simp] theorem endStep_tile (k : Nat) : (endStep s u).tile k = u.tile k := rfl

end EndOfRingStep

@[simp] theorem updTile_tile_same (s : State) (t : Nat) (f : Tile → Tile) : (s.updTile t f).tile t = f (s.tile t) :=
  (updTile_tile ..).trans (if_pos rfl)

@[simp] theorem updRegion_region_same (s : State) (k : Nat) (f : Region → Region) :
    (s.updRegion k f).region k = f (s.region k) := (updRegion_region ..).trans (if_pos rfl)

theorem setTslot_get (s : State) (t k : Nat) (f : TSlot) : ((s.setTslot t k f).tile t).tslots.get? k = some f :=
  (congrArg (fun x : Tile => x.tslots.get? k) (updTile_tile_same ..)).trans ((map_get_put ..).trans (if_pos rfl))

/-! ### Hops (R208-R210) -/

section Hops

variable {s : State} {x y z l : Nat} {v : W64} {d : List Byte} {p q : Pkt} {m : Msg} {vc : VC} {dl : Bool}

theorem exec_packetHop (hf : s.focus = .ev x y z v d) : exec .packetHop s = .next (endStep s (s.packetHop x)) := by
  change execPacketHop s = _
  simp only [execPacketHop, run, hf]

/-- A packet at its next stop: its buffer there, and what of it stays behind. -/
def State.hopped (s : State) (p q : Pkt) (vc : VC) (dl : Bool) : Pkt :=
  { q with stop := s.nextStop q, vc := vc, dl := dl, examined := false, wait := s.now, held := p.behind vc }

/-- Packet `n` stands elsewhere, and link `l` has granted its class. -/
def State.hopTaken (s : State) (n l cls : Nat) (q : Pkt) : State :=
  { s with pkts := s.pkts.set n q, grants := s.grants.put l cls }

/-- A packet of a message that is no query token ends nothing by leaving its source. -/
theorem qtSent_of_cls {id : Nat} (hm : s.msgs.get? id = some m) (hc : m.cls ≠ 0) : s.qtSent id = s := by
  simp [State.qtSent, hm, hc]

/-- What follows a hop of a packet of message `id`: its source may have sent the last flit, the packet may land. -/
def State.afterHop (s : State) (id : Nat) (q : Pkt) (m : Msg) : State :=
  if m.cls ≠ 0 && q.ring = 0 && m.dpkg = (s.qtSent id).pkgno && (s.qtSent id).stopTile q.ringNo q.stop = some m.dtile then
    (s.qtSent id).landPkt q m
  else s.qtSent id

theorem afterHop_of_cls {id : Nat} (hm : s.msgs.get? id = some m) (hc : m.cls ≠ 0) (hd : m.dpkg ≠ s.pkgno ∨ q.ring ≠ 0) :
    s.afterHop id q m = s := by
  have hland : ¬(q.ring = 0 ∧ m.dpkg = s.pkgno) := fun h => hd.elim (· h.2) (· h.1)
  rw [State.afterHop, qtSent_of_cls hm hc]
  refine if_neg fun h => hland ?_
  simp only [Bool.and_eq_true, decide_eq_true_eq] at h
  exact ⟨h.1.1.2, h.1.2⟩

/-- A granted packet that is no query token and does not land hops; beyond that only a counter may move. -/
theorem packetHop_of_granted (hp : s.pkts[x]? = some p) (hm : s.msgs.get? p.msg = some m) (hl : s.leaves p m = false)
    (hr : s.pktReady p = some (l, q, vc, dl)) (hg : s.granted p l = true) (hc : m.cls ≠ 0)
    (hd : m.dpkg ≠ s.pkgno ∨ q.ring ≠ 0) :
    ∃ ts, s.packetHop x = { s.hopTaken x l m.cls (s.hopped p q vc dl) with tiles := ts } := by
  have hstep : s.packetHop x = ((if p.vc = .source && m.spkg = s.pkgno then
      (s.hopTaken x l m.cls (s.hopped p q vc dl)).count m.stile 8 (add := p.nf + 1)
      else s.hopTaken x l m.cls (s.hopped p q vc dl)) : State).afterHop p.msg (s.hopped p q vc dl) m := by
    simp only [State.packetHop, hp, hm, hl, hr, hg, Bool.not_true, Bool.false_eq_true, if_false]
    rfl
  have hcount : ∃ ts, (if p.vc = .source && m.spkg = s.pkgno then
      (s.hopTaken x l m.cls (s.hopped p q vc dl)).count m.stile 8 (add := p.nf + 1)
      else s.hopTaken x l m.cls (s.hopped p q vc dl)) = { s.hopTaken x l m.cls (s.hopped p q vc dl) with tiles := ts } := by
    split
    · exact ⟨_, count_fields ..⟩
    · exact ⟨s.tiles, rfl⟩
  obtain ⟨ts, ht⟩ := hcount
  refine ⟨ts, hstep.trans ?_⟩
  rw [ht]
  exact afterHop_of_cls hm hc hd

theorem packetHop_of_waiting (hp : s.pkts[x]? = some p) (hm : s.msgs.get? p.msg = some m) (hl : s.leaves p m = false)
    (hr : s.pktReady p = none) : s.packetHop x = s := by
  simp [State.packetHop, hp, hm, hl, hr]

end Hops

/-! ### Query tokens (R211) -/

section Tokens

variable {s : State} {i k : Nat} {p : Pkt} {m : Msg}

theorem exec_qtArrival {x y z : Nat} {v : W64} {d : List Byte} (hf : s.focus = .ev x y z v d) :
    exec .qtArrival s = .next (endStep s (s.qtArrive x y)) := by
  change execQtArrival s = _
  simp only [execQtArrival, run, hf]

/-- The packet that an arrival names, first of its message. -/
theorem findIdx_names {x y : Nat} (hi : s.pkts.findIdx? (fun p => p.msg = x && p.pidx = y) = some i)
    (hp : s.pkts[i]? = some p) : p.msg = x ∧ p.pidx = y := by
  obtain ⟨h, hq, -⟩ := List.findIdx?_eq_some_iff_getElem.mp hi
  rw [List.getElem?_eq_getElem h] at hp
  cases hp
  simpa using hq

/-- The first packet of a query token at a tile stop, not yet looked up there and without a slot. -/
structure QtLooksUp (s : State) (i : Nat) (p : Pkt) (m : Msg) (k : Nat) : Prop where
  found : s.pkts.findIdx? (fun q => q.msg = p.msg && q.pidx = p.pidx) = some i
  pkt : s.pkts[i]? = some p
  msg : s.msgs.get? p.msg = some m
  cls : m.cls = 0
  ring : p.ring = 0
  onRing : p.vc ≠ .source
  stop : s.stopTile p.ringNo p.stop = some k
  slotless : (s.tile k).tslots.find? (fun e => e.2.mid = p.msg) = none
  first : p.pidx = 0
  fresh : p.examined = false

/-- A token that the tile is not for goes on (R211). -/
theorem QtLooksUp.passes (h : QtLooksUp s i p m k) (hd : m.dpkg ≠ s.pkgno ∨ m.dtile ≠ k) (hn : s.shardNames k m = false) :
    s.qtArrive p.msg p.pidx = { s with pkts := s.pkts.set i { p with examined := true } } := by
  obtain ⟨hi, hp, hm, hc, hr, hv, hs, ht, h0, he⟩ := h
  have hhere : (decide (m.dpkg = s.pkgno) && decide (m.dtile = k)) = false := by
    simpa [imp_iff_not_or] using hd
  simp [State.qtArrive, hi, hp, hm, hc, hr, hv, hs, ht, eq_true h0, he, hn, hhere]

/-- A packet lands; only its message's count and the packets change. -/
theorem landPkt_of_tagged (s : State) (p : Pkt) (hm : m.plain = false) : s.landPkt p m =
    ({ s with pkts := s.pkts.filter fun q => !(q.msg = p.msg && q.pidx = p.pidx) } : State).setMsg p.msg
      { m with landed := m.landed + 1 } := by
  simp only [State.landPkt, hm, Bool.false_and, Bool.false_eq_true, if_false]

/-- A token that it is for takes a free slot, its first packet landed there. -/
theorem QtLooksUp.takes (h : QtLooksUp s i p m k) (hd : (m.dpkg = s.pkgno ∧ m.dtile = k) ∨ s.shardNames k m = true) {j : Nat}
    (hj : Map.fresh (s.tile k).tslots 0 8 = some j) (hl : m.landed + 1 < m.npkt) :
    s.qtArrive p.msg p.pidx = (s.fresh.2.setTslot k j { mid := p.msg, msg := m, order := s.nextId }).landPkt p m := by
  obtain ⟨hi, hp, hm, hc, hr, hv, hs, ht, h0, he⟩ := h
  have hhere : ((decide (m.dpkg = s.pkgno) && decide (m.dtile = k)) || s.shardNames k m) = true := by
    simpa [Bool.or_eq_true, Bool.and_eq_true] using hd
  have hlast : m.landed + 1 ≠ m.npkt := by omega
  simp only [State.qtArrive, hi, hp, hm, hc, hr, hs, ht, he, hhere, hj, Option.bind_some, Option.map_some]
  simp [State.qtLand, hlast, hv, eq_true h0, State.fresh]

/-- The slot taken and the landed packet counted, in the state after. -/
theorem QtLooksUp.parks (h : QtLooksUp s i p m k) (hd : (m.dpkg = s.pkgno ∧ m.dtile = k) ∨ s.shardNames k m = true) {j : Nat}
    (hj : Map.fresh (s.tile k).tslots 0 8 = some j) (hl : m.landed + 1 < m.npkt) :
    ((s.qtArrive p.msg p.pidx).tile k).tslots.get? j = some { mid := p.msg, msg := m, order := s.nextId } ∧
      (s.qtArrive p.msg p.pidx).msgs.get? p.msg = some { m with landed := m.landed + 1 } := by
  rw [h.takes hd hj hl, landPkt_of_tagged _ _ (by simp [Msg.plain, h.cls])]
  refine ⟨?_, (setMsg_get ..).trans (if_pos rfl)⟩
  exact setTslot_get s.fresh.2 k j _

end Tokens

/-! ### What telling a sender changes (R206, R415) -/

/-- New messages may have been sent and contexts told of something: the tiles, the barriers and the messages on their way
stand as they were. -/
structure OnlyTells (s t : State) : Prop where
  tiles : t.tiles = s.tiles
  bars : t.bars = s.bars
  rembars : t.rembars = s.rembars
  nextId : s.nextId ≤ t.nextId
  msgs : ∀ j, j < s.nextId → t.msgs.get? j = s.msgs.get? j

namespace OnlyTells

theorem refl (s : State) : OnlyTells s s := ⟨rfl, rfl, rfl, le_rfl, fun _ _ => rfl⟩

theorem trans {s t u : State} (h : OnlyTells s t) (g : OnlyTells t u) : OnlyTells s u where
  tiles := g.tiles.trans h.tiles
  bars := g.bars.trans h.bars
  rembars := g.rembars.trans h.rembars
  nextId := h.nextId.trans g.nextId
  msgs j hj := (g.msgs j (hj.trans_le h.nextId)).trans (h.msgs j hj)

theorem tile {s t : State} (h : OnlyTells s t) (k : Nat) : t.tile k = s.tile k := 
  congrArg (fun ts => Map.getD ({} : Tile) ts k) h.tiles

theorem bar {s t : State} (h : OnlyTells s t) (k : Nat) : t.bar k = s.bar k :=
  congrArg (Map.getD (List.replicate 6 0) · k) h.bars

variable (s : State)

/-- A message of a new number. -/
theorem fresh (m : Msg) (ps : List Pkt) : OnlyTells s { s.fresh.2.setMsg s.nextId m with pkts := ps } where
  tiles := rfl
  bars := rfl
  rembars := rfl
  nextId := Nat.le_succ _
  msgs j hj := (map_get_put ..).trans (if_neg (by omega))

theorem inject (m : Msg) : OnlyTells s (s.inject m) := fresh ..

theorem injectFar (m : Msg) : OnlyTells s (s.injectFar m) := by
  unfold State.injectFar
  split
  · exact fresh ..
  · exact inject ..

theorem notice (t dpkg dtile : Nat) (w : Who) (kind : Nat) (d : List Byte) : OnlyTells s (s.notice t dpkg dtile w kind d) :=
  injectFar ..

theorem sendSeg (who : Who) (t u cls tag n : Nat) : OnlyTells s (s.sendSeg who t u cls tag n) := by
  unfold State.sendSeg
  split
  · exact refl s
  · exact inject ..

theorem of_deliversAt {s t : State} {key : Nat} (h : DeliversAt key s t) : OnlyTells s t := by
  rw [h.fields]
  exact ⟨rfl, rfl, rfl, le_rfl, fun _ _ => rfl⟩

theorem finish (key i : Nat) (v : W64) : OnlyTells s (s.finish key i v) := of_deliversAt (DeliversAt.finish ..)

theorem abandonTo (w : Who) : OnlyTells s (s.abandonTo w) := by
  unfold State.abandonTo State.abandon
  split
  · split
    · exact refl s
    · split
      · exact of_deliversAt (DeliversAt.setStat ..)
      · exact refl s
  · exact refl s

theorem asyncTo (w : Who) (f : Flt) : OnlyTells s (s.asyncTo w f) := by
  unfold State.asyncTo
  split
  · exact ⟨rfl, rfl, rfl, le_rfl, fun _ _ => rfl⟩
  · exact refl s

/-- The sender of a refused message is told (R215). -/
theorem tellRefused (m : Msg) : OnlyTells s (s.tellRefused m) := by
  unfold State.tellRefused
  split
  · exact ((sendSeg ..).trans (asyncTo ..)).trans (abandonTo ..)
  · exact notice ..

/-- The status of a remote barrier event goes back (R254). -/
theorem barReply (r : RemBar) (v : W64) : OnlyTells s (s.barReply r v) := by
  unfold State.barReply
  split
  · exact refl s
  · split
    · exact notice ..
    · split
      · exact finish ..
      · exact refl s

end OnlyTells

/-! ### Messages (R214, R215) -/

section Messages

variable {s : State} {x : Nat} {m : Msg}

theorem exec_msgArrival {y z : Nat} {v : W64} {d : List Byte} (hf : s.focus = .ev x y z v d) :
    exec .msgArrival s = .next (endStep s (s.msgArrive x)) := by
  change execMsgArrival s = _
  simp only [execMsgArrival, run, hf]

/-- A message of tagged traffic at its tile, neither matched nor queued, whose sender knows. -/
structure Arrives (s : State) (x : Nat) (m : Msg) : Prop where
  msg : s.msgs.get? x = some m
  cls : m.cls ≠ 0
  tagged : m.plain = false
  here : m.dpkg = s.pkgno
  landed : m.landed ≠ 0
  free : s.msgHeld x m = false
  told : m.met = true

/-- No receive of the message's tile fits it. -/
def State.unclaimed (s : State) (m : Msg) : Prop :=
  ∀ w ∈ s.waits, ∀ tag src cap dst, w.key / 16 = m.dtile → w.k = .recv tag src cap dst → fitsMsg tag src m = false

/-- A message at the end of its tile's overflow queue. -/
def State.queued (s : State) (x : Nat) (m : Msg) : State :=
  (s.setMsg x m).updTile m.dtile fun t => { t with ovf := t.ovf ++ [x] }

variable (h : Arrives s x m)

include h

theorem Arrives.met_same : ({ m with met := true } : Msg) = m := by
  have hm := h.told
  cases m
  cases hm
  rfl

/-- A message that nobody awaits is queued while there is room, and refused after. -/
theorem Arrives.unclaimed (hn : s.unclaimed m) : s.msgArrive x =
    if (s.tile m.dtile).ovf.length < 64 then
      if (s.tile m.dtile).ovf.length + 1 = 48 then (s.queued x m).setEv m.dtile 2 else s.queued x m
    else (s.dropMsg x).tellRefused m := by
  have hsame := h.met_same
  obtain ⟨hm, hc, ht, hd, hl, hf, hk⟩ := h
  simp only [State.msgArrive, hm, hc, ht, eq_true hd, hl, hf, hk, hsame, ne_eq, not_true_eq_false, decide_false, Bool.or_self,
    Bool.false_eq_true, if_false, if_true]
  split
  case h_1 k i tag src cap dst hw =>
    have hfit := List.find?_some hw
    have hno := hn _ (List.mem_of_find?_eq_some hw) tag src cap dst
    simp_all
  case h_2 => rfl

theorem Arrives.queued (hn : s.unclaimed m) (hr : (s.tile m.dtile).ovf.length < 64) :
    ((s.msgArrive x).tile m.dtile).ovf = (s.tile m.dtile).ovf ++ [x] ∧ (s.msgArrive x).msgs.get? x = some m := by
  rw [h.unclaimed hn, if_pos hr]
  have hq : ((s.queued x m).tile m.dtile).ovf = (s.tile m.dtile).ovf ++ [x] := congrArg Tile.ovf (updTile_tile_same ..)
  have hm : (s.queued x m).msgs.get? x = some m := (setMsg_get ..).trans (if_pos rfl)
  split
  · exact ⟨(congrArg Tile.ovf (updTile_tile_same ..)).trans hq, hm⟩
  · exact ⟨hq, hm⟩

theorem Arrives.refused (hn : s.unclaimed m) (hr : 64 ≤ (s.tile m.dtile).ovf.length) (hx : x < s.nextId) :
    ((s.msgArrive x).tile m.dtile).ovf = (s.tile m.dtile).ovf ∧ (s.msgArrive x).msgs.get? x = none := by
  rw [h.unclaimed hn, if_neg (by omega)]
  have ht := OnlyTells.tellRefused (s.dropMsg x) m
  refine ⟨congrArg Tile.ovf (ht.tile _), (ht.msgs x hx).trans ?_⟩
  exact (map_get_del ..).trans (if_pos rfl)

/-- A message that the one receive fits is matched to it. -/
theorem Arrives.matched {key idx tag cap : Nat} {src : Option (Nat × Nat)} {dst : W64}
    (hw : s.waits = [⟨key, idx, .recv tag src cap dst⟩]) (hk : key / 16 = m.dtile) (hfit : fitsMsg tag src m = true) :
    (s.msgArrive x).waits = [⟨key, idx, .recvGot x cap dst⟩] := by
  obtain ⟨hm, hc, ht, hd, hl, hf, hmet⟩ := h
  simp [State.msgArrive, State.postNext, State.setMsg, hm, hc, ht, hd, hl, hf, hmet, hw, hk, hfit]

end Messages

/-! ### The service of query tokens (R212) -/

section Service

variable {s : State} {x k : Nat} {e : TSlot} {w : Wait}

theorem exec_tokenServiceStart {y z : Nat} {v : W64} {d : List Byte} (hf : s.focus = .ev x y z v d) :
    exec .tokenServiceStart s = .next (endStep s (s.tokServe x)) := by
  change execTokenServiceStart s = _
  simp only [execTokenServiceStart, run, hf]

/-- While a token runs, no other is started. -/
theorem tokServe_of_runs (hr : s.tokRuns x = true) : s.tokServe x = s := by
  unfold State.tokServe
  split
  · rfl
  · exact if_pos (by rw [hr, Bool.or_true])

/-- A token whose handler's key nobody waits for stays parked. -/
theorem tokServe_of_unposted (hp : s.parkHead x = some (k, e)) (hw : s.tokPost x (s.slotHdr x k e 0x10 4) = none) :
    s.tokServe x = s := by
  simp only [State.tokServe, hp, hw, ite_self]

/-- A token in the service of context `key`: the shard entries of its group and the sequence's lengths and links as they
stand. -/
def State.inService (s : State) (x k : Nat) (e : TSlot) (key : Nat) : TSlot :=
  let n := s.slotHdr x k e 0 2
  { e with
    service := some key
    snap := ((s.tile x).shard.filter fun y => shV y.2 && shSeq y.2 = n && shLayer y.2 = s.slotHdr x k e 2 1 &&
      shGrp y.2 = s.slotHdr x k e 3 1 % 64).map Prod.snd
    clen := (s.seq n).clen, tlen := (s.seq n).tlen, links := (s.seq n).links }

/-- The oldest parked token goes to the oldest wait for its key. -/
theorem tokServe_of_posted (hp : s.parkHead x = some (k, e)) (he : e.full = true) (hr : s.tokRuns x = false)
    (hw : s.tokPost x (s.slotHdr x k e 0x10 4) = some w) (hc : (s.ctx w.key).region = none)
    (hpoison : s.poisonAt (s.seqPa (s.slotHdr x k e 0 2)) 128 = none) (hv : (s.seq (s.slotHdr x k e 0 2)).v = true)
    (hl : linksOk (s.seq (s.slotHdr x k e 0 2)).links (s.seq (s.slotHdr x k e 0 2)).tent = true) :
    s.tokServe x = (((dropWait s w).setTslot x k (s.inService x k e w.key)).cacheAcquire x (s.msgScope e.msg x)).finish
      w.key w.idx (w64 (4 + k * 256)) := by
  have hcfg : s.tokCfg x w.key = (true, s) := by simp only [State.tokCfg, hc]
  have hgo : (!e.full || s.tokRuns x) = false := by rw [he, hr]; rfl
  simp only [State.tokServe, hp, hgo, hw, hcfg, hpoison, hv, hl]
  rfl

theorem cacheAcquire_tiles (s : State) (t scope : Nat) : (s.cacheAcquire t scope).tiles = s.tiles := by
  unfold State.cacheAcquire
  split <;> rfl

theorem cacheAcquire_waits (s : State) (t scope : Nat) : (s.cacheAcquire t scope).waits = s.waits := by
  unfold State.cacheAcquire
  split <;> rfl

/-- The slot of a token whose service starts. -/
theorem service_slot (s : State) (k scope key i : Nat) (f : TSlot) (v : W64) :
    ((((s.setTslot x k f).cacheAcquire x scope).finish key i v).tile x).tslots.get? k = some f := by
  have ht : ((((s.setTslot x k f).cacheAcquire x scope).finish key i v).tile x) = (s.setTslot x k f).tile x :=
    ((OnlyTells.finish ..).tile x).trans (congrArg (fun ts => Map.getD ({} : Tile) ts x) (cacheAcquire_tiles ..))
  rw [ht]
  exact setTslot_get ..

theorem service_waits (s : State) (k scope key i : Nat) (f : TSlot) (v : W64) :
    (((s.setTslot x k f).cacheAcquire x scope).finish key i v).waits = s.waits :=
  (congrArg Prod.snd (finish_chans_waits ..)).trans (cacheAcquire_waits ..)

theorem dropWait_gone {u : Wait} (hu : u ∈ (dropWait s w).waits) : ¬(u.key = w.key ∧ u.idx = w.idx) := by
  simpa [imp_iff_not_or] using (List.mem_filter.mp hu).2

end Service

/-! ### Remote barrier events (R252, R254) -/

section RemoteBarriers

variable {s : State} {x : Nat} {r : RemBar}

/-- The state with remote barrier event `x` taken from the signal network. -/
def State.eventTaken (s : State) (x : Nat) : State := { s with rembars := s.rembars.eraseIdx x }

/-- An arrival at its tile: it counts where it matches the barrier, and its sender gets the phase before it. -/
def State.barArrive (s : State) (r : RemBar) : State :=
  let b := s.bar (48 * r.tile + r.bar)
  if !barMatch b r.ltag r.wid r.widfmt then s.barReply r (w64 (1 + barPhcnt b * 2 ^ 32))
  else match barEvent b 1 0 with
    | some b' => (s.setBar (48 * r.tile + r.bar) b').barReply r (w64 (barPhcnt b * 2 ^ 32))
    | none => s.barLate r

theorem exec_remoteBarrierArrival {y z : Nat} {v : W64} {d : List Byte} (hf : s.focus = .ev x y z v d)
    (hr : s.rembars[x]? = some r) (hd : r.dpkg = s.pkgno) (hb : r.bytes = none) :
    exec .remoteBarrierArrival s = .next (endStep s ((s.eventTaken x).barArrive r)) := by
  change execRemoteBarrierArrival s = _
  simp only [execRemoteBarrierArrival, State.eventTaken, run, hf, hr, hb]
  rw [if_neg (not_not_intro hd)]
  rfl

theorem barArrive_of_match {b : List W64} (hm : barMatch (s.bar (48 * r.tile + r.bar)) r.ltag r.wid r.widfmt = true)
    (he : barEvent (s.bar (48 * r.tile + r.bar)) 1 0 = some b) : s.barArrive r =
    (s.setBar (48 * r.tile + r.bar) b).barReply r (w64 (barPhcnt (s.bar (48 * r.tile + r.bar)) * 2 ^ 32)) := by
  simp only [State.barArrive, hm, he]
  rfl

theorem barArrive_of_mismatch (hm : barMatch (s.bar (48 * r.tile + r.bar)) r.ltag r.wid r.widfmt = false) :
    s.barArrive r = s.barReply r (w64 (1 + barPhcnt (s.bar (48 * r.tile + r.bar)) * 2 ^ 32)) := by
  simp only [State.barArrive, hm]
  rfl

end RemoteBarriers

/-! ### Routes (R86) -/

section Routes

variable {s : State} {x y z : Nat} {v : W64} {d : List Byte}

theorem exec_routeTokenLanding (hf : s.focus = .ev x y z v d) (hy : y < 64) :
    exec .routeTokenLanding s = .next (endStep s (s.land (4 * x + y / 16) 0 (y % 16) (z % 4))) := by
  change execRouteTokenLanding s = _
  simp only [execRouteTokenLanding, run, hf, if_pos hy]

/-- A token that lands at an element leaves its route and is the newest of the element's input. -/
theorem land_elem {rk dest din : Nat} {f : Flight} {l : List Flight}
    (hl : landing (s.region rk).flights 0 dest din = some (f, l)) :
    ((s.land rk 0 dest din).region rk).flights = l ∧
      ((s.land rk 0 dest din).elem (64 * (rk / 4) + 16 * (rk % 4) + dest)).ins.getD [] din =
        (s.elem (64 * (rk / 4) + 16 * (rk % 4) + dest)).ins.getD [] din ++ [f.tok] := by
  simp only [State.land, hl, setElem_region, setRegion_region_same, setElem_elem_same, setRegion_elem, true_and]
  exact (map_getD_put ..).trans (if_pos rfl)

end Routes

/-! ### The obligation -/

/-- Settles O51: every event of the list is its function of the state, and each function is taken case by case. -/
theorem ringEvents : Obligations.RingEvents := by
  intro s x y z v d hf
  refine ⟨?hop, ?still, ?token, ?queue, ?matched, ?unposted, ?runs, ?service, ?arrival, ?mismatch, ?landing⟩
  case hop =>
    intro p m l q vc dl hp hm hl hr hg hc hd
    obtain ⟨ts, ht⟩ := packetHop_of_granted hp hm hl hr hg hc hd
    obtain ⟨hx, -⟩ := List.getElem?_eq_some_iff.mp hp
    refine ⟨_, exec_packetHop hf, ?_⟩
    rw [ht]
    exact ⟨(map_getD_put ..).trans (if_pos rfl), List.getElem?_set_self hx, rfl⟩
  case still =>
    intro p m hp hm hl hr
    refine ⟨_, exec_packetHop hf, ?_⟩
    rw [packetHop_of_waiting hp hm hl hr]
    exact ⟨rfl, rfl⟩
  case token =>
    intro i p m k hi hp hm hc hr hv hs ht hidx he
    obtain ⟨rfl, rfl⟩ := findIdx_names hi hp
    have h : QtLooksUp s i p m k := ⟨hi, hp, hm, hc, hr, hv, hs, ht, hidx, he⟩
    refine ⟨fun hd hn => ⟨_, exec_qtArrival hf, ?_⟩, fun j hd hj hl => ⟨_, exec_qtArrival hf, h.parks hd hj hl⟩⟩
    rw [h.passes hd hn]
    obtain ⟨hx, -⟩ := List.getElem?_eq_some_iff.mp hp
    exact ⟨List.getElem?_set_self hx, rfl⟩
  case queue =>
    intro m hm hc ht hd hl hh hmet hn
    have h : Arrives s x m := ⟨hm, hc, ht, hd, hl, hh, hmet⟩
    exact ⟨fun hr => ⟨_, exec_msgArrival hf, h.queued hn hr⟩,
      fun hr hx => ⟨_, exec_msgArrival hf, (h.refused hn hr hx).symm⟩⟩
  case matched =>
    rintro m ⟨key, idx, wk⟩ tag src cap dst hm hc ht hd hl hh hw rfl hk hfit hmet
    have h : Arrives s x m := ⟨hm, hc, ht, hd, hl, hh, hmet⟩
    exact ⟨_, exec_msgArrival hf, h.matched hw hk hfit⟩
  case unposted =>
    intro k e hp _ hw
    refine ⟨_, exec_tokenServiceStart hf, ?_⟩
    rw [tokServe_of_unposted hp hw]
    exact ⟨rfl, rfl⟩
  case runs =>
    intro hr
    refine ⟨_, exec_tokenServiceStart hf, ?_⟩
    rw [tokServe_of_runs hr]
  case service =>
    rintro k e w n hp he hr hw hc rfl hpoison hv hl -
    refine ⟨_, s.inService x k e w.key, exec_tokenServiceStart hf, ?_⟩
    rw [tokServe_of_posted hp he hr hw hc hpoison hv hl]
    refine ⟨service_slot .., rfl, rfl, rfl, rfl, he, fun u hu => ?_⟩
    rw [endStep_waits, service_waits] at hu
    exact dropWait_gone hu
  case arrival =>
    intro r b hr hd hb hm he
    refine ⟨_, exec_remoteBarrierArrival hf hr hd hb, ?_⟩
    rw [barArrive_of_match (s := s.eventTaken x) hm he]
    have ht := OnlyTells.barReply ((s.eventTaken x).setBar (48 * r.tile + r.bar) b) r
      (w64 (barPhcnt (s.bar (48 * r.tile + r.bar)) * 2 ^ 32))
    exact ⟨rfl, (ht.bar _).trans (setBar_bar_same ..), ht.rembars,
      fun k hk => (ht.bar k).trans ((setBar_bar ..).trans (if_neg (Ne.symm hk)))⟩
  case mismatch =>
    intro r hr hd hb hm
    refine ⟨_, exec_remoteBarrierArrival hf hr hd hb, ?_⟩
    rw [barArrive_of_mismatch (s := s.eventTaken x) hm]
    have ht := OnlyTells.barReply (s.eventTaken x) r (w64 (1 + barPhcnt (s.bar (48 * r.tile + r.bar)) * 2 ^ 32))
    exact ⟨ht.bar, ht.rembars⟩
  case landing =>
    intro hy f l hl
    have hrow : (4 * x + y / 16) / 4 = x := by omega
    obtain ⟨hflights, hins⟩ := land_elem hl
    rw [hrow] at hins
    exact ⟨_, exec_routeTokenLanding hf hy, hflights, hins⟩

end Sys2Proof.Machine

/-! ## Exits (O7) -/

namespace Sys2Proof.Machine

/-! ### What traffic leaves readable -/

namespace OnlyTraffic

variable {t u : State} (h : OnlyTraffic t u)

include h

theorem rd (pa n : Nat) : u.rd pa n = t.rd pa n := by
  obtain ⟨hmem, hlog, -⟩ := h.same
  simp only [State.rd, State.bytes, State.byte, hmem, hlog]

theorem poisoned (pa : Nat) : u.poisoned pa = t.poisoned pa := by
  obtain ⟨-, -, hpoison, -⟩ := h.same
  have hstacks : u.failedStacks = t.failedStacks := by simpa using congrArg State.failedStacks h.rest
  simp only [State.poisoned, hpoison, hstacks]

theorem poisonAt (pa n : Nat) : u.poisonAt pa n = t.poisonAt pa n := by
  simp only [State.poisonAt, h.poisoned]

theorem queueRead (tr : Tr) (n : Nat) : u.queueRead tr n = t.queueRead tr n := by
  have hwq : u.wq = t.wq := by simpa using congrArg State.wq h.rest
  simp only [State.queueRead, State.queueE, hwq]

end OnlyTraffic

/-! ### Lines reached one way -/

section OneWay

variable {s : State} {tr : Tr} {n : Nat}

/-- A line as one way of reaching it leaves it: reached so before, or not at all (R136). -/
def ReachedBy (s : State) (way l : Nat) : Prop := s.ways.getD 0 (l / 128) = 0 ∨ s.ways.getD 0 (l / 128) = way

theorem wayLine_of_reachedBy {way l : Nat} (h : ReachedBy s way l) :
    s.wayLine way l = { s with ways := (s.wayLine way l).ways } := by
  unfold State.wayLine
  obtain h | h := h
  · simp only [h]
    split
    · rfl
    · rfl
  · simp only [h, if_true]

theorem reachedBy_wayLine {way l m : Nat} (hl : ReachedBy s way l) (hm : ReachedBy s way m) :
    ReachedBy (s.wayLine way l) way m := by
  unfold State.wayLine
  obtain h | h := hl
  · simp only [h, if_true]
    split
    · exact hm
    · unfold ReachedBy
      rw [map_getD_put]
      split
      · exact .inr rfl
      · exact hm
  · simpa only [h, if_true] using hm

/-- Lines reached the one way are noted as such, and nothing else (R136). -/
theorem wayTouch_of_oneWay (h : OneWay s tr n) : s.wayTouch tr n = { s with ways := (s.wayTouch tr n).ways } := by
  unfold State.wayTouch
  split
  next hk =>
    refine (List.foldlRecOn (linesOf tr.pa n) (fun s l => State.wayLine s (wayOf tr) l)
      (motive := fun t => t = { s with ways := t.ways } ∧ ∀ l ∈ linesOf tr.pa n, ReachedBy t (wayOf tr) l)
      ⟨rfl, h hk⟩ fun t ⟨ht, hways⟩ l hl => ⟨?_, fun m hm => reachedBy_wayLine (hways l hl) (hways m hm)⟩).1
    rw [wayLine_of_reachedBy (hways l hl), ht]
  next => rfl

end OneWay

/-! ### A load that is performed now -/

section LoadNow

variable {s : State} {tr : Tr} {n c : Nat} {e : Env}

/-- Bytes of HBM4E that the tile's cache does not hold come from the home (R129, R151). -/
theorem loadHbm_of_uncached {key : Nat} (h : OneWay s tr n) (hc : s.cached (key / 16) tr = none) :
    (s.loadHbm key tr n).1 = s.rd tr.pa n := by
  have hw : (s.wayTouch tr n).cached (key / 16) tr = none := by rw [wayTouch_of_oneWay h]; exact hc
  have hr : (s.wayTouch tr n).rd tr.pa n = s.rd tr.pa n := (OnlyTraffic.wayTouch s tr n h).rd ..
  unfold State.loadHbm
  simp only [hw, hr]
  split <;> rfl

/-- The home of plain bytes that the tile reads there: clean storage of a local store, or clean lines of HBM4E that its
cache does not hold. -/
def PlainHome (s : State) (key : Nat) (tr : Tr) (n : Nat) : Prop :=
  (∃ wt off, s.paKind tr.pa = .window wt off ∧ off < 0x400000 ∧ s.poisonAt tr.pa n = none) ∨
    (s.paKind tr.pa = .hbm ∧ s.cached (key / 16) tr = none ∧ s.poisoned tr.pa = false ∧ OneWay s tr n)

/-- A load from such a home goes on with its bytes, the stores of its block forwarded (R77, R137, R151, R152). -/
theorem loadNow_of_plainHome (hq : s.queueRead tr n = none) (hh : PlainHome s e.key tr n) (k : Nat → State → State) :
    ∃ u, OnlyTraffic s u ∧ loadNow tr n c e s k = k (forward e.blk e.idx c tr.pa n (s.rd tr.pa n)) u := by
  obtain ⟨wt, off, hk, hoff, hp⟩ | ⟨hk, hc, hp, hw⟩ := hh
  · have ht := OnlyTraffic.traffic s e.tile (some (e.ctx, s.classOf e.key)) tr n false
    refine ⟨_, ht, ?_⟩
    have hs : storageOff off = true := by simp [storageOff, hoff]
    simp only [loadNow, hq, hk, hs, if_true, ht.poisonAt, hp, ht.rd]
  · refine ⟨_, .loadHbm s e.key n tr hw, ?_⟩
    have hn : ((s.cached e.tile tr).isNone && s.poisoned tr.pa) = false := by simp [hp]
    simp only [loadNow, hq, hk, hn, Bool.false_eq_true, if_false, loadHbm_of_uncached hw hc]

theorem accBusyAt_of_plainHome {key : Nat} (hh : PlainHome s key tr n) : s.accBusyAt tr.pa n = [] := by
  obtain ⟨wt, off, hk, hoff, -⟩ | ⟨hk, -⟩ := hh
  · simp [State.accBusyAt, hk, storageOff, hoff]
  · simp [State.accBusyAt, hk]

/-- Finding the page does not change the home. -/
theorem found_plainHome {key : Nat} {m : MFmt} {use : Bool → Use} (hh : PlainHome s key tr n) :
    PlainHome (s.found e m use) key tr n := by
  have ht := found_traffic s e m use
  have hk : (s.found e m use).paKind tr.pa = s.paKind tr.pa := found_window ..
  have hp : ∀ pa, (s.found e m use).poisoned pa = s.poisoned pa := fun pa => by
    rw [ht.poisoned, begun_fields]; rfl
  obtain ⟨wt, off, hw, hoff, hc⟩ | ⟨hb, hc, hn, hw⟩ := hh
  · refine .inl ⟨wt, off, hk.trans hw, hoff, ?_⟩
    rw [← hc, State.poisonAt, State.poisonAt]
    simp only [hp]
  · have hways : (s.found e m use).ways = s.ways := by rw [found_fields, begun_fields]
    have hcache : (s.found e m use).tcache = s.tcache := by rw [found_fields, begun_fields]
    have hrole : ((s.found e m use).tile (key / 16)).bankrole = (s.tile (key / 16)).bankrole := by
      have hfound := congrArg Tile.bankrole (ht.tiles (key / 16))
      have hbegun := congrArg Tile.bankrole (begun_tile s e (key / 16))
      exact Eq.trans hfound hbegun
    refine .inr ⟨hk.trans hb, ?_, (hp _).trans hn, fun _ => by rw [hways]; exact hw hb⟩
    have hsame : (s.found e m use).cached (key / 16) tr = s.cached (key / 16) tr := by
      unfold State.cached State.cacheCap State.role State.cacheFind
      rw [hrole, hcache]
    exact hsame.trans hc

end LoadNow

/-! ### An exit that fires -/

/-- What an exit leaves for the commit: its place, kind, target and slot a, beside those that fired before it (R288). -/
def Env.exit (e : Env) (x : Nat) (k : ExitKind) (target : W64) (s : State) : State :=
  s.updBlk e.key (fun b => { b with exits := b.exits ++ [(x, e.idx, k, target, e.a)] })

theorem fireExit_eq (e : Env) (x : Nat) (k : ExitKind) (target : W64) (s : State) (f : State → State) :
    fireExit e x k target s f = f (e.exit x k target s) := rfl

theorem fireExitAligned_of_aligned {e : Env} {x : Nat} {target : W64} (h : target.toNat % 64 = 0) (s : State)
    (f : State → State) : fireExitAligned e x target s f = f (e.exit x .plain target s) := by
  rw [fireExitAligned, if_neg (not_not.mpr h), fireExit_eq]

theorem fireExitAligned_of_misaligned {e : Env} {x : Nat} {target : W64} (h : target.toNat % 64 ≠ 0) (s : State)
    (f : State → State) : fireExitAligned e x target s f =
      s.syncFault e.key { code := .branchAlign, addr := target, extra := w64 x, idx := some e.idx } := by
  rw [fireExitAligned, if_pos h]
  rfl

section Switch

variable {s : State} {e : Env} {x : BitVec 3} {tr : Tr}

/-- SWITCH reaches its home as the plain load it is (R326), and exits to what it read. -/
theorem exec_switch (H : Fires.of s (.switch e.h x) e) (R : Reaches s (swEnv e) swFmt 8 useLoad .plain tr)
    (O : Free s (swEnv e) swFmt true false tr) (hq : s.queueRead tr 8 = none) (hh : PlainHome s e.key tr 8) :
    ∃ u, OnlyTraffic (s.begun e) u ∧ exec (.switch e.h x) s = .next (endStep s (fireExitAligned e x.toNat
      (w64 (forward e.blk e.idx 15 tr.pa 8 (s.rd tr.pa 8))) u (fun s => s.finishNone e.key e.idx))) := by
  have ht : OnlyTraffic (s.begun e) (s.found (swEnv e) swFmt useLoad) := found_traffic s (swEnv e) swFmt useLoad
  have hqf : (s.found (swEnv e) swFmt useLoad).queueRead tr 8 = none := by
    rw [ht.queueRead, ← hq, begun_fields]; rfl
  have hrd : (s.found (swEnv e) swFmt useLoad).rd tr.pa 8 = s.rd tr.pa 8 := by
    rw [ht.rd, begun_fields]; rfl
  obtain ⟨u, hu, hload⟩ := loadNow_of_plainHome (c := 15) hqf (found_plainHome hh)
    (fun v s => fireExitAligned e x.toNat (w64 v) s (fun s => s.finishNone e.key e.idx))
  refine ⟨u, ht.trans hu, ?_⟩
  have hhold := holdM_none (busy := fun tr s => !(s.accBusyAt tr.pa 8).isEmpty) O R (by simp [accBusyAt_of_plainHome hh])
  refine (run_fireSeq H _ _ hhold).trans ?_
  rw [show s.begun e = s.begun (swEnv e) from rfl, checkedM_of R, hload, hrd]

end Switch

/-! ### Exits that a block fires twice -/

/-- Writes of different registers are none of them a second one. -/
theorem secondWrite_of_nodup {l : List (Nat × Nat × Option W64)} (h : (l.map (fun w => w.2.1)).Nodup) :
    secondWrite l = none := by
  have := firstWrites_unrepeated (q := []) h
  rw [List.append_nil] at this
  rw [secondWrite, this]
  rfl

/-- A block that fired two exits and wrote no register twice fails that check, and no other (R102, R288). -/
theorem conflicts_of_two_exits {b : Blk} {y y' : Nat × Nat × ExitKind × W64 × W64} (hx : b.exits = [y, y'])
    (hw : (b.writes.map (fun w => w.2.1)).Nodup) : b.conflicts =
      [{ code := .multiExit, idx := some y'.2.1, late := true, extra := w64 (Nat.lor (2 ^ y.1) (2 ^ y'.1)) }] := by
  rw [Blk.conflicts, secondWrite_of_nodup hw, hx]
  rfl

/-- Settles O7: an exit by what it leaves for the commit, SWITCH by the load that precedes it, MULTI_EXIT by the commit
check. -/
theorem exitsFire : Obligations.ExitsFire := by
  refine ⟨fun s e x ofs imm => ?_, fun s e x => ⟨?_, fun hm => ⟨?brrMis, ?callrMis, ?retMis⟩, ?_⟩,
    fun s e x tr => ?_⟩
  · intro tgt ret exit
    refine ⟨?br, fun ha => ?brr, ?call, fun ha => ?callr, fun ha => ?ret, ?trap, ?svc, fun hinh => ?eret, ?halt⟩
    case br | call | trap | svc | halt => exact fun H => run_fireSeq_free H _
    case brr | callr | ret =>
      refine fun H => (run_fireSeq_free H _).trans ?_
      rw [fireExitAligned_of_aligned ha]
      rfl
    case eret =>
      refine fun H => (run_fireSeq_free H _).trans ?_
      rw [begun_ctx, if_pos hinh]
      rfl
  · intro t c z v d b y y' hf hz hb he hk hx hw
    have hconf := conflicts_of_two_exits hx hw
    rw [exec_blockCommit hf, if_neg hz,
      commitTry_of_failed hb he (ready_of_conflicts (by rw [hconf]; exact List.cons_ne_nil _ _)) hk,
      lateFault_of_conflicts (.inl hconf)]
  case brrMis | callrMis | retMis =>
    refine fun H => (run_fireSeq_free H _).trans ?_
    rw [fireExitAligned_of_misaligned hm]
    rfl
  · refine fun hinh H => (run_fireSeq_free H _).trans ?_
    rw [begun_ctx, hinh]
    rfl
  · intro m f v H R O hq hh
    have hhome : PlainHome s e.key tr 8 := by
      rw [PlainHome, H.tile_of_key]
      exact hh
    obtain ⟨u, hu, hexec⟩ := exec_switch H R O hq hhome
    refine ⟨fun ha => ⟨u, hu, ?_⟩, fun hm => ⟨u, hu, ?_⟩⟩
    · rw [hexec, fireExitAligned_of_aligned ha]
      rfl
    · rw [hexec, fireExitAligned_of_misaligned hm]
      rfl

end Sys2Proof.Machine

/-! ## Taking a fault, and resuming (O55) -/

namespace Sys2Proof.Machine

/-! ### Words written to memory and read again -/

section WrittenWords

/-- A number is that of its bytes, as far as they reach (R4). -/
theorem leNat_leBytes (n v : Nat) : leNat (leBytes n v) = v % 256 ^ n := by
  induction n generalizing v with
  | zero => simp [leBytes, leNat, Nat.mod_one]
  | succ n ih =>
    rw [leBytes, leNat, ih, Nat.pow_succ', Nat.mod_mul]
    simp

variable {s : State} {pa x : Nat}

theorem rd64_congr {t : State} (h : ∀ i < 8, t.byte (x + i) = s.byte (x + i)) : t.rd64 x = s.rd64 x := by
  have hb : t.bytes x 8 = s.bytes x 8 := List.map_congr_left fun i hi => h i (List.mem_range.mp hi)
  rw [State.rd64, State.rd64, State.rd, State.rd, hb]

theorem rd64_of_fields {t : State} (hm : t.mem = s.mem) (hl : t.log = s.log) (x : Nat) : t.rd64 x = s.rd64 x :=
  rd64_congr fun i _ => by rw [State.byte, State.byte, hm, hl]

/-- Bytes written upward leave a word below them as it was. -/
theorem rd64_wrBytes_below (l : List Byte) (h : x + 8 ≤ pa) : (s.wrBytes pa l).rd64 x = s.rd64 x :=
  rd64_congr fun i hi => by rw [byte_wrBytes, if_neg (by omega)]

theorem rd64_wrWords_below (l : List W64) (h : x + 8 ≤ pa) : (s.wrWords pa l).rd64 x = s.rd64 x := by
  rw [wrWords_eq_wrBytes, rd64_wrBytes_below _ h]

theorem rd64_wr (w : W64) : (s.wr pa 8 w.toNat).rd64 pa = w := by
  have hb : (s.wr pa 8 w.toNat).bytes pa 8 = leBytes 8 w.toNat := by
    refine List.ext_getElem (by simp [State.bytes]) fun i hi hi' => ?_
    have hi8 : i < 8 := by simpa using hi'
    simp [State.bytes, State.wr, byte_wrBytes, hi8]
  rw [State.rd64, State.rd, hb, leNat_leBytes]
  exact (congrArg w64 (Nat.mod_eq_of_lt w.isLt)).trans (w64_of_toNat w)

/-- Words written upward stand there. -/
theorem rd64_wrWords : ∀ (l : List W64) (s : State) (pa i : Nat), i < l.length →
    (s.wrWords pa l).rd64 (pa + 8 * i) = l.getD i 0
  | w :: r, s, pa, 0, _ => by
    change ((s.wr pa 8 w.toNat).wrWords (pa + 8) r).rd64 pa = w
    rw [rd64_wrWords_below r (Nat.le_refl _), rd64_wr]
  | w :: r, s, pa, i + 1, h => by
    rw [State.wrWords, Nat.mul_succ, Nat.add_comm (8 * i), ← Nat.add_assoc, rd64_wrWords r _ _ i (Nat.lt_of_succ_lt_succ h)]
    rfl

end WrittenWords

/-! ### The INFO word (R100) -/

theorem fcode_num_lt (c : FCode) : c.num < 2 ^ 16 := by cases c <;> decide

/-- The fields of INFO stand where R100 has them, whatever IRV_DONE holds above them. -/
structure InfoFields (w key : Nat) (f : Flt) (priv nest : Bool) : Prop where
  code : w % 2 ^ 16 = f.code.num
  idx : bitsOf w 16 7 = f.idx.getD 0
  idxv : bitOf w 23 = f.idx.isSome
  src : bitsOf w 24 4 = f.src
  reg : bitsOf w 28 2 = f.reg
  more : bitOf w 30 = f.more
  nest : bitOf w 31 = nest
  tile : bitsOf w 32 10 = key / 16
  ctx : bitsOf w 42 4 = key % 16
  priv : bitOf w 46 = priv

theorem bitOf_of_bitsOf {v k : Nat} {b : Bool} (h : bitsOf v k 1 = b.toNat) : bitOf v k = b := by
  have hv : v / 2 ^ k % 2 = b.toNat := h
  cases b <;> simp [bitOf, hv]

theorem infoWord_fields {key : Nat} {f : Flt} (irv : Nat) (priv nest : Bool) (hs : f.src < 16) (hr : f.reg < 4)
    (hk : key < 16384) (hi : ∀ i, f.idx = some i → i < 128) :
    InfoFields (w64 (infoWord key f irv priv nest)).toNat key f priv nest := by
  have hc := fcode_num_lt f.code
  have hix : f.idx.getD 0 < 128 := by
    cases h : f.idx with
    | none => simp
    | some i => exact hi i h
  have hidxv := Bool.toNat_le f.idx.isSome
  have hmore := Bool.toNat_le f.more
  have hnest := Bool.toNat_le nest
  have hpriv := Bool.toNat_le priv
  rw [w64_toNat, infoWord]
  refine ⟨?code, ?idx, ?idxv, ?src, ?reg, ?more, ?nested, ?tile, ?ctx, ?privileged⟩
  all_goals
    have htile : key / 16 < 1024 := by omega
    have hctx : key % 16 < 16 := Nat.mod_lt _ (by decide)
    generalize key / 16 = tl at *
    generalize key % 16 = cx at *
  case code => omega
  case idx | src | reg | tile | ctx =>
    rw [bitsOf_mod_pow (by decide), bitsOf]
    omega
  case idxv | more | nested | privileged =>
    refine bitOf_of_bitsOf ?_
    rw [bitsOf_mod_pow (by decide), bitsOf]
    omega

/-! ### What taking a fault changes -/

section TakeFault

variable {s : State} {key : Nat} {f : Flt}

/-- Where a record stands in the frame: a nested one behind the first (R98, R106). -/
def recordPa (key : Nat) (nest : Bool) : Nat := framePa key + if nest then 0xC0 else 0

/-- The fault counted on its tile (R104, R260). -/
def State.faultCounted (s : State) (key : Nat) : State :=
  (s.updTile (key / 16) fun x => { x with fltcnt := (x.fltcnt + 1) % 2 ^ 32 }).count (key / 16) 15 (ctx := some (key % 16))

/-- The record of a fault. -/
def State.faultRecord (s : State) (key : Nat) (f : Flt) : List W64 :=
  recordWords (s.faultCounted key) key f (if f.code = .trap then 0 else irvDone (s.ctx key).irv) (s.ctx key).inh

/-- The record written, and with a first one the irrevocable image (R98, R104). -/
def State.faultWritten (s : State) (key : Nat) (f : Flt) : State :=
  let u := (s.faultCounted key).wrWords (recordPa key (s.ctx key).inh) (s.faultRecord key f)
  if (s.ctx key).inh then u
  else (u.wrWords (framePa key + 0x40) (irvWords (s.ctx key).irv)).wrWords (framePa key + 0xC0) (List.replicate 8 0)

/-- The block withdrawn as well, before the strand goes anywhere. -/
def State.faultEntered (s : State) (key : Nat) (f : Flt) : State :=
  ((s.faultWritten key f).abortBlock key).updCtx key fun c => { c with irv := List.replicate 8 none, replaying := false }

/-- A strand with a handler, not in it, on a tile with a fault frame, goes there (R105). -/
def State.handles (s : State) (key : Nat) : Bool :=
  !(s.ctx key).inh && (s.ctx key).handler ≠ 0 && (s.tile (key / 16)).frameva ≠ 0

theorem handles_iff : s.handles key = true ↔
    (s.ctx key).inh = false ∧ (s.ctx key).handler ≠ 0 ∧ (s.tile (key / 16)).frameva ≠ 0 := by
  simp [State.handles, and_assoc]

/-! The parts change no more than they say. -/

@[simp] theorem faultCounted_ctx (k : Nat) : (s.faultCounted key).ctx k = s.ctx k := by
  rw [State.faultCounted, count_ctx]
  rfl
@[simp] theorem faultCounted_cycle : (s.faultCounted key).cycle = s.cycle := by
  rw [State.faultCounted, count_fields]
  rfl

theorem faultCounted_tile : ({ (s.faultCounted key).tile (key / 16) with pmc := [], pmovf := 0 } : Tile) =
    { s.tile (key / 16) with pmc := [], pmovf := 0, fltcnt := ((s.tile (key / 16)).fltcnt + 1) % 2 ^ 32 } := by
  rw [State.faultCounted, count_tile, updTile_tile_same]

@[simp] theorem faultCounted_fltcnt :
    ((s.faultCounted key).tile (key / 16)).fltcnt = ((s.tile (key / 16)).fltcnt + 1) % 2 ^ 32 := by
  have h := congrArg Tile.fltcnt (faultCounted_tile (s := s) (key := key))
  exact h
@[simp] theorem faultCounted_frameva : ((s.faultCounted key).tile (key / 16)).frameva = (s.tile (key / 16)).frameva := by
  have h := congrArg Tile.frameva (faultCounted_tile (s := s) (key := key))
  exact h

theorem faultWritten_log : s.faultWritten key f = { s.faultCounted key with log := (s.faultWritten key f).log } := by
  unfold State.faultWritten
  dsimp only
  split
  · rw [wrWords_log]
  · rw [wrWords_log, wrWords_log (_ : State), wrWords_log (s.faultCounted key)]

/-- Withdrawing a block leaves tiles but for their queue of matrix commands, and memory, as they were (R109). -/
theorem abortBlock_tile (k : Nat) : ({ (s.abortBlock key).tile k with mq := [] } : Tile) = { s.tile k with mq := [] } := by
  have hdrop : (s.reconfDrop key).tiles = s.tiles := by
    unfold State.reconfDrop
    dsimp only
    split
    · split <;> rfl
    · rfl
  unfold State.abortBlock
  dsimp only
  split
  · rw [updTile_tile]
    split
    · subst_vars
      simp [State.tile, hdrop]
    · simp [State.tile, hdrop]
  · simp [State.tile, hdrop]

theorem abortBlock_fields : (s.abortBlock key).blks = s.blks.del key ∧
    (s.abortBlock key).waits = s.waits.filter (fun w => w.key ≠ key) ∧ (s.abortBlock key).mem = s.mem ∧
    (s.abortBlock key).log = s.log ∧ (s.abortBlock key).parts = s.parts := by
  have hdrop : (s.reconfDrop key) = { s with regions := (s.reconfDrop key).regions } := by
    unfold State.reconfDrop
    dsimp only
    split
    · split <;> rfl
    · rfl
  unfold State.abortBlock
  dsimp only
  rw [hdrop]
  split <;> exact ⟨rfl, rfl, rfl, rfl, rfl⟩

/-- What taking a fault comes to, the way it goes and the bytes it writes apart (R104, R109). -/
structure Entered (s u : State) (key : Nat) : Prop where
  ctx : u.ctx key = { s.ctx key with irv := List.replicate 8 none, replaying := false }
  others : ∀ k, k ≠ key → u.ctx k = s.ctx k
  fltcnt : (u.tile (key / 16)).fltcnt = ((s.tile (key / 16)).fltcnt + 1) % 2 ^ 32
  frameva : (u.tile (key / 16)).frameva = (s.tile (key / 16)).frameva
  blks : u.blks.get? key = none
  waits : ∀ w ∈ u.waits, w.key ≠ key
  parts : u.parts = s.parts

theorem entered_faultEntered : Entered s (s.faultEntered key f) key := by
  have hw := faultWritten_log (s := s) (key := key) (f := f)
  obtain ⟨hblks, hwaits, -, -, hparts⟩ := abortBlock_fields (s := s.faultWritten key f) (key := key)
  have hctx : ∀ k, ((s.faultWritten key f).abortBlock key).ctx k = s.ctx k := fun k => by
    rw [ctx_of_ctxs (Prod.mk.inj (abortBlock_ctxs_tasks _ _)).1, hw]
    exact faultCounted_ctx k
  have htile := abortBlock_tile (s := s.faultWritten key f) (key := key) (key / 16)
  have hwritten : (s.faultWritten key f).tile (key / 16) = (s.faultCounted key).tile (key / 16) := by
    rw [hw]
    rfl
  rw [hwritten] at htile
  refine ⟨?ctx, ?others, ?fltcnt, ?frameva, ?blks, ?waits, ?parts⟩
  case ctx => rw [State.faultEntered, updCtx_ctx_same, hctx]
  case others => exact fun k hk => (updCtx_ctx_other _ _ _ (Ne.symm hk)).trans (hctx k)
  case fltcnt =>
    have h := congrArg Tile.fltcnt htile
    exact h.trans faultCounted_fltcnt
  case frameva =>
    have h := congrArg Tile.frameva htile
    exact h.trans faultCounted_frameva
  case blks =>
    refine (congrArg (Map.get? · key) hblks).trans ?_
    rw [map_get_del, if_pos rfl]
  case waits =>
    intro w hmem
    have h : w ∈ (s.faultWritten key f).waits.filter (fun w => w.key ≠ key) := hwaits ▸ hmem
    simpa using (List.mem_filter.mp h).2
  case parts =>
    refine hparts.trans ?_
    rw [hw, State.faultCounted, count_fields]
    rfl

/-- A record appended to a supervisor fault queue changes none of this. -/
theorem Entered.fqAppend {u : State} (h : Entered s u key) (part : Nat) (ws : List W64) :
    Entered s (u.fqAppend part ws).2 key := by
  rw [fqAppend_log]
  exact ⟨h.ctx, h.others, h.fltcnt, h.frameva, h.blks, h.waits, h.parts⟩

/-! ### Where a fault goes -/

/-- The way a fault goes: to the handler, or to HELD with a copy for the supervisor (R105, R107). -/
theorem takeFault_eq (sup : Bool) : s.takeFault key f sup =
    if !sup && s.handles key then
      (s.faultEntered key f).updCtx key fun c => { c with inh := true, next := c.handler }
    else
      ((s.faultEntered key f).fqAppend (s.ctx key).part (s.faultRecord key f)).2.updCtx key fun c =>
        { c with
          st := .held
          fqPend := !((s.faultEntered key f).fqAppend (s.ctx key).part (s.faultRecord key f)).1
          live := 0xFFFFFFFFFFFFFFFE } := by
  have h : ((s.faultEntered key f).tile (key / 16)).frameva = (s.tile (key / 16)).frameva := entered_faultEntered.frameva
  rw [State.handles, ← h, ← Bool.and_assoc, ← Bool.and_assoc]
  rfl

/-- Both ways enter the fault first, and then keep its context's irrevocable buffer and registers. -/
theorem takeFault_via (s : State) (key : Nat) (f : Flt) (sup : Bool) : ∃ u g, Entered s u key ∧
    (∀ c : Ctx, (g c).irv = c.irv ∧ (g c).g = c.g) ∧ s.takeFault key f sup = u.updCtx key g := by
  rw [takeFault_eq]
  split
  · refine ⟨_, _, entered_faultEntered, ?_, rfl⟩
    exact fun _ => ⟨rfl, rfl⟩
  · refine ⟨_, _, entered_faultEntered.fqAppend _ _, ?_, rfl⟩
    exact fun _ => ⟨rfl, rfl⟩

/-- Taking a fault counts it, and withdraws the block with what it waits for and recorded (R104, R109). -/
theorem takeFault_withdraws (s : State) (key : Nat) (f : Flt) (sup : Bool) :
    ((s.takeFault key f sup).tile (key / 16)).fltcnt = ((s.tile (key / 16)).fltcnt + 1) % 2 ^ 32 ∧
      (s.takeFault key f sup).blks.get? key = none ∧ (∀ w ∈ (s.takeFault key f sup).waits, w.key ≠ key) ∧
      ((s.takeFault key f sup).ctx key).irv = List.replicate 8 none ∧
      ((s.takeFault key f sup).ctx key).g = (s.ctx key).g ∧
      ∀ k, k ≠ key → (s.takeFault key f sup).ctx k = s.ctx k := by
  obtain ⟨u, g, hu, hg, ht⟩ := takeFault_via s key f sup
  obtain ⟨hirv, hregs⟩ := hg (u.ctx key)
  rw [ht, updCtx_ctx_same]
  refine ⟨hu.fltcnt, hu.blks, hu.waits, ?_, ?_, fun k hk => ?_⟩
  · rw [hirv, hu.ctx]
  · rw [hregs, hu.ctx]
  · rw [updCtx_ctx_other _ _ _ (Ne.symm hk), hu.others k hk]

/-- A fault that its handler takes (R105). -/
theorem takeFault_handled {sup : Bool} (hs : sup = false) (hh : s.handles key = true) :
    (s.takeFault key f sup).ctx key = { s.ctx key with
      irv := List.replicate 8 none, replaying := false, inh := true, next := (s.ctx key).handler } := by
  rw [takeFault_eq, hs, hh, if_pos (by rfl), updCtx_ctx_same, entered_faultEntered.ctx]

/-- Any other holds the strand, with every register live (R107; log 26). -/
theorem takeFault_held {sup : Bool} (h : ¬(sup = false ∧ s.handles key = true)) :
    ((s.takeFault key f sup).ctx key).st = .held ∧ ((s.takeFault key f sup).ctx key).inh = (s.ctx key).inh ∧
      ((s.takeFault key f sup).ctx key).live = 0xFFFFFFFFFFFFFFFE := by
  rw [takeFault_eq, if_neg (by simpa using h), updCtx_ctx_same, (entered_faultEntered.fqAppend _ _).ctx]
  exact ⟨rfl, rfl, rfl⟩

/-! ### The record -/

/-- A partition without a supervisor fault queue (R200). -/
theorem fqAppend_none {part : Nat} (h : s.partW part 4 = 0) (ws : List W64) : s.fqAppend part ws = (true, s) := by
  simp [State.fqAppend, h]

/-- Where no copy goes to a queue, the frame's words are all that is written. -/
theorem takeFault_rd64 (sup : Bool) (hp : s.partW (s.ctx key).part 4 = 0) (x : Nat) :
    (s.takeFault key f sup).rd64 x = (s.faultWritten key f).rd64 x := by
  have hrd : (s.faultEntered key f).rd64 x = (s.faultWritten key f).rd64 x := by
    obtain ⟨-, -, hmem, hlog, -⟩ := abortBlock_fields (s := s.faultWritten key f) (key := key)
    exact rd64_of_fields hmem hlog x
  have hq : (s.faultEntered key f).partW (s.ctx key).part 4 = 0 := by
    rw [← hp, State.partW, State.partW, State.partE, State.partE, entered_faultEntered.parts]
  rw [takeFault_eq, fqAppend_none hq]
  split <;> exact hrd

/-- The record stands in the frame, which what is written behind it leaves alone (R98, R99). -/
theorem faultWritten_rd64 {i : Nat} (hi : i < 8) :
    (s.faultWritten key f).rd64 (recordPa key (s.ctx key).inh + 8 * i) = (s.faultRecord key f).getD i 0 := by
  have hrecord := rd64_wrWords (s.faultRecord key f) (s.faultCounted key) (recordPa key (s.ctx key).inh) i hi
  unfold State.faultWritten
  dsimp only
  split
  next => exact hrecord
  next hn =>
    have hpa : recordPa key (s.ctx key).inh = framePa key := by
      rw [recordPa, if_neg hn, Nat.add_zero]
    rw [rd64_wrWords_below _ (by omega), rd64_wrWords_below _ (by omega), hrecord]

/-- The eight words of the record (R99). -/
theorem faultRecord_words : ∃ irv, s.faultRecord key f =
    [w64 (infoWord key f irv ((s.ctx key).priv && !(s.ctx key).inh) (s.ctx key).inh), f.block, f.addr, f.extra,
      (s.ctx key).ltag, (s.ctx key).wid, s.cycle, w64 (((s.tile (key / 16)).fltcnt + 1) % 2 ^ 32)] := by
  refine ⟨if f.code = .trap then 0 else irvDone (s.ctx key).irv, ?_⟩
  rw [State.faultRecord, recordWords, faultCounted_ctx, faultCounted_cycle, faultCounted_fltcnt]

end TakeFault

/-! ### Delivery, and resuming -/

section Delivery

variable {s : State} {key : Nat}

/-- An update of a context is what it does to it. -/
theorem updCtx_eq_of_same {f g : Ctx → Ctx} (h : f (s.ctx key) = g (s.ctx key)) : s.updCtx key f = s.updCtx key g :=
  congrArg (s.setCtx key) h

theorem exec_faultDelivery {t c z : Nat} {v : W64} {d : List Byte} (hf : s.focus = .ev t c z v d) :
    exec .faultDelivery s = .next (endStep s (s.deliverFault (ctxKey t c))) := by
  change execFaultDelivery s = _
  simp only [execFaultDelivery, run, hf]

/-- Of the faults pending, the first that waits for nothing is next, and the others stay (R103). -/
theorem asyncRest_append {g : Flt} (hg : g.behind = false) (m : List Flt) :
    ∀ l : List Flt, (∀ o ∈ l, o.behind = true) → asyncRest (l ++ g :: m) = l ++ m
  | [], _ => by rw [List.nil_append, asyncRest, hg, if_neg Bool.false_ne_true, List.nil_append]
  | o :: l, h => by
    rw [List.cons_append, asyncRest, h o List.mem_cons_self, if_pos rfl,
      asyncRest_append hg m l fun x hx => h x (List.mem_cons_of_mem o hx), List.cons_append]

theorem find_after_behind {l m : List Flt} {g : Flt} (hg : g.behind = false) (hl : ∀ o ∈ l, o.behind = true) :
    (l ++ g :: m).find? (fun g => !g.behind) = some g := by
  have hnone : l.find? (fun g => !g.behind) = none := List.find?_eq_none.mpr fun o ho => by simp [hl o ho]
  rw [List.find?_append, hnone, Option.none_or, List.find?_cons_of_pos (by simp [hg])]

section Deliverable

variable (hst : (s.ctx key).st = .run ∨ (s.ctx key).st = .stopreq) (ho : s.recordedOpen key = false)

include hst ho

theorem deliverFault_sync {g : Flt} (hg : (s.ctx key).sync = some g) : s.deliverFault key =
    (s.updCtx key (fun c => { c with sync := none, async := c.async.map (fun o => { o with behind := true }) })).takeFault
      key { g with block := s.faultBlock key } := by
  obtain h | h := hst <;> simp [State.deliverFault, h, ho, hg]

theorem deliverFault_async {l m : List Flt} {g : Flt} (hn : (s.ctx key).sync = none)
    (ha : (s.ctx key).async = l ++ g :: m) (hl : ∀ o ∈ l, o.behind = true) (hg : g.behind = false) : s.deliverFault key =
      (s.updCtx key (fun c => { c with async := l ++ m })).takeFault key
        { g with block := s.faultBlock key, idx := none } := by
  have hrest : s.updCtx key (fun c => { c with async := asyncRest c.async }) =
      s.updCtx key (fun c => { c with async := l ++ m }) :=
    updCtx_eq_of_same (congrArg (fun a => { s.ctx key with async := a }) ((congrArg asyncRest ha).trans
      (asyncRest_append hg m l hl)))
  obtain h | h := hst <;> simp only [State.deliverFault, h, ho, hn, ha, find_after_behind hg hl, hrest] <;> rfl

end Deliverable

theorem deliverFault_none (hn : (s.ctx key).sync = none) (ha : ∀ o ∈ (s.ctx key).async, o.behind = true) :
    s.deliverFault key = s := by
  have hfind : (s.ctx key).async.find? (fun g => !g.behind) = none := List.find?_eq_none.mpr fun o h => by simp [ha o h]
  simp [State.deliverFault, hn, hfind]

theorem resumeFault_ctx_same : (s.resumeFault key).ctx key = { s.ctx key with
    irv := irvOfWords (s.rdWords (framePa key + 0x40) 16), inh := false, next := s.rd64 (framePa key + 8),
    replaying := true, async := (s.ctx key).async.map (fun f => { f with behind := false }) } := updCtx_ctx_same ..

end Delivery

/-- Settles O55: what both ways of a fault share, each way by its own, the record by the words the frame holds, a delivery by
which fault is next. -/
theorem faultEntry : Obligations.FaultEntry := by
  intro s key f sup c t info at_
  refine ⟨takeFault_withdraws s key f sup, ?handler, ?held, ?record, ?resume, ?delivery, ?released⟩
  case handler =>
    intro hs hn hh hv
    have hctx := takeFault_handled (f := f) hs (handles_iff.mpr ⟨hn, hh, hv⟩)
    rw [show t.ctx key = _ from hctx]
    exact ⟨rfl, rfl, rfl, rfl⟩
  case held =>
    intro h
    refine takeFault_held fun ⟨hs, hh⟩ => ?_
    obtain ⟨hinh, hhandler, hframe⟩ := handles_iff.mp hh
    obtain h | h | h | h := h
    · exact Bool.false_ne_true (hs.symm.trans h)
    · exact Bool.false_ne_true (hinh.symm.trans h)
    · exact hhandler h
    · exact hframe h
  case record =>
    intro hp hsrc hreg hkey hidx
    obtain ⟨irv, hwords⟩ := faultRecord_words (s := s) (key := key) (f := f)
    have hat : ∀ i < 8, at_ i = (s.faultRecord key f).getD i 0 := fun i hi =>
      (takeFault_rd64 sup hp _).trans (faultWritten_rd64 hi)
    have hinfo : info = (w64 (infoWord key f irv (c.priv && !c.inh) c.inh)).toNat := by
      have h0 := hat 0 (by decide)
      rw [hwords] at h0
      exact congrArg BitVec.toNat h0
    have hfields := infoWord_fields irv (c.priv && !c.inh) c.inh hsrc hreg hkey hidx
    rw [← hinfo] at hfields
    obtain ⟨hcode, hix, hidxv, hsrc, hreg, hmore, hnest, htile, hctx, hpriv⟩ := hfields
    rw [hwords] at hat
    exact ⟨hcode, hix, hidxv, hsrc, hreg, hmore, hnest, htile, hctx, hpriv, hat 1 (by decide), hat 2 (by decide),
      hat 3 (by decide), hat 4 (by decide), hat 5 (by decide), hat 6 (by decide), hat 7 (by decide)⟩
  case resume =>
    rw [resumeFault_ctx_same]
    exact ⟨rfl, rfl, rfl, fun k hk => resumeFault_ctx s key k hk⟩
  case delivery =>
    rintro tl cx z v d _ hf rfl hst ho rfl
    refine ⟨fun g hg => ?_, fun g l m hn ha hl hg => ?_, fun hn ha => ?_⟩
    · rw [exec_faultDelivery hf, deliverFault_sync hst ho hg]
    · rw [exec_faultDelivery hf, deliverFault_async hst ho hn ha hl hg]
    · rw [exec_faultDelivery hf, deliverFault_none hn ha]
  case released =>
    intro o ho
    rw [resumeFault_ctx_same] at ho
    obtain ⟨g, -, rfl⟩ := List.mem_map.mp ho
    rfl

end Sys2Proof.Machine

/-! ## Element operations: number class, and what a firing leaves (O43) -/

namespace Sys2Proof.Machine

/-! ### The number class (R344) -/

section NumberClass

variable {lm md t : Nat} {fm : Fmt} {ops : List EOp}

/-- The tags of the operands that carry one. -/
def opTags (ops : List EOp) : List Nat := ops.filterMap EOp.tag

theorem mem_opTags : t ∈ opTags ops ↔ ∃ o ∈ ops, o.tag = some t := List.mem_filterMap

theorem forall_opTags {P : Nat → Prop} : (∀ u ∈ opTags ops, P u) ↔ ∀ o ∈ ops, ∀ u, o.tag = some u → P u := by
  simp only [mem_opTags]
  exact ⟨fun h o ho u hu => h u ⟨o, ho, hu⟩, fun h u ⟨o, ho, hu⟩ => h o ho u hu⟩

theorem opTags_eq_nil : opTags ops = [] ↔ ∀ o ∈ ops, o.tag = none := List.filterMap_eq_nil_iff

/-- The class through the tags that the operands carry. -/
theorem numClass_eq : numClass lm md ops = match (opTags ops).find? (fun t => 1 ≤ t && t ≤ 5) with
    | some t => if (opTags ops).all (· = t) && md = 0 && tagLm t = some lm then (tagFmt t).map (NC.flt t) else none
    | none => match (opTags ops).find? (13 ≤ ·) with
      | some t => if (opTags ops).all (fun x => x = t || x = 0) && md = 0 && tagLm t = some lm then some (.int t) else none
      | none => if (opTags ops).any (· ≠ 0) then none
        else if (opTags ops).isEmpty then classOfMod lm md
        else if md = 0 then some (.int 0) else none := rfl

/-- A floating-point tag among the operands decides, and every other tag must be the same. -/
theorem numClass_of_fltTag (ht : (opTags ops).find? (fun t => 1 ≤ t && t ≤ 5) = some t) : numClass lm md ops =
    if (∀ u ∈ opTags ops, u = t) ∧ md = 0 ∧ tagLm t = some lm then (tagFmt t).map (NC.flt t) else none := by
  rw [numClass_eq, ht]
  simp [and_assoc]

/-- Else an integer tag does, beside which raw operands may stand. -/
theorem numClass_of_intTag (hf : (opTags ops).find? (fun t => 1 ≤ t && t ≤ 5) = none)
    (ht : (opTags ops).find? (13 ≤ ·) = some t) : numClass lm md ops =
    if (∀ u ∈ opTags ops, u = t ∨ u = 0) ∧ md = 0 ∧ tagLm t = some lm then some (.int t) else none := by
  rw [numClass_eq, hf, ht]
  simp [and_assoc]

/-- Else MOD decides for operands without tags, and raw ones are integers. -/
theorem numClass_of_noTag (hf : (opTags ops).find? (fun t => 1 ≤ t && t ≤ 5) = none)
    (hi : (opTags ops).find? (13 ≤ ·) = none) : numClass lm md ops =
    if opTags ops = [] then classOfMod lm md else if (∀ u ∈ opTags ops, u = 0) ∧ md = 0 then some (.int 0) else none := by
  rw [numClass_eq, hf, hi]
  by_cases h : ∀ u ∈ opTags ops, u = 0
  · have hany : (opTags ops).any (· ≠ 0) = false := by simpa using h
    simp only [hany, and_iff_right h, List.isEmpty_iff]
    rfl
  · have hnil : opTags ops ≠ [] := fun e => h (by simp [e])
    simp [h, hnil]

/-- Floating point: by the tag that all tagged operands carry, or by MOD for operands without tags. -/
theorem numClass_flt_iff : numClass lm md ops = some (.flt t fm) ↔
    (1 ≤ t ∧ t ≤ 5 ∧ tagFmt t = some fm ∧ tagLm t = some lm ∧ md = 0 ∧ t ∈ opTags ops ∧ ∀ u ∈ opTags ops, u = t) ∨
      (opTags ops = [] ∧ classOfMod lm md = some (.flt t fm)) := by
  cases hf : (opTags ops).find? (fun t => 1 ≤ t && t ≤ 5) with
  | some v =>
    have hm := List.mem_of_find?_eq_some hf
    have hv : 1 ≤ v ∧ v ≤ 5 := by simpa using List.find?_some hf
    have hn : opTags ops ≠ [] := List.ne_nil_of_mem hm
    rw [numClass_of_fltTag hf]
    constructor
    · intro h
      split at h
      next hall =>
        obtain ⟨f, hfm, he⟩ := Option.map_eq_some_iff.mp h
        cases he
        exact .inl ⟨hv.1, hv.2, hfm, hall.2.2, hall.2.1, hm, hall.1⟩
      next => simp at h
    · rintro (⟨-, -, hfm, hlm, hmd, hmem, hall⟩ | ⟨hnil, -⟩)
      · obtain rfl := hall v hm
        rw [if_pos ⟨hall, hmd, hlm⟩, hfm]
        rfl
      · exact absurd hnil hn
  | none =>
    have hno : ∀ u ∈ opTags ops, 1 ≤ u → ¬u ≤ 5 := by simpa using hf
    have hleft : ∀ {p q r s : Prop}, ¬(1 ≤ t ∧ t ≤ 5 ∧ p ∧ q ∧ r ∧ t ∈ opTags ops ∧ s) :=
      fun ⟨h1, h5, _, _, _, hm, _⟩ => hno t hm h1 h5
    rw [or_iff_right hleft]
    cases hi : (opTags ops).find? (13 ≤ ·) with
    | some v =>
      have hn : opTags ops ≠ [] := List.ne_nil_of_mem (List.mem_of_find?_eq_some hi)
      rw [numClass_of_intTag hf hi]
      simp [hn]
    | none =>
      rw [numClass_of_noTag hf hi]
      split
      next hnil => simp [hnil]
      next hnil => simp [hnil]

/-- Integers: by their tag, beside which raw operands may stand, by raw operands alone, or by MOD for operands without
tags. -/
theorem numClass_int_iff : numClass lm md ops = some (.int t) ↔
    (13 ≤ t ∧ tagLm t = some lm ∧ md = 0 ∧ t ∈ opTags ops ∧ ∀ u ∈ opTags ops, u = 0 ∨ u = t) ∨
      (t = 0 ∧ md = 0 ∧ 0 ∈ opTags ops ∧ ∀ u ∈ opTags ops, u = 0) ∨
      (opTags ops = [] ∧ classOfMod lm md = some (.int t)) := by
  cases hf : (opTags ops).find? (fun t => 1 ≤ t && t ≤ 5) with
  | some v =>
    have hm := List.mem_of_find?_eq_some hf
    have hv : 1 ≤ v ∧ v ≤ 5 := by simpa using List.find?_some hf
    rw [numClass_of_fltTag hf]
    refine iff_of_false (fun h => ?_) ?_
    · split at h
      next => simp at h
      next => simp at h
    · rintro (⟨ht, -, -, -, hall⟩ | ⟨-, -, -, hall⟩ | ⟨hnil, -⟩)
      · have := hall v hm
        omega
      · have := hall v hm
        omega
      · exact List.ne_nil_of_mem hm hnil
  | none =>
    cases hi : (opTags ops).find? (13 ≤ ·) with
    | some v =>
      have hm := List.mem_of_find?_eq_some hi
      have hv : 13 ≤ v := by simpa using List.find?_some hi
      rw [numClass_of_intTag hf hi]
      constructor
      · intro h
        split at h
        next hall =>
          cases h
          exact .inl ⟨hv, hall.2.2, hall.2.1, hm, fun u hu => (hall.1 u hu).symm⟩
        next => simp at h
      · rintro (⟨ht, hlm, hmd, -, hall⟩ | ⟨-, -, -, hall⟩ | ⟨hnil, -⟩)
        · obtain rfl : v = t := by
            have := hall v hm
            omega
          exact if_pos ⟨fun u hu => (hall u hu).symm, hmd, hlm⟩
        · have := hall v hm
          omega
        · exact absurd hnil (List.ne_nil_of_mem hm)
    | none =>
      have hno : ∀ u ∈ opTags ops, ¬13 ≤ u := by simpa using hi
      have hleft : ∀ {p q s : Prop}, ¬(13 ≤ t ∧ p ∧ q ∧ t ∈ opTags ops ∧ s) := fun ⟨h, _, _, hm, _⟩ => hno t hm h
      rw [numClass_of_noTag hf hi, or_iff_right hleft]
      split
      next hnil => simp [hnil]
      next hnil =>
        obtain ⟨u, hu⟩ := List.exists_mem_of_ne_nil _ hnil
        constructor
        · intro h
          split at h
          next hall =>
            cases h
            exact .inl ⟨rfl, hall.2, hall.1 u hu ▸ hu, hall.1⟩
          next => simp at h
        · rintro (⟨rfl, hmd, -, hall⟩ | ⟨h, -⟩)
          · exact if_pos ⟨hall, hmd⟩
          · exact absurd h hnil


/-- No operand carries another tag than these. -/
theorem forall_tag_iff {P : Nat → Prop} : (∀ u ∈ opTags ops, P u) ↔
    ∀ o ∈ ops, o.tag = none ∨ ∃ u, o.tag = some u ∧ P u := by
  rw [forall_opTags]
  refine forall₂_congr fun o _ => ?_
  cases o.tag <;> simp

end NumberClass

/-! ### Firing -/

/-- The answer of a slot whose element fires: its effect joins the region's cycle, or it faults (R339, R341). -/
theorem run_fireElem {s : State} {opc slot : Nat} {x : EEnv} (H : ElemFires s opc slot x) (body : EEnv → Option EEff) :
    run (fireElem opc x.f body) s = match body x with
      | none => s.elemFaults opc slot x
      | some y => s.elemDone opc slot x y := by
  obtain ⟨tile, e, rk, el, f, leader, follow, rm, trig, free⟩ := x
  obtain ⟨hfocus, hplace, hruns, hel, htrig, hfollow, hready, himplicit, hleader, hrm, hfree⟩ := H
  dsimp only at *
  subst hplace hel htrig hfollow hleader hrm hfree
  simp only [run, fireElem, State.elemDone, State.elemFaults, hfocus, hruns, hready, himplicit, Bool.and_self, if_true]
  rcases body _ with _ | y <;> rfl

theorem run_fireElem_of_none {s : State} {opc slot : Nat} {x : EEnv} (H : ElemFires s opc slot x)
    {body : EEnv → Option EEff} (hb : body x = none) : run (fireElem opc x.f body) s = s.elemFaults opc slot x := by
  rw [run_fireElem H, hb]

section Classless

variable {x : EEnv}

/-- Operations of the class of their operands fault without one (R344). -/
theorem arith_of_none {ops : List EOp} (h : numClass x.lm x.md ops = none)
    (ff : Fmt → Option (Nat → Nat × Nat)) (fi : Nat → Nat) :
    arith ops ff fi x = none := by
  rw [arith, h]
  rfl

theorem cmpElem_of_none (h : numClass x.lm x.md [x.a, x.b] = none) : cmpElem x = none := by
  rw [cmpElem, h]

/-- Logic faults on a block format (R347). -/
theorem logic_of_bfp (h : x.a.bfp = true ∨ x.b.bfp = true) (g : EEnv → W64) : logic (fun x => [x.a, x.b]) g x = none := by
  simp [logic, h]

end Classless

/-! ### A firing alone in its cycle -/

section Alone

variable {s : State} {rk k : Nat} {el : Elem}

theorem flagRegion_fields (s : State) (rk fl : Nat) :
    s.flagRegion rk fl = { s with regions := (s.flagRegion rk fl).regions } := by
  unfold State.flagRegion
  split <;> rfl

/-- Flags are sticky (R71, R72). -/
theorem flagRegion_region (s : State) (rk fl : Nat) :
    (s.flagRegion rk fl).region rk = { s.region rk with fpstat := (s.region rk).fpstat ||| w64 (fl % 32) } := by
  unfold State.flagRegion
  split
  next h =>
    subst h
    have h0 : (s.region rk).fpstat ||| w64 (0 % 32) = (s.region rk).fpstat := BitVec.or_zero
    rw [h0]
  next => exact updRegion_region_same ..

/-- A firing alone in its cycle ends it (R339). -/
theorem gather_alone (h : (s.region rk).cyc = none) (e : Nat) (el : Option Elem) (fl : Nat) (fault : Option Nat) :
    s.gather rk e el fl fault = s.gridApply rk ⟨(el.map fun x => (e, x)).toList, (s.region rk).rm, fl,
      (fault.map fun x => (e % 64, x)).toList, 0⟩ := by
  have hfl : fOr 0 fl = fl := Nat.zero_or fl
  simp only [State.gather, h, Option.getD_none, Nat.sub_self, if_true, hfl]
  cases el <;> cases fault <;> rfl

/-- An effect alone in its cycle: its element, and the flags of its region. -/
theorem gather_effect (h : (s.region rk).cyc = none) (e : Nat) (el : Elem) (fl : Nat) :
    s.gather rk e (some el) fl none = (s.setElem e el).flagRegion rk fl := by
  have hcyc : (((s.setElem e el).flagRegion rk fl).region rk).cyc = none := by
    rw [flagRegion_region]
    exact h
  rw [gather_alone h]
  change (if (((s.setElem e el).flagRegion rk fl).region rk).cyc.isSome = true then _ else _) = _
  rw [hcyc]
  rfl

/-- The region stopped by a fault of its elements (R341). -/
def State.regionStopped (s : State) (rk : Nat) : State := s.updRegion rk fun r => { r with stopped := true }

theorem regionStopped_stopped : ((s.regionStopped rk).region rk).stopped = true := by
  rw [State.regionStopped, updRegion_region_same]

theorem regionStopped_regionCtx : (s.regionStopped rk).regionCtx rk = s.regionCtx rk := by
  unfold State.regionCtx State.regionStopped
  rw [updRegion_region_same]
  rfl

/-- A fault alone in its cycle stops the region, and goes to the context that owns it (R101, R103, R341). -/
theorem gather_fault (h : (s.region rk).cyc = none) (e m : Nat) : s.gather rk e none 0 (some m) =
    match s.regionCtx rk with
    | none => s.regionStopped rk
    | some k => (s.regionStopped rk).asyncFault k { code := .formatMismatch, extra := w64 m, src := 1, reg := rk % 4 } := by
  rw [gather_alone h, ← regionStopped_regionCtx]
  simp only [State.gridApply, Option.map_none, Option.map_some, Option.toList_none, Option.toList_some, List.foldl_nil,
    State.flagRegion, if_true, h, Option.isSome_none, Bool.false_eq_true, if_false]
  rfl

/-- The first fault of a source is pending from then on (R103). -/
theorem asyncFault_mem {f : Flt} (h : ∀ g ∈ (s.ctx k).async, g.src ≠ f.src) : f ∈ ((s.asyncFault k f).ctx k).async := by
  have hnone : (s.ctx k).async.any (fun g => g.src = f.src) = false := by simpa using h
  rw [State.asyncFault, updCtx_ctx_same, hnone]
  simp

end Alone

/-! ### The element after a firing (R339, R340) -/

section Applied

variable (x : EEnv) (opc slot : Nat) (y : EEff)

/-- The inputs whose heads a firing consumes: those it reads, and those its effect names beside them (R338, R356). -/
def EEff.eaten : List Nat := (if y.eat && !x.f.keep then (opInputs opc x.f).dedup else []) ++ y.eats

/-- The E registers and their tags, with the result in the one that is the target (R301, R340). -/
def EEff.regs : Map W64 := if x.f.dst.toNat < 8 then x.el.e.put x.f.dst.toNat y.res else x.el.e
def EEff.tags : Map Nat := if x.f.dst.toNat < 8 then x.el.etag.put x.f.dst.toNat y.tag else x.el.etag

/-- TKOUT's sentinel in its register (R355). -/
def EEff.wiped (m : Map W64) : Map W64 := match y.wipe with
  | some (n, v) => m.put n v
  | none => m

/-- The element with the result's token at the output that is the target (R301). -/
def EEff.emitted : Elem :=
  if 8 ≤ x.f.dst.toNat ∧ x.f.dst.toNat < 12 then x.el.push (x.f.dst.toNat - 8) ⟨y.res, y.tok.1, y.tok.2⟩ else x.el

/-- The predicates, with the firing's own in the one that it writes (R340). -/
def EEff.preds : BitVec 8 :=
  if x.f.pwe then
    if y.pred.getD (y.res ≠ 0) then x.el.p ||| BitVec.twoPow 8 x.f.pidx.toNat
    else x.el.p &&& ~~~(BitVec.twoPow 8 x.f.pidx.toNat)
  else x.el.p

/-- An element with an end-of-stream token at each of these outputs (R356). -/
def Elem.endAll (el : Elem) (l : List Nat) : Elem := l.foldl (fun el n => el.push n ⟨0, 0, true⟩) el

theorem popAll_fields (l : List Nat) (el : Elem) : l.foldl Elem.pop el = { el with ins := (l.foldl Elem.pop el).ins } :=
  List.foldlRecOn l Elem.pop (motive := fun f => f = { el with ins := f.ins }) rfl fun f hf n _ => by
    rw [Elem.pop, hf]

/-- Ending outputs looks at outputs alone, and changes no more. -/
theorem endAll_eq {el el' : Elem} (h : el.outs = el'.outs) (l : List Nat) :
    el.endAll l = { el with outs := (el'.endAll l).outs } := by
  induction l generalizing el el' with
  | nil =>
    change el = { el with outs := el'.outs }
    rw [← h]
  | cons n l ih => exact ih (congrArg (fun o => o.put n (o.getD [] n ++ [⟨0, 0, true⟩])) h)

theorem apply_eq : y.apply x opc slot =
    { x.el with
      ins := ((y.eaten x opc).foldl Elem.pop x.el).ins
      e := y.wiped (y.regs x)
      etag := y.tags x
      outs := ((y.emitted x).endAll y.outs).outs
      p := y.preds x
      chain := y.chain.getD y.res
      slot := some slot } := by
  unfold EEff.apply
  extract_lets el ins el1 d el2 el3 el4 bit el5
  have h1 : el1 = { x.el with ins := ((y.eaten x opc).foldl Elem.pop x.el).ins } := popAll_fields ..
  have h2 : el2 = { el1 with e := y.regs x, etag := y.tags x, outs := (y.emitted x).outs } := by
    by_cases h8 : x.f.dst.toNat < 8
    · have hout : ¬(8 ≤ x.f.dst.toNat ∧ x.f.dst.toNat < 12) := fun h => absurd h.1 (Nat.not_le.mpr h8)
      simp only [el2, d, h1, EEff.regs, EEff.tags, EEff.emitted, if_pos h8, if_neg hout]
    · have hout : (8 ≤ x.f.dst.toNat ∧ x.f.dst.toNat < 12) ↔ x.f.dst.toNat < 12 := and_iff_right (Nat.not_lt.mp h8)
      simp only [el2, d, h1, EEff.regs, EEff.tags, EEff.emitted, if_neg h8, hout]
      split <;> rfl
  have h3 : el3 = { el2 with outs := ((y.emitted x).endAll y.outs).outs } := endAll_eq (by rw [h2]) y.outs
  have h4 : el4 = { el3 with e := y.wiped el3.e } := by
    rcases hw : y.wipe with _ | ⟨n, v⟩ <;> simp only [el4, EEff.wiped, hw]
  have h5 : el5 = { el4 with p := y.preds x } := by
    have hp : el4.p = x.el.p := by rw [h4, h3, h2, h1]
    by_cases hw : x.f.pwe = true
    · simp only [el5, EEff.preds, if_pos hw, hp, bit]
    · simp only [el5, EEff.preds, if_neg hw, ← hp]
  rw [h5, h4, h3, h2, h1]

/-- Heads taken from different inputs. -/
theorem popAll_ins : ∀ {l : List Nat}, l.Nodup → ∀ (el : Elem) (i : Nat), (l.foldl Elem.pop el).ins.getD [] i =
    if i ∈ l then (el.ins.getD [] i).drop 1 else el.ins.getD [] i
  | [], _, _, _ => by simp
  | n :: l, h, el, i => by
    obtain ⟨hn, hl⟩ := List.nodup_cons.mp h
    rw [List.foldl_cons, popAll_ins hl, Elem.pop, map_getD_put]
    by_cases hi : n = i
    · subst hi
      simp [hn]
    · simp [hi, Ne.symm hi]

theorem getLsbD_preds (hw : x.f.pwe = true) {i : Nat} (hi : i < 8) : (y.preds x).getLsbD i =
    if i = x.f.pidx.toNat then y.pred.getD (y.res ≠ 0) else x.el.p.getLsbD i := by
  rw [EEff.preds, if_pos hw]
  by_cases h : x.f.pidx.toNat = i
  · cases y.pred.getD (y.res ≠ 0) <;> simp [h, hi]
  · cases y.pred.getD (y.res ≠ 0) <;> simp [h, hi, eq_comm (a := i)]

theorem regs_getD (i : Nat) :
    (y.regs x).getD 0 i = if x.f.dst.toNat < 8 ∧ i = x.f.dst.toNat then y.res else x.el.e.getD 0 i := by
  unfold EEff.regs
  split
  next h => rw [map_getD_put]; simp [h, eq_comm]
  next h => simp [h]

theorem tags_getD (i : Nat) :
    (y.tags x).getD 0 i = if x.f.dst.toNat < 8 ∧ i = x.f.dst.toNat then y.tag else x.el.etag.getD 0 i := by
  unfold EEff.tags
  split
  next h => rw [map_getD_put]; simp [h, eq_comm]
  next h => simp [h]

theorem emitted_outs (i : Nat) : (y.emitted x).outs.getD [] i = x.el.outs.getD [] i ++
    if 8 ≤ x.f.dst.toNat ∧ x.f.dst.toNat < 12 ∧ i + 8 = x.f.dst.toNat then [⟨y.res, y.tok.1, y.tok.2⟩] else [] := by
  unfold EEff.emitted
  split
  next h =>
    rw [Elem.push, map_getD_put]
    by_cases hi : i + 8 = x.f.dst.toNat
    · have hd : x.f.dst.toNat - 8 = i := by omega
      simp [h, hi, hd]
    · rw [if_neg (by omega), if_neg (fun c => hi c.2.2), List.append_nil]
  next h => rw [if_neg (fun c => h ⟨c.1, c.2.1⟩), List.append_nil]

/-- Without other inputs named, the heads consumed are those that the operation reads, unless it keeps them (R338). -/
theorem eaten_ins (he : y.eats = []) (i : Nat) : ((y.eaten x opc).foldl Elem.pop x.el).ins.getD [] i =
    if y.eat = true ∧ x.f.keep = false ∧ i ∈ opInputs opc x.f then (x.el.ins.getD [] i).drop 1 else x.el.ins.getD [] i := by
  rw [EEff.eaten, he, List.append_nil]
  split
  next h =>
    rw [popAll_ins (List.nodup_dedup _)]
    have hk : y.eat = true ∧ x.f.keep = false := by simpa using h
    simp [hk]
  next h =>
    have hk : ¬(y.eat = true ∧ x.f.keep = false) := by simpa using h
    exact (if_neg fun c => hk ⟨c.1, c.2.1⟩).symm

end Applied

/-! ### The machine after a firing alone in its cycle -/

section Answer

variable {s : State} {opc slot : Nat} {x : EEnv} {y : EEff}

/-- The machine with the free value drawn that an effect used (log 3). -/
def State.drawn (s : State) (drew : Bool) : State := if drew then { s with freeCtr := s.freeCtr + 1 } else s

theorem drawn_fields (s : State) (drew : Bool) : s.drawn drew = { s with freeCtr := (s.drawn drew).freeCtr } := by
  unfold State.drawn
  split <;> rfl

/-- What a firing alone in its cycle changes (R339): its element, its region's flags, its tile's counters, the count of free
values. -/
structure FiredAlone (s t : State) (rk k : Nat) (el : Elem) (flags : Nat) : Prop where
  elem : t.elem k = el
  others : ∀ j, j ≠ k → t.elem j = s.elem j
  fpstat : (t.region rk).fpstat = (s.region rk).fpstat ||| w64 (flags % 32)
  ctxs : ∀ j, t.ctx j = s.ctx j
  mem : t.mem = Mem.flush s.mem s.log

theorem elemDone_alone (h : (s.region x.rk).cyc = none) : ∃ t, s.elemDone opc slot x y = .next t ∧
    FiredAlone s t x.rk (64 * x.tile + x.e) (y.apply x opc slot) y.flags := by
  have hcyc : ((s.drawn y.drew).region x.rk).cyc = none := by
    rw [drawn_fields]
    exact h
  refine ⟨_, rfl, ?_⟩
  change FiredAlone s (endStep s (((s.drawn y.drew).gather ..).count ..)) ..
  rw [gather_effect hcyc, count_fields, drawn_fields]
  refine ⟨?elem, ?others, ?fpstat, ?ctxs, ?mem⟩
  case elem =>
    rw [flagRegion_fields]
    exact setElem_elem_same ..
  case others =>
    intro j hj
    rw [flagRegion_fields]
    exact (setElem_elem ..).trans (if_neg (Ne.symm hj))
  case fpstat => exact congrArg Region.fpstat (flagRegion_region ..)
  case ctxs =>
    intro j
    rw [flagRegion_fields]
    rfl
  case mem =>
    rw [flagRegion_fields]
    rfl

/-- A firing that faults alone in its cycle performs nothing, stops its region, and leaves its fault pending (R101, R103,
R341). -/
theorem elemFaults_alone (h : (s.region x.rk).cyc = none) : ∃ t, s.elemFaults opc slot x = .next t ∧
    (∀ k, t.elem k = s.elem k) ∧ (t.region x.rk).stopped = true ∧
    ∀ k, s.regionCtx x.rk = some k → (∀ f ∈ (s.ctx k).async, f.src ≠ 1) → ∃ f ∈ (t.ctx k).async,
      f.code = .formatMismatch ∧ f.extra = w64 (x.mismatch opc slot) ∧ f.src = 1 ∧ f.reg = x.rk % 4 := by
  refine ⟨_, rfl, ?_⟩
  rw [gather_fault h]
  cases hk : s.regionCtx x.rk with
  | none => exact ⟨fun _ => rfl, regionStopped_stopped, fun _ hn => by cases hn⟩
  | some k =>
    refine ⟨fun _ => rfl, regionStopped_stopped (s := s), ?_⟩
    rintro _ ⟨⟩ hsrc
    exact ⟨_, asyncFault_mem hsrc, rfl, rfl, rfl, rfl⟩

end Answer

/-- Settles O43: the class by the tags that the operands carry, a fault by the class or tag that is missing, the rest by what a
firing alone in its cycle changes. -/
theorem elementEffects : Obligations.ElementEffects := by
  refine ⟨fun s slot x lm md t fm ops => ⟨?flt, ?int, fun hn => ?classless, fun hb => ?blocks, fun ha => ?tagged⟩,
    fun s opc slot x y H hc => ⟨?done, elemFaults_alone hc⟩⟩
  case flt =>
    rw [numClass_flt_iff, opTags_eq_nil, forall_tag_iff, mem_opTags]
    simp
  case int =>
    rw [numClass_int_iff, opTags_eq_nil, forall_tag_iff, forall_tag_iff, mem_opTags, mem_opTags]
    simp [and_or_left, exists_or]
  case classless =>
    exact ⟨fun H => run_fireElem_of_none H (arith_of_none hn ..), fun H => run_fireElem_of_none H (arith_of_none hn ..),
      fun H => run_fireElem_of_none H (arith_of_none hn ..), fun H => run_fireElem_of_none H (arith_of_none hn ..),
      fun H => run_fireElem_of_none H (arith_of_none hn ..), fun H => run_fireElem_of_none H (cmpElem_of_none hn)⟩
  case blocks =>
    exact ⟨fun H => run_fireElem_of_none H (logic_of_bfp hb _), fun H => run_fireElem_of_none H (logic_of_bfp hb _),
      fun H => run_fireElem_of_none H (logic_of_bfp hb _)⟩
  case tagged =>
    exact ⟨fun H => run_fireElem_of_none H (if_pos (by simp [ha])), fun H => run_fireElem_of_none H (if_pos ha)⟩
  case done =>
    obtain ⟨t, ht, hf⟩ := elemDone_alone (opc := opc) (slot := slot) (y := y) hc
    refine ⟨t, ht, hf.elem, hf.others, hf.fpstat, hf.ctxs, hf.mem, ?_⟩
    rw [hf.elem, apply_eq]
    refine ⟨fun _ => rfl, rfl, fun hw => ?_, fun hw i hi => getLsbD_preds x y hw hi, fun hw i => ?_, tags_getD x y,
      fun ho i => ?_, eaten_ins x opc y⟩
    · exact if_neg (by simp [hw])
    · have hsame : y.wiped (y.regs x) = y.regs x := by rw [EEff.wiped, hw]
      exact (congrArg (Map.getD 0 · i) hsame).trans (regs_getD x y i)
    · rw [ho]
      exact emitted_outs x y i

end Sys2Proof.Machine

/-! ## The state after reset (O60) -/

namespace Sys2Proof.Machine

/-- An entry of the channel table that nothing has written is not valid. -/
theorem emptyChan_v : ({} : Chan).v = false := by decide

/-- Settles O60: every table of the state after reset is empty, so each reader answers the reset value it names. -/
theorem resetState : Obligations.ResetState := by
  have hinv : Inv State.reset := ⟨rfl, rfl, rfl⟩
  exact ⟨hinv, rfl, rfl, rfl, fun _ => rfl, fun _ => ⟨rfl, fun _ => rfl⟩, fun _ => ⟨rfl, rfl⟩,
    fun _ => ⟨rfl, rfl, emptyChan_v⟩, rfl, rfl, rfl⟩

end Sys2Proof.Machine

/-! ## What the accesses of engines and units change -/

namespace Sys2Proof.Machine

/-- The machine without what accesses move: contexts and tiles, caches and translations, walks, queues at the ports, bytes
written, poison and free values drawn. -/
def State.bare (s : State) : State :=
  { s with
    ctxs := [], tiles := [], slices := [], tcache := [], slowq := [], dieTlb := [], ways := [], walks := [], log := [],
    freeCtr := 0, poison := [], poisonPages := [] }

/-- Between `s` and `t` accesses were made: every context is as before but for a raised fault (a walk that ended may raise
one), and so is the machine without what accesses move. -/
structure OnlyAccess (s t : State) : Prop where
  ctxs : ∀ k, ({ t.ctx k with sync := none } : Ctx) = { s.ctx k with sync := none }
  bare : t.bare = s.bare

namespace OnlyAccess

variable {s t u : State}

theorem refl (s : State) : OnlyAccess s s := ⟨fun _ => rfl, rfl⟩

theorem trans (h : OnlyAccess s t) (g : OnlyAccess t u) : OnlyAccess s u :=
  ⟨fun k => (g.ctxs k).trans (h.ctxs k), g.bare.trans h.bare⟩

/-- A change outside the contexts, of what accesses move. -/
theorem of_bare (hc : t.ctxs = s.ctxs) (hb : t.bare = s.bare) : OnlyAccess s t :=
  ⟨fun k => by rw [ctx_of_ctxs hc], hb⟩

theorem of_traffic (h : OnlyTraffic s t) : OnlyAccess s t :=
  have hb := congrArg State.bare h.rest
  of_bare (Prod.mk.inj h.ctxs_tasks).1 hb

theorem of_log (h : t = { s with log := t.log }) : OnlyAccess s t := by
  rw [h]
  exact of_bare rfl rfl

theorem wr (s : State) (pa n v : Nat) : OnlyAccess s (s.wr pa n v) := of_log (wr_log ..)

theorem fold {α : Type} {f : State → α → State} (h : ∀ s x, OnlyAccess s (f s x)) (l : List α) (s : State) :
    OnlyAccess s (l.foldl f s) :=
  List.foldlRecOn l f (motive := OnlyAccess s) (refl s) fun t ht x _ => ht.trans (h t x)

theorem syncFault (s : State) (key : Nat) (f : Flt) : OnlyAccess s (s.syncFault key f) := by
  have hd := DeliversAt.syncFault key s f
  refine ⟨fun k => ?_, by rw [hd.fields]; rfl⟩
  by_cases hk : key = k
  · subst hk
    rw [State.syncFault, updCtx_ctx_same]
    split
    · rfl
    · split <;> rfl
  · rw [hd.other k (Ne.symm hk)]

theorem setPoison (s : State) (pa : Nat) (v : Bool) : OnlyAccess s (s.setPoison pa v) := of_bare rfl rfl

theorem undefBytes (n : Nat) : ∀ (s : State) (pa : Nat), OnlyAccess s (s.undefBytes pa n) := by
  induction n with
  | zero => exact fun s _ => refl s
  | succ n ih =>
    intro s pa
    exact trans (t := { s with log := (pa, Config.freeByte s.freeCtr) :: s.log, freeCtr := s.freeCtr + 1 })
      (of_bare rfl rfl) (ih ..)

theorem wayLine (s : State) (way l : Nat) : OnlyAccess s (s.wayLine way l) := by
  unfold State.wayLine
  dsimp only
  split
  · exact refl s
  · split
    · exact of_bare rfl rfl
    · exact trans (t := { s with
        ways := s.ways.put (l / 128) 3
        tcache := s.tcache.filter (fun c => c.line ≠ l / 128) }) (of_bare rfl rfl) (undefBytes ..)

theorem wayTouch (s : State) (tr : Tr) (n : Nat) : OnlyAccess s (s.wayTouch tr n) := by
  unfold State.wayTouch
  split
  · exact fold (fun _ _ => wayLine ..) _ s
  · exact refl s

theorem tableWrite (s : State) (pa n : Nat) {f : State → State} (h : OnlyAccess s (f s)) :
    OnlyAccess s (s.tableWrite pa n f) :=
  h.trans (fold (fun _ _ => undefBytes ..) _ _)

/-! ### Walks and translations -/

theorem dieFill (s : State) (d : Nat) (e : TlbEnt) : OnlyAccess s (s.dieFill d e) := of_bare rfl rfl
theorem tlbFill (s : State) (t : Nat) (e : TlbEnt) : OnlyAccess s (s.tlbFill t e) := of_bare rfl rfl
theorem device (s : State) (t n : Nat) : OnlyAccess s (s.device t n) := of_bare rfl rfl
theorem reqSlice (s : State) (t : Option Nat) (pa : Nat) (w a : Bool) (cx : Option Nat) :
    OnlyAccess s (s.reqSlice t pa w a cx) := of_traffic (.slice ..)

theorem walkNow (s : State) (t part va : Nat) (w : Bool) (acc : Nat) : OnlyAccess s (s.walkNow t part va w acc).2 := by
  unfold State.walkNow
  split
  · exact refl s
  · dsimp only
    have hreads := fold (f := fun (s : State) pa => (s.device t 1).reqSlice none pa false)
      (fun s pa => (device s t 1).trans (reqSlice ..)) (walkReads s va 3 0 (bitsOf (s.partW part 3) 16 36 * 2 ^ 16)) s
    split
    · exact hreads
    · exact hreads
    · refine (OnlyAccess.trans ?_ (dieFill ..)).trans (tlbFill ..)
      generalize (if w = true then (0x60 : W64) else 0x20) = m
      split
      · exact hreads
      · exact hreads.trans (((device ..).trans (reqSlice ..)).trans (wr ..))

theorem pageWalkComplete (n : Nat) (s : State) : OnlyAccess s (pageWalkComplete n s) := by
  unfold Machine.pageWalkComplete
  split
  · exact refl s
  next w _ =>
    split
    · exact refl s
    · dsimp only
      have hended : OnlyAccess s { s with walks := s.walks.eraseIdx n } := of_bare rfl rfl
      have hw := hended.trans (walkNow _ w.tile w.part w.va.toNat w.write 0)
      split
      next h => rwa [h] at hw
      next h =>
        rw [h] at hw
        exact hw.trans (fold (fun _ _ => syncFault ..) _ _)

theorem freeWalker (d : Nat) : ∀ (n : Nat) (s : State), OnlyAccess s (s.freeWalker d n)
  | 0, s => refl s
  | n + 1, s => by
    unfold State.freeWalker
    dsimp only
    split
    · exact refl s
    · split
      · exact (pageWalkComplete ..).trans (freeWalker d n _)
      · exact refl s

theorem awaitWalk (s : State) (t asn va : Nat) : OnlyAccess s (s.awaitWalk t asn va) := by
  unfold State.awaitWalk
  split
  · exact fold (fun s _ => pageWalkComplete 0 s) _ s
  · exact freeWalker ..

theorem translateNow (s : State) (t part : Nat) (va : W64) (u : Use) : OnlyAccess s (s.translateNow t part va u).2 := by
  have ht := of_traffic (OnlyTraffic.translate s t part va u)
  unfold State.translateNow
  split
  next h => rwa [h] at ht
  next h => rwa [h] at ht
  next v h =>
    rw [h] at ht
    dsimp only
    have hwait := ht.trans ((of_traffic (OnlyTraffic.count v t 11 1 ((v.owner u).map Prod.fst) none)).trans (awaitWalk _ t
      (((v.count t 11 ((v.owner u).map Prod.fst)).asnOf part).getD 0) va.toNat))
    have hwalk := hwait.trans (walkNow _ t part va.toNat u.wr u.acc)
    split
    next g => rwa [g] at hwalk
    next g => rwa [g] at hwalk

/-! ### Lines written -/

theorem writeLines (s : State) (pa : Nat) (bs : List Byte) (off : Nat) : OnlyAccess s (s.writeLines pa bs off).2 := by
  unfold State.writeLines
  refine List.foldlRecOn (linesOf pa bs.length) _ (motive := fun x : Option Nat × State => OnlyAccess s x.2) (refl s)
    fun x hx line _ => ?_
  dsimp only
  split
  · exact hx
  · exact hx.trans ((of_log (wrBytes_log ..)).trans (setPoison ..))

end OnlyAccess

/-! ### Computations that only make accesses -/

/-- The machine as a computation leaves it, whatever it answers. -/
def endState {α : Type} : EStateM.Result Flt State α → State
  | .ok _ t => t
  | .error _ t => t

/-- Whatever it answers, the computation only makes accesses. -/
structure Accesses {α : Type} (m : M α) : Prop where
  keeps : ∀ s, OnlyAccess s (endState (m s))

namespace Accesses

variable {α β : Type} {m : M α} {s t : State}

theorem ok (h : Accesses m) {a : α} (hm : m s = .ok a t) : OnlyAccess s t := by
  simpa only [hm, endState] using h.keeps s

theorem error (h : Accesses m) {f : Flt} (hm : m s = .error f t) : OnlyAccess s t := by
  simpa only [hm, endState] using h.keeps s

theorem pure (a : α) : Accesses (Pure.pure a : M α) := ⟨fun s => .refl s⟩
theorem raise (f : Flt) : Accesses (Machine.raise f : M α) := ⟨fun s => .refl s⟩
theorem modS {f : State → State} (h : ∀ s, OnlyAccess s (f s)) : Accesses (Machine.modS f) := ⟨h⟩
theorem getS : Accesses Machine.getS := ⟨fun s => .refl s⟩

theorem bind {f : α → M β} (hm : Accesses m) (hf : ∀ a, Accesses (f a)) : Accesses (m >>= f) := by
  refine ⟨fun s => ?_⟩
  rw [effect_bind]
  cases h : m s with
  | error g t => exact hm.error h
  | ok a t => exact (hm.ok h).trans ((hf a).keeps t)

theorem mapM {f : α → M β} (h : ∀ a, Accesses (f a)) : ∀ l : List α, Accesses (l.mapM f)
  | [] => by simpa only [List.mapM_nil] using pure []
  | a :: l => by
    rw [List.mapM_cons]
    exact (h a).bind fun _ => (mapM h l).bind fun _ => pure _

theorem mTrans (t part : Nat) (va : W64) (u : Use) : Accesses (Machine.mTrans t part va u) := by
  refine ⟨fun s => ?_⟩
  have h := OnlyAccess.translateNow s t part va u
  unfold Machine.mTrans
  split
  next hr => rwa [hr] at h
  next hr => rwa [hr] at h

theorem mPiece (t part : Nat) (u : Use) (bank : BankUse) (va n : Nat) : Accesses (Machine.mPiece t part u bank va n) := by
  unfold Machine.mPiece
  refine (mTrans ..).bind fun tr => getS.bind fun s => ?_
  split
  · exact raise _
  · split
    · exact raise _
    · split
      · split
        · exact raise _
        · exact pure _
      · exact pure _

theorem mWritePiece (t part : Nat) (u : Use) (bank : BankUse) (va off : Nat) (bs : List Byte) :
    Accesses (Machine.mWritePiece t part u bank va off bs) := by
  refine (mPiece ..).bind fun tr => (modS fun s => ?_).bind fun _ => getS.bind fun s =>
    (modS fun s => .tableWrite s _ _ (.writeLines ..)).bind fun _ => pure _
  exact ((OnlyAccess.of_traffic (.traffic ..)).trans (.wayTouch ..)).trans (.of_bare rfl rfl)

theorem writeU (t part : Nat) (u : Use) (bank : BankUse) (va : W64) (bs : List Byte) :
    Accesses (Machine.writeU t part u bank va bs) :=
  (mapM (fun _ => mWritePiece ..) _).bind fun _ => pure _

end Accesses

end Sys2Proof.Machine

/-! ## What the handling of launches, links and lost messages leaves alone -/

namespace Sys2Proof.Machine

/-- What belongs to the package as a whole and changes by table writes, resets, failures and the cycle itself: the service
level, CYCLE, the partition, class and configuration tables, the next leaf, and the parts that have failed. -/
def State.fixtures (s : State) : State :=
  { State.reset with
    level := s.level
    cycle := s.cycle
    parts := s.parts
    regclass := s.regclass
    pkgcfg := s.pkgcfg
    leaf := s.leaf
    failedPorts := s.failedPorts
    failedStacks := s.failedStacks }

/-! ### Accesses and bytes written -/

theorem OnlyAccess.fixtures {s t : State} (h : OnlyAccess s t) : t.fixtures = s.fixtures :=
  have hf := congrArg State.fixtures h.bare
  hf

section Fixtures

variable (s : State)

theorem failedPorts_of_fixtures {t : State} (h : t.fixtures = s.fixtures) : t.failedPorts = s.failedPorts :=
  have hf := congrArg State.failedPorts h
  hf

@[simp] theorem endMark_fixtures (n num : Nat) (v : Bool) : (s.endMark n num v).fixtures = s.fixtures := by
  rw [endMark_log]
  rfl

@[simp] theorem mirror_fixtures (k lo n : Nat) : (s.mirror k lo n).fixtures = s.fixtures :=
  have hf := congrArg State.fixtures (mirror_log s k lo n)
  hf

/-- A record for a supervisor fault queue is written there or waits (R200). -/
theorem fqSend_fields (part : Nat) (ws : List W64) :
    s.fqSend part ws = { s with log := (s.fqSend part ws).log, fqWait := (s.fqSend part ws).fqWait } := by
  unfold State.fqSend
  dsimp only
  split
  · rw [fqAppend_log]
  · rfl

/-- A part's failure is reported, and nothing else (R274). -/
theorem partReport_fields (sel : Nat → Bool) (kind n : Nat) : s.partReport sel kind n =
    { s with log := (s.partReport sel kind n).log, fqWait := (s.partReport sel kind n).fqWait } := by
  unfold State.partReport
  dsimp only
  generalize List.filter _ (List.range 8) = l
  refine List.foldlRecOn l _ (motive := fun u : State => u = { s with log := u.log, fqWait := u.fqWait }) rfl fun u hu p _ => ?_
  rw [fqSend_fields, hu]

@[simp] theorem partReport_fixtures (sel : Nat → Bool) (kind n : Nat) : (s.partReport sel kind n).fixtures = s.fixtures := by
  rw [partReport_fields]
  rfl

/-- A completion word is written by an access (R19). -/
theorem writeCplt_access (part : Nat) (cplt : W64) (nstr fcode status : Nat) :
    OnlyAccess s (s.writeCplt part cplt nstr fcode status) := by
  have hports : ∀ u v : State, OnlyAccess u (u.portsOf v) := fun _ _ => .of_bare rfl rfl
  unfold State.writeCplt
  split
  · exact .refl s
  · split
    next h => exact ((Accesses.writeU ..).ok h).trans (hports ..)
    next h => exact ((Accesses.writeU ..).error h).trans (hports ..)

/-! ### Strands, tasks and launches -/

@[simp] theorem updTask_fixtures (i : Nat) (f : Task → Task) : (s.updTask i f).fixtures = s.fixtures := by
  rw [updTask_fields]
  rfl

@[simp] theorem updDep_fixtures (i : Nat) (f : Dep → Dep) : (s.updDep i f).fixtures = s.fixtures := by
  rw [updDep_fields]
  rfl

theorem deliversAt_fixtures {key : Nat} {t : State} (h : DeliversAt key s t) : t.fixtures = s.fixtures := by
  rw [h.fields]
  rfl

@[simp] theorem completeTo_fixtures (w : Who) : (s.completeTo w).fixtures = s.fixtures := by
  unfold State.completeTo
  split
  · exact deliversAt_fixtures s (DeliversAt.complete ..)
  · rfl

@[simp] theorem abandonTo_fixtures (w : Who) : (s.abandonTo w).fixtures = s.fixtures := by
  unfold State.abandonTo State.abandon
  split
  · split
    · rfl
    · split
      · exact deliversAt_fixtures s (DeliversAt.setStat ..)
      · rfl
  · rfl

@[simp] theorem asyncTo_fixtures (w : Who) (f : Flt) : (s.asyncTo w f).fixtures = s.fixtures := by
  unfold State.asyncTo
  split <;> rfl

theorem reconfDrop_fields (key : Nat) : s.reconfDrop key = { s with regions := (s.reconfDrop key).regions } := by
  unfold State.reconfDrop
  dsimp only
  split
  · split <;> rfl
  · rfl

@[simp] theorem abortBlock_fixtures (key : Nat) : (s.abortBlock key).fixtures = s.fixtures := by
  unfold State.abortBlock
  dsimp only
  rw [reconfDrop_fields]
  split <;> rfl

@[simp] theorem freeCtx_fixtures (key : Nat) : (s.freeCtx key).fixtures = s.fixtures := abortBlock_fixtures s key

@[simp] theorem dropStrand_fixtures (key : Nat) : (s.dropStrand key).fixtures = s.fixtures := by
  unfold State.dropStrand
  split
  · exact freeCtx_fixtures s key
  · rw [freeCtx_fixtures, updTask_fixtures]

@[simp] theorem dropTask_fixtures (i : Nat) (t : Task) : (s.dropTask i t).fixtures = s.fixtures := rfl

@[simp] theorem dropWork_fixtures (t : Task) : (s.dropWork t).fixtures = s.fixtures := rfl

@[simp] theorem updRegion_fixtures (k : Nat) (f : Region → Region) : (s.updRegion k f).fixtures = s.fixtures := rfl

@[simp] theorem dropPorts_fixtures (rk : Nat) : (s.dropPorts rk).fixtures = s.fixtures := by
  have hin : ∀ u : State, (u.cutIn rk).fixtures = u.fixtures := fun u =>
    foldl_keeps (f := fun (s : State) (p : Nat × StreamIn) => s.abandonTo p.2.who) State.fixtures (fun _ _ => by simp) _ u
  have hout : ∀ u : State, (u.cutOut rk).fixtures = u.fixtures := fun u =>
    foldl_keeps (f := fun (s : State) (p : Nat × StreamOut) => s.abandonTo p.2.who) State.fixtures (fun _ _ => by simp) _ u
  unfold State.dropPorts
  rw [updRegion_fixtures, hout, hin]
  exact foldl_keeps State.fixtures (fun _ _ => by split <;> simp) _ s

@[simp] theorem freeRegion_fixtures (t k : Nat) : (s.freeRegion t k).fixtures = s.fixtures := by
  unfold State.freeRegion
  rw [updRegion_fixtures, dropPorts_fixtures]
  split <;> rfl

@[simp] theorem condemn_fixtures (i status : Nat) (cause : FCode) : (s.condemn i status cause).fixtures = s.fixtures := by
  have hstep : ∀ (u : State) (p : Nat × Task), (u.condemnTask i p).fixtures = u.fixtures := fun u p => by
    unfold State.condemnTask
    split
    · rfl
    · split
      · rfl
      · exact eachCtx_keeps (f := State.markKill) State.fixtures (fun _ _ => rfl) u
  exact (foldl_keeps (f := State.condemnTask i) State.fixtures hstep _ _).trans (updDep_fixtures ..)

@[simp] theorem stopLaunch_fixtures (i : Nat) : (s.stopLaunch i).fixtures = s.fixtures := by
  unfold State.stopLaunch
  refine foldl_keeps State.fixtures (fun u p => ?_) _ s
  have hstrands : (p.2.ctxs.foldl (fun (s : State) x => if p.2.st = TaskSt.bound then
      (s.updCtx (ctxKey p.2.tile x.2) (fun c => { c with sq := [] })).dropStrand (ctxKey p.2.tile x.2) else s) u).fixtures =
      u.fixtures :=
    foldl_keeps State.fixtures (fun v x => by split <;> simp; rfl) _ u
  split
  · rfl
  · dsimp only
    rw [dropTask_fixtures, ← hstrands]
    generalize p.2.ctxs.foldl _ u = v
    by_cases hb : p.2.st = TaskSt.bound
    · cases p.2.region <;> simp [hb]
    · cases p.2.region <;> simp [hb]

@[simp] theorem adjustChans_fixtures (i : Nat) (d : Dep) : (s.adjustChans i d).fixtures = s.fixtures := by
  unfold State.adjustChans
  refine foldl_keeps State.fixtures (fun u p => ?_) _ s
  split
  · split <;> rfl
  · rw [updDep_fixtures, mirror_fixtures]
    rfl

@[simp] theorem replay_fixtures (i : Nat) (code : FCode) : (s.replay i code).fixtures = s.fixtures := by
  unfold State.replay
  dsimp only
  split <;> simp

/-! ### Lost messages -/

@[simp] theorem replayOr_fixtures (i : Nat) (code : FCode) : (s.replayOr i code).fixtures = s.fixtures := by
  unfold State.replayOr
  split
  · rfl
  · split
    · rfl
    · split <;> simp

@[simp] theorem launchFault_fixtures (i : Nat) (id : W64) (f : Flt) : (s.launchFault i id f).fixtures = s.fixtures := by
  unfold State.launchFault
  dsimp only
  split
  · simp
  · split
    · rfl
    · simp

@[simp] theorem linkFault_fixtures (w : Who) (f : Flt) : (s.linkFault w f).fixtures = s.fixtures := by
  unfold State.linkFault
  split
  · simp
  · split
    · simp
    · split <;> simp

@[simp] theorem notice_fixtures (t dpkg dtile : Nat) (w : Who) (kind : Nat) (d : List Byte) :
    (s.notice t dpkg dtile w kind d).fixtures = s.fixtures := by
  unfold State.notice State.injectFar
  split <;> rfl

@[simp] theorem copyLost_fixtures (m : Msg) : (s.copyLost m).fixtures = s.fixtures := by
  unfold State.copyLost
  dsimp only
  split
  · rw [completeTo_fixtures]
    rfl
  · rfl

@[simp] theorem loseMsg_fixtures (id : Nat) (m : Msg) (t : Nat) (f : Flt) : (s.loseMsg id m t f).fixtures = s.fixtures := by
  unfold State.loseMsg
  extract_lets dropped cut u
  have hu : u.fixtures = s.fixtures := by
    unfold u
    split <;> rfl
  clear_value u
  split
  · rw [notice_fixtures, hu]
  · split
    · rw [linkFault_fixtures, copyLost_fixtures, hu]
    · rw [abandonTo_fixtures, linkFault_fixtures, hu]

/-- Barrier events that no port leads to any more are lost (R271). -/
@[simp] theorem barLeave_fixtures : s.barLeave.fixtures = s.fixtures := by
  unfold State.barLeave
  refine foldl_keeps State.fixtures (fun u r => ?_) _ s
  rw [linkFault_fixtures]
  rfl

@[simp] theorem leavePkg_fixtures (p : Pkt) (m : Msg) : (s.leavePkg p m).fixtures = s.fixtures := by
  unfold State.leavePkg
  dsimp only
  split
  · simp
  · split <;> rfl

end Fixtures

end Sys2Proof.Machine

/-! ## Resets (O49) -/

namespace Sys2Proof.Machine

/-- What every entry of a table and the default have, every reading has. -/
theorem map_getD_of_forall {α : Type} {Q : α → Prop} {d : α} (hd : Q d) {x : Nat} : ∀ {m : Map α}, (∀ p ∈ m, Q p.2) →
    Q (m.getD d x)
  | [], _ => hd
  | p :: m, h => by
    rw [Map.getD]
    split
    · exact h p List.mem_cons_self
    · exact map_getD_of_forall hd fun q hq => h q (List.mem_cons_of_mem p hq)

/-! ### Warm reset (R280) -/

theorem retAdvance_wq (s : State) (n : Nat) : ∃ q, s.retAdvance n = { s with wq := q } := ⟨_, retPass_wq ..⟩

/-- What a warm reset leaves at rest until the units begin anew. -/
def State.atRest (s : State) : State :=
  { s.fixtures with ctxs := s.ctxs, blks := s.blks, tasks := s.tasks, waits := s.waits }

/-- Where nothing waits, only stream bindings follow a channel to its new entry (R279). -/
theorem moveWaits_atRest {s : State} (h : s.waits = []) (k k' : Nat) (lost : Bool) :
    (s.moveWaits k k' lost).atRest = s.atRest := by
  unfold State.moveWaits
  simp only [h, List.foldl_nil, State.atRest]
  rfl

/-- The machine while a warm reset of `w` takes its launches again: the package's own registers are those of `w`, no strand
and no task is there, and nothing waits. -/
structure Rested (w s : State) : Prop where
  fixtures : s.fixtures = w.fixtures
  free : ∀ k, (s.ctx k).st = .free
  blks : s.blks = []
  tasks : s.tasks = []
  waits : s.waits = []

namespace Rested

variable {w s t : State}

theorem of_same (h : Rested w s) (hs : t.atRest = s.atRest) : Rested w t := by
  have hctxs : t.ctxs = s.ctxs := by simpa [State.atRest] using congrArg State.ctxs hs
  have hblks : t.blks = s.blks := by simpa [State.atRest] using congrArg State.blks hs
  have htasks : t.tasks = s.tasks := by simpa [State.atRest] using congrArg State.tasks hs
  have hwaits : t.waits = s.waits := by simpa [State.atRest] using congrArg State.waits hs
  have hfixtures := congrArg State.fixtures hs
  exact ⟨Eq.trans hfixtures h.fixtures, fun k => by rw [ctx_of_ctxs hctxs, h.free], hblks.trans h.blks,
    htasks.trans h.tasks, hwaits.trans h.waits⟩

theorem of_access (h : Rested w s) (ha : OnlyAccess s t) : Rested w t := by
  have hblks : t.blks = s.blks := by simpa [State.bare] using congrArg State.blks ha.bare
  have htasks : t.tasks = s.tasks := by simpa [State.bare] using congrArg State.tasks ha.bare
  have hwaits : t.waits = s.waits := by simpa [State.bare] using congrArg State.waits ha.bare
  have hst : ∀ k, (t.ctx k).st = (s.ctx k).st := fun k => by simpa using congrArg Ctx.st (ha.ctxs k)
  exact ⟨ha.fixtures.trans h.fixtures, fun k => (hst k).trans (h.free k), hblks.trans h.blks, htasks.trans h.tasks,
    hwaits.trans h.waits⟩

theorem fold {α : Type} {f : State → α → State} (hf : ∀ s x, Rested w s → Rested w (f s x)) (l : List α) (h : Rested w s) :
    Rested w (l.foldl f s) :=
  List.foldlRecOn l f (motive := Rested w) h fun s hs x _ => hf s x hs

theorem partLoad (h : Rested w s) (old e : List W64) : Rested w (s.partLoad old e) := by
  refine h.of_same (foldl_keeps State.atRest (fun u r => foldl_keeps State.atRest (fun v c => ?_) _ u) _ s)
  dsimp only
  split <;> rfl

theorem endMark (h : Rested w s) (n num : Nat) (v : Bool) : Rested w (s.endMark n num v) := by
  rw [endMark_log]
  exact h.of_same rfl

theorem takeRecord (h : Rested w s) (n num : Nat) : Rested w (s.takeRecord n num) := by
  unfold State.takeRecord
  dsimp only
  split
  · exact h
  · split
    · refine h.of_same ?_
      unfold State.depEnter
      split <;> rfl
    · exact (h.of_access (writeCplt_access ..)).endMark ..

theorem retake (n : Nat) : ∀ (k : Nat) {s : State}, Rested w s → Rested w (s.retake n k)
  | 0, _, h => h
  | k + 1, s, h => by
    unfold State.retake
    dsimp only
    split
    · exact h
    · have hq : Rested w (s.setQueue n ((s.queueE n).set 3 (w64 ((wAt (s.queueE n) 3 + 1) % 2 ^ 64)))) := h.of_same rfl
      exact retake n k (hq.takeRecord ..)

theorem retAdvance (h : Rested w s) (n : Nat) : Rested w (s.retAdvance n) := by
  obtain ⟨q, hq⟩ := retAdvance_wq s n
  rw [hq]
  exact h.of_same rfl

theorem rebuildDeps (h : Rested w s) (old : Map Dep) : Rested w (s.rebuildDeps old) := by
  refine fold (fun u p hu => ?_) _ (s := { s with carried := old.map Prod.snd }) (h.of_same rfl)
  split
  · refine (retake p.1 65536 (s := u.setQueue p.1 (p.2.set 3 (p.2.getD 4 0))) ?_).retAdvance p.1
    exact hu.of_same rfl
  · exact hu

theorem mirror (h : Rested w s) (k lo n : Nat) : Rested w (s.mirror k lo n) :=
  have hs := congrArg State.atRest (mirror_log s k lo n)
  h.of_same hs

/-- A channel that stays at its entry is rebuilt; nobody waits for it. -/
theorem rebuildChan (h : Rested w s) (k : Nat) (replayed : Bool) : Rested w (s.rebuildChan k k replayed) := by
  unfold State.rebuildChan
  dsimp only
  rw [if_pos rfl]
  generalize rebuilt (s.mirrorWords k) (replayed || decide ((s.chan k).occ = 0)) (k / 64) = c
  have hm : Rested w ((({ s with chans := s.chans.del k } : State).setChan k c).mirror k 0 8) :=
    mirror (s := ({ s with chans := s.chans.del k } : State).setChan k c) (h.of_same rfl) ..
  generalize (({ s with chans := s.chans.del k } : State).setChan k c).mirror k 0 8 = u at hm
  exact hm.of_same (moveWaits_atRest hm.waits ..)

theorem updDep (h : Rested w s) (i : Nat) (f : Dep → Dep) : Rested w (s.updDep i f) := by
  rw [updDep_fields]
  exact h.of_same rfl

theorem condemn (h : Rested w s) (i status : Nat) (cause : FCode) : Rested w (s.condemn i status cause) := by
  unfold State.condemn
  dsimp only
  generalize hu : s.updDep i _ = u
  have hd : Rested w u := hu ▸ h.updDep ..
  rw [hd.tasks]
  exact hd

theorem setChan (h : Rested w s) (k : Nat) (c : Chan) : Rested w (s.setChan k c) := h.of_same rfl

theorem setChans (h : Rested w s) (m : Map Chan) : Rested w { s with chans := m } := h.of_same rfl

theorem adjustChans (h : Rested w s) (i : Nat) (d : Dep) : Rested w (s.adjustChans i d) := by
  refine fold (fun u p hu => ?_) _ h
  split
  · split
    · exact hu
    · exact hu.setChan ..
  · exact ((hu.setChan ..).mirror ..).updDep ..

theorem resume (h : Rested w s) : Rested w s.resume := by
  refine fold (fun u p hu => ?_) _ h
  unfold State.resumeDep
  split
  · exact (hu.updDep ..).condemn ..
  · exact (hu.adjustChans ..).updDep ..

end Rested

section WarmReset

variable (s : State)

/-- No strand outlives a warm reset. -/
theorem warmBase_free (k : Nat) : (s.warmBase.ctx k).st = .free :=
  map_getD_of_forall (Q := fun c : Ctx => c.st = .free) rfl fun p hp => by
    obtain ⟨_, -, rfl⟩ := List.mem_map.mp hp
    rfl

theorem rested_warmBase : Rested s.warmBase s.warmBase := ⟨rfl, warmBase_free s, rfl, rfl, rfl⟩

/-- The end of a launch writes its completion word and its mark, and changes the dispatcher's tables (R244). -/
@[simp] theorem endLaunch_fixtures (i : Nat) (d : Dep) (status : Nat) : (s.endLaunch i d status).fixtures = s.fixtures := by
  unfold State.endLaunch
  dsimp only
  generalize hu : State.endMark _ _ _ _ = u
  have hf : u.fixtures = s.fixtures := hu ▸ (endMark_fixtures ..).trans (writeCplt_access ..).fixtures
  obtain ⟨q, hq⟩ := retAdvance_wq { u with deps := _ } d.qnum
  rw [hq, ← hf]
  rfl

@[simp] theorem cancelAll_fixtures : s.cancelAll.fixtures = s.fixtures := by
  unfold State.cancelAll
  refine foldl_keeps State.fixtures (fun u p => ?_) _ s
  split
  · rfl
  · split <;> simp

theorem rested_warmReset : Rested s.cancelAll.warmBase s.warmReset := by
  unfold State.warmReset
  extract_lets chans cut old b0 b1 b2 b3 again0 again b4
  have h0 : Rested s.cancelAll.warmBase b0 := rested_warmBase _
  clear_value b0
  have h1 : Rested s.cancelAll.warmBase b1 := Rested.fold (fun u p hu => hu.partLoad ..) _ h0
  clear_value b1
  have h2 : Rested s.cancelAll.warmBase b2 := h1.rebuildDeps old
  clear_value b2
  have h3 : Rested s.cancelAll.warmBase b3 := h2.setChans _
  clear_value b3
  refine Rested.resume (Rested.fold (fun u p hu => ?_) chans h3)
  split
  · exact hu.rebuildChan ..
  · exact hu

end WarmReset

end Sys2Proof.Machine

/-! ## Resets, failures, power and the regulators (O49) -/

namespace Sys2Proof.Machine

@[simp] theorem endStep_slice (s u : State) (k : Nat) : (endStep s u).slice k = u.slice k := rfl

section Tables

variable {α : Type}

theorem map_getD_of_forall_ne {d : α} {x : Nat} {m : Map α} (h : ∀ p ∈ m, p.1 ≠ x) : m.getD d x = d := by
  induction m with
  | nil => rfl
  | cons p m ih =>
    rw [Map.getD, if_neg (h p List.mem_cons_self), ih fun q hq => h q (List.mem_cons_of_mem p hq)]

theorem map_get_of_forall_ne {x : Nat} {m : Map α} (h : ∀ p ∈ m, p.1 ≠ x) : m.get? x = none := by
  induction m with
  | nil => rfl
  | cons p m ih =>
    rw [Map.get?, if_neg (h p List.mem_cons_self), ih fun q hq => h q (List.mem_cons_of_mem p hq)]

/-- A table made from a list of its keys. -/
theorem map_getD_of_keys {d : α} (f : Nat → α) {x : Nat} {l : List Nat} (h : x ∈ l) :
    Map.getD d (l.map fun k => (k, f k)) x = f x := by
  induction l with
  | nil => exact absurd h List.not_mem_nil
  | cons k l ih =>
    rw [List.map_cons, Map.getD]
    split
    next e => rw [e]
    next e => exact ih ((List.mem_cons.mp h).resolve_left fun e' => e e'.symm)

/-- Entries put one for each key of a list, whatever stood there. -/
theorem map_getD_foldl_put {d : α} (f : Nat → α) {x : Nat} : ∀ (l : List Nat) (m : Map α),
    Map.getD d (l.foldl (fun m k => m.put k (f k)) m) x = if x ∈ l then f x else m.getD d x
  | [], m => by simp
  | k :: l, m => by
    rw [List.foldl_cons, map_getD_foldl_put f l, map_getD_put]
    by_cases hx : x ∈ l
    · simp [hx]
    · by_cases e : k = x
      · simp [e]
      · simp [hx, e, Ne.symm e]

theorem mem_insNat {k x : Nat} : ∀ {l : List Nat}, k ∈ insNat l x ↔ k = x ∨ k ∈ l
  | [] => by simp [insNat]
  | y :: l => by
    unfold insNat
    split
    · simp
    · split
      · next e => simp [e]
      · rw [List.mem_cons, mem_insNat, List.mem_cons]
        exact or_left_comm

end Tables

/-! ### Cold reset (R132, R273) -/

section ColdReset

variable {s : State} {x y z : Nat} {v : W64} {d : List Byte}

theorem exec_coldReset (hf : s.focus = .ev x y z v d) : ∃ caps, exec .coldReset s = .next (endStep s (s.coldReset caps)) := by
  refine ⟨(List.range (d.length / 8)).map (fun i => leNat ((d.drop (8 * i)).take 8)), ?_⟩
  change execColdReset s = _
  simp only [execColdReset, run, hf]

/-- Of the tiles, only which have failed is kept. -/
theorem failedTiles_failed {k : Nat} : ∀ {m : Map Tile}, (m.map Prod.fst).Nodup →
    (Map.getD {} ((m.filter (fun p => p.2.failed)).map (fun p => (p.1, { failed := true : Tile }))) k).failed =
      (m.getD {} k).failed
  | [], _ => rfl
  | p :: m, h => by
    obtain ⟨hp, hm⟩ := List.nodup_cons.mp h
    have ih := failedTiles_failed (k := k) hm
    rw [Map.getD]
    cases hf : p.2.failed with
    | true =>
      rw [List.filter_cons_of_pos (by simpa using hf), List.map_cons, Map.getD]
      by_cases e : p.1 = k
      · rw [if_pos e, if_pos e, hf]
      · rw [if_neg e, if_neg e, ih]
    | false =>
      rw [List.filter_cons_of_neg (by simp [hf])]
      by_cases e : p.1 = k
      · rw [if_pos e, hf, map_getD_of_forall_ne]
        intro q hq hk
        obtain ⟨r, hr, rfl⟩ := List.mem_map.mp hq
        exact hp (List.mem_map.mpr ⟨r, List.mem_of_mem_filter hr, hk.trans e.symm⟩)
      · rw [if_neg e, ih]

/-- The bytes that a cold reset writes: those of the tiles, as they read when nothing has written them. -/
def tileWipe (m : List Host.Cell) : List Host.Cell := (m.filter (fun c => !offTile c.1)).map (fun c => (c.1, memDefault))

theorem coldReset_log (caps : List Nat) (h : s.log = []) : (s.coldReset caps).log = tileWipe s.mem := by
  simp [State.coldReset, tileWipe, h]

theorem logGet_tileWipe_offTile {a : Nat} (ha : offTile a = true) : ∀ m : List Host.Cell, logGet (tileWipe m) a = none
  | [] => rfl
  | c :: m => by
    have ih := logGet_tileWipe_offTile ha m
    unfold tileWipe at ih ⊢
    cases hc : offTile c.1 with
    | true => rwa [List.filter_cons_of_neg (by simp [hc])]
    | false =>
      rw [List.filter_cons_of_pos (by simp [hc]), List.map_cons, logGet, if_neg, ih]
      rintro rfl
      exact Bool.noConfusion (hc.symm.trans ha)

theorem get_tileWipe {a : Nat} (ha : offTile a = false) : ∀ m : List Host.Cell,
    (logGet (tileWipe m) a).getD (Mem.get m a) = memDefault
  | [] => rfl
  | c :: m => by
    have ih := get_tileWipe ha m
    unfold tileWipe at ih ⊢
    rw [Mem.get]
    by_cases e : c.1 = a
    · rw [List.filter_cons_of_pos (by simp [e, ha]), List.map_cons, logGet, if_pos e, Option.getD_some]
    · rw [if_neg e, List.filter_cons]
      split
      · rwa [List.map_cons, logGet, if_neg e]
      · exact ih

theorem coldReset_get (caps : List Nat) (h : s.log = []) (a : Nat) :
    Mem.get (endStep s (s.coldReset caps)).mem a = (logGet (tileWipe s.mem) a).getD (Mem.get s.mem a) := by
  rw [endStep_mem, Mem.get_flush, coldReset_log caps h]

end ColdReset

/-! ### Failures (R271, R274, R275) -/

section Failures

variable {s : State} {x y z : Nat} {v : W64} {d : List Byte}

theorem exec_partFailure_slice (hf : s.focus = .ev 2 y z v d) : exec .partFailure s =
    .next (endStep s ((s.setSlice y { failed := true }).partReport (fun _ => true) 2 y)) := by
  change execPartFailure s = _
  simp only [execPartFailure, run, hf]

theorem exec_partFailure_stack (hf : s.focus = .ev 3 y z v d) : exec .partFailure s = .next (endStep s
    (({ s with failedStacks := insNat s.failedStacks y } : State).partReport (fun _ => true) 3 y)) := by
  change execPartFailure s = _
  simp only [execPartFailure, run, hf]

theorem exec_partFailure_port (hf : s.focus = .ev 5 y z v d) : exec .partFailure s =
    .next (endStep s ((s.portDown y).partReport (fun _ => true) 5 y)) := by
  change execPartFailure s = _
  simp only [execPartFailure, run, hf]

/-- A tile that fails is cleared and its local store lost last of all (R275). -/
theorem tileDown_clears (s : State) (t : Nat) : ∃ u : State, s.tileDown t = (u.clearTile t).loseStore t := ⟨_, rfl⟩

theorem exec_partFailure_tile (hf : s.focus = .ev 1 y z v d) (hy : tileOk y = true) :
    exec .partFailure s = .next (endStep s (s.tileDown y)) := by
  change execPartFailure s = _
  simp only [execPartFailure, run, hf, hy, if_true]

theorem portDown_failedPorts (p : Nat) : (s.portDown p).failedPorts = insNat s.failedPorts p :=
  failedPorts_of_fixtures _ (barLeave_fixtures _)

/-- What becomes of a packet when the last of its ports has failed (R213, R275). -/
def State.stranded (s : State) (q : Pkt) : State :=
  match s.msgs.get? q.msg with
  | some m => if s.leaves q m && (s.podPorts m).2.all (s.failedPorts.contains ·) then s.leavePkg q m else s
  | none => s

theorem stranded_fixtures (q : Pkt) : (s.stranded q).fixtures = s.fixtures := by
  unfold State.stranded
  split
  · split
    · exact leavePkg_fixtures ..
    · rfl
  · rfl

theorem exec_linkDown (hf : s.focus = .ev x y z v d) :
    exec .linkDown s = .next (endStep s ((s.portDown x).pkts.foldl State.stranded (s.portDown x))) := by
  change execLinkDown s = _
  simp only [execLinkDown, run, hf]
  rfl

theorem linkDown_failedPorts (p : Nat) :
    ((s.portDown p).pkts.foldl State.stranded (s.portDown p)).failedPorts = insNat s.failedPorts p :=
  (failedPorts_of_fixtures _ (foldl_keeps State.fixtures (fun _ _ => stranded_fixtures _) _ _)).trans (portDown_failedPorts p)

theorem undefBytes_fields (n : Nat) : ∀ (s : State) (pa : Nat), ∃ l c, s.undefBytes pa n = { s with log := l, freeCtr := c } := by
  induction n with
  | zero => exact fun s _ => ⟨s.log, s.freeCtr, rfl⟩
  | succ n ih =>
    intro s pa
    obtain ⟨l, c, h⟩ := ih { s with log := (pa, Config.freeByte s.freeCtr) :: s.log, freeCtr := s.freeCtr + 1 } (pa + 1)
    exact ⟨l, c, h⟩

theorem loseStore_fields (u : State) (t : Nat) : ∃ l c, u.loseStore t = { u with
    log := l, freeCtr := c
    full := u.full.filter (fun w => !(winPa t 0 ≤ 8 * w && 8 * w < winPa t 0 + 0x400000)) } := by
  obtain ⟨l, c, h⟩ := undefBytes_fields 0x400000 u (winPa t 0)
  exact ⟨l, c, by rw [State.loseStore, h]⟩

/-- What is kept when a tile is cleared: the entries of other tiles. -/
theorem cleared_ne {α : Type} {m : Map α} {n t c : Nat} (hc : c < n) :
    ∀ p ∈ m.filter (fun p => decide (p.1 / n ≠ t)), p.1 ≠ n * t + c := by
  intro p hp e
  have ht : p.1 / n ≠ t := of_decide_eq_true (List.mem_filter.mp hp).2
  have hn : 0 < n := by omega
  exact ht (by rw [e, Nat.mul_add_div hn, Nat.div_eq_of_lt hc, Nat.add_zero])

theorem clearTile_gone (u : State) {t c : Nat} (hc : c < 16) : ((u.clearTile t).loseStore t).ctx (ctxKey t c) = {} ∧
    ((u.clearTile t).loseStore t).blks.get? (ctxKey t c) = none := by
  obtain ⟨_, _, h⟩ := loseStore_fields (u.clearTile t) t
  rw [h]
  exact ⟨map_getD_of_forall_ne (cleared_ne hc), map_get_of_forall_ne (cleared_ne hc)⟩

theorem clearTile_failed (u : State) (t : Nat) : (((u.clearTile t).loseStore t).tile t).failed = true := by
  obtain ⟨_, _, h⟩ := loseStore_fields (u.clearTile t) t
  rw [h]
  exact congrArg Tile.failed ((map_getD_put ..).trans (if_pos rfl))

end Failures

/-! ### Power (R283, R284) -/

theorem exec_powerRemoval (s : State) : exec .powerRemoval s = .next (endStep s { s with powered := false }) := rfl

theorem mem_tileIds {k : Nat} : k ∈ tileIds ↔ tileOk k = true := by
  rw [tileIds, List.mem_filter, List.mem_range]
  refine and_iff_right_of_imp fun h => ?_
  simp only [tileOk, Bool.and_eq_true, decide_eq_true_eq] at h
  exact h.1

theorem nearSensor_lt {k : Nat} (h : tileOk k = true) : nearSensor k < 192 := by
  simp only [tileOk, Bool.and_eq_true, decide_eq_true_eq] at h
  obtain ⟨hk, -⟩ := h
  unfold nearSensor dieOf
  have hm : Config.sensorNear k % 48 < 48 := Nat.mod_lt _ (by decide)
  omega

section NextRate

variable {power limit temp injected cut move rate : Nat}

theorem nextRate_over (h : limit < power) (ht : temp < 105) :
    nextRate power limit temp injected cut move rate = rate - injected * cut / 1024 := by
  simp [nextRate, h, Nat.not_le.mpr ht]

theorem nextRate_under (h : power * 10 < limit * 9) (ht : temp < 105) (hr : rate < 0xFFFF) :
    rate < nextRate power limit temp injected cut move rate ∧ nextRate power limit temp injected cut move rate ≤ 0xFFFF := by
  have hp : ¬ limit < power := by omega
  have hm : move % (0xFFFF - rate) < 0xFFFF - rate := Nat.mod_lt _ (by omega)
  simp only [nextRate, gt_iff_lt, hp, h, ht, Nat.not_le.mpr ht, ge_iff_le, Nat.not_le.mpr hr, if_false, if_true, decide_true,
    Bool.and_self]
  omega

theorem nextRate_hot (ht : 105 ≤ temp) : nextRate power limit temp injected cut move rate ≤ rate / 2 := by
  have hc : ¬ temp < 105 := by omega
  simp only [nextRate, ge_iff_le, ht, if_true, hc, decide_false, Bool.false_and, Bool.false_eq_true, if_false]
  split
  · exact Nat.div_le_div_right (Nat.sub_le ..)
  · exact le_rfl

end NextRate

/-- A tile once the power controller has evaluated it (R283). -/
def State.evaluated (s : State) (k : Nat) : Tile :=
  { s.tile k with
    injected := 0
    prateNext := some (nextRate (Config.measuredPower s.now) s.powerLimit (Config.sensorTemp (nearSensor k) s.now)
      (s.tile k).injected (Config.powerCut s.now) (Config.powerRate k s.now (s.tile k).prate) (s.tile k).prate,
      Config.powerDepth k s.now (s.tile k).prate % 65536) }

/-- What an evaluation leaves. -/
structure Evaluated (s t : State) : Prop where
  power : t.power = Config.measuredPower s.now
  ctxs : ∀ k, t.ctx k = s.ctx k
  temps : ∀ i, i < 192 → t.temps.getD 0 i = Config.sensorTemp i s.now
  tiles : ∀ k, tileOk k = true → t.tile k = s.evaluated k

theorem exec_powerEvaluation (s : State) : ∃ t, exec .powerEvaluation s = .next t ∧ Evaluated s t := by
  have htemps : ∀ i, i < 192 → Map.getD 0 ((List.range 192).map (fun i => (i, Config.sensorTemp i s.now))) i =
      Config.sensorTemp i s.now := fun i hi => map_getD_of_keys (fun i => Config.sensorTemp i s.now) (List.mem_range.mpr hi)
  have hexec : exec .powerEvaluation s = execPowerEvaluation s := rfl
  rw [hexec, execPowerEvaluation, run]
  generalize (List.range 192).map (fun i => (i, Config.sensorTemp i s.now)) = temps at htemps ⊢
  have hids := @mem_tileIds
  generalize tileIds = ids at hids ⊢
  refine ⟨_, rfl, rfl, fun _ => rfl, htemps, fun k hk => ?_⟩
  rw [State.evaluated, ← htemps _ (nearSensor_lt hk)]
  exact map_getD_of_keys (d := ({} : Tile)) _ (hids.mpr hk)

/-! ### The period boundary (R256) -/

theorem exec_periodBoundary (s : State) : exec .periodBoundary s = .next (endStep s { s with
    regEff := s.regclass
    tiles := tileIds.map (fun t => (t, (s.tile t).refill s.regclass))
    slowTok := if rcV (s.regclass.getD 0 8) then
      min (rcDepth (s.regclass.getD 0 8) : Int) (s.slowTok + rcRate (s.regclass.getD 0 8)) else s.slowTok }) := rfl

/-- A bucket that is not over its depth is refilled up to it at most, and never emptied. -/
theorem refill_tok (eff : Map W64) (p : Port) {c : Nat} (h : p.tok.getD 0 c ≤ (rcDepth (eff.getD 0 c) : Int)) :
    p.tok.getD 0 c ≤ (p.refill eff).1.tok.getD 0 c ∧ (p.refill eff).1.tok.getD 0 c ≤ (rcDepth (eff.getD 0 c) : Int) := by
  unfold Port.refill
  dsimp only
  rw [map_getD_foldl_put]
  split
  · exact ⟨le_min h (by omega), min_le_left ..⟩
  · exact ⟨le_rfl, h⟩

/-! ### Injection (R255, R257, R258) -/

section Injection

variable {s : State} {x y z : Nat} {v : W64} {d : List Byte}

theorem exec_requestInject_mesh (hf : s.focus = .ev x 0 z v d) : exec .requestInject s =
    .next (endStep s (s.updTile x fun t => { t with mesh := t.mesh.inject s z })) := by
  change execRequestInject s = _
  simp only [execRequestInject, run, hf, if_true]

theorem exec_requestInject_slow (hf : s.focus = .ev x 2 z v d) : exec .requestInject s = .next (endStep s s.slowInject) := by
  change execRequestInject s = _
  simp [execRequestInject, run, hf]

variable {p : Port} {r : Req} {l : List Req}

theorem inject_admits (ht : takeReq z p.q = some (r, l)) (hi : s.mayInject p z = true) (hz : z < 8) :
    p.inject s z = { p with q := l, inj := p.inj ++ [r], busy := insNat p.busy z, tok := p.tok.put z (p.tok.getD 0 z - r.units) } := by
  simp [Port.inject, ht, hi, hz]

theorem inject_refuses (hi : s.mayInject p z = false) : p.inject s z = p := by
  unfold Port.inject
  split
  · rfl
  · simp [hi]

theorem slowInject_sends (hq : s.slowq = r :: l) (hv : rcV (s.regWord 8) = true) (ht : 1 ≤ s.slowTok) :
    s.slowInject = { s with slowq := l, slowTok := s.slowTok - r.units } := by
  simp [State.slowInject, hq, hv, ht]

theorem exec_flitInject_mesh (hf : s.focus = .ev x 0 z v d) (hi : (s.tile x).mesh.inj ≠ []) (hp : 1 ≤ (s.tile x).pwrtok) :
    exec .flitInject s = .next (endStep s (s.setTile x { s.tile x with
      pwrtok := (s.tile x).pwrtok - 1, injected := (s.tile x).injected + 1, mesh := (s.tile x).mesh.flit })) := by
  change execFlitInject s = _
  have hn : ¬ (s.tile x).pwrtok < 1 := by omega
  simp [execFlitInject, run, hf, hn, hi]

theorem exec_flitInject_waits (hf : s.focus = .ev x 0 z v d) (hp : (s.tile x).pwrtok < 1) :
    exec .flitInject s = .next (endStep s s) := by
  change execFlitInject s = _
  simp [execFlitInject, run, hf, hp]

end Injection

end Sys2Proof.Machine

/-! ## The package’s events (O49) -/

namespace Sys2Proof.Machine

section PackageEvents

variable {s : State} {x y z : Nat} {v : W64} {d : List Byte}

/-- The bytes of the memories outlive a cold reset, those of the tiles read as unwritten (R132). -/
theorem coldReset_bytes (caps : List Nat) (h : s.log = []) :
    (∀ a, a < 0xF000000000000 → Mem.get (endStep s (s.coldReset caps)).mem a = Mem.get s.mem a) ∧
      ∀ a, 0xF000000000000 ≤ a → Mem.get (endStep s (s.coldReset caps)).mem a = 0 := by
  refine ⟨fun a ha => ?_, fun a ha => ?_⟩
  · rw [coldReset_get caps h, logGet_tileWipe_offTile (decide_eq_true ha), Option.getD_none]
  · rw [coldReset_get caps h]
    exact get_tileWipe (decide_eq_false (Nat.not_lt.mpr ha)) s.mem

theorem exec_warmReset (s : State) : exec .warmReset s = .next (endStep s s.warmReset) := rfl

/-- What two states with the same fixtures have in common. -/
theorem fixtures_fields {t u : State} (h : t.fixtures = u.fixtures) :
    t.level = u.level ∧ t.cycle = u.cycle ∧ t.parts = u.parts ∧ t.regclass = u.regclass ∧ t.pkgcfg = u.pkgcfg ∧ t.leaf = u.leaf := by
  have hlevel := congrArg State.level h
  have hcycle := congrArg State.cycle h
  have hparts := congrArg State.parts h
  have hreg := congrArg State.regclass h
  have hpkg := congrArg State.pkgcfg h
  have hleaf := congrArg State.leaf h
  exact ⟨hlevel, hcycle, hparts, hreg, hpkg, hleaf⟩

/-- What a warm reset keeps is what it keeps once every launch is cancelled. -/
theorem warmReset_keeps (s : State) : s.warmReset.parts = s.parts ∧ s.warmReset.pkgcfg = s.pkgcfg ∧
    s.warmReset.regclass = s.regclass ∧ s.warmReset.cycle = s.cycle ∧ s.warmReset.level = 0 ∧ s.warmReset.leaf = s.leaf := by
  obtain ⟨hlevel, hcycle, hparts, hreg, hpkg, hleaf⟩ := fixtures_fields (rested_warmReset s).fixtures
  obtain ⟨-, hcycle', hparts', hreg', hpkg', hleaf'⟩ := fixtures_fields (cancelAll_fixtures s)
  exact ⟨hparts.trans hparts', hpkg.trans hpkg', hreg.trans hreg', hcycle.trans hcycle', hlevel, hleaf.trans hleaf'⟩

theorem sliceFailed_slice (k : Nat) : ((s.setSlice y { failed := true }).partReport (fun _ => true) 2 y).slice k =
    if y = k then { failed := true } else s.slice k := by
  rw [partReport_fields]
  exact setSlice_slice ..

theorem mem_stackFailed (k : Nat) : k ∈ (({ s with failedStacks := insNat s.failedStacks y } : State).partReport
    (fun _ => true) 3 y).failedStacks ↔ k = y ∨ k ∈ s.failedStacks := by
  rw [partReport_fields]
  exact mem_insNat

theorem mem_portFailed (k : Nat) : k ∈ ((s.portDown y).partReport (fun _ => true) 5 y).failedPorts ↔
    k = y ∨ k ∈ s.failedPorts := by
  rw [failedPorts_of_fixtures _ (partReport_fixtures ..), portDown_failedPorts]
  exact mem_insNat

/-- A failed tile is marked so and holds no strand any more (R275). -/
def TileGone (s : State) (t : Nat) : Prop :=
  (s.tile t).failed = true ∧ (∀ c, c < 16 → s.ctx (ctxKey t c) = {}) ∧ ∀ c, c < 16 → s.blks.get? (ctxKey t c) = none

theorem TileGone.endStep {u : State} {t : Nat} (h : TileGone u t) (s : State) : TileGone (endStep s u) t := h

theorem tileDown_gone (s : State) (t : Nat) : TileGone (s.tileDown t) t := by
  obtain ⟨u, hu⟩ := tileDown_clears s t
  rw [hu]
  exact ⟨clearTile_failed u t, fun c hc => (clearTile_gone u hc).1, fun c hc => (clearTile_gone u hc).2⟩

/-- The rate a tile is given, against the limit and against the temperature of its sensor (R283). -/
theorem evaluated_rate (s : State) (k : Nat) : ∃ r dp, (s.evaluated k).prateNext = some (r, dp) ∧
    (s.powerLimit < Config.measuredPower s.now → Config.sensorTemp (nearSensor k) s.now < 105 →
      r = (s.tile k).prate - (s.tile k).injected * Config.powerCut s.now / 1024) ∧
    (Config.measuredPower s.now * 10 < s.powerLimit * 9 → Config.sensorTemp (nearSensor k) s.now < 105 →
      (s.tile k).prate < 0xFFFF → (s.tile k).prate < r ∧ r ≤ 0xFFFF) ∧
    (105 ≤ Config.sensorTemp (nearSensor k) s.now → r ≤ (s.tile k).prate / 2) :=
  ⟨_, _, rfl, nextRate_over, nextRate_under, nextRate_hot⟩

/-- A tile at the end of a period takes the rate that waits for it, and its power tokens are refilled (R256, R283). -/
theorem refill_power (eff : Map W64) (t : Tile) : (t.refill eff).prate = (t.prateNext.map Prod.fst).getD t.prate ∧
    (t.refill eff).pwrtok = min ((t.refill eff).pdepth : Int) (t.pwrtok + (t.refill eff).prate) := by
  unfold Tile.refill
  cases t.prateNext with
  | none => exact ⟨rfl, rfl⟩
  | some p => exact ⟨rfl, rfl⟩

/-- The tiles after the end of a period. -/
theorem periodBoundary_tile (s : State) {k : Nat} (hk : tileOk k = true) :
    Map.getD {} (tileIds.map (fun t => (t, (s.tile t).refill s.regclass))) k = (s.tile k).refill s.regclass :=
  map_getD_of_keys (fun t => (s.tile t).refill s.regclass) (mem_tileIds.mpr hk)


/-- Settles O49: each reset, failure and step of a regulator by the lemma about what it leaves. -/
theorem packageEvents : Obligations.PackageEvents := by
  unfold Obligations.PackageEvents
  intro s x y z v d hf
  refine ⟨fun hn => ?_, ?_, ⟨?_, ?_, ?_, ?_⟩, ?_, ?_, ?_, ?_, ?_, ?_, ?_, ?_⟩
  · obtain ⟨caps, he⟩ := exec_coldReset hf
    refine ⟨_, he, rfl, rfl, rfl, rfl, rfl, rfl, rfl, fun _ => rfl, fun _ => failedTiles_failed hn, rfl, fun hl => ?_⟩
    exact ⟨(coldReset_bytes caps hl).1, fun _ => (coldReset_bytes caps hl).2⟩
  · obtain ⟨hparts, hpkg, hreg, hcycle, hlevel, hleaf⟩ := warmReset_keeps s
    have hr := rested_warmReset s
    exact ⟨_, exec_warmReset s, hparts, hpkg, hreg, hcycle, hlevel, hr.free, hr.blks, hr.tasks, hleaf⟩
  · rintro rfl
    refine ⟨_, exec_partFailure_slice hf, ?_, fun k hk => ?_⟩
    · rw [endStep_slice, sliceFailed_slice, if_pos rfl]
    · rw [endStep_slice, sliceFailed_slice, if_neg (Ne.symm hk)]
  · rintro rfl
    exact ⟨_, exec_partFailure_stack hf, mem_stackFailed⟩
  · rintro rfl
    exact ⟨_, exec_partFailure_port hf, mem_portFailed⟩
  · rintro rfl hy
    exact ⟨_, exec_partFailure_tile hf hy, (tileDown_gone s y).endStep s⟩
  · refine ⟨_, exec_linkDown hf, fun k => ?_⟩
    rw [show (endStep s _).failedPorts = insNat s.failedPorts x from linkDown_failedPorts x]
    exact mem_insNat
  · exact ⟨_, exec_powerRemoval s, rfl, step_unpowered rfl⟩
  · obtain ⟨t, he, ht⟩ := exec_powerEvaluation s
    refine ⟨t, he, ht.power, ht.ctxs, ht.temps, fun k hk => ?_⟩
    obtain ⟨r, dp, hr, hover, hunder, hhot⟩ := evaluated_rate s k
    rw [ht.tiles k hk, ht.power]
    exact ⟨r, dp, hr, rfl, hover, hunder, hhot, rfl⟩
  · refine ⟨_, exec_periodBoundary s, fun _ => rfl, fun hv => if_pos hv, fun k hk => ?_⟩
    rw [endStep_tile, State.tile, periodBoundary_tile s hk]
    obtain ⟨hrate, hpwr⟩ := refill_power s.regclass (s.tile k)
    exact ⟨hrate, hpwr, fun c _ _ ht => refill_tok s.regclass _ ht⟩
  · rintro r l rfl hz hq
    refine ⟨fun hi => ⟨_, exec_requestInject_mesh hf, ?_⟩, fun hi => ⟨_, exec_requestInject_mesh hf, ?_⟩⟩
    · rw [endStep_tile, updTile_tile_same, inject_admits hq hi hz]
      exact ⟨rfl, rfl, (map_getD_put ..).trans (if_pos rfl)⟩
    · rw [endStep_tile, updTile_tile_same, inject_refuses hi]
  · rintro r l rfl hq hv ht
    refine ⟨_, exec_requestInject_slow hf, ?_⟩
    rw [slowInject_sends hq hv ht]
    exact ⟨rfl, rfl⟩
  · rintro rfl hi hp
    refine ⟨_, exec_flitInject_mesh hf hi hp, ?_⟩
    rw [endStep_tile, setTile_tile, if_pos rfl]
    exact ⟨rfl, rfl, rfl⟩
  · rintro rfl hp
    exact ⟨_, exec_flitInject_waits hf hp, rfl⟩

end PackageEvents

end Sys2Proof.Machine

/-! ## Memory events: a spill fetch of a channel that another tile owns (O50) -/

namespace Sys2Proof.Machine

/-- An entry of 8-byte elements with one of them, number 1, in the spill ring at page 2 of the partition's space. -/
def strayChan : Chan := { w := [w64 (2 ^ 63 + 2 ^ 33 + 8 * 2 ^ 28 + 32 * 2 ^ 5), 0x4000400, 1, 0, 0, 0, 0, 0] }

/-- Partition 0 holds the first half of row 0, tiles 0 to 7, and tile 0 maps the spill page (class CHANNEL). The channel in
spill is entry 512, which is entry 0 of tile 8, where no partition is; the event names it as entry 512 of tile 0. -/
def strayFetch : State :=
  { State.reset with
    parts := [(0, ((List.replicate 16 0).set 0 0x8000000500000000).set 1 1)]
    tiles := [(0, { tlb := [⟨5, 2, 3, w64 (0x30000 + 0x100 + 0x7F)⟩] })]
    chans := [(512, strayChan)]
    focus := .ev 0 512 0 0 [] }

def isOk {α : Type} : EStateM.Result Flt State α → Bool
  | .ok _ _ => true
  | .error _ _ => false

theorem ok_of_isOk {α : Type} {r : EStateM.Result Flt State α} (h : isOk r = true) : ∃ a u, r = .ok a u := by
  cases r with
  | ok a u => exact ⟨a, u, rfl⟩
  | error f u => cases h

/-- Tile 0 can read the element's spill place. -/
theorem strayFetch_reads : ∃ bs u, readU 0 0 (spillUse false) .engine (w64 (strayChan.spillVa 1)) strayChan.esize strayFetch =
    .ok bs u := ok_of_isOk rfl

/-- The fetch is tile 8's, whose translation fails: nothing comes into the segment (R178). -/
theorem strayFetch_unchanged : exec .spillFetchComplete strayFetch = .next (endStep strayFetch strayFetch) := by
  have hpart : strayFetch.partOfTile (512 / 64) = none := by decide
  have hexec : exec .spillFetchComplete strayFetch = .next (endStep strayFetch (strayFetch.chanFetch 512)) := rfl
  rw [hexec, State.chanFetch]
  simp only [hpart, ite_self]

/-- Refutes O50: the clause of the spill fetch names channel 64 × x + y and asks for the partition of tile x, for every y, but
from y = 64 on the channel is another tile's. In `strayFetch` tile 0 has a partition and reads the element's place, and tile 8,
whose channel it is, has none, so nothing is fetched. -/
theorem not_memoryEvents : ¬ Obligations.MemoryEvents := by
  unfold Obligations.MemoryEvents
  intro h
  obtain ⟨-, -, -, -, -, -, -, -, -, -, -, hfetch, -⟩ := h strayFetch 0 512 0 0 [] rfl
  obtain ⟨bs, u, hread⟩ := strayFetch_reads
  obtain ⟨t, ht, hchan, -⟩ := hfetch strayChan 1 0 bs u rfl (by decide) (by decide) (by decide) (by decide) (.inl (by decide))
    (by decide) hread
  rw [strayFetch_unchanged] at ht
  obtain rfl := Host.Outcome.next.inj ht
  have honchip := congrArg Chan.onchip hchan
  exact absurd honchip (by decide)

end Sys2Proof.Machine

/-! ## Fields of a channel entry -/

namespace Sys2Proof.Machine

section Bits

variable (w lo n v : Nat)

/-- Bits replaced: what lies below and above them stays, and they are the low bits of `v`. -/
theorem setBits_split : setBits w lo n v = w % 2 ^ lo + 2 ^ lo * (v % 2 ^ n + 2 ^ n * (w / 2 ^ (lo + n))) := by
  have hlow := Nat.mod_add_div w (2 ^ lo)
  have hhigh := Nat.mod_add_div (w / 2 ^ lo) (2 ^ n)
  rw [Nat.div_div_eq_div_mul, ← Nat.pow_add] at hhigh
  have hw : w = w % 2 ^ lo + 2 ^ lo * (w / 2 ^ lo % 2 ^ n) + 2 ^ lo * (2 ^ n * (w / 2 ^ (lo + n))) := by
    rw [Nat.add_assoc, ← Nat.mul_add, hhigh, hlow]
  rw [setBits, bitsOf, Nat.mul_comm _ (2 ^ lo), Nat.mul_comm _ (2 ^ lo), Nat.mul_add]
  omega

theorem setBits_div_above : setBits w lo n v / 2 ^ (lo + n) = w / 2 ^ (lo + n) := by
  rw [setBits_split, Nat.pow_add, ← Nat.div_div_eq_div_mul, Nat.add_mul_div_left _ _ (Nat.two_pow_pos lo),
    Nat.div_eq_of_lt (Nat.mod_lt _ (Nat.two_pow_pos lo)), Nat.zero_add, Nat.add_mul_div_left _ _ (Nat.two_pow_pos n),
    Nat.div_eq_of_lt (Nat.mod_lt _ (Nat.two_pow_pos n)), Nat.zero_add]

theorem bitsOf_setBits_same : bitsOf (setBits w lo n v) lo n = v % 2 ^ n := by
  rw [bitsOf, setBits_split, Nat.add_mul_div_left _ _ (Nat.two_pow_pos lo),
    Nat.div_eq_of_lt (Nat.mod_lt _ (Nat.two_pow_pos lo)), Nat.zero_add, Nat.add_mul_mod_self_left, Nat.mod_mod]

variable {w lo n v}

/-- Higher bits than those replaced stay. -/
theorem bitsOf_setBits_above {lo' n' : Nat} (h : lo + n ≤ lo') : bitsOf (setBits w lo n v) lo' n' = bitsOf w lo' n' := by
  have hp : 2 ^ lo' = 2 ^ (lo + n) * 2 ^ (lo' - (lo + n)) := by rw [← Nat.pow_add, Nat.add_sub_of_le h]
  rw [bitsOf, bitsOf, hp, ← Nat.div_div_eq_div_mul, setBits_div_above, Nat.div_div_eq_div_mul]

/-- Bits replaced within a width stay within it. -/
theorem setBits_lt {p : Nat} (hw : w < 2 ^ p) (h : lo + n ≤ p) : setBits w lo n v < 2 ^ p := by
  have hp : 2 ^ p = 2 ^ (p - (lo + n)) * 2 ^ (lo + n) := by rw [← Nat.pow_add, Nat.sub_add_cancel h]
  rw [hp] at hw ⊢
  rw [← Nat.div_lt_iff_lt_mul (Nat.two_pow_pos _)] at hw ⊢
  rwa [setBits_div_above]

end Bits

section Entry

variable {c : Chan} {i j lo n v : Nat}

@[simp] theorem setW_length (c : Chan) (i v : Nat) : (c.setW i v).w.length = c.w.length := List.length_set
@[simp] theorem fld_length (c : Chan) (i lo n v : Nat) : (c.fld i lo n v).w.length = c.w.length := List.length_set

theorem setW_wAt_other (c : Chan) (v : Nat) (h : i ≠ j) : wAt (c.setW i v).w j = wAt c.w j := wAt_set_other _ _ h

theorem setW_wAt_same (h : i < c.w.length) (hv : v < 2 ^ 64) : wAt (c.setW i v).w i = v := by
  rw [Chan.setW, wAt_set_same _ h, w64_toNat, Nat.mod_eq_of_lt hv]

theorem fld_wAt_other (c : Chan) (lo n v : Nat) (h : i ≠ j) : wAt (c.fld i lo n v).w j = wAt c.w j := wAt_set_other _ _ h

theorem fld_wAt_same (h : i < c.w.length) (hb : lo + n ≤ 64) : wAt (c.fld i lo n v).w i = setBits (wAt c.w i) lo n v := by
  have hlt : wAt c.w i < 2 ^ 64 := (c.w.getD i 0).isLt
  rw [Chan.fld, setField, wAt_set_same _ h, w64_toNat, Nat.mod_eq_of_lt (setBits_lt hlt hb)]

/-- The bits below EST, PV and CV of word 0 give the segment, the element size and with them the room. -/
theorem segment_congr {d : Chan} (h : ∀ lo n, lo + n ≤ 43 → bitsOf (wAt d.w 0) lo n = bitsOf (wAt c.w 0) lo n) :
    d.esize = c.esize ∧ d.con = c.con ∧ d.eps = c.eps := by
  have hz : d.esize = c.esize := by rw [Chan.esize, Chan.esize, h 33 10 (by decide)]
  refine ⟨hz, ?_, ?_⟩
  · rw [Chan.con, Chan.con, hz, Chan.seglen, Chan.seglen, h 5 12 (by decide)]
  · rw [Chan.eps, Chan.eps, hz]

/-- A side of the channel is bound, and to another identity (R177). -/
theorem foreign_of_ne {bound : Bool} {x me : W64} (hb : bound = true) (h : x ≠ me) : (bound && decide (x ≠ me)) = true := by
  rw [hb, decide_eq_true h, Bool.and_self]

/-- A side of the channel is free, or bound to this identity. -/
theorem not_foreign {bound : Bool} {x me : W64} (h : bound = false ∨ x = me) : (bound && decide (x ≠ me)) = false := by
  rcases h with rfl | rfl
  · exact Bool.false_and _
  · rw [decide_eq_false (not_not_intro rfl), Bool.and_false]

end Entry

end Sys2Proof.Machine

/-! ## Pushes to a channel (O21) -/

namespace Sys2Proof.Machine

/-! ### What a push sends to its home -/

section Sends

/-- What traffic does to the tiles and ports leaves the channel table. -/
theorem OnlyTraffic.chan {t u : State} (h : OnlyTraffic t u) (k : Nat) : u.chan k = t.chan k := by
  have hchans : u.chans = t.chans := by simpa using congrArg State.chans h.rest
  rw [State.chan, State.chan, hchans]

theorem OnlyTraffic.meterRing (s : State) (t cls n copy : Nat) : OnlyTraffic s (s.meterRing t cls n copy) := by
  have hmeter (u : State) (bytes flits : Nat) : OnlyTraffic u (u.meter t true cls bytes flits copy) := by
    unfold State.meter
    exact updTile _ _ _ rfl
  unfold State.meterRing
  exact fold _ (fun u _ => hmeter u ..) _ s

theorem sendSeg_chan (s : State) (w : Who) (t u cls tag n k : Nat) : (s.sendSeg w t u cls tag n).chan k = s.chan k := by
  unfold State.sendSeg
  split <;> rfl

/-- What is sent to a channel's home, or asked back from it, changes no channel. -/
@[simp] theorem chanSend_chan (s : State) (t : Nat) (w : Who) (k n : Nat) (eos back : Bool) (j : Nat) :
    (s.chanSend t w k n eos back).chan j = s.chan j := by
  have hring : (s.meterRing t w.cls n).chan j = s.chan j := (OnlyTraffic.meterRing ..).chan j
  unfold State.chanSend
  dsimp only
  split
  · rfl
  · split
    · exact ((OnlyTraffic.meshReq ..).trans (.device ..)).chan j
    · split
      · rw [sendSeg_chan, hring]
      · split <;> rw [sendSeg_chan, hring]

end Sends

/-! ### The home's half (R179, R184) -/

/-- The channel takes a new number on chip: it is higher than every one accepted, the phase has not ended, there is room, nothing
is in spill and the segment is not full. -/
structure Chan.TakesNext (c : Chan) : Prop where
  fresh : c.pushseq < c.nextNum
  phase : c.est = 0
  room : c.occ < c.cap
  unspilled : c.onchip = c.occ
  segment : c.onchip < c.con

/-- The entry once element `num` stands on chip. -/
def Chan.counted (c : Chan) (num : Nat) : Chan := { (c.setW 2 num).setW 5 (wAt c.w 5 + 1) with onchip := c.onchip + 1 }

/-- Element `num` of channel `k`, of entry `c`, is put on chip, and the entry becomes `x`. -/
def State.elementPut (s : State) (k num : Nat) (d : List Byte) (c x : Chan) : State :=
  ((s.wrBytes (c.slotPa k num) d).setChan k { c with onchip := c.onchip + 1 }).setChan k x

section ElementPut

variable (s : State) (k num : Nat) (d : List Byte) (c x : Chan)

theorem elementPut_fields : s.elementPut k num d c x =
    { s with log := (s.wrBytes (c.slotPa k num) d).log, chans := (s.elementPut k num d c x).chans } := by
  unfold State.elementPut
  rw [wrBytes_log]
  rfl

theorem elementPut_mem : (s.elementPut k num d c x).mem = s.mem := by rw [elementPut_fields]
theorem elementPut_ctxs : (s.elementPut k num d c x).ctxs = s.ctxs := by rw [elementPut_fields]
theorem elementPut_waits : (s.elementPut k num d c x).waits = s.waits := by rw [elementPut_fields]

@[simp] theorem elementPut_chan_same : (s.elementPut k num d c x).chan k = x := setChan_chan_same ..

variable {s k num d c x}

theorem elementPut_chan_other {j : Nat} (h : j ≠ k) : (s.elementPut k num d c x).chan j = s.chan j := by
  rw [State.elementPut, setChan_chan, if_neg (Ne.symm h), setChan_chan, if_neg (Ne.symm h), wrBytes_log]
  rfl

/-- No byte outside the element's place changes. -/
theorem elementPut_byte_outside {a : Nat} (h : a < c.slotPa k num ∨ c.slotPa k num + d.length ≤ a) :
    (s.elementPut k num d c x).byte a = s.byte a := by
  have hput : (s.elementPut k num d c x).byte a = (s.wrBytes (c.slotPa k num) d).byte a := rfl
  rw [hput, byte_wrBytes, if_neg (by omega)]

end ElementPut

section DrawnBytes

/-- Only the counter of free values moves. -/
theorem drawBytes_fields (n : Nat) : ∀ s : State, (s.drawBytes n).2 = { s with freeCtr := (s.drawBytes n).2.freeCtr } := by
  induction n with
  | zero => exact fun s => rfl
  | succ n ih => exact fun s => ih { s with freeCtr := s.freeCtr + 1 }

variable (s : State) (n : Nat)

@[simp] theorem drawBytes_length : (s.drawBytes n).1.length = n := by
  induction n generalizing s with
  | zero => rfl
  | succ n ih => exact congrArg Nat.succ (ih { s with freeCtr := s.freeCtr + 1 })

@[simp] theorem drawBytes_chan (k : Nat) : (s.drawBytes n).2.chan k = s.chan k := by rw [drawBytes_fields]; rfl

@[simp] theorem drawBytes_byte (a : Nat) : (s.drawBytes n).2.byte a = s.byte a := by rw [drawBytes_fields]; rfl

end DrawnBytes

theorem stat_zero (n : Nat) : stat 0 n = w64 (n % 2 ^ 56 * 256) := by rw [stat, Nat.zero_add]

/-- Without spill nothing keeps the next element from being placed. -/
theorem Chan.TakesNext.not_spillFull {c : Chan} (h : c.TakesNext) : c.spillFull = false := by
  simp [Chan.spillFull, h.unspilled, h.unspilled ▸ h.segment]

section Counted

variable {c : Chan} (hl : 6 < c.w.length)

include hl

theorem counted_pushseq {num : Nat} (hn : num < 2 ^ 64) : (c.counted num).pushseq = num :=
  (wAt_set_other _ _ (by decide)).trans (setW_wAt_same (by omega) hn)

omit hl in
theorem counted_word0 (num : Nat) : wAt (c.counted num).w 0 = wAt c.w 0 :=
  (wAt_set_other _ _ (by decide)).trans (wAt_set_other _ _ (by decide))

omit hl in
theorem counted_producer (num : Nat) : (c.counted num).w.getD 6 0 = c.w.getD 6 0 :=
  (getD_set_other _ _ _ (by decide)).trans (getD_set_other _ _ _ (by decide))

/-- The end of the phase (R184). -/
theorem counted_ended_est (num : Nat) : ((c.counted num).fld 0 61 2 1).est = 1 := by
  have hlen : 0 < (c.counted num).w.length := by simpa [Chan.counted, Chan.setW] using Nat.zero_lt_of_lt hl
  rw [Chan.est, fld_wAt_same hlen (by decide), bitsOf_setBits_same, Nat.mod_eq_of_lt (by decide)]

theorem counted_ended_pushseq : ((c.counted c.nextNum).fld 0 61 2 1).pushseq = c.nextNum :=
  (fld_wAt_other _ _ _ _ (by decide)).trans (counted_pushseq hl (Nat.mod_lt _ (by decide)))

end Counted

section Accept

variable {s : State} {k kind : Nat} {data : List Byte} {c : Chan} (hc : s.chan k = c)

include hc

/-- A replayed number that was accepted before (R181). -/
theorem chanAccept_dup (h : c.nextNum ≤ c.pushseq) : chanAccept k kind data s =
    .ok (.done (stat 1 c.nextNum)) (s.setChan k (c.setW 5 (wAt c.w 5 + 1))) := by
  subst hc
  simp [chanAccept, h, -bind_pure_comp]

theorem chanAccept_ended (hn : c.pushseq < c.nextNum) (he : c.est ≠ 0) : chanAccept k kind data s = .ok (.done 2) s := by
  simp [chanAccept, hc, Nat.not_le.mpr hn, he]

theorem chanAccept_full (hn : c.pushseq < c.nextNum) (he : c.est = 0) (hf : c.cap ≤ c.occ) :
    chanAccept k kind data s = .ok .wait s := by
  simp [chanAccept, hc, Nat.not_le.mpr hn, he, hf]

/-- With nothing in spill and a free place in the segment an element goes there (R178). -/
theorem chanPlace_segment (n : Nat) (d : List Byte) (ho : c.onchip = c.occ) (hs : c.onchip < c.con) :
    chanPlace k n d s = .ok () ((s.wrBytes (c.slotPa k n) d).setChan k { c with onchip := c.onchip + 1 }) := by
  have hguard : (c.onchip = c.occ && c.onchip < c.con) = true := by simp [ho, ho ▸ hs]
  simp only [chanPlace, effect_bind, effect_getS, hc, hguard, if_true, effect_modS]

theorem chanAccept_push (h : c.TakesNext) : chanAccept k 0 data s =
    .ok (.done (w64 (c.nextNum % 2 ^ 56 * 256))) (s.elementPut k c.nextNum data c (c.counted c.nextNum)) := by
  have hplace := chanPlace_segment hc c.nextNum data h.unspilled h.segment
  rw [← stat_zero]
  simp [chanAccept, hc, Nat.not_le.mpr h.fresh, h.phase, Nat.not_le.mpr h.room, h.not_spillFull, hplace, -bind_pure_comp]
  rfl

/-- An end-of-stream takes a place of undefined bytes and ends the phase (R184). -/
theorem chanAccept_end (h : c.TakesNext) : chanAccept k 1 data s = .ok (.done (w64 (c.nextNum % 2 ^ 56 * 256)))
    ((s.drawBytes c.esize).2.elementPut k c.nextNum (s.drawBytes c.esize).1 c ((c.counted c.nextNum).fld 0 61 2 1)) := by
  have hplace := chanPlace_segment ((drawBytes_chan s c.esize k).trans hc) c.nextNum (s.drawBytes c.esize).1 h.unspilled h.segment
  rw [← stat_zero]
  simp [chanAccept, hc, Nat.not_le.mpr h.fresh, h.phase, Nat.not_le.mpr h.room, h.not_spillFull, drawM, hplace, -bind_pure_comp]
  rfl

end Accept

/-! ### The producer's half (R183, R177) -/

/-- The entry bound to producer `me`, none of its pushes counted yet. -/
def Chan.bindProd (c : Chan) (me : W64) : Chan := (((c.fld 0 60 1 1).setW 4 c.pushseq).setW 5 0).setW 6 me.toNat

section BindProd

variable {c : Chan} (me : W64) (hl : 6 < c.w.length)

include hl

theorem bindProd_word0 : wAt (c.bindProd me).w 0 = setBits (wAt c.w 0) 60 1 1 := by
  rw [Chan.bindProd, setW_wAt_other _ _ (by decide), setW_wAt_other _ _ (by decide), setW_wAt_other _ _ (by decide),
    fld_wAt_same (by omega) (by decide)]

omit hl in
theorem bindProd_wAt {i : Nat} (h : i ∈ [1, 2, 3]) : wAt (c.bindProd me).w i = wAt c.w i := by
  simp only [List.mem_cons, List.not_mem_nil, or_false] at h
  rw [Chan.bindProd, setW_wAt_other _ _ (by omega), setW_wAt_other _ _ (by omega), setW_wAt_other _ _ (by omega),
    fld_wAt_other _ _ _ _ (by omega)]

omit hl in
theorem bindProd_length : (c.bindProd me).w.length = c.w.length := by simp [Chan.bindProd]

theorem bindProd_producer : (c.bindProd me).w.getD 6 0 = me := by
  have hlen : 6 < (((c.fld 0 60 1 1).setW 4 c.pushseq).setW 5 0).w.length := by simpa using hl
  apply BitVec.eq_of_toNat_eq
  exact setW_wAt_same hlen me.isLt

theorem bindProd_pv : (c.bindProd me).pv = true := by
  have hbit : bitsOf (wAt (c.bindProd me).w 0) 60 1 = 1 := by
    rw [bindProd_word0 me hl, bitsOf_setBits_same, Nat.mod_eq_of_lt (by decide)]
  exact bitOf_of_bitsOf (b := true) hbit

/-- Its next number follows the last one accepted (R181). -/
theorem bindProd_nextNum (hn : c.pushseq + 1 < 2 ^ 64) : (c.bindProd me).nextNum = c.pushseq + 1 := by
  have h4 : wAt (c.bindProd me).w 4 = c.pushseq := by
    rw [Chan.bindProd, setW_wAt_other _ _ (by decide), setW_wAt_other _ _ (by decide),
      setW_wAt_same (by simp; omega) (by omega)]
  have h5 : wAt (c.bindProd me).w 5 = 0 := by
    rw [Chan.bindProd, setW_wAt_other _ _ (by decide), setW_wAt_same (by simp; omega) (by decide)]
  rw [Chan.nextNum, h4, h5, Nat.add_zero, Nat.mod_eq_of_lt hn]

theorem bindProd_est : (c.bindProd me).est = c.est := by
  rw [Chan.est, bindProd_word0 me hl, bitsOf_setBits_above (by decide), Chan.est]

/-- A channel with room whose first push this is takes it. -/
theorem bindProd_takesNext (he : c.est = 0) (hr : c.occ < c.cap) (ho : c.onchip = c.occ) (hc : c.onchip < c.con)
    (hn : c.pushseq + 1 < 2 ^ 64) : (c.bindProd me).TakesNext := by
  obtain ⟨-, hcon, heps⟩ := segment_congr (c := c) (d := c.bindProd me) fun lo n h => by
    rw [bindProd_word0 me hl, bitsOf_setBits_below (by omega)]
  have hpush : (c.bindProd me).pushseq = c.pushseq := bindProd_wAt me (by decide)
  have hpop : (c.bindProd me).popseq = c.popseq := bindProd_wAt me (by decide)
  have hslim : (c.bindProd me).slim = c.slim := congrArg (bitsOf · 0 7) (bindProd_wAt me (by decide))
  have hocc : (c.bindProd me).occ = c.occ := by rw [Chan.occ, hpush, hpop, Chan.occ]
  have hcap : (c.bindProd me).cap = c.cap := by rw [Chan.cap, hcon, hslim, heps, Chan.cap]
  exact {
    fresh := by rw [bindProd_nextNum me hl hn, hpush]; omega
    phase := by rw [bindProd_est me hl, he]
    room := by rwa [hocc, hcap]
    unspilled := by rw [hocc]; exact ho
    segment := by rw [hcon]; exact hc }

end BindProd

section Push

/-- The home accepts a push or not; what it does with a producer that it binds only now is mirrored (R277), and undone when the
element's place cannot be written. -/
def homeAccept (c : Chan) (k kind : Nat) (d : List Byte) : M PushR := fun s =>
  match chanAccept k kind d s with
  | .error f u => .error f (u.setChan k { c with onchip := (u.chan k).onchip })
  | .ok r u => .ok r (if c.pv then u else u.mirror k 0 8)

/-- What follows the home's answer: a push without room waits. -/
def awaitRoom (e : Env) (k kind : Nat) (va : W64) (d : List Byte) : PushR → M PushR
  | .done st => pure (.done st)
  | .wait => do
    modS (fun s => { s with waits := s.waits ++ [⟨e.key, e.idx, .push k kind d va⟩] })
    pure .wait

/-- The machine once a push is on its way to its home. -/
def State.pushSent (u : State) (e : Env) (k kind : Nat) (d : List Byte) : State :=
  u.chanSend e.tile (u.who e) k d.length (kind = 1) false

variable {e : Env} {k kind : Nat} {va : W64} {size : Nat → Bool} {d : List Byte} {u t t' : State} {c : Chan} {st : W64}
  (hc : u.chan k = c)

theorem home_done (ha : chanAccept k kind d t = .ok (.done st) t') :
    (homeAccept c k kind d >>= awaitRoom e k kind va d) t = .ok (.done st) (if c.pv then t' else t'.mirror k 0 8) := by
  simp only [effect_bind, homeAccept, ha, awaitRoom, effect_pure]

theorem home_wait (hp : c.pv = true) (ha : chanAccept k kind d t = .ok .wait t') :
    (homeAccept c k kind d >>= awaitRoom e k kind va d) t =
      .ok .wait { t' with waits := t'.waits ++ [⟨e.key, e.idx, .push k kind d va⟩] } := by
  simp only [effect_bind, homeAccept, ha, awaitRoom, effect_pure, effect_modS, hp, if_true]

include hc

theorem pushSent_chan : (u.pushSent e k kind d).chan k = c := (chanSend_chan ..).trans hc

theorem chanPush_closed (hv : c.v = false) : chanPush e k kind va size d u = .ok (.done 2) u := by
  simp [chanPush, hc, hv]

variable (hv : c.v = true)

include hv

theorem chanPush_foreign (hp : c.pv = true) (hme : c.w.getD 6 0 ≠ (u.ctx e.key).ident) :
    chanPush e k kind va size d u = .error (ownerFault k va) u := by
  simp only [chanPush, effect_bind, effect_getS, effect_ite, hc, hv, foreign_of_ne hp hme]
  rfl

/-- An element of a size that the channel does not have. -/
theorem chanPush_misfit (hme : c.pv = false ∨ c.w.getD 6 0 = (u.ctx e.key).ident) (hz : size c.esize = false) :
    chanPush e k kind va size d u = .error (fltWord .reservedField e) u := by
  simp only [chanPush, effect_bind, effect_getS, effect_ite, hc, hv, not_foreign hme, hz]
  rfl

variable (hz : size c.esize = true)

include hz

/-- An ended channel that no producer is bound to. -/
theorem chanPush_ended (hp : c.pv = false) (he : c.est ≠ 0) : chanPush e k kind va size d u = .ok (.done 2) u := by
  simp [chanPush, hc, hv, hp, hz, he]

/-- The push of the bound producer goes to the home. -/
theorem chanPush_bound (hp : c.pv = true) (hme : c.w.getD 6 0 = (u.ctx e.key).ident) : chanPush e k kind va size d u =
    (homeAccept c k kind d >>= awaitRoom e k kind va d) (u.pushSent e k kind d) := by
  conv_lhs =>
    simp only [chanPush, effect_bind, effect_getS, effect_ite, effect_modS, hc, hv, not_foreign (.inr hme), hz, Bool.not_true,
      Bool.false_eq_true, if_false]
  rw [if_neg (by simp [hp]), if_neg (by simp [hp])]
  rfl

/-- The first push binds its producer (R177). -/
theorem chanPush_first (hp : c.pv = false) (he : c.est = 0) : chanPush e k kind va size d u =
    (homeAccept c k kind d >>= awaitRoom e k kind va d)
      ((u.pushSent e k kind d).setChan k (c.bindProd (u.ctx e.key).ident)) := by
  conv_lhs =>
    simp only [chanPush, effect_bind, effect_getS, effect_ite, effect_modS, hc, hv, not_foreign (.inl hp), hz, Bool.not_true,
      Bool.false_eq_true, if_false, chanSend_chan]
  rw [if_neg (by simp [he]), if_pos (by simp [hp])]
  rfl

/-- The push of the bound producer comes to what the home answers. -/
theorem chanPush_bound_done (hp : c.pv = true) (hme : c.w.getD 6 0 = (u.ctx e.key).ident)
    (ha : chanAccept k kind d (u.pushSent e k kind d) = .ok (.done st) t) :
    chanPush e k kind va size d u = .ok (.done st) t := by
  rw [chanPush_bound hc hv hz hp hme, home_done ha, if_pos hp]

theorem chanPush_bound_wait (hp : c.pv = true) (hme : c.w.getD 6 0 = (u.ctx e.key).ident)
    (ha : chanAccept k kind d (u.pushSent e k kind d) = .ok .wait t) : chanPush e k kind va size d u =
    .ok .wait { t with waits := t.waits ++ [⟨e.key, e.idx, .push k kind d va⟩] } := by
  rw [chanPush_bound hc hv hz hp hme, home_wait hp ha]

/-- The first push comes to what the home answers, and the entry is mirrored (R277). -/
theorem chanPush_first_done (hp : c.pv = false) (he : c.est = 0)
    (ha : chanAccept k kind d ((u.pushSent e k kind d).setChan k (c.bindProd (u.ctx e.key).ident)) = .ok (.done st) t) :
    chanPush e k kind va size d u = .ok (.done st) (t.mirror k 0 8) := by
  rw [chanPush_first hc hv hz hp he, home_done ha, if_neg (by simp [hp])]

end Push

/-! ### CHPUSH and CHEOS (R411, R184) -/

/-- What an instruction answers whose push comes to `r`. -/
def pushAnswer (s : State) (e : Env) : EStateM.Result Flt State PushR → Out
  | .ok (.done st) t => s.closes e t st
  | .ok .wait t => .next (endStep s t)
  | .error f t => s.faults e t f

/-- What holds back a CHPUSH: program order, and of one from memory what its loads wait for. -/
def pushHold (flag : Bool) (e : Env) (s : State) : Option State :=
  if flag then hold15 e s else match chanLocate e e.a s with
    | .ok k u => plainHold e (useLoad (s.ctx e.key).sup) e.b (u.chan k).esize s
    | .error _ _ => plainHold e (useLoad (s.ctx e.key).sup) e.b 0 s

/-- The element that a CHPUSH to channel `k` carries, and the machine once it has it. -/
def pushData (flag : Bool) (e : Env) (k : Nat) : M (List Byte) :=
  if flag then pure (leBytes 8 e.b.toNat) else do
    needAlign e.b 8
    loadBytes e e.b ((← getS).chan k).esize

section Instructions

variable {s u : State} {e : Env} {k : Nat} {flag : Bool}

theorem exec_chpush (H : Fires.of s (.chpush e.h flag) e) (hh : pushHold flag e s = none)
    (hloc : chanLocate e e.a (s.begun e) = .ok k u) {d : List Byte} {u0 : State} (hd : pushData flag e k u = .ok d u0) :
    exec (.chpush e.h flag) s = pushAnswer s e (chanPush e k 0 e.a (fun z => !flag || z = 8) d u0) := by
  have hrun := run_fireM H (fun e => do
    let k ← chanLocate e e.a
    let d ← pushData flag e k
    donePush e (← chanPush e k 0 e.a (fun z => !flag || z = 8) d)) (pushHold flag) hh
  refine Eq.trans hrun ?_
  simp only [effect_bind, hloc, hd]
  generalize chanPush e k 0 e.a (fun z => !flag || z = 8) d u0 = r
  rcases r with ⟨_ | _, t⟩ | ⟨f, t⟩ <;> rfl

/-- A CHPUSH that does not get its element. -/
theorem exec_chpush_error (H : Fires.of s (.chpush e.h flag) e) (hh : pushHold flag e s = none)
    (hloc : chanLocate e e.a (s.begun e) = .ok k u) {f : Flt} {u0 : State} (hd : pushData flag e k u = .error f u0) :
    exec (.chpush e.h flag) s = s.faults e u0 f := by
  refine run_fireM_error H (body := fun e => do
    let k ← chanLocate e e.a
    let d ← pushData flag e k
    donePush e (← chanPush e k 0 e.a (fun z => !flag || z = 8) d)) (blk := pushHold flag) hh ?_
  simp only [effect_bind, hloc, hd]

theorem exec_cheos (H : Fires.of s (.cheos e.h) e) (G : Goes s e) (hloc : chanLocate e e.a (s.begun e) = .ok k u) :
    exec (.cheos e.h) s = pushAnswer s e (chanPush e k 1 e.a (fun _ => true) [] u) := by
  have hrun := run_fireM H (fun e => do
    let k ← chanLocate e e.a
    donePush e (← chanPush e k 1 e.a (fun _ => true) [])) hold15 G.hold
  refine Eq.trans hrun ?_
  simp only [effect_bind, hloc]
  generalize chanPush e k 1 e.a (fun _ => true) [] u = r
  rcases r with ⟨_ | _, t⟩ | ⟨f, t⟩ <;> rfl

end Instructions

/-! ### The obligation -/

section PushClauses

variable {s u u0 : State} {e : Env} {k : Nat} {flag : Bool} {data : List Byte}

/-- The element is the operand, or comes from memory. -/
theorem pushData_of (h : (flag = true ∧ data = leBytes 8 e.b.toNat ∧ u0 = u) ∨ (flag = false ∧ e.b.toNat % 8 = 0 ∧
    loadBytes e e.b (u.chan k).esize u = .ok data u0 ∧ u0.chan k = u.chan k)) :
    pushData flag e k u = .ok data u0 ∧ u0.chan k = u.chan k := by
  rcases h with ⟨rfl, rfl, rfl⟩ | ⟨rfl, hb, hload, hchan⟩
  · exact ⟨rfl, rfl⟩
  · exact ⟨by simp [pushData, hb, hload], hchan⟩

theorem pushHold_of (ht : flag = true → Goes s e) (hf : flag = false → pushHold false e s = none) :
    pushHold flag e s = none := by
  cases flag with
  | true => exact (ht rfl).hold
  | false => exact hf rfl

end PushClauses

/-- Settles O21, by what a push comes to at its home, entry case by entry case. -/
theorem channelPushes : Obligations.ChannelPushes := by
  intro s u u0 e k flag data f c me load num has fits u1 u2 owner fires ends hloc hlen
  have hold : fires → pushHold flag e s = none := fun ⟨_, ht, hf⟩ => pushHold_of ht hf
  have unloaded {g : Flt} {t : State} (hf : fires) (h : pushData flag e k u = .error g t) :
      exec (.chpush e.h flag) s = s.faults e t g := exec_chpush_error hf.1 (hold hf) hloc h
  have chan0 (hh : has) : u0.chan k = c := (pushData_of hh).2
  have push {r} (hf : fires) (hh : has) (hr : chanPush e k 0 e.a (fun z => !flag || z = 8) data u0 = r) :
      exec (.chpush e.h flag) s = pushAnswer s e r :=
    (exec_chpush hf.1 (hold hf) hloc (pushData_of hh).1).trans (congrArg _ hr)
  have finish {r} (he : ends) (hr : chanPush e k 1 e.a (fun _ => true) [] u = r) :
      exec (.cheos e.h) s = pushAnswer s e r := (exec_cheos he.1 he.2 hloc).trans (congrArg _ hr)
  have size (hz : fits) : (!flag || decide (c.esize = 8)) = true := by
    cases hflag : flag with
    | true => simpa using hz hflag
    | false => rfl
  refine ⟨fun hf hflag hb => unloaded hf ?misaligned, fun hf hflag hb hl => unloaded hf ?unread,
    fun hv => ⟨fun hf hh => push hf hh (chanPush_closed (chan0 hh) hv), fun he => finish he (chanPush_closed rfl hv)⟩,
    fun hv hp => ⟨fun hf hh hme => push hf hh (chanPush_foreign (chan0 hh) hv hp hme),
      fun he hme => finish he (chanPush_foreign rfl hv hp hme)⟩,
    fun hv hme hf hh hz => push hf hh (chanPush_misfit (chan0 hh) hv hme ?misfit),
    fun hv hp => ⟨fun hf hh hz hme => ?bound, fun he hme hn hest hr ho hs => ?ends⟩,
    fun hv hp hf hh hz => ⟨fun hest => push hf hh (chanPush_ended (chan0 hh) hv (size hz) hp hest),
      fun hest hr ho hs hn => ?first⟩⟩
  case misaligned => simp [pushData, hflag, hb, misFault]; rfl
  case unread => simpa [pushData, hflag, hb] using hl
  case misfit =>
    obtain ⟨hflag, hne⟩ := Classical.not_imp.mp hz
    simp [hflag, hne]
  case bound =>
    have hc : u0.chan k = c := chan0 hh
    have sent := pushSent_chan (e := e) (kind := 0) (d := data) hc
    have done {st : W64} {t : State} (ha : chanAccept k 0 data (u0.pushSent e k 0 data) = .ok (.done st) t) :
        exec (.chpush e.h flag) s = s.closes e t st := push hf hh (chanPush_bound_done hc hv (size hz) hp hme ha)
    refine ⟨fun hn => done (chanAccept_dup sent hn), fun hn hest => done (chanAccept_ended sent hn hest),
      fun hn hest hfull => push hf hh (chanPush_bound_wait hc hv (size hz) hp hme (chanAccept_full sent hn hest hfull)),
      fun hn hest hr ho hs => ⟨_, done (chanAccept_push sent ⟨hn, hest, hr, ho, hs⟩), ?_⟩⟩
    exact ⟨elementPut_chan_same .., fun j hj => elementPut_chan_other hj, elementPut_mem .., rfl,
      elementPut_ctxs .., elementPut_waits ..⟩
  case ends =>
    have sent := pushSent_chan (u := u) (e := e) (k := k) (kind := 1) (d := []) rfl
    have accept := chanAccept_end (data := []) sent ⟨hn, hest, hr, ho, hs⟩
    refine ⟨_, finish he (chanPush_bound_done rfl hv rfl hp hme accept), ?_⟩
    rw [elementPut_chan_same]
    refine ⟨counted_ended_est hlen _, counted_ended_pushseq hlen, fun j hj => ?_, fun a ha => ?_⟩
    · rw [elementPut_chan_other hj, drawBytes_chan]
      rfl
    · rw [elementPut_byte_outside (by rwa [drawBytes_length]), drawBytes_byte]
      rfl
  case first =>
    have hc : u0.chan k = c := chan0 hh
    have accept := chanAccept_push (data := data) (setChan_chan_same (u0.pushSent e k 0 data) k (c.bindProd me))
      (bindProd_takesNext me hlen hest hr ho hs hn)
    rw [bindProd_nextNum me hlen hn] at accept
    refine ⟨_, push hf hh (chanPush_first_done hc hv (size hz) hp hest accept), ?_⟩
    simp only [mirror_chan, elementPut_chan_same]
    refine ⟨?_, (counted_producer _).trans (bindProd_producer me hlen),
      counted_pushseq (by rwa [bindProd_length]) hn, rfl, fun j hj => ?_⟩
    · rw [Chan.pv, counted_word0]
      exact bindProd_pv me hlen
    · rw [elementPut_chan_other hj, setChan_chan, if_neg (Ne.symm hj)]
      rfl

end Sys2Proof.Machine

/-! ## Pops and peeks of a channel (O22) -/

namespace Sys2Proof.Machine

/-! ### At the home (R183, R412) -/

section Pop

variable {e : Env} {k : Nat} {peek : Bool} {s u : State}

section Located

variable {c : Chan} (hloc : chanLocate e e.a s = .ok k u) (hc : u.chan k = c)

include hloc

theorem chanPop_misaligned (hb : e.b.toNat % 8 ≠ 0) : chanPop peek e s = .error (misFault e.b 8) u := by
  simp only [chanPop, effect_bind, hloc, effect_needAlign, if_neg hb]

include hc

/-- A channel whose elements a failed tile held (R274, R279). -/
theorem chanPop_lost (hb : e.b.toNat % 8 = 0) (hl : c.lost = true) :
    chanPop peek e s = .error { code := .partFailed, extra := w64 (1 + c.lostTile * 256) } u := by
  simp only [chanPop, effect_bind, hloc, effect_needAlign, if_pos hb, effect_getS, effect_ite, hc, hl, if_true, effect_raise]

variable (hb : e.b.toNat % 8 = 0) (hl : c.lost = false)

include hb hl

theorem chanPop_closed (hv : c.v = false) : chanPop peek e s = .ok () (u.finish e.key e.idx 2) := by
  simp [chanPop, hloc, hb, hc, hl, hv]

variable (hv : c.v = true)

include hv

theorem chanPop_foreign (hp : c.cv = true) (hme : c.w.getD 7 0 ≠ (u.ctx e.key).ident) :
    chanPop peek e s = .error (ownerFault k e.a) u := by
  simp only [chanPop, effect_bind, hloc, effect_needAlign, if_pos hb, effect_getS, effect_ite, hc, hl, hv,
    foreign_of_ne hp hme]
  rfl

variable (hme : c.cv = false ∨ c.w.getD 7 0 = (u.ctx e.key).ident)

include hme

/-- At the end of the stream (R185). -/
theorem chanPop_marker (hm : c.atMarker = true) :
    chanPop peek e s = .ok () ((u.chanMarker k e.key).finish e.key e.idx 3) := by
  simp only [chanPop, effect_bind, hloc, effect_needAlign, if_pos hb, effect_getS, effect_ite, hc, hl, hv,
    not_foreign hme, hm, Bool.not_true, Bool.false_eq_true, if_false, if_true, effect_modS]

section Granted

variable (hm : c.atMarker = false) {u1 : State}
  (hd : checkU e.tile (u.ctx e.key).part (useDest (u.ctx e.key).sup) .plain e.b c.esize u = .ok () u1)

include hm hd

/-- An empty channel. -/
theorem chanPop_wait (ho : c.onchip = 0) : chanPop peek e s = .ok () (
    let t := u1.chanSend e.tile (u1.who e) k c.esize false true
    { t with waits := t.waits ++ [⟨e.key, e.idx, .pop k peek e.b e.a⟩] }) := by
  simp only [chanPop, effect_bind, hloc, effect_needAlign, if_pos hb, effect_getS, effect_ite, hc, hl, hv,
    not_foreign hme, hm, hd, ho, Nat.lt_irrefl, gt_iff_lt, Bool.not_true, Bool.false_eq_true, if_false, effect_modS]

/-- The oldest element stands on chip. -/
theorem chanPop_takes (ho : 0 < c.onchip) : chanPop peek e s =
    chanPopDo e.key e.idx k peek e.b (u1.chanSend e.tile (u1.who e) k c.esize false true) := by
  simp only [chanPop, effect_bind, hloc, effect_needAlign, if_pos hb, effect_getS, effect_ite, hc, hl, hv,
    not_foreign hme, hm, hd, ho, gt_iff_lt, Bool.not_true, Bool.false_eq_true, if_false, if_true, effect_modS]

end Granted

end Located

/-- A write of a pop that met poison is an asynchronous fault of the consumer. -/
def State.popNoted (t : State) (key : Nat) : Option Nat → State
  | some pa => t.asyncFault key { poisonFault pa with src := 9 }
  | none => t

/-- The pop of the element numbered `n` ends: it acquires at the smallest scope that contains the producer (R160). -/
def State.popEnded (t : State) (key idx k n : Nat) : State :=
  (t.cacheAcquire (key / 16) (t.popScope k (key / 16))).finish key idx (w64 (n % 2 ^ 56 * 256))

/-- A pop takes the oldest element, a peek leaves it (R180). -/
def State.popTaken (t : State) (k : Nat) (peek : Bool) : State := if peek then t else t.chanTake k

/-- An element on chip whose bytes are written to the destination. -/
theorem chanPopDo_written {key idx : Nat} {dst : W64} {v w : State} {bad : Option Nat}
    (hd : checkU (key / 16) (s.ctx key).part { useDest (s.ctx key).sup with own := .work (key % 16) (s.classOf key) } .plain dst
      (s.chan k).esize s = .ok () v)
    (hw : writeP (key / 16) (s.ctx key).part { useDest (s.ctx key).sup with own := .work (key % 16) (s.classOf key) } .plain dst
      (s.bytes ((s.chan k).slotPa k (((s.chan k).popseq + 1) % 2 ^ 64)) (s.chan k).esize) v = .ok bad w) :
    chanPopDo key idx k peek dst s = .ok () ((((w.bindCons k (s.ctx key).ident).popTaken k peek).popNoted key bad).popEnded
      key idx k (((s.chan k).popseq + 1) % 2 ^ 64)) := by
  simp only [chanPopDo, effect_bind, effect_getS, hd, hw, effect_modS, stat_zero]
  cases bad <;> rfl

end Pop

/-! ### CHPOP and CHPEEK (R412) -/

section Instructions

variable {s : State} {e : Env} (G : Goes s e)

include G

/-- What both instructions answer whose pops leave the machine as `t`. -/
theorem exec_pops {t : Bool → State} (h : e.key / 16 = e.tile → ∀ peek, chanPop peek e (s.begun e) = .ok () (t peek)) :
    (Fires.of s (.chpop e.h) e → exec (.chpop e.h) s = .next (endStep s (t false))) ∧
    (Fires.of s (.chpeek e.h) e → exec (.chpeek e.h) s = .next (endStep s (t true))) :=
  ⟨fun H => run_fireM_ok H G.hold (h H.tile_of_key false), fun H => run_fireM_ok H G.hold (h H.tile_of_key true)⟩

/-- What both instructions answer whose pops raise a fault. -/
theorem exec_pops_error {u : State} {f : Flt} (h : ∀ peek, chanPop peek e (s.begun e) = .error f u) :
    (Fires.of s (.chpop e.h) e → exec (.chpop e.h) s = s.faults e u f) ∧
    (Fires.of s (.chpeek e.h) e → exec (.chpeek e.h) s = s.faults e u f) :=
  ⟨fun H => run_fireM_error H G.hold (h false), fun H => run_fireM_error H G.hold (h true)⟩

end Instructions

/-- Settles O22, by what a pop comes to at its home, in the order in which the home looks at it. -/
theorem channelPops : Obligations.ChannelPops := by
  intro s u u1 u3 u4 e k bad c x u2 y c2 n dest note acq foreign G hloc
  refine ⟨fun hb => exec_pops_error G fun _ => chanPop_misaligned hloc hb,
    fun hl hb => exec_pops_error G fun _ => chanPop_lost hloc rfl hb hl,
    fun hl hb => ⟨fun hv => exec_pops G fun _ _ => chanPop_closed hloc rfl hb hl hv,
      fun hv hp hme => exec_pops_error G fun _ => chanPop_foreign hloc rfl hb hl hv hp hme,
      fun hv hme => ⟨fun hm => exec_pops G fun _ _ => chanPop_marker hloc rfl hb hl hv hme hm,
        fun hm hd => ⟨fun ho => exec_pops G fun _ _ => chanPop_wait hloc rfl hb hl hv hme hm hd ho,
          fun ho hd2 hw => ?taken⟩⟩⟩⟩
  case taken =>
    refine exec_pops G (t := fun peek =>
      (acq (note ((u4.bindCons k y.ident).popTaken k peek))).finish e.key e.idx (w64 (n % 2 ^ 56 * 256))) fun ht peek => ?_
    have ended (t : State) : (t.popNoted e.key bad).popEnded e.key e.idx k n =
        (acq (note t)).finish e.key e.idx (w64 (n % 2 ^ 56 * 256)) := by
      rw [State.popEnded, ht]
      cases bad <;> rfl
    rw [← ht] at hd2 hw
    exact (chanPop_takes hloc rfl hb hl hv hme hm hd ho).trans
      ((chanPopDo_written (s := u2) hd2 hw).trans (congrArg (EStateM.Result.ok ()) (ended _)))

end Sys2Proof.Machine

/-! ## Receives, and a token in service (O28) -/

namespace Sys2Proof.Machine

/-! ### A matched message (R214, R416) -/

/-- A message that has been written to its destination is gone, and its status is delivered: an acquire at the smallest scope
that contains the sender, but for a signal (R160). -/
def State.received (s : State) (key idx id cap : Nat) (m : Msg) : State :=
  let got := { s with msgs := s.msgs.del id }
  (if m.sig then got else got.cacheAcquire (key / 16) (got.msgScope m (key / 16))).finish key idx (recvStat m cap)

section Received

variable {s v : State} {key idx id tag cap : Nat} {src : Option (Nat × Nat)} {dst : W64} {m : Msg} {bad : Option Nat}

theorem recvDo_written (hm : s.msgs.get? id = some m)
    (hw : writeP (key / 16) (s.ctx key).part ((useDest (s.ctx key).sup).by
      ⟨key, (s.ctx key).ident, idx, (s.ctx key).part, (s.ctx key).sup, s.classOf key⟩) .plain dst (m.data.take cap) s = .ok bad v) :
    recvDo key idx id cap dst s = .ok () ((v.popNoted key bad).received key idx id cap m) := by
  simp only [recvDo, effect_bind, effect_getS, hm, hw, effect_modS]
  cases bad <;> rfl

/-- A receive that finds its message queued is matched with it, and posts nothing. -/
theorem postRecv_queued (hf : s.ovfFind (key / 16) tag src = some id) : s.postRecv key idx tag src cap dst =
    { s.ovfDrop (key / 16) id with waits := (s.ovfDrop (key / 16) id).waits ++ [⟨key, idx, .recvGot id cap dst⟩] } := by
  simp only [State.postRecv, hf]
  rfl

end Received

/-! ### RECV, RECVW and RECVW.T (R416) -/

section Checks

variable {s u : State} {e : Env} {tag cap : Nat} {src : Option (Nat × Nat)}

theorem recvCheck_ok (hm : matchSpec s e.b = some (tag, src, cap)) (ha : e.a.toNat % 8 = 0)
    (hd : checkU e.tile (s.ctx e.key).part (useDest (s.ctx e.key).sup) .plain e.a cap s = .ok () u) :
    recvCheck e s = .ok (tag, src, cap) u := by
  simp only [recvCheck, effect_bind, effect_getS, hm, effect_needAlign, if_pos ha, hd, effect_pure]

theorem recvCheck_badSpec (hm : matchSpec s e.b = none) : recvCheck e s = .error (fltWord .reservedField e) s := by
  simp only [recvCheck, effect_bind, effect_getS, hm, effect_raise]

end Checks

section Receive

variable {s u : State} {e : Env} {tag cap id : Nat} {src : Option (Nat × Nat)} {m : Msg} (G : Goes s e)

include G

theorem exec_recvs_badSpec (hm : matchSpec (s.begun e) e.b = none) :
    (Fires.of s (.recv e.h) e → exec (.recv e.h) s = s.traps e { code := .reservedField, extra := e.word }) ∧
    (Fires.of s (.recvw e.h) e → exec (.recvw e.h) s = s.traps e { code := .reservedField, extra := e.word }) := by
  have hcheck := recvCheck_badSpec hm
  exact ⟨fun H => run_fireM_error H G.hold (by simp only [effect_bind, hcheck]; rfl),
    fun H => run_fireM_error H G.hold (by simp only [effect_bind, hcheck]; rfl)⟩

theorem exec_recvwT_posts (H : Fires.of s (.recvwT e.h) e) (ha : e.a = 0) (hb : e.b.toNat < 2 ^ 32) :
    exec (.recvwT e.h) s = s.waitsFor e (s.begun e) (.recvTok e.b.toNat) := by
  have hfield : (e.a = 0 && e.b.toNat / 2 ^ 32 = 0) = true := by rw [Nat.div_eq_of_lt hb, ha]; rfl
  exact run_fireM_ok H G.hold (by simp only [effect_bind, effect_needField, hfield, if_true, effect_modS])

theorem exec_recvwT_reserved (H : Fires.of s (.recvwT e.h) e) (ha : e.a ≠ 0) :
    exec (.recvwT e.h) s = s.traps e { code := .reservedField, extra := e.word } := by
  have hfield : (e.a = 0 && e.b.toNat / 2 ^ 32 = 0) = false := by rw [decide_eq_false ha, Bool.false_and]
  exact run_fireM_error H G.hold (by simp only [effect_bind, effect_needField, hfield]; rfl)

variable (hcheck : recvCheck e (s.begun e) = .ok (tag, src, cap) u)

include hcheck

theorem exec_recv_none (H : Fires.of s (.recv e.h) e) (hf : u.ovfFind e.tile tag src = none) :
    exec (.recv e.h) s = s.closes e u 2 :=
  run_fireM_ok H G.hold (by simp only [effect_bind, hcheck, effect_getS, hf, effect_modS])

theorem exec_recvw_none (H : Fires.of s (.recvw e.h) e) (hf : u.ovfFind e.tile tag src = none) :
    exec (.recvw e.h) s = .next (endStep s (u.postRecv e.key e.idx tag src cap e.a)) :=
  run_fireM_ok H G.hold (by simp only [effect_bind, hcheck, effect_getS, hf, effect_modS])

variable (hf : u.ovfFind e.tile tag src = some id) (hm : u.msgs.get? id = some m)

include hf hm

/-- A queued message that has landed whole is taken at once, by either instruction. -/
theorem exec_recvs_whole (hl : m.landed = m.npkt) {t : State}
    (hd : e.key / 16 = e.tile → recvDo e.key e.idx id cap e.a (u.ovfDrop e.tile id) = .ok () t) :
    (Fires.of s (.recv e.h) e → exec (.recv e.h) s = .next (endStep s t)) ∧
    (Fires.of s (.recvw e.h) e → exec (.recvw e.h) s = .next (endStep s t)) := by
  have hwhole : ((u.msgs.get? id).map (fun m => decide (m.landed = m.npkt))).getD false = true := by simp [hm, hl]
  exact ⟨fun H => run_fireM_ok H G.hold (by
      simp only [effect_bind, hcheck, effect_getS, hf, hwhole, if_true, effect_modS, hd H.tile_of_key]),
    fun H => run_fireM_ok H G.hold (by
      simp only [effect_bind, hcheck, effect_getS, hf, hwhole, if_true, effect_modS, hd H.tile_of_key])⟩

/-- One that has not landed whole leaves the queue, and either instruction waits for the rest of it. -/
theorem exec_recvs_partial (hl : m.landed ≠ m.npkt) :
    (Fires.of s (.recv e.h) e → exec (.recv e.h) s = s.waitsFor e (u.ovfDrop e.tile id) (.recvGot id cap e.a)) ∧
    (Fires.of s (.recvw e.h) e → exec (.recvw e.h) s = s.waitsFor e (u.ovfDrop e.tile id) (.recvGot id cap e.a)) := by
  have hwhole : ((u.msgs.get? id).map (fun m => decide (m.landed = m.npkt))).getD false = false := by simp [hm, hl]
  refine ⟨fun H => run_fireM_ok H G.hold (by
      simp only [effect_bind, hcheck, effect_getS, hf, hwhole, Bool.false_eq_true, if_false, effect_modS]),
    fun H => run_fireM_ok H G.hold ?_⟩
  have hpost := postRecv_queued (idx := e.idx) (cap := cap) (dst := e.a) (H.tile_of_key.symm ▸ hf)
  rw [H.tile_of_key] at hpost
  simp only [effect_bind, hcheck, effect_getS, hf, hwhole, Bool.false_eq_true, if_false, effect_modS, hpost]

end Receive

/-! ### The token slot that an instruction names (R420) -/

section OwnSlot

variable {s : State} {e : Env} {x : TSlot}

theorem ownSlot_own (hx : s.serving e.tile (e.a.toNat % 8) = some x) (ho : x.service = some e.key) :
    ownSlot e s = .ok x s := by
  simp only [ownSlot, effect_bind, effect_getS, hx, if_pos ho, effect_pure]

theorem ownSlot_idle (hx : s.serving e.tile (e.a.toNat % 8) = none) :
    ownSlot e s = .error (fltWord .reservedField e) s := by
  simp only [ownSlot, effect_bind, effect_getS, hx, effect_raise]

theorem ownSlot_foreign (hx : s.serving e.tile (e.a.toNat % 8) = some x) (ho : x.service ≠ some e.key) :
    ownSlot e s = .error (fltWord .privilege e) s := by
  simp only [ownSlot, effect_bind, effect_getS, hx, if_neg ho, effect_raise]

end OwnSlot

/-! ### FWD and TOKINFO (R420, R421) -/

theorem bitsOf_low (v n : Nat) : bitsOf v 0 n = v % 2 ^ n := by rw [bitsOf, Nat.pow_zero, Nat.div_one]

/-- The message that carries the token of slot `k` on under the instruction's send spec. -/
def State.tokMsg (s : State) (e : Env) (k : Nat) (x : TSlot) : Msg :=
  msgOf e s 0 x.msg.tag x.msg.aux 0 (s.bytes (tokSlotPa e.tile k) (tokLen x.msg.rows x.msg.dhd)) false

/-- What TOKINFO answers of the token in slot `k` (R421). -/
def State.tokInfo (s : State) (t k : Nat) (x : TSlot) : Nat → Nat
  | 0 => s.slotHdr t k x 0 8
  | 1 => s.slotHdr t k x 8 8
  | 2 => s.slotHdr t k x 16 4
  | 3 => s.slotHdr t k x 24 8
  | 4 => tokOoff x.msg.rows + tokQoff x.msg.rows x.msg.dhd * 2 ^ 16 + tokLen x.msg.rows x.msg.dhd * 2 ^ 32
  | _ => x.msg.stile + x.msg.spkg * 2 ^ 10 + x.msg.dtile * 2 ^ 18 + x.msg.dpkg * 2 ^ 28

section Service

variable {s : State} {e : Env} (G : Goes s e)

include G

/-- A slot that is refused is so to every command of FWD. -/
theorem exec_fwds_refused {f : Flt} {t : State} (hslot : ownSlot e (s.begun e) = .error f t) :
    (Fires.of s (.fwdQ e.h) e → exec (.fwdQ e.h) s = s.faults e t f) ∧
    (Fires.of s (.fwdM e.h) e → exec (.fwdM e.h) s = s.faults e t f) ∧
    (Fires.of s (.fwdEnd e.h) e → exec (.fwdEnd e.h) s = s.faults e t f) :=
  ⟨fun H => run_fireM_error H G.hold (by simp only [effect_bind, hslot]),
    fun H => run_fireM_error H G.hold (by simp only [effect_bind, hslot]),
    fun H => run_fireM_error H G.hold (by simp only [effect_bind, hslot])⟩

variable {x : TSlot} (hslot : ownSlot e (s.begun e) = .ok x (s.begun e))

include hslot

/-- Onward to the token's own end tile. -/
theorem exec_fwdQ_onward (H : Fires.of s (.fwdQ e.h) e) (ha : e.a.toNat < 8) (hb : e.b = 0)
    (hend : ¬(x.msg.dpkg = (s.begun e).pkgno ∧ x.msg.dtile = e.tile)) :
    exec (.fwdQ e.h) s = .next (endStep s (((s.begun e).setTslot e.tile (e.a.toNat % 8) { x with leaving := true }).sendMsg e
      { (s.begun e).tokMsg e (e.a.toNat % 8) x with dpkg := x.msg.dpkg, dtile := x.msg.dtile, slot := some (e.a.toNat % 8) })) := by
  rw [Nat.mod_eq_of_lt ha]
  refine run_fireM_ok H G.hold ?_
  simp only [effect_bind, hslot, effect_getS, effect_needField, effect_modS, if_pos hb]
  rw [if_pos (by simpa [ha, imp_iff_not_or] using hend)]
  rfl

/-- Onward to a new end tile. -/
theorem exec_fwdQ_redirected (H : Fires.of s (.fwdQ e.h) e) (ha : e.a.toNat < 8) (hb : e.b ≠ 0)
    (hspec : sendSpecOk (s.begun e) e.b = true) (hlen : specLen e.b = 0) (htag : e.b.toNat % 2 ^ 32 = 0) :
    exec (.fwdQ e.h) s = .next (endStep s (((s.begun e).setTslot e.tile (e.a.toNat % 8) { x with leaving := true }).sendMsg e
      { (s.begun e).tokMsg e (e.a.toNat % 8) x with slot := some (e.a.toNat % 8) })) := by
  have hlow : bitsOf e.b.toNat 0 32 = 0 := (bitsOf_low _ _).trans htag
  rw [Nat.mod_eq_of_lt ha]
  refine run_fireM_ok H G.hold ?_
  simp only [effect_bind, hslot, effect_getS, effect_needField, effect_modS, if_neg hb]
  rw [if_pos (by simp [ha, hspec, hlen, hlow])]
  rfl

theorem exec_fwdM (H : Fires.of s (.fwdM e.h) e) (hzero : bitsOf e.a.toNat 3 13 = 0) (ha : e.a.toNat < 2 ^ 32)
    (hspec : sendSpecOk (s.begun e) e.b = true) (hmin : 1 ≤ specLen e.b) (hmax : specLen e.b ≤ 4096)
    (hfit : bitsOf e.a.toNat 16 16 + specLen e.b ≤ tokLen x.msg.rows x.msg.dhd) :
    exec (.fwdM e.h) s = .next (endStep s ((s.begun e).sendMsg e (msgOf e (s.begun e) 1 (e.b.toNat % 2 ^ 32) 0 0
      ((s.begun e).bytes (tokSlotPa e.tile (e.a.toNat % 8) + bitsOf e.a.toNat 16 16) (specLen e.b)) false))) := by
  have hhigh : bitsOf e.a.toNat 32 32 = 0 := by rw [bitsOf, Nat.div_eq_of_lt ha, Nat.zero_mod]
  refine run_fireM_ok H G.hold ?_
  simp only [effect_bind, hslot, effect_getS, effect_needField, effect_modS]
  rw [if_pos (by simp [hzero, hhigh, hspec, hmin, hmax, hfit]), bitsOf_low]

theorem exec_fwdEnd (H : Fires.of s (.fwdEnd e.h) e) (ha : e.a.toNat < 8) (hb : e.b = 0) :
    exec (.fwdEnd e.h) s = s.closes e ((s.begun e).dropTslot e.tile (e.a.toNat % 8)) 0 := by
  have hfield : (decide (e.a.toNat < 8) && decide (e.b = 0)) = true := by simp [ha, hb]
  rw [Nat.mod_eq_of_lt ha]
  exact run_fireM_ok H G.hold (by simp only [effect_bind, hslot, effect_needField, hfield, if_true, effect_modS])

theorem exec_tokinfo {item : BitVec 3} (H : Fires.of s (.tokinfo e.h item) e) (ha : e.a.toNat < 8) :
    exec (.tokinfo e.h item) s = s.closes e (s.begun e) (w64 ((s.begun e).tokInfo e.tile (e.a.toNat % 8) x item.toNat)) := by
  have hfield : decide (e.a.toNat < 8) = true := decide_eq_true ha
  rw [Nat.mod_eq_of_lt ha]
  refine run_fireM_ok H G.hold ?_
  simp only [effect_bind, effect_needField, hfield, if_true, hslot, effect_modS]
  rfl

end Service

/-- Settles O28: a receive by what its queue holds, and a command on a token slot by who serves the token there. -/
theorem messageReceives : Obligations.MessageReceives := by
  constructor
  · intro s u u2 e tag cap id src m bad t c d note got use G
    refine ⟨fun hm ha hd hctx => ?_, exec_recvs_badSpec G, exec_recvwT_posts G, exec_recvwT_reserved G⟩
    have hcheck : recvCheck e t = .ok (tag, src, cap) u := recvCheck_ok hm ha (by rwa [begun_ctx])
    refine ⟨fun hf => ⟨fun H => exec_recv_none G hcheck H hf, fun H => exec_recvw_none G hcheck H hf⟩,
      fun hf hmsg => ⟨fun hl hw => exec_recvs_whole G hcheck hf hmsg hl fun ht => ?whole, exec_recvs_partial G hcheck hf hmsg⟩⟩
    case whole =>
      have hdctx : d.ctx e.key = c := hctx
      have hnote : u2.popNoted e.key bad = note := by cases bad <;> rfl
      have hwritten := recvDo_written (s := d) (key := e.key) (idx := e.idx) (cap := cap) (dst := e.a) hmsg
        (by rw [hdctx, ht]; exact hw)
      rw [hnote, State.received, ht] at hwritten
      exact hwritten
  · intro s e x item t k off len tot msg q G
    refine ⟨fun hx ho => ?own, fun hx => ?idle, fun hx ho => ?foreign⟩
    case own =>
      have hslot := ownSlot_own hx ho
      exact ⟨fun H ha => ⟨exec_fwdQ_onward G hslot H ha, exec_fwdQ_redirected G hslot H ha⟩, exec_fwdM G hslot,
        exec_fwdEnd G hslot, exec_tokinfo G hslot⟩
    case idle =>
      obtain ⟨hfwdQ, -, hfwdEnd⟩ := exec_fwds_refused G (ownSlot_idle hx)
      exact ⟨hfwdQ, hfwdEnd⟩
    case foreign =>
      obtain ⟨-, hfwdM, hfwdEnd⟩ := exec_fwds_refused G (ownSlot_foreign hx ho)
      exact ⟨hfwdM, hfwdEnd⟩

end Sys2Proof.Machine

/-! ## What a table command answers -/

namespace Sys2Proof.Machine

section TableCommand

variable {s t : State} {n : Needs} {e : Env} {body : Env → M KvR} (H : Fires s n e) (G : Goes s e)

include H G

theorem run_kvInstr_stat {w : W64} (h : body e (s.begun e) = .ok (.stat w) t) :
    run (kvInstr e.h n body) s = s.closes e t w := by rw [run_kvInstr H G, h]

theorem run_kvInstr_moving (h : body e (s.begun e) = .ok .moving t) :
    run (kvInstr e.h n body) s = .next (endStep s t) := by rw [run_kvInstr H G, h]

theorem run_kvInstr_wait (h : body e (s.begun e) = .ok .wait t) :
    run (kvInstr e.h n body) s = .next (endStep s (s.atUnit e)) := by rw [run_kvInstr H G, h]

theorem run_kvInstr_error {f : Flt} (h : body e (s.begun e) = .error f t) :
    run (kvInstr e.h n body) s = s.traps e f := by rw [run_kvInstr H G, h]

end TableCommand

@[simp] theorem effect_answer (w : W64) (s : State) : answer w s = .ok (.stat w) s := rfl

@[simp] theorem effect_unitAt (e : Env) (l : List (Nat × Nat × Nat × Bool)) (s : State) :
    unitAt e l s = .ok () (s.unitAccs (s.ownOf e) l) := rfl

@[simp] theorem effect_keyDesc (x : PKey) (s : State) : keyDesc x s = .ok (s.mapped x.q x.p x.k) s := rfl

end Sys2Proof.Machine

/-! ## The places of a page (O32) -/

namespace Sys2Proof.Machine

/-! ### Fields of a descriptor -/

theorem rd_wr (s : State) (pa n v : Nat) : (s.wr pa n v).rd pa n = v % 256 ^ n := by
  have hbytes : (s.wr pa n v).bytes pa n = leBytes n v := by
    refine List.ext_getElem (by simp [State.bytes]) fun i hi hi' => ?_
    have hin : i < n := by simpa using hi'
    simp [State.bytes, State.wr, byte_wrBytes, hin]
  rw [State.rd, hbytes, leNat_leBytes]

/-- Fields of a descriptor's first word below the one replaced stay (R224). -/
theorem dsc_setDsc_below (s : State) (d n v : Nat) {lo lo' n' : Nat} (h : lo' + n' ≤ lo) (hw : lo' + n' ≤ 64) :
    (s.setDsc d lo n v).dsc d lo' n' = s.dsc d lo' n' := by
  have hword : (256 : Nat) ^ 8 = 2 ^ 64 := by decide
  rw [State.dsc, State.setDsc, rd_wr, hword, bitsOf_mod_pow hw, bitsOf_setBits_below h]
  rfl

/-- The owner of a page does not change with its PIN (R224). -/
theorem dOwner_setPin (s : State) (d v : Nat) : (s.setDsc d 58 1 v).dOwner d = s.dOwner d :=
  dsc_setDsc_below s d 1 v (by decide) (by decide)

/-! ### Parts of the commands on places -/

theorem needPlace_ok {s : State} {pa : Nat} (h : s.paKind pa ≠ .hole) : needPlace pa s = .ok () s := by
  simp only [needPlace, effect_bind, effect_getS, if_neg h, effect_pure]

/-- A page in motion: EVICTING, with the move that PAGE_MOVE_COMPLETE ends (R225). -/
def State.moveStarted (s : State) (e : Env) (d target : Nat) (src dst caddr : Option Nat) (image : List Byte) : State :=
  let w : State := { s.setDsc d 61 3 stEvict with
    moves := s.moves ++ [⟨d, target, src, dst, caddr, { s.who e with idx := e.idx }, image⟩] }
  w.unitAccs (w.ownOf e) [(w.dOwner d, d, 32, true)]

theorem effect_startMove (s : State) (e : Env) (d target : Nat) (src dst caddr : Option Nat) (image : List Byte) :
    startMove e d target src dst caddr image s = .ok .moving (s.moveStarted e d target src dst caddr image) := rfl

/-- A page whose PIN a command has set or cleared. -/
def State.pinned (s : State) (e : Env) (d v : Nat) : State :=
  let w := s.setDsc d 58 1 v
  w.unitAccs (w.ownOf e) [(w.dOwner d, d, 32, true)]

/-- The checks of KVEVICT that come first (R439), then what its form does. -/
def evicts (g : Env → Nat → State → M KvR) (e : Env) (d : Nat) (s : State) : M KvR :=
  if s.dPin d then answer kPINNED
  else if s.dTent d then answer kTENT
  else g e d s

/-- An instruction that is a command on the page of the key in slot a: what it does to a page that is not in motion. -/
def CommandOnPage (i : Instr) (h : Head) (f : Env → Nat → State → M KvR) : Prop :=
  readsOf i = nA ∧ ∀ s, exec i s = run (kvInstr h nA fun e => onPage e (f e)) s

theorem commandOnPage_of_evict {i : Instr} {h : Head} (hi : i ∈ [.kvevictHbm h, .kvevictCold h, .kvevictDrop h]) :
    ∃ g, CommandOnPage i h (evicts g) := by
  simp only [List.mem_cons, List.not_mem_nil, or_false] at hi
  obtain rfl | rfl | rfl := hi
  · exact ⟨_, rfl, fun _ => rfl⟩
  · exact ⟨_, rfl, fun _ => rfl⟩
  · exact ⟨_, rfl, fun _ => rfl⟩

theorem commandOnPage_of_mem {i : Instr} {h : Head}
    (hi : i ∈ [.kvevictHbm h, .kvevictCold h, .kvevictDrop h] ++ [.kvpin h, .kvpinClr h]) :
    ∃ f, CommandOnPage i h f := by
  rcases List.mem_append.mp hi with hi | hi
  · obtain ⟨g, hg⟩ := commandOnPage_of_evict hi
    exact ⟨_, hg⟩
  · simp only [List.mem_cons, List.not_mem_nil, or_false] at hi
    obtain rfl | rfl := hi
    · exact ⟨_, rfl, fun _ => rfl⟩
    · exact ⟨_, rfl, fun _ => rfl⟩

section OnPage

variable {s u : State} {e : Env} {x : PKey} {d : Nat} (hkey : pageKey e e.a s = .ok x u)

include hkey

theorem onPage_unmapped (hmap : u.mapped x.q x.p x.k = none) (f : Nat → State → M KvR) :
    onPage e f s = .ok (.stat kSTATE) u := by
  simp only [onPage, effect_bind, hkey, effect_getS, effect_keyDesc, hmap, effect_answer]

theorem onPage_moving (hmap : u.mapped x.q x.p x.k = some d) (hstate : u.dState d = stEvict) (f : Nat → State → M KvR) :
    onPage e f s = .ok .wait u := by
  simp only [onPage, effect_bind, hkey, effect_getS, effect_keyDesc, hmap, if_pos hstate, effect_pure]

theorem onPage_settled (hmap : u.mapped x.q x.p x.k = some d) (hstate : u.dState d ≠ stEvict) (f : Nat → State → M KvR) :
    onPage e f s = f d u u := by
  simp only [onPage, effect_bind, hkey, effect_getS, effect_keyDesc, hmap, if_neg hstate]

end OnPage

section Command

variable {s u t : State} {e : Env} {x : PKey} {d : Nat} {n : Needs} {f : Env → Nat → State → M KvR}
  (H : Fires s n e) (G : Goes s e) (hkey : pageKey e e.a (s.begun e) = .ok x u)

include H G hkey

/-- A key without a page (R439). -/
theorem run_onPage_unmapped (hmap : u.mapped x.q x.p x.k = none) :
    run (kvInstr e.h n fun e => onPage e (f e)) s = s.closes e u kSTATE :=
  run_kvInstr_stat H G (onPage_unmapped hkey hmap _)

/-- A page in motion makes the command wait at its unit (R225, R432). -/
theorem run_onPage_moving (hmap : u.mapped x.q x.p x.k = some d) (hstate : u.dState d = stEvict) :
    run (kvInstr e.h n fun e => onPage e (f e)) s = .next (endStep s (s.atUnit e)) :=
  run_kvInstr_wait H G (onPage_moving hkey hmap hstate _)

variable (hmap : u.mapped x.q x.p x.k = some d) (hstate : u.dState d ≠ stEvict)

include hmap hstate

theorem run_onPage_stat {w : W64} (h : f e d u u = .ok (.stat w) t) :
    run (kvInstr e.h n fun e => onPage e (f e)) s = s.closes e t w :=
  run_kvInstr_stat H G ((onPage_settled hkey hmap hstate _).trans h)

theorem run_onPage_starts (h : f e d u u = .ok .moving t) :
    run (kvInstr e.h n fun e => onPage e (f e)) s = .next (endStep s t) :=
  run_kvInstr_moving H G ((onPage_settled hkey hmap hstate _).trans h)

end Command

/-! ### KVEVICT, KVPIN and KVREFILL (R439) -/

section Evict

variable {s u v : State} {e : Env} {x : PKey} {d a : Nat} (G : Goes s e) (hkey : pageKey e e.a (s.begun e) = .ok x u)
  (hmap : u.mapped x.q x.p x.k = some d) (hstate : u.dState d ≠ stEvict)

include G hkey hmap hstate

theorem exec_evict_pinned {i : Instr} (hi : i ∈ [.kvevictHbm e.h, .kvevictCold e.h, .kvevictDrop e.h])
    (H : Fires.of s i e) (hpin : u.dPin d = true) : exec i s = s.closes e u 3 := by
  obtain ⟨g, hreads, hexec⟩ := commandOnPage_of_evict hi
  rw [Fires.of, hreads] at H
  rw [hexec]
  exact run_onPage_stat H G hkey hmap hstate (by rw [evicts, if_pos hpin]; rfl)

variable (hpin : u.dPin d = false)

include hpin

theorem exec_evict_tentative {i : Instr} (hi : i ∈ [.kvevictHbm e.h, .kvevictCold e.h, .kvevictDrop e.h])
    (H : Fires.of s i e) (htent : u.dTent d = true) : exec i s = s.closes e u 2 := by
  obtain ⟨g, hreads, hexec⟩ := commandOnPage_of_evict hi
  rw [Fires.of, hreads] at H
  rw [hexec]
  exact run_onPage_stat H G hkey hmap hstate (by rw [evicts, hpin, if_neg Bool.false_ne_true, if_pos htent]; rfl)

variable (htent : u.dTent d = false)

include htent

theorem exec_kvevictHbm_resident (H : Fires.of s (.kvevictHbm e.h) e) (hres : u.dState d = stRes)
    (hplace : u.paKind (u.dHaddr d) ≠ .hole) : exec (.kvevictHbm e.h) s =
      .next (endStep s (u.moveStarted e d stWarm (some (u.dSlotPa d)) (some (u.dHaddr d)) none [])) := by
  refine run_onPage_starts H G hkey hmap hstate ?_
  simp only [hpin, htent, hres, Bool.false_eq_true, if_false, ne_eq, not_true_eq_false, effect_bind, needPlace_ok hplace,
    effect_startMove]

theorem exec_kvevictHbm_other (H : Fires.of s (.kvevictHbm e.h) e) (hres : u.dState d ≠ stRes) :
    exec (.kvevictHbm e.h) s = s.closes e u 6 := by
  refine run_onPage_stat H G hkey hmap hstate ?_
  simp only [hpin, htent, Bool.false_eq_true, if_false, if_pos hres, effect_answer]
  rfl

/-- KVEVICT.COLD takes the page from where it is to a place of the slow tier. -/
theorem exec_kvevictCold {src : Nat} (H : Fires.of s (.kvevictCold e.h) e) (hheld : u.dState d = stRes ∨ u.dState d = stWarm)
    (hsrc : (if u.dState d = stRes then u.dSlotPa d else u.dHaddr d) = src)
    (htake : u.stackTake (u.cfgWord 4) = some (a, v)) (hfrom : u.paKind src ≠ .hole) (hto : u.paKind a ≠ .hole) :
    exec (.kvevictCold e.h) s = .next (endStep s (v.moveStarted e d stCold (some src) (some a) none [])) := by
  have hother : (decide (u.dState d ≠ stRes) && decide (u.dState d ≠ stWarm)) = false := by
    rcases hheld with h | h <;> simp [h]
  refine run_onPage_starts H G hkey hmap hstate ?_
  simp only [hpin, htent, hother, Bool.false_eq_true, if_false, htake, hsrc, effect_bind, needPlace_ok hfrom, needPlace_ok hto,
    effect_modS, effect_startMove]

/-- The slow tier has no place left (R232). -/
theorem exec_kvevictCold_empty (H : Fires.of s (.kvevictCold e.h) e) (hheld : u.dState d = stRes ∨ u.dState d = stWarm)
    (htake : u.stackTake (u.cfgWord 4) = none) : exec (.kvevictCold e.h) s = s.closes e u 5 := by
  have hother : (decide (u.dState d ≠ stRes) && decide (u.dState d ≠ stWarm)) = false := by
    rcases hheld with h | h <;> simp [h]
  refine run_onPage_stat H G hkey hmap hstate ?_
  simp only [hpin, htent, hother, Bool.false_eq_true, if_false, htake, effect_answer]
  rfl

theorem exec_kvevictDrop (H : Fires.of s (.kvevictDrop e.h) e)
    (hheld : u.dState d = stRes ∨ u.dState d = stWarm ∨ u.dState d = stCold) : exec (.kvevictDrop e.h) s =
      .next (endStep s (u.moveStarted e d stAbsent (u.pagePlace d) none
        (if u.dState d = stCold then some (u.dCaddr d) else none) [])) := by
  have hother : (decide (u.dState d ≠ stRes) && decide (u.dState d ≠ stWarm) && decide (u.dState d ≠ stCold)) = false := by
    rcases hheld with h | h | h <;> simp [h]
  refine run_onPage_starts H G hkey hmap hstate ?_
  simp only [hpin, htent, hother, Bool.false_eq_true, if_false, effect_startMove]

end Evict

section Pin

variable {s u : State} {e : Env} {x : PKey} {d : Nat} (G : Goes s e) (hkey : pageKey e e.a (s.begun e) = .ok x u)
  (hmap : u.mapped x.q x.p x.k = some d)

include G hkey hmap

theorem run_pinPage_free {n : Needs} {v : Nat} (H : Fires s n e) (hfree : u.dState d = stFree) :
    run (kvInstr e.h n (pinPage v)) s = s.closes e u 6 := by
  have hstate : u.dState d ≠ stEvict := by rw [hfree]; decide
  exact run_onPage_stat H G hkey hmap hstate (by rw [if_pos hfree]; rfl)

theorem run_pinPage_held {n : Needs} {v : Nat} (H : Fires s n e) (hstate : u.dState d ≠ stEvict)
    (hheld : u.dState d ≠ stFree) : run (kvInstr e.h n (pinPage v)) s = s.closes e (u.pinned e d v) 0 := by
  refine run_onPage_stat H G hkey hmap hstate ?_
  simp only [if_neg hheld, effect_bind, effect_modS, effect_unitAt, effect_answer, State.pinned, dOwner_setPin]
  rfl

end Pin

/-- Where KVREFILL brings a page, and the state that it has there (R439). -/
def State.refillPlace (s : State) (d : Nat) : Nat := if s.dSlotv d then s.dSlotPa d else s.dHaddr d
def State.refillState (s : State) (d : Nat) : Nat := if s.dSlotv d then stRes else stWarm

section Refill

variable {s u v : State} {e : Env} {x : PKey} {d : Nat} {img : List Byte} (G : Goes s e)
  (hkey : pageKey e e.a (s.begun e) = .ok x u) (hmap : u.mapped x.q x.p x.k = some d) (H : Fires.of s (.kvrefill e.h) e)

include G hkey hmap H

theorem exec_kvrefill_absent (hstate : u.dState d = stAbsent) (hb : e.b ≠ 0) (himg : inBytes e e.b 16384 64 u = .ok img v)
    (hdst : v.paKind (u.refillPlace d) ≠ .hole) : exec (.kvrefill e.h) s =
      .next (endStep s (v.moveStarted e d (u.refillState d) none (some (u.refillPlace d)) none img)) := by
  have hsettled : u.dState d ≠ stEvict := by rw [hstate]; decide
  refine run_onPage_starts H G hkey hmap hsettled ?_
  rw [State.refillPlace] at hdst
  rw [if_pos (by simpa [hstate] using hb)]
  simp only [effect_bind, himg, needPlace_ok hdst]
  rfl

theorem exec_kvrefill_cold (hstate : u.dState d = stCold) (hb : e.b = 0) (hsrc : u.paKind (u.dCaddr d) ≠ .hole)
    (hdst : u.paKind (u.refillPlace d) ≠ .hole) : exec (.kvrefill e.h) s =
      .next (endStep s (u.moveStarted e d (u.refillState d) (some (u.dCaddr d)) (some (u.refillPlace d))
        (some (u.dCaddr d)) [])) := by
  have hsettled : u.dState d ≠ stEvict := by rw [hstate]; decide
  refine run_onPage_starts H G hkey hmap hsettled ?_
  rw [State.refillPlace] at hdst
  rw [if_neg (by simp [hb]), if_pos (by simp [hstate, hb])]
  simp only [effect_bind, needPlace_ok hsrc, needPlace_ok hdst]
  rfl

theorem exec_kvrefill_warm (hstate : u.dState d = stWarm) (hslot : u.dSlotv d = true) (hb : e.b = 0)
    (hsrc : u.paKind (u.dHaddr d) ≠ .hole) : exec (.kvrefill e.h) s =
      .next (endStep s (u.moveStarted e d (u.refillState d) (some (u.dHaddr d)) (some (u.refillPlace d)) none [])) := by
  have hsettled : u.dState d ≠ stEvict := by rw [hstate]; decide
  have hcold : stWarm ≠ stCold := by decide
  refine run_onPage_starts H G hkey hmap hsettled ?_
  rw [if_neg (by simp [hb]), if_neg (by simp [hstate, hcold]), if_pos (by simp [hstate, hslot, hb])]
  simp only [effect_bind, needPlace_ok hsrc]
  rfl

/-- A warm page without a slot stays where it is. -/
theorem exec_kvrefill_slotless (hstate : u.dState d = stWarm) (hslot : u.dSlotv d = false) :
    exec (.kvrefill e.h) s = s.closes e u 6 := by
  have hsettled : u.dState d ≠ stEvict := by rw [hstate]; decide
  have habsent : stWarm ≠ stAbsent := by decide
  have hcold : stWarm ≠ stCold := by decide
  refine run_onPage_stat H G hkey hmap hsettled ?_
  rw [if_neg (by simp [hstate, habsent]), if_neg (by simp [hstate, hcold]), if_neg (by simp [hslot])]
  rfl

end Refill

/-- Settles O32: a command on a page by whether the page is there and in motion, then by its own checks. -/
theorem kvPlaces : Obligations.KvPlaces := by
  constructor
  · intro s u v e x d a t at_ waits unit moves l G hkey
    refine ⟨fun hmap i hi H => ?unmapped, fun hmap hstate i hi H => ?moving, fun hmap hstate => ?settled⟩
    case unmapped =>
      obtain ⟨f, hreads, hexec⟩ := commandOnPage_of_mem hi
      rw [Fires.of, hreads] at H
      rw [hexec]
      exact run_onPage_unmapped H G hkey hmap
    case moving =>
      obtain ⟨f, hreads, hexec⟩ := commandOnPage_of_mem hi
      rw [Fires.of, hreads] at H
      rw [hexec]
      exact run_onPage_moving H G hkey hmap hstate
    case settled =>
      refine ⟨fun hpin i hi H => exec_evict_pinned G hkey hmap hstate hi H hpin,
        fun hpin htent i hi H => exec_evict_tentative G hkey hmap hstate hpin hi H htent,
        fun hpin htent H => ⟨?_, ?_⟩, fun hpin htent H => ⟨?_, ?_, ?_⟩, fun hpin htent H => ⟨fun hheld => ?_, fun hcold => ?_⟩,
        fun hfree => ⟨fun H => ?_, fun H => ?_⟩, fun hheld => ⟨fun H => ?_, fun H => ?_⟩⟩
      · exact exec_kvevictHbm_resident G hkey hmap hstate hpin htent H
      · exact exec_kvevictHbm_other G hkey hmap hstate hpin htent H
      · exact fun hres => exec_kvevictCold G hkey hmap hstate hpin htent H (.inl hres) (if_pos hres)
      · have hne : stWarm ≠ stRes := by decide
        exact fun hwarm => exec_kvevictCold G hkey hmap hstate hpin htent H (.inr hwarm) (if_neg (hwarm.symm ▸ hne))
      · exact exec_kvevictCold_empty G hkey hmap hstate hpin htent H
      · have hcold : u.dState d ≠ stCold := by rcases hheld with h | h <;> rw [h] <;> decide
        rw [exec_kvevictDrop G hkey hmap hstate hpin htent H (by tauto), if_neg hcold]
        rfl
      · rw [exec_kvevictDrop G hkey hmap hstate hpin htent H (.inr (.inr hcold)), if_pos hcold]
        rfl
      · exact run_pinPage_free G hkey hmap H hfree
      · exact run_pinPage_free G hkey hmap H hfree
      · exact run_pinPage_held G hkey hmap H hstate hheld
      · exact run_pinPage_held G hkey hmap H hstate hheld
  · intro s u v e x d img t dst target unit moves G H hkey hmap _
    exact ⟨exec_kvrefill_absent G hkey hmap H, exec_kvrefill_cold G hkey hmap H, exec_kvrefill_warm G hkey hmap H,
      exec_kvrefill_slotless G hkey hmap H⟩

end Sys2Proof.Machine

/-! ## PHASH and SUMUPD (O33) -/

namespace Sys2Proof.Machine

/-! ### PHASH (R228, R440) -/

section Phash

variable {s u v w : State} {e : Env} {b : List Byte} {sq page : Nat} (G : Goes s e)
  (hin : inBytes e e.a 288 8 (s.begun e) = .ok b u) (halign : e.b.toNat % 8 = 0)

include G hin halign

theorem exec_phashH (H : Fires.of s (.phashH e.h) e) (hzero : nAt b 0x11 15 = 0)
    (hout : outBytes e e.b (leBytes 16 (chainHash (b.take 16) (b.drop 0x20)) ++ List.replicate 8 0 ++ List.replicate 8 0) u =
      .ok () v) : exec (.phashH e.h) s = s.closes e v 0 := by
  refine run_kvInstr_stat H G ?_
  simp only [phash, effect_bind, hin, effect_needAlign, if_pos halign, effect_needField, decide_eq_true hzero, if_true,
    effect_getS, Bool.false_eq_true, if_false, effect_modS, hout, Bool.false_and, effect_answer]
  rfl

theorem exec_phashH_reserved (H : Fires.of s (.phashH e.h) e) (hzero : nAt b 0x11 15 ≠ 0) :
    exec (.phashH e.h) s = s.traps e { code := .reservedField, extra := e.word } := by
  refine run_kvInstr_error (t := u) (f := fltWord .reservedField e) H G ?_
  simp only [phash, effect_bind, hin, effect_needAlign, if_pos halign, effect_needField, decide_eq_false hzero,
    Bool.false_eq_true, if_false]

theorem exec_phashL_hit (H : Fires.of s (.phashL e.h) e) (hzero : nAt b 0x11 15 = 0)
    (hprobe : u.probe (chainHash (b.take 16) (b.drop 0x20)) (nAt b 16 1) (b.drop 0x20) = (some (sq, page), w))
    (hout : outBytes e e.b (leBytes 16 (chainHash (b.take 16) (b.drop 0x20)) ++ (leBytes 4 sq ++ leBytes 4 page) ++
      List.replicate 8 0) w = .ok () v) : exec (.phashL e.h) s = s.closes e v 0 := by
  refine run_kvInstr_stat H G ?_
  simp only [phash, effect_bind, hin, effect_needAlign, if_pos halign, effect_needField, decide_eq_true hzero, if_true,
    effect_getS, hprobe, effect_modS, hout, Option.isNone_some, Bool.and_false, Bool.false_eq_true, if_false, effect_answer]
  rfl

theorem exec_phashL_miss (H : Fires.of s (.phashL e.h) e) (hzero : nAt b 0x11 15 = 0)
    (hprobe : u.probe (chainHash (b.take 16) (b.drop 0x20)) (nAt b 16 1) (b.drop 0x20) = (none, w))
    (hout : outBytes e e.b (leBytes 16 (chainHash (b.take 16) (b.drop 0x20)) ++ List.replicate 8 0 ++ List.replicate 8 0) w =
      .ok () v) : exec (.phashL e.h) s = s.closes e v 8 := by
  refine run_kvInstr_stat H G ?_
  simp only [phash, effect_bind, hin, effect_needAlign, if_pos halign, effect_needField, decide_eq_true hzero, if_true,
    effect_getS, hprobe, effect_modS, hout, Option.isNone_none, Bool.and_true, effect_answer]
  rfl

end Phash

/-! ### SUMUPD (R231, R441) -/

/-- The fields of SUMUPD's operand b: first row, rows, format tag. -/
structure SumOperand (b j0 n tag : Nat) : Prop where
  low : b / 2 ^ 6 % 4 = 0
  mid : b / 2 ^ 14 % 4 = 0
  high : b < 2 ^ 20
  row : bitsOf b 0 6 = j0
  count : bitsOf b 8 6 + 1 = n
  format : bitsOf b 16 4 = tag
  tag_ge : 2 ≤ tag
  tag_le : tag ≤ 5

theorem SumOperand.fields {b j0 n tag : Nat} (h : SumOperand b j0 n tag) :
    (bitsOf b 6 2 = 0 && bitsOf b 14 2 = 0 && b / 2 ^ 20 = 0 && 2 ≤ tag && tag ≤ 5) = true := by
  have hlow : bitsOf b 6 2 = 0 := h.low
  have hmid : bitsOf b 14 2 = 0 := h.mid
  simp only [hlow, hmid, Nat.div_eq_of_lt h.high, h.tag_ge, h.tag_le, decide_true, Bool.and_self]

/-- The keys of rows `j0` to `j0 + n - 1` of a page in dimension `c`. -/
def State.rowKeys (s : State) (f : Fmt) (size place j0 n c : Nat) : List FV :=
  (List.range n).map fun j => f.dec (s.rd (rowPa place (j0 + j) false + size * c) size)

/-- The bounds of dimension `c` of a summary at `sum`, widened with those keys. -/
def State.widened (s : State) (f : Fmt) (size place j0 n sum dim c : Nat) : State :=
  (s.wr (sum + 2 * c) 2 ((s.rowKeys f size place j0 n c).foldl (widen false) (s.rd (sum + 2 * c) 2))).wr
    (sum + 2 * dim + 2 * c) 2 ((s.rowKeys f size place j0 n c).foldl (widen true) (s.rd (sum + 2 * dim + 2 * c) 2))

section Sumupd

variable {s u : State} {e : Env} {x : PKey} {d place j0 n tag : Nat} {f : Fmt} (G : Goes s e)
  (H : Fires.of s (.sumupd e.h) e) (hkey : pageKey e e.a (s.begun e) = .ok x u) (hb : SumOperand e.b.toNat j0 n tag)

include G H hkey hb

theorem exec_sumupd_unmapped (hmap : u.mapped x.q x.p x.k = none) : exec (.sumupd e.h) s = s.closes e u 6 := by
  refine run_kvInstr_stat H G ?_
  simp only [effect_bind, hkey, effect_needField, hb.format, hb.fields, if_true, effect_getS, effect_keyDesc, hmap, effect_answer]
  rfl

variable (hmap : u.mapped x.q x.p x.k = some d)

include hmap

theorem exec_sumupd_moving (hstate : u.dState d = stEvict) : exec (.sumupd e.h) s = .next (endStep s (s.atUnit e)) := by
  refine run_kvInstr_wait (t := u) H G ?_
  simp only [effect_bind, hkey, effect_needField, hb.format, hb.fields, if_true, effect_getS, effect_keyDesc, hmap, if_pos hstate,
    effect_pure]

variable (hstate : u.dState d ≠ stEvict)

include hstate

theorem exec_sumupd_placeless (hplace : u.pagePlace d = none) : exec (.sumupd e.h) s = s.closes e u 6 := by
  refine run_kvInstr_stat H G ?_
  simp only [effect_bind, hkey, effect_needField, hb.format, hb.fields, if_true, effect_getS, effect_keyDesc, hmap, if_neg hstate,
    hplace, effect_answer]
  rfl

variable (hplace : u.pagePlace d = some place) (hfmt : tagFmt tag = some f)

include hplace hfmt

/-- A page of the slow tier, one without those rows, and one without a summary (R441). -/
theorem exec_sumupd_without (hnot : u.dState d = stCold ∨ u.dFill d < j0 + n ∨ u.dSum d = 0) :
    exec (.sumupd e.h) s = s.closes e u 6 := by
  have hcond : (u.dState d = stCold || j0 + n > u.dFill d || u.dSum d = 0) = true := by
    rcases hnot with h | h | h <;> simp [h]
  refine run_kvInstr_stat H G ?_
  simp only [effect_bind, hkey, effect_needField, hb.format, hb.fields, if_true, effect_getS, effect_keyDesc, hmap, if_neg hstate,
    hplace, hb.row, hb.count, hfmt, hcond, effect_answer]
  rfl

theorem exec_sumupd_widens (hwarm : u.dState d ≠ stCold) (hfill : j0 + n ≤ u.dFill d) (hsum : u.dSum d ≠ 0)
    (hclean : u.poisonAt (rowPa place j0 false) (128 * n) = none) : exec (.sumupd e.h) s =
      s.closes e ((List.range (32 * x.q.dhd)).foldl
        (fun t c => t.widened f (tagBytes tag) place j0 n (u.dSum d) (32 * x.q.dhd) c)
        (u.unitAccs (u.ownOf e) [(e.tile, rowPa place j0 false, 128 * n, false), (e.tile, u.dSum d, 4 * (32 * x.q.dhd), false),
          (e.tile, u.dSum d, 4 * (32 * x.q.dhd), true)])) 0 := by
  have hcond : (u.dState d = stCold || j0 + n > u.dFill d || u.dSum d = 0) = false := by
    simp [hwarm, hfill, hsum]
  refine run_kvInstr_stat H G ?_
  simp only [effect_bind, hkey, effect_needField, hb.format, hb.fields, if_true, effect_getS, effect_keyDesc, hmap, if_neg hstate,
    hplace, hb.row, hb.count, hfmt, hcond, Bool.false_eq_true, if_false, hclean, effect_unitAt, effect_modS,
    effect_answer]
  rfl

end Sumupd

/-- Settles O33: PHASH by what the probe finds, SUMUPD by what the page holds. -/
theorem prefixAndSummary : Obligations.PrefixAndSummary := by
  constructor
  · intro s u v w e b sq page t tag G hin halign
    exact ⟨fun hzero => ⟨fun H => exec_phashH G hin halign H hzero,
        fun H => ⟨exec_phashL_hit G hin halign H hzero, exec_phashL_miss G hin halign H hzero⟩⟩,
      fun hzero H => exec_phashH_reserved G hin halign H hzero⟩
  · intro s u e x d place f t b j0 n tag dim size keys step G H hkey hlow hmid hhigh hge hle
    have hb : SumOperand e.b.toNat j0 n tag :=
      { low := hlow, mid := hmid, high := hhigh, row := bitsOf_low _ _, count := rfl, format := rfl, tag_ge := hge
        tag_le := hle }
    exact ⟨exec_sumupd_unmapped G H hkey hb, exec_sumupd_moving G H hkey hb, exec_sumupd_placeless G H hkey hb,
      fun hmap hstate hplace hfmt => ⟨exec_sumupd_without G H hkey hb hmap hstate hplace hfmt,
        exec_sumupd_widens G H hkey hb hmap hstate hplace hfmt⟩⟩

end Sys2Proof.Machine

/-! ## The Tourbillon's pools (O35) -/

namespace Sys2Proof.Machine

/-! ### A pool in use (R237, R444) -/

/-- A command on the pool is in flight: INFL counts one, or a TSBATCH of any partition on it waits for room in its channel. -/
def PoolInUse (s : State) (t part : Nat) (p : Pool) : Prop :=
  p.infl ≠ 0 ∨ ∃ w ∈ s.waits, ∃ pl data j pa, w.k = .push pl 2 data j ∧ s.poolPa t part p.va = some pa ∧
    s.poolPa (w.key / 16) (s.ctx w.key).part (w64 (leNat (data.take 8))) = some pa

theorem poolBusy_iff (s : State) (t part : Nat) (p : Pool) : s.poolBusy t part p = true ↔ PoolInUse s t part p := by
  rw [State.poolBusy, Bool.or_eq_true, decide_eq_true_iff, List.any_eq_true]
  refine or_congr_right (exists_congr fun w => and_congr_right fun _ => ⟨fun h => ?_, ?_⟩)
  · split at h
    next pl data j hk =>
      obtain ⟨hsome, hsame⟩ := Bool.and_eq_true_iff.mp h
      obtain ⟨pa, hpa⟩ := Option.isSome_iff_exists.mp hsome
      exact ⟨pl, data, j, pa, hk, hpa, (of_decide_eq_true hsame).trans hpa⟩
    next => cases h
  · rintro ⟨pl, data, j, pa, hk, hpa, hsame⟩
    simp [hk, hpa, hsame]

theorem poolBusy_of_not {s : State} {t part : Nat} {p : Pool} (h : ¬PoolInUse s t part p) : s.poolBusy t part p = false :=
  Bool.eq_false_iff.mpr fun hb => h ((poolBusy_iff ..).mp hb)

/-! ### TSINIT and TSREROOT (R445) -/

/-- The writes that empty a pool, its root the first node of half 0 (R445). -/
def emptyPool (e : Env) (p : Pool) : M Unit := do
  hdrWrite e p 4 3
  hdrWrite e p 8 (p.cap + 2)
  hdrWrite e p 12 2
  hdrWrite e p 0x1C (if p.sflip then 2 else 0)
  hdrWrite e p 0x20 0
  nodeWrite e p 2 ⟨0, 0, 0x3F80, 0, 0, 0, 8, 0, e.b.toNat % 2 ^ 32, 0⟩

/-- The header's writes that make the other half active, its nodes taken up to `next` (R237, R445). -/
def switchHalf (e : Env) (p : Pool) (next : Nat) : M Unit := do
  hdrWrite e p (if p.act then 4 else 8) next
  hdrWrite e p (if p.act then 8 else 4) (p.first p.act)
  hdrWrite e p 12 (p.first (!p.act))
  hdrWrite e p 0x1C ((!p.act).toNat + p.sflip.toNat * 2)

section Change

variable {s u u1 u2 u3 : State} {e : Env} {p : Pool} {next : Nat} (G : Goes s e) (hpool : poolOf e e.a (s.begun e) = .ok p u)

include G hpool

theorem exec_tsinit_busy (H : Fires.of s (.tsinit e.h) e) (hbusy : PoolInUse u e.tile (u.ctx e.key).part p) :
    exec (.tsinit e.h) s = s.closes e u 10 := by
  refine run_kvInstr_stat H G ?_
  simp only [effect_bind, hpool, effect_getS, (poolBusy_iff ..).mpr hbusy, if_true, effect_answer]
  rfl

theorem exec_tsinit_idle (H : Fires.of s (.tsinit e.h) e) (hidle : ¬PoolInUse u e.tile (u.ctx e.key).part p)
    (hempty : emptyPool e p u = .ok () u1) : exec (.tsinit e.h) s = s.closes e u1 0 := by
  have hbody : (do emptyPool e p; answer kOK) u = .ok (.stat 0) u1 := by
    rw [effect_bind, hempty]
    rfl
  refine run_kvInstr_stat H G ?_
  simp only [effect_bind, hpool, effect_getS, poolBusy_of_not hidle, Bool.false_eq_true, if_false]
  simp only [emptyPool, bind_assoc] at hbody
  simpa only [effect_bind] using hbody

variable (H : Fires.of s (.tsreroot e.h) e)

include H

/-- The new root is no node of the active half. -/
theorem exec_tsreroot_outside (hout : e.b.toNat < p.first p.act ∨ p.last p.act < e.b.toNat) :
    exec (.tsreroot e.h) s = s.traps e { code := .reservedField, extra := e.word } := by
  have hfield : (decide (p.first p.act ≤ e.b.toNat) && decide (e.b.toNat ≤ p.last p.act)) = false := by
    rcases hout with h | h <;> simp [h]
  refine run_kvInstr_error (t := u) (f := fltWord .reservedField e) H G ?_
  simp only [effect_bind, hpool, effect_needField, hfield, Bool.false_eq_true, if_false]

variable (hlow : p.first p.act ≤ e.b.toNat) (hhigh : e.b.toNat ≤ p.last p.act)

include hlow hhigh

theorem exec_tsreroot_busy (hbusy : PoolInUse u e.tile (u.ctx e.key).part p) : exec (.tsreroot e.h) s = s.closes e u 10 := by
  refine run_kvInstr_stat H G ?_
  simp only [effect_bind, hpool, effect_needField, decide_eq_true hlow, decide_eq_true hhigh, Bool.and_self, if_true,
    effect_getS, (poolBusy_iff ..).mpr hbusy, effect_answer]
  rfl

variable (hidle : ¬PoolInUse u e.tile (u.ctx e.key).part p)

include hidle

theorem exec_tsreroot_copied
    (hcopy : copyTree e p (p.first (!p.act)) p.cap [(e.b.toNat, p.first (!p.act), 0)] (p.first (!p.act) + 1) u =
      .ok (some next) u1)
    (hswitch : switchHalf e p next u1 = .ok () u2) (hundef : undefHalf e p (p.first p.act) u2 = .ok () u3) :
    exec (.tsreroot e.h) s = s.closes e u3 (w64 ((next - p.first (!p.act)) * 256)) := by
  have hbody : (do
      switchHalf e p next
      undefHalf e p (p.first p.act)
      answer (w64 ((next - p.first (!p.act)) * 256))) u1 = .ok (.stat (w64 ((next - p.first (!p.act)) * 256))) u3 := by
    simp only [effect_bind, hswitch, hundef, effect_answer]
  refine run_kvInstr_stat H G ?_
  simp only [effect_bind, hpool, effect_needField, decide_eq_true hlow, decide_eq_true hhigh, Bool.and_self, if_true,
    effect_getS, poolBusy_of_not hidle, Bool.false_eq_true, if_false, hcopy]
  simp only [switchHalf, bind_assoc] at hbody
  simpa only [effect_bind] using hbody

/-- The other half would not hold the subtree. -/
theorem exec_tsreroot_full
    (hcopy : copyTree e p (p.first (!p.act)) p.cap [(e.b.toNat, p.first (!p.act), 0)] (p.first (!p.act) + 1) u = .ok none u1)
    (hundef : undefHalf e p (p.first (!p.act)) u1 = .ok () u2) : exec (.tsreroot e.h) s = s.closes e u2 11 := by
  refine run_kvInstr_stat H G ?_
  simp only [effect_bind, hpool, effect_needField, decide_eq_true hlow, decide_eq_true hhigh, Bool.and_self, if_true,
    effect_getS, poolBusy_of_not hidle, Bool.false_eq_true, if_false, hcopy, hundef, effect_answer]
  rfl

end Change

/-! ### TSBEST and TSSTAT (R449) -/

/-- What TSSTAT answers of a pool: its free nodes, INFL, the root, the active half. -/
def Pool.stat (p : Pool) : Nat → Nat
  | 0 => p.last p.act + 1 - p.free
  | 1 => p.infl
  | 2 => p.root
  | _ => p.act.toNat

theorem Pool.stat_above (p : Pool) {item : Nat} (h : 2 < item) : p.stat item = p.act.toNat := by
  obtain ⟨k, rfl⟩ := Nat.exists_eq_add_of_le' h
  rfl

section Read

variable {s u u1 u2 : State} {e : Env} {p : Pool} {x : TNode} {cs : List (Nat × TNode)} {i : Nat} {v : FV}
  {n : Needs} {score : Pool → TNode → FV} (G : Goes s e) (hpool : poolOf e e.a (s.begun e) = .ok p u)

include G hpool

theorem exec_tsstat (item : BitVec 3) (H : Fires.of s (.tsstat e.h item) e) :
    exec (.tsstat e.h item) s = s.closes e u (w64 (p.stat item.toNat)) := by
  refine run_kvInstr_stat H G ?_
  simp only [effect_bind, hpool]
  rfl

variable (hroot : nodeRead e p p.root u = .ok x u1)

include hroot

theorem run_tsBest_childless (H : Fires s n e) (hnone : x.exp = false ∨ x.nch = 0) :
    run (kvInstr e.h n (tsBest score)) s = s.closes e u1 6 := by
  have hcond : (!x.exp || decide (x.nch = 0)) = true := by
    rcases hnone with h | h <;> simp [h]
  refine run_kvInstr_stat H G ?_
  simp only [tsBest, effect_bind, hpool, hroot, hcond, if_true, effect_answer]
  rfl

theorem run_tsBest_best (H : Fires s n e) (hexp : x.exp = true) (hnch : x.nch ≠ 0) (hcs : childrenOf e p x u1 = .ok cs u2)
    (hbest : bestOf (cs.map fun c => (c.1, score p c.2)) = some (i, v)) :
    run (kvInstr e.h n (tsBest score)) s = s.closes e u2 (w64 (i * 256)) := by
  refine run_kvInstr_stat H G ?_
  simp only [tsBest, effect_bind, hpool, hroot, hexp, Bool.not_true, Bool.false_or, decide_eq_false hnch,
    Bool.false_eq_true, if_false, hcs, hbest, effect_answer]

end Read

/-- Settles O35: the commands that change a pool by whether it is in use, the reads by what the pool holds. -/
theorem treePools : Obligations.TreePools := by
  constructor
  · intro s u u1 u2 u3 e p next t b base c busy G hpool
    refine ⟨fun H => ⟨exec_tsinit_busy G hpool H, exec_tsinit_idle G hpool H⟩,
      fun H => ⟨exec_tsreroot_outside G hpool H, exec_tsreroot_busy G hpool H,
        fun hlow hhigh hidle => ⟨exec_tsreroot_copied G hpool H hlow hhigh hidle, exec_tsreroot_full G hpool H hlow hhigh hidle⟩⟩⟩
  · intro s u u1 u2 e p x cs i v item t closes G hpool
    refine ⟨fun H => ⟨?_, ?_, ?_, ?_⟩, fun hroot => ⟨fun hnone => ⟨?_, ?_⟩, fun hexp hnch hcs => ⟨?_, ?_⟩⟩⟩
    · rintro rfl
      exact exec_tsstat G hpool 0 H
    · rintro rfl
      exact exec_tsstat G hpool 1 H
    · rintro rfl
      exact exec_tsstat G hpool 2 H
    · intro hitem
      rw [exec_tsstat G hpool item H, p.stat_above hitem]
    · exact fun H => run_tsBest_childless G hpool hroot H hnone
    · exact fun H => run_tsBest_childless G hpool hroot H hnone
    · exact fun H hbest => run_tsBest_best G hpool hroot H hexp hnch hcs hbest
    · exact fun H hbest => run_tsBest_best G hpool hroot H hexp hnch hcs hbest

end Sys2Proof.Machine

/-! ## Frames of the memory instructions: a load of a line reached both ways (O13) -/

namespace Sys2Proof.Machine

/-! ### A line reached both ways (R136) -/

section Undefined

variable {s : State} {pa x : Nat}

theorem undefBytes_byte_below (n : Nat) : ∀ {s : State} {pa : Nat}, x < pa → (s.undefBytes pa n).byte x = s.byte x := by
  induction n with
  | zero => exact fun _ => rfl
  | succ n ih =>
    intro s pa h
    rw [State.undefBytes, ih (Nat.lt_succ_of_lt h), State.byte, logGet, if_neg (Nat.ne_of_gt h)]
    rfl

theorem undefBytes_byte_first (s : State) (pa n : Nat) : (s.undefBytes pa (n + 1)).byte pa = Config.freeByte s.freeCtr := by
  rw [State.undefBytes, undefBytes_byte_below n (Nat.lt_succ_self pa), State.byte, logGet, if_pos rfl, Option.getD_some]

/-- The first byte of a line that was reached the other way is drawn anew. -/
theorem wayLine_byte_of_otherWay {way l : Nat} (hreached : s.ways.getD 0 (l / 128) ≠ 0)
    (hother : s.ways.getD 0 (l / 128) ≠ way) : (s.wayLine way l).byte l = Config.freeByte s.freeCtr := by
  rw [State.wayLine, if_neg hother, if_neg hreached]
  exact undefBytes_byte_first _ l 127

end Undefined

/-! ### An LD through a page of MS = 1 of a line that a page of MS = 0 reached -/

/-- 8 bytes (TS 6), alias class 1, no order, no token awaited, no offset. -/
def word8 : MFmt := { ts := 6, cls := 1, ord := 0, scp := 0, ow := false, ofs := 0 }

/-- A block of one LD, its address delivered. -/
def twoWaysBlk : Blk := ⟨0x1000, List.replicate 8 0, [0], [{ a := some 0x10000 }], [], [], [], [], false, 0, 0, []⟩

/-- Page 1 of address space 5 is HBM4E at 0x10000, of class NORMAL, readable at U, with MS = 1. -/
def twoWaysPte : W64 := w64 (0x10000 + 0x8FF)

/-- Its line 0x10000 was reached through its slice before (1), and holds another byte than the next one that is drawn. -/
def twoWays : State :=
  { State.reset with
    mem := [(0x10000, Config.freeByte 0 + 1)]
    parts := [(0, (List.replicate 16 0).set 0 0x8000000500000000)]
    tiles := [(0, { tlb := [⟨5, 2, 1, twoWaysPte⟩] })]
    ways := [(0x10000 / 128, 1)]
    ctxs := [(0, { st := .run })]
    blks := [(0, twoWaysBlk)]
    focus := .seq 0 0 0 }

def twoWaysEnv : Env := ⟨0, 0, 0, 0, 0x10000, 0, false, twoWaysBlk, 0, headOf 0⟩

def twoWaysTr : Tr := ⟨0x10000, 0, true, twoWaysPte⟩

theorem twoWays_fires : Fires.of twoWays (.ld twoWaysEnv.h word8) twoWaysEnv := ⟨rfl, by decide, rfl, by decide⟩

theorem twoWays_hbm : twoWays.paKind twoWaysTr.pa = .hbm := by decide

theorem twoWays_reaches : Reaches twoWays twoWaysEnv word8 8 useLoad .plain twoWaysTr where
  aligned := by decide
  found := by
    rw [Finds]
    decide
  window wt off h := by
    rw [twoWays_hbm] at h
    cases h
  bank := rfl

theorem twoWays_free : Free twoWays twoWaysEnv word8 true false twoWaysTr := ⟨rfl, rfl⟩

/-- Its value apart, a load of clean HBM4E bytes that no tile cache may hold touches their lines, sends its request and
completes (R129, R136). -/
theorem loadPa_uncacheable {t : State} {tr : Tr} {n : Nat} (sx : Bool) (c : Nat) (e : Env) (hkind : t.paKind tr.pa = .hbm)
    (hqueue : t.queueRead tr n = none) (hclean : t.poisoned tr.pa = false) (hms : cacheable tr = false) :
    ∃ own v, loadPa tr n sx c e t = ((t.wayTouch tr n).traffic (e.key / 16) own tr n false).finish e.key e.idx v := by
  have hidle : t.accBusyAt tr.pa n = [] := by simp only [State.accBusyAt, hkind]
  simp only [loadPa, hidle, List.isEmpty_nil, if_true, loadNow, hqueue, hkind, hclean, Bool.and_false, Bool.false_eq_true,
    if_false, State.loadHbm, State.cached, hms, Bool.false_and]
  exact ⟨_, _, rfl⟩

/-- Completing a load and sending its request leave every byte. -/
theorem finish_traffic_byte (t : State) (u : Nat) (own : Option (Nat × Nat)) (tr : Tr) (n key i : Nat) (v : W64) (x : Nat) :
    ((t.traffic u own tr n false).finish key i v).mem = t.mem ∧
    ((t.traffic u own tr n false).finish key i v).byte x = t.byte x := by
  obtain ⟨hmem, hlog, -⟩ := (OnlyTraffic.traffic t u own tr n false).same
  rw [(DeliversAt.finish ..).fields]
  exact ⟨hmem, by simp only [State.byte, hmem, hlog]⟩

/-- The line that the load touches, its page found. -/
def twoWaysTouched : State := (twoWays.found twoWaysEnv word8 useLoad).wayTouch twoWaysTr 8

theorem twoWaysTouched_byte : twoWaysTouched.byte 0x10000 = Config.freeByte 0 := by
  have hkind : (twoWays.found twoWaysEnv word8 useLoad).paKind twoWaysTr.pa = .hbm := (found_window ..).trans twoWays_hbm
  have hways : (twoWays.found twoWaysEnv word8 useLoad).ways.getD 0 (0x10000 / 128) = 1 := by
    rw [found_fields, begun_fields]
    rfl
  have hctr : (twoWays.found twoWaysEnv word8 useLoad).freeCtr = 0 := by
    rw [found_fields, begun_fields]
    rfl
  have hlines : linesOf twoWaysTr.pa 8 = [0x10000] := by decide
  have hway : wayOf twoWaysTr = 2 := by decide
  rw [twoWaysTouched, State.wayTouch, if_pos hkind, hlines, hway, List.foldl_cons, List.foldl_nil,
    wayLine_byte_of_otherWay (by rw [hways]; decide) (by rw [hways]; decide), hctr]

theorem wayTouch_mem (s : State) (tr : Tr) (n : Nat) : (s.wayTouch tr n).mem = s.mem :=
  have h := congrArg State.mem (OnlyAccess.wayTouch s tr n).bare
  h

theorem twoWaysTouched_mem : twoWaysTouched.mem = twoWays.mem := by
  rw [twoWaysTouched, wayTouch_mem, found_fields, begun_fields]

/-- The load answers, and what the line's first byte held is gone. -/
theorem exec_ld_twoWays : ∃ u, exec (.ld twoWaysEnv.h word8) twoWays = .next (endStep twoWays u) ∧
    u.mem = twoWays.mem ∧ u.byte 0x10000 = Config.freeByte 0 := by
  have htraffic := found_traffic twoWays twoWaysEnv word8 useLoad
  have hqueue : (twoWays.found twoWaysEnv word8 useLoad).queueRead twoWaysTr 8 = none := if_pos (by decide)
  have hclean : (twoWays.found twoWaysEnv word8 useLoad).poisoned twoWaysTr.pa = false := by
    rw [htraffic.poisoned, begun_fields]
    rfl
  obtain ⟨own, v, hload⟩ := loadPa_uncacheable false 1 twoWaysEnv ((found_window ..).trans twoWays_hbm) hqueue hclean (by decide)
  have hexec : exec (.ld twoWaysEnv.h word8) twoWays = .next (endStep twoWays (checkedM word8 8 useLoad .plain twoWaysEnv
      (twoWays.begun twoWaysEnv) fun tr _ s => loadPa tr 8 false 1 twoWaysEnv s)) :=
    run_fireSeq twoWays_fires _ _ (holdM_none twoWays_free twoWays_reaches rfl)
  rw [checkedM_of twoWays_reaches, hload] at hexec
  obtain ⟨hmem, hbyte⟩ := finish_traffic_byte twoWaysTouched 0 own twoWaysTr 8 0 0 v 0x10000
  exact ⟨_, hexec, hmem.trans twoWaysTouched_mem, hbyte.trans twoWaysTouched_byte⟩

/-- Refutes O13: the clause of LD names the page by `Finds s e m useLoad tr → OneWay s tr _` for a given `tr`, so for a `tr` that
the load does not find it asks nothing of the line that it does reach. `twoWays` reaches its line through a page of MS = 1 after
one of MS = 0, and the bytes that stood there are undefined from then on (R136). -/
theorem not_memoryFrames : ¬ Obligations.MemoryFrames := by
  intro h
  obtain ⟨u, hexec, hmem, hbyte⟩ := exec_ld_twoWays
  have hother : ¬Finds twoWays twoWaysEnv word8 useLoad { twoWaysTr with pa := 0 } := by
    rw [Finds, show _ = _ from twoWays_reaches.found]
    decide
  obtain ⟨-, hld, -⟩ := h twoWays (endStep twoWays u) twoWaysEnv word8 0 { twoWaysTr with pa := 0 } rfl (fun _ hw => nomatch hw)
  obtain ⟨hsame, -⟩ := hld twoWays_fires (fun hf => absurd hf hother) hexec
  have hafter : Mem.get (endStep twoWays u).mem 0x10000 = Config.freeByte 0 := by
    rw [endStep_mem, ← hmem, byte_flush, hbyte]
  have hbefore : Mem.get twoWays.mem 0x10000 = Config.freeByte 0 + 1 := rfl
  have hclash : Config.freeByte 0 = Config.freeByte 0 + 1 := hafter.symm.trans ((hsame 0x10000).trans hbefore)
  have hne : ∀ x : Byte, x ≠ x + 1 := by decide
  exact hne _ hclash

end Sys2Proof.Machine

/-! ## Acceptance, end and stop of matrix operations (O20) -/

namespace Sys2Proof.Machine

theorem acc_of_accs {s u : State} (h : u.accs = s.accs) (k : Nat) : u.acc k = s.acc k := by
  rw [State.acc, h, State.acc]

/-! ### What leaves every accumulator as it was -/

theorem accs_of_deliversAt {s t : State} {key : Nat} (h : DeliversAt key s t) : t.accs = s.accs := by rw [h.fields]

@[simp] theorem count_accs (s : State) (t ev add : Nat) (c cls : Option Nat) : (s.count t ev c cls add).accs = s.accs := by
  rw [count_fields]

@[simp] theorem flagRegion_accs (s : State) (rk fl : Nat) : (s.flagRegion rk fl).accs = s.accs := by rw [flagRegion_fields]

@[simp] theorem flagCtx_accs (s : State) (key fl : Nat) : (s.flagCtx key fl).accs = s.accs := by
  unfold State.flagCtx
  split <;> rfl

@[simp] theorem completeTo_accs (s : State) (w : Who) : (s.completeTo w).accs = s.accs := by
  unfold State.completeTo
  split
  · exact accs_of_deliversAt (.complete ..)
  · rfl

@[simp] theorem abandonTo_accs (s : State) (w : Who) : (s.abandonTo w).accs = s.accs := by
  unfold State.abandonTo State.abandon
  split
  · split
    · rfl
    · split
      · exact accs_of_deliversAt (.setStat ..)
      · rfl
  · rfl

@[simp] theorem asyncTo_accs (s : State) (w : Who) (f : Flt) : (s.asyncTo w f).accs = s.accs := by
  unfold State.asyncTo
  split <;> rfl

@[simp] theorem setVisit_accs (s : State) (t : Nat) (o : MOp) (on : Bool) : (s.setVisit t o on).accs = s.accs := by
  unfold State.setVisit
  split
  · rfl
  · split
    · rfl
    · cases on
      · rfl
      · exact count_accs ..

@[simp] theorem mxFault_accs (s : State) (t : Nat) (o : MOp) (f : Flt) : (s.mxFault t o f).accs = s.accs := by
  unfold State.mxFault
  split
  · exact asyncTo_accs ..
  · next r _ => cases s.regionCtx (4 * t + r) <;> rfl

/-- An operation that leaves the node leaves what the accumulators hold. -/
@[simp] theorem mxLeave_accs (s : State) (t : Nat) (o : MOp) (fl : Nat) (ended : Bool) :
    (s.mxLeave t o fl ended).accs = s.accs := by
  have hflags : (match o.region with
      | some r => s.flagRegion (4 * t + r) fl
      | none => if s.lives o.who then s.flagCtx o.who.key fl else s).accs = s.accs := by
    split
    · exact flagRegion_accs ..
    · split
      · exact flagCtx_accs ..
      · rfl
  by_cases hdrn : o.drn ≠ 0
  · exact (congrArg State.accs (if_pos hdrn)).trans hflags
  · exact (congrArg State.accs (if_neg hdrn)).trans hflags

@[simp] theorem mxEnd_accs (s : State) (t : Nat) (o : MOp) (fl : Nat) (f : Flt) : (s.mxEnd t o fl f).accs = s.accs := by
  unfold State.mxEnd
  cases o.idx <;> simp

/-! ### The accumulator when its operation ends or stops (R90, R379) -/

/-- The accumulator after an operation's rows are complete: nothing is kept of a stop, and MSCAN leaves its last row in row
127 (R378). -/
def MOp.closeAcc (o : MOp) (a : Acc) : Acc :=
  let b := { a with rowp := 0, keptTok := 0, keptDesc := [] }
  if o.op = mxScan then b.setRow 127 ((List.range 64).map (b.at_ (o.rows - 1))) else b

theorem closeAcc_rowp (o : MOp) (a : Acc) : (o.closeAcc a).rowp = 0 := by
  unfold MOp.closeAcc
  dsimp only
  split <;> rfl

theorem closeAcc_of_ne_scan {o : MOp} (h : o.op ≠ mxScan) (a : Acc) :
    o.closeAcc a = { a with rowp := 0, keptTok := 0, keptDesc := [] } := if_neg h

/-- Beyond closing its accumulator, the end of an operation releases the P buffer and its visit and reports it. -/
theorem mxDone_accs (s : State) (t : Nat) (o : MOp) (fl : Nat) :
    (s.mxDone t o fl).accs = (s.updAcc (4 * t + o.acc) o.closeAcc).accs := by
  have htold (u : State) : (match o.idx with
      | some i => u.completeTo { o.who with idx := i }
      | none => u).accs = u.accs := by
    split
    · exact completeTo_accs ..
    · rfl
  have hbuffer (c : Prop) [Decidable c] (u : State) (f : Tile → Tile) : (if c then u.updTile t f else u).accs = u.accs := by
    split <;> rfl
  have hvisit (c : Prop) [Decidable c] (u : State) : (if c then u.setVisit t o false else u).accs = u.accs := by
    split
    · exact setVisit_accs ..
    · rfl
  calc (s.mxDone t o fl).accs
    _ = _ := htold _
    _ = _ := mxLeave_accs ..
    _ = _ := count_accs ..
    _ = _ := hvisit ..
    _ = _ := hbuffer ..
    _ = (s.updAcc (4 * t + o.acc) o.closeAcc).accs := hbuffer ..

theorem mxDone_acc (s : State) (t : Nat) (o : MOp) (fl : Nat) :
    (s.mxDone t o fl).acc (4 * t + o.acc) = o.closeAcc (s.acc (4 * t + o.acc)) := by
  rw [acc_of_accs (mxDone_accs ..), updAcc_acc, if_pos rfl]

theorem mxStopAt_acc_of_refused {s : State} {t : Nat} {o : MOp} (h : s.mxRefused t o = true) (n fl : Nat) (f : Flt) (k : Nat) :
    (s.mxStopAt t o n fl f).acc k = s.acc k := by
  rw [State.mxStopAt, if_pos h]
  exact acc_of_accs (mxEnd_accs ..) k

theorem mxStopAt_acc {s : State} {t : Nat} {o : MOp} (h : s.mxRefused t o = false) (n fl : Nat) (f : Flt) :
    (s.mxStopAt t o n fl f).acc (4 * t + o.acc) =
      { s.acc (4 * t + o.acc) with rowp := n, keptTok := o.tok, keptDesc := o.desc } := by
  rw [State.mxStopAt, if_neg (by rw [h]; decide), acc_of_accs (mxEnd_accs ..), updAcc_acc, if_pos rfl]

/-! ### The events of the node -/

section MatrixEventClauses

variable {s u : State} {t k y : Nat} {v : W64} {d : List Byte} {o : MOp} {f : Flt}
variable (hf : s.focus = .ev t k y v d)
include hf

theorem exec_matrixAccept : exec .matrixAccept s = .next (endStep s (s.mxAccept t)) := by
  change execMatrixAccept s = _
  simp only [execMatrixAccept, run, hf]

theorem exec_matrixComplete {n fl : Nat} (h : s.mxRun t k = some (o, n, fl, none, u)) :
    exec .matrixComplete s = .next (endStep s (u.mxDone t o fl)) := by
  change execMatrixComplete s = _
  simp only [execMatrixComplete, run, hf, h]

theorem exec_matrixStop {n fl : Nat} (h : s.mxRun t k = some (o, n, fl, some f, u)) :
    exec .matrixStop s = .next (endStep s (u.mxStopAt t o n fl f)) := by
  change execMatrixStop s = _
  simp only [execMatrixStop, run, hf, h]

end MatrixEventClauses

/-- The control port of a tile without an operation that the arbiter took. -/
def State.offPort (s : State) (t : Nat) (o : MOp) : State :=
  s.updTile t fun x => { x with mq := x.mq.filter fun q => q.id ≠ o.id }

section Accept

variable {s u : State} {t i : Nat} {o p : MOp} {f : Flt}

/-- A sequencer's operation that passes the checks runs, and its instruction goes on (R361, R362). -/
theorem mxAccept_of_ok (hpick : s.mxPick t = some o) (hreg : o.region = none)
    (hcheck : mxCheck t o (s.offPort t o) = .ok p u) (hp : p.idx = some i) :
    s.mxAccept t = (u.updTile t fun x => { x with mrun := x.mrun ++ [p] }).accept p.who.key i 0 := by
  rw [State.offPort] at hcheck
  simp only [State.mxAccept, hpick, hreg, hcheck]
  cases p
  cases hp
  rfl

/-- One that does not pass faults its instruction (R362). -/
theorem mxAccept_of_error (hpick : s.mxPick t = some o) (hreg : o.region = none) (hidx : o.idx = some i)
    (hcheck : mxCheck t o (s.offPort t o) = .error f u) :
    s.mxAccept t = u.syncFault o.who.key { f with idx := some i } := by
  rw [State.offPort] at hcheck
  simp only [State.mxAccept, hpick, hreg, hcheck, hidx]

end Accept

/-! ### MZERO (R374) -/

section Zero

variable {s : State} {t : Nat} {o : MOp}

/-- An accumulator after MZERO: a fresh one but for its format tag and the token slot that its last MQK named (R461). -/
def MOp.zeroAcc (o : MOp) (a : Acc) : Acc := { tag := if o.flag then 14 else 1, qslot := a.qslot }

variable (hop : o.op = mxZero)
include hop

/-- MZERO visits no page. -/
theorem mxVisit_zero : s.mxVisit t o = none := by
  simp [State.mxVisit, hop, mxZero, mxMqk, mxMpv]

theorem mxLost_zero : s.mxLost t o = none := by rw [State.mxLost, mxVisit_zero hop]

theorem mxHeld_zero : s.mxHeld t o = false := by rw [State.mxHeld, mxVisit_zero hop]

theorem mxStart_zero : s.mxStart t o = s := if_neg (by rw [hop]; decide)

theorem mxRow_zero (u : State) :
    mxRow t o u = .ok (fun _ s => .ok 0 (s.updAcc (4 * t + o.acc) o.zeroAcc)) u := by
  rw [mxRow, hop]
  rfl

/-- Without a descriptor ROWS is 1: MZERO has one row, which clears its accumulator. -/
theorem mxExec_zero (hdesc : o.desc = []) (hrowp : (s.acc (4 * t + o.acc)).rowp = 0) :
    ∃ u, s.mxExec t o = (1, 0, none, u) ∧ u.acc (4 * t + o.acc) = o.zeroAcc (s.acc (4 * t + o.acc)) := by
  have hfrom : ({ o with row0 := 0 } : MOp).op = mxZero := hop
  have hrows : ({ o with row0 := 0 } : MOp).rows - 0 = 1 := by
    rw [MOp.rows, MOp.cfg, show ({ o with row0 := 0 } : MOp).desc = [] from hdesc]
    rfl
  simp only [State.mxExec, hrowp, mxStart_zero hfrom, mxLost_zero hfrom, mxRow_zero hfrom, hrows, mxRows]
  exact ⟨_, rfl, (updAcc_acc ..).trans (if_pos rfl)⟩

/-- Nothing holds or refuses an MZERO on an accumulator where no operation stopped. -/
theorem mxRun_zero {k : Nat} (hnext : s.mxNext t k = some o) (hsent : o.sent = false)
    (hrowp : (s.acc (4 * t + o.acc)).rowp = 0) : s.mxRun t k = some (o, s.mxExec t o) := by
  have hrefused : s.mxRefused t o = false := by simp [State.mxRefused, hrowp]
  simp only [State.mxRun, hnext, hsent, hrefused, mxHeld_zero hop, Bool.false_eq_true, if_false]

end Zero

theorem flag_eq_getLsbD (o : MOp) : o.flag = o.tok.getLsbD 57 := by
  rw [MOp.flag, bitOf, BitVec.getLsbD, Nat.testBit_eq_decide_div_mod_eq]
  rfl

/-- Settles O20: acceptance follows the answer of `mxCheck`, and the end and the stop follow that of `mxRun`; past their own
update of the accumulator nothing touches it, and the one row of an MZERO leaves it as it is at reset but for its tag. -/
theorem matrixEvents : Obligations.MatrixEvents := by
  unfold Obligations.MatrixEvents
  refine ⟨fun s u t k y z i n fl v d o p f hf => ⟨fun hpick hidx hreg => ⟨fun hcheck hp => ?_, fun hcheck => ?_⟩,
    fun hrun => ⟨exec_matrixComplete hf hrun, ?_⟩,
    fun hrun => ⟨exec_matrixStop hf hrun, fun hfree => ?_, fun hrefused => ?_⟩⟩,
    fun s t k y i v d o hf hnext hacc hop hdesc hrowp hsent => ?_⟩
  · rw [exec_matrixAccept hf, mxAccept_of_ok hpick hreg hcheck hp]
  · rw [exec_matrixAccept hf, mxAccept_of_error hpick hreg hidx hcheck]
  · rw [mxDone_acc, closeAcc_rowp]
  · rw [mxStopAt_acc hfree]
    exact ⟨rfl, rfl⟩
  · exact mxStopAt_acc_of_refused hrefused ..
  · subst hacc
    obtain ⟨u, hexec, hzero⟩ := mxExec_zero hop hdesc hrowp
    have hrun := mxRun_zero hop hnext hsent hrowp
    rw [hexec] at hrun
    have hend : (endStep s (u.mxDone t o 0)).acc (4 * t + o.acc) = o.zeroAcc (s.acc (4 * t + o.acc)) := by
      rw [endStep_acc, mxDone_acc, hzero, closeAcc_of_ne_scan (by rw [hop]; decide)]
      rfl
    refine ⟨_, exec_matrixComplete hf hrun, ?_⟩
    rw [hend, ← flag_eq_getLsbD]
    exact ⟨fun _ => rfl, rfl, rfl, rfl, rfl⟩

end Sys2Proof.Machine

/-! ## Events on a barrier of the tile (O24) -/

namespace Sys2Proof.Machine

/-! ### The words of a barrier (R250, R251, R252) -/

/-- The words after the event that meets both expectations: BPHASE flips, PHCNT counts on, the counts clear. -/
def barDone (b : List W64) : List W64 :=
  [b.getD 0 0 ^^^ w64 (2 ^ 62), b.getD 1 0, w64 ((barPhcnt b + 1) % 2 ^ 32 * 2 ^ 32), 0, b.getD 4 0, b.getD 5 0]

/-- The words after an event that leaves an expectation unmet. -/
def barCounted (b : List W64) (arrivals bytes : Nat) : List W64 :=
  (setField b 2 0 32 (wAt b 2 % 2 ^ 32 + arrivals)).set 3 (w64 (wAt b 3 + bytes))

section Words

variable {b : List W64} {arrivals bytes : Nat}

/-- The words of a whole barrier with its phase and counts written. -/
theorem barWords_set {b : List W64} (h : b.length = 6) (x y z : W64) :
    ((b.set 0 x).set 2 y).set 3 z = [x, b.getD 1 0, y, z, b.getD 4 0, b.getD 5 0] := by
  match b, h with
  | [_, _, _, _, _, _], _ => rfl

/-- An event that would pass an expectation. -/
theorem barEvent_overrun (h : wAt b 0 % 2 ^ 32 < wAt b 2 % 2 ^ 32 + arrivals ∨ wAt b 1 < wAt b 3 + bytes) :
    barEvent b arrivals bytes = none := by
  have hpast : (decide (wAt b 2 % 2 ^ 32 + arrivals > wAt b 0 % 2 ^ 32) || decide (wAt b 3 + bytes > wAt b 1)) = true := by
    simpa using h
  simp only [barEvent, bitsOf_low, Bool.or_assoc, hpast, Bool.or_true, if_true]

/-- An event that passes neither expectation is refused only at a barrier that expects nothing. -/
theorem barEvent_within (hexp : wAt b 0 % 2 ^ 32 ≠ 0 ∨ wAt b 1 ≠ 0) (harr : wAt b 2 % 2 ^ 32 + arrivals ≤ wAt b 0 % 2 ^ 32)
    (hbytes : wAt b 3 + bytes ≤ wAt b 1) : barEvent b arrivals bytes =
      if wAt b 2 % 2 ^ 32 + arrivals = wAt b 0 % 2 ^ 32 ∧ wAt b 3 + bytes = wAt b 1
      then some (((b.set 0 (b.getD 0 0 ^^^ w64 (2 ^ 62))).set 2 (w64 ((barPhcnt b + 1) % 2 ^ 32 * 2 ^ 32))).set 3 0)
      else some (barCounted b arrivals bytes) := by
  have hidle : ¬(((decide (wAt b 0 % 2 ^ 32 = 0) && decide (wAt b 1 = 0) ||
      decide (wAt b 2 % 2 ^ 32 + arrivals > wAt b 0 % 2 ^ 32)) || decide (wAt b 3 + bytes > wAt b 1)) = true) := by
    simp only [Bool.or_eq_true, Bool.and_eq_true, decide_eq_true_iff]
    omega
  simp only [barEvent, bitsOf_low, if_neg hidle, Bool.and_eq_true, decide_eq_true_iff]
  rfl

theorem barEvent_met (hlen : b.length = 6) (hexp : wAt b 0 % 2 ^ 32 ≠ 0 ∨ wAt b 1 ≠ 0)
    (harr : wAt b 2 % 2 ^ 32 + arrivals = wAt b 0 % 2 ^ 32) (hbytes : wAt b 3 + bytes = wAt b 1) :
    barEvent b arrivals bytes = some (barDone b) := by
  rw [barEvent_within hexp harr.le hbytes.le, if_pos ⟨harr, hbytes⟩, barWords_set hlen, barDone]

theorem barEvent_counted (harr : wAt b 2 % 2 ^ 32 + arrivals ≤ wAt b 0 % 2 ^ 32) (hbytes : wAt b 3 + bytes ≤ wAt b 1)
    (hunmet : ¬(wAt b 2 % 2 ^ 32 + arrivals = wAt b 0 % 2 ^ 32 ∧ wAt b 3 + bytes = wAt b 1)) :
    barEvent b arrivals bytes = some (barCounted b arrivals bytes) := by
  rw [barEvent_within (by omega) harr hbytes, if_neg hunmet]

/-- CNTARR takes the arrivals, and PHCNT above it stays. -/
theorem barCounted_arrivals (hlen : b.length = 6) (h : wAt b 2 % 2 ^ 32 + arrivals < 2 ^ 32) :
    wAt (barCounted b arrivals bytes) 2 = wAt b 2 + arrivals := by
  have hword : wAt b 2 < 2 ^ 64 := (b.getD 2 0).isLt
  have hfield := setBits_lt (n := 32) (v := wAt b 2 % 2 ^ 32 + arrivals) (lo := 0) hword (by decide)
  rw [barCounted, wAt_set_other _ _ (by decide), setField, wAt_set_same _ (by omega), w64_toNat, Nat.mod_eq_of_lt hfield,
    setBits_split, Nat.mod_eq_of_lt h]
  omega

theorem barCounted_bytes (hlen : b.length = 6) (h : wAt b 3 + bytes < 2 ^ 64) :
    wAt (barCounted b arrivals bytes) 3 = wAt b 3 + bytes := by
  rw [barCounted, wAt_set_same _ (by simp [setField, hlen]), w64_toNat, Nat.mod_eq_of_lt h]

/-- Only the counts change. -/
theorem barCounted_getD {j : Nat} (hj : j < 2) : (barCounted b arrivals bytes).getD j 0 = b.getD j 0 := by
  rw [barCounted, getD_set_other _ _ _ (by omega), setField, getD_set_other _ _ _ (by omega)]

theorem barInit_arrivals {expA : Nat} (h : expA < 2 ^ 32) (expB level scope : Nat) (key ltag : W64) :
    wAt (barInit b expA expB level scope key ltag) 0 % 2 ^ 32 = expA := by
  have hfield := bitsOf_setBits_same (setBits (setBits (wAt b 0) 59 3 level) 56 3 scope) 0 32 expA
  rw [bitsOf_low, Nat.mod_eq_of_lt h] at hfield
  calc wAt (barInit b expA expB level scope key ltag) 0 % 2 ^ 32
      = setBits (setBits (setBits (wAt b 0) 59 3 level) 56 3 scope) 0 32 expA % 2 ^ 64 % 2 ^ 32 :=
        congrArg (· % 2 ^ 32) (w64_toNat _)
    _ = expA := by rw [Nat.mod_mod_of_dvd _ (by decide), hfield]

theorem barInit_bytes {expB : Nat} (h : expB < 2 ^ 64) (expA level scope : Nat) (key ltag : W64) :
    wAt (barInit b expA expB level scope key ltag) 1 = expB := (w64_toNat expB).trans (Nat.mod_eq_of_lt h)

/-- PHCNT stays and CNTARR clears. -/
theorem barInit_phase (expA expB level scope : Nat) (key ltag : W64) :
    wAt (barInit b expA expB level scope key ltag) 2 = barPhcnt b * 2 ^ 32 := by
  have hword : wAt b 2 < 2 ^ 64 := (b.getD 2 0).isLt
  exact (w64_toNat _).trans (Nat.mod_eq_of_lt (by rw [barPhcnt]; omega))

end Words

/-! ### BINIT, BARR and BADD (R422, R423) -/

section Event

variable {s : State} {e : Env} {n : BitVec 6} {b : List W64} (G : Goes s e)

include G

section Binit

variable {level scope : BitVec 3} (H : Fires.of s (.binit e.h n level scope) e)

include H

theorem exec_binit_writes (ha : e.a.toNat < 2 ^ 32) (hlevel : level.toNat ≤ (s.ctx e.key).widfmt.toNat % 8) :
    exec (.binit e.h n level scope) s = s.closes e ((s.begun e).setBar (48 * e.tile + n.toNat)
      (barInit (s.bar (48 * e.tile + n.toNat)) e.a.toNat e.b.toNat level.toNat scope.toNat
        (aboveLevel (s.ctx e.key).widfmt level.toNat (s.ctx e.key).wid) (s.ctx e.key).ltag)) 0 := by
  refine (run_fireSeq H _ hold15 G.hold).trans ?_
  have hfields : ¬((decide (e.a.toNat / 2 ^ 32 ≠ 0) || decide (level.toNat > (s.ctx e.key).widfmt.toNat % 2 ^ 3)) = true) := by
    simp only [Bool.or_eq_true, decide_eq_true_iff]
    omega
  simp only [begun_ctx, begun_bar, bitsOf_low, if_neg hfields]
  rfl

/-- EXPARR has 32 bits, and LEVEL is at most the levels of the launch's format. -/
theorem exec_binit_reserved (h : ¬(e.a.toNat < 2 ^ 32 ∧ level.toNat ≤ (s.ctx e.key).widfmt.toNat % 8)) :
    exec (.binit e.h n level scope) s = s.traps e { code := .reservedField, extra := e.word } := by
  refine (run_fireSeq H _ hold15 G.hold).trans ?_
  have hfields : (decide (e.a.toNat / 2 ^ 32 ≠ 0) || decide (level.toNat > (s.ctx e.key).widfmt.toNat % 2 ^ 3)) = true := by
    simp only [Bool.or_eq_true, decide_eq_true_iff]
    omega
  simp only [begun_ctx, bitsOf_low, if_pos hfields]
  rfl

end Binit

section Barr

variable (H : Fires.of s (.barr e.h n) e)

include H

/-- The barrier does not serve the strand: FOREIGN. -/
theorem exec_barr_foreign
    (hserve : barMatch (s.bar (48 * e.tile + n.toNat)) (s.ctx e.key).ltag (s.ctx e.key).wid (s.ctx e.key).widfmt = false) :
    exec (.barr e.h n) s = s.closes e (s.begun e) (w64 (1 + barPhcnt (s.bar (48 * e.tile + n.toNat)) * 2 ^ 32)) := by
  refine (run_fireSeq H _ hold15 G.hold).trans ?_
  simp only [begun_ctx, begun_bar, hserve, Bool.not_false, if_true]
  rfl

variable (hserve : barMatch (s.bar (48 * e.tile + n.toNat)) (s.ctx e.key).ltag (s.ctx e.key).wid (s.ctx e.key).widfmt = true)

include hserve

theorem exec_barr_counts (h : barEvent (s.bar (48 * e.tile + n.toNat)) 1 0 = some b) : exec (.barr e.h n) s =
    s.closes e ((s.begun e).setBar (48 * e.tile + n.toNat) b) (w64 (barPhcnt (s.bar (48 * e.tile + n.toNat)) * 2 ^ 32)) := by
  refine (run_fireSeq H _ hold15 G.hold).trans ?_
  simp only [begun_ctx, begun_bar, hserve, h, Bool.not_true, Bool.false_eq_true, if_false]
  rfl

theorem exec_barr_overrun (h : barEvent (s.bar (48 * e.tile + n.toNat)) 1 0 = none) :
    exec (.barr e.h n) s = s.traps e { code := .barrierOverrun, extra := w64 n.toNat } := by
  refine (run_fireSeq H _ hold15 G.hold).trans ?_
  simp only [begun_ctx, begun_bar, hserve, h, Bool.not_true, Bool.false_eq_true, if_false]
  rfl

end Barr

section Badd

variable (H : Fires.of s (.badd e.h false n) e)

include H

/-- The bytes of one BADD are less than 2^32. -/
theorem exec_badd_reserved (hb : 2 ^ 32 ≤ e.b.toNat) :
    exec (.badd e.h false n) s = s.traps e { code := .reservedField, extra := e.word } := by
  have hfield : e.b.toNat / 2 ^ 32 ≠ 0 := by omega
  refine (run_fireSeq H _ hold15 G.hold).trans ?_
  simp only [if_pos hfield]
  rfl

variable (hb : e.b.toNat < 2 ^ 32)

include hb

theorem exec_badd_zero (hzero : e.b = 0) : exec (.badd e.h false n) s = s.closes e (s.begun e) 0 := by
  refine (run_fireSeq H _ hold15 G.hold).trans ?_
  simp only [Nat.div_eq_of_lt hb, ne_eq, not_true_eq_false, Bool.false_eq_true, if_false, if_pos hzero]
  rfl

variable (hbytes : e.b ≠ 0)

include hbytes

theorem exec_badd_counts (h : barEvent (s.bar (48 * e.tile + n.toNat)) 0 e.b.toNat = some b) :
    exec (.badd e.h false n) s = s.closes e ((s.begun e).setBar (48 * e.tile + n.toNat) b) 0 := by
  refine (run_fireSeq H _ hold15 G.hold).trans ?_
  simp only [Nat.div_eq_of_lt hb, ne_eq, not_true_eq_false, Bool.false_eq_true, if_false, if_neg hbytes, begun_bar, h]
  rfl

theorem exec_badd_overrun (h : barEvent (s.bar (48 * e.tile + n.toNat)) 0 e.b.toNat = none) :
    exec (.badd e.h false n) s = s.traps e { code := .barrierOverrun, extra := w64 n.toNat } := by
  refine (run_fireSeq H _ hold15 G.hold).trans ?_
  simp only [Nat.div_eq_of_lt hb, ne_eq, not_true_eq_false, Bool.false_eq_true, if_false, if_neg hbytes, begun_bar, h]
  rfl

end Badd

end Event

/-- Settles O24: BINIT by its fields, BARR and BADD by what the event comes to at the barrier's words. -/
theorem barrierEvents : Obligations.BarrierEvents := by
  intro s e n level scope t c k b expA expB cntA cntB ph done ov G hlen
  have hexpA : expA < 2 ^ 32 := Nat.mod_lt _ (by decide)
  have hcntA : cntA < 2 ^ 32 := Nat.mod_lt _ (by decide)
  have hexpB : expB < 2 ^ 64 := (b.getD 1 0).isLt
  refine ⟨fun H => ⟨fun ha hlevel => ?binit, exec_binit_reserved G H⟩,
    fun H => ⟨exec_barr_foreign G H, fun hserve hA hB => ?barrMet, fun hserve hA hB hunmet => ?barrCounted,
      fun hserve hA => ?barrOverrun⟩,
    fun H hb => ⟨exec_badd_zero G H hb, fun hbytes hA hB => ?baddMet, fun hbytes hA hB hunmet => ?baddCounted,
      fun hbytes hB => ?baddOverrun⟩,
    exec_badd_reserved G⟩
  case binit =>
    exact ⟨_, exec_binit_writes G H ha hlevel, rfl, barInit_arrivals ha .., barInit_bytes e.b.isLt .., barInit_phase .., rfl,
      rfl, rfl⟩
  case barrMet =>
    exact exec_barr_counts G H hserve (barEvent_met hlen (.inl (show expA ≠ 0 by omega)) hA hB)
  case barrCounted =>
    exact ⟨_, exec_barr_counts G H hserve (barEvent_counted hA hB hunmet),
      barCounted_arrivals hlen (Nat.lt_of_le_of_lt hA hexpA), barCounted_bytes hlen (Nat.lt_of_le_of_lt hB hexpB),
      barCounted_getD (by decide), barCounted_getD (by decide)⟩
  case barrOverrun =>
    exact exec_barr_overrun G H hserve (barEvent_overrun (.inl (Nat.lt_succ_of_le hA)))
  case baddMet =>
    have hpos : e.b.toNat ≠ 0 := fun h => hbytes (BitVec.eq_of_toNat_eq h)
    exact exec_badd_counts G H hb hbytes (barEvent_met hlen (.inr (show expB ≠ 0 by omega)) hA hB)
  case baddCounted =>
    exact ⟨_, exec_badd_counts G H hb hbytes (barEvent_counted hA hB hunmet),
      barCounted_bytes hlen (Nat.lt_of_le_of_lt hB hexpB), barCounted_arrivals hlen hcntA,
      barCounted_getD (by decide), barCounted_getD (by decide)⟩
  case baddOverrun =>
    exact exec_badd_overrun G H hb hbytes (barEvent_overrun (.inr hB))

end Sys2Proof.Machine

/-! ## Tokens at the stream ports (O52) -/

namespace Sys2Proof.Machine

/-! ### What leaves every region as it was -/

section Regions

variable {s t : State}

theorem region_of_regions (h : t.regions = s.regions) (k : Nat) : t.region k = s.region k := by rw [State.region, State.region, h]

theorem OnlyTraffic.regions (h : OnlyTraffic s t) : t.regions = s.regions := by simpa using congrArg State.regions h.rest

theorem OnlyAccess.regions (h : OnlyAccess s t) : t.regions = s.regions :=
  have hb := congrArg State.regions h.bare
  hb

theorem DeliversAt.regions {key : Nat} (h : DeliversAt key s t) : t.regions = s.regions := by rw [h.fields]

variable (s)

@[simp] theorem completeTo_region (w : Who) (k : Nat) : (s.completeTo w).region k = s.region k := by
  unfold State.completeTo
  split
  · exact region_of_regions (DeliversAt.complete ..).regions k
  · rfl

@[simp] theorem abandonTo_region (w : Who) (k : Nat) : (s.abandonTo w).region k = s.region k := by
  unfold State.abandonTo State.abandon
  split
  · split
    · rfl
    · split
      · exact region_of_regions (DeliversAt.setStat ..).regions k
      · rfl
  · rfl

@[simp] theorem asyncTo_region (w : Who) (f : Flt) (k : Nat) : (s.asyncTo w f).region k = s.region k := by
  unfold State.asyncTo
  split <;> rfl

theorem sendSeg_regions (w : Who) (t u cls tag n : Nat) : (s.sendSeg w t u cls tag n).regions = s.regions := by
  unfold State.sendSeg
  split <;> rfl

@[simp] theorem chanSend_region (t : Nat) (w : Who) (k n : Nat) (eos back : Bool) (j : Nat) :
    (s.chanSend t w k n eos back).region j = s.region j := by
  have hring : (s.meterRing t w.cls n).regions = s.regions := (OnlyTraffic.meterRing ..).regions
  refine region_of_regions ?_ j
  unfold State.chanSend
  dsimp only
  split
  · rfl
  · split
    · exact ((OnlyTraffic.meshReq ..).trans (.device ..)).regions
    · split
      · rw [sendSeg_regions, hring]
      · split <;> rw [sendSeg_regions, hring]

/-- Taking an element writes its entry and the entry's mirror (R180, R277). -/
@[simp] theorem chanTake_region (k j : Nat) : (s.chanTake k).region j = s.region j := by
  refine region_of_regions ?_ j
  have hlog := congrArg State.regions (mirror_log (s.setChan k { (s.chan k).setW 3 ((s.chan k).popseq + 1) with
    onchip := (s.chan k).onchip - 1 }) k 3 1)
  exact hlog

end Regions

/-! ### Reads of a stream-in port -/

namespace OnlyAccess

variable (s : State)

theorem meterSlow (cls n copy : Nat) : OnlyAccess s (s.meterSlow cls n copy) := of_bare rfl rfl

/-- A line of the slow tier that fails raises an event and enters its page in the poison list (R140). -/
theorem slowLine (t cls : Nat) (pte : W64) (pa n : Nat) : OnlyAccess s (s.slowLine t cls pte pa n).2 := by
  unfold State.slowLine
  split
  · exact refl s
  · extract_lets _ mir _ u page
    have hu : OnlyAccess s u := by
      unfold u
      split
      · exact of_bare rfl rfl
      · exact refl s
    clear_value u
    split
    · exact hu
    · dsimp only
      split
      · exact hu.trans (of_bare rfl rfl)
      · exact hu

theorem slowLines (t cls : Nat) (pte : W64) (pa n : Nat) : ∀ (l : List Nat) (s : State),
    OnlyAccess s (s.slowLines t cls pte pa n l).2
  | [], s => refl s
  | a :: r, s => by
    have hline := slowLine s t cls pte (max pa a) (min (pa + n) (a + 128) - max pa a)
    unfold State.slowLines
    dsimp only
    split
    next h => rwa [h] at hline
    next bs v h =>
      rw [h] at hline
      have hrest := hline.trans (slowLines t cls pte pa n r v)
      split
      next g => rwa [g] at hrest
      next g => rwa [g] at hrest

theorem slowRead (t cls : Nat) (tr : Tr) (n copy : Nat) : OnlyAccess s (s.slowRead t cls tr n copy).2 := by
  unfold State.slowRead
  split
  · exact refl s
  · exact (meterSlow ..).trans (slowLines ..)

/-- A load of a register window may draw undefined bits (R87, R88). -/
theorem winLoad (t off n : Nat) : OnlyAccess s (s.winLoad t off n).2 := by
  unfold State.winLoad
  dsimp only
  split
  · exact refl s
  · exact of_bare rfl rfl

theorem winLoads (t : Nat) : ∀ (n off : Nat) (s : State), OnlyAccess s (s.winLoads t off n).2
  | 0, _, s => refl s
  | n + 1, off, s => (winLoad s t off 8).trans (winLoads t n (off + 8) _)

theorem peek (pa n : Nat) : OnlyAccess s (s.peek pa n).2 := by
  unfold State.peek
  split
  · split
    · exact refl s
    · exact winLoads ..
  · exact refl s

end OnlyAccess

namespace Accesses

theorem mReadTr (t : Nat) (u : Use) (tr : Tr) (n : Nat) : Accesses (Machine.mReadTr t u tr n) := by
  refine (modS fun s => (OnlyAccess.of_traffic (.traffic ..)).trans (.wayTouch ..)).bind fun _ => ⟨fun s => ?_⟩
  have hslow := OnlyAccess.slowRead s t (((s.owner u).map Prod.snd).getD 8) tr n 0
  rw [effect_bind, effect_getS]
  dsimp only
  have hhome : OnlyAccess s (endState ((match s.poisonAt tr.pa n with
      | some f => Machine.raise f
      | none => fun s => .ok (s.peek tr.pa n).1 (s.peek tr.pa n).2 : M (List Byte)) s)) := by
    cases s.poisonAt tr.pa n with
    | some f => exact .refl s
    | none => exact .peek ..
  cases s.paKind tr.pa with
  | slow _ =>
    dsimp only
    rcases hr : s.slowRead t (((s.owner u).map Prod.snd).getD 8) tr n with ⟨_ | bs, v⟩ <;> rwa [hr] at hslow
  | hbm => exact hhome
  | window _ _ => exact hhome
  | hole => exact hhome

theorem mReadPiece (t part : Nat) (u : Use) (bank : BankUse) (va n : Nat) :
    Accesses (Machine.mReadPiece t part u bank va n) := (mPiece ..).bind fun _ => mReadTr ..

end Accesses

/-! ### A stream-in port (R401, R403, R405, R426) -/

section StreamIn

variable {s : State} {x y z : Nat} {v : W64} {d : List Byte}

theorem exec_streamInDeliver (hf : s.focus = .ev x y z v d) :
    exec .streamInDeliver s = .next (endStep s (s.streamIn (4 * x + y) z)) := by
  change execStreamInDeliver s = _
  simp only [execStreamInDeliver, run, hf]

variable {rk j : Nat} {b : StreamIn}

/-- The region runs, and the port's route has a place for a token. -/
structure PortOpen (s : State) (rk j : Nat) : Prop where
  runs : (s.region rk).draining = false
  routed : rtV ((s.region rk).inRoute j) = true
  room : s.routeSpace rk ((s.region rk).inRoute j) = true

theorem PortOpen.passes (h : PortOpen s rk j) :
    ((s.region rk).draining || !(rtV ((s.region rk).inRoute j) && s.routeSpace rk ((s.region rk).inRoute j))) = false := by
  rw [h.runs, h.routed, h.room]
  rfl

/-- An open port with a binding, before which no token of SEOS or PREL.G stands. -/
structure PortBound (s : State) (rk j : Nat) (b : StreamIn) : Prop where
  opens : PortOpen s rk j
  first : ∀ p ∈ (s.region rk).pend, p.port ≠ j
  bound : (s.region rk).sin.get? j = some b

theorem PortBound.no_pending (h : PortBound s rk j b) : (s.region rk).pend.find? (fun p => p.port = j) = none :=
  List.find?_eq_none.mpr fun p hp => by simpa using h.first p hp

/-- While the region drains, nothing is delivered (R405). -/
theorem streamIn_of_draining (h : (s.region rk).draining = true) : s.streamIn rk j = s := by
  simp only [State.streamIn, h, Bool.true_or, if_true]

/-- A token of SEOS or PREL.G, first at its port, goes before anything is bound (R403, R426). -/
theorem streamIn_of_pending {p : Pend} {l : List Pend} {n : Nat} (h : PortOpen s rk j) (hl : (s.region rk).pend = p :: l)
    (hp : p.port = j) (hn : p.num = some n) (hb : (s.region rk).sin.get? j = none) :
    s.streamIn rk j = (s.updRegion rk fun r => { r with pend := l }).sendRoute rk ((s.region rk).inRoute j)
      ⟨w64 n, 3, false⟩ := by
  have hfind : (p :: l).find? (fun q => q.port = j) = some p := List.find?_cons_of_pos (by simpa using hp)
  simp only [State.streamIn, h.passes, hb, hl, hfind, hn, Option.map_none, Option.getD_none, if_pos Nat.one_pos,
    Bool.false_eq_true, if_false, State.updRegion, List.erase_cons_head]

/-- The oldest element of the bound channel is taken and goes out (R401). -/
theorem streamIn_of_element {ck : Nat} (h : PortBound s rk j b) (hc : b.chan = some ck) (hl : (s.chan ck).lost = false)
    (hv : (s.chan ck).v = true) (hm : (s.chan ck).atMarker = false) (ho : 0 < (s.chan ck).onchip)
    (hp : s.poisonAt ((s.chan ck).slotPa ck (((s.chan ck).popseq + 1) % 2 ^ 64)) 8 = none) :
    s.streamIn rk j = ((s.chanTake ck).chanSend (rk / 4) b.who ck 8 false true).sendRoute rk ((s.region rk).inRoute j)
      ⟨s.rd64 ((s.chan ck).slotPa ck (((s.chan ck).popseq + 1) % 2 ^ 64)), 0, false⟩ := by
  simp only [State.streamIn, h.opens.passes, h.bound, h.no_pending, ite_self, hc, hl, hv, hm, hp, if_pos ho, Bool.not_true,
    Bool.false_eq_true, if_false]

/-- A binding whose channel is lost, closed or poisoned ends without a token (R279, R401). -/
theorem streamIn_of_dead {ck : Nat} (h : PortBound s rk j b) (hc : b.chan = some ck)
    (hd : (s.chan ck).lost = true ∨ (s.chan ck).v = false ∨ ((s.chan ck).atMarker = false ∧ 0 < (s.chan ck).onchip ∧
      s.poisonAt ((s.chan ck).slotPa ck (((s.chan ck).popseq + 1) % 2 ^ 64)) 8 ≠ none)) :
    ∃ u : State, u.region rk = s.region rk ∧ s.streamIn rk j = u.endIn rk j b := by
  simp only [State.streamIn, h.opens.passes, h.bound, h.no_pending, ite_self, hc, Bool.false_eq_true, if_false]
  cases hl : (s.chan ck).lost with
  | true => exact ⟨_, asyncTo_region .., rfl⟩
  | false =>
    cases hv : (s.chan ck).v with
    | false => exact ⟨s, rfl, rfl⟩
    | true =>
      obtain ⟨hm, ho, hp⟩ : (s.chan ck).atMarker = false ∧ 0 < (s.chan ck).onchip ∧ _ :=
        (hd.resolve_left (by simp [hl])).resolve_left (by simp [hv])
      obtain ⟨f, hf⟩ := Option.ne_none_iff_exists'.mp hp
      simp only [hm, hf, if_pos ho]
      exact ⟨_, asyncTo_region .., rfl⟩

/-- The stream of a map ends with an end-of-stream token, where the binding asks for one (R403). -/
theorem streamIn_of_end (h : PortBound s rk j b) (hc : b.chan = none) (ht : b.total ≤ b.pos) (he : b.eos = true) :
    s.streamIn rk j = (s.sendRoute rk ((s.region rk).inRoute j) ⟨0, 0, true⟩).endIn rk j b := by
  simp only [State.streamIn, h.opens.passes, h.bound, h.no_pending, ite_self, hc, he, if_pos (show b.pos ≥ b.total from ht),
    Bool.false_eq_true, if_false, if_true]

/-- A token of a map, not the last, is read and goes out (R401). -/
theorem streamIn_of_read {l : List (List Byte)} {u : State} (h : PortBound s rk j b) (hc : b.chan = none)
    (hr : ((tokAddrs b.tm b.pos).mapM (fun a =>
      mReadPiece (rk / 4) b.who.part ((copyRead b.who.sup).by b.who) .engine a (tmEsz b.tm))) s = .ok l u)
    (hn : b.pos + 1 < b.total) :
    s.streamIn rk j = (u.sendRoute rk ((s.region rk).inRoute j) ⟨w64 (leNat l.flatten), 0, false⟩).updRegion rk fun r =>
      { r with sin := r.sin.put j { b with pos := b.pos + 1 } } := by
  have hpos : ¬b.pos ≥ b.total := by omega
  have hlast : (decide (b.pos + 1 = b.total) && !b.eos) = false := by rw [decide_eq_false (by omega), Bool.false_and]
  simp only [State.streamIn, h.opens.passes, h.bound, h.no_pending, ite_self, hc, hr, if_neg hpos, hlast, Bool.false_eq_true, if_false]

/-- A token that is sent stands at the end of its region's flights. -/
@[simp] theorem sendRoute_region_same (s : State) (rk w : Nat) (t : Tok) : (s.sendRoute rk w t).region rk =
    { s.region rk with flights := (s.region rk).flights ++ [⟨rtKind w, rtDest w, rtDin w, rtDelay w, t⟩] } :=
  updRegion_region_same ..

@[simp] theorem endIn_region_same (s : State) (rk j : Nat) (b : StreamIn) :
    (s.endIn rk j b).region rk = { s.region rk with sin := (s.region rk).sin.del j } :=
  (completeTo_region ..).trans (updRegion_region_same ..)

end StreamIn

/-! ### A stream-out port (R402, R404, R405, R426) -/

theorem OnlyTells.completeTo (s : State) (w : Who) : OnlyTells s (s.completeTo w) := by
  unfold State.completeTo
  split
  · exact of_deliversAt (DeliversAt.complete ..)
  · exact refl s

section StreamOut

variable {s : State} {x y z rk j : Nat} {v : W64} {d : List Byte} {tok : Tok} {rest : List Tok} {b : StreamOut}

theorem exec_streamOutToken (hf : s.focus = .ev x y z v d) :
    exec .streamOutToken s = .next (endStep s (s.streamOut (4 * x + y) z)) := by
  change execStreamOutToken s = _
  simp only [execStreamOutToken, run, hf]

/-- The region once the first of the tokens at stream-out port `j` is taken from there. -/
def Region.tokenTaken (r : Region) (j : Nat) (rest : List Tok) : Region := { r with sobuf := r.sobuf.put j rest }

theorem tokenTaken_sobuf (r : Region) (j : Nat) (rest : List Tok) : (r.tokenTaken j rest).sobuf.getD [] j = rest :=
  (map_getD_put ..).trans (if_pos rfl)

/-- The state once the first token at the port is taken and its binding is gone. -/
def State.outEnded (s : State) (rk j : Nat) (rest : List Tok) : State :=
  (s.updRegion rk fun r => r.tokenTaken j rest).updRegion rk fun r => { r with sout := r.sout.del j }

@[simp] theorem outEnded_region_same (s : State) (rk j : Nat) (rest : List Tok) : (s.outEnded rk j rest).region rk =
    { (s.region rk).tokenTaken j rest with sout := (s.region rk).sout.del j } := by
  rw [State.outEnded, updRegion_region_same, updRegion_region_same]
  rfl

section Taken

variable (hq : (s.region rk).sobuf.getD [] j = tok :: rest) (hp : tok.permit = false)

include hq hp

/-- Without a binding a token of data waits. -/
theorem streamOut_of_unbound (hb : (s.region rk).sout.get? j = none) (he : tok.eos = false) : s.streamOut rk j = s := by
  simp only [State.streamOut, hq, hp, hb, he, Bool.false_eq_true, if_false]

/-- The end of the stream ends the binding; with no barrier attached, or while the region drains, no barrier counts (R404,
R405). -/
theorem streamOut_of_end (hb : (s.region rk).sout.get? j = some b) (he : tok.eos = true)
    (hs : (s.region rk).sbar.get? j = none ∨ (s.region rk).draining = true) :
    (s.streamOut rk j).region rk = { (s.region rk).tokenTaken j rest with sout := (s.region rk).sout.del j } ∧
      ∀ k, (s.streamOut rk j).bar k = s.bar k := by
  cases hd : (s.region rk).draining with
  | true =>
    have hstep : s.streamOut rk j = (s.outEnded rk j rest).abandonTo b.who := by
      simp only [State.streamOut, hq, hp, hb, he, hd, Bool.false_eq_true, if_false, if_true]
      rfl
    rw [hstep, abandonTo_region, outEnded_region_same]
    exact ⟨rfl, (OnlyTells.abandonTo ..).bar⟩
  | false =>
    have hbar : (s.region rk).sbar.get? j = none := hs.resolve_right (by simp [hd])
    have hbare : ((s.outEnded rk j rest).region rk).sbar.get? j = none := by simpa [Region.tokenTaken] using hbar
    have harrive : (s.outEnded rk j rest).sbarArrive rk j 0 (8 * b.pos) = s.outEnded rk j rest := by
      simp only [State.sbarArrive, hbare]
    have hlater : (s.outEnded rk j rest).sbarLater rk j (some b.who) = (s.outEnded rk j rest).completeTo b.who := by
      simp only [State.sbarLater, hbare, Option.isSome_none, Bool.false_eq_true, if_false]
    have hstep : s.streamOut rk j = (s.outEnded rk j rest).completeTo b.who := by
      simp only [State.streamOut, hq, hp, hb, he, hd, Bool.false_eq_true, if_false, if_true]
      exact (congrArg (fun u : State => u.sbarLater rk j (some b.who)) harrive).trans hlater
    rw [hstep, completeTo_region, outEnded_region_same]
    exact ⟨rfl, (OnlyTells.completeTo ..).bar⟩

/-- A token of data is written at the binding's next place (R402). -/
theorem streamOut_of_data {u : State} (hb : (s.region rk).sout.get? j = some b) (he : tok.eos = false)
    (hn : b.pos < b.total) (hw : soWrite (rk / 4) b tok.data s = .ok () u) :
    s.streamOut rk j = (u.updRegion rk fun r => r.tokenTaken j rest).updRegion rk fun r =>
      { r with sout := r.sout.put j { b with pos := b.pos + 1 } } := by
  simp only [State.streamOut, hq, hp, hb, he, hw, if_neg (show ¬b.pos ≥ b.total by omega), Bool.false_eq_true, if_false]
  rfl

end Taken

/-! ### Permit tokens (R426) -/

/-- A permit token that the station takes. -/
def State.permitTaken (s : State) (t rk j num : Nat) (rest : List Tok) : State :=
  (s.updRegion rk fun r => r.tokenTaken j rest).permitFree t num

theorem exec_permitTokenArrival (hf : s.focus = .ev x y z v d) (hq : (s.region (4 * x + y)).sobuf.getD [] z = tok :: rest)
    (hp : tok.permit = true) (hn : s.permit x tok.data.toNat = none) : exec .permitTokenArrival s = .next (endStep s
      (if (s.tile x).permits.length < 16 then s.permitTaken x (4 * x + y) z tok.data.toNat rest else s)) := by
  change execPermitTokenArrival s = _
  simp only [execPermitTokenArrival, run, hf, hq, hp, hn, Bool.true_and, Option.isSome_none, Bool.false_or,
    decide_eq_true_eq]
  rfl

/-- A permit that nobody waits for and that the station does not list stands there, free. -/
theorem permitTaken_of_new {t num : Nat} (hw : s.waits = []) (hn : s.permit t num = none) :
    s.permitTaken t rk j num rest = (s.updRegion rk fun r => r.tokenTaken j rest).updTile t fun x =>
      { x with permits := x.permits ++ [⟨num, none⟩] } := by
  have hany : (s.tile t).permits.any (fun q => q.num = num) = false := by
    simpa [State.permit] using hn
  have hwait : (s.updRegion rk fun r => r.tokenTaken j rest).waits = [] := hw
  have htile : (s.updRegion rk fun r => r.tokenTaken j rest).tile t = s.tile t := rfl
  simp only [State.permitTaken, State.permitFree, State.setPermit, hwait, List.find?_nil]
  simp only [State.updTile, htile, hany, Bool.false_eq_true, if_false]

end StreamOut

/-! ### The obligation -/

/-- Settles O52: an open stream-in port by what is bound there, a stream-out port by the token that has come. -/
theorem streamEvents : Obligations.StreamEvents := by
  intro s x y z v d hf hy
  have hin := exec_streamInDeliver hf
  have hout := exec_streamOutToken hf
  have hpermit := fun tok rest => exec_permitTokenArrival (tok := tok) (rest := rest) hf
  have htile : (4 * x + y) / 4 = x := by omega
  generalize 4 * x + y = rk at hin hout hpermit htile ⊢
  subst htile
  refine ⟨fun hd => ⟨_, hin, by rw [streamIn_of_draining hd]⟩, ?bound, ?pending, ?out, ?permit⟩
  case bound =>
    intro hd hv hs hfirst b hb
    have h : PortBound s rk z b := ⟨⟨hd, hv, hs⟩, hfirst, hb⟩
    refine ⟨fun ck hc hl hv hm ho hp => ⟨_, hin, ?element⟩, fun ck hc hd => ⟨_, hin, ?dead⟩,
      fun hc ht he => ⟨_, hin, ?ended⟩, fun hc _ l u hr hn => ⟨_, hin, ?read⟩⟩
    case element =>
      rw [streamIn_of_element h hc hl hv hm ho hp]
      simp [hb]
    case dead =>
      obtain ⟨u, hu, hstep⟩ := streamIn_of_dead h hc hd
      rw [hstep]
      simp [hu, map_get_del]
    case ended =>
      rw [streamIn_of_end h hc ht he]
      simp [map_get_del]
    case read =>
      have hu : u.region rk = s.region rk := region_of_regions ((Accesses.mapM (fun _ => .mReadPiece ..) _).ok hr).regions rk
      rw [streamIn_of_read h hc hr hn]
      simp [hu, map_get_put]
  case pending =>
    intro hd hv hs p l n hl hp hn hb
    refine ⟨_, hin, ?_⟩
    rw [streamIn_of_pending ⟨hd, hv, hs⟩ hl hp hn hb]
    simp
  case out =>
    intro tok rest hq hp
    refine ⟨fun hb he => ⟨_, hout, ?unbound⟩, fun b hb he hs => ⟨_, hout, ?ended⟩,
      fun b u hb he hn hw => ⟨_, hout, ?data⟩⟩
    case unbound => rw [streamOut_of_unbound hq hp hb he, endStep_region]
    case ended =>
      obtain ⟨hregion, hbar⟩ := streamOut_of_end hq hp hb he hs
      simp only [endStep_region, hregion]
      exact ⟨tokenTaken_sobuf .., (map_get_del ..).trans (if_pos rfl), hbar⟩
    case data =>
      rw [streamOut_of_data hq hp hb he hn hw]
      exact ⟨by simp [tokenTaken_sobuf], by simp [map_get_put], rfl⟩
  case permit =>
    intro tok rest hq hp
    refine ⟨fun hn hfull => ⟨_, hpermit tok rest hq hp hn, ?full⟩, fun hn hroom hw => ⟨_, hpermit tok rest hq hp hn, ?taken⟩⟩
    case full =>
      rw [if_neg (by omega)]
      exact ⟨rfl, rfl⟩
    case taken =>
      rw [if_pos hroom, permitTaken_of_new hw hn]
      simp [tokenTaken_sobuf, State.updTile, State.updRegion]

end Sys2Proof.Machine

/-! ## The mailbox (O48) -/

namespace Sys2Proof.Machine

@[simp] theorem endStep_mbox (s u : State) : (endStep s u).mbox = u.mbox := rfl

/-! ### Host reads (R263, R264, R268) -/

section HostReads

variable {s : State} {off m i : Nat}

theorem hostRead_getD (h : i < m) : (s.hostRead off m).getD i 0 = s.mbox.getByte (off + i) := by
  simp [State.hostRead, List.getD_eq_getElem?_getD, h]

/-- Between the registers and the data window, and beyond it, BAR0 reads 0. -/
theorem getByte_unmapped {x : Nat} (m : Mailbox) (h : 0x28 ≤ x ∧ x < 0x10000 ∨ 0x20000 ≤ x) : m.getByte x = 0 := by
  have hwin : (decide (0x10000 ≤ x) && decide (x < 0x20000)) = false := by simp; omega
  simp only [Mailbox.getByte, hwin, if_neg (show ¬x < 8 by omega), if_neg (show ¬x < 16 by omega),
    if_neg (show ¬x < 24 by omega), if_neg (show ¬x < 32 by omega), if_neg (show ¬x < 40 by omega), Bool.false_eq_true, if_false]

theorem getByte_data {x : Nat} (m : Mailbox) (h : 0x10000 ≤ x) (hx : x < 0x20000) :
    m.getByte x = m.data.getD 0 (x - 0x10000) := by
  have hwin : (decide (0x10000 ≤ x) && decide (x < 0x20000)) = true := by simp [h, hx]
  simp only [Mailbox.getByte, hwin, if_neg (show ¬x < 8 by omega), if_neg (show ¬x < 16 by omega),
    if_neg (show ¬x < 24 by omega), if_neg (show ¬x < 32 by omega), if_neg (show ¬x < 40 by omega), if_true]

/-- A read of eight bytes of which each is that byte of a word. -/
theorem hostRead_word {w : W64} (h : ∀ i < 8, s.mbox.getByte (off + i) = (leBytes 8 w.toNat).getD i 0) :
    s.hostRead off 8 = leBytes 8 w.toNat := by
  refine List.ext_getElem (by simp [State.hostRead]) fun i hi hi' => ?_
  have hi8 : i < 8 := by simpa using hi'
  simp [State.hostRead, h i hi8, hi8]

theorem hostRead_cmd : s.hostRead 0 8 = leBytes 8 s.mbox.cmd.toNat :=
  hostRead_word fun i hi => by rw [Nat.zero_add, Mailbox.getByte, if_pos hi]

theorem hostRead_stat : s.hostRead 32 8 = leBytes 8 s.mbox.stat.toNat :=
  hostRead_word fun i hi => by
    rw [Mailbox.getByte, if_neg (by omega), if_neg (by omega), if_neg (by omega), if_neg (by omega), if_pos (by omega),
      Nat.add_sub_cancel_left]

end HostReads

/-! ### Bytes written to the registers and the data window (R264) -/

section Bytes

/-- Bits replaced one field after the other are the bits of both fields replaced. -/
theorem setBits_setBits (w lo n k a b : Nat) :
    setBits (setBits w lo n a) (lo + n) k b = setBits w lo (n + k) (a % 2 ^ n + 2 ^ n * b) := by
  have hlow : setBits w lo n a % 2 ^ (lo + n) = w % 2 ^ lo + 2 ^ lo * (a % 2 ^ n) := by
    rw [setBits_split, Nat.pow_add, Nat.mod_mul, Nat.add_mul_mod_self_left, Nat.mod_mod,
      Nat.add_mul_div_left _ _ (Nat.two_pow_pos lo), Nat.div_eq_of_lt (Nat.mod_lt _ (Nat.two_pow_pos lo)), Nat.zero_add,
      Nat.add_mul_mod_self_left, Nat.mod_mod]
  have hhigh : setBits w lo n a / 2 ^ (lo + n + k) = w / 2 ^ (lo + n + k) := by
    rw [Nat.pow_add _ (lo + n), ← Nat.div_div_eq_div_mul, setBits_div_above, Nat.div_div_eq_div_mul]
  have hfield : (a % 2 ^ n + 2 ^ n * b) % 2 ^ (n + k) = a % 2 ^ n + 2 ^ n * (b % 2 ^ k) := by
    rw [Nat.pow_add, Nat.mod_mul, Nat.add_mul_mod_self_left, Nat.mod_mod, Nat.add_mul_div_left _ _ (Nat.two_pow_pos n),
      Nat.div_eq_of_lt (Nat.mod_lt _ (Nat.two_pow_pos n)), Nat.zero_add]
  rw [setBits_split (setBits w lo n a), hlow, hhigh, setBits_split w lo (n + k), hfield, ← Nat.add_assoc lo]
  generalize w / 2 ^ (lo + n + k) = q
  rw [Nat.pow_add, Nat.pow_add]
  ring

theorem setBits_none (w lo v : Nat) : setBits w lo 0 v = w := by simp [setBits, bitsOf, Nat.mod_one]

theorem toNat_leNat {l : List Byte} (h : l.length ≤ 8) : (w64 (leNat l)).toNat = leNat l := by
  have hlt : leNat l < 2 ^ 64 := Nat.lt_of_lt_of_le (leNat_lt l) (Nat.pow_le_pow_right (n := 256) (by decide) h)
  rw [w64_toNat, Nat.mod_eq_of_lt hlt]

/-- A byte replaced and then the bytes above it are all of them replaced at once. -/
theorem splice_cons {o : Nat} (w : W64) (b : Byte) (l : List Byte) (h : o + (l.length + 1) ≤ 8) :
    splice (splice w o 1 (b.zeroExtend 64)) (o + 1) l.length (w64 (leNat l)) =
      splice w o (l.length + 1) (w64 (leNat (b :: l))) := by
  have hb : (b.zeroExtend 64).toNat = b.toNat := by
    have := b.isLt
    simp
    omega
  have hin : setBits w.toNat (8 * o) (8 * 1) b.toNat < 2 ^ 64 := setBits_lt w.isLt (by omega)
  have hmod : b.toNat % 2 ^ (8 * 1) = b.toNat := Nat.mod_eq_of_lt b.isLt
  have hlist : (w64 (leNat (b :: l))).toNat = b.toNat + 2 ^ (8 * 1) * leNat l :=
    toNat_leNat (by rw [List.length_cons]; omega)
  rw [splice, splice, splice, toNat_leNat (by omega), w64_toNat, hb, hlist, Nat.mod_eq_of_lt hin,
    show 8 * (o + 1) = 8 * o + 8 * 1 by omega, setBits_setBits, hmod, show 8 * (l.length + 1) = 8 * 1 + 8 * l.length by omega]

/-- The bytes of a host write, put in one after the other. -/
def Mailbox.putBytes (m : Mailbox) (off : Nat) (l : List Byte) : Mailbox :=
  l.zipIdx.foldl (fun m p => m.putByte (off + p.2) p.1) m

/-- A register of the mailbox: where it stands, how it is read and how it is written. -/
structure MbReg (o : Nat) (get : Mailbox → W64) (set : Mailbox → W64 → Mailbox) : Prop where
  put : ∀ m i b, i < 8 → m.putByte (o + i) b = set m (splice (get m) i 1 (b.zeroExtend 64))
  get_set : ∀ m w, get (set m w) = w
  set_set : ∀ m v w, set (set m v) w = set m w
  set_get : ∀ m, set m (get m) = m

variable {o : Nat} {get : Mailbox → W64} {set : Mailbox → W64 → Mailbox}

theorem MbReg.put_from (h : MbReg o get set) : ∀ (l : List Byte) (k : Nat) (m : Mailbox), k + l.length ≤ 8 →
    (l.zipIdx k).foldl (fun m p => m.putByte (o + p.2) p.1) m = set m (splice (get m) k l.length (w64 (leNat l)))
  | [], k, m, _ => by
    have hnone : splice (get m) k 0 (w64 (leNat [])) = get m := by
      rw [splice, Nat.mul_zero, setBits_none, w64_of_toNat]
    rw [List.length_nil, hnone, h.set_get]
    rfl
  | b :: l, k, m, hk => by
    rw [List.length_cons] at hk
    rw [List.zipIdx_cons, List.foldl_cons, h.put_from l _ _ (by omega), h.put m k b (by omega), h.get_set, h.set_set,
      splice_cons _ _ _ hk, List.length_cons]

/-- Eight bytes are a register's new word. -/
theorem MbReg.putBytes (h : MbReg o get set) (m : Mailbox) {d : List Byte} (hd : d.length = 8) :
    m.putBytes o d = set m (w64 (leNat d)) := by
  rw [Mailbox.putBytes, h.put_from d 0 m (by omega), hd, splice_whole]

theorem mbReg_cmd : MbReg 0 Mailbox.cmd (fun m w => { m with cmd := w }) where
  put m i b h := by simp [Mailbox.putByte, h]
  get_set _ _ := rfl
  set_set _ _ _ := rfl
  set_get _ := rfl

theorem mbReg_addr : MbReg 8 Mailbox.addr (fun m w => { m with addr := w }) where
  put m i b h := by
    rw [Mailbox.putByte, if_neg (by omega), if_pos (by omega), Nat.add_sub_cancel_left]
  get_set _ _ := rfl
  set_set _ _ _ := rfl
  set_get _ := rfl

theorem mbReg_len : MbReg 16 Mailbox.len (fun m w => { m with len := w }) where
  put m i b h := by
    rw [Mailbox.putByte, if_neg (by omega), if_neg (by omega), if_pos (by omega), Nat.add_sub_cancel_left]
  get_set _ _ := rfl
  set_set _ _ _ := rfl
  set_get _ := rfl

theorem mbReg_arg : MbReg 24 Mailbox.arg (fun m w => { m with arg := w }) where
  put m i b h := by
    rw [Mailbox.putByte, if_neg (by omega), if_neg (by omega), if_neg (by omega), if_pos (by omega),
      Nat.add_sub_cancel_left]
  get_set _ _ := rfl
  set_set _ _ _ := rfl
  set_get _ := rfl

theorem putByte_data {x : Nat} (m : Mailbox) (b : Byte) (h : 0x10000 ≤ x) (hx : x < 0x20000) :
    m.putByte x b = { m with data := m.data.put (x - 0x10000) b } := by
  have hwin : (decide (0x10000 ≤ x) && decide (x < 0x20000)) = true := by simp [h, hx]
  simp only [Mailbox.putByte, hwin, if_neg (show ¬x < 8 by omega), if_neg (show ¬x < 16 by omega),
    if_neg (show ¬x < 24 by omega), if_neg (show ¬x < 32 by omega), if_true]

theorem putBytes_data_from {x : Nat} (hx : 0x10000 ≤ x) (i : Nat) (l : List Byte) (k : Nat) (m : Mailbox)
    (hk : x + k + l.length ≤ 0x20000) :
    ((l.zipIdx k).foldl (fun m p => m.putByte (x + p.2) p.1) m).data.getD 0 i =
      if x - 0x10000 + k ≤ i ∧ i < x - 0x10000 + k + l.length then l.getD (i - (x - 0x10000 + k)) 0 else m.data.getD 0 i := by
  induction l generalizing k m with
  | nil =>
    rw [if_neg (by rw [List.length_nil]; omega)]
    rfl
  | cons b l ih =>
    rw [List.length_cons] at hk
    rw [List.zipIdx_cons, List.foldl_cons, ih _ _ (by omega), putByte_data m b (show 0x10000 ≤ x + k by omega) (by omega),
      List.length_cons, map_getD_put]
    by_cases hi : x - 0x10000 + k = i
    · rw [if_neg (by omega), if_pos (by omega), if_pos (by omega), show i - (x - 0x10000 + k) = 0 by omega,
        List.getD_cons_zero]
    · by_cases hr : x - 0x10000 + k < i ∧ i < x - 0x10000 + k + (l.length + 1)
      · rw [if_pos (by omega), if_pos (by omega),
          show i - (x - 0x10000 + k) = i - (x - 0x10000 + (k + 1)) + 1 by omega, List.getD_cons_succ]
      · rw [if_neg (by omega), if_neg (by omega), if_neg (by omega)]

/-- Bytes written in the data window stand there, and the others as before. -/
theorem putBytes_data (m : Mailbox) {x : Nat} {d : List Byte} (hx : 0x10000 ≤ x) (hd : x + d.length ≤ 0x20000) (i : Nat) :
    (m.putBytes x d).data.getD 0 i =
      if x - 0x10000 ≤ i ∧ i < x - 0x10000 + d.length then d.getD (i - (x - 0x10000)) 0 else m.data.getD 0 i := by
  rw [Mailbox.putBytes, putBytes_data_from hx i d 0 m hd, Nat.add_zero]

end Bytes

/-! ### Host writes in their order (R264) -/

section Writes

variable {s : State} {x y z : Nat} {v : W64} {d : List Byte}

theorem exec_mailboxRegisterWrite (hf : s.focus = .ev x y z v d) :
    exec .mailboxRegisterWrite s = .next (endStep s (mbWrites [(x, d)] s)) := by
  change execMailboxRegisterWrite s = _
  simp only [execMailboxRegisterWrite, run, hf]

/-- While a command runs, a write is held back. -/
theorem mbWrites_of_busy (h : s.mbBusy = true) :
    mbWrites [(x, d)] s = s.mb fun m => { m with queue := m.queue ++ [(x, d)] } := by
  rw [mbWrites, if_pos h]

/-- A write elsewhere than at MBCMD puts its bytes in. -/
theorem mbWrites_of_idle (h : s.mbBusy = false) (hx : 8 ≤ x) : mbWrites [(x, d)] s = s.mb fun m => m.putBytes x d := by
  have hcmd : (decide (x < 8) && !d.isEmpty) = false := by simp; omega
  simp only [mbWrites, h, hcmd, Bool.false_eq_true, if_false]
  rfl

/-- What follows a write of MBCMD, by the command that stands there: its step is the next, or its result is there at once. -/
def State.commandWritten (s : State) : State :=
  match mbCommand s.mbox.op s.mbox.tbl with
  | .ok i => { s.mb fun m => { m with stat := 0x8000000000000000 } with agenda := Act.event i 0 0 0 0 [] :: s.agenda }
  | .error c => s.mb fun m => { m with stat := w64 c, msix := m.msix + 1 }

/-- A write of MBCMD is a command: one that no step runs has its result at once, another's step is the next to be taken. -/
theorem mbWrites_cmd (h : s.mbBusy = false) (hd : d.length = 8) : mbWrites [(0, d)] s =
    match mbCommand (leNat d % 256) (leNat d / 256 % 256) with
    | .ok i => { s.mb fun m => { m with cmd := w64 (leNat d), stat := 0x8000000000000000 } with
        agenda := Act.event i 0 0 0 0 [] :: s.agenda }
    | .error c => s.mb fun m => { m with cmd := w64 (leNat d), stat := w64 c, msix := m.msix + 1 } := by
  have hput : (s.mb fun m => m.putBytes 0 d) = s.mb fun m => { m with cmd := w64 (leNat d) } := by
    rw [State.mb, mbReg_cmd.putBytes _ hd]
    rfl
  have hop : Mailbox.op { s.mbox with cmd := w64 (leNat d) } = leNat d % 256 :=
    (congrArg (bitsOf · 0 8) (toNat_leNat (by omega))).trans (bitsOf_low ..)
  have htbl : Mailbox.tbl { s.mbox with cmd := w64 (leNat d) } = leNat d / 256 % 256 :=
    congrArg (bitsOf · 8 8) (toNat_leNat (by omega))
  have hne : d.isEmpty = false := by cases d <;> simp_all
  have hstep : mbWrites [(0, d)] s = (s.mb fun m => m.putBytes 0 d).commandWritten := by
    simp only [mbWrites, h, hne, Bool.false_eq_true, if_false]
    rfl
  rw [hstep, hput, ← hop, ← htbl]
  rfl

end Writes

/-! ### A command that runs (R264, R265) -/

/-- A command in the mailbox that runs, with no host write held back. -/
structure Commanded (s : State) (op : Nat) (tbl : Option Nat) : Prop where
  busy : s.mbBusy = true
  op : s.mbox.op = op
  tbl : ∀ t ∈ tbl, s.mbox.tbl = t
  idle : s.mbox.queue = []

theorem commanded_of_runs {s : State} {op : Nat} (h : s.mbBusy = true ∧ s.mbox.op = op ∧ s.mbox.queue = []) :
    Commanded s op none := by
  obtain ⟨hbusy, hop, hidle⟩ := h
  exact ⟨hbusy, hop, nofun, hidle⟩

theorem commanded_of_table {s : State} {op tbl : Nat}
    (h : s.mbBusy = true ∧ s.mbox.op = op ∧ s.mbox.tbl = tbl ∧ s.mbox.queue = []) : Commanded s op (some tbl) := by
  obtain ⟨hbusy, hop, htbl, hidle⟩ := h
  exact ⟨hbusy, hop, fun t ht => htbl.trans (Option.some.inj ht), hidle⟩

/-- The end of a command: its result stands in MBSTAT, and MSI-X is raised. -/
def State.mbEnded (s : State) (c : Nat) : State :=
  s.mb fun m => { m with stat := w64 c, msix := m.msix + 1, queue := [] }

@[simp] theorem mbEnded_queueE (s : State) (c k : Nat) : (s.mbEnded c).queueE k = s.queueE k := rfl

/-- Only the data window of the mailbox changes. -/
def WindowOnly (s u : State) : Prop := u.mbox = { s.mbox with data := u.mbox.data }

theorem windowOnly_of_same {s u : State} (h : u.mbox = s.mbox) : WindowOnly s u := by rw [WindowOnly, h]

section Commands

variable {s u : State} {op c : Nat} {tbl : Option Nat} {body : State → Nat × State}

/-- A running command does its work and ends. -/
theorem run_mbStep (h : Commanded s op tbl) (hb : body s = (c, u)) (hw : WindowOnly s u) :
    run (mbStep op tbl body) s = .next (endStep s (u.mbEnded c)) := by
  have hq : u.mbox.queue = [] := by rw [hw]; exact h.idle
  have hmine : (decide (s.mbox.op = op) && (tbl.map (fun t => decide (s.mbox.tbl = t))).getD true) = true := by
    have ht := h.tbl
    cases tbl with
    | none => simp [h.op]
    | some t => simp [h.op, ht t rfl]
  simp only [run, mbStep, h.busy, hmine, hb, if_true, State.mbFinish, hq]
  rfl

/-- What the host sees of a command that ended. -/
theorem mbEnded_done (hw : WindowOnly s u) (c : Nat) :
    (endStep s (u.mbEnded c)).mbox.stat = w64 c ∧ (endStep s (u.mbEnded c)).mbox.msix = s.mbox.msix + 1 := by
  refine ⟨rfl, ?_⟩
  change u.mbox.msix + 1 = _
  rw [hw]

/-- A running command, its result, and what holds of the state it leaves. -/
theorem command_ends {P : State → Prop} (h : Commanded s op tbl) (hb : body s = (c, u)) (hw : WindowOnly s u)
    (hp : P (endStep s (u.mbEnded c))) : ∃ t, run (mbStep op tbl body) s = .next t ∧
      (t.mbox.stat = w64 c ∧ t.mbox.msix = s.mbox.msix + 1) ∧ P t :=
  ⟨_, run_mbStep h hb hw, mbEnded_done hw c, hp⟩

end Commands

/-! ### The data window -/

section Window

variable {s : State} {i : Nat}

theorem map_getD_zipIdx (bs : List Byte) (k : Nat) (r : Map Byte) (h : i < bs.length) :
    Map.getD 0 ((bs.zipIdx k).map (fun p => (p.2, p.1)) ++ r) (k + i) = bs.getD i 0 := by
  induction bs generalizing k i with
  | nil => exact absurd h (Nat.not_lt_zero i)
  | cons b bs ih =>
    rw [List.zipIdx_cons, List.map_cons, List.cons_append, Map.getD]
    cases i with
    | zero => exact if_pos rfl
    | succ i =>
      rw [if_neg (by omega), List.getD_cons_succ, ← ih (k + 1) (Nat.lt_of_succ_lt_succ h), Nat.add_right_comm]
      rfl

/-- Bytes filled in from the window's start stand there. -/
theorem mbFill_data (bs : List Byte) (h : i < bs.length) : (s.mbFill bs).mbox.data.getD 0 i = bs.getD i 0 := by
  have hget := map_getD_zipIdx bs 0 (s.mbox.data.filter fun p => p.1 ≥ bs.length) h
  rwa [Nat.zero_add] at hget

theorem mbFill_window (bs : List Byte) : WindowOnly s (s.mbFill bs) := rfl

/-- Blocks of eight bytes, one after the other. -/
theorem flatMap_getD_of_eight {α : Type} {f : α → List Byte} (d : α) : ∀ (l : List α) (i : Nat), (∀ x ∈ l, (f x).length = 8) →
    i < l.length → ∀ k < 8, (l.flatMap f).getD (8 * i + k) 0 = (f (l.getD i d)).getD k 0
  | x :: l, 0, hf, _, k, hk => by
    have hx := hf x List.mem_cons_self
    rw [List.flatMap_cons, Nat.mul_zero, Nat.zero_add, List.getD_append _ _ _ _ (by omega), List.getD_cons_zero]
  | x :: l, i + 1, hf, hi, k, hk => by
    have hx := hf x List.mem_cons_self
    rw [List.flatMap_cons, List.getD_append_right _ _ _ _ (by omega), hx, show 8 * (i + 1) + k - 8 = 8 * i + k by omega,
      List.getD_cons_succ]
    exact flatMap_getD_of_eight d l i (fun y hy => hf y (List.mem_cons_of_mem x hy)) (Nat.lt_of_succ_lt_succ hi) k hk

theorem flatMap_length_of_eight {α : Type} {f : α → List Byte} {l : List α} (h : ∀ x ∈ l, (f x).length = 8) :
    (l.flatMap f).length = 8 * l.length := by
  rw [List.length_flatMap, List.map_congr_left h, List.map_const', List.sum_replicate, smul_eq_mul, Nat.mul_comm]

/-- A word of the window is the number of its eight bytes. -/
theorem mbWord_of_bytes {w : W64} (h : ∀ k < 8, s.mbox.data.getD 0 (8 * i + k) = (leBytes 8 w.toNat).getD k 0) :
    s.mbWord i = w := by
  have hb : s.mbBytes (8 * i) 8 = leBytes 8 w.toNat := by
    refine List.ext_getElem (by simp [State.mbBytes]) fun k hk hk' => ?_
    have hk8 : k < 8 := by simpa using hk'
    have hget := h k hk8
    rw [List.getD_eq_getElem _ _ hk'] at hget
    simpa [State.mbBytes] using hget
  rw [State.mbWord, hb, leNat_leBytes]
  exact (congrArg w64 (Nat.mod_eq_of_lt w.isLt)).trans (w64_of_toNat w)

/-- Words filled in from the window's start stand there. -/
theorem mbWord_mbFill (l : List W64) (h : i < l.length) : (s.mbFill (wordBytes l)).mbWord i = l.getD i 0 := by
  have hlen : ∀ w ∈ l, (leBytes 8 (w : W64).toNat).length = 8 := fun _ _ => leBytes_length ..
  refine mbWord_of_bytes fun k hk => ?_
  rw [mbFill_data _ (by rw [wordBytes, flatMap_length_of_eight hlen]; omega), wordBytes,
    flatMap_getD_of_eight 0 l i hlen h k hk]

end Window

/-! ### Reading memory (R265) -/

section Read

variable {s u : State} {pa n : Nat}

/-- The words of MREAD's range that lie in the slow tier. -/
def State.slowWords (s : State) : List Nat :=
  (List.range (s.mbox.len.toNat / 8)).filter fun i => slowRange (s.mbox.addr.toNat + 8 * i)

/-- What lies in the slow tier is metered first (R258). -/
def State.readMetered (s : State) : State :=
  if s.slowWords.isEmpty then s else s.meterSlow 8 (8 * s.slowWords.length)

/-- Word `i` of a range at `a`, read after others. -/
def readWord (a : Nat) (st : List Byte × State) (i : Nat) : List Byte × State :=
  if st.2.lineBad (a + 8 * i) then (st.1 ++ leBytes 8 st.2.drawWord.1.toNat, st.2.drawWord.2)
  else (st.1 ++ (st.2.peek (a + 8 * i) 8).1, (st.2.peek (a + 8 * i) 8).2)

theorem mbReadBytes_eq (s : State) : s.mbReadBytes =
    (List.range (s.mbox.len.toNat / 8)).foldl (readWord s.mbox.addr.toNat) ([], s.readMetered) := by
  have hbox : s.readMetered.mbox = s.mbox := by
    unfold State.readMetered
    split <;> rfl
  have hfold : s.mbReadBytes =
      (List.range (s.readMetered.mbox.len.toNat / 8)).foldl (readWord s.mbox.addr.toNat) ([], s.readMetered) := rfl
  rw [hfold, hbox]

theorem readMetered_access (s : State) : OnlyAccess s s.readMetered := by
  unfold State.readMetered
  split
  · exact .refl s
  · exact .meterSlow ..

theorem mbReadBytes_access (s : State) : OnlyAccess s s.mbReadBytes.2 := by
  rw [mbReadBytes_eq]
  refine List.foldlRecOn _ (readWord s.mbox.addr.toNat) (motive := fun x : List Byte × State => OnlyAccess s x.2)
    (readMetered_access s) fun x hx i _ => ?_
  unfold readWord
  split
  · exact hx.trans (.of_bare rfl rfl)
  · exact hx.trans (.peek ..)

theorem OnlyAccess.mbox (h : OnlyAccess s u) : u.mbox = s.mbox :=
  have hb := congrArg State.mbox h.bare
  hb

theorem OnlyAccess.fwStaged (h : OnlyAccess s u) : u.fwStaged = s.fwStaged :=
  have hb := congrArg State.fwStaged h.bare
  hb

theorem winLoads_length (t : Nat) : ∀ (k off : Nat) (s : State), (s.winLoads t off k).1.length = 8 * k
  | 0, _, _ => rfl
  | k + 1, off, s => by
    rw [State.winLoads]
    dsimp only
    rw [List.length_append, leBytes_length, winLoads_length t k, Nat.mul_succ, Nat.add_comm]

/-- A read of memory answers as many bytes as it asks for. -/
theorem peek_length (s : State) (pa n : Nat) : (s.peek pa n).1.length = n := by
  unfold State.peek
  split
  · split
    · simp [State.bytes]
    · dsimp only
      rw [List.length_take, List.length_drop, winLoads_length]
      omega
  · simp [State.bytes]

/-- What is no register window is read as its bytes stand, whatever waits at the slow tier. -/
theorem peek_of_no_window (h : ∀ t off, s.paKind pa ≠ .window t off) : s.peek pa n = (s.bytes pa n, s) := by
  unfold State.peek
  split
  next t off hk => exact absurd hk (h t off)
  next => rfl

/-- No register window stands within 64 KiB of the slow tier (R121, R122). -/
theorem no_window_near_slow {a i j : Nat} (hi : slowRange (a + 8 * i) = true) (hin : i < 8192) (hj : j < 8192) (t off : Nat) :
    s.paKind (a + 8 * j) ≠ .window t off := by
  simp only [slowRange, Bool.and_eq_true, decide_eq_true_eq] at hi
  unfold State.paKind
  split
  · simp
  · dsimp only
    split
    · split <;> simp
    · rw [if_neg (by simp; omega)]
      simp

/-- Words that are all readable, and that reading leaves as they are: their bytes one word after the other. -/
theorem readWords_of_good {a : Nat} {g : Nat → List Byte} : ∀ (l : List Nat) (acc : List Byte),
    (∀ i ∈ l, s.lineBad (a + 8 * i) = false ∧ s.peek (a + 8 * i) 8 = (g i, s)) →
    l.foldl (readWord a) (acc, s) = (acc ++ l.flatMap g, s)
  | [], acc, _ => by simp
  | i :: l, acc, h => by
    obtain ⟨hgood, hpeek⟩ := h i List.mem_cons_self
    have hword : readWord a (acc, s) i = (acc ++ g i, s) := by
      simp only [readWord, hgood, hpeek, Bool.false_eq_true, if_false]
    rw [List.foldl_cons, hword, List.flatMap_cons, ← List.append_assoc]
    exact readWords_of_good l _ fun j hj => h j (List.mem_cons_of_mem i hj)

/-- Metering changes nothing of what is read. -/
theorem readMetered_word {i : Nat} (hn : s.mbox.len.toNat ≤ 65536) (hi : i < s.mbox.len.toNat / 8)
    (hgood : s.lineBad (s.mbox.addr.toNat + 8 * i) = false) (hpeek : (s.peek (s.mbox.addr.toNat + 8 * i) 8).2 = s) :
    s.readMetered.lineBad (s.mbox.addr.toNat + 8 * i) = false ∧
      s.readMetered.peek (s.mbox.addr.toNat + 8 * i) 8 = ((s.peek (s.mbox.addr.toNat + 8 * i) 8).1, s.readMetered) := by
  unfold State.readMetered
  split
  next => exact ⟨hgood, Prod.ext rfl hpeek⟩
  next hs =>
    obtain ⟨j, hj⟩ := List.exists_mem_of_ne_nil s.slowWords (by simpa using hs)
    obtain ⟨hjn, hslow⟩ := List.mem_filter.mp hj
    rw [List.mem_range] at hjn
    have hno := no_window_near_slow (s := s) hslow (show j < 8192 by omega) (show i < 8192 by omega)
    rw [peek_of_no_window hno, peek_of_no_window (s := s.meterSlow 8 (8 * s.slowWords.length)) hno]
    exact ⟨hgood, rfl⟩

/-- The bytes of a range all of whose lines are readable, and that reading leaves as it is. -/
theorem mbReadBytes_of_good (hn : s.mbox.len.toNat ≤ 65536)
    (h : ∀ j < s.mbox.len.toNat / 8, s.lineBad (s.mbox.addr.toNat + 8 * j) = false ∧
      (s.peek (s.mbox.addr.toNat + 8 * j) 8).2 = s) :
    s.mbReadBytes.1 = (List.range (s.mbox.len.toNat / 8)).flatMap fun j => (s.peek (s.mbox.addr.toNat + 8 * j) 8).1 := by
  rw [mbReadBytes_eq, readWords_of_good (List.range (s.mbox.len.toNat / 8)) [] fun i hi =>
    have hin := List.mem_range.mp hi
    readMetered_word hn hin (h i hin).1 (h i hin).2, List.nil_append]

/-- The range of MREAD and MWRITE: eight-byte words, 64 KiB of them at most. -/
theorem mbRange_bounds (h : s.mbRange = true) : s.mbox.addr.toNat % 8 = 0 ∧ s.mbox.len.toNat % 8 = 0 ∧
    s.mbox.len.toNat ≤ 65536 := by
  simp only [State.mbRange, Bool.and_eq_true, decide_eq_true_eq] at h
  obtain ⟨⟨⟨⟨ha, hn⟩, -⟩, hmax⟩, -⟩ := h
  exact ⟨ha, hn, hmax⟩

/-- Byte `i` of a good range is byte `i mod 8` of its word. -/
theorem mread_data (hr : s.mbRange = true)
    (h : ∀ j < s.mbox.len.toNat / 8, s.lineBad (s.mbox.addr.toNat + 8 * j) = false ∧
      (s.peek (s.mbox.addr.toNat + 8 * j) 8).2 = s) {i : Nat} (hi : i < s.mbox.len.toNat) :
    (s.mbReadBytes.2.mbFill s.mbReadBytes.1).mbox.data.getD 0 i =
      (s.peek (s.mbox.addr.toNat + 8 * (i / 8)) 8).1.getD (i % 8) 0 := by
  obtain ⟨-, hn, hmax⟩ := mbRange_bounds hr
  have hlen : ∀ j ∈ List.range (s.mbox.len.toNat / 8), (s.peek (s.mbox.addr.toNat + 8 * j) 8).1.length = 8 :=
    fun _ _ => peek_length ..
  have hword : i / 8 < (List.range (s.mbox.len.toNat / 8)).length := by rw [List.length_range]; omega
  have hbytes := flatMap_getD_of_eight 0 _ (i / 8) hlen hword (i % 8) (Nat.mod_lt _ (by decide))
  rw [List.getD_eq_getElem _ _ hword, List.getElem_range, Nat.div_add_mod] at hbytes
  rw [mbReadBytes_of_good hmax h, mbFill_data _ (by rw [flatMap_length_of_eight hlen, List.length_range]; omega), hbytes]

/-- MREAD of a range that names no hole. -/
theorem mreadBody_of_range (h : s.mbRange = true) : mreadBody s = (0, s.mbReadBytes.2.mbFill s.mbReadBytes.1) := by
  simp only [mreadBody, h, Bool.not_true, Bool.false_eq_true, if_false]
  rfl

theorem mreadBody_of_no_range (h : s.mbRange = false) : mreadBody s = (2, s) := by
  simp only [mreadBody, h, Bool.not_false, if_true]
  rfl

end Read

/-! ### Writing memory (R127, R137, R265) -/

section Write

variable {s u w : State} {a n : Nat}

/-- What lies in the same line of HBM4E is readable or not together (R124, R137). -/
theorem lineBad_line {pa : Nat} (h : s.paKind pa = .hbm) : s.lineBad pa = s.lineBad (pa / 128 * 128) := by
  have hpa : pa < 0xC000000000 := by
    by_contra hno
    unfold State.paKind at h
    rw [if_neg hno] at h
    dsimp only at h
    split at h
    · split at h <;> cases h
    · split at h
      · split at h <;> cases h
      · cases h
  have hline : pa / 128 * 128 < 0xC000000000 := by omega
  have hk : s.paKind (pa / 128 * 128) = .hbm := if_pos hline
  have hstack : stackChannel (pa / 128 * 128) = stackChannel pa := by
    have h36 : bitsOf (pa / 128 * 128) 36 4 = bitsOf pa 36 4 := by simp only [bitsOf]; omega
    have h8 : bitsOf (pa / 128 * 128) 8 5 = bitsOf pa 8 5 := by simp only [bitsOf]; omega
    have h13 : bitsOf (pa / 128 * 128) 13 5 = bitsOf pa 13 5 := by simp only [bitsOf]; omega
    rw [stackChannel, stackChannel, h36, h8, h13]
  have hdiv : pa / 128 * 128 / 128 = pa / 128 := by omega
  simp only [State.lineBad, h, hk, State.poisoned, hpa, hline, hstack, hdiv]

theorem line_mem_linesOf {pa : Nat} (h : a ≤ pa) (hn : pa < a + n) : pa / 128 * 128 ∈ linesOf a n := by
  rw [linesOf, if_neg (by omega), List.mem_map]
  exact ⟨pa / 128 - a / 128, List.mem_range.mpr (by omega), by omega⟩

theorem mbBytes_add (s : State) (off m k : Nat) : s.mbBytes off (m + k) = s.mbBytes off m ++ s.mbBytes (off + m) k := by
  simp [State.mbBytes, List.range_add, Nat.add_assoc]

@[simp] theorem mbBytes_length (s : State) (off m : Nat) : (s.mbBytes off m).length = m := by simp [State.mbBytes]

theorem leBytes_mbWord (s : State) (i : Nat) : leBytes 8 (s.mbWord i).toNat = s.mbBytes (8 * i) 8 :=
  leBytes_w64_leNat (by simp)

/-- The words of a range of HBM4E that MWRITE may write: each is, and its line is readable or covered whole. -/
structure Writable (s : State) (a n : Nat) : Prop where
  home : ∀ j < n / 8, s.paKind (a + 8 * j) = .hbm
  lines : ∀ l ∈ linesOf a n, s.lineBad l = true → coversLine a n l = true

/-- A word of such a range is written as a store is. -/
theorem mwriteWord_of_writable (h : Writable s a n) {i : Nat} (hi : i < n / 8) (hu : u = { s with log := u.log }) :
    mwriteWord a n i u = .ok (u.wrBytes (a + 8 * i) (s.mbBytes (8 * i) 8)) := by
  have hk : u.paKind (a + 8 * i) = .hbm := by rw [hu]; exact h.home i hi
  have hbad : u.lineBad (a + 8 * i) = s.lineBad ((a + 8 * i) / 128 * 128) := by
    rw [hu]
    exact lineBad_line (h.home i hi)
  have hline := h.lines _ (line_mem_linesOf (a := a) (n := n) (pa := a + 8 * i) (by omega) (by omega))
  have hgo : (u.lineBad (a + 8 * i) && !coversLine a n ((a + 8 * i) / 128 * 128)) = false := by
    rw [hbad]
    cases hb : s.lineBad ((a + 8 * i) / 128 * 128) with
    | false => rfl
    | true => rw [hline hb]; rfl
  have hword : u.mbWord i = s.mbWord i := by rw [hu]; rfl
  simp only [mwriteWord, hgo, mbPutWord, hk, hword, Bool.false_eq_true, if_false, State.wr, leBytes_mbWord]

/-- The first words of such a range, one after the other, are their bytes written upward. -/
theorem mwriteWords_of_writable (h : Writable s a n) : ∀ k ≤ n / 8,
    (List.range k).foldlM (fun (u : State) i => mwriteWord a n i u) s = .ok (s.wrBytes a (s.mbBytes 0 (8 * k)))
  | 0, _ => rfl
  | k + 1, hk => by
    rw [List.range_succ, List.foldlM_append, mwriteWords_of_writable h k (by omega)]
    change (mwriteWord a n k (s.wrBytes a (s.mbBytes 0 (8 * k))) >>= pure) = _
    rw [mwriteWord_of_writable h hk (wrBytes_log ..), Nat.mul_succ, mbBytes_add, wrBytes_append, mbBytes_length, Nat.zero_add]
    rfl

/-- A line of HBM4E written whole loses its mark. -/
theorem cleanLine_of_hbm {l : Nat} (h : s.paKind l = .hbm) : s.cleanLine l = s.setPoison l false := by
  simp only [State.cleanLine, h]

/-- Lines of HBM4E written whole: only marks go, and theirs do. -/
theorem cleanLines_of_hbm : ∀ (ls : List Nat) (s : State), (∀ l ∈ ls, s.paKind l = .hbm) →
    ls.foldl (fun s l => s.cleanLine l) s = { s with poison := (ls.foldl (fun s l => s.cleanLine l) s).poison } ∧
      ∀ p ∈ (ls.foldl (fun s l => s.cleanLine l) s).poison, p ∈ s.poison ∧ ∀ l ∈ ls, l / 128 ≠ p
  | [], s, _ => ⟨rfl, fun p hp => ⟨hp, fun _ hl => absurd hl List.not_mem_nil⟩⟩
  | l :: ls, s, h => by
    have hl := cleanLine_of_hbm (h l List.mem_cons_self)
    obtain ⟨hfields, hpoison⟩ := cleanLines_of_hbm ls (s.setPoison l false) fun m hm => h m (List.mem_cons_of_mem l hm)
    rw [List.foldl_cons, hl]
    refine ⟨hfields.trans rfl, fun p hp => ?_⟩
    obtain ⟨hold, hrest⟩ := hpoison p hp
    have hkept : p ∈ s.poison ∧ p ≠ l / 128 := by simpa [State.setPoison] using hold
    exact ⟨hkept.1, List.forall_mem_cons.mpr ⟨hkept.2.symm, hrest⟩⟩

/-- A write that falls into no valid table entry is the write (R217). -/
theorem tableWrite_of_invalid {f : State → State} (h : ∀ o ∈ s.tableOver a n, o.2.2 = false) : s.tableWrite a n f = f s := by
  have hnone : (s.tableOver a n).filter (fun x => x.2.2) = [] := List.filter_eq_nil_iff.mpr fun o ho => by simp [h o ho]
  rw [State.tableWrite, hnone, List.foldl_nil]

/-- The lines that MWRITE covers whole. -/
def State.coveredLines (s : State) : List Nat :=
  (linesOf s.mbox.addr.toNat s.mbox.len.toNat).filter (coversLine s.mbox.addr.toNat s.mbox.len.toNat)

/-- MWRITE of a range that can be written whole. -/
theorem mwriteBody_of_writable (hr : s.mbRange = true) (h : Writable s s.mbox.addr.toNat s.mbox.len.toNat)
    (ht : ∀ o ∈ s.tableOver s.mbox.addr.toNat s.mbox.len.toNat, o.2.2 = false) :
    mwriteBody s = (0, s.coveredLines.foldl (fun s l => s.cleanLine l)
      (s.wrBytes s.mbox.addr.toNat (s.mbBytes 0 s.mbox.len.toNat))) := by
  obtain ⟨-, hn, -⟩ := mbRange_bounds hr
  have hwords := mwriteWords_of_writable h _ (Nat.le_refl _)
  rw [show 8 * (s.mbox.len.toNat / 8) = s.mbox.len.toNat by omega] at hwords
  simp only [mwriteBody, hr, hwords, tableWrite_of_invalid ht, Bool.not_true, Bool.false_eq_true, if_false]
  rfl

theorem mwriteBody_of_no_range (h : s.mbRange = false) : mwriteBody s = (2, s) := by
  simp only [mwriteBody, h, Bool.not_false, if_true]
  rfl

/-- MWRITE fails at the first word that cannot be written, and nothing is written. -/
theorem mwriteBody_of_error (hr : s.mbRange = true) {i c : Nat} (hi : i < s.mbox.len.toNat / 8)
    (hok : (List.range i).foldlM (fun (u : State) j => mwriteWord s.mbox.addr.toNat s.mbox.len.toNat j u) s = .ok w)
    (herr : mwriteWord s.mbox.addr.toNat s.mbox.len.toNat i w = .error c) : mwriteBody s = (c, s) := by
  obtain ⟨k, hk⟩ : ∃ k, s.mbox.len.toNat / 8 = i + (1 + k) := ⟨s.mbox.len.toNat / 8 - i - 1, by omega⟩
  have hwords : (List.range (s.mbox.len.toNat / 8)).foldlM
      (fun (u : State) j => mwriteWord s.mbox.addr.toNat s.mbox.len.toNat j u) s = .error c := by
    rw [hk, List.range_add, List.foldlM_append, hok, Nat.add_comm 1 k, List.range_succ_eq_map, List.map_cons]
    change (mwriteWord s.mbox.addr.toNat s.mbox.len.toNat (i + 0) w >>= _) = _
    rw [Nat.add_zero, herr]
    rfl
  simp only [mwriteBody, hr, hwords, Bool.not_true, Bool.false_eq_true, if_false]

/-- A line covered whole is one of the range's words, so it stands in HBM4E as they do. -/
theorem covered_home (h : Writable s a n) (ha : a % 8 = 0) {l : Nat} (hl : l ∈ linesOf a n) (hc : coversLine a n l = true) :
    s.paKind l = .hbm := by
  simp only [coversLine, Bool.and_eq_true, decide_eq_true_eq] at hc
  have hline : l % 128 = 0 := by
    unfold linesOf at hl
    split at hl
    · exact absurd hl List.not_mem_nil
    · obtain ⟨i, -, rfl⟩ := List.mem_map.mp hl
      exact Nat.mul_mod_left ..
  rw [show l = a + 8 * ((l - a) / 8) by omega]
  exact h.home _ (by omega)

end Write

/-! ### What MWRITE leaves (R265) -/

section Written

variable {s : State}

/-- A byte of memory after bytes were written upward by a step that wrote nothing before. -/
theorem written_byte {a : Nat} {l : List Byte} (hlog : s.log = []) (x : Nat) :
    Mem.get (Mem.flush s.mem (s.wrBytes a l).log) x =
      if a ≤ x ∧ x < a + l.length then l.getD (x - a) 0 else Mem.get s.mem x := by
  have hmem : (s.wrBytes a l).mem = s.mem := by rw [wrBytes_log]
  have hold : s.byte x = Mem.get s.mem x := by simp [State.byte, hlog, logGet]
  rw [← hmem, byte_flush, byte_wrBytes, hold, hmem]

theorem mbBytes_getD {m i : Nat} (h : i < m) : (s.mbBytes 0 m).getD i 0 = s.mbox.data.getD 0 i := by
  simp [State.mbBytes, List.getD_eq_getElem?_getD, h]

variable {u : State} (hlog : s.log = []) (hr : s.mbRange = true) (h : Writable s s.mbox.addr.toNat s.mbox.len.toNat)
  (hu : u = s.coveredLines.foldl (fun s l => s.cleanLine l) (s.wrBytes s.mbox.addr.toNat (s.mbBytes 0 s.mbox.len.toNat)))

include hr h hu

theorem mwrite_fields : u = { s.wrBytes s.mbox.addr.toNat (s.mbBytes 0 s.mbox.len.toNat) with poison := u.poison } ∧
    ∀ p ∈ u.poison, p ∈ s.poison ∧ ∀ l ∈ s.coveredLines, l / 128 ≠ p := by
  obtain ⟨ha, -⟩ := mbRange_bounds hr
  have hhome : ∀ l ∈ s.coveredLines, (s.wrBytes s.mbox.addr.toNat (s.mbBytes 0 s.mbox.len.toNat)).paKind l = .hbm := by
    intro l hl
    obtain ⟨hmem, hcov⟩ := List.mem_filter.mp hl
    rw [wrBytes_log]
    exact covered_home h ha hmem hcov
  obtain ⟨hfields, hpoison⟩ := cleanLines_of_hbm _ _ hhome
  rw [← hu] at hfields hpoison
  refine ⟨hfields, fun p hp => ?_⟩
  have hold := hpoison p hp
  rwa [wrBytes_log] at hold

theorem mwrite_window : WindowOnly s u := by
  refine windowOnly_of_same ?_
  rw [(mwrite_fields hr h hu).1, wrBytes_log]

include hlog

theorem mwrite_byte (c x : Nat) : Mem.get (endStep s (u.mbEnded c)).mem x =
    if s.mbox.addr.toNat ≤ x ∧ x < s.mbox.addr.toNat + s.mbox.len.toNat then s.mbox.data.getD 0 (x - s.mbox.addr.toNat)
    else Mem.get s.mem x := by
  have hl : (u.mbEnded c).log = (s.wrBytes s.mbox.addr.toNat (s.mbBytes 0 s.mbox.len.toNat)).log := by
    rw [(mwrite_fields hr h hu).1]
    rfl
  rw [endStep_mem, hl, written_byte hlog, mbBytes_length]
  split
  · rw [mbBytes_getD (by omega)]
  · rfl

end Written

/-! ### Tables (R140, R194, R238, R248, R265, R266) -/

section Tables

variable {s : State}

theorem bitsOf_extract (w : W64) (lo n : Nat) : bitsOf w.toNat lo n = (w.extractLsb' lo n).toNat := by
  rw [BitVec.extractLsb'_toNat, Nat.shiftRight_eq_div_pow, bitsOf]

theorem bitsOf_eq_zero {w : W64} {lo n : Nat} : bitsOf w.toNat lo n = 0 ↔ w.extractLsb' lo n = 0 := by
  rw [bitsOf_extract]
  exact ⟨fun h => BitVec.eq_of_toNat_eq h, fun h => by rw [h]; rfl⟩

/-- The rule that a word of the configuration breaks (R266, R267). -/
def State.pkgcfgBreaks (s : State) : Bool :=
  (decide (s.mbEntry = 20) && (decide ((s.mbWord 0).toNat < 400) || decide ((s.mbWord 0).toNat > 3200))) ||
    (decide (s.mbEntry = 21) && !podOk (s.mbWord 0).toNat) || (decide (s.mbEntry ≥ 22) && decide ((s.mbWord 0).toNat ≠ 0))

/-- A word that keeps its rule is written at S0, PLIM at any level. -/
theorem twPkgcfg_of_rule (hn : s.mbEntry ≤ 20) (hl : s.level = 0 ∨ s.mbEntry = 20) (hr : s.pkgcfgBreaks = false) :
    twPkgcfg s = (0, { s with pkgcfg := s.pkgcfg.put s.mbEntry (s.mbWord 0) }) := by
  have hlevel : (decide (s.level ≠ 0) && decide (s.mbEntry ≠ 20)) = false := by
    rcases hl with h | h <;> simp [h]
  rw [State.pkgcfgBreaks] at hr
  simp only [twPkgcfg, hlevel, hr, if_neg (show ¬s.mbEntry ≥ 32 by omega), w64_of_toNat, Bool.false_eq_true, if_false]
  rfl

theorem pkgcfgBreaks_of_word (hn : s.mbEntry < 20) : s.pkgcfgBreaks = false := by
  simp [State.pkgcfgBreaks, show s.mbEntry ≠ 20 by omega, show s.mbEntry ≠ 21 by omega, show ¬22 ≤ s.mbEntry by omega]

theorem pkgcfgBreaks_of_plim (hn : s.mbEntry = 20) (hlo : 400 ≤ (s.mbWord 0).toNat) (hhi : (s.mbWord 0).toNat ≤ 3200) :
    s.pkgcfgBreaks = false := by
  simp [State.pkgcfgBreaks, hn, hlo, hhi]

/-- Above S0 only PLIM is written. -/
theorem twPkgcfg_of_level (hn : s.mbEntry < 20) (hl : s.level ≠ 0) : twPkgcfg s = (4, s) := by
  simp only [twPkgcfg, if_neg (show ¬s.mbEntry ≥ 32 by omega), decide_eq_true hl,
    decide_eq_true (show s.mbEntry ≠ 20 by omega), Bool.and_self, if_true]
  rfl

/-- What a partition loads into its rows changes tiles only. -/
theorem partLoad_fields (s : State) (old e : List W64) :
    (s.partLoad old e).parts = s.parts ∧ (s.partLoad old e).mbox = s.mbox := by
  have hkeeps : ((s.partLoad old e).parts, (s.partLoad old e).mbox) = (s.parts, s.mbox) := by
    unfold State.partLoad
    refine foldl_keeps (fun u : State => (u.parts, u.mbox)) (fun u r => ?_) _ s
    refine foldl_keeps (fun u : State => (u.parts, u.mbox)) (fun u c => ?_) _ u
    dsimp only
    split <;> rfl
  exact Prod.mk.inj hkeeps

theorem map_getD_put_at {α : Type} (m : Map α) (d v : α) (x y : Nat) :
    (m.put x v).getD d y = if y = x then v else m.getD d y := by
  rw [map_getD_put]
  simp only [eq_comm]

/-- An entry that passes its check is put, and its rows are loaded (R238). -/
theorem twPartition_of_ok (hn : s.mbEntry < 8) (h : s.partOk s.mbEntry ((List.range 16).map s.mbWord) = true) :
    ∃ u, twPartition s = (0, u) ∧ u.mbox = s.mbox ∧
      ∀ p, u.partE p = if p = s.mbEntry then (List.range 16).map s.mbWord else s.partE p := by
  obtain ⟨hparts, hmbox⟩ := partLoad_fields { s with parts := s.parts.put s.mbEntry ((List.range 16).map s.mbWord) }
    (s.partE s.mbEntry) ((List.range 16).map s.mbWord)
  refine ⟨_, ?_, hmbox, fun p => ?_⟩
  · simp only [twPartition, h, if_neg (show ¬s.mbEntry ≥ 8 by omega), Bool.not_true, Bool.false_eq_true, if_false]
    rfl
  · rw [State.partE, hparts]
    exact map_getD_put_at ..

theorem twPartition_of_bad (hn : s.mbEntry < 8) (h : s.partOk s.mbEntry ((List.range 16).map s.mbWord) = false) :
    twPartition s = (1, s) := by
  simp only [twPartition, h, if_neg (show ¬s.mbEntry ≥ 8 by omega), Bool.not_false, if_true]
  rfl

/-- The class of slow-tier traffic, which has no budget of its own (R248). -/
theorem twRegclass_of_slow (hn : s.mbEntry = 8) (hz : (s.mbWord 0).extractLsb' 48 15 = 0)
    (hb : (s.mbWord 0).extractLsb' 0 16 = 0) (hr : rcRate (s.mbWord 0) ≤ rcDepth (s.mbWord 0)) :
    twRegclass s = (0, { s with regclass := s.regclass.put 8 (s.mbWord 0) }) := by
  have hbudget : rcBudget (s.mbWord 0) = 0 := bitsOf_eq_zero.mpr hb
  simp only [twRegclass, hn, bitsOf_eq_zero.mpr hz, hbudget, decide_eq_false (Nat.not_lt.mpr hr), ne_eq, not_true_eq_false,
    decide_false, Bool.or_self, Bool.false_eq_true, if_false, if_neg (show ¬8 > 8 by decide), if_true, gt_iff_lt]
  rfl

theorem twRegclass_of_bad (hn : s.mbEntry ≤ 8)
    (h : (s.mbWord 0).extractLsb' 48 15 ≠ 0 ∨ rcDepth (s.mbWord 0) < rcRate (s.mbWord 0)) : twRegclass s = (1, s) := by
  have hbad : (decide (bitsOf (s.mbWord 0).toNat 48 15 ≠ 0) || decide (rcRate (s.mbWord 0) > rcDepth (s.mbWord 0))) = true := by
    rw [Bool.or_eq_true, decide_eq_true_eq, decide_eq_true_eq, ne_eq, bitsOf_eq_zero]
    exact h
  simp only [twRegclass, hbad, if_neg (show ¬s.mbEntry > 8 by omega), if_true]
  rfl

theorem map_getD_eq {α : Type} (m : Map α) (d : α) (x : Nat) : m.getD d x = (m.get? x).getD d := by
  induction m with
  | nil => rfl
  | cons p m ih =>
    rw [Map.getD, Map.get?, ih]
    split <;> rfl

theorem map_getD_del {α : Type} (m : Map α) (d : α) (x y : Nat) : (m.del x).getD d y = if y = x then d else m.getD d y := by
  rw [map_getD_eq, map_getD_eq, map_get_del]
  split <;> rfl

theorem twErrorCounter_of_stack (hn : s.mbEntry < 12) :
    twErrorCounter s = (0, { s with stackErr := s.stackErr.del s.mbEntry }) := if_neg (by omega)

/-- A page's entry is dropped by the page's number or its address. -/
theorem mem_poisonList {p : Nat} : p ∈ (twPoisonList s).2.poisonPages ↔
    p ∈ s.poisonPages ∧ p ≠ s.mbox.arg.toNat ∧ p * 65536 ≠ s.mbox.arg.toNat := by
  simp [twPoisonList]

end Tables

/-! ### Work queues (R194) -/

section WorkQueue

variable {s : State}

/-- The eight words of the window. -/
def State.windowEntry (s : State) : List W64 := (List.range 8).map s.mbWord

theorem windowEntry_getD {i : Nat} (h : i < 8) : s.windowEntry.getD i 0 = s.mbWord i := by
  simp [State.windowEntry, List.getD_eq_getElem?_getD, h]

theorem windowEntry_wAt {i : Nat} (h : i < 8) : wAt s.windowEntry i = (s.mbWord i).toNat :=
  congrArg BitVec.toNat (windowEntry_getD h)

/-- The entry that a write of the table puts: SAMP and the sequence numbers stay as they were. -/
def State.queueWritten (s : State) : List W64 :=
  let old := s.queueE s.mbEntry
  (((setField s.windowEntry 0 27 2 (bitsOf (wAt old 0) 27 2)).set 2 (old.getD 2 0)).set 3 (old.getD 3 0)).set 4 (old.getD 4 0)

/-- What the check of a work-queue entry asks of its words. -/
structure QueueOk (s : State) : Prop where
  low : (s.mbWord 0).extractLsb' 0 26 = 0
  low1 : (s.mbWord 1).extractLsb' 0 16 = 0
  high1 : (s.mbWord 1).extractLsb' 52 12 = 0
  word6 : s.mbWord 6 = 0
  word7 : s.mbWord 7 = 0
  size : (s.mbWord 0).extractLsb' 43 6 ≠ 0
  limit : (s.mbWord 0).extractLsb' 29 7 ≤ (s.mbWord 0).extractLsb' 36 7

theorem enqwWake_of_no_waits (n : Nat) (h : s.waits = []) : s.enqwWake n = s := by
  rw [State.enqwWake, h, List.foldl_nil]

/-- An entry that passes its check is put (R194). -/
theorem twWorkqueue_of_ok (hn : s.mbEntry < 8192) (hw : s.waits = []) (h : QueueOk s) :
    ∃ u, twWorkqueue s = (0, u) ∧ u.mbox = s.mbox ∧
      ∀ m, u.queueE m = if m = s.mbEntry then s.queueWritten else s.queueE m := by
  have h0 : bitsOf (wAt s.windowEntry 0) 0 26 = 0 := by rw [windowEntry_wAt (by decide), bitsOf_eq_zero]; exact h.low
  have h1 : wAt s.windowEntry 1 % 2 ^ 16 = 0 := by
    rw [windowEntry_wAt (by decide), ← bitsOf_low, bitsOf_eq_zero]
    exact h.low1
  have h2 : wAt s.windowEntry 1 / 2 ^ 52 = 0 := by
    have hlt := (s.mbWord 1).isLt
    have hz := bitsOf_eq_zero.mpr h.high1
    rw [bitsOf] at hz
    rw [windowEntry_wAt (by decide)]
    omega
  have h6 : wAt s.windowEntry 6 = 0 := by rw [windowEntry_wAt (by decide), h.word6]; rfl
  have h7 : wAt s.windowEntry 7 = 0 := by rw [windowEntry_wAt (by decide), h.word7]; rfl
  have h8 : bitsOf (wAt s.windowEntry 0) 43 6 ≠ 0 := by
    rw [windowEntry_wAt (by decide), ne_eq, bitsOf_eq_zero]
    exact h.size
  have h9 : ¬qSlim s.windowEntry > qScap s.windowEntry := by
    rw [qSlim, qScap, windowEntry_wAt (by decide), bitsOf_extract, bitsOf_extract]
    exact Nat.not_lt.mpr h.limit
  have hok : (decide (bitsOf (wAt s.windowEntry 0) 0 26 ≠ 0) || decide (wAt s.windowEntry 1 % 2 ^ 16 ≠ 0) ||
      decide (wAt s.windowEntry 1 / 2 ^ 52 ≠ 0) || decide (wAt s.windowEntry 6 ≠ 0) || decide (wAt s.windowEntry 7 ≠ 0) ||
      (qV s.windowEntry && decide (bitsOf (wAt s.windowEntry 0) 43 6 = 0)) ||
      decide (qSlim s.windowEntry > qScap s.windowEntry)) = false := by
    simp only [h0, h1, h2, h6, h7, h8, h9, ne_eq, not_true_eq_false, decide_false, Bool.and_false, Bool.or_self]
  rw [State.windowEntry] at hok
  simp only [twWorkqueue, hok, if_neg (show ¬s.mbEntry ≥ 8192 by omega), Bool.false_eq_true, if_false]
  rw [enqwWake_of_no_waits s.mbEntry (by exact hw)]
  exact ⟨_, rfl, rfl, fun m => map_getD_put_at ..⟩

theorem getD_set_same {l : List W64} {i : Nat} {v d : W64} (h : i < l.length) : (l.set i v).getD i d = v := by
  simp [List.getD_eq_getElem?_getD, h]

/-- Words that submissions, takes and ends count stay (R194). -/
theorem queueWritten_kept {j : Nat} (hlo : 2 ≤ j) (hhi : j ≤ 4) :
    s.queueWritten.getD j 0 = (s.queueE s.mbEntry).getD j 0 := by
  rw [State.queueWritten]
  interval_cases j
  · rw [getD_set_other _ _ _ (by decide), getD_set_other _ _ _ (by decide),
      getD_set_same (by simp [setField, State.windowEntry])]
  · rw [getD_set_other _ _ _ (by decide), getD_set_same (by simp [setField, State.windowEntry])]
  · rw [getD_set_same (by simp [setField, State.windowEntry])]

theorem queueWritten_word {j : Nat} (h : j = 1 ∨ j = 5) : s.queueWritten.getD j 0 = s.mbWord j := by
  have hj : j < 8 := by omega
  rw [State.queueWritten, getD_set_other _ _ _ (by omega), getD_set_other _ _ _ (by omega), getD_set_other _ _ _ (by omega),
    setField, getD_set_other _ _ _ (by omega), windowEntry_getD hj]

/-- Bits of word 0 other than SAMP are those of the window. -/
theorem queueWritten_bit {k : Nat} (hk : k < 64) (h27 : k ≠ 27) (h28 : k ≠ 28) :
    (s.queueWritten.getD 0 0).getLsbD k = (s.mbWord 0).getLsbD k := by
  obtain ⟨v, hword⟩ : ∃ v, s.queueWritten.getD 0 0 = w64 (setBits (s.mbWord 0).toNat 27 2 v) := by
    refine ⟨bitsOf (wAt (s.queueE s.mbEntry) 0) 27 2, ?_⟩
    rw [State.queueWritten, getD_set_other _ _ _ (by decide), getD_set_other _ _ _ (by decide),
      getD_set_other _ _ _ (by decide), setField, windowEntry_wAt (by decide), getD_set_same (by simp [State.windowEntry])]
  have hbit : bitsOf (setBits (s.mbWord 0).toNat 27 2 v) k 1 = bitsOf (s.mbWord 0).toNat k 1 :=
    if h : k < 27 then bitsOf_setBits_below h else bitsOf_setBits_above (by omega)
  simp only [bitsOf, Nat.pow_one] at hbit
  rw [hword, w64, BitVec.getLsbD_ofNat, ← BitVec.testBit_toNat, Nat.testBit_eq_decide_div_mod_eq,
    Nat.testBit_eq_decide_div_mod_eq, hbit, decide_eq_true hk, Bool.true_and]

end WorkQueue

/-! ### TREAD, LEVEL, ATTEST and FWSTAGE (R265, R273, R281, R282) -/

section Commanded

variable {s : State} {n : Nat}

theorem tread_config (ht : s.mbox.tbl = 0) (hn : s.mbEntry < 32) :
    treadBody s = (0, s.mbFill (wordBytes [s.pkgcfg.getD 0 s.mbEntry])) := by
  simp only [treadBody, ht, if_pos hn]
  rfl

theorem tread_partition (ht : s.mbox.tbl = 1) (hn : s.mbEntry < 8) :
    treadBody s = (0, s.mbFill (wordBytes (s.partE s.mbEntry))) := by
  simp only [treadBody, ht, if_pos hn]
  rfl

theorem tread_class (ht : s.mbox.tbl = 2) (hn : s.mbEntry ≤ 8) :
    treadBody s = (0, s.mbFill (wordBytes [s.regclass.getD 0 s.mbEntry])) := by
  simp only [treadBody, ht, if_pos hn]
  rfl

theorem tread_queue (ht : s.mbox.tbl = 3) (hn : s.mbEntry < 8192) :
    treadBody s = (0, s.mbFill (wordBytes (s.queueE s.mbEntry))) := by
  simp only [treadBody, ht, if_pos hn]
  rfl

theorem tread_errors (ht : s.mbox.tbl = 5) (hn : s.mbEntry < 12) :
    treadBody s = (0, s.mbFill (wordBytes [w64 (s.stackErr.getD 0 s.mbEntry)])) := by
  simp only [treadBody, ht, if_pos hn]
  rfl

/-- The level rises by one, and no further than level 2 (R273). -/
theorem levelBody_eq (s : State) : levelBody s =
    if s.mbox.arg.toNat % 4 = s.level + 1 ∧ s.mbox.arg.toNat % 4 ≤ 2 then (0, { s with level := s.level + 1 }) else (2, s) := by
  simp only [levelBody, Bool.and_eq_true, decide_eq_true_eq]
  split
  next h => rw [h.1]; rfl
  next => rfl

theorem le_report_length (s : State) : 32 ≤ s.report.length := by
  simp only [State.report, List.length_append, mbBytes_length]
  omega

/-- The attestation report begins with the nonce, the window's first 32 bytes (R282). -/
theorem report_nonce {i : Nat} (r : List Byte) (h : i < 32) : (s.report ++ r).getD i 0 = s.mbox.data.getD 0 i := by
  have hlen : i < (s.mbBytes 0 32).length := by rwa [mbBytes_length]
  rw [State.report]
  simp only [List.append_assoc]
  rw [List.getD_append _ _ _ _ hlen, mbBytes_getD h]

theorem attestBody_of_leaf (h : s.leaf < 2 ^ 20) : attestBody s = (0, ({ s with leaf := s.leaf + 1 } : State).mbFill
    (s.report ++ (Config.xmssSign s.leaf s.report).take (65536 - 128))) := if_neg (Nat.not_le.mpr h)

theorem attestBody_of_exhausted (h : ¬s.leaf < 2 ^ 20) : attestBody s = (5, s) := if_pos (Nat.not_lt.mp h)

theorem fwstageBody_of_level (h : s.level ≠ 0) : fwstageBody s = (4, s) := if_pos h

/-- An image is staged when its signature holds (R281). -/
theorem fwstageBody_of_range (hl : s.level = 0) (hr : s.mbRange = true) : fwstageBody s =
    if Config.firmwareOk s.mbReadBytes.1 = true then (0, { s.mbReadBytes.2 with fwStaged := some s.mbReadBytes.1 })
    else (2, s.mbReadBytes.2) := by
  simp only [fwstageBody, hl, hr, ne_eq, not_true_eq_false, Bool.not_true, Bool.false_eq_true, if_false]
  rfl

/-- Filling the window of a state with the same mailbox. -/
theorem mbFill_windowOnly {u : State} (bs : List Byte) (h : u.mbox = s.mbox) : WindowOnly s (u.mbFill bs) := by
  have hfill : WindowOnly u (u.mbFill bs) := mbFill_window bs
  rwa [WindowOnly, h] at hfill

end Commanded

/-! ### The obligation -/

/-- Settles O48: reads and writes of the registers, then each command by what its work comes to. -/
theorem mailboxEvents : Obligations.MailboxEvents := by
  intro s w x y z v d
  dsimp only
  refine ⟨?unmapped, ?data, ⟨hostRead_cmd, hostRead_stat⟩, ?writes, ?mread, ?mreadBad, ?mwrite, ?mwriteBad, ?mwriteFails,
    ?config, ?configLevel, ?plim, ?partition, ?classSlow, ?classBad, ?queue, ?poison, ?errors, ?tread, ?level, ?attest,
    ?fwLevel, ?fwstage⟩
  case unmapped =>
    intro off m i hi h
    rw [hostRead_getD hi, getByte_unmapped _ h]
  case data =>
    intro off m i hi h hx
    rw [hostRead_getD hi, getByte_data _ h hx]
  case writes =>
    intro hf
    have hexec := exec_mailboxRegisterWrite hf
    refine ⟨fun hb => ⟨_, hexec, ?held⟩, fun hb hd => ⟨?addr, ?len, ?arg, ?window, ?runs, ?fails⟩⟩
    case held => rw [mbWrites_of_busy hb]; rfl
    case addr =>
      rintro rfl
      refine ⟨_, hexec, ?_⟩
      rw [mbWrites_of_idle hb (by decide)]
      exact mbReg_addr.putBytes _ hd
    case len =>
      rintro rfl
      refine ⟨_, hexec, ?_⟩
      rw [mbWrites_of_idle hb (by decide)]
      exact mbReg_len.putBytes _ hd
    case arg =>
      rintro rfl
      refine ⟨_, hexec, ?_⟩
      rw [mbWrites_of_idle hb (by decide)]
      exact mbReg_arg.putBytes _ hd
    case window =>
      intro hx hend
      refine ⟨_, hexec, fun i => ?_⟩
      rw [mbWrites_of_idle hb (by omega)]
      have hput := putBytes_data s.mbox hx (show x + d.length ≤ 0x20000 by omega) i
      rw [hd] at hput
      exact hput
    case runs =>
      rintro rfl i hi
      refine ⟨_, hexec, ?_⟩
      rw [mbWrites_cmd hb hd, hi]
      exact ⟨rfl, rfl⟩
    case fails =>
      rintro rfl c hc
      refine ⟨_, hexec, ?_⟩
      rw [mbWrites_cmd hb hd, hc]
      rfl
  case mread =>
    exact fun hc hr => command_ends (commanded_of_runs hc) (mreadBody_of_range hr)
      (mbFill_windowOnly _ (mbReadBytes_access s).mbox) fun hgood i hi => mread_data hr hgood hi
  case mreadBad =>
    exact fun hc hr => command_ends (commanded_of_runs hc) (mreadBody_of_no_range hr) (windowOnly_of_same rfl) rfl
  case mwrite =>
    intro hc hlog hr hhome hlines htable
    have hw : Writable s s.mbox.addr.toNat s.mbox.len.toNat := ⟨hhome, hlines⟩
    refine command_ends (commanded_of_runs hc) (mwriteBody_of_writable hr hw htable) (mwrite_window hr hw rfl)
      ⟨fun a ha => ?_, fun i hi => ?_, fun l hl hcov hp => ?_⟩
    · rw [mwrite_byte hlog hr hw rfl, if_neg (by omega)]
    · rw [mwrite_byte hlog hr hw rfl, if_pos (by omega), Nat.add_sub_cancel_left]
    · exact ((mwrite_fields hr hw rfl).2 _ hp).2 l (List.mem_filter.mpr ⟨hl, hcov⟩) rfl
  case mwriteBad =>
    exact fun hc hr => command_ends (commanded_of_runs hc) (mwriteBody_of_no_range hr) (windowOnly_of_same rfl) rfl
  case mwriteFails =>
    exact fun hc hr i c hi hok herr =>
      command_ends (commanded_of_runs hc) (mwriteBody_of_error hr hi hok herr) (windowOnly_of_same rfl) rfl
  case config =>
    exact fun hc hn hl => command_ends (commanded_of_table hc)
      (twPkgcfg_of_rule (by omega) (.inl hl) (pkgcfgBreaks_of_word hn)) (windowOnly_of_same rfl) fun j => map_getD_put_at ..
  case configLevel =>
    exact fun hc hn hl => command_ends (commanded_of_table hc) (twPkgcfg_of_level hn hl) (windowOnly_of_same rfl) rfl
  case plim =>
    exact fun hc hn hlo hhi => command_ends (commanded_of_table hc)
      (twPkgcfg_of_rule (by omega) (.inr hn) (pkgcfgBreaks_of_plim hn hlo hhi)) (windowOnly_of_same rfl)
      ((map_getD_put ..).trans (if_pos hn))
  case partition =>
    refine fun hc hn => ⟨fun hok => ?_,
      fun hbad => command_ends (commanded_of_table hc) (twPartition_of_bad hn hbad) (windowOnly_of_same rfl) rfl⟩
    obtain ⟨u, hbody, hmbox, hparts⟩ := twPartition_of_ok hn hok
    exact command_ends (commanded_of_table hc) hbody (windowOnly_of_same hmbox) hparts
  case classSlow =>
    exact fun hc hn hz hbudget hrate => command_ends (commanded_of_table hc) (twRegclass_of_slow hn hz hbudget hrate)
      (windowOnly_of_same rfl) fun c => map_getD_put_at ..
  case classBad =>
    exact fun hc hn hbad => command_ends (commanded_of_table hc) (twRegclass_of_bad hn hbad) (windowOnly_of_same rfl) rfl
  case queue =>
    intro hc hn hw h0 h1 h2 h6 h7 hsize hlimit _
    obtain ⟨u, hbody, hmbox, hent⟩ := twWorkqueue_of_ok hn hw ⟨h0, h1, h2, h6, h7, hsize, hlimit⟩
    have hself : u.queueE s.mbEntry = s.queueWritten := (hent _).trans (if_pos rfl)
    refine command_ends (commanded_of_table hc) hbody (windowOnly_of_same hmbox) ?_
    simp only [endStep_queueE, mbEnded_queueE, hself]
    exact ⟨queueWritten_word (.inl rfl), fun j => queueWritten_kept, queueWritten_word (.inr rfl),
      fun k => queueWritten_bit, fun m hm => (hent m).trans (if_neg hm)⟩
  case poison =>
    exact fun hc => command_ends (commanded_of_table hc) (u := (twPoisonList s).2) rfl (windowOnly_of_same rfl)
      fun p => mem_poisonList
  case errors =>
    exact fun hc hn => command_ends (commanded_of_table hc) (twErrorCounter_of_stack hn) (windowOnly_of_same rfl)
      fun k => map_getD_del ..
  case tread =>
    intro hc
    have hread : ∀ l, treadBody s = (0, s.mbFill (wordBytes l)) → ∃ t, exec .tread s = .next t ∧
        (t.mbox.stat = w64 0 ∧ t.mbox.msix = s.mbox.msix + 1) ∧ ∀ i < l.length, t.mbWord i = l.getD i 0 :=
      fun l hl => command_ends (commanded_of_runs hc) hl (mbFill_window _) fun i hi => mbWord_mbFill l hi
    have hone : ∀ v, treadBody s = (0, s.mbFill (wordBytes [v])) → ∃ t, exec .tread s = .next t ∧
        (t.mbox.stat = w64 0 ∧ t.mbox.msix = s.mbox.msix + 1) ∧ t.mbWord 0 = v :=
      fun v hv => command_ends (commanded_of_runs hc) hv (mbFill_window _) (mbWord_mbFill [v] Nat.one_pos)
    exact ⟨fun ht hn => hone _ (tread_config ht hn), fun ht hn => hread _ (tread_partition ht hn),
      fun ht hn => hone _ (tread_class ht hn), fun ht hn => hread _ (tread_queue ht hn),
      fun ht hn => hone _ (tread_errors ht hn)⟩
  case level =>
    intro hc
    by_cases hl : s.mbox.arg.toNat % 4 = s.level + 1 ∧ s.mbox.arg.toNat % 4 ≤ 2
    · simp only [if_pos hl]
      exact command_ends (commanded_of_runs hc) ((levelBody_eq s).trans (if_pos hl)) (windowOnly_of_same rfl) rfl
    · simp only [if_neg hl]
      exact command_ends (commanded_of_runs hc) ((levelBody_eq s).trans (if_neg hl)) (windowOnly_of_same rfl) rfl
  case attest =>
    intro hc
    by_cases hl : s.leaf < 2 ^ 20
    · simp only [if_pos hl]
      refine command_ends (commanded_of_runs hc) (attestBody_of_leaf hl) (mbFill_windowOnly _ rfl) ⟨rfl, fun i hi => ?_⟩
      have hlen := le_report_length s
      exact (mbFill_data _ (by rw [List.length_append]; omega)).trans (report_nonce _ hi)
    · simp only [if_neg hl]
      exact command_ends (commanded_of_runs hc) (attestBody_of_exhausted hl) (windowOnly_of_same rfl) rfl
  case fwLevel =>
    exact fun hc hl => command_ends (commanded_of_runs hc) (fwstageBody_of_level hl) (windowOnly_of_same rfl) rfl
  case fwstage =>
    intro hc hl hr
    have hread := mbReadBytes_access s
    by_cases hok : Config.firmwareOk s.mbReadBytes.1 = true
    · simp only [if_pos hok]
      exact command_ends (commanded_of_runs hc) ((fwstageBody_of_range hl hr).trans (if_pos hok))
        (windowOnly_of_same hread.mbox) rfl
    · simp only [if_neg hok]
      exact command_ends (commanded_of_runs hc) ((fwstageBody_of_range hl hr).trans (if_neg hok))
        (windowOnly_of_same hread.mbox) hread.fwStaged

end Sys2Proof.Machine
